-- ==== Sys2Proof/Word.lean ====
section
/-! DEFINITION. The word types of the CKZ-6400 (00_scope.md R3, 05_encoding.md R122). -/

namespace Sys2Proof

/-- One byte of memory (R3). -/
abbrev Byte := BitVec 8

/-- An instruction word, a clause header, an extension word or a 32-bit register (R118, R122). -/
abbrev Word := BitVec 32

/-- A 64-bit scalar register, counter or device register (R79, R486). -/
abbrev Word64 := BitVec 64

/-- An 80-bit virtual address (06_memory.md R167). -/
abbrev VAddr := BitVec 80

end Sys2Proof
end

