-- ==== Sys2Proof/Syntax.lean ====
section
/-! DEFINITION. The instructions and events of the CKZ-6400: one constructor per row of the opcode table. Register
fields, numbers and words are bit vectors of the encoded width; names the machine only tells apart are inductive types. -/

namespace Sys2Proof

/-- Type codes (05_encoding.md R128). -/
inductive Ty where
  | i8 | i16 | i32 | i64 | n8 | n16 | n32 | n64 | b8 | b16 | b32 | b64 | b128
  | f32 | f16 | bf16 | e4m3 | e5m2 | e2m1 | e8m0 | t2
deriving DecidableEq, Repr

/-- Scopes LOT to SYS, codes 0 to 4 (07_ordering.md R183). -/
inductive Scope where
  | lot | clu | die | pkg | sys
deriving DecidableEq, Repr

/-- Rounding modes, codes 0 to 4 (04_numbers.md R99). -/
inductive Rnd where
  | rn | rz | rd | ru | rs
deriving DecidableEq, Repr

/-- Address spaces of memory instructions (R130). -/
inductive Space where
  | g | v | l
deriving DecidableEq, Repr

/-- Operations of ATOM and RED (R131). -/
inductive AtomOp where
  | add | min | max | and | or | xor | exch | cas | inc | dec
deriving DecidableEq, Repr

/-- ORDER of an atomic (R131). -/
inductive AtomOrder where
  | relaxed | acq | rel | ar
deriving DecidableEq, Repr

/-- Access sizes of format M3 (R130). -/
inductive MSize where
  | n8 | n16 | i8 | i16 | b32 | b64 | b128
deriving DecidableEq, Repr

/-- Displacement words of format M3 with DX 1 and 2 (R130). -/
inductive Disp where
  | d32 (v : BitVec 32)
  | d64 (v : BitVec 64)
deriving DecidableEq, Repr

/-- Fence kinds (R183). -/
inductive FenceKind where
  | acq | rel | ar
deriving DecidableEq, Repr

/-- Levels of CANCEL (R353). -/
inductive CancelLevel where
  | launch | graph | phase | job
deriving DecidableEq, Repr

/-- Modes of SHFL (R429). -/
inductive ShflMode where
  | idx | xor | up | dn
deriving DecidableEq, Repr

/-- Modes of VOTE (R445). -/
inductive VoteMode where
  | all | any | same | par
deriving DecidableEq, Repr

/-- Modes of MMA (R134). -/
inductive MmaMode where
  | ss | mx | bf16
deriving DecidableEq, Repr

/-- MX element formats of MMA (R134). -/
inductive MxFmt where
  | e4m3 | e5m2 | e2m1
deriving DecidableEq, Repr

/-- LRED operations of the M form (R398). -/
inductive BitOp where
  | and | or | xor
deriving DecidableEq, Repr

/-- Special registers of SRD and SWR (17_ref_s_z.md R431). -/
inductive SReg where
  | tid | lane | warp | lot | lotx | loty | lotz | gridx | gridy | gridz | core | die | ctx
  | clock | params | paramsh | faddr | faddrh | tags | fstat | rseed | dsm | lotdone
deriving DecidableEq, Repr

/-- The M word of formats A and P without its SUB, with the immediate word that follows when BI = 1 (R127).
The rounding field is kept as written, since some instructions ignore it (R375). -/
structure MWord where
  ty : Ty
  rnd : BitVec 3
  c : BitVec 7
  imm : Option Word
  pc : BitVec 3
deriving DecidableEq, Repr

/-- Format A (R126): `m = none` is a short form. -/
structure FmtA where
  p : BitVec 3
  d : BitVec 7
  a : BitVec 7
  b : BitVec 7
  m : Option MWord
deriving DecidableEq, Repr

/-- Format P (R126, R129): `m = none` is a short form. -/
structure FmtP where
  p : BitVec 3
  s : Bool
  cc : BitVec 3
  pd : BitVec 3
  a : BitVec 7
  b : BitVec 7
  m : Option MWord
deriving DecidableEq, Repr

/-- LOP3: format A with X = 3, and the truth table of the word that follows (R397). -/
structure FmtLop3 where
  p : BitVec 3
  d : BitVec 7
  a : BitVec 7
  b : BitVec 7
  c : BitVec 7
  ty : Ty
  table : BitVec 8
deriving DecidableEq, Repr

/-- CVT (R361). -/
structure FmtCvt where
  p : BitVec 3
  d : BitVec 7
  a : BitVec 7
  dst : Ty
  src : Ty
  rnd : Rnd
deriving DecidableEq, Repr

/-- ATOM and RED with the AX word (R131). -/
structure FmtAt where
  p : BitVec 3
  d : BitVec 7
  a : BitVec 7
  b : BitVec 7
  op : AtomOp
  ty : Ty
  scope : Scope
  order : AtomOrder
  sp : Space
  flow : BitVec 2
  c : BitVec 7
deriving DecidableEq, Repr

/-- Format M3 without displacement (R130). -/
structure FmtM3 where
  p : BitVec 3
  d : BitVec 7
  a : BitVec 7
  sp : Space
  flow : BitVec 2
  sz : MSize
deriving DecidableEq, Repr

/-- BAR (R343). -/
structure FmtBar where
  p : BitVec 3
  b : BitVec 4
  cn : Bool
  n : BitVec 7
deriving DecidableEq, Repr

/-- Cache operations (R354). -/
structure FmtCache where
  p : BitVec 3
  scope : Scope
  a : BitVec 7
  d : BitVec 7
  sp : Space
deriving DecidableEq, Repr

/-- MMA (R134). -/
structure FmtMma where
  p : BitVec 3
  mode : MmaMode
  acc : BitVec 4
  oa : BitVec 5
  ob : BitVec 5
  fa : MxFmt
  fb : MxFmt
deriving DecidableEq, Repr

/-- QUANT with its extension word (R412). -/
structure FmtQuant where
  p : BitVec 3
  acc : BitVec 4
  a : BitVec 7
  ty : Ty
  rnd : Rnd
  tomem : Bool
  slot : BitVec 5
deriving DecidableEq, Repr

/-- RSEND and RFETCH with the route word (R134, R135). -/
structure FmtQ where
  p : BitVec 3
  d : BitVec 7
  a : BitVec 7
  sz : MSize
  flow : BitVec 2
  route : Word
deriving DecidableEq, Repr

/-- A lane of a resident lot: global core, barker context, warp (32 for the barker) and home lane. -/
structure LaneId where
  core : Nat
  bctx : Nat
  w : Nat
  l : Nat
deriving DecidableEq, Repr

/-- Who asks at a hammer cell: an access of this module, or another module over the slot fabric (R224, R228). -/
inductive CellReq where
  | own (acc : Nat)
  | other (modid : Nat) (pa : Nat) (value : BitVec 64) (bidId : Word) (expgen : Word)
deriving DecidableEq, Repr

/-- The reply of another module to a remote cell request (R228). -/
inductive RemoteReply where
  | result (value : BitVec 64) (winner : Word) (status : Word)
  | error (code : Nat)
deriving DecidableEq, Repr

/-- Who reads or writes a device register (R6, R203, R305, 13_platform.md). -/
inductive RegAgent where
  | host | marketMaster | commandProcessor
deriving DecidableEq, Repr

/-- Width of a device-register access: all 8 bytes, or the lower or upper word (R486). -/
inductive RegPart where
  | whole | lower | upper
deriving DecidableEq, Repr

/-- What a start finds at its first steps (R324, R331): the ROM and fuse checks, the firmware image with its version, and
the lowest stack temperature in degrees Celsius when warming begins. -/
structure BootInfo where
  romOk : Bool
  version : Nat
  image : List Byte
  cold : Int
deriving DecidableEq, Repr

/-- How a training ends (R316, R324): that of the DRAM channels at step 4, of the optical planes at step 5, else of one
link at a rate (0 and 1 the host ports, 2 + n slot-fabric port n); with the core dies, vaults and DRAM channels found
faulty and the wavelengths that did not lock. -/
structure StepResult where
  ok : Bool
  link : Nat
  rate : Nat
  faultyDies : List Nat
  faultyVaults : List Nat
  faultyChannels : List (Nat × Nat)
  lostWl : List (Nat × Nat × Bool × Nat)
deriving DecidableEq, Repr

/-- What stands at the end of the warming of step 3 (R324): the temperatures of the stacks, whether every laser is in its window, and
the core dies, vaults and DRAM channels found faulty. -/
structure WarmEnd where
  temps : List Int
  found : StepResult
deriving DecidableEq, Repr

/-- A slice that the Market Master retrains (R328). -/
inductive Slice where
  | channel (stack ch : Nat)
  | wavelength (die stack : Nat) (toStack : Bool) (wl : Nat)
  | home (ch : Nat)
deriving DecidableEq, Repr

/-- One entry of a slot-fabric schedule: peer module and circuit (R319). -/
abbrev SlotEntry := Option (Nat × Nat)

/-- Fields of a booth micro-op (10_banks.md R270). -/
structure MicroOp where
  f : BitVec 2
  g : Bool
  h : Bool
  sh : BitVec 6
  row : BitVec 10
deriving DecidableEq, Repr

/-- The instructions, commands, packets and events of the part, by the parts of the opcode table. -/
inductive Instr where
  -- core instructions
  | accrd (p : BitVec 3) (n : BitVec 4) (d a : BitVec 7)
  | accwr (p : BitVec 3) (n : BitVec 4) (d a : BitVec 7)
  | accz (p : BitVec 3) (n : BitVec 4)
  | and (f : FmtA)
  | or (f : FmtA)
  | xor (f : FmtA)
  | not (f : FmtA)
  | lop3 (f : FmtLop3)
  | atom (f : FmtAt)
  | red (f : FmtAt)
  | ballot (f : FmtA)
  | matchLanes (f : FmtA)
  | elect (f : FmtA)
  | barSync (f : FmtBar)
  | barArrive (f : FmtBar)
  | bfx (f : FmtA)
  | bfi (f : FmtA)
  | bid (p : BitVec 3) (d a b : BitVec 7)
  | peek (p : BitVec 3) (d a : BitVec 7)
  | recycle (p : BitVec 3) (d a : BitVec 7)
  | close (p : BitVec 3) (d a : BitVec 7)
  | bkpt (p : BitVec 3) (code : BitVec 16)
  | trap (p : BitVec 3) (code : BitVec 16)
  | bra (p : BitVec 3) (off : BitVec 23)
  | braL (p : BitVec 3) (disp : BitVec 64)
  | brx (p : BitVec 3) (a : BitVec 7)
  | ret (p : BitVec 3) (a : BitVec 7)
  | call (p : BitVec 3) (l : BitVec 7) (off : BitVec 16)
  | callL (p : BitVec 3) (l : BitVec 7) (disp : BitVec 64)
  | callx (p : BitVec 3) (l a : BitVec 7)
  | popc (f : FmtA)
  | clz (f : FmtA)
  | brev (f : FmtA)
  | cancel (p : BitVec 3) (level : CancelLevel)
  | cflush (f : FmtCache)
  | cinv (f : FmtCache)
  | cinvDiscard (f : FmtCache)
  | cdisc (f : FmtCache)
  | cpref (f : FmtCache)
  | claim (p : BitVec 3) (slot : BitVec 5)
  | release (p : BitVec 3) (slot : BitVec 5)
  | clock (p : BitVec 3) (d : BitVec 7)
  | cvt (f : FmtCvt)
  | dqpush (p : BitVec 3) (a : BitVec 7)
  | dqpop (p : BitVec 3) (d : BitVec 7)
  | exit (p : BitVec 3) (scope : Scope)
  | exitCompletion (t : LaneId)
  | fadd (f : FmtA)
  | fsub (f : FmtA)
  | fmul (f : FmtA)
  | ffma (f : FmtA)
  | ffma4 (f : FmtA)
  | fmin (f : FmtA)
  | fmax (f : FmtA)
  | fcmp (f : FmtP)
  | frcp (f : FmtA)
  | frsq (f : FmtA)
  | fsqrt (f : FmtA)
  | fexp2 (f : FmtA)
  | flog2 (f : FmtA)
  | fsinp (f : FmtA)
  | fence (p : BitVec 3) (scope : Scope) (kind : FenceKind)
  | releaseActionComplete (fence : Nat)
  | iadd (f : FmtA)
  | isub (f : FmtA)
  | ineg (f : FmtA)
  | imin (f : FmtA)
  | imax (f : FmtA)
  | iabs (f : FmtA)
  | icmp (f : FmtP)
  | icmp64 (f : FmtP)
  | imad (f : FmtA)
  | imad4 (f : FmtA)
  | imul (f : FmtA)
  | imulh (f : FmtA)
  | imulhN32 (f : FmtA)
  | kjoin (p : BitVec 3) (k : BitVec 4)
  | kleave (p : BitVec 3) (k : BitVec 4)
  | kwait (p : BitVec 3) (k : BitVec 4)
  | kset (p : BitVec 3) (k : BitVec 4) (v : BitVec 7)
  | kget (p : BitVec 3) (k : BitVec 4) (v : BitVec 7)
  | kmov (p : BitVec 3) (kd ka : BitVec 4)
  | kick (p : BitVec 3) (a : BitVec 7)
  | launch (p : BitVec 3) (d a : BitVec 7)
  | launchW (p : BitVec 3) (d a : BitVec 7)
  | ld (f : FmtM3)
  | ldDisp (f : FmtM3) (disp : Disp)
  | st (f : FmtM3)
  | stDisp (f : FmtM3) (disp : Disp)
  | ldi (p : BitVec 3) (d : BitVec 7) (imm : BitVec 32)
  | ldi64 (p : BitVec 3) (d : BitVec 7) (imm : BitVec 64)
  | lredAdd (f : FmtA)
  | lredMin (f : FmtA)
  | lredMax (f : FmtA)
  | lredBitwise (op : BitOp) (f : FmtA)
  | mma (f : FmtMma)
  | mmap (p : BitVec 3) (a : BitVec 7)
  | quant (f : FmtQuant)
  | monitor (p : BitVec 3) (sp : Space) (scope : Scope) (a : BitVec 7)
  | waitm (p : BitVec 3) (d t : BitVec 7)
  | mov (f : FmtA)
  | movB64 (f : FmtA)
  | movi (p : BitVec 3) (d : BitVec 7) (imm : BitVec 16)
  | nop (p : BitVec 3)
  | yield (p : BitVec 3)
  | padd2 (f : FmtA)
  | pmul2 (f : FmtA)
  | pfma2 (f : FmtA)
  | pfma24 (f : FmtA)
  | racq (p : BitVec 3) (n : BitVec 4)
  | rrel (p : BitVec 3) (n : BitVec 4)
  | blockReturn (core bctx w : Nat)
  | rot (f : FmtA)
  | shl (f : FmtA)
  | shr (f : FmtA)
  | shfHi (f : FmtA)
  | shfLo (f : FmtA)
  | rsend (f : FmtQ)
  | rfetch (f : FmtQ)
  | sel (f : FmtA)
  | shfl (p : BitVec 3) (d a b : BitVec 7) (mode : ShflMode)
  | shflImm (p : BitVec 3) (d a : BitVec 7) (imm : BitVec 5) (mode : ShflMode)
  | srd (p : BitVec 3) (d : BitVec 7) (sreg : SReg)
  | swr (p : BitVec 3) (a : BitVec 7) (sreg : SReg)
  | swi (p : BitVec 3) (a b : BitVec 7)
  | swiDelivery (id : Nat)
  | tbind (p : BitVec 3) (b a : BitVec 7)
  | twaitany (p : BitVec 3) (a : BitVec 7)
  | twaitall (p : BitVec 3) (a : BitVec 7)
  | tffr (p : BitVec 3) (d a : BitVec 7)
  | tclr (p : BitVec 3) (a : BitVec 7)
  | tload (p : BitVec 3) (a : BitVec 7)
  | tqr (p : BitVec 3) (a : BitVec 7)
  | tq (p : BitVec 3) (d a : BitVec 7) (table : BitVec 6)
  | vote (p : BitVec 3) (mode : VoteMode) (pd ps : BitVec 3)
  | waitc (p : BitVec 3) (thresholds : BitVec 32)
  -- booth micro-ops, executed by the bank whose booth moves
  | bend (o : MicroOp)
  | bkey (o : MicroOp)
  | bmask (o : MicroOp)
  | bcmp (o : MicroOp)
  | bwrt (o : MicroOp)
  | btagand (o : MicroOp)
  | btagor (o : MicroOp)
  | btagnot (o : MicroOp)
  | bcnt (o : MicroOp)
  | bseg (o : MicroOp)
  | segmentCountExpiry (bank : Nat)
  | boothResume (bank : Nat)
  | refreshDue (bank : Nat)
  | refreshComplete (bank : Nat)
  -- alias commands: the head of a bank's queue, a status load, and the request engine's two
  | brun (bank : Nat)
  | bparm (bank : Nat)
  | bstat (acc : Nat)
  | rfill (bank : Nat)
  | rcopy (bank : Nat)
  | pbload (order stack : Nat)
  | trowq (order : Nat)
  -- command packets of a queue
  | packetNop (q : Nat)
  | packetLaunch (q : Nat)
  | packetLaunchind (q : Nat)
  | packetWait (q : Nat)
  | waitWordReread (q : Nat)
  | packetSignal (q : Nat)
  | packetLoop (q : Nat)
  | packetEndloop (q : Nat)
  | packetIf (q : Nat)
  | packetCallbuf (q : Nat)
  | packetMark (q : Nat)
  | packetCancel (q : Nat)
  | packetWake (q : Nat)
  | packetWaitwake (q : Nat)
  | packetUnknownOp (q : Nat)
  | qctlWrite (q : Nat) (v : Word64)
  | qwsetWrite (q : Nat) (v : Word64)
  -- events of the module
  | wakeFifoServe
  | launchDependencesMet (launch : Nat)
  | childLaunchAccept (req : Nat)
  | lotPlacement (core : Nat)
  | lotRetirement (core bctx : Nat)
  | launchCompletion (launch : Nat)
  | levelCompletion (level : Nat)
  | cancelReachesCore (core : Nat)
  | issueTurn (core slot : Nat)
  | clauseStart (unit : Nat)
  | threadAged (t : LaneId)
  | barkerTurn (core : Nat)
  | loadReply (acc : Nat)
  | storePerformed (acc : Nat)
  | homeAccess (acc : Nat)
  | hostAtomicopCompletion (acc : Nat) (unsupported : Bool)
  | pageWalk (acc : Nat)
  | monitorReport (t : LaneId)
  | waitmTimeout (t : LaneId)
  | flowCreditReturn (acc : Nat)
  | orderCopy (core : Nat)
  | orderGather (core : Nat)
  | orderScatter (core : Nat)
  | orderTileld (core : Nat)
  | orderAccst (core : Nat)
  | orderTred (core : Nat)
  | tloadCommand (core : Nat)
  | tqrCommand (core : Nat)
  | tbindCommand (core : Nat)
  | orderStart (order : Nat)
  | orderBytesPerformed (order : Nat)
  | tileOpStart (op : Nat)
  | arrayLeave (op : Nat)
  | tileOpComplete (op : Nat)
  | cellBidAtHome (r : CellReq)
  | cellPeekAtHome (r : CellReq)
  | cellCloseAtHome (r : CellReq)
  | cellRecycleAtHome (r : CellReq)
  | remoteCellRequest (acc : Nat) (reply : Option RemoteReply)
  | remoteCellTimeout (acc : Nat)
  | pbsetWrite (n : Nat) (v : Word64)
  | pbsetApplied (n : Nat)
  | lotFailDrainEnd (core bctx : Nat)
  | watchdogExpiry (core bctx : Nat)
  | m2sReq (pa : Nat)
  | m2sRwd (pa : Nat) (data : BitVec 512) (mask : BitVec 64)
  | preemptRequest (q n : Nat)
  | lotSave (core bctx : Nat)
  | dbgcmdHalt (core : Nat) (v : Word64)
  | dbgcmdResume (core : Nat) (v : Word64)
  | dbgcmdStep (core : Nat) (v : Word64)
  | dbgcmdDump (core : Nat) (v : Word64)
  | dbgcmdLoad (core : Nat) (v : Word64)
  | coreDumpWrite (core bctx : Nat)
  | tlbinvPage (ctx : BitVec 12)
  | tlbinvContext (ctx : BitVec 12)
  | tlbinvAll
  | tlbinvComplete
  | ctxflush (ctx : BitVec 12)
  | ctxflushInv (ctx : BitVec 12)
  | ctxflushComplete
  | fcsetPlain (frame : BitVec 25)
  | fcsetAlias (frame : BitVec 25)
  | fcsetElided (frame : BitVec 25) (pattern : Word)
  | fcsetStackApply (stack : Nat)
  | tokenArrival (ch writer : Nat)
  | diePlanePacketReceive (pkt : Nat) (crcOk : Bool)
  | packetAckReceive (pkt : Nat)
  | routeChange (die stack : Nat)
  | registerWrite (agent : RegAgent) (pa : Nat) (part : RegPart) (v : Word64)
  | registerReadClear (agent : RegAgent) (pa : Nat) (part : RegPart)
  | tokenSilence (ch : Nat)
  | packetResendTimeout (pkt : Nat)
  | wavelengthLoss (die stack : Nat) (toStack : Bool) (wl : Nat)
  | hlctlTrain (port : Nat)
  | trainingComplete (r : StepResult)
  | lossOfLock (link : Nat)
  | retrainRequest (link : Nat) (own other : Option Nat)
  | retrainComplete (link : Nat) (ok : Bool)
  | snpdata (pa : Nat)
  | snpinv (pa : Nat)
  | snpcur (pa : Nat)
  | dieProbe (die : Nat) (answered : Bool)
  | homeWaitReport (die : Nat) (answered : Bool)
  | slotStart (port : Nat) (offset : Int)
  | resyncRequest (port : Nat) (peer : Option Int)
  | frameBoundary (port : Nat)
  | scheduleReceived (port : Nat) (crier : Nat) (entries : List SlotEntry) (successors : List Nat)
  | beaconLoss
  | successorClaim
  | claimReceived (rank : Nat)
  | powerOn (b : BootInfo)
  | warmReset (b : BootInfo)
  | warmingTimeout (b : BootInfo)
  | startctlRetry (b : BootInfo)
  | supplyDroop (core : Nat)
  | clockRetune (die margin : Nat)
  | auctionRound (demands : List Nat)
  | pwrctlLimitWrite (v : BitVec 16)
  | sliceRetrain (x : Slice)
  | sliceRetrainComplete (x : Slice) (ok : Bool)
  | heartbeatMiss (b : BootInfo)
  | holdTimeout
  | getVersion (req : List Byte)
  | getCapabilities (req : List Byte)
  | negotiateAlgorithms (req : List Byte)
  | getDigests (req : List Byte)
  | getCertificate (req : List Byte)
  | challenge (req : List Byte)
  | getMeasurements (req : List Byte)
  | flitCrcError (link : Nat)
  | configurationRequest (atomicOps : Bool)
  | powerFailure
  | warmingComplete (e : WarmEnd)
deriving DecidableEq, Repr

end Sys2Proof
end

