-- ==== Sys2Proof/Machine/Forms.lean ====
section
/-! DEFINITION. Type codes, mode codes, and what each instruction of formats A and P accepts (05_encoding.md R126 to
R134 and the entries of the instruction reference). -/

namespace Sys2Proof

/-- Type codes of R128. -/
def Ty.code : Ty → BitVec 5
  | .i8 => 0 | .i16 => 1 | .i32 => 2 | .i64 => 3 | .n8 => 4 | .n16 => 5 | .n32 => 6 | .n64 => 7
  | .b8 => 8 | .b16 => 9 | .b32 => 10 | .b64 => 11 | .b128 => 12
  | .f32 => 13 | .f16 => 14 | .bf16 => 15 | .e4m3 => 16 | .e5m2 => 17 | .e2m1 => 18 | .e8m0 => 19 | .t2 => 20

/-- The type of a code; 0x15 to 0x1F name none (R125). -/
def Ty.ofCode (c : BitVec 5) : Option Ty :=
  match c.toNat with
  | 0 => some .i8 | 1 => some .i16 | 2 => some .i32 | 3 => some .i64
  | 4 => some .n8 | 5 => some .n16 | 6 => some .n32 | 7 => some .n64
  | 8 => some .b8 | 9 => some .b16 | 10 => some .b32 | 11 => some .b64 | 12 => some .b128
  | 13 => some .f32 | 14 => some .f16 | 15 => some .bf16 | 16 => some .e4m3 | 17 => some .e5m2
  | 18 => some .e2m1 | 19 => some .e8m0 | 20 => some .t2 | _ => none

/-- Width in bits (R92, R94, R97). -/
def Ty.bits : Ty → Nat
  | .i8 | .n8 | .b8 | .e4m3 | .e5m2 | .e8m0 => 8
  | .i16 | .n16 | .b16 | .f16 | .bf16 => 16
  | .i32 | .n32 | .b32 | .f32 => 32
  | .i64 | .n64 | .b64 => 64
  | .b128 => 128
  | .e2m1 => 4
  | .t2 => 2

/-- Two's complement types (R92). -/
def Ty.signed : Ty → Bool
  | .i8 | .i16 | .i32 | .i64 => true
  | _ => false

/-- Registers that an operand of the type occupies in a thread clause (R92, R123). -/
def Ty.regs (t : Ty) : Nat := if t.bits = 128 then 4 else if t.bits = 64 then 2 else 1

def Scope.code : Scope → BitVec 3
  | .lot => 0 | .clu => 1 | .die => 2 | .pkg => 3 | .sys => 4

def Scope.ofCode (c : BitVec 3) : Option Scope :=
  match c.toNat with
  | 0 => some .lot | 1 => some .clu | 2 => some .die | 3 => some .pkg | 4 => some .sys | _ => none

def Rnd.code : Rnd → BitVec 3
  | .rn => 0 | .rz => 1 | .rd => 2 | .ru => 3 | .rs => 4

def Rnd.ofCode (c : BitVec 3) : Option Rnd :=
  match c.toNat with
  | 0 => some .rn | 1 => some .rz | 2 => some .rd | 3 => some .ru | 4 => some .rs | _ => none

/-- How an instruction treats the rounding field of its M word. -/
inductive RndUse where
  | zero      -- it does not round: the field is zero (R127)
  | mode      -- one of the five modes (R99)
  | ignored   -- the approximate functions (R108, R375)
deriving DecidableEq, Repr

/-- What a format-A instruction accepts. -/
structure AForm where
  types : List Ty
  dflt : Ty
  rnd : RndUse
  useC : Bool
  useB : Bool
  useImm : Bool
  short : Bool
deriving DecidableEq, Repr

def ints : List Ty := [.i32, .n32, .i64, .n64]
def raws : List Ty := [.b32, .b64]
def floats : List Ty := [.f32, .f16, .bf16]
def packs : List Ty := [.bf16, .f16]
def shifts : List Ty := [.n32, .i32, .b32, .n64, .i64, .b64]

def AForm.int : AForm := ⟨ints, .i32, .zero, false, true, true, true⟩
def AForm.raw : AForm := ⟨raws, .b32, .zero, false, true, true, true⟩
def AForm.float : AForm := ⟨floats, .f32, .mode, false, true, true, true⟩
def AForm.approx : AForm := ⟨[.f32], .f32, .ignored, false, false, false, true⟩
def AForm.pack : AForm := ⟨packs, .bf16, .mode, false, true, true, true⟩
def AForm.count : AForm := ⟨raws, .b32, .zero, false, false, false, true⟩
def AForm.shift : AForm := ⟨shifts, .n32, .zero, false, true, true, true⟩
def AForm.lred : AForm := ⟨[.i32, .n32], .i32, .zero, false, false, false, true⟩

/-- The checks on the M word of a format-A instruction, and on the short form's B field (R124, R125, R127). -/
def AForm.ok (s : AForm) (f : FmtA) : Bool :=
  match f.m with
  | none => s.short && (s.useB || f.b == 0)
  | some m =>
    s.types.contains m.ty
    && (match s.rnd with
        | .zero => m.rnd == 0
        | .mode => m.rnd.toNat < 5
        | .ignored => true)
    && (s.useC || m.c == 0)
    && m.pc == 0
    && (match m.imm with
        | none => s.useB || f.b == 0
        | some _ => s.useImm && f.b == 0)

/-- The checks of ICMP with X = 0 or 3 (R384). -/
def icmpOk (f : FmtP) : Bool :=
  f.cc.toNat < 6 && f.pd != 0 &&
  match f.m with
  | none => true
  | some m =>
    !f.s && [Ty.i8, .i16, .i32, .i64, .n8, .n16, .n32, .n64].contains m.ty
    && m.rnd == 0 && m.c == 0 && m.pc != f.pd && (m.imm.isNone || f.b == 0)

/-- The checks of FCMP (R373). -/
def fcmpOk (f : FmtP) : Bool :=
  !f.s && f.pd != 0 &&
  match f.m with
  | none => true
  | some m =>
    floats.contains m.ty && m.rnd == 0 && m.c == 0 && m.pc != f.pd && (m.imm.isNone || f.b == 0)

/-- Operation and type pairs of ATOM and RED (08_atomics.md R204). -/
def atomPairOk (op : AtomOp) (t : Ty) : Bool :=
  match op with
  | .inc | .dec => [Ty.n32, .n64].contains t
  | .exch | .cas => [Ty.i32, .n32, .i64, .n64, .f32, .bf16, .b128].contains t
  | _ => [Ty.i32, .n32, .i64, .n64, .f32, .bf16].contains t

/-- Types that CVT converts between (R363). -/
def cvtTy (t : Ty) : Bool :=
  [Ty.i8, .i16, .i32, .i64, .n8, .n16, .n32, .n64, .f32, .f16, .bf16, .e4m3, .e5m2, .e2m1, .t2].contains t

/-- The pairs that CVT accepts (R363). -/
def cvtOk (dst src : Ty) : Bool := (cvtTy dst && cvtTy src) || (src == .e8m0 && dst == .f32)

/-- The special registers that SWR may name without fault 0x01 (R431). -/
def SReg.writable : SReg → Bool
  | .fstat | .rseed | .dsm => true
  | _ => false

/-- The format-A entry of an instruction, with its operands. -/
def Instr.aform : Instr → Option (AForm × FmtA)
  | .and f | .or f | .xor f => some (.raw, f)
  | .sel f => some (.raw, f)
  | .not f => some (⟨raws, .b32, .zero, false, false, false, false⟩, f)
  | .ballot f => some (⟨[.b32], .b32, .zero, false, true, false, true⟩, f)
  | .matchLanes f => some (.count, f)
  | .elect f => some (⟨[.b32], .b32, .zero, false, false, false, true⟩, f)
  | .bfx f => some (⟨[.n32, .i32], .n32, .zero, false, true, true, true⟩, f)
  | .bfi f => some (⟨[.n32], .n32, .zero, false, true, true, true⟩, f)
  | .popc f | .clz f | .brev f => some (.count, f)
  | .fadd f | .fsub f | .fmul f | .ffma f => some (.float, f)
  | .ffma4 f => some (⟨floats, .f32, .mode, true, true, true, false⟩, f)
  | .fmin f | .fmax f => some (⟨floats, .f32, .zero, false, true, true, true⟩, f)
  | .frcp f | .frsq f => some (.approx, f)
  | .fsqrt f => some (⟨[.f32], .f32, .mode, false, false, false, true⟩, f)
  | .fexp2 f | .flog2 f | .fsinp f => some (⟨[.f32], .f32, .ignored, false, false, false, false⟩, f)
  | .iadd f | .isub f | .imin f | .imax f | .imad f | .imul f | .imulh f => some (.int, f)
  | .ineg f => some (⟨ints, .i32, .zero, false, false, false, true⟩, f)
  | .iabs f => some (⟨[.i32, .i64], .i32, .zero, false, false, false, true⟩, f)
  | .imad4 f => some (⟨ints, .i32, .zero, true, true, true, false⟩, f)
  | .imulhN32 f => some (⟨[.n32], .n32, .zero, false, true, true, true⟩, f)
  | .lredAdd f | .lredMin f | .lredMax f => some (.lred, f)
  | .lredBitwise _ f => some (⟨[.i32, .n32], .i32, .zero, false, false, false, false⟩, f)
  | .mov f => some (⟨[.b32], .b32, .zero, false, false, true, true⟩, f)
  | .movB64 f => some (⟨[.b64], .b64, .zero, false, false, true, true⟩, f)
  | .padd2 f | .pmul2 f | .pfma2 f => some (.pack, f)
  | .pfma24 f => some (⟨packs, .bf16, .mode, true, true, true, false⟩, f)
  | .rot f => some (⟨[.n32, .b32, .n64, .b64], .n32, .zero, false, true, true, true⟩, f)
  | .shl f | .shr f => some (.shift, f)
  | .shfHi f | .shfLo f => some (⟨[.n32, .b32], .n32, .zero, true, true, true, false⟩, f)
  | _ => none

/-- Format-A checks beyond `AForm.ok`: reserved A and D fields (R342, R367, R404). -/
def Instr.aextra : Instr → Bool
  | .ballot f => f.a == 0 && f.b.toNat < 8
  | .elect f => f.d.toNat < 8 && f.d != 0 && f.a == 0 && f.b == 0
  | .mov f | .movB64 f => match f.m with
    | some m => m.imm.isNone || f.a == 0
    | none => true
  | _ => true

/-- The fields that a booth micro-op uses; any other is reserved and zero (R270). -/
def MicroOp.ok (usesF usesG usesH usesSh : Bool) (usesRow : Bool) (o : MicroOp) : Bool :=
  (usesF || o.f == 0) && (usesG || !o.g) && (usesH || !o.h) && (usesSh || o.sh == 0) && (usesRow || o.row == 0)

end Sys2Proof
end

