-- ==== Sys2Proof/WellFormed.lean ====
section
/-! DEFINITION. Which terms of Instr the encoding has: the operand, type, mode and reserved-field checks of R125 that
the word alone decides (register-pair and block checks depend on the executing agent, R123, and stand in Operands). -/

namespace Sys2Proof

/-- Well-formed: every field holds a value that the instruction's entry accepts (R124, R125). -/
def Instr.wf (i : Instr) : Bool :=
  match i.aform with
  | some (s, f) => s.ok f && i.aextra
  | none =>
    match i with
    | .lop3 f => raws.contains f.ty
    | .atom f => f.sp != .l && atomPairOk f.op f.ty && (f.op == .cas || f.c == 0)
    | .red f => f.sp != .l && atomPairOk f.op f.ty && f.c == 0 && f.d == 0
        && f.op != .cas && f.op != .exch && (f.order == .relaxed || f.order == .rel)
    | .barSync f | .barArrive f => f.cn || f.n.toNat ≤ 32
    | .cflush f | .cinv f | .cdisc f | .cpref f => f.sp != .l && f.d == 0
    | .cinvDiscard f => f.sp != .l
    | .cvt f => cvtOk f.dst f.src
    | .fcmp f => fcmpOk f
    | .icmp f => icmpOk f
    | .icmp64 f => f.cc.toNat < 6 && f.pd != 0 && f.m.isNone
    | .kjoin _ k | .kleave _ k | .kwait _ k | .kset _ k _ | .kget _ k _ => k.toNat < 12
    | .kmov _ kd ka => kd.toNat < 12 && ka.toNat < 12
    | .ldDisp f (.d64 _) => f.sp != .l
    | .st f => f.sz != .i8 && f.sz != .i16
    | .stDisp f (.d32 _) => f.sz != .i8 && f.sz != .i16
    | .stDisp f (.d64 _) => f.sz != .i8 && f.sz != .i16 && f.sp != .l
    | .mma f => f.mode == .mx || (f.fa == .e4m3 && f.fb == .e4m3)
    | .quant f => [Ty.e4m3, .e5m2, .e2m1, .i8].contains f.ty && f.rnd != .rs
        && (if f.tomem then f.slot == 0 else f.a == 0)
    | .racq _ n | .rrel _ n => 1 ≤ n.toNat && n.toNat ≤ 7
    | .rsend f | .rfetch f => [MSize.b32, .b64, .b128].contains f.sz
    | .swr _ _ r => r.writable
    | .vote _ _ pd _ => pd != 0
    | .bend o | .bseg o | .btagnot o => o.ok false false false false false
    | .bkey o | .bmask o => o.ok true false false false (o.f == 0)
    | .bcmp o => o.ok false true true false true
    | .bwrt o => o.ok true true false false true
    | .btagand o | .btagor o => o.ok false false true false true
    | .bcnt o => o.ok true true false true false
    | _ => true

end Sys2Proof
end

