-- ==== Sys2Proof/Decode.lean ====
section
/-! DEFINITION. The decoder and, after it, the encoder of the core instructions and of the booth micro-ops, with the
walk functions that R119 needs. Every encoding that is no instruction is rejected by name (05_encoding.md R125). -/

namespace Sys2Proof

/-- Why a word is no instruction; each is fault 0x01 (R125). -/
inductive Illegal where
  | noWord        -- nothing to decode
  | truncated     -- an extension word is missing
  | unassigned    -- MAJOR, SUB, X, MODE, CC, KIND, SP, SZ, DX, LEVEL, type, rounding or scope code with no meaning
  | reserved      -- a nonzero reserved field, or an operand value that the entry does not accept
deriving DecidableEq, Repr

/-- Bits [lo + n - 1 : lo] of a word. -/
def fld (w : Word) (lo n : Nat) : BitVec n := w.extractLsb' lo n

def fldN (w : Word) (lo n : Nat) : Nat := (fld w lo n).toNat

def bitOf (w : Word) (i : Nat) : Bool := w.getLsbD i

def majorOf (w : Word) : Nat := fldN w 26 6

def predOf (w : Word) : BitVec 3 := fld w 23 3

/-! ### Formats -/

/-- The format-A instruction of a major and sub-opcode (R133). -/
def ofA (major sub : Nat) (f : FmtA) : Option Instr :=
  match major, sub with
  | 0x01, 0 => some (.iadd f) | 0x01, 1 => some (.isub f) | 0x01, 2 => some (.ineg f)
  | 0x02, 0 => some (.imul f) | 0x02, 1 => some (.imulh f) | 0x02, 2 => some (.imulhN32 f)
  | 0x03, 0 => some (.imad f) | 0x03, 1 => some (.imad4 f)
  | 0x04, 0 => some (.imin f) | 0x04, 1 => some (.imax f) | 0x04, 2 => some (.iabs f)
  | 0x06, 0 => some (.sel f)
  | 0x07, 0 => some (.and f) | 0x07, 1 => some (.or f) | 0x07, 2 => some (.xor f) | 0x07, 3 => some (.not f)
  | 0x09, 0 => some (.shl f) | 0x09, 1 => some (.shr f) | 0x09, 2 => some (.rot f)
  | 0x09, 3 => some (.shfHi f) | 0x09, 4 => some (.shfLo f)
  | 0x0A, 0 => some (.popc f) | 0x0A, 1 => some (.clz f) | 0x0A, 2 => some (.brev f)
  | 0x0B, 0 => some (.bfx f) | 0x0B, 1 => some (.bfi f)
  | 0x0C, 0 => some (.mov f) | 0x0C, 1 => some (.movB64 f)
  | 0x10, 0 => some (.fadd f) | 0x10, 1 => some (.fsub f) | 0x10, 2 => some (.fmul f)
  | 0x11, 0 => some (.ffma f) | 0x11, 1 => some (.ffma4 f)
  | 0x12, 0 => some (.fmin f) | 0x12, 1 => some (.fmax f)
  | 0x14, 0 => some (.frcp f) | 0x14, 1 => some (.frsq f) | 0x14, 2 => some (.fsqrt f)
  | 0x14, 3 => some (.fexp2 f) | 0x14, 4 => some (.flog2 f) | 0x14, 5 => some (.fsinp f)
  | 0x15, 0 => some (.padd2 f) | 0x15, 1 => some (.pmul2 f) | 0x15, 2 => some (.pfma2 f) | 0x15, 3 => some (.pfma24 f)
  | 0x19, 0 => some (.ballot f) | 0x19, 1 => some (.matchLanes f) | 0x19, 2 => some (.elect f)
  | 0x1A, 0 => some (.lredAdd f) | 0x1A, 1 => some (.lredMin f) | 0x1A, 2 => some (.lredMax f)
  | 0x1A, 3 => some (.lredBitwise .and f) | 0x1A, 4 => some (.lredBitwise .or f) | 0x1A, 5 => some (.lredBitwise .xor f)
  | _, _ => none

/-- The major and sub-opcode of a format-A instruction (R133). -/
def aCode : Instr → Option (Nat × Nat × FmtA)
  | .iadd f => some (0x01, 0, f) | .isub f => some (0x01, 1, f) | .ineg f => some (0x01, 2, f)
  | .imul f => some (0x02, 0, f) | .imulh f => some (0x02, 1, f) | .imulhN32 f => some (0x02, 2, f)
  | .imad f => some (0x03, 0, f) | .imad4 f => some (0x03, 1, f)
  | .imin f => some (0x04, 0, f) | .imax f => some (0x04, 1, f) | .iabs f => some (0x04, 2, f)
  | .sel f => some (0x06, 0, f)
  | .and f => some (0x07, 0, f) | .or f => some (0x07, 1, f) | .xor f => some (0x07, 2, f) | .not f => some (0x07, 3, f)
  | .shl f => some (0x09, 0, f) | .shr f => some (0x09, 1, f) | .rot f => some (0x09, 2, f)
  | .shfHi f => some (0x09, 3, f) | .shfLo f => some (0x09, 4, f)
  | .popc f => some (0x0A, 0, f) | .clz f => some (0x0A, 1, f) | .brev f => some (0x0A, 2, f)
  | .bfx f => some (0x0B, 0, f) | .bfi f => some (0x0B, 1, f)
  | .mov f => some (0x0C, 0, f) | .movB64 f => some (0x0C, 1, f)
  | .fadd f => some (0x10, 0, f) | .fsub f => some (0x10, 1, f) | .fmul f => some (0x10, 2, f)
  | .ffma f => some (0x11, 0, f) | .ffma4 f => some (0x11, 1, f)
  | .fmin f => some (0x12, 0, f) | .fmax f => some (0x12, 1, f)
  | .frcp f => some (0x14, 0, f) | .frsq f => some (0x14, 1, f) | .fsqrt f => some (0x14, 2, f)
  | .fexp2 f => some (0x14, 3, f) | .flog2 f => some (0x14, 4, f) | .fsinp f => some (0x14, 5, f)
  | .padd2 f => some (0x15, 0, f) | .pmul2 f => some (0x15, 1, f) | .pfma2 f => some (0x15, 2, f)
  | .pfma24 f => some (0x15, 3, f)
  | .ballot f => some (0x19, 0, f) | .matchLanes f => some (0x19, 1, f) | .elect f => some (0x19, 2, f)
  | .lredAdd f => some (0x1A, 0, f) | .lredMin f => some (0x1A, 1, f) | .lredMax f => some (0x1A, 2, f)
  | .lredBitwise .and f => some (0x1A, 3, f) | .lredBitwise .or f => some (0x1A, 4, f)
  | .lredBitwise .xor f => some (0x1A, 5, f)
  | _ => none

/-- The M word's fields with the immediate that BI asks for (R127). -/
def parseM (m : Word) (rest : List Word) : Except Illegal MWord :=
  match Ty.ofCode (fld m 4 5) with
  | none => .error .unassigned
  | some ty =>
    if bitOf m 19 then
      match rest with
      | i :: _ => .ok ⟨ty, fld m 9 3, fld m 12 7, some i, fld m 20 3⟩
      | [] => .error .truncated
    else .ok ⟨ty, fld m 9 3, fld m 12 7, none, fld m 20 3⟩

/-- Format A: the sub-opcode and the fields (R126, R127). -/
def parseA (w : Word) (ext : List Word) : Except Illegal (Nat × FmtA) :=
  if fldN w 0 2 = 3 then
    match ext with
    | [] => .error .truncated
    | m :: rest => do
      let mw ← parseM m rest
      pure (fldN m 0 4, ⟨predOf w, fld w 16 7, fld w 9 7, fld w 2 7, some mw⟩)
  else .ok (fldN w 0 2, ⟨predOf w, fld w 16 7, fld w 9 7, fld w 2 7, none⟩)

/-- Format P (R126, R129). -/
def parseP (w : Word) (ext : List Word) : Except Illegal (Nat × FmtP) :=
  if fldN w 0 2 = 3 then
    match ext with
    | [] => .error .truncated
    | m :: rest => do
      let mw ← parseM m rest
      if fldN m 0 4 = 0 then
        pure (0, ⟨predOf w, bitOf w 22, fld w 19 3, fld w 16 3, fld w 9 7, fld w 2 7, some mw⟩)
      else .error .unassigned
  else .ok (fldN w 0 2, ⟨predOf w, bitOf w 22, fld w 19 3, fld w 16 3, fld w 9 7, fld w 2 7, none⟩)

def spaceOf (c : Nat) : Except Illegal Space :=
  match c with
  | 0 => .ok .g | 1 => .ok .v | 2 => .ok .l | _ => .error .unassigned

def spaceCode : Space → Nat
  | .g => 0 | .v => 1 | .l => 2

def sizeOf3 (c : Nat) : Except Illegal MSize :=
  match c with
  | 0 => .ok .n8 | 1 => .ok .n16 | 2 => .ok .i8 | 3 => .ok .i16 | 4 => .ok .b32 | 5 => .ok .b64 | 6 => .ok .b128
  | _ => .error .unassigned

def sizeCode3 : MSize → Nat
  | .n8 => 0 | .n16 => 1 | .i8 => 2 | .i16 => 3 | .b32 => 4 | .b64 => 5 | .b128 => 6

def scopeOf (c : BitVec 3) : Except Illegal Scope :=
  match Scope.ofCode c with
  | some s => .ok s
  | none => .error .unassigned

def shflModeOf (c : Nat) : ShflMode :=
  match c with
  | 0 => .idx | 1 => .xor | 2 => .up | _ => .dn

def shflModeCode : ShflMode → Nat
  | .idx => 0 | .xor => 1 | .up => 2 | .dn => 3

/-- Format M3 (R130): the fields and the displacement, if any. -/
def parseM3 (w : Word) (ext : List Word) : Except Illegal (FmtM3 × Option Disp) := do
  let sp ← spaceOf (fldN w 7 2)
  let sz ← sizeOf3 (fldN w 2 3)
  let f : FmtM3 := ⟨predOf w, fld w 16 7, fld w 9 7, sp, fld w 5 2, sz⟩
  match fldN w 0 2, ext with
  | 0, _ => pure (f, none)
  | 1, d :: _ => pure (f, some (.d32 d))
  | 2, lo :: hi :: _ => pure (f, some (.d64 (hi ++ lo)))
  | 3, _ => .error .unassigned
  | _, _ => .error .truncated

def atomOpOf (c : Nat) : Except Illegal AtomOp :=
  match c with
  | 0 => .ok .add | 1 => .ok .min | 2 => .ok .max | 3 => .ok .and | 4 => .ok .or | 5 => .ok .xor
  | 6 => .ok .exch | 7 => .ok .cas | 8 => .ok .inc | 9 => .ok .dec | _ => .error .unassigned

def atomOpCode : AtomOp → Nat
  | .add => 0 | .min => 1 | .max => 2 | .and => 3 | .or => 4 | .xor => 5 | .exch => 6 | .cas => 7 | .inc => 8 | .dec => 9

def orderOf (c : Nat) : AtomOrder :=
  match c with
  | 0 => .relaxed | 1 => .acq | 2 => .rel | _ => .ar

def orderCode : AtomOrder → Nat
  | .relaxed => 0 | .acq => 1 | .rel => 2 | .ar => 3

/-- Format AT with its AX word (R131). -/
def parseAt (w : Word) (ext : List Word) : Except Illegal FmtAt :=
  match ext with
  | [] => .error .truncated
  | x :: _ => do
    let op ← atomOpOf (fldN x 0 4)
    let ty ← match Ty.ofCode (fld x 4 5) with | some t => pure t | none => .error .unassigned
    let sc ← scopeOf (fld x 9 3)
    let sp ← spaceOf (fldN x 14 2)
    pure ⟨predOf w, fld w 16 7, fld w 9 7, fld w 2 7, op, ty, sc, orderOf (fldN x 12 2), sp, fld x 16 2, fld x 18 7⟩

/-- Special-register codes (R431). -/
def sregOf (c : Nat) : Except Illegal SReg :=
  match c with
  | 0x000 => .ok .tid | 0x001 => .ok .lane | 0x002 => .ok .warp | 0x003 => .ok .lot
  | 0x004 => .ok .lotx | 0x005 => .ok .loty | 0x006 => .ok .lotz
  | 0x007 => .ok .gridx | 0x008 => .ok .gridy | 0x009 => .ok .gridz
  | 0x010 => .ok .core | 0x011 => .ok .die | 0x012 => .ok .ctx | 0x018 => .ok .clock
  | 0x020 => .ok .params | 0x021 => .ok .paramsh | 0x022 => .ok .faddr | 0x023 => .ok .faddrh
  | 0x028 => .ok .tags | 0x030 => .ok .fstat | 0x031 => .ok .rseed | 0x032 => .ok .dsm | 0x038 => .ok .lotdone
  | _ => .error .unassigned

def sregCode : SReg → Nat
  | .tid => 0x000 | .lane => 0x001 | .warp => 0x002 | .lot => 0x003
  | .lotx => 0x004 | .loty => 0x005 | .lotz => 0x006
  | .gridx => 0x007 | .gridy => 0x008 | .gridz => 0x009
  | .core => 0x010 | .die => 0x011 | .ctx => 0x012 | .clock => 0x018
  | .params => 0x020 | .paramsh => 0x021 | .faddr => 0x022 | .faddrh => 0x023
  | .tags => 0x028 | .fstat => 0x030 | .rseed => 0x031 | .dsm => 0x032 | .lotdone => 0x038

def fenceKindOf (c : Nat) : Except Illegal FenceKind :=
  match c with
  | 0 => .ok .acq | 1 => .ok .rel | 2 => .ok .ar | _ => .error .unassigned

def fenceKindCode : FenceKind → Nat
  | .acq => 0 | .rel => 1 | .ar => 2

def mxFmtOf (c : Nat) : Except Illegal MxFmt :=
  match c with
  | 0 => .ok .e4m3 | 1 => .ok .e5m2 | 2 => .ok .e2m1 | _ => .error .unassigned

def mxFmtCode : MxFmt → Nat
  | .e4m3 => 0 | .e5m2 => 1 | .e2m1 => 2

def mmaModeOf (c : Nat) : Except Illegal MmaMode :=
  match c with
  | 0 => .ok .ss | 1 => .ok .mx | 2 => .ok .bf16 | _ => .error .unassigned

def mmaModeCode : MmaMode → Nat
  | .ss => 0 | .mx => 1 | .bf16 => 2

def levelOf (c : Nat) : CancelLevel :=
  match c with
  | 0 => .launch | 1 => .graph | 2 => .phase | _ => .job

def levelCode : CancelLevel → Nat
  | .launch => 0 | .graph => 1 | .phase => 2 | .job => 3

def voteModeOf (c : Nat) : Except Illegal VoteMode :=
  match c with
  | 0 => .ok .all | 1 => .ok .any | 2 => .ok .same | 3 => .ok .par | _ => .error .unassigned

def voteModeCode : VoteMode → Nat
  | .all => 0 | .any => 1 | .same => 2 | .par => 3

/-- Sizes of format Q (R134). -/
def qSizeOf (c : Nat) : Except Illegal MSize :=
  match c with
  | 0 => .ok .b32 | 1 => .ok .b64 | 2 => .ok .b128 | _ => .error .unassigned

def qSizeCode : MSize → Nat
  | .b32 => 0 | .b64 => 1 | _ => 2

/-- The MMA word (R134), also the chain element of MMAP (R250). -/
def parseMma (w : Word) : Except Illegal FmtMma := do
  let mode ← mmaModeOf (fldN w 21 2)
  let fa ← mxFmtOf (fldN w 5 2)
  let fb ← mxFmtOf (fldN w 3 2)
  pure ⟨predOf w, mode, fld w 17 4, fld w 12 5, fld w 7 5, fa, fb⟩

/-- The group majors (R134) and the remaining formats, by major. -/
def parseG (w : Word) (ext : List Word) : Except Illegal Instr :=
  let p := predOf w
  let sub4 := fldN w 19 4
  let sub3 := fldN w 20 3
  match majorOf w with
  | 0x0D => .ok (.movi p (fld w 16 7) (fld w 0 16))
  | 0x0E => match bitOf w 0, ext with
    | false, i :: _ => .ok (.ldi p (fld w 16 7) i)
    | true, lo :: hi :: _ => .ok (.ldi64 p (fld w 16 7) (hi ++ lo))
    | _, _ => .error .truncated
  | 0x16 => .ok (.shfl p (fld w 16 7) (fld w 9 7) (fld w 2 7) (shflModeOf (fldN w 0 2)))
  | 0x17 => .ok (.shflImm p (fld w 16 7) (fld w 9 7) (fld w 4 5) (shflModeOf (fldN w 0 2)))
  | 0x18 => do
    let m ← voteModeOf (fldN w 20 3)
    pure (.vote p m (fld w 16 3) (fld w 13 3))
  | 0x1B => match sub4 with
    | 0 => .ok (.kjoin p (fld w 15 4))
    | 1 => .ok (.kleave p (fld w 15 4))
    | 2 => .ok (.kwait p (fld w 15 4))
    | 3 => .ok (.kset p (fld w 15 4) (fld w 4 7))
    | 4 => .ok (.kget p (fld w 15 4) (fld w 4 7))
    | 5 => .ok (.kmov p (fld w 15 4) (fld w 11 4))
    | _ => .error .unassigned
  | 0x1C => .ok (.bra p (fld w 0 23))
  | 0x1D => .ok (.call p (fld w 16 7) (fld w 0 16))
  | 0x1E => match sub3, ext with
    | 0, _ => .ok (.brx p (fld w 6 7))
    | 1, _ => .ok (.ret p (fld w 6 7))
    | 2, _ => .ok (.callx p (fld w 13 7) (fld w 6 7))
    | 3, lo :: hi :: _ => .ok (.braL p (hi ++ lo))
    | 4, lo :: hi :: _ => .ok (.callL p (fld w 13 7) (hi ++ lo))
    | 3, _ => .error .truncated
    | 4, _ => .error .truncated
    | _, _ => .error .unassigned
  | 0x1F => match sub4 with
    | 0 => do let s ← scopeOf (fld w 16 3); pure (.exit p s)
    | 1 => .ok (.yield p)
    | 2 => .ok (.nop p)
    | 3 => .ok (.bkpt p (fld w 0 16))
    | 4 => .ok (.trap p (fld w 0 16))
    | 5 => do
      let sp ← spaceOf (fldN w 17 2)
      let s ← scopeOf (fld w 14 3)
      pure (.monitor p sp s (fld w 7 7))
    | 6 => .ok (.waitm p (fld w 12 7) (fld w 5 7))
    | 7 => .ok (.dqpush p (fld w 12 7))
    | 8 => .ok (.dqpop p (fld w 12 7))
    | _ => .error .unassigned
  | 0x24 => match sub4, ext with
    | 0, _ => do
      let s ← scopeOf (fld w 16 3)
      let k ← fenceKindOf (fldN w 14 2)
      pure (.fence p s k)
    | 1, _ => .ok (.barSync ⟨p, fld w 15 4, bitOf w 14, fld w 7 7⟩)
    | 2, _ => .ok (.barArrive ⟨p, fld w 15 4, bitOf w 14, fld w 7 7⟩)
    | 3, t :: _ => .ok (.waitc p t)
    | 3, [] => .error .truncated
    | _, _ => .error .unassigned
  | 0x25 => do
    let s ← scopeOf (fld w 16 3)
    let sp ← spaceOf (fldN w 0 2)
    let f : FmtCache := ⟨p, s, fld w 9 7, fld w 2 7, sp⟩
    match sub4 with
    | 0 => pure (.cflush f)
    | 1 => pure (.cinv f)
    | 2 => pure (.cinvDiscard f)
    | 3 => pure (.cdisc f)
    | 4 => pure (.cpref f)
    | _ => .error .unassigned
  | 0x26 => .ok (.tq p (fld w 16 7) (fld w 9 7) (fld w 3 6))
  | 0x27 => match sub3 with
    | 0 => .ok (.tqr p (fld w 6 7))
    | 1 => .ok (.tload p (fld w 6 7))
    | 2 => .ok (.peek p (fld w 13 7) (fld w 6 7))
    | 3 => .ok (.recycle p (fld w 13 7) (fld w 6 7))
    | 4 => .ok (.close p (fld w 13 7) (fld w 6 7))
    | _ => .error .unassigned
  | 0x2C => .ok (.bid p (fld w 16 7) (fld w 9 7) (fld w 2 7))
  | 0x2D => match sub4 with
    | 0 => .ok (.kick p (fld w 5 7))
    | 1 => .ok (.twaitany p (fld w 5 7))
    | 2 => .ok (.twaitall p (fld w 5 7))
    | 3 => .ok (.tffr p (fld w 12 7) (fld w 5 7))
    | 4 => .ok (.tclr p (fld w 5 7))
    | 5 => .ok (.tbind p (fld w 12 7) (fld w 5 7))
    | 6 => .ok (.claim p (fld w 0 5))
    | 7 => .ok (.release p (fld w 0 5))
    | _ => .error .unassigned
  | 0x2E => do let f ← parseMma w; pure (.mma f)
  | 0x2F => match sub4, ext with
    | 0, _ => .ok (.mmap p (fld w 1 7))
    | 1, _ => .ok (.accz p (fld w 15 4))
    | 2, _ => .ok (.accrd p (fld w 15 4) (fld w 8 7) (fld w 1 7))
    | 3, _ => .ok (.accwr p (fld w 15 4) (fld w 8 7) (fld w 1 7))
    | 4, x :: _ => match Ty.ofCode (fld x 0 5), Rnd.ofCode (fld x 5 3) with
      | some t, some r => .ok (.quant ⟨p, fld w 15 4, fld w 1 7, t, r, bitOf x 8, fld x 9 5⟩)
      | _, _ => .error .unassigned
    | 4, [] => .error .truncated
    | _, _ => .error .unassigned
  | 0x30 => match ext with
    | r :: _ => do let z ← qSizeOf (fldN w 6 3); pure (.rsend ⟨p, fld w 16 7, fld w 9 7, z, fld w 4 2, r⟩)
    | [] => .error .truncated
  | 0x31 => match ext with
    | r :: _ => do let z ← qSizeOf (fldN w 6 3); pure (.rfetch ⟨p, fld w 16 7, fld w 9 7, z, fld w 4 2, r⟩)
    | [] => .error .truncated
  | 0x32 => match sub3 with
    | 0 => .ok (.racq p (fld w 16 4))
    | 1 => .ok (.rrel p (fld w 16 4))
    | _ => .error .unassigned
  | 0x33 => do let r ← sregOf (fldN w 6 10); pure (.srd p (fld w 16 7) r)
  | 0x34 => do let r ← sregOf (fldN w 6 10); pure (.swr p (fld w 16 7) r)
  | 0x35 => match sub3 with
    | 0 => .ok (.swi p (fld w 13 7) (fld w 6 7))
    | 1 => .ok (if bitOf w 5 then .launchW p (fld w 13 7) (fld w 6 7) else .launch p (fld w 13 7) (fld w 6 7))
    | 2 => .ok (.cancel p (levelOf (fldN w 18 2)))
    | 3 => .ok (.clock p (fld w 13 7))
    | _ => .error .unassigned
  | _ => .error .unassigned

/-- Reads the fields of the instruction that a word and the words after it hold, before the checks of `Instr.wf`
and of the reserved fields. -/
def parse (w : Word) (ext : List Word) : Except Illegal Instr :=
  match majorOf w with
  | 0x05 => do
    let (x, f) ← parseP w ext
    match x, f.m with
    | 0, _ => pure (.icmp f)
    | 1, none => pure (.icmp64 f)
    | _, _ => .error .unassigned
  | 0x13 => do
    let (x, f) ← parseP w ext
    if x = 0 then pure (.fcmp f) else .error .unassigned
  | 0x08 =>
    if fldN w 0 2 = 3 then
      match ext with
      | m :: t :: _ => match Ty.ofCode (fld m 4 5) with
        | some ty => .ok (.lop3 ⟨predOf w, fld w 16 7, fld w 9 7, fld w 2 7, fld m 12 7, ty, fld t 0 8⟩)
        | none => .error .unassigned
      | _ => .error .truncated
    else .error .unassigned
  | 0x0F =>
    if fldN w 0 2 = 3 then
      match ext with
      | m :: _ => match Ty.ofCode (fld m 4 5), Ty.ofCode (fld m 12 5), Rnd.ofCode (fld m 9 3) with
        | some dst, some src, some r => .ok (.cvt ⟨predOf w, fld w 16 7, fld w 9 7, dst, src, r⟩)
        | _, _, _ => .error .unassigned
      | [] => .error .truncated
    else .error .unassigned
  | 0x20 => do
    let (f, d) ← parseM3 w ext
    match d with
    | none => pure (.ld f)
    | some d => pure (.ldDisp f d)
  | 0x21 => do
    let (f, d) ← parseM3 w ext
    match d with
    | none => pure (.st f)
    | some d => pure (.stDisp f d)
  | 0x22 => do let f ← parseAt w ext; pure (.atom f)
  | 0x23 => do let f ← parseAt w ext; pure (.red f)
  | mj =>
    if mj ∈ [0x01, 0x02, 0x03, 0x04, 0x06, 0x07, 0x09, 0x0A, 0x0B, 0x0C, 0x10, 0x11, 0x12, 0x14, 0x15, 0x19, 0x1A] then do
      let (sub, f) ← parseA w ext
      match ofA mj sub f with
      | some i => pure i
      | none => .error .unassigned
    else parseG w ext

/-! ### The encoder -/

/-- A word from MAJOR, PRED and the bits below (R122). -/
def word (major : Nat) (p : BitVec 3) (body : Nat) : Word :=
  BitVec.ofNat 32 (major * 2 ^ 26 + p.toNat * 2 ^ 23 + body)

/-- The M word (R127). -/
def mWord (sub : Nat) (ty : Ty) (rnd : BitVec 3) (c : BitVec 7) (bi : Bool) (pc : BitVec 3) : Word :=
  BitVec.ofNat 32 (sub + ty.code.toNat * 2 ^ 4 + rnd.toNat * 2 ^ 9 + c.toNat * 2 ^ 12 + bi.toNat * 2 ^ 19
    + pc.toNat * 2 ^ 20)

def MWord.words (sub : Nat) (m : MWord) : List Word :=
  mWord sub m.ty m.rnd m.c m.imm.isSome m.pc :: m.imm.toList

def encodeA (major sub : Nat) (f : FmtA) : List Word :=
  let body := f.d.toNat * 2 ^ 16 + f.a.toNat * 2 ^ 9 + f.b.toNat * 2 ^ 2
  match f.m with
  | none => [word major f.p (body + sub)]
  | some m => word major f.p (body + 3) :: m.words sub

def encodeP (major x : Nat) (f : FmtP) : List Word :=
  let body := f.s.toNat * 2 ^ 22 + f.cc.toNat * 2 ^ 19 + f.pd.toNat * 2 ^ 16 + f.a.toNat * 2 ^ 9 + f.b.toNat * 2 ^ 2
  match f.m with
  | none => [word major f.p (body + x)]
  | some m => word major f.p (body + 3) :: m.words 0

def lo32 (v : BitVec 64) : Word := v.extractLsb' 0 32
def hi32 (v : BitVec 64) : Word := v.extractLsb' 32 32

def encodeM3 (major : Nat) (f : FmtM3) (d : Option Disp) : List Word :=
  let body := f.d.toNat * 2 ^ 16 + f.a.toNat * 2 ^ 9 + spaceCode f.sp * 2 ^ 7 + f.flow.toNat * 2 ^ 5
    + sizeCode3 f.sz * 2 ^ 2
  match d with
  | none => [word major f.p body]
  | some (.d32 v) => [word major f.p (body + 1), v]
  | some (.d64 v) => [word major f.p (body + 2), lo32 v, hi32 v]

def encodeAt (major : Nat) (f : FmtAt) : List Word :=
  [word major f.p (f.d.toNat * 2 ^ 16 + f.a.toNat * 2 ^ 9 + f.b.toNat * 2 ^ 2),
   BitVec.ofNat 32 (atomOpCode f.op + f.ty.code.toNat * 2 ^ 4 + f.scope.code.toNat * 2 ^ 9 + orderCode f.order * 2 ^ 12
     + spaceCode f.sp * 2 ^ 14 + f.flow.toNat * 2 ^ 16 + f.c.toNat * 2 ^ 18)]

def encodeBar (sub : Nat) (f : FmtBar) : List Word :=
  [word 0x24 f.p (sub * 2 ^ 19 + f.b.toNat * 2 ^ 15 + f.cn.toNat * 2 ^ 14 + f.n.toNat * 2 ^ 7)]

def encodeCache (sub : Nat) (f : FmtCache) : List Word :=
  [word 0x25 f.p (sub * 2 ^ 19 + f.scope.code.toNat * 2 ^ 16 + f.a.toNat * 2 ^ 9 + f.d.toNat * 2 ^ 2 + spaceCode f.sp)]

def encodeMma (f : FmtMma) : Word :=
  word 0x2E f.p (mmaModeCode f.mode * 2 ^ 21 + f.acc.toNat * 2 ^ 17 + f.oa.toNat * 2 ^ 12 + f.ob.toNat * 2 ^ 7
    + mxFmtCode f.fa * 2 ^ 5 + mxFmtCode f.fb * 2 ^ 3)

def encodeQ (major : Nat) (f : FmtQ) : List Word :=
  [word major f.p (f.d.toNat * 2 ^ 16 + f.a.toNat * 2 ^ 9 + qSizeCode f.sz * 2 ^ 6 + f.flow.toNat * 2 ^ 4), f.route]

/-- The words of an instruction that has an encoding of its own; events and packets have none. -/
def encode (i : Instr) : List Word :=
  match aCode i with
  | some (mj, sub, f) => encodeA mj sub f
  | none =>
    match i with
    | .accz p n => [word 0x2F p (1 * 2 ^ 19 + n.toNat * 2 ^ 15)]
    | .accrd p n d a => [word 0x2F p (2 * 2 ^ 19 + n.toNat * 2 ^ 15 + d.toNat * 2 ^ 8 + a.toNat * 2)]
    | .accwr p n d a => [word 0x2F p (3 * 2 ^ 19 + n.toNat * 2 ^ 15 + d.toNat * 2 ^ 8 + a.toNat * 2)]
    | .lop3 f =>
      [word 0x08 f.p (f.d.toNat * 2 ^ 16 + f.a.toNat * 2 ^ 9 + f.b.toNat * 2 ^ 2 + 3),
       mWord 0 f.ty 0 f.c false 0, BitVec.ofNat 32 f.table.toNat]
    | .atom f => encodeAt 0x22 f
    | .red f => encodeAt 0x23 f
    | .barSync f => encodeBar 1 f
    | .barArrive f => encodeBar 2 f
    | .bid p d a b => [word 0x2C p (d.toNat * 2 ^ 16 + a.toNat * 2 ^ 9 + b.toNat * 2 ^ 2)]
    | .peek p d a => [word 0x27 p (2 * 2 ^ 20 + d.toNat * 2 ^ 13 + a.toNat * 2 ^ 6)]
    | .recycle p d a => [word 0x27 p (3 * 2 ^ 20 + d.toNat * 2 ^ 13 + a.toNat * 2 ^ 6)]
    | .close p d a => [word 0x27 p (4 * 2 ^ 20 + d.toNat * 2 ^ 13 + a.toNat * 2 ^ 6)]
    | .bkpt p c => [word 0x1F p (3 * 2 ^ 19 + c.toNat)]
    | .trap p c => [word 0x1F p (4 * 2 ^ 19 + c.toNat)]
    | .bra p off => [word 0x1C p off.toNat]
    | .braL p d => [word 0x1E p (3 * 2 ^ 20), lo32 d, hi32 d]
    | .brx p a => [word 0x1E p (a.toNat * 2 ^ 6)]
    | .ret p a => [word 0x1E p (1 * 2 ^ 20 + a.toNat * 2 ^ 6)]
    | .call p l off => [word 0x1D p (l.toNat * 2 ^ 16 + off.toNat)]
    | .callL p l d => [word 0x1E p (4 * 2 ^ 20 + l.toNat * 2 ^ 13), lo32 d, hi32 d]
    | .callx p l a => [word 0x1E p (2 * 2 ^ 20 + l.toNat * 2 ^ 13 + a.toNat * 2 ^ 6)]
    | .cancel p lv => [word 0x35 p (2 * 2 ^ 20 + levelCode lv * 2 ^ 18)]
    | .cflush f => encodeCache 0 f
    | .cinv f => encodeCache 1 f
    | .cinvDiscard f => encodeCache 2 f
    | .cdisc f => encodeCache 3 f
    | .cpref f => encodeCache 4 f
    | .claim p s => [word 0x2D p (6 * 2 ^ 19 + s.toNat)]
    | .release p s => [word 0x2D p (7 * 2 ^ 19 + s.toNat)]
    | .clock p d => [word 0x35 p (3 * 2 ^ 20 + d.toNat * 2 ^ 13)]
    | .cvt f =>
      [word 0x0F f.p (f.d.toNat * 2 ^ 16 + f.a.toNat * 2 ^ 9 + 3),
       mWord 0 f.dst f.rnd.code (BitVec.ofNat 7 f.src.code.toNat) false 0]
    | .dqpush p a => [word 0x1F p (7 * 2 ^ 19 + a.toNat * 2 ^ 12)]
    | .dqpop p d => [word 0x1F p (8 * 2 ^ 19 + d.toNat * 2 ^ 12)]
    | .exit p s => [word 0x1F p (s.code.toNat * 2 ^ 16)]
    | .fcmp f => encodeP 0x13 0 f
    | .icmp f => encodeP 0x05 0 f
    | .icmp64 f => encodeP 0x05 1 f
    | .fence p s k => [word 0x24 p (s.code.toNat * 2 ^ 16 + fenceKindCode k * 2 ^ 14)]
    | .kjoin p k => [word 0x1B p (k.toNat * 2 ^ 15)]
    | .kleave p k => [word 0x1B p (1 * 2 ^ 19 + k.toNat * 2 ^ 15)]
    | .kwait p k => [word 0x1B p (2 * 2 ^ 19 + k.toNat * 2 ^ 15)]
    | .kset p k v => [word 0x1B p (3 * 2 ^ 19 + k.toNat * 2 ^ 15 + v.toNat * 2 ^ 4)]
    | .kget p k v => [word 0x1B p (4 * 2 ^ 19 + k.toNat * 2 ^ 15 + v.toNat * 2 ^ 4)]
    | .kmov p kd ka => [word 0x1B p (5 * 2 ^ 19 + kd.toNat * 2 ^ 15 + ka.toNat * 2 ^ 11)]
    | .kick p a => [word 0x2D p (a.toNat * 2 ^ 5)]
    | .launch p d a => [word 0x35 p (1 * 2 ^ 20 + d.toNat * 2 ^ 13 + a.toNat * 2 ^ 6)]
    | .launchW p d a => [word 0x35 p (1 * 2 ^ 20 + d.toNat * 2 ^ 13 + a.toNat * 2 ^ 6 + 2 ^ 5)]
    | .ld f => encodeM3 0x20 f none
    | .ldDisp f d => encodeM3 0x20 f (some d)
    | .st f => encodeM3 0x21 f none
    | .stDisp f d => encodeM3 0x21 f (some d)
    | .ldi p d i => [word 0x0E p (d.toNat * 2 ^ 16), i]
    | .ldi64 p d i => [word 0x0E p (d.toNat * 2 ^ 16 + 1), lo32 i, hi32 i]
    | .mma f => [encodeMma f]
    | .mmap p a => [word 0x2F p (a.toNat * 2)]
    | .quant f =>
      [word 0x2F f.p (4 * 2 ^ 19 + f.acc.toNat * 2 ^ 15 + f.a.toNat * 2),
       BitVec.ofNat 32 (f.ty.code.toNat + f.rnd.code.toNat * 2 ^ 5 + f.tomem.toNat * 2 ^ 8 + f.slot.toNat * 2 ^ 9)]
    | .monitor p sp s a =>
      [word 0x1F p (5 * 2 ^ 19 + spaceCode sp * 2 ^ 17 + s.code.toNat * 2 ^ 14 + a.toNat * 2 ^ 7)]
    | .waitm p d t => [word 0x1F p (6 * 2 ^ 19 + d.toNat * 2 ^ 12 + t.toNat * 2 ^ 5)]
    | .movi p d i => [word 0x0D p (d.toNat * 2 ^ 16 + i.toNat)]
    | .nop p => [word 0x1F p (2 * 2 ^ 19)]
    | .yield p => [word 0x1F p (1 * 2 ^ 19)]
    | .racq p n => [word 0x32 p (n.toNat * 2 ^ 16)]
    | .rrel p n => [word 0x32 p (1 * 2 ^ 20 + n.toNat * 2 ^ 16)]
    | .rsend f => encodeQ 0x30 f
    | .rfetch f => encodeQ 0x31 f
    | .shfl p d a b m => [word 0x16 p (d.toNat * 2 ^ 16 + a.toNat * 2 ^ 9 + b.toNat * 2 ^ 2 + shflModeCode m)]
    | .shflImm p d a i m => [word 0x17 p (d.toNat * 2 ^ 16 + a.toNat * 2 ^ 9 + i.toNat * 2 ^ 4 + shflModeCode m)]
    | .srd p d r => [word 0x33 p (d.toNat * 2 ^ 16 + sregCode r * 2 ^ 6)]
    | .swr p a r => [word 0x34 p (a.toNat * 2 ^ 16 + sregCode r * 2 ^ 6)]
    | .swi p a b => [word 0x35 p (a.toNat * 2 ^ 13 + b.toNat * 2 ^ 6)]
    | .tbind p b a => [word 0x2D p (5 * 2 ^ 19 + b.toNat * 2 ^ 12 + a.toNat * 2 ^ 5)]
    | .twaitany p a => [word 0x2D p (1 * 2 ^ 19 + a.toNat * 2 ^ 5)]
    | .twaitall p a => [word 0x2D p (2 * 2 ^ 19 + a.toNat * 2 ^ 5)]
    | .tffr p d a => [word 0x2D p (3 * 2 ^ 19 + d.toNat * 2 ^ 12 + a.toNat * 2 ^ 5)]
    | .tclr p a => [word 0x2D p (4 * 2 ^ 19 + a.toNat * 2 ^ 5)]
    | .tload p a => [word 0x27 p (1 * 2 ^ 20 + a.toNat * 2 ^ 6)]
    | .tqr p a => [word 0x27 p (a.toNat * 2 ^ 6)]
    | .tq p d a t => [word 0x26 p (d.toNat * 2 ^ 16 + a.toNat * 2 ^ 9 + t.toNat * 2 ^ 3)]
    | .vote p m pd ps => [word 0x18 p (voteModeCode m * 2 ^ 20 + pd.toNat * 2 ^ 16 + ps.toNat * 2 ^ 13)]
    | .waitc p t => [word 0x24 p (3 * 2 ^ 19), t]
    | _ => []

/-- Decodes the instruction that begins a list of words, with the number of words it takes. A field the encoder does
not write back is a nonzero reserved field (R124, R125). -/
def decode (ws : List Word) : Except Illegal (Instr × Nat) :=
  match ws with
  | [] => .error .noWord
  | w :: ext =>
    match parse w ext with
    | .error e => .error e
    | .ok i =>
      if i.wf && encode i == ws.take (encode i).length then .ok (i, (encode i).length) else .error .reserved

/-! ### What R119 asks of a word before it is decoded -/

/-- Extension words of a word, given the word after it; `none` when MAJOR or a sub-opcode is unassigned. An X code of
formats A and P, the SUB of an M word and DX = 3 count as sub-opcodes (DEDUCED, log entry 12). -/
def extWords (w : Word) (next : Option Word) : Option Nat :=
  let mj := majorOf w
  let sub4 := fldN w 19 4
  let sub3 := fldN w 20 3
  let mExt (major : Nat) : Option Nat :=
    if fldN w 0 2 = 3 then
      match next with
      | none => some 1
      | some m =>
        if (ofA major (fldN m 0 4) ⟨0, 0, 0, 0, none⟩).isSome then some (1 + fldN m 19 1) else none
    else if (ofA major (fldN w 0 2) ⟨0, 0, 0, 0, some ⟨.b32, 0, 0, none, 0⟩⟩).isSome
        && !(major = 0x03 && fldN w 0 2 ≠ 0) && !(major = 0x11 && fldN w 0 2 ≠ 0) then some 0 else none
  let pExt (xs : List Nat) : Option Nat :=
    if fldN w 0 2 = 3 then
      match next with
      | none => some 1
      | some m => if fldN m 0 4 = 0 then some (1 + fldN m 19 1) else none
    else if fldN w 0 2 ∈ xs then some 0 else none
  match mj with
  | 0x05 => pExt [0, 1]
  | 0x13 => pExt [0]
  | 0x08 => if fldN w 0 2 = 3 then (match next with
      | none => some 2
      | some m => if fldN m 0 4 = 0 then some 2 else none) else none
  | 0x0F => if fldN w 0 2 = 3 then (match next with
      | none => some 1
      | some m => if fldN m 0 4 = 0 then some (1 + fldN m 19 1) else none) else none
  | 0x0D => some 0
  | 0x0E => some (1 + fldN w 0 1)
  | 0x16 | 0x17 | 0x18 | 0x1C | 0x1D | 0x26 | 0x2C | 0x2E | 0x33 | 0x34 => some 0
  | 0x1B => if sub4 ≤ 5 then some 0 else none
  | 0x1E => match sub3 with | 0 | 1 | 2 => some 0 | 3 | 4 => some 2 | _ => none
  | 0x1F => if sub4 ≤ 8 then some 0 else none
  | 0x20 | 0x21 => if fldN w 0 2 = 3 then none else some (fldN w 0 2)
  | 0x22 | 0x23 | 0x30 | 0x31 => some 1
  | 0x24 => match sub4 with | 0 | 1 | 2 => some 0 | 3 => some 1 | _ => none
  | 0x25 => if sub4 ≤ 4 then some 0 else none
  | 0x27 => if sub3 ≤ 4 then some 0 else none
  | 0x2D => if sub4 ≤ 7 then some 0 else none
  | 0x2F => match sub4 with | 0 | 1 | 2 | 3 => some 0 | 4 => some 1 | _ => none
  | 0x32 => if sub3 ≤ 1 then some 0 else none
  | 0x35 => if sub3 ≤ 3 then some 0 else none
  | m => if m ∈ [0x01, 0x02, 0x03, 0x04, 0x06, 0x07, 0x09, 0x0A, 0x0B, 0x0C, 0x10, 0x11, 0x12, 0x14, 0x15, 0x19, 0x1A]
    then mExt m else none

/-- The CLASS bit of a word: 0 ALU, 1 MEM, 2 TILE, 3 CTRL (R118, R133, R134). -/
def classOf (w : Word) : Nat :=
  let mj := majorOf w
  if mj ≤ 0x1A then 0
  else if mj ≤ 0x1F then 3
  else if mj ≤ 0x23 then 1
  else if mj = 0x24 then (if fldN w 19 4 = 0 then 1 else 3)
  else if mj = 0x25 || mj = 0x26 || mj = 0x2C || mj = 0x30 || mj = 0x31 then 1
  else if mj = 0x27 then (if fldN w 20 3 ≤ 1 then 2 else 1)
  else if mj = 0x2D || mj = 0x2E || mj = 0x2F then 2
  else 3

/-- EndsClause of R119: the parking instructions of R68 and the control transfers. -/
def endsClause (w : Word) : Bool :=
  let mj := majorOf w
  let sub4 := fldN w 19 4
  mj = 0x1C || mj = 0x1D || mj = 0x1E
  || (mj = 0x1F && (sub4 = 0 || sub4 = 1 || sub4 = 6 || sub4 = 8))
  || (mj = 0x1B && sub4 = 2)
  || (mj = 0x24 && (sub4 = 1 || sub4 = 3))
  || (mj = 0x2D && (sub4 = 1 || sub4 = 2))
  || (mj = 0x32 && fldN w 20 3 = 0)
  || (mj = 0x35 && fldN w 20 3 = 1)

/-! ### Booth micro-ops (10_banks.md R270) -/

def MicroOp.body (o : MicroOp) : Nat :=
  o.f.toNat * 2 ^ 26 + o.g.toNat * 2 ^ 25 + o.h.toNat * 2 ^ 24 + o.sh.toNat * 2 ^ 16 + o.row.toNat

/-- The word of a booth micro-op. -/
def encodeMicro (i : Instr) : Option Word :=
  let mk (uop : Nat) (o : MicroOp) := some (BitVec.ofNat 32 (uop * 2 ^ 28 + o.body))
  match i with
  | .bend o => mk 0 o | .bkey o => mk 1 o | .bmask o => mk 2 o | .bcmp o => mk 3 o | .bwrt o => mk 4 o
  | .btagand o => mk 5 o | .btagor o => mk 6 o | .btagnot o => mk 7 o | .bcnt o => mk 8 o | .bseg o => mk 9 o
  | _ => none

/-- The micro-op that a program word holds; `none` is an illegal UOP or a nonzero reserved field (R270, R272). -/
def decodeMicro (w : Word) : Option Instr :=
  let o : MicroOp := ⟨fld w 26 2, bitOf w 25, bitOf w 24, fld w 16 6, fld w 0 10⟩
  let i : Option Instr := match fldN w 28 4 with
    | 0 => some (.bend o) | 1 => some (.bkey o) | 2 => some (.bmask o) | 3 => some (.bcmp o) | 4 => some (.bwrt o)
    | 5 => some (.btagand o) | 6 => some (.btagor o) | 7 => some (.btagnot o) | 8 => some (.bcnt o)
    | 9 => some (.bseg o) | _ => none
  match i with
  | some i => if i.wf && encodeMicro i == some w then some i else none
  | none => none

/-! ### The opcode table's numbering of bits -/

/-- The words of an instruction whose bits are `w`, first word in the low bits, with words of zeros after it. -/
def tableWords (w : Nat) : List Word :=
  [BitVec.ofNat 32 w, BitVec.ofNat 32 (w / 2 ^ 32), BitVec.ofNat 32 (w / 2 ^ 64), 0, 0]

/-- The instruction that the decoder reads from an instruction whose bits are `w`: a core instruction, or where the
core decoder refuses the word, a booth micro-op (log entry 13). -/
def decodeTableWord (_nbits w : Nat) : Option Instr :=
  match decode (tableWords w) with
  | .ok (i, _) => some i
  | .error _ => decodeMicro (BitVec.ofNat 32 w)

end Sys2Proof
end

