-- ==== Sys2Proof/Config.lean ====
section
/-! DEFINITION. What an implementation fixes and the values that the spec leaves open. Every open value is an opaque
constant with no body, so no proof can see it (assumption log entries 6, 9, 10, 11). -/
namespace Sys2Proof.Config

/-- A fresh free value, applied to the counter that State holds (log entry 6). -/
opaque freeNat : Nat → Nat

/-- Which element of the permitted set an approximate function returns, by function code and operand bits:
R376 makes the result a function of the operand's bits alone (log entry 10). -/
opaque approxPick : Nat → Nat → Nat

/-- The PWRCTL.FLOOR fuse in W (13_platform.md R323; log entry 9). -/
opaque fuseFloor : BitVec 16

/-- The 256 bytes of the identity record, as B64 words by index, as the fuses hold them; only the serial number,
the firmware version and the public key are read from here (R332; log entry 9). -/
opaque fuseIdentity : Nat → BitVec 64

/-- SHA-384 of a list of bytes, as bytes (R331, R334; log entry 11). -/
opaque digest : List Byte → List Byte

/-- A signature under the device key over a list of bytes (R331, R334; log entry 11). -/
opaque sign : List Byte → List Byte

/-- Whether a signature over a firmware image verifies under the Scemar root key in ROM (R331; log entry 11). -/
opaque verify : List Byte → Bool

/-- The certificate chain that the SPDM responder returns (R334; log entry 11). -/
opaque certChain : List Byte

/-- The core clock in MHz that a die's grant beyond FLOOR, in W, allows (R329; log entry 106). -/
opaque capOf : Nat → Nat

/-- The extended-algorithm entry of an SPDM message that names the signature scheme of R331 (R334; log entry 39). -/
opaque extAlg : BitVec 32

/-- The ROM image that GET_MEASUREMENTS digests (R334; log entry 11). -/
opaque romImage : List Byte

end Sys2Proof.Config
end

