-- ==== Sys2Proof/Machine/Bits.lean ====
section
/-! DEFINITION. Arithmetic helpers of the pseudocode (00_scope.md R10, R11): values are mathematical integers until a
helper narrows them. -/

namespace Sys2Proof

/-- x[hi:lo] as an unsigned integer (R10). -/
def bits (x hi lo : Nat) : Nat := x / 2 ^ lo % 2 ^ (hi + 1 - lo)

/-- Bit i of an integer. -/
def bit (x i : Nat) : Bool := x / 2 ^ i % 2 = 1

/-- Wrap(x, n) of a mathematical integer (R11). -/
def wrapI (x : Int) (n : Nat) : Nat := (x % (2 ^ n : Int)).toNat

/-- Wrap(x, n) of a natural number (R11). -/
def wrapN (x n : Nat) : Nat := x % 2 ^ n

/-- SignExtend(x, n): the low n bits as a signed integer (R11). -/
def sextI (x n : Nat) : Int := if x % 2 ^ n < 2 ^ (n - 1) then (x % 2 ^ n : Nat) else (x % 2 ^ n : Nat) - (2 ^ n : Int)

/-- The low n bits sign-extended to m bits. -/
def sextN (x n m : Nat) : Nat := wrapI (sextI x n) m

/-- x[hi:lo] replaced by v. -/
def setBits (x hi lo v : Nat) : Nat :=
  x - bits x hi lo * 2 ^ lo + v % 2 ^ (hi + 1 - lo) * 2 ^ lo

/-- Number of set bits among the low n bits. -/
def popCount (x : Nat) : Nat → Nat
  | 0 => 0
  | n + 1 => popCount x n + (if bit x n then 1 else 0)

/-- Number of leading zero bits of an n-bit value. -/
def leadZeros (x : Nat) : Nat → Nat
  | 0 => 0
  | n + 1 => if bit x n then 0 else leadZeros x n + 1

/-- Bit reversal of an n-bit value. -/
def revBits (x n : Nat) : Nat := (List.range n).foldl (fun r i => r + (if bit x i then 2 ^ (n - 1 - i) else 0)) 0

/-- Bits [lo + n - 1 : lo] of a value of any size, as a list of bits is not needed: sum over a bit predicate. -/
def sumBits (n : Nat) (f : Nat → Bool) : Nat := (List.range n).foldl (fun r i => r + (if f i then 2 ^ i else 0)) 0

/-- Floor of log₂ of a positive number; 0 for 0. -/
def flog2 (x : Nat) : Nat := Nat.log2 x

/-- Bytes of a number, lowest first (R3). -/
def toBytes (x : Nat) : Nat → List Byte
  | 0 => []
  | n + 1 => BitVec.ofNat 8 x :: toBytes (x / 256) n

/-- The number that little-endian bytes hold (R3). -/
def ofBytes : List Byte → Nat
  | [] => 0
  | b :: bs => b.toNat + 256 * ofBytes bs

/-- Elementwise and, or, xor of naturals are Lean's own; `andNot` clears bits. -/
def andNot (x y : Nat) : Nat := x - (x &&& y)

/-- The index of the lowest set bit among the low n bits, or n. -/
def lowestSet (x n : Nat) : Nat := ((List.range n).find? (fun i => bit x i)).getD n

end Sys2Proof
end

