-- ==== Sys2Proof/Machine/Table.lean ====
section
/-! DEFINITION. Tables: sparse data by number, as lists in one canonical form (keys strictly rising, no entry equal to
the default), and physical memory built on them. -/

namespace Sys2Proof

/-- A sparse table: key and value pairs. A key that is not listed holds the table's default. -/
abbrev Tbl (α : Type) := List (Nat × α)

/-- The value at a key, `d` where nothing is listed. -/
def Tbl.get {α : Type} (d : α) : Tbl α → Nat → α
  | [], _ => d
  | (k', v) :: t, k => if k' = k then v else Tbl.get d t k

/-- Inserts before the first larger key. -/
def Tbl.ins {α : Type} : Tbl α → Nat → α → Tbl α
  | [], k, v => [(k, v)]
  | (k', v') :: t, k, v => if k < k' then (k, v) :: (k', v') :: t else (k', v') :: Tbl.ins t k v

/-- Removes a key. -/
def Tbl.del {α : Type} (t : Tbl α) (k : Nat) : Tbl α := t.filter (fun e => e.1 != k)

/-- Writes a value at a key; writing the default removes the entry. -/
def Tbl.put {α : Type} [DecidableEq α] (d : α) (t : Tbl α) (k : Nat) (v : α) : Tbl α :=
  if v = d then Tbl.del t k else Tbl.ins (Tbl.del t k) k v

/-- Writes n consecutive keys from `lo` on at once; keys that take the default are not listed. -/
def Tbl.putRange {α : Type} [DecidableEq α] (d : α) (t : Tbl α) (lo n : Nat) (f : Nat → α) : Tbl α :=
  t.filter (fun e => e.1 < lo) ++ (List.range n).filterMap (fun i => if f i = d then none else some (lo + i, f i))
  ++ t.filter (fun e => lo + n ≤ e.1)

/-- n consecutive values from `lo` on. -/
def Tbl.slice {α : Type} (d : α) (t : Tbl α) (lo n : Nat) : List α :=
  let part : Tbl α := t.filter (fun e => lo ≤ e.1 && e.1 < lo + n)
  (List.range n).map (fun i => Tbl.get d part (lo + i))

/-- Every listed key lies above a bound, and keys rise strictly. -/
def Tbl.risingFrom {α : Type} : Option Nat → Tbl α → Bool
  | _, [] => true
  | b, (k, _) :: t => (match b with | none => true | some n => n < k) && Tbl.risingFrom (some k) t

/-- The canonical form: keys strictly rising and no entry equal to the default. -/
def Tbl.wf {α : Type} [DecidableEq α] (d : α) (t : Tbl α) : Bool :=
  Tbl.risingFrom none t && t.all (fun e => e.2 != d)

/-- Physical memory by 52-bit address: bytes, in the canonical form of `Tbl` (06_memory.md R151). -/
abbrev Memory := Tbl Byte

/-- What an unlisted address reads as: 0 (DESIGN CHOICE, unsafe, log entry 1). -/
def Memory.unlisted : Byte := 0

def Memory.read (m : Memory) (a : Nat) : Byte := Tbl.get Memory.unlisted m a

def Memory.write (m : Memory) (a : Nat) (b : Byte) : Memory := Tbl.put Memory.unlisted m a b

/-- The canonical form of memory. -/
def Memory.wf (m : Memory) : Bool := Tbl.wf Memory.unlisted m

/-- `n` bytes from an address, lowest first (R3). -/
def Memory.readBytes (m : Memory) (a : Nat) : Nat → List Byte
  | 0 => []
  | n + 1 => m.read a :: Memory.readBytes m (a + 1) n

/-- Writes a list of bytes from an address upward. -/
def Memory.writeBytes (m : Memory) (a : Nat) : List Byte → Memory
  | [] => m
  | b :: bs => Memory.writeBytes (m.write a b) (a + 1) bs

end Sys2Proof
end

