-- ==== Sys2Proof/Machine/State.lean ====
section
/-! DEFINITION. The state of the module as plain data: threads, lots, cores, caches, memory, stacks, command processors,
links and platform, each piece named by the rule that gives it, and the state after reset. -/

namespace Sys2Proof.Machine

/-- Reasons a step stops without a next state. -/
inductive Fault where
  /-- A core instruction was executed while the active unit runs no formed warp and no barker: raised by every core
  instruction of a thread or barker. Safe: the hardware executes an instruction only in a clause (R73, R80). -/
  | noIssuer
deriving DecidableEq, Repr

/-- Reasons an instruction has no meaning. -/
inductive Refusal where
  /-- An instruction whose meaning the model does not give, by its mnemonic: raised by arms of the dispatch that have
  no meaning. Safe. -/
  | notModelled (mnemonic : String)
deriving DecidableEq, Repr

/-! ### Threads -/

/-- An executing agent of a lot: warp and home lane, or the barker as warp 32, lane 0 (02_work.md R30, 03_issue.md R79). -/
structure Agent where
  w : Nat
  l : Nat
deriving DecidableEq, Repr

/-- What a clause asks at its start (R86): its header word, how many of its instructions count in each class, how many
take a log entry, and how many waiting-table entries it may need. -/
structure ClauseNeeds where
  hdr : Word
  ld : Nat
  st : Nat
  cp : Nat
  tl : Nat
  logs : Nat
  entries : Nat
deriving DecidableEq, Repr

/-- Park reasons with their parameters (03_issue.md R67, R80, R90). -/
inductive Park where
  | clauseStart (n : ClauseNeeds)            -- WAIT: a clause-start check that failed (R86)
  | waitc (thresholds : BitVec 32)           -- WAIT: WAITC (R87)
  | bar (b : Nat) (gen : BitVec 16)
  | kwait (k : Nat)
  | mon (d : Nat) (timeout : Option Nat)     -- destination and remaining cycles; none waits for ever
  | dq (d : Nat)
  | tag (all : Bool) (mask : Word64)
  | blocks (n : Nat)
  | launch (d : Nat) (req : Nat)
  | debug
  | dqfull (index : Nat)                     -- word of the clause at which the DQPUSH is retried (R365)
deriving DecidableEq, Repr

/-- Thread states (R66); `exiting` is a thread in step 2 of R369, `stopped` one that a cancel or a failure stopped. -/
inductive TState where
  | absent
  | ready
  | issuing
  | parked (p : Park)
  | exiting (scope : Scope)
  | exited
  | stopped
deriving DecidableEq, Repr

/-- A fault that waits for the thread's next header (11_faults.md R279, R285). -/
structure Stop where
  code : Nat
  detail : Nat
  tag : Nat
  addr : Nat
  replay : Bool
  hdr : VAddr
deriving DecidableEq, Repr

/-- One monitor (R84). `pending` is a write performed whose report has not reached the core. -/
structure Monitor where
  scratch : Bool
  line : Nat
  scope : Scope
  pending : Bool
  written : Bool
  lost : Bool
deriving DecidableEq, Repr

/-- The fault shadow and the recorded resume header (R287). -/
structure Shadow where
  regs : List Word64
  preds : BitVec 8
  resume : VAddr
deriving DecidableEq, Repr

/-- A thread of a lot, or its barker (R66, R69, R79, R81, R101, R287, R302). IN_HANDLER is `shadow.isSome`. -/
structure Thread where
  st : TState
  pc : VAddr
  target : Option VAddr
  mid : Nat
  /-- waiting-table entries that its clause keeps reserved while it is parked DQFULL (R86, R365) -/
  kept : Nat
  preds : BitVec 8
  cursor : BitVec 16
  rng : Word
  mon : Option Monitor
  stop : Option Stop
  shadow : Option Shadow
  dbgPend : Bool
  stepping : Bool
  seq : Nat
  aged : Bool
  /-- header of the clause whose control transfer led to the PC (R119) -/
  via : Option VAddr
  /-- scope of an EXIT whose wait a fault of an earlier access interrupted (R285, R369; log entry 24) -/
  exitAfter : Option Scope
  /-- accesses of others that it has observed by synchronising, as far as they were not yet performed (R184) -/
  obs : List Nat
  /-- thresholds of a WAITC whose wait a fault of the thread's own access interrupted (R87, R285; log entry 114) -/
  waitAfter : Option (BitVec 32)
  /-- its noted fault was raised in the handler that it has left since, in the same clause (R287) -/
  nested : Bool
  /-- accesses that a RESUME or STEP has issued again and that a thread in DEBUG awaits (R303, R484) -/
  resume : List Nat
  /-- a RESUME or STEP lets it go on once those have ended -/
  going : Bool
deriving DecidableEq, Repr

def Thread.none : Thread :=
  { st := .absent, pc := 0, target := Option.none, mid := 0, kept := 0, preds := 0, cursor := 0, rng := 0, mon := Option.none,
    stop := Option.none, shadow := Option.none, dbgPend := false, stepping := false, seq := 0, aged := false,
    via := Option.none, exitAfter := Option.none, obs := [], waitAfter := Option.none, nested := false,
    resume := [], going := false }

/-- Blocks on their way back after RREL, with the operations that still hold them (R415). -/
structure Back where
  pool : Nat
  reserve : Nat
  ops : List Nat
deriving DecidableEq, Repr

/-- A warp, or the barker's counters and flags as warp 32 (R40, R82, R85, R114, R285). -/
structure Warp where
  pool : Nat
  reserve : Nat
  backs : List Back
  members : Tbl Word
  arrived : Tbl Word
  fstat : BitVec 8
  ld : Nat
  st : Nat
  cp : Nat
  tl : Nat
deriving DecidableEq, Repr

def Warp.none : Warp := ⟨0, 0, [], [], [], 0, 0, 0, 0, 0⟩

/-! ### Lots -/

/-- A launch descriptor as read (R34). -/
structure Desc where
  va : VAddr
  entry : VAddr
  bark : Nat
  gx : Nat
  gy : Nat
  gz : Nat
  lx : Nat
  ly : Nat
  lz : Nat
  base : Nat
  acc : Nat
  ops : Nat
  bk : Bool
  scr : Nat
  ctr : Nat
  deps : List (Nat × Nat)
  param : VAddr
deriving DecidableEq, Repr

/-- A hardware barrier (R344). -/
structure Barrier where
  arrivals : Nat
  expected : Nat
  gen : BitVec 16
deriving DecidableEq, Repr

def Barrier.none : Barrier := ⟨0, 0, 0⟩

/-- Operand-slot states (09_tiles.md R244). -/
inductive SlotState where
  | free | claimed | releasing
deriving DecidableEq, Repr

/-- What a kick-queue entry asks of the request engine (R233, R241, R264). -/
inductive KickKind where
  | order | tload | tqr | tbind
deriving DecidableEq, Repr

/-- One entry of a lot's kick queue: its number, the record's offset (or the entries' address for TBIND), the issuer, and the
stores of the issuing warp that it releases (R195, R232, R233). -/
structure Kick where
  id : Nat
  kind : KickKind
  off : Nat
  first : Nat
  count : Nat
  agent : Agent
  hdr : VAddr
  chain : Nat
  after : List Nat
  warps : List Nat
deriving DecidableEq, Repr

/-- A fault record of the report queue (R283); CTX is the queue's context. -/
structure FRec where
  kind : Nat
  code : Nat
  flags : Nat
  core : Nat
  desc : VAddr
  lot : Nat
  lotend : Nat
  warp : Nat
  tag : Nat
  outcome : Nat
  detail : Nat
  lanes : Word
  pc : VAddr
  addr : Nat
deriving DecidableEq, Repr

/-- Phases of a resident lot: running, being cancelled, ending FAILED, or halted for a dump (R49, R288, R303). -/
inductive LotPhase where
  | running
  | cancelling
  | failing (code : Nat)
  | draining
  | halted
deriving DecidableEq, Repr

/-- A range lock entry (07_ordering.md R197); `order` is the order that registered it. -/
structure Lock where
  ctx : Nat
  bctx : Nat
  sp : Nat
  dst : Bool
  tag : Nat
  base : Nat
  len : Nat
  order : Nat
  pa : Nat
deriving DecidableEq, Repr

/-- A resident lot. Tables are keyed: threads by 32 × warp + lane (barker 1,024); vector registers by
(128 × warp + register) × 32 + lane; slots by slot × 4,096 + byte and slot × 128 + scale byte; accumulators by
tile × 4,096 + row × 64 + column. -/
structure Lot where
  ctx : Nat
  launch : Nat
  index : Nat
  d : Desc
  nthreads : Nat
  nwarps : Nat
  threads : Tbl Thread
  warps : Tbl Warp
  vregs : Tbl Word
  sregs : Tbl Word64
  scratch : Tbl Byte
  slotData : Tbl Byte
  slotScale : Tbl Byte
  slotState : Tbl SlotState
  acc : Tbl Word
  accInt : Tbl Bool
  tags : Word64
  bars : Tbl Barrier
  dq : Tbl Word
  dqP : BitVec 16
  kicks : List Kick
  done : Nat
  barkExited : Bool
  phase : LotPhase
  firstFault : Option FRec
  firstSeq : Nat
  nfault : Nat
  captured : List Lock
  saving : Bool
  /-- core gang of each gang of the lot (R17, R31) -/
  gangs : List Nat
deriving DecidableEq, Repr

/-! ### Cores -/

/-- A TLB entry: a page of a context with its frame and attribute bits (06_memory.md R173). -/
structure TlbEntry where
  ctx : Nat
  page : Nat
  big : Bool
  frame : Nat
  attr : Nat
  modid : Nat
deriving DecidableEq, Repr

/-- A walk-cache entry of a die (06_memory.md R173): the non-leaf entry of a level (4 to 2) for the part of a VA from that
level's index up, and the table it points to. -/
structure WalkEntry where
  ctx : Nat
  level : Nat
  page : Nat
  table : Nat
deriving DecidableEq, Repr

/-- A waiting request of the block queue, with the header of the clause of its RACQ (02_work.md R41). -/
structure BlockReq where
  bctx : Nat
  w : Nat
  n : Nat
  hdr : VAddr
  lanes : List Agent
deriving DecidableEq, Repr

/-- A core: block pool, reserve, block queue, rotations, waiting batches by gang, range locks, TLB, halt mark and the
cycle count of its clock. -/
structure CoreS where
  pool : Nat
  reserve : Nat
  blockQ : List BlockReq
  slotRR : Tbl Nat
  pipeRR : Nat
  batches : Tbl (List (List Agent))
  locks : List Lock
  tlb : List TlbEntry
  halted : Bool
  kickRR : Nat
  arrayRR : Nat
  cycles : Nat
deriving DecidableEq, Repr

def CoreS.none : CoreS := ⟨512, 8, [], [], 0, [], [], [], false, 0, 0, 0⟩

/-- A formed warp or a barker that holds an issue slot or the scalar pipeline, with the words of its clause that are
not yet executed (R73, R80, R119). -/
structure Issuer where
  core : Nat
  bctx : Nat
  agents : List Agent
  hdr : VAddr
  next : VAddr
  fetched : Bool
  words : List Word
  index : Nat
  rb : Bool
  runWords : Nat
  reserved : Nat
  gang : Nat
  yielded : Bool
deriving DecidableEq, Repr

/-! ### Accesses -/

/-- What a split transaction does (03_issue.md R85). -/
inductive AccKind where
  | ld | st | atom | red | tq | rsend | rfetch | bid | peek | recycle | close
  | cflush | cinv | cinvDiscard | cdisc | cpref | lotdone
deriving DecidableEq, Repr

/-- Where an access stands. -/
inductive Phase where
  | walk                    -- not yet past the core's checks (R284)
  | ready                   -- checked; may be performed
  | granted                 -- its line is on the die
  | sent                    -- with another agent: host AtomicOp, slot fabric, bank queue
  | replied (v : Nat)       -- a result is due
  | failed (code : Nat) (addr : Nat)   -- an error response is due
  | performed               -- performed at its home; the count has not fallen
  | replay (s : Stop)       -- failed a core check; kept with REPLAY (R285)
deriving DecidableEq, Repr

/-- One lane's access of one instruction. `half` says which 8-byte half of a B128 access is performed (0 none, 1 the low,
2 the high; R179); `link` is the link that it has gone out on, plus one (0 none; R316); `back` is the relay die from which
its reply has still to cross the die plane (R306); registers from `lim` on have been released since (R415). -/
structure Acc where
  id : Nat
  op : Nat
  t : LaneId
  ctx : Nat
  kind : AccKind
  hdr : VAddr
  iw : List Word
  sp : Space
  flow : Nat
  va : Nat
  size : Nat
  scope : Scope
  order : AtomOrder
  aop : AtomOp
  ty : Ty
  data : Nat
  cmp : Nat
  dst : Option (Nat × Ty)
  aux : Nat
  phase : Phase
  pa : Nat
  attr : Nat
  modid : Nat
  after : List Nat
  gates : List Nat
  credit : Bool
  delivered : Bool
  half : Nat
  link : Nat
  back : Option Nat
  lim : Nat
deriving DecidableEq, Repr

/-- A fence in progress: the accesses it covers, and the accesses it holds name it in `gates` (R183). -/
structure FenceRec where
  id : Nat
  t : LaneId
  kind : FenceKind
  scope : Scope
  covers : List Nat
deriving DecidableEq, Repr

/-- A soft interrupt not yet delivered, with its sender's launch descriptor and lot (R64, R438). -/
structure Swi where
  id : Nat
  t : LaneId
  ctx : Nat
  desc : VAddr
  lot : Nat
  hdr : VAddr
  value : Word
  target : Word
  after : List Nat
deriving DecidableEq, Repr

/-- Who holds a copy of a line: the L1 of a core of the die, or a cluster cache (R158, R159). -/
inductive Holder where
  | l1 (core : Nat)
  | clu (c : Nat)
deriving DecidableEq, Repr

/-- A copy of a 128-byte line with its per-byte dirty mask (R180). -/
structure Copy where
  holder : Holder
  data : BitVec 1024
  dirty : BitVec 128
deriving DecidableEq, Repr

/-- A line held by caches of a die, with its context tag (R165). -/
structure DieLine where
  ctx : Nat
  strm : Bool
  cell : Bool
  mirr : Bool
  copies : List Copy
deriving DecidableEq, Repr

/-- A store in a core's L1 that not every core of the die sees yet (07_ordering.md R181): the threads of its core see it,
and, once it is `spread`, those of its cluster. -/
structure Early where
  id : Nat
  core : Nat
  ctx : Nat
  line : Nat
  data : BitVec 1024
  mask : BitVec 128
  attr : Nat
  spread : Bool
deriving DecidableEq, Repr

/-- Frame classes (R156). -/
inductive FrameClass where
  | plain
  | aliased
  | elided (pattern : Word)
deriving DecidableEq, Repr

/-- A line of the host-line cache: its 64 bytes, whether they are modified, and the I/O die whose half holds it (R22, R163,
R217). -/
structure HostLine where
  data : BitVec 512
  dirty : Bool
  half : Nat
deriving DecidableEq, Repr

/-- A mirrored line in the buddy's mirror area (R291). -/
structure MirrorLine where
  die : Nat
  line : Nat
  data : BitVec 1024
  mask : BitVec 128
deriving DecidableEq, Repr

/-- An entry of a monitor filter (R84): filter number and line, oldest first, and the core it serves. -/
structure FilterEntry where
  filter : Nat
  line : Nat
  core : Nat
deriving DecidableEq, Repr

/-! ### Engines -/

/-- A copy-order record as read (R229). -/
structure OrderRec where
  kind : Nat
  tag : Nat
  ssp : Nat
  dsp : Nat
  link : Bool
  op : Nat
  rnd : Nat
  tensor : Nat
  unit : Nat
  elsz : Nat
  count : Nat
  bobj : Nat
  src : Nat
  dst : Nat
  coord : List Nat
  next : Nat
deriving DecidableEq, Repr

/-- What a registered order or table command is. -/
inductive OrderKind where
  | copy | gather | scatter | tileld | accst | tred
  | tload (table shape : Nat)
  | tqr (table : Nat)
deriving DecidableEq, Repr

/-- A registered order (R231 to R236, R264, R266). `pos` counts what is done; `tensor` is the entry read at
registration; `stackSet` are the stacks that have still to acknowledge a TLOAD. -/
structure Order where
  id : Nat
  core : Nat
  bctx : Nat
  ctx : Nat
  kind : OrderKind
  r : OrderRec
  tensor : List Byte
  agent : Agent
  started : Bool
  pos : Nat
  image : List Byte
  stackSet : List Nat
  tileOp : Nat
  hdr : VAddr
deriving DecidableEq, Repr

/-- Tile operations in tile order (R251). -/
inductive TileKind where
  | mma (f : FmtMma)
  | accz (n : Nat)
  | accrd (n : Nat) (d : Nat) (lanes : List (Agent × Nat × Nat))
  | accwr (n : Nat) (vals : List (Nat × Nat × Word))
  | quantSlot (n : Nat) (ty : Ty) (rnd : Rnd) (slot : Nat)
  | quantMem (n : Nat) (ty : Ty) (rnd : Rnd) (va : Nat) (done : Nat)   -- `done`: bytes written so far
  | load (slot : Nat) (order : Nat)
  | store (acc : Nat) (order : Nat)
deriving DecidableEq, Repr

inductive TilePhase where
  | waiting | started | left
deriving DecidableEq, Repr

/-- A tile operation: its issuer, the group whose last completion lowers the TL of the listed
warps, and its place by list order. -/
structure TileOp where
  id : Nat
  group : Nat
  core : Nat
  bctx : Nat
  agent : Agent
  hdr : VAddr
  kind : TileKind
  phase : TilePhase
  warps : List Nat
deriving DecidableEq, Repr

/-! ### Stacks -/

/-- Booth states (10_banks.md R273). -/
inductive BoothState where
  | idle | running | suspended | doneS | error
deriving DecidableEq, Repr

/-- A booth-class command waiting at a bank (R257, R258): OP, the unit's L, its data and the issuing context. -/
structure BankCmd where
  op : Nat
  loc : Nat
  qtr : Nat
  data : Nat
  size : Nat
  ctx : Nat
deriving DecidableEq, Repr

/-- One that waits for a bank or for a transfer: an access, order, tile operation or kick by its number, the write-back of a die's line, a
command processor, a unit that fetches, a lot that is saved or dumped at its place, the area of a saved lot that is restored, a child
launch, the fault record of a context, or a request from outside by its address (R275, R313). -/
inductive Waiter where
  | acc (id : Nat)
  | line (die line : Nat)
  | cp (n : Nat)
  | unit (u : Nat)
  | place (core bctx : Nat)
  | area (area : Nat)
  | child (id : Nat)
  | record (ctx : Nat)
  | input (pa : Nat)
deriving DecidableEq, Repr

/-- The booth of a bank (R268, R273, R274). -/
structure Booth where
  key : BitVec 8192
  mask : BitVec 8192
  tag : BitVec 8192
  ba : Tbl Word64
  pc : BitVec 10
  base : BitVec 18
  prog : Tbl Word
  owner : BitVec 12
  st : BoothState
  err : BitVec 8
  runs : BitVec 20
  queue : List BankCmd
  segCount : Nat
  refreshDue : Bool
  refreshing : Bool
  waiting : List Waiter
  served : Nat
deriving DecidableEq, Repr

def Booth.none : Booth := ⟨0, 0, 0, [], 0, 0, [], 0, .idle, 0, 0, [], 0, false, false, [], 0⟩

/-- A price-board table: shape and entries (R263). -/
structure PbTable where
  shape : Nat
  entries : Tbl (BitVec 16)
deriving DecidableEq, Repr

def PbTable.none : PbTable := ⟨0, []⟩

/-! ### Command processors -/

/-- A saved lot of a grid remap table (R38): index, its area and what placement asks of a core. -/
structure SavedLot where
  index : Nat
  area : Nat
  size : Nat
  blocks : Nat
deriving DecidableEq, Repr

/-- A launch accepted and not complete (R38, R47, R56). `seq` is the order of acceptance. -/
structure Launch where
  id : Nat
  ctx : Nat
  queue : Nat
  prio : Nat
  d : Desc
  parentLevel : Option Nat
  parentLaunch : Option Nat
  device : Bool
  offered : Bool
  next : Nat
  total : Nat
  saved : List SavedLot
  reruns : List Nat
  removed : List Nat
  retired : Nat
  children : Nat
  cancelled : Bool
  halted : Bool
  diesRun : List Nat
  seq : Nat
deriving DecidableEq, Repr

/-- A graph, phase or job (R47, R58). -/
structure Level where
  id : Nat
  kind : CancelLevel
  ctx : Nat
  queue : Nat
  counter : Nat
  closed : Bool
  members : Nat
  parent : Option Nat
  cancelled : Bool
deriving DecidableEq, Repr

/-- Loop and buffer nesting of a queue (R57): a position is a byte offset in the ring or in the innermost buffer. -/
inductive Frame where
  | loop (start stop remaining : Nat)
  | buf (va : VAddr) (len : Nat) (pos : Nat)
deriving DecidableEq, Repr

/-- What a queue is blocked on (R55). -/
inductive Blocked where
  | no
  | wait
  | wake
deriving DecidableEq, Repr

/-- A command queue beyond its registers (R53 to R58). -/
structure Queue where
  frames : List Frame
  blocked : Blocked
  graph : Option Nat
  phase : Option Nat
  job : Option Nat
  lastLaunch : Option Nat
  lastGraph : Option Nat
  lastPhase : Option Nat
  lastJob : Option Nat
deriving DecidableEq, Repr

def Queue.none : Queue := ⟨[], .no, Option.none, Option.none, Option.none, Option.none, Option.none, Option.none, Option.none⟩

/-- A device-side launch request that waits for acceptance (R60 to R62). -/
structure ChildReq where
  id : Nat
  t : LaneId
  lanes : List Agent
  d : Nat
  ctx : Nat
  va : VAddr
  parent : Nat
  after : List Nat
deriving DecidableEq, Repr

/-- An entry of the Market Master's wake FIFO (R63, R65). -/
structure WakeEntry where
  ctx : Nat
  value : Word
  core : Nat
  warp : Nat
  lanes : Word
deriving DecidableEq, Repr

/-- Fault report and save-pool state of a context (R282, R294): record number, lost mark, areas in use. -/
structure CtxS where
  seq : BitVec 16
  lost : Bool
  areas : List (Nat × Nat)
deriving DecidableEq, Repr

def CtxS.none : CtxS := ⟨0, false, []⟩

/-- A pre-emption request that waits or holds cores (R293, R294). -/
structure Preempt where
  queue : Nat
  n : Nat
  cores : List Nat
deriving DecidableEq, Repr

/-! ### Links and platform -/

/-- A die-plane packet of one access (12_links.md R313): `key` is its flow, `acc` the access that it carries (0 once the
writer has given it up); the reader has it (`received`), has passed it on in order (`delivered`) and has sent its
acknowledgement (`ackSent`), and the writer has that (`acked`); `due` says that it waits for a token to be sent again, `flying` that it is on its way. -/
structure Packet where
  id : Nat
  ch : Nat
  writer : Nat
  key : Nat
  ordered : Bool
  seqNo : BitVec 16
  acc : Nat
  size : Nat
  sends : Nat
  due : Bool
  flying : Bool
  received : Bool
  delivered : Bool
  ackSent : Bool
  acked : Bool
deriving DecidableEq, Repr

/-- A transfer over the die plane for an engine, a walk, a fetch or another unit of a die, there and back (R27, R313): who asked, the
line, the home channel (66 and 67 stand for the replay buffers of host ports A and B, R316), the die, the flow, the bytes of payload
each way, the packet of its request, the packet on its way, whether that is the reply, and, at the end, whether all went well. -/
structure Transfer where
  who : Waiter
  line : Nat
  ch : Nat
  src : Nat
  key : Nat
  out : Nat
  back : Nat
  sent : Option Nat
  pkt : Option Nat
  reply : Bool
  done : Option Bool
deriving DecidableEq, Repr

/-- A home channel (R310 to R312): its tokens, each an epoch and the place of the next writer counted from the reader
(1 to 65); and the nanoseconds that the laser of the die of this number has been lit. -/
structure Channel where
  tokens : List (Nat × Nat)
  laser : Nat
deriving DecidableEq, Repr

def Channel.none : Channel := ⟨[(0, 1)], 0⟩

/-- A link of R316, ports A and B of the host as 0 and 1 and slot-fabric port n as 2 + n: failed trainings and the rate
that a retrain trains. -/
structure LinkS where
  fails : Nat
  target : Nat
deriving DecidableEq, Repr

def LinkS.none : LinkS := ⟨0, 0⟩

/-- A slot-fabric port (R319 to R321): the schedule in force and the one received, the slot, the offset reported in this
slot and those that the crier has still to answer, the corrections that have arrived, the one applied, whether the frame
has been within the guard, why the port is frozen, and the peer of the circuit that is open in this slot. -/
structure PortS where
  sched : List SlotEntry
  received : Option (List SlotEntry)
  slot : Nat
  fresh : List Int
  asked : List Int
  arriving : List Int
  applied : Int
  cleanFrame : Bool
  /-- corrections that this module, as the crier, carries in its next beacon to the port -/
  owed : List Int
  guardFrozen : Bool
  election : Bool
  here : Option Nat
deriving DecidableEq, Repr

def PortS.none : PortS := ⟨[], Option.none, 0, [], [], [], 0, true, [], false, false, Option.none⟩

/-- The Market Master, its firmware, the slices that retrain, and the election (12_links.md R321; 13_platform.md R324 to
R331): `rollback` is the rollback fuse, `standby` says that the standby Market Master has taken over, `atFloor` that the
grants in force are those of FLOOR, `grants` the grants of the last round beyond FLOOR in W, dies first and stacks after them,
`starved` the stacks whose grant leaves their booths and boards nothing, `waiting` that this module's own wait as a successor runs. -/
structure Platform where
  version : Nat
  rollback : Nat
  firmware : List Byte
  standby : Bool
  atFloor : Bool
  grants : List Nat
  starved : List Nat
  retraining : List Slice
  successors : List Nat
  claimSeen : Option Nat
  waiting : Bool
deriving DecidableEq, Repr

def Platform.none : Platform := ⟨0, 0, [], false, false, [], [], [], [], Option.none, false⟩

/-- Phases of the SPDM responder (R334). -/
inductive SpdmPhase where
  | start | version | capabilities | algorithms
deriving DecidableEq, Repr

/-- Messages to the outside (log entry 8). -/
inductive OutMsg where
  | msix (vector : Nat)
  | regValue (pa : Nat) (v : Word64)
  | regError (pa : Nat)
  | snoop (pa : Nat) (data : Option (BitVec 512))
  | memData (pa : Nat) (data : Option (BitVec 512))
  | memDone (pa : Nat) (ok : Bool)
  | atomicOp (pa : Nat) (op : AtomOp) (size : Nat) (data cmp : Nat)
  | remoteCell (modid : Nat) (kind : AccKind) (pa : Nat) (data : Nat)
  | remoteReply (modid : Nat) (pa : Nat) (r : RemoteReply)
  | retrain (link : Nat) (rate : Nat)
  | beaconRequest (port : Nat) (offset : Int)
  | beacon (port : Nat) (corrections : List Int)
  | schedule (port : Nat) (entries : List SlotEntry) (successors : List Nat)
  | claim (rank : Nat)
  | spdm (bytes : List Byte)
  | config (bytes : List Byte)
deriving DecidableEq, Repr

/-- One entry of the schedule: an event, the turn of a unit, the turn of a bank's booth, a store that becomes visible to
more cores of its die, or the fault record that has waited longest (log entries 2 and 93). -/
inductive Move where
  | event (i : Instr)
  | unit (u : Nat)
  | booth (bank : Nat)
  | spread (id : Nat)
  | record
deriving DecidableEq, Repr

/-- A TLBINV in progress: what it covers (R174, R175). -/
inductive TlbInv where
  | page (ctx : Nat) (page : Nat)
  | context (ctx : Nat)
  | all
deriving DecidableEq, Repr

/-! ### The module -/

/-- A CTXFLUSH in progress (R166): its context and INV, the lines that it has written back, and, once every set has been visited,
the lines by die whose write-backs still wait. -/
structure CtxFlush where
  ctx : Nat
  inv : Bool
  count : Nat
  left : Option (List (Nat × Nat))
deriving DecidableEq, Repr

/-- Memory side: physical bytes, poisoned lines, caches, host lines, frames, mirrors, filters, walk caches, and the
operations on them in progress. -/
structure MemS where
  mem : Memory
  poison : Tbl Bool
  caches : Tbl (Option DieLine)
  early : List Early
  hostLines : Tbl (Option HostLine)
  frames : Tbl FrameClass
  mirror : List MirrorLine
  filters : List FilterEntry
  walkCache : Tbl (List WalkEntry)
  tlbinv : Option TlbInv
  ctxflush : Option CtxFlush
  fcset : Option (Nat × FrameClass × List Nat)
  /-- fault records, each with its context, whose queue's memory lets them wait (R275, R328) -/
  recs : List (Nat × FRec)
deriving DecidableEq, Repr

/-- Engines, stacks and tables of contexts. -/
structure EngS where
  orders : List Order
  tileOps : List TileOp
  tensors : Tbl Byte
  boards : Tbl PbTable
  pbBusy : Tbl Bool
  booths : Tbl Booth
deriving DecidableEq, Repr

/-- Command processors and the levels of work. -/
structure WorkS where
  launches : List Launch
  levels : List Level
  queues : Tbl Queue
  cpRR : Tbl Nat
  counters : Tbl Word64
  ctxs : Tbl CtxS
  childReqs : List ChildReq
  device : Tbl Nat
  wakeFifo : List WakeEntry
  swis : List Swi
  preempts : List Preempt
  /-- launches cancelled whose cores the cancel has not reached -/
  cancels : List (Nat × Nat)
deriving DecidableEq, Repr

/-- Links, platform and the outside. `routeDue` holds the pairs whose routing entry is to change: 0 by their lost wavelengths,
n + 1 to the entry n (R308); `fabric` the traffic that waits for a circuit to its module (R319); `inputs` the requests from outside
that wait for a bank, each with its place among those that wait (R275). -/
structure LinkPlatS where
  wlLost : Tbl Bool
  routeDue : Tbl (Option Nat)
  homeLost : Tbl Bool
  channels : Tbl Channel
  packets : List Packet
  transfers : List Transfer
  seqs : Tbl (BitVec 16)
  links : Tbl LinkS
  ports : Tbl PortS
  probes : Tbl Nat
  lost : Tbl Bool
  retmap : Tbl Word64
  plat : Platform
  spdm : SpdmPhase
  atomicOps : Bool
  ns : Nat
  fabric : List (Nat × OutMsg)
  inputs : List (Instr × Waiter)
  out : List OutMsg
deriving DecidableEq, Repr

/-- The state of the module. -/
structure State where
  agenda : List Move
  active : Nat
  actBank : Nat
  nextId : Nat
  free : Nat
  running : Tbl (Option Issuer)
  cores : Tbl CoreS
  lots : Tbl (Option Lot)
  accs : List Acc
  fences : List FenceRec
  dev : Tbl (Option Word64)
  m : MemS
  e : EngS
  w : WorkS
  p : LinkPlatS
deriving DecidableEq, Repr

def MemS.reset : MemS := ⟨[], [], [], [], [], [], [], [], [], none, none, none, []⟩

def EngS.reset : EngS := ⟨[], [], [], [], [], []⟩

def WorkS.reset : WorkS := ⟨[], [], [], [], [], [], [], [], [], [], [], []⟩

def LinkPlatS.reset : LinkPlatS :=
  ⟨[], [], [], [], [], [], [], [], [], [], [], [], Platform.none, .start, false, 0, [], [], []⟩

/-- The module right after reset: every table at its default, no lot, no launch, memory with nothing listed; device
registers hold the After reset values that `regReset` gives for an unlisted register. -/
def State.reset : State :=
  { agenda := [], active := 0, actBank := 0, nextId := 1, free := 0, running := [], cores := [], lots := [],
    accs := [], fences := [], dev := [], m := MemS.reset, e := EngS.reset, w := WorkS.reset, p := LinkPlatS.reset }

end Sys2Proof.Machine
end

