-- ==== Sys2Proof/Machine/Base.lean ====
section
/-! DEFINITION. Accessors of the state: lots, threads, warps, registers, cores, units, device registers and physical
memory. Every read and write of a piece of state goes through these. -/

namespace Sys2Proof.Machine

/-! ### Identifiers and free values -/

/-- A fresh identifier (log entry 2). -/
def State.fresh (s : State) : Nat × State := (s.nextId, { s with nextId := s.nextId + 1 })

/-- The next free value (log entry 6). -/
def State.freeVal (s : State) : Nat × State := (Config.freeNat s.free, { s with free := s.free + 1 })

/-- Sends a message to the outside (log entry 8). -/
def State.send (s : State) (m : OutMsg) : State := { s with p := { s.p with out := s.p.out ++ [m] } }

/-! ### Cores, lots, units -/

def State.core (s : State) (c : Nat) : CoreS := Tbl.get CoreS.none s.cores c

def State.setCore (s : State) (c : Nat) (x : CoreS) : State := { s with cores := Tbl.put CoreS.none s.cores c x }

/-- Place of a lot: 4 barker contexts per core (R17, R18). -/
def lotKey (c b : Nat) : Nat := c * 4 + b

def State.lot? (s : State) (c b : Nat) : Option Lot := Tbl.get none s.lots (lotKey c b)

def State.setLot (s : State) (c b : Nat) (l : Lot) : State := { s with lots := Tbl.put none s.lots (lotKey c b) (some l) }

def State.dropLot (s : State) (c b : Nat) : State := { s with lots := Tbl.put none s.lots (lotKey c b) none }

/-- Changes a lot, if it is there. -/
def State.onLot (s : State) (c b : Nat) (f : Lot → Lot) : State :=
  match s.lot? c b with
  | some l => s.setLot c b (f l)
  | none => s

/-- Unit u: issue slots 0 to 3 of core u / 5, and 4 its scalar pipeline (R72, R80). -/
def unitOf (c slot : Nat) : Nat := c * 5 + slot

def State.issuer? (s : State) (u : Nat) : Option Issuer := Tbl.get none s.running u

def State.setIssuer (s : State) (u : Nat) (i : Option Issuer) : State := { s with running := Tbl.put none s.running u i }

/-- Die, cluster and number within the die of a global core (R14, R15). -/
def dieOf (c : Nat) : Nat := c / 16
def cluOf (c : Nat) : Nat := c / 4
def coreInDie (c : Nat) : Nat := c % 16

/-- Mesh coordinates of a core of a die (R15). -/
def meshX (c : Nat) : Nat := c % 2 + 2 * (c / 4 % 2)
def meshY (c : Nat) : Nat := c / 2 % 2 + 2 * (c / 8 % 2)

/-! ### Threads and warps of a lot -/

def Agent.barker : Agent := ⟨32, 0⟩
def Agent.isBarker (a : Agent) : Bool := a.w == 32
def Agent.key (a : Agent) : Nat := a.w * 32 + a.l

def Lot.thr (l : Lot) (a : Agent) : Thread := Tbl.get Thread.none l.threads a.key

def Lot.setThr (l : Lot) (a : Agent) (t : Thread) : Lot := { l with threads := Tbl.put Thread.none l.threads a.key t }

def Lot.warp (l : Lot) (w : Nat) : Warp := Tbl.get Warp.none l.warps w

def Lot.setWarp (l : Lot) (w : Nat) (x : Warp) : Lot := { l with warps := Tbl.put Warp.none l.warps w x }

/-- The threads of a lot, in ascending number (R30). -/
def Lot.agents (l : Lot) : List Agent := (List.range l.nthreads).map (fun t => ⟨t / 32, t % 32⟩)

/-- The threads and the barker. -/
def Lot.allAgents (l : Lot) : List Agent := if l.d.bk then l.agents ++ [Agent.barker] else l.agents

/-- Lanes of a warp that hold a thread (R30). -/
def Lot.lanesOf (l : Lot) (w : Nat) : List Nat := (List.range 32).filter (fun i => w * 32 + i < l.nthreads)

def laneAgent (t : LaneId) : Agent := ⟨t.w, t.l⟩

def State.thr? (s : State) (t : LaneId) : Option Thread := (s.lot? t.core t.bctx).map (fun l => l.thr (laneAgent t))

def State.onThr (s : State) (t : LaneId) (f : Thread → Thread) : State :=
  s.onLot t.core t.bctx (fun l => l.setThr (laneAgent t) (f (l.thr (laneAgent t))))

def State.onWarp (s : State) (c b w : Nat) (f : Warp → Warp) : State :=
  s.onLot c b (fun l => l.setWarp w (f (l.warp w)))

/-- Blocks that a warp holds (R40). -/
def Warp.blocks (w : Warp) : Nat := w.pool + w.reserve

/-! ### Registers -/

/-- ReadReg of a vector register in a home-lane column (R11). -/
def Lot.vreg (l : Lot) (w r lane : Nat) : Word := Tbl.get 0 l.vregs ((128 * w + r) * 32 + lane)

def Lot.setVreg (l : Lot) (w r lane : Nat) (v : Word) : Lot :=
  { l with vregs := Tbl.put 0 l.vregs ((128 * w + r) * 32 + lane) v }

/-- ReadScalar (R11). -/
def Lot.sreg (l : Lot) (r : Nat) : Word64 := Tbl.get 0 l.sregs r

def Lot.setSreg (l : Lot) (r : Nat) (v : Word64) : Lot := { l with sregs := Tbl.put 0 l.sregs r v }

/-- A predicate of an agent; p0 and q0 are true (R122). -/
def Lot.pred (l : Lot) (a : Agent) (p : Nat) : Bool := p == 0 || (l.thr a).preds.getLsbD p

def Lot.setPred (l : Lot) (a : Agent) (p : Nat) (v : Bool) : Lot :=
  let t := l.thr a
  l.setThr a { t with preds := BitVec.ofNat 8 (setBits t.preds.toNat p p v.toNat) }

/-! ### Device registers (00_scope.md R6, R486) -/

def queueReg (q off : Nat) : Nat := 0x3000000100000 + 0x40 * q + off
def xlatReg (off : Nat) : Nat := 0x3000000200000 + off
def pbsetReg (n : Nat) : Nat := 0x3000000300000 + 8 * n
def ctxReg (c off : Nat) : Nat := 0x3000000400000 + 0x40 * c + off
def mirrReg (d : Nat) : Nat := 0x3000000500000 + 8 * d
def dbgReg (g off : Nat) : Nat := 0x3000000600000 + 0x40 * g + off
def routeReg (d w : Nat) : Nat := 0x3000000700000 + 0x40 * d + 8 * w
def mpstatReg (d : Nat) : Nat := 0x3000000700000 + 0x40 * d + 0x20
def dpstatReg (h : Nat) : Nat := 0x3000000710000 + 0x40 * h
def hlctlReg (p : Nat) : Nat := 0x3000000720000 + 0x40 * p
def hlstatReg (p : Nat) : Nat := 0x3000000720000 + 0x40 * p + 8
def sfstatReg (n : Nat) : Nat := 0x3000000730000 + 0x40 * n
def sfctlReg : Nat := 0x3000000730400
def vgrantReg (g : Nat) : Nat := 0x3000000740000 + 8 * g
def startstatReg : Nat := 0x3000000800000
def startctlReg : Nat := 0x3000000800008
def pwrctlReg : Nat := 0x3000000800010
def rtctlReg : Nat := 0x3000000800018
def clkstatReg (d : Nat) : Nat := 0x3000000800100 + 8 * d
def identReg (off : Nat) : Nat := 0x3000000801000 + off
def retmapReg (off : Nat) : Nat := 0x3000000801400 + off

/-- The register blocks of the map, by the base that a physical address falls in. -/
def inBlock (pa base n stride : Nat) : Option Nat :=
  if base ≤ pa ∧ pa < base + n * stride then some ((pa - base) / stride) else none

/-- The After reset value of a register that nothing has written (R9 and the register tables); LIMIT, PERIOD, FREQ and
CAP of R323, FACT of R281, QSTAT of R52, HLCTL of R318, SFCTL of R322. -/
def regReset (pa : Nat) : Word64 :=
  if (inBlock pa 0x3000000100000 64 0x40).isSome && pa % 0x40 == 0x30 then 1
  else if (inBlock pa 0x3000000400000 4096 0x40).isSome && pa % 0x40 == 0x20 then 0x21541
  else if pa == hlctlReg 0 || pa == hlctlReg 1 then 2
  else if pa == sfctlReg then 0xFFFFFFFF
  else if pa == pwrctlReg then BitVec.ofNat 64 (14000 + Config.fuseFloor.toNat * 2 ^ 33)
  else if pa == rtctlReg then 60
  else if (inBlock pa 0x3000000800100 64 8).isSome then BitVec.ofNat 64 (600 + 600 * 2 ^ 12)
  else 0

/-- The stored value of a register word. -/
def State.reg (s : State) (pa : Nat) : Word64 :=
  match Tbl.get none s.dev pa with
  | some v => v
  | none => regReset pa

def State.setReg (s : State) (pa : Nat) (v : Word64) : State := { s with dev := Tbl.put none s.dev pa (some v) }

/-- REGISTER[hi:lo]. -/
def State.regF (s : State) (pa hi lo : Nat) : Nat := bits (s.reg pa).toNat hi lo

def State.setRegF (s : State) (pa hi lo v : Nat) : State :=
  s.setReg pa (BitVec.ofNat 64 (setBits (s.reg pa).toNat hi lo v))

/-- Adds to a counting field that saturates. -/
def State.bumpReg (s : State) (pa hi lo n : Nat) : State :=
  s.setRegF pa hi lo (min (2 ^ (hi + 1 - lo) - 1) (s.regF pa hi lo + n))

/-! ### The retirement map (13_platform.md R333) -/

/-- A bit of RETMAP: bit `i` of the field at byte offset `off`. -/
def State.retBit (s : State) (off i : Nat) : Bool :=
  bit (Tbl.get (0 : Word64) s.p.retmap ((off + i / 8) / 8)).toNat ((off + i / 8) % 8 * 8 + i % 8)

def State.setRetBit (s : State) (off i : Nat) : State :=
  let k := (off + i / 8) / 8
  let b := (off + i / 8) % 8 * 8 + i % 8
  let v := (Tbl.get (0 : Word64) s.p.retmap k).toNat
  { s with p := { s.p with retmap := Tbl.put 0 s.p.retmap k (BitVec.ofNat 64 (setBits v b b 1)) } }

def State.coreRetired (s : State) (g : Nat) : Bool := s.retBit 0x000 g
def State.vaultRetired (s : State) (g : Nat) : Bool := s.retBit 0x080 g
def State.nodeRetired (s : State) (g : Nat) : Bool := s.retBit 0x100 g
def State.dieRetired (s : State) (d : Nat) : Bool := s.retBit 0x180 d
def State.linkRetired (s : State) (d k : Nat) : Bool := s.retBit 0x190 (24 * d + k)
def State.channelRetired (s : State) (st ch : Nat) : Bool := s.retBit 0x250 (16 * st + ch)

/-- Counts one change of the map in GEN (R333). -/
def State.bumpRetGen (s : State) : State :=
  let v := Tbl.get (0 : Word64) s.p.retmap (0x188 / 8)
  { s with p := { s.p with retmap := Tbl.put 0 s.p.retmap (0x188 / 8) (v + 1) } }

/-- A core die is retired: its DIES bit, and every CORES, VAULTS, NODES and LINKS bit of the die; GEN follows (R333). -/
def State.retireDie (s : State) (d : Nat) : State :=
  let s := s.setRetBit 0x180 d
  let s := (List.range 16).foldl (fun s c =>
    ((s.setRetBit 0x000 (16 * d + c)).setRetBit 0x080 (16 * d + c)).setRetBit 0x100 (16 * d + c)) s
  ((List.range 24).foldl (fun s k => s.setRetBit 0x190 (24 * d + k)) s).bumpRetGen

/-- Does a stack hold booth-class, price-board and TROWQ commands in its queues: at FLOOR, or where its grant leaves it nothing for
them (R329)? -/
def State.stackHeld (s : State) (stack : Nat) : Bool := s.p.plat.atFloor || s.p.plat.starved.contains stack

/-- READY: the last step of the start (R324). -/
def State.isReady (s : State) : Bool := s.regF startstatReg 3 0 == 7

/-- MINIMAL: only the Market Master and the host link run, as CXL.io only (R325). -/
def State.minimal (s : State) : Bool := s.regF startstatReg 3 0 == 8

/-- A request from outside that waits for a bank goes on later, in the order of arrival (R275). -/
def State.again (s : State) (i : Instr) (w : Waiter) : State :=
  if s.p.inputs.contains (i, w) then s else { s with p := { s.p with inputs := s.p.inputs ++ [(i, w)] } }

/-- A request from outside is served. -/
def State.inputDone (s : State) (i : Instr) : State :=
  if s.p.inputs.isEmpty then s else { s with p := { s.p with inputs := s.p.inputs.filter (fun e => e.1 != i) } }

/-! ### Physical memory and host lines -/

def State.memByte (s : State) (pa : Nat) : Byte := s.m.mem.read pa

/-- Host line of a physical address: 64 bytes (R163). -/
def hostLineOf (pa : Nat) : Nat := pa / 64

/-- One byte at its home: the host-line cache's copy for a host line it holds, else the bytes of physical memory. -/
def State.homeByte (s : State) (pa : Nat) : Byte :=
  if bits pa 51 48 = 2 then
    match Tbl.get none s.m.hostLines (hostLineOf pa) with
    | some h => h.data.extractLsb' (pa % 64 * 8) 8
    | none => s.memByte pa
  else s.memByte pa

/-- `n` bytes at their home. -/
def State.homeBytes (s : State) (pa : Nat) : Nat → List Byte
  | 0 => []
  | n + 1 => s.homeByte pa :: State.homeBytes s (pa + 1) n

/-- Writes one byte at its home; a host line held by the host-line cache is modified there (R203, R217). -/
def State.setHomeByte (s : State) (pa : Nat) (b : Byte) : State :=
  if bits pa 51 48 = 2 then
    match Tbl.get none s.m.hostLines (hostLineOf pa) with
    | some h =>
      let v := setBits h.data.toNat (pa % 64 * 8 + 7) (pa % 64 * 8) b.toNat
      { s with m := { s.m with hostLines := Tbl.put none s.m.hostLines (hostLineOf pa) (some { h with data := BitVec.ofNat 512 v, dirty := true }) } }
    | none => { s with m := { s.m with mem := s.m.mem.write pa b } }
  else { s with m := { s.m with mem := s.m.mem.write pa b } }

/-- Writes a list of bytes at their home. -/
def State.setHomeBytes (s : State) (pa : Nat) : List Byte → State
  | [] => s
  | b :: bs => State.setHomeBytes (s.setHomeByte pa b) (pa + 1) bs

/-- A number of `n` bytes at its home (R3). -/
def State.homeNat (s : State) (pa n : Nat) : Nat := ofBytes (s.homeBytes pa n)

/-! ### Lists with identifiers -/

def State.acc? (s : State) (id : Nat) : Option Acc := s.accs.find? (fun a => a.id == id)

def State.setAcc (s : State) (a : Acc) : State := { s with accs := s.accs.map (fun x => if x.id == a.id then a else x) }

def State.launch? (s : State) (id : Nat) : Option Launch := s.w.launches.find? (fun x => x.id == id)

def State.setLaunch (s : State) (x : Launch) : State :=
  { s with w := { s.w with launches := s.w.launches.map (fun y => if y.id == x.id then x else y) } }

def State.level? (s : State) (id : Nat) : Option Level := s.w.levels.find? (fun x => x.id == id)

def State.setLevel (s : State) (x : Level) : State :=
  { s with w := { s.w with levels := s.w.levels.map (fun y => if y.id == x.id then x else y) } }

def State.order? (s : State) (id : Nat) : Option Order := s.e.orders.find? (fun x => x.id == id)

def State.setOrder (s : State) (x : Order) : State :=
  { s with e := { s.e with orders := s.e.orders.map (fun y => if y.id == x.id then x else y) } }

def State.tileOp? (s : State) (id : Nat) : Option TileOp := s.e.tileOps.find? (fun x => x.id == id)

def State.setTileOp (s : State) (x : TileOp) : State :=
  { s with e := { s.e with tileOps := s.e.tileOps.map (fun y => if y.id == x.id then x else y) } }

def State.booth (s : State) (bank : Nat) : Booth := Tbl.get Booth.none s.e.booths bank

def State.setBooth (s : State) (bank : Nat) (b : Booth) : State :=
  { s with e := { s.e with booths := Tbl.put Booth.none s.e.booths bank b } }

def State.queue (s : State) (q : Nat) : Queue := Tbl.get Queue.none s.w.queues q

def State.setQueue (s : State) (q : Nat) (x : Queue) : State :=
  { s with w := { s.w with queues := Tbl.put Queue.none s.w.queues q x } }

def State.ctxS (s : State) (c : Nat) : CtxS := Tbl.get CtxS.none s.w.ctxs c

def State.setCtxS (s : State) (c : Nat) (x : CtxS) : State :=
  { s with w := { s.w with ctxs := Tbl.put CtxS.none s.w.ctxs c x } }

/-- A counter of a context's counter file (R48). -/
def State.counter (s : State) (ctx i : Nat) : Word64 := Tbl.get 0 s.w.counters (ctx * 1024 + i)

def State.setCounter (s : State) (ctx i : Nat) (v : Word64) : State :=
  { s with w := { s.w with counters := Tbl.put 0 s.w.counters (ctx * 1024 + i) v } }

/-- The resident lots with their places. -/
def State.lotList (s : State) : List (Nat × Nat × Lot) :=
  s.lots.filterMap (fun e => e.2.map (fun l => (e.1 / 4, e.1 % 4, l)))

/-- A mask with a bit for each home lane of a list of agents. -/
def laneMask (as : List Agent) : Word := BitVec.ofNat 32 (sumBits 32 (fun i => as.any (fun a => a.l == i)))

/-- A logged access that awaits its re-issue (R285). -/
def Phase.isReplay (p : Phase) : Bool :=
  match p with
  | .replay _ => true
  | _ => false

end Sys2Proof.Machine
end

