-- ==== Sys2Proof/Machine/Flags.lean ====
section
/-! DEFINITION. The sticky flags of %fstat and the generator of RS rounding (04_numbers.md R101, R102, R114). -/

namespace Sys2Proof.Machine

/-! ### Flag bits (R114) -/

def flagNV : Nat := 1
def flagDZ : Nat := 2
def flagOF : Nat := 4
def flagUF : Nat := 8
def flagNX : Nat := 16
def flagSAT : Nat := 32
def flagNANS : Nat := 64
def flagTRES : Nat := 128

/-- A flag when a condition holds. -/
def flagIf (b : Bool) (f : Nat) : Nat := if b then f else 0

/-- Flags are ORed into the %fstat of the home warp, or of the barker as warp 32 (R114). -/
def Lot.orFlags (l : Lot) (w flags : Nat) : Lot :=
  l.setWarp w { l.warp w with fstat := (l.warp w).fstat ||| BitVec.ofNat 8 flags }

/-- One generator step (R101). -/
def rngNext (s : Nat) : Nat :=
  let s := wrapN (s ^^^ (s * 2 ^ 13)) 32
  let s := s ^^^ (s / 2 ^ 17)
  wrapN (s ^^^ (s * 2 ^ 5)) 32

/-- The state that a seed gives to lane l; the barker is lane 32 (R102). -/
def rngSeed (seed l : Nat) : Word :=
  let v := wrapN seed 32 ^^^ wrapN (0x9E3779B9 * (l + 1)) 32
  if v = 0 then 1 else BitVec.ofNat 32 v

/-- The generator state at lot start (R102). -/
def rngStart (l : Nat) : Word := rngSeed 0 l

/-- Lane number of an agent for its generator: the home lane, or 32 for the barker (R101). -/
def Agent.rngLane (a : Agent) : Nat := if a.isBarker then 32 else a.l

/-- Consumes one generator step of an agent: the new state and the lot that holds it. -/
def Lot.rngStep (l : Lot) (a : Agent) : Nat × Lot :=
  let t := l.thr a
  let n := rngNext t.rng.toNat
  (n, l.setThr a { t with rng := BitVec.ofNat 32 n })

end Sys2Proof.Machine
end

