-- ==== Sys2Proof/Machine/Physical.lean ====
section
/-! DEFINITION. The physical map, host lines, what a home refuses, the banks, and the way of an access to a home: memory plane, die
plane, host ports and banks (01_package.md R14, R22, R23; 06_memory.md R151 to R156, R163; 10_banks.md R275; 12_links.md R305 to R308,
R313, R316). -/

namespace Sys2Proof.Machine

/-! ### The physical map (R151 to R155) -/

def region (pa : Nat) : Nat := bits pa 51 48

/-- Stack and stack offset of a DRAM location (R153). -/
def stackOf (l : Nat) : Nat :=
  bits l 14 10 ^^^ bits l 19 15 ^^^ bits l 24 20 ^^^ bits l 29 25 ^^^ bits l 34 30 ^^^ bits l 39 35 ^^^ bits l 40 40
def stackOffset (l : Nat) : Nat := bits l 40 15 * 2 ^ 10 + bits l 9 0

/-- The location of a stack offset: the inverse of `stackOf` and `stackOffset` (R153). -/
def locationOf (stack so : Nat) : Nat :=
  let hi := so / 2 ^ 10 * 2 ^ 15
  hi + (stack ^^^ stackOf hi) * 2 ^ 10 + so % 2 ^ 10

/-- Global bank number, 256 in each stack: channel and bank of a stack offset (R154). -/
def bankOf (stack so : Nat) : Nat := stack * 256 + bits so 13 10 * 16 + bits so 17 14
def rowOf (so : Nat) : Nat := bits so 35 18

/-- Global vault number of a vault PA, by the core below it, and its byte offset (R15, R152). -/
def vaultOf (pa : Nat) : Nat := bits pa 32 27 * 16 + bits pa 26 23
def vaultOffset (pa : Nat) : Nat := bits pa 22 0
def vaultPa (g off : Nat) : Nat := 2 ^ 48 + g / 16 * 2 ^ 27 + g % 16 * 2 ^ 23 + off

def vaultBytes : Nat := 0x600000

/-- Bytes of the mirror area at the top of each vault of a die (R290). -/
def State.mirrorBytes (s : State) (die : Nat) : Nat := min 8 (s.regF (mirrReg die) 3 0) * 524288

/-- Is an access to a PA of regions 0 to 2 and 8 to F accepted by the region check? Mirror areas are refused (R290). -/
def State.regionOk (s : State) (pa : Nat) : Bool :=
  match region pa with
  | 0 => bits pa 47 41 == 0
  | 1 => bits pa 47 33 == 0 && vaultOffset pa < vaultBytes && !s.vaultRetired (vaultOf pa)
      && vaultOffset pa < vaultBytes - s.mirrorBytes (vaultOf pa / 16)
  | 2 => true
  | r => 8 ≤ r

/-- Frame class of a DRAM location at its stack: a class change in progress holds at the stacks that have applied it
(R156, R157). -/
def State.frameClass (s : State) (l : Nat) : FrameClass :=
  let fr := l / 65536 % 2 ^ 25
  match s.m.fcset with
  | some (f, c, rem) => if f = fr && !rem.contains (stackOf l) then c else Tbl.get .plain s.m.frames fr
  | none => Tbl.get .plain s.m.frames fr

def FrameClass.isElided : FrameClass → Bool
  | .elided _ => true
  | _ => false

/-- Does a PA lie in an ELIDED frame, which its stack answers without its bank (R156)? -/
def State.elidedAt (s : State) (pa : Nat) : Bool := region pa == 0 && (s.frameClass (bits pa 40 0)).isElided

/-- Does a line of 128 bytes hold uncorrectable data? -/
def State.poisoned (s : State) (pa : Nat) : Bool := Tbl.get false s.m.poison (pa / 128)

/-- One byte as its home gives it: an ELIDED frame gives its pattern (R156). -/
def State.viewByte (s : State) (pa : Nat) : Byte :=
  if region pa = 0 then
    match s.frameClass (bits pa 40 0) with
    | .elided pat => pat.extractLsb' (pa % 4 * 8) 8
    | _ => s.homeByte pa
  else s.homeByte pa

def State.viewBytes (s : State) (pa : Nat) : Nat → List Byte
  | 0 => []
  | n + 1 => s.viewByte pa :: State.viewBytes s (pa + 1) n

/-- The die whose caches may hold a vault line (R161). -/
def vaultDie (pa : Nat) : Nat := bits pa 32 27

/-! ### Host lines (R22, R23, R163, R316) -/

/-- STATE of a host port (R318). -/
def State.portState (s : State) (p : Nat) : Nat := s.regF (hlstatReg p) 1 0

/-- The I/O die whose interleave unit a host address is in: bit 12 (R22). -/
def hostUnit (pa : Nat) : Nat := bits pa 12 12

/-- How host traffic of an address travels now. -/
inductive HostPath where
  | port (p : Nat)
  | waits
  | down
deriving DecidableEq, Repr

/-- Host traffic goes over the port of its unit. While that port retrains, it waits in the replay buffers; while the port is
DOWN or training, the other I/O die serves both units; with both ports DOWN it fails with 0x31 (R22, R23, R316; log entry
20). -/
def State.hostPath (s : State) (pa : Nat) : HostPath :=
  let own := hostUnit pa
  match s.portState own, s.portState (1 - own) with
  | 2, _ => .port own
  | 3, _ => .waits
  | _, 2 => .port (1 - own)
  | 0, 0 => .down
  | _, _ => .waits

/-- The host-line cache writes a line's dirty data back, and keeps or drops the line. -/
def State.hostClean (s : State) (k : Nat) (drop : Bool) : State :=
  match Tbl.get none s.m.hostLines k with
  | none => s
  | some h =>
    let s := if h.dirty then
        { s with m := { s.m with mem := s.m.mem.writeBytes (k * 64) (toBytes h.data.toNat 64) } } else s
    { s with m := { s.m with hostLines := Tbl.put none s.m.hostLines k (if drop then none else some { h with dirty := false }) } }

/-- Room in an I/O die's half of the host-line cache: 32 MiB, 524,288 lines of 64 bytes; the line that a free value names
leaves a full half, written back (R21, R163; log entry 6). -/
def State.hostRoom (s : State) (half : Nat) : State :=
  let mine := s.m.hostLines.filterMap (fun e => e.2.bind (fun h => if h.half == half then some e.1 else none))
  if mine.length < 524288 then s
  else
    let (v, s) := s.freeVal
    s.hostClean (mine.getD (v % mine.length) 0) true

/-- The host-line cache obtains a line, in the half of the I/O die that serves its unit now (R22, R23, R163). -/
def State.hostFill (s : State) (pa : Nat) : State :=
  let k := hostLineOf pa
  match Tbl.get none s.m.hostLines k with
  | some _ => s
  | none =>
    let half := match s.hostPath pa with
      | .port p => p
      | _ => hostUnit pa
    let s := s.hostRoom half
    let v := ofBytes (s.m.mem.readBytes (k * 64) 64)
    { s with m := { s.m with hostLines := Tbl.put none s.m.hostLines k (some ⟨BitVec.ofNat 512 v, false, half⟩) } }

/-- Host lines move to the half of the I/O die that serves their unit now: an I/O die holds only lines that its own port reaches
(R22, R23; log entry 117). -/
def State.hostRehome (s : State) : State :=
  s.m.hostLines.foldl (fun s e =>
    match s.hostPath (e.1 * 64), Tbl.get none s.m.hostLines e.1 with
    | .port p, some h =>
      if h.half = p then s
      else
        let s := s.hostRoom p
        { s with m := { s.m with hostLines := Tbl.put none s.m.hostLines e.1 (some { h with half := p }) } }
    | _, _ => s) s

/-! ### What a home refuses -/

/-- The cause for which a home refuses an access: region, mirror area, retired vault, a lost die, uncorrectable data
(R151, R290, R292), or an ELIDED frame for what it does not admit; a read of one does not touch DRAM (R156). -/
def State.homeRefusal (s : State) (pa : Nat) (readOnly : Bool) : Option Nat :=
  if region pa = 1 && Tbl.get false s.p.lost (vaultDie pa) then some 0x31
  else if !s.regionOk pa then some 0x30
  else if region pa = 0 && (s.frameClass (bits pa 40 0)).isElided then (if readOnly then none else some 0x12)
  else if region pa = 0 && s.channelRetired (stackOf (bits pa 40 0)) (bits (stackOffset (bits pa 40 0)) 13 10) then some 0x31
  else if s.poisoned pa then some 0x30
  else none

/-- The path of a die to a stack that no wavelength serves (R306, mode DOWN). -/
def State.routeDown (s : State) (die stack : Nat) : Bool :=
  s.regF (routeReg die (stack / 8)) (8 * (stack % 8) + 1) (8 * (stack % 8)) == 3

/-! ### Routing entries (R305, R306, R308) -/

/-- MODE and VIA of ROUTE.STACKs of a die (R305). -/
def State.routeMode (s : State) (die stack : Nat) : Nat := s.regF (routeReg die (stack / 8)) (8 * (stack % 8) + 1) (8 * (stack % 8))

def State.routeVia (s : State) (die stack : Nat) : Nat := s.regF (routeReg die (stack / 8)) (8 * (stack % 8) + 7) (8 * (stack % 8) + 2)

/-- Does the pair's entry differ from what is asked for, or does a change of it stand out? Its new accesses are held (R308). -/
def State.pairHeld (s : State) (die stack : Nat) : Bool := (Tbl.get none s.p.routeDue (die * 32 + stack)).isSome

/-- The relay die of a pair in RELAY (R306). -/
def State.relayVia (s : State) (die stack : Nat) : Option Nat :=
  if s.routeMode die stack = 2 then some (s.routeVia die stack) else none

/-! ### Banks with a running booth (R275) -/

/-- The bank of a DRAM PA. -/
def bankOfPa (pa : Nat) : Nat := bankOf (stackOf (bits pa 40 0)) (stackOffset (bits pa 40 0))

/-- Place of a line of a die among the lines that dies hold. -/
def cacheKey (die line : Nat) : Nat := die * 2 ^ 45 + line

/-- Has a die bytes of a line that are to be written back? -/
def State.backWanted (s : State) (die line : Nat) : Bool :=
  s.m.early.any (fun e => dieOf e.core == die && e.line == line)
  || s.m.caches.any (fun e => e.1 == cacheKey die line && e.2.any (fun d => d.copies.any (fun x => x.dirty != 0)))

/-- Has a queue of a command processor a packet to serve, or a wait to evaluate? -/
def State.cpBusy (s : State) (cp : Nat) : Bool :=
  (List.range 16).any (fun i =>
    let q := 16 * cp + i
    s.regF (queueReg q 0) 0 0 == 1 && ((s.queue q).blocked != .no || !(s.queue q).frames.isEmpty
      || s.regF (queueReg q 0x10) 31 0 != s.regF (queueReg q 0x18) 31 0))

/-- Does one that waits for a bank or for a transfer still wait? Those that ended meanwhile no longer do. -/
def State.waits (s : State) (w : Waiter) : Bool :=
  match w with
  | .acc id => s.accs.any (fun a => a.id == id) || s.e.orders.any (fun o => o.id == id)
      || s.e.tileOps.any (fun o => o.id == id) || s.lotList.any (fun e => e.2.2.kicks.any (fun k => k.id == id))
  | .line die l => s.backWanted die l
  | .cp n => s.cpBusy n
  | .unit u => match s.issuer? u with
      | some i => !i.fetched
      | none => false
  | .place c b => match s.lot? c b with
      | some l => l.saving || l.phase == .halted || s.p.inputs.any (fun e => e.2 == w)
      | none => false
  | .area a => s.w.launches.any (fun x => x.saved.any (fun v => v.area == a))
  | .child id => s.w.childReqs.any (fun r => r.id == id)
  | .record ctx => s.m.recs.any (fun r => r.1 == ctx)
  | .input _ => s.p.inputs.any (fun e => e.2 == w)

/-- Is the DRAM channel of a bank being retrained (13_platform.md R328)? -/
def State.channelBusy (s : State) (bank : Nat) : Bool := s.p.plat.retraining.contains (.channel (bank / 256) (bank / 16 % 16))

/-- May an ordinary access reach its bank? A running booth, or a refresh, lets it wait for a window; in a window the
waiting accesses are served in arrival order, up to 16 (R275). -/
def State.bankOpen (s : State) (pa : Nat) (w : Waiter) : Bool :=
  region pa != 0 || (let b := s.booth (bankOfPa pa)
    !s.channelBusy (bankOfPa pa) && b.st != .running && !b.refreshing && b.segCount < 64
    && (b.st != .suspended || (b.served < 16 && (match b.waiting.filter (fun x => s.waits x) with
      | [] => true
      | x :: _ => x == w))))

/-- One joins those that wait for the bank of a DRAM PA. -/
def State.bankWait (s : State) (pa : Nat) (w : Waiter) : State :=
  if region pa = 0 then
    let k := bankOfPa pa
    let b := s.booth k
    if b.waiting.contains w then s else s.setBooth k { b with waiting := b.waiting ++ [w] }
  else s

/-- The bank of a PA has served an access. -/
def State.bankServed (s : State) (pa : Nat) (w : Waiter) : State :=
  if region pa = 0 then
    let k := bankOfPa pa
    let b := s.booth k
    if b.st = .suspended || b.waiting.contains w then
      s.setBooth k { b with
        waiting := b.waiting.filter (fun x => x != w), served := if b.st = .suspended then b.served + 1 else b.served }
    else s
  else s

/-! ### The way of an access to a home -/

/-- The destination home of a PA (R190). -/
def homeOf (pa : Nat) : Nat :=
  match region pa with
  | 1 => 1000 + vaultOf pa
  | 2 => 10000
  | _ => stackOf (bits pa 40 0)

/-- The number of a flow: core, context, FLOW and destination home (R190). -/
def flowNumber (core ctx flow home : Nat) : Nat := ((core * 4096 + ctx) * 4 + flow) * 2 ^ 17 + home

/-- The die from which a unit that is no core's asks: an I/O die for a command processor. -/
def Waiter.die : Waiter → Nat
  | .cp n => 64 + n / 2
  | .place c _ => dieOf c
  | .unit u => dieOf (u / 5)
  | .line d _ => d
  | _ => 64

/-- How an access of an engine, a walk, a fetch or another unit ends: with a value, waiting for its way or bank, or refused. -/
inductive EngRes where
  | ok (v : Nat)
  | wait
  | bad (code detail : Nat)
deriving DecidableEq, Repr

/-- Is a home channel retired: its retraining failed (13_platform.md R328)? -/
def State.homeRetired (s : State) (ch : Nat) : Bool := Tbl.get false s.p.homeLost ch

/-- The home channel of the die plane into which an access of a die to a PA must cross: that of the die of a vault, of the I/O die
that serves a host unit in place of its own, or of a relay die (R14, R23, R161, R306). Dies 64 and 65 are the I/O dies. -/
def State.crossing (s : State) (die pa : Nat) : Option Nat :=
  match region pa with
  | 0 => if die < 64 then s.relayVia die (stackOf (bits pa 40 0)) else none
  | 1 => if vaultDie pa = die then none else some (vaultDie pa)
  | 2 => match s.hostPath pa with
    | .port p => if p = hostUnit pa || 64 + p = die then none else some (64 + p)
    | _ => none
  | _ => none

/-- The transfer of a unit for a line. -/
def State.transfer? (s : State) (w : Waiter) (line : Nat) : Option Transfer :=
  s.p.transfers.find? (fun t => t.who == w && t.line == line)

/-- A unit asks for a transfer. -/
def State.addTransfer (s : State) (t : Transfer) : State :=
  if (s.transfer? t.who t.line).isSome then s else { s with p := { s.p with transfers := s.p.transfers ++ [t] } }

/-- The transfers of a unit are done with. -/
def State.endTransfers (s : State) (w : Waiter) : State :=
  { s with p := { s.p with transfers := s.p.transfers.filter (fun t => t.who != w) } }

/-- Is a transfer of a die on its way, or back, over a pair whose route may change under it (R308)? One transfer of its unit that has
left keeps the pair for the others of the unit. -/
def State.transferHeld (s : State) (t : Transfer) : Bool :=
  t.src < 64 && region (t.line * 128) == 0
  && s.pairHeld t.src (stackOf (bits (t.line * 128) 40 0))
  && !s.p.transfers.any (fun x => x.who == t.who && x.src == t.src && region (x.line * 128) == 0
    && stackOf (bits (x.line * 128) 40 0) == stackOf (bits (t.line * 128) 40 0) && (x.pkt.isSome || x.done.isSome))

/-- Is a transfer cut off: the home channel into which it has to go next is retired (R328)? -/
def State.transferCut (s : State) (t : Transfer) : Bool :=
  t.pkt.isNone && t.ch < 66 && s.homeRetired (if t.reply then t.src else t.ch)

/-- Was what a unit needs from a line lost on its way (R313, R316)? -/
def State.wayLost (s : State) (w : Waiter) (pa : Nat) : Bool :=
  match s.transfer? w (pa / 128) with
  | some t => t.done == some false || (t.done.isNone && s.transferCut t)
  | none => false

/-- Can the home take an access of a unit to a PA that has come to it? -/
def State.homeTakes (s : State) (w : Waiter) (pa : Nat) (readOnly : Bool) : EngRes :=
  if region pa = 2 && s.hostPath pa = .waits then .wait
  else if region pa = 2 && s.hostPath pa = .down then .bad 0x31 0
  else match s.homeRefusal pa readOnly with
  | some code => .bad code 0
  | none => if (readOnly && s.elidedAt pa) || s.bankOpen pa w then .ok 0 else .wait

/-- How far an access of a unit of a die has come on its way to the home of a PA: it may wait for a host port, for a change of its
pair's route, for its packets over the die plane or for its bank; a path that is down, a port that went DOWN, a packet that was given
up or a retired home channel fails it with 0x31 (R275, R306, R308, R313, R316, R328). -/
def State.way (s : State) (w : Waiter) (die pa : Nat) (readOnly : Bool) : EngRes :=
  match s.transfer? w (pa / 128) with
  | some t => match t.done with
    | some true => s.homeTakes w pa readOnly
    | some false => .bad 0x31 0
    | none => if s.transferCut t then .bad 0x31 0 else .wait
  | none =>
    let stack := stackOf (bits pa 40 0)
    if region pa = 0 && die < 64 && s.pairHeld die stack then .wait
    else if region pa = 0 && die < 64 && s.routeDown die stack then .bad 0x31 0
    else match s.crossing die pa with
    | some ch => if s.homeRetired ch then .bad 0x31 0 else .wait
    | none => s.homeTakes w pa readOnly

/-- An access that `way` lets wait does what it can: it asks for its transfer of `out` bytes there and `back` bytes back, is put into
the replay buffer of a port that retrains, or joins those that wait for its bank. -/
def State.wayWait (s : State) (w : Waiter) (die pa out back : Nat) : State :=
  let key := flowNumber (die * 16) 0 0 (homeOf pa)
  match s.transfer? w (pa / 128) with
  | some t => if t.done = some true then s.bankWait pa w else s
  | none =>
    if region pa = 2 && s.hostPath pa = .waits then
      if s.portState (hostUnit pa) = 3 then
        s.addTransfer ⟨w, pa / 128, 66 + hostUnit pa, die, key, out, back, none, none, false, none⟩
      else s
    else if region pa = 0 && die < 64 && s.pairHeld die (stackOf (bits pa 40 0)) then s
    else match s.crossing die pa with
    | some ch => s.addTransfer ⟨w, pa / 128, ch, die, key, out, back, none, none, false, none⟩
    | none => s.bankWait pa w

/-- The line that stands for a stack among the lines of a unit's transfers: the lowest that lies in the stack. -/
def stackLine (stack : Nat) : Nat := 8 * stack

/-- How far what a unit of a die sends to a stack itself, to its boards or queues, has come (R259, R264, R306). -/
def State.stackWay (s : State) (w : Waiter) (die stack : Nat) : EngRes :=
  match s.transfer? w (stackLine stack) with
  | some t => match t.done with
    | some true => .ok 0
    | some false => .bad 0x31 0
    | none => if s.transferCut t then .bad 0x31 0 else .wait
  | none =>
    if s.pairHeld die stack then .wait
    else if s.routeDown die stack then .bad 0x31 0
    else match s.relayVia die stack with
    | some via => if s.homeRetired via then .bad 0x31 0 else .wait
    | none => .ok 0

/-- What is sent to a stack over a relay die asks for its transfer. -/
def State.stackAsk (s : State) (w : Waiter) (die stack n : Nat) : State :=
  match s.relayVia die stack with
  | some via =>
    if s.pairHeld die stack then s
    else s.addTransfer ⟨w, stackLine stack, via, die, flowNumber (die * 16) 0 0 stack, n, 0, none, none, false, none⟩
  | none => s

/-- Was a unit's access performed although it fails, because only its reply was lost (R313)? -/
def State.replyLost (s : State) (w : Waiter) (pa : Nat) : Bool :=
  match s.transfer? w (pa / 128) with
  | some t => t.reply && (t.done == some false || (t.done.isNone && s.transferCut t))
  | none => false

end Sys2Proof.Machine
end

