-- ==== Sys2Proof/Machine/Ops.lean ====
section
/-! DEFINITION. The shared operations of the machine: fault records, waking and parking threads, TAKING A FAULT (the one
operation by which a stopped thread enters its handler, its lot fails or halts, or the debugger gets it) and returning
from a handler (11_faults.md R279 to R288, R300 to R304). -/

namespace Sys2Proof.Machine

/-! ### Fault report queues (R282, R283) -/

/-- The 64 bytes of a record (R283). -/
def FRec.bytes (r : FRec) (ctx seqNo : Nat) : List Byte :=
  toBytes r.kind 1 ++ toBytes r.code 1 ++ toBytes r.flags 2 ++ toBytes ctx 2 ++ toBytes r.core 2
  ++ toBytes r.desc.toNat 10 ++ toBytes 0 2 ++ toBytes r.lot 4 ++ toBytes r.lotend 4
  ++ toBytes r.warp 1 ++ toBytes r.tag 1 ++ toBytes r.outcome 1 ++ toBytes r.detail 1
  ++ toBytes r.lanes.toNat 4 ++ toBytes 0 4 ++ toBytes r.pc.toNat 10 ++ toBytes 0 2
  ++ toBytes r.addr 10 ++ toBytes seqNo 2

/-- Bytes of a context's fault report queue (R281). -/
def State.frqSize (s : State) (ctx : Nat) : Nat := 4096 * 2 ^ min 8 (s.regF (ctxReg ctx 0x00) 4 1)

/-- Writes one record to a context's fault report queue, or drops and counts it (R282). -/
def State.putRec (s : State) (ctx : Nat) (r : FRec) : State :=
  let cs := s.ctxS ctx
  let size := s.frqSize ctx
  let tail := s.regF (ctxReg ctx 0x10) 31 0
  let head := s.regF (ctxReg ctx 0x08) 31 0
  if s.regF (ctxReg ctx 0x00) 0 0 = 0 ∨ (tail + 64) % size = head then
    (s.bumpReg (ctxReg ctx 0x18) 15 0 1).setCtxS ctx { cs with seq := cs.seq + 1, lost := true }
  else
    let flags := r.flags ||| (if cs.lost then 8 else 0)
    let base := s.regF (ctxReg ctx 0x00) 51 12 * 4096
    let s := s.setHomeBytes (base + tail % size) ({ r with flags := flags }.bytes ctx cs.seq.toNat)
    let s := s.setRegF (ctxReg ctx 0x10) 31 0 ((tail + 64) % size)
    let s := s.setCtxS ctx { cs with seq := cs.seq + 1, lost := false }
    if s.regF (ctxReg ctx 0x18) 16 16 = 1 then s.send (.msix (s.regF (ctxReg ctx 0x18) 31 24)) else s

/-- Where the next record of a context goes. -/
def State.recPlace (s : State) (ctx : Nat) : Nat :=
  s.regF (ctxReg ctx 0x00) 51 12 * 4096 + s.regF (ctxReg ctx 0x10) 31 0 % s.frqSize ctx

/-- May the next record of a context be written now? The bank of its queue may be busy, or the port of host memory may retrain (R275,
R316, R328). -/
def State.recOpen (s : State) (ctx : Nat) : Bool :=
  let pa := s.recPlace ctx
  s.regF (ctxReg ctx 0x00) 0 0 == 0 || ((region pa != 2 || s.hostPath pa != .waits) && s.bankOpen pa (.record ctx))

/-- The next record of a context is written, and its bank has served it. -/
def State.recordNow (s : State) (ctx : Nat) (r : FRec) : State := (s.putRec ctx r).bankServed (s.recPlace ctx) (.record ctx)

/-- Writes a record, or lets it wait behind the context's earlier records until its memory can take it (R281, R328). -/
def State.writeRec (s : State) (ctx : Nat) (r : FRec) : State :=
  if s.m.recs.all (fun x => x.1 != ctx) && s.recOpen ctx then s.recordNow ctx r
  else ({ s with m := { s.m with recs := s.m.recs ++ [(ctx, r)] } }).bankWait (s.recPlace ctx) (.record ctx)

/-- The record that has waited longest and may now be written is written. -/
def State.recordMove (s : State) : State :=
  match s.m.recs.find? (fun x => s.recOpen x.1) with
  | none => s
  | some x => State.recordNow { s with m := { s.m with recs := s.m.recs.erase x } } x.1 x.2

/-- An empty record of a lot on a core. -/
def lotRec (c : Nat) (l : Lot) (kind code : Nat) : FRec :=
  { kind := kind, code := code, flags := 0, core := c, desc := l.d.va, lot := l.index, lotend := l.index, warp := 0xFF,
    tag := 0, outcome := 0, detail := 0, lanes := 0, pc := 0, addr := 0 }

/-- WARP and LANES of a record (R283): the barker has WARP 0xFF and no lanes. -/
def recWarp (a : Agent) : Nat := if a.isBarker then 0xFF else a.w

def recLanes (as : List Agent) : Word := laneMask (as.filter (fun a => !a.isBarker))

/-! ### Debug registers of the last stop (R301) -/

/-- DBGSTAT, DBGPC and DBGPCH of the last stop; a barker has no WARP and no LANE, and the two fields then hold free values
(log entry 14). -/
def State.setDbgStop (s : State) (c b : Nat) (a : Agent) (event : Nat) (pc : VAddr) : State :=
  let (v, s) := if a.isBarker then s.freeVal else (a.w + 32 * a.l, s)
  let s := s.setRegF (dbgReg c 0x08) 9 2 event
  let s := s.setRegF (dbgReg c 0x08) 11 10 b
  let s := s.setRegF (dbgReg c 0x08) 16 12 v
  let s := s.setRegF (dbgReg c 0x08) 21 17 (v / 32)
  let s := s.setReg (dbgReg c 0x10) (BitVec.ofNat 64 (bits pc.toNat 63 0))
  s.setReg (dbgReg c 0x18) (BitVec.ofNat 64 (bits pc.toNat 79 64))

/-! ### Park, stop, debug -/

/-- The lot is being cancelled or is ending FAILED: its threads stop at run boundaries (R49, R288). -/
def Lot.ending (l : Lot) : Bool :=
  match l.phase with
  | .cancelling | .failing _ | .draining => true
  | _ => false

/-- A thread that holds no slot and has not left the lot is at a run boundary (R76). -/
def TState.atBoundary : TState → Bool
  | .ready | .parked _ => true
  | _ => false

/-- Stops every thread at a run boundary (R49); faults that it has noted are dropped, and reported elsewhere. -/
def Lot.stopAll (l : Lot) : Lot :=
  l.allAgents.foldl (fun l a =>
    let t := l.thr a
    if t.st.atBoundary then l.setThr a { t with st := .stopped, stop := none } else l) l

/-- A debug stop reaches one thread (R300, R479): READY parks DEBUG; a park for another reason keeps it and enters DEBUG
at its wake; a running thread parks DEBUG at its run boundary. -/
def Thread.debugStop (t : Thread) : Thread :=
  match t.st with
  | .ready => { t with st := .parked .debug, stepping := false }
  | .parked .debug => { t with going := false, stepping := false }
  | .parked _ => { t with dbgPend := true, stepping := false }
  | .issuing => { t with dbgPend := true }
  | _ => t

def Lot.debugStopAll (l : Lot) (p : Agent → Bool) : Lot :=
  l.allAgents.foldl (fun l a => if p a then l.setThr a (l.thr a).debugStop else l) l

/-- Threads of formed warps that wait for their turn hold no slot: they park DEBUG where they stand (R76). -/
def Lot.debugWaiting (l : Lot) (as : List Agent) : Lot :=
  as.foldl (fun l a => l.setThr a { l.thr a with st := .parked .debug, dbgPend := false, stepping := false }) l

/-- Agents of the formed warps of a lot that wait for their turn on a core. -/
def State.waitingWarps (s : State) (c : Nat) (l : Lot) : List Agent :=
  (l.gangs.flatMap (fun g => Tbl.get [] (s.core c).batches g)).flatten

/-- Every lot of a core gets a debug stop, the formed warps that wait for their turn with them, and the core's issue slots halt
(R300, mode CORE). -/
def State.debugStopCore (s : State) (c : Nat) : State :=
  let s := (List.range 4).foldl (fun s b => s.onLot c b (fun l =>
    (l.debugStopAll (fun _ => true)).debugWaiting (s.waitingWarps c l))) s
  s.setCore c { s.core c with halted := true, batches := [] }

/-- FACT of a context (R281). -/
def State.fact (s : State) (ctx hi lo : Nat) : Nat := s.regF (ctxReg ctx 0x20) hi lo

/-- The action group of a fault code (R279). -/
def faultGroup (code : Nat) : Nat :=
  if code < 0x10 then 0 else if code < 0x13 then 1 else if code = 0x13 then 2 else if code < 0x30 then 3
  else if code < 0x40 then 4 else if code < 0x50 then 5 else if code < 0x60 then 6 else 7

/-- A thread that is parked DEBUG has had its debug event: a breakpoint or step that it had still to take is this stop. -/
def Thread.tookDebug (t : Thread) : Thread :=
  match t.st, t.stop with
  | .parked .debug, some x => if faultGroup x.code = 6 then { t with stop := Option.none } else t
  | _, _ => t

/-- Where a debugger is attached, a debug stop that reached a thread is the one stop of its own event (R280, R300, R302). -/
def State.tookDebugStops (s : State) (c b : Nat) (as : List Agent) : State :=
  s.onLot c b (fun l => if s.fact l.ctx 16 16 = 1 then as.foldl (fun l a => l.setThr a (l.thr a).tookDebug) l else l)

def State.tookAll (s : State) (c b : Nat) : State :=
  match s.lot? c b with
  | some l => s.tookDebugStops c b l.allAgents
  | none => s

/-- A debug stop at a thread, spread as FACT.DSM states (R300). DBGSTAT and DBGPC name the thread whose event is taken last (R348;
log entry 122). -/
def State.debugStop (s : State) (c b : Nat) (a : Agent) (event dsm : Nat) : State :=
  match s.lot? c b with
  | none => s
  | some l =>
    let s := s.setDbgStop c b a event (l.thr a).pc
    match dsm with
    | 0 => s.setLot c b (l.setThr a (l.thr a).debugStop)
    | 1 => (s.setLot c b (l.debugStopAll (fun x => x.w == a.w))).tookAll c b
    | 2 => (s.setLot c b (l.debugStopAll (fun _ => true))).tookAll c b
    | _ => (List.range 4).foldl (fun s b => s.tookAll c b) (s.debugStopCore c)

/-! ### Taking a fault -/

/-- The action that a context selects for a group (R280). -/
def State.factAction (s : State) (ctx g : Nat) : Nat := s.fact ctx (2 * g + 1) (2 * g)

/-- Handler address of a context, 80 bits (R281). -/
def State.handlerVA (s : State) (ctx : Nat) : VAddr :=
  BitVec.ofNat 80 ((s.reg (ctxReg ctx 0x28)).toNat + s.regF (ctxReg ctx 0x30) 15 0 * 2 ^ 64)

/-- Wrap(pc − ENTRY, 64): the offset of a header from ENTRY (R132, R287). -/
def Lot.offsetOf (l : Lot) (pc : VAddr) : Word64 := (pc - l.d.entry).setWidth 64

/-- The fault word of step 3 of R287. -/
def Stop.word (x : Stop) : Word :=
  BitVec.ofNat 32 (x.code % 256 + x.detail % 256 * 2 ^ 8 + x.tag % 64 * 2 ^ 16 + x.replay.toNat * 2 ^ 22)

/-- Enters the handler: shadow, v0 to v3 (s0 to s3), resume header, and on at FHVA (R287). The thread stands at the
header where it stopped, and is READY from now on. -/
def Lot.enterHandler (l : Lot) (a : Agent) (x : Stop) (fhva : VAddr) (seqNo : Nat) : Lot :=
  let t := l.thr a
  let off := l.offsetOf t.pc
  if a.isBarker then
    let sh : Shadow := ⟨[l.sreg 0, l.sreg 1, l.sreg 2, l.sreg 3], t.preds, t.pc⟩
    let l := l.setThr a { t with
      shadow := some sh, pc := fhva, stop := none, nested := false, stepping := false, st := .ready, seq := seqNo, aged := false,
      mid := 0, via := none }
    (((l.setSreg 0 off).setSreg 1 0).setSreg 2 (x.word.setWidth 64)).setSreg 3 (BitVec.ofNat 64 x.addr)
  else
    let rd (r : Nat) : Word64 := (l.vreg a.w r a.l).setWidth 64
    let sh : Shadow := ⟨[rd 0, rd 1, rd 2, rd 3], t.preds, t.pc⟩
    let l := l.setThr a { t with
      shadow := some sh, pc := fhva, stop := none, nested := false, stepping := false, st := .ready, seq := seqNo, aged := false,
      mid := 0, via := none }
    (((l.setVreg a.w 0 a.l (off.setWidth 32)).setVreg a.w 1 a.l ((off >>> 32).setWidth 32)).setVreg a.w 2 a.l
      x.word).setVreg a.w 3 a.l (BitVec.ofNat 32 x.addr)

/-- The FAULT record of a stop (R283, R288). -/
def stopRec (c : Nat) (l : Lot) (a : Agent) (lanes : Word) (x : Stop) (kind flags : Nat) : FRec :=
  { lotRec c l kind x.code with
    flags := flags ||| (if x.replay then 2 else 0), warp := recWarp a, tag := x.tag, detail := x.detail, lanes := lanes,
    pc := x.hdr, addr := x.addr }

/-- Child requests and block requests of a lot are withdrawn when its threads stop. -/
def State.withdraw (s : State) (c b : Nat) : State :=
  let s := { s with w := { s.w with childReqs := s.w.childReqs.filter (fun r => !(r.t.core == c && r.t.bctx == b)) } }
  let k := s.core c
  s.setCore c { k with blockQ := k.blockQ.filter (fun r => r.bctx != b) }

/-- A lot of a launch that is being halted and dumped (R303). -/
def State.haltingLot (s : State) (launch : Nat) : Option (Nat × Nat × Lot) :=
  s.lotList.find? (fun e => e.2.2.launch == launch && e.2.2.phase == .halted)

/-- Counts a further fault of a launch that is being halted in NFAULT of its dump (R304). -/
def State.countHalted (s : State) (launch : Nat) : State :=
  match s.haltingLot launch with
  | some (c, b, _) => s.onLot c b (fun h => { h with nfault := h.nfault + 1 })
  | none => s

/-- Faults of agents that have been noted and not taken, and that the end of their lot or a halt of their launch overtakes: each
is reported as a REQUEST record, and in a halted launch counted; it starts nothing more (R288, R304). -/
def State.reportStops (s : State) (c b : Nat) (as : List Agent) : State :=
  match s.lot? c b with
  | none => s
  | some l =>
    let halting := (s.haltingLot l.launch).isSome
    let drain := match l.phase with
      | .failing _ | .draining | .halted => 16
      | _ => 0
    as.foldl (fun s a =>
      match (l.thr a).stop with
      | none => s
      | some x =>
        let s := s.onLot c b (fun l => l.setThr a { l.thr a with stop := none })
        if l.phase == .cancelling then s
        else if l.ending then s.writeRec l.ctx (stopRec c l a (recLanes [a]) { x with replay := false } 4 drain)
        else if halting then (s.writeRec l.ctx (stopRec c l a (recLanes [a]) x 4 drain)).countHalted l.launch
        else s.onLot c b (fun l' => l'.setThr a { l'.thr a with stop := some x })) s

/-- The lot begins to end FAILED (R288, step 2); its record has been written, and covers the faults of `covered`. -/
def State.failLot (s : State) (c b code : Nat) (covered : List Agent) : State :=
  let s := s.onLot c b (fun l => { l with phase := .failing code })
  let rest := match s.lot? c b with
    | some l => l.allAgents.filter (fun a => !covered.contains a && (l.thr a).st.atBoundary)
    | none => []
  ((s.reportStops c b rest).onLot c b (fun l => l.stopAll)).withdraw c b

/-- The HALT action: every lot of the launch stops at run boundaries with its threads parked DEBUG, placement stops, the
faulting lot's range locks are captured and its dump is due (R303). Faults noted before are reported and counted (R304). -/
def State.haltLaunch (s : State) (c b : Nat) (a : Agent) (launch : Nat) (r : FRec) (seqNo : Nat) (covered : List Agent) : State :=
  let s := match s.launch? launch with
    | some x => s.setLaunch { x with halted := true }
    | none => s
  let s := match s.lot? c b with
    | some l => s.setDbgStop c b a 0 (l.thr a).pc
    | none => s
  let s := s.lotList.foldl (fun s e =>
    if e.2.2.launch == launch then s.onLot e.1 e.2.1 (fun l => l.debugStopAll (fun _ => true)) else s) s
  let locks := (s.core c).locks.filter (fun k => k.bctx == b)
  let s := s.onLot c b (fun l => { l with phase := .halted, firstFault := some r, firstSeq := seqNo, nfault := 0, captured := locks })
  s.lotList.foldl (fun s e =>
    if e.2.2.launch == launch then
      s.reportStops e.1 e.2.1 (e.2.2.allAgents.filter (fun z =>
        (e.2.2.thr z).st.atBoundary && !(e.1 == c && e.2.1 == b && covered.contains z)))
    else s) s

/-- TAKING A FAULT: a thread that stands at a run boundary, its PC at the header where it stops, takes the action of its
fault's group (R279, R280, R287, R288, R302, R303). `mates` are the agents that stop with it for the same fault. -/
def State.takeFault (s : State) (c b : Nat) (a : Agent) (mates : List Agent) (x : Stop) : State :=
  match s.lot? c b with
  | none => s
  | some l =>
    let ctx := l.ctx
    let g := faultGroup x.code
    let lanes := recLanes mates
    let dbgen := s.fact ctx 16 16 = 1
    match l.phase with
    | .cancelling => s.setLot c b (l.setThr a { l.thr a with st := .stopped, stop := none })
    | .failing _ | .draining =>
      (s.setLot c b (l.setThr a { l.thr a with st := .stopped, stop := none })).writeRec ctx
        (stopRec c l a lanes { x with replay := false } 4 16)
    | _ =>
      if g = 6 && dbgen then s.debugStop c b a x.code (if x.code = 0x51 then 0 else s.fact ctx 18 17)
      else if (s.haltingLot l.launch).isSome then
        let s := s.onLot c b (fun l => l.setThr a { l.thr a with st := .parked .debug, stop := none, nested := false })
        (s.countHalted l.launch).writeRec ctx (stopRec c l a lanes x 4 (if l.phase == .halted then 16 else 0))
      else if ((l.thr a).shadow.isSome || (l.thr a).nested) && g != 6 then
        (s.writeRec ctx (stopRec c l a lanes x 1 4)).failLot c b x.code mates
      else
        let act := s.factAction ctx g
        if act = 0 && g != 5 && s.handlerVA ctx != 0 then
          let (n, s) := s.fresh
          s.setLot c b (l.enterHandler a x (s.handlerVA ctx) n)
        else if act = 2 then
          let cs := s.ctxS ctx
          let r := stopRec c l a lanes x 1 0
          (s.writeRec ctx r).haltLaunch c b a l.launch (stopRec c l a lanes x 1 (if cs.lost then 8 else 0)) cs.seq.toNat mates
        else (s.writeRec ctx (stopRec c l a lanes x 1 0)).failLot c b x.code mates

/-- Parks of reason WAIT (R67). -/
def Park.waits (p : Park) : Bool :=
  match p with
  | .clauseStart _ | .waitc _ => true
  | _ => false

/-- Does a thread stand at a header where it takes a stop: READY, or in a WAIT that cannot end before, since it is for an access of
the thread itself that failed its check and whose count stays raised (R285; log entry 114)? -/
def State.standsAt (s : State) (c b : Nat) (l : Lot) (a : Agent) : Bool :=
  (l.thr a).mid == 0 && match (l.thr a).st with
  | .ready => true
  | .parked p => p.waits && s.accs.any (fun x => x.t == ⟨c, b, a.w, a.l⟩ && x.phase.isReplay)
  | _ => false

/-- A thread comes out of its park to take a stop; a WAITC is waited for again afterwards (R87; log entry 114). -/
def Thread.toStop (t : Thread) : Thread :=
  { t with
    stop := Option.none, st := .ready,
    waitAfter := match t.st with
      | .parked (.waitc thr) => some thr
      | _ => t.waitAfter }

/-- Agents of a list that stop with `a` for the same fault at the same clause, of one home warp: `a` itself and those
that stand at a header as it does. -/
def State.stopMates (s : State) (c b : Nat) (l : Lot) (as : List Agent) (a : Agent) (x : Stop) : List Agent :=
  as.filter (fun z => z.w == a.w && (z == a || s.standsAt c b l z) && match (l.thr z).stop with
    | some y => y.code == x.code && y.hdr == x.hdr
    | none => false)

/-- Threads of a list that stand at a header with a pending stop take it, in ascending order; threads whose lot fails or halts,
or whose launch is halted, by an earlier thread's like fault are covered by that thread's record (R285, R286, R288, R304). -/
def State.takeStops (s : State) (c b : Nat) (as : List Agent) : State :=
  as.foldl (fun s a =>
    match s.lot? c b with
    | none => s
    | some l =>
      match s.standsAt c b l a, (l.thr a).stop with
      | true, some x =>
        let mates := s.stopMates c b l as a x
        let halting := (s.haltingLot l.launch).isSome && !(faultGroup x.code = 6 && s.fact l.ctx 16 16 = 1)
        let s := s.setLot c b (l.setThr a (l.thr a).toStop)
        let s := s.takeFault c b a mates x
        let debug (l' : Lot) : Lot := mates.foldl (fun l' m => l'.setThr m { (l'.thr m).toStop with st := .parked .debug }) l'
        s.onLot c b (fun l' =>
          match l'.phase with
          | .failing _ => mates.foldl (fun l' m => l'.setThr m { l'.thr m with stop := none, st := .stopped }) l'
          | .halted => debug l'
          | _ => if halting then debug l' else l')
      | _, _ => s) s

/-! ### Waking -/

/-- Does the test of WAITC hold for a warp (R87, R447)? -/
def Warp.meets (x : Warp) (thr : BitVec 32) : Bool :=
  let t (i : Nat) := bits thr.toNat (8 * i + 7) (8 * i)
  let ok (count limit : Nat) := limit == 255 || count ≤ limit
  ok x.ld (t 0) && ok x.st (t 1) && ok x.cp (t 2) && ok x.tl (t 3)

/-- A thread that leaves a park or a run: READY at its PC with age zero, unless its lot is ending (it stops) or a debug
stop reached it (it parks DEBUG) (R49, R68, R75, R479). A thread that has an EXIT to finish or a WAITC to wait for goes back into
it, once no fault is due to it (R285, log entries 24 and 114). -/
def Lot.toReady (l : Lot) (a : Agent) (seqNo : Nat) : Lot :=
  let t := l.thr a
  if l.ending then l.setThr a { t with st := .stopped, stop := none }
  else if t.dbgPend then l.setThr a { t with st := .parked .debug, dbgPend := false }
  else if t.stop.isNone && t.shadow.isNone && t.exitAfter.isSome then
    l.setThr a { t with st := .exiting (t.exitAfter.getD .lot), exitAfter := none, resume := [], going := false }
  else
    let t := { t with st := .ready, seq := seqNo, aged := false, resume := [], going := false }
    match t.stop, t.shadow, t.waitAfter with
    | none, none, some thr =>
      l.setThr a { t with st := if (l.warp a.w).meets thr then .ready else .parked (.waitc thr), waitAfter := none }
    | _, _, _ => l.setThr a t

/-- Threads that become READY in one step, of one age; a stop that fell due while a thread was parked is taken at the
header where it becomes READY (R286), unless the end of its lot or a halt overtakes it. -/
def State.wakeAll (s : State) (c b : Nat) (as : List Agent) : State :=
  let (n, s) := s.fresh
  let ended := match s.lot? c b with
    | some l => as.filter (fun a => l.ending || (l.thr a).dbgPend)
    | none => []
  let s := (s.reportStops c b ended).onLot c b (fun l => as.foldl (fun l a => l.toReady a n) l)
  (s.tookDebugStops c b as).takeStops c b as

/-- Wakes one thread. -/
def State.wake (s : State) (c b : Nat) (a : Agent) : State := s.wakeAll c b [a]

/-- Parks a thread at a PC; a stepped thread that parks inside its clause enters DEBUG at its wake, one that the clause-start check
parks has its clause still to execute (R302). At a header that it did not come to by
a branch, no branch led there; a clause-start WAIT and a full decision queue leave it where it is (R119). -/
def Lot.park (l : Lot) (a : Agent) (p : Park) (pc : VAddr) : Lot :=
  let t := l.thr a
  let (via, steps) : Option VAddr × Bool := match p with
    | .clauseStart _ => (t.via, t.stepping)
    | .dqfull _ => (t.via, false)
    | _ => (none, false)
  l.setThr a { t with
    st := .parked p, pc := pc, via := via, target := none, dbgPend := t.dbgPend || (t.stepping && !steps), stepping := steps }

/-- Records a fault of an access for its thread's next header; the oldest is reported (R285), and a later one of an access without
REPLAY, of a BKPT or of a TRAP is lost (log entry 22). -/
def Lot.noteStop (l : Lot) (a : Agent) (x : Stop) : Lot :=
  let t := l.thr a
  match t.stop, t.st with
  | none, .ready | none, .issuing | none, .parked _ => l.setThr a { t with stop := some x }
  | _, _ => l

/-- A thread that waits in its EXIT comes out of it for a fault, and waits again when its handler returns (log entry 24). -/
def Lot.unexit (l : Lot) (a : Agent) (seqNo : Nat) : Lot :=
  let t := l.thr a
  match t.st with
  | .exiting sc => l.setThr a { t with st := .ready, seq := seqNo, aged := false, exitAfter := some sc }
  | _ => l

/-- In a launch that is halted such a thread parks DEBUG (R303). -/
def Lot.unexitDebug (l : Lot) (a : Agent) : Lot :=
  let t := l.thr a
  match t.st with
  | .exiting sc => l.setThr a { t with st := .parked .debug, exitAfter := some sc }
  | _ => l

/-- Records a fault of a thread. -/
def State.noteOnly (s : State) (c b : Nat) (a : Agent) (x : Stop) : State :=
  let (n, s) := s.fresh
  s.onLot c b (fun l => (l.unexit a n).noteStop a x)

/-- Records a fault and, if the thread already stands READY at a header, takes it there. -/
def State.noteStop (s : State) (c b : Nat) (a : Agent) (x : Stop) : State :=
  (s.noteOnly c b a x).takeStops c b [a]

/-! ### Return from a handler (R287) -/

/-- A fault, other than a debug event, that a thread has noted in its handler stays a nested one (R287). -/
def Thread.nests (t : Thread) : Bool :=
  match t.stop with
  | some x => faultGroup x.code != 6
  | Option.none => false

/-- The registers and predicates come back from the shadow, IN_HANDLER is cleared, and the thread continues at the
recorded resume header. -/
def Lot.leaveHandler (l : Lot) (a : Agent) : Lot :=
  let t := l.thr a
  match t.shadow with
  | none => l
  | some sh =>
    let g (i : Nat) : Word64 := sh.regs.getD i 0
    let l := l.setThr a { t with shadow := none, preds := sh.preds, target := some sh.resume, nested := t.nests }
    if a.isBarker then (((l.setSreg 0 (g 0)).setSreg 1 (g 1)).setSreg 2 (g 2)).setSreg 3 (g 3)
    else (((l.setVreg a.w 0 a.l ((g 0).setWidth 32)).setVreg a.w 1 a.l ((g 1).setWidth 32)).setVreg a.w 2 a.l
      ((g 2).setWidth 32)).setVreg a.w 3 a.l ((g 3).setWidth 32)

/-- The thread's REPLAY accesses are issued again from their logged operands: they are checked anew (R287). -/
def State.replayAccs (s : State) (c b : Nat) (a : Agent) : State :=
  { s with accs := s.accs.map (fun x =>
      if x.t.core == c && x.t.bctx == b && laneAgent x.t == a then
        match x.phase with
        | .replay _ => { x with phase := .walk }
        | _ => x
      else x) }

/-- RETURN FROM A HANDLER by a `RET` to the recorded resume header (R287). -/
def State.returnFromHandler (s : State) (c b : Nat) (a : Agent) : State :=
  (s.onLot c b (fun l => l.leaveHandler a)).replayAccs c b a

/-! ### Monitors (R84) -/

/-- Every armed monitor that watches the 128-byte line of a physical address notes a write performed; `die` limits the
watchers of a global line to one die when the write is performed in that die's domain only. -/
def State.markMonitors (s : State) (line : Nat) (watch : Nat → Bool) : State :=
  { s with lots := s.lots.map (fun e => (e.1, e.2.map (fun l =>
      if watch (e.1 / 4) then
        { l with threads := l.threads.map (fun te => (te.1, match te.2.mon with
            | some m => if !m.scratch && m.line == line && !m.lost then
                { te.2 with mon := some { m with pending := true } } else te.2
            | none => te.2)) }
      else l))) }

/-- A write to a line of a lot's scratchpad (R84): the core reports it. -/
def Lot.markScratch (l : Lot) (off : Nat) : Lot :=
  { l with threads := l.threads.map (fun te => (te.1, match te.2.mon with
      | some m => if m.scratch && m.line == off / 128 && !m.lost then { te.2 with mon := some { m with pending := true } } else te.2
      | none => te.2)) }

/-- The place of a table of a price-board set in one stack (R261). -/
def boardPlace (n table stack : Nat) : Nat := (n * 64 + table) * 32 + stack

end Sys2Proof.Machine
end

