-- ==== Sys2Proof/Machine/Operands.lean ====
section
/-! DEFINITION. Every operand form, the register faults of R123, and the one frame in which an instruction of a clause
runs: which agents are active, which stop at the instruction, which take part (05_encoding.md R122 to R127,
14_ref_a_c.md R336). -/

namespace Sys2Proof.Machine

/-- The outcome of an instruction or event. -/
abbrev Out := Host.Outcome State Fault Refusal

/-! ### Values -/

/-- n consecutive registers of an agent's column, the first lowest (R92). -/
def Lot.regs (l : Lot) (a : Agent) (r : Nat) : Nat → Nat
  | 0 => 0
  | n + 1 => (l.vreg a.w r a.l).toNat + 2 ^ 32 * Lot.regs l a (r + 1) n

/-- Writes n consecutive registers of an agent's column. -/
def Lot.setRegs (l : Lot) (a : Agent) (r v : Nat) : Nat → Lot
  | 0 => l
  | n + 1 => Lot.setRegs (l.setVreg a.w r a.l (BitVec.ofNat 32 v)) a (r + 1) (v / 2 ^ 32) n

/-- Registers that a value of a width occupies in a thread clause (R92). -/
def regsOf (width : Nat) : Nat := if width = 128 then 4 else if width = 64 then 2 else 1

/-- An operand of a width: the low bits of its registers, or of the scalar in a barker clause, where a 128-bit value
takes a scalar pair (R92, R371, R381, R395). -/
def Lot.val (l : Lot) (a : Agent) (r : BitVec 7) (width : Nat) : Nat :=
  if a.isBarker then
    if width = 128 then (l.sreg r.toNat).toNat + 2 ^ 64 * (l.sreg (r.toNat + 1)).toNat
    else wrapN (l.sreg r.toNat).toNat width
  else wrapN (l.regs a r.toNat (regsOf width)) width

/-- Writes a result of a width. A narrow result is zero-extended, or sign-extended for the types that say so, to the
register or to the 64-bit scalar (R362, R381, R394, R395). -/
def Lot.setVal (l : Lot) (a : Agent) (r : BitVec 7) (width : Nat) (signed : Bool) (v : Nat) : Lot :=
  if a.isBarker then
    if width = 128 then (l.setSreg r.toNat (BitVec.ofNat 64 v)).setSreg (r.toNat + 1) (BitVec.ofNat 64 (v / 2 ^ 64))
    else l.setSreg r.toNat (BitVec.ofNat 64 (if signed then sextN v width 64 else wrapN v width))
  else if width < 32 then l.setRegs a r.toNat (if signed then sextN v width 32 else wrapN v width) 1
  else l.setRegs a r.toNat v (regsOf width)

end Sys2Proof.Machine
namespace Sys2Proof

/-- The immediate of an M form (R127): sign-extended for a signed 64-bit type, zero-extended for another. -/
def immVal (ty : Ty) (w : Word) : Nat :=
  if ty.bits = 64 then (if ty.signed then sextN w.toNat 32 64 else w.toNat) else wrapN w.toNat ty.bits

/-- The type of a format-A instruction: the default in a short form (R127). -/
def FmtA.ty (f : FmtA) (dflt : Ty) : Ty :=
  match f.m with
  | some m => m.ty
  | none => dflt

/-- The rounding field, RN in a short form. -/
def FmtA.rnd (f : FmtA) : Nat :=
  match f.m with
  | some m => m.rnd.toNat
  | none => 0

/-- The register of the C field. -/
def FmtA.cReg (f : FmtA) : BitVec 7 :=
  match f.m with
  | some m => m.c
  | none => 0

def FmtA.immOf (f : FmtA) : Option Word := f.m.bind (fun m => m.imm)

end Sys2Proof
namespace Sys2Proof.Machine

/-- Operand b at a type: the immediate, or the register (R127). -/
def Lot.bVal (l : Lot) (a : Agent) (f : FmtA) (ty : Ty) : Nat :=
  match f.immOf with
  | some w => immVal ty w
  | none => l.val a f.b ty.bits

/-! ### Register uses (R123) -/

/-- A register operand: its first register, how many vector registers it takes in a thread clause, and how many
scalars in a barker clause. -/
structure Use where
  r : BitVec 7
  n : Nat
  s : Nat
deriving DecidableEq, Repr

/-- One register; one scalar. -/
def use1 (r : BitVec 7) : Use := ⟨r, 1, 1⟩
/-- A pair; one scalar (R336). -/
def use2 (r : BitVec 7) : Use := ⟨r, 2, 1⟩
/-- A quad; a scalar pair. -/
def use4 (r : BitVec 7) : Use := ⟨r, 4, 2⟩

/-- The use of a register by a value of a width. -/
def useW (r : BitVec 7) (width : Nat) : Use := if width = 128 then use4 r else if width = 64 then use2 r else use1 r

/-- The fault of a register operand of an agent, if any (R123). -/
def Lot.useFault (l : Lot) (a : Agent) (u : Use) : Option Nat :=
  if a.isBarker then
    if 63 < u.r.toNat + (u.s - 1) || u.r.toNat % u.s != 0 then some 0x01 else none
  else if u.r.toNat % u.n != 0 then some 0x01
  else if 16 * (l.warp a.w).blocks < u.r.toNat + u.n then some 0x20
  else none

/-- The fault of an instruction of an agent: the barker or thread form that does not exist (R79), then the operands
that are misplaced, then those beyond the warp's blocks (R123). -/
def Lot.instrFault (l : Lot) (a : Agent) (th bk : Bool) (uses : List Use) : Option Nat :=
  if !(if a.isBarker then bk else th) then some 0x01
  else
    let fs := uses.filterMap (fun u => l.useFault a u)
    if fs.contains 0x01 then some 0x01 else fs.head?

/-! ### Leaving the formed warp -/

/-- Does the start condition of a clause hold for a warp's counters and log (R86, R284)? -/
def Warp.admits (x : Warp) (n : ClauseNeeds) (logsFree : Nat) : Bool :=
  let lim (i : Nat) := bits n.hdr.toNat (21 - 3 * i) (19 - 3 * i)
  let ok (count limit add : Nat) := (limit == 7 || count ≤ limit) && count + add ≤ 255
  ok x.ld (lim 0) n.ld && ok x.st (lim 1) n.st && ok x.cp (lim 2) n.cp && ok x.tl (lim 3) n.tl && n.logs ≤ logsFree

/-- Operand-log entries that a warp holds: one for each instruction with an access that has not passed the core's
checks (R284). -/
def State.logsUsed (s : State) (c b w : Nat) : Nat :=
  ((s.accs.filter (fun a => a.t.core == c && a.t.bctx == b && a.t.w == w && match a.phase with
      | .walk => a.kind != .cpref && a.kind != .lotdone
      | .replay _ => true
      | _ => false)).map (fun a => a.op)).eraseDups.length

/-- Entries that a barker keeps reserved for a clause that it has still to finish after a full decision queue (R365). -/
def Thread.keeps (t : Thread) : Nat :=
  match t.st with
  | .ready | .issuing | .parked _ => if t.mid = 0 then 0 else t.kept
  | _ => 0

/-- Waiting-table entries in use on a core: one for each line of each instruction outstanding, and those that clauses have
reserved and not used (R86, R89). -/
def State.entriesUsed (s : State) (c : Nat) : Nat :=
  ((s.accs.filter (fun a => a.t.core == c)).map (fun a => (a.op, a.va / 128))).eraseDups.length
  + (s.running.filterMap (fun e => e.2)).foldl (fun n i => if i.core == c then n + i.reserved else n) 0
  + (List.range 4).foldl (fun n b => match s.lot? c b with
      | some l => n + (l.thr Agent.barker).keeps
      | none => n) 0

/-- Does an access still await its re-issue's end: is it neither gone nor, after a new failure, kept for another one (R287)? -/
def State.reissued (s : State) (id : Nat) : Bool := s.accs.any (fun x => x.id == id && !x.phase.isReplay)

/-- Parks of reason WAIT whose check holds wake (R67, R86, R87). A thread in DEBUG that was resumed goes on when its re-issued
accesses have ended (R303, R484). They wake together, so that one record covers those that fail alike. -/
def State.recheckLot (s : State) (c b : Nat) : State :=
  match s.lot? c b with
  | none => s
  | some l =>
    let go (a : Agent) : Bool :=
      match (l.thr a).st with
      | .parked (.clauseStart n) => (l.warp a.w).admits n (8 - s.logsUsed c b a.w) && s.entriesUsed c + n.entries ≤ 3072
      | .parked (.waitc thr) => (l.warp a.w).meets thr
      | .parked .debug => (l.thr a).going && (l.thr a).resume.all (fun i => !s.reissued i)
      | _ => false
    match l.allAgents.filter go with
    | [] => s
    | a :: as => s.wakeAll c b (a :: as)

def State.recheck (s : State) (c : Nat) : State := (List.range 4).foldl (fun s b => s.recheckLot c b) s

/-- Agents leave the running formed warp; the run ends when none is left (R73). -/
def State.leave (s : State) (as : List Agent) : State :=
  match s.issuer? s.active with
  | none => s
  | some i =>
    let rest := i.agents.filter (fun a => !as.contains a)
    if rest.isEmpty then (s.setIssuer s.active none).recheck i.core
    else s.setIssuer s.active (some { i with agents := rest })

/-- Stops agents of the running formed warp at the instruction: they stand at the clause's header, and the rest go on
(R125; the header as the place of the stop is log entry 15). An earlier fault of an access comes first (R285). -/
def State.raiseD (s : State) (as : List Agent) (code detail addr : Nat) : State :=
  match s.issuer? s.active with
  | none => s
  | some i =>
    let (n, s) := s.fresh
    let stop (l : Lot) (a : Agent) : Lot :=
      let t := l.thr a
      l.setThr a { t with
        st := .ready, seq := n, aged := false, pc := i.hdr, target := none, mid := 0, stop := some (t.stop.getD ⟨code, detail, 0, addr, false, i.hdr⟩) }
    let s := s.onLot i.core i.bctx (fun l => as.foldl stop l)
    (s.leave as).takeStops i.core i.bctx as

/-- A stop without DETAIL. -/
def State.raise (s : State) (as : List Agent) (code addr : Nat) : State := s.raiseD as code 0 addr

/-- Agents with their faults, by code. -/
def State.raiseAll (s : State) (bad : List (Agent × Nat)) : State :=
  let sel (c : Nat) := (bad.filter (fun e => e.2 == c)).map (fun e => e.1)
  let go (s : State) (c : Nat) := if (sel c).isEmpty then s else s.raise (sel c) c 0
  go (go (go s 0x01) 0x20) 0x21

/-- Parks agents of the running formed warp at the header that follows; in a lot that is ending they stop (R49, R68). -/
def State.parkAll (s : State) (as : List (Agent × Park)) : State :=
  match s.issuer? s.active with
  | none => s
  | some i =>
    let s := if ((s.lot? i.core i.bctx).map (fun l => l.ending)).getD false then s.reportStops i.core i.bctx (as.map (fun e => e.1)) else s
    let s := s.onLot i.core i.bctx (fun l => as.foldl (fun l e =>
      if l.ending then l.setThr e.1 { l.thr e.1 with st := .stopped, stop := none, target := none }
      else l.park e.1 e.2 i.next) l)
    (s.leave (as.map (fun e => e.1))).takeStops i.core i.bctx (as.map (fun e => e.1))

/-! ### The frame of an instruction -/

/-- What an instruction of a clause sees: the issuer, its lot, and the participants, the active agents whose guard is
true (R336). -/
structure View where
  i : Issuer
  l : Lot
  parts : List Agent
deriving DecidableEq, Repr

def State.view (s : State) (p : BitVec 3) : Option View :=
  match s.issuer? s.active with
  | none => none
  | some i =>
    match s.lot? i.core i.bctx with
    | none => none
    | some l => some ⟨i, l, i.agents.filter (fun a => l.pred a p.toNat)⟩

/-- Runs an instruction: `th` and `bk` say whether it has a thread and a barker form, `uses` are the registers it
reads and writes. Agents whose form or registers are faulty stop at it before it has any effect; `f` acts for the
rest (R123, R336). -/
def State.instr (s : State) (th bk : Bool) (uses : List Use) (p : BitVec 3) (f : View → State → State) : Out :=
  match s.view p with
  | none => .fault .noIssuer
  | some v =>
    let bad := v.i.agents.filterMap (fun a => (v.l.instrFault a th bk uses).map (fun c => (a, c)))
    if bad.isEmpty then .next (f v s)
    else
      let s := s.raiseAll bad
      match s.view p with
      | none => .next s
      | some v' => if v'.i.core == v.i.core && v'.i.bctx == v.i.bctx then .next (f v' s) else .next s

/-- An instruction that acts on each participant's own state in turn, in ascending home-lane order. -/
def State.each (s : State) (bk : Bool) (uses : List Use) (p : BitVec 3) (f : Lot → Agent → Lot) : Out :=
  s.instr true bk uses p (fun v s => s.setLot v.i.core v.i.bctx (v.parts.foldl f v.l))

/-- An instruction that acts once for each home warp with participants, on the warp's participants (R83). -/
def State.eachWarp (s : State) (uses : List Use) (p : BitVec 3) (f : Lot → Nat → List Agent → Lot) : Out :=
  s.instr true false uses p (fun v s =>
    let ws := (v.parts.map (fun a => a.w)).eraseDups
    s.setLot v.i.core v.i.bctx (ws.foldl (fun l w => f l w (v.parts.filter (fun a => a.w == w))) v.l))

/-- The uses of a format-A instruction whose D, A and B share a type. -/
def usesA (f : FmtA) (ty : Ty) (readsB readsC : Bool) : List Use :=
  [useW f.d ty.bits, useW f.a ty.bits] ++ (if readsB && f.immOf.isNone then [useW f.b ty.bits] else [])
  ++ (if readsC then [useW f.cReg ty.bits] else [])

end Sys2Proof.Machine
end

