-- ==== Sys2Proof/Machine/Translate.lean ====
section
/-! DEFINITION. The lines that a die holds, the reads of homes, the page-table walk, the TLBs and the checks after a walk
(06_memory.md R151, R158 to R162, R167 to R173). -/

namespace Sys2Proof.Machine

/-! ### What a die holds of a line (R158 to R162) -/

def State.dieLine? (s : State) (die line : Nat) : Option DieLine := Tbl.get none s.m.caches (cacheKey die line)

/-- Eight bits for each bit of a byte mask. -/
def byteMask (mask : Nat) : Nat := (List.range 128).foldl (fun r i => if bit mask i then r + 255 * 256 ^ i else r) 0

/-- The bytes of `base` with those under a mask taken from `data`. -/
def overlay (base data mask : Nat) : Nat :=
  let m := byteMask mask
  andNot base m ||| (data &&& m)

/-- The copies that hold data: a cluster cache has only a tag for a streaming line (R162). -/
def DieLine.dataCopies (d : DieLine) : List Copy :=
  if d.strm then d.copies.filter (fun x => match x.holder with
    | .l1 _ => true
    | .clu _ => false)
  else d.copies

/-- The newest bytes of a line in the coherent view of its die, and which of them are dirty: a cluster cache's dirty bytes
over the clean ones, an L1's over both (R159, R160). -/
def DieLine.current (d : DieLine) : Nat × Nat :=
  let xs := d.dataCopies
  let base := match xs with
    | [] => 0
    | x :: _ => x.data.toNat
  let add (v : Nat × Nat) (x : Copy) : Nat × Nat := (overlay v.1 x.data.toNat x.dirty.toNat, v.2 ||| x.dirty.toNat)
  let clus := xs.filter (fun x => match x.holder with
    | .clu _ => true
    | .l1 _ => false)
  let l1s := xs.filter (fun x => match x.holder with
    | .clu _ => false
    | .l1 _ => true)
  l1s.foldl add (clus.foldl add (base, 0))

/-- n bytes of a line in the coherent view of a die: its newest copy, else the home. -/
def State.dieNat (s : State) (die pa n : Nat) : Nat :=
  match s.dieLine? die (pa / 128) with
  | some d => if d.dataCopies.isEmpty then ofBytes (s.viewBytes pa n) else bits d.current.1 (pa % 128 * 8 + 8 * n - 1) (pa % 128 * 8)
  | none => ofBytes (s.viewBytes pa n)

/-! ### Reads of homes (R151, R171, R306, R316) -/

/-- What a read at a home gives. -/
inductive HomeRead where
  | ok (v : Nat)
  | bad (code : Nat)
deriving DecidableEq, Repr

/-- ReadHome by a die, or by a command processor: n bytes at the home, or the error of the region check, of uncorrectable
data, or of a path that is down (R151, R171, R306, R316). -/
def State.readHome (s : State) (die : Option Nat) (pa n : Nat) : HomeRead :=
  match s.homeRefusal pa true with
  | some code => .bad code
  | none =>
    match region pa with
    | 0 => if (die.map (fun d => s.routeDown d (stackOf (bits pa 40 0)))).getD false then .bad 0x31 else .ok (ofBytes (s.viewBytes pa n))
    | 1 => .ok (s.dieNat (vaultDie pa) pa n)
    | 2 => if s.hostPath pa = .down then .bad 0x31 else .ok (ofBytes (s.viewBytes pa n))
    | _ => .bad 0x30

/-! ### The walk (R167 to R171) -/

/-- The result of a translation: the PA, the PTE's low 13 bits, MODULE, and whether the page is of 4 GiB; or a fault
code with its DETAIL (R283). -/
inductive Trans where
  | ok (pa attr modid : Nat) (big : Bool)
  | bad (code detail : Nat)
deriving DecidableEq, Repr

/-- Attribute bits of a PTE (R169). -/
def attrR (a : Nat) : Bool := bit a 2
def attrW (a : Nat) : Bool := bit a 3
def attrX (a : Nat) : Bool := bit a 4
def attrPRIV (a : Nat) : Bool := bit a 5
def attrSTRM (a : Nat) : Bool := bit a 6
def attrCELL (a : Nat) : Bool := bit a 7
def attrSYSA (a : Nat) : Bool := bit a 8
def attrMIRR (a : Nat) : Bool := bit a 9
def attrELID (a : Nat) : Bool := bit a 10
def attrALIAS (a : Nat) : Bool := bit a 11
def attrREM (a : Nat) : Bool := bit a 12

/-- A malformed entry of a level (R169, R170); V is 1. -/
def malformed (pte level : Nat) : Bool :=
  let leaf := bit pte 1
  let reg := bits pte 51 48
  let rem := bit pte 12
  if !leaf then
    level == 1 || bits pte 12 2 != 0 || bits pte 15 13 != 0 || bits pte 18 16 != 0 || bits pte 63 52 != 0
      || !(reg == 0 || reg == 2)
  else
    3 ≤ level || bits pte 15 13 != 0
    || (level == 2 && (bits pte 31 16 != 0 || !(reg == 0 || reg == 2) || rem || bits pte 63 52 != 0))
    || (!rem && bits pte 63 52 != 0)
    || (attrALIAS pte != decide (8 ≤ reg))
    || (attrALIAS pte && (attrCELL pte || attrSYSA pte || attrMIRR pte || attrELID pte || attrX pte))
    || ((attrCELL pte || attrMIRR pte || attrELID pte) && reg != 0)
    || (attrSYSA pte && reg != 2) || (attrMIRR pte && attrSTRM pte) || (!attrPRIV pte && reg == 3)
    || (rem && (!attrCELL pte || reg != 0))

/-- Address of the entry of a level in its table (R169). -/
def pteAddr (va table level : Nat) : Nat := table + 8 * bits va (16 * level + 15) (16 * level)

/-- The levels below `level` of a walk from a table (R171). -/
def State.walkLevels (s : State) (die : Option Nat) (va table : Nat) : Nat → Trans
  | 0 => .bad 0x10 0
  | level + 1 =>
    match s.readHome die (pteAddr va table (level + 1)) 8 with
    | .bad code => .bad code 0
    | .ok pte =>
      if !bit pte 0 || malformed pte (level + 1) then .bad 0x10 0
      else if bit pte 1 then
        if level = 0 then .ok (bits pte 51 16 * 2 ^ 16 + bits va 15 0) (bits pte 12 0) (bits pte 63 52) false
        else .ok (bits pte 51 32 * 2 ^ 32 + bits va 31 0) (bits pte 11 0) 0 true
      else State.walkLevels s die va (bits pte 51 19 * 2 ^ 19) level

/-- The entries that a walk reads from a table on: level, address, and the table that a sound non-leaf entry points to. -/
def State.walkTrail (s : State) (die : Option Nat) (va table : Nat) : Nat → List (Nat × Nat × Option Nat)
  | 0 => []
  | level + 1 =>
    let pa := pteAddr va table (level + 1)
    match s.readHome die pa 8 with
    | .bad _ => [(level + 1, pa, none)]
    | .ok pte =>
      if !bit pte 0 || malformed pte (level + 1) || bit pte 1 then [(level + 1, pa, none)]
      else (level + 1, pa, some (bits pte 51 19 * 2 ^ 19)) :: State.walkTrail s die va (bits pte 51 19 * 2 ^ 19) level

/-- Address of the context entry of a context (R168). -/
def State.ctxEntry (s : State) (ctx : Nat) : Nat := s.regF (xlatReg 0x00) 51 16 * 2 ^ 16 + 16 * ctx

/-- The level-4 table of a context; or the fault of a bad context entry or of its read (R168). -/
inductive Root where
  | ok (table : Nat)
  | bad (code detail : Nat)
deriving DecidableEq, Repr

def State.rootTable (s : State) (die : Option Nat) (ctx : Nat) : Root :=
  match s.readHome die (s.ctxEntry ctx) 8, s.readHome die (s.ctxEntry ctx + 8) 8 with
  | .ok lo, .ok hi =>
    if !bit lo 0 || bits lo 18 1 != 0 || bits lo 63 52 != 0 || hi != 0 then .bad 0x10 3 else .ok (bits lo 51 19 * 2 ^ 19)
  | .bad code, _ => .bad code 0
  | _, .bad code => .bad code 0

/-- VA[79:78] names no half (R167). -/
def badHalf (va : Nat) : Bool := bits va 79 78 == 1 || bits va 79 78 == 2

/-- Walk(ctx, va) (R171). -/
def State.walk (s : State) (die : Option Nat) (ctx va : Nat) : Trans :=
  if badHalf va then .bad 0x10 2
  else match s.rootTable die ctx with
    | .bad code detail => .bad code detail
    | .ok t => s.walkLevels die va t 4

/-! ### TLBs (R173, R175) -/

/-- The entry of a TLB that translates an address. -/
def tlbFind (t : List TlbEntry) (ctx va : Nat) : Option TlbEntry :=
  t.find? (fun e => e.ctx == ctx && (if e.big then e.page == va / 2 ^ 32 else e.page == va / 2 ^ 16))

def TlbEntry.trans (e : TlbEntry) (va : Nat) : Trans :=
  if e.big then .ok (e.frame * 2 ^ 32 + va % 2 ^ 32) e.attr e.modid true else .ok (e.frame * 2 ^ 16 + va % 2 ^ 16) e.attr e.modid false

/-- Installs an entry; a full TLB of 64 replaces the entry that a free value names (R173, log entry 6). -/
def State.tlbInstall (s : State) (c : Nat) (e : TlbEntry) : State :=
  let k := s.core c
  if k.tlb.length < 64 then s.setCore c { k with tlb := k.tlb ++ [e] }
  else
    let (v, s) := s.freeVal
    s.setCore c { k with tlb := k.tlb.set (v % 64) e }

/-- The table that the walk cache holds for an address at a level. -/
def walkCacheFind (t : List WalkEntry) (ctx va level : Nat) : Option Nat :=
  (t.find? (fun e => e.ctx == ctx && e.level == level && e.page == va / 2 ^ (16 * level))).map (fun e => e.table)

/-- The places from which a walk may start: the deepest cached entry first (R173). Each gives the levels that are left and
their first table. -/
def State.walkStarts (s : State) (die ctx va : Nat) : List (Nat × Nat) :=
  let wc := Tbl.get [] s.m.walkCache die
  if badHalf va then [] else [2, 3, 4].filterMap (fun level => (walkCacheFind wc ctx va level).map (fun t => (level - 1, t)))

/-- What a walk of a die may give: one from each place of its walk cache, which may be used after the tables have changed,
and the full walk, which comes last (R173, R175). -/
def State.walkAnswers (s : State) (die ctx va : Nat) : List Trans :=
  (s.walkStarts die ctx va).map (fun e => s.walkLevels (some die) va e.2 e.1) ++ [s.walk (some die) ctx va]

/-- An entry enters the walk cache of a die; a full cache of 1,024 replaces the entry that a free value names (R173; log
entry 6). -/
def State.walkCacheAdd (s : State) (die : Nat) (e : WalkEntry) : State :=
  let wc := Tbl.get [] s.m.walkCache die
  let put (s : State) (wc : List WalkEntry) : State := { s with m := { s.m with walkCache := Tbl.put [] s.m.walkCache die wc } }
  if wc.length < 1024 then put s (wc ++ [e])
  else
    let (v, s) := s.freeVal
    put s (wc.set (v % 1024) e)

/-- The entries that the walk reads from its start on: the start, and what each gives. -/
def State.walkReads (s : State) (die ctx va : Nat) (start : Option (Nat × Nat)) : List (Nat × Nat × Option Nat) :=
  match start with
  | some e => s.walkTrail (some die) va e.2 e.1
  | none =>
    if badHalf va then []
    else (0, s.ctxEntry ctx, none) :: (match s.rootTable (some die) ctx with
      | .ok t => s.walkTrail (some die) va t 4
      | .bad _ _ => [])

/-- A walk with the die's walk cache. Where the places it may start from would give different results, a free value decides
which cached entries are still there, and those that are not have left (R173, R175; log entry 6). The non-leaf entries that
it reads enter the cache, and host tables enter the host-line cache (R171). -/
def State.walkCached (s : State) (die ctx va : Nat) : Trans × State :=
  let starts := s.walkStarts die ctx va
  let answers := s.walkAnswers die ctx va
  let full := s.walk (some die) ctx va
  let (i, s) := if answers.all (fun x => x == full) then (0, s) else
    let (v, s) := s.freeVal
    (v % answers.length, s)
  let gone := (starts.take i).map (fun e => e.1 + 1)
  let wc := Tbl.get [] s.m.walkCache die
  let kept := wc.filter (fun e => !(e.ctx == ctx && gone.contains e.level && e.page == va / 2 ^ (16 * e.level)))
  let s := if gone.isEmpty then s else { s with m := { s.m with walkCache := Tbl.put [] s.m.walkCache die kept } }
  let reads := s.walkReads die ctx va starts[i]?
  let s := reads.foldl (fun s r => if region r.2.1 = 2 then s.hostFill r.2.1 else s) s
  let s := reads.foldl (fun s r => match r.2.2 with
    | some t => s.walkCacheAdd die ⟨ctx, r.1, va / 2 ^ (16 * r.1), t⟩
    | none => s) s
  (answers.getD i full, s)

/-- The first obstacle on the way to the entries that a list names, if any; a home's own refusals are the walk's (R171). -/
def State.waysTo (s : State) (w : Waiter) (die : Nat) (pas : List Nat) : EngRes :=
  pas.foldl (fun r pa => match r with
    | .ok _ => (match s.way w die pa true with
      | .wait => .wait
      | .bad 0x31 detail => .bad 0x31 detail
      | _ => .ok 0)
    | r => r) (.ok 0)

/-- Every access of a list that must wait does what it can. -/
def State.waysWait (s : State) (w : Waiter) (die n : Nat) (pas : List Nat) : State :=
  pas.foldl (fun s pa => if s.way w die pa true = .wait then s.wayWait w die pa 0 n else s) s

/-- The entries that a walk of a die is going to read. -/
def State.walkPas (s : State) (die ctx va : Nat) : List Nat :=
  (s.walkReads die ctx va (s.walkStarts die ctx va).head?).map (fun r => r.2.1)

/-- How a walk's reads have come on: each may have to wait for its home, and may fail on the way (R27, R171, R275, R308, R316). -/
def State.walkGate (s : State) (w : Waiter) (die ctx va : Nat) : EngRes := s.waysTo w die (s.walkPas die ctx va)

/-- A walk that must wait. -/
def State.walkWait (s : State) (w : Waiter) (die ctx va : Nat) : State := s.waysWait w die 8 (s.walkPas die ctx va)

/-- The banks have served the reads of a walk (R275). -/
def State.walkServed (s : State) (w : Waiter) (die ctx va : Nat) : State :=
  (s.walkPas die ctx va).foldl (fun s pa => s.bankServed pa w) s

/-- A walk whose result the TLB of a core takes in. -/
def State.walkInstall (s : State) (c ctx va : Nat) : Trans × State :=
  match s.walkCached (dieOf c) ctx va with
  | (.ok pa attr modid big, s) =>
    (.ok pa attr modid big, s.tlbInstall c ⟨ctx, if big then va / 2 ^ 32 else va / 2 ^ 16, big, if big then pa / 2 ^ 32 else pa / 2 ^ 16, attr, modid⟩)
  | r => r

/-- Translation for a user agent of a core, whose access to the privileged half is fault 0x11 (R167). An entry of its TLB
may serve or may have left it: where a walk would give the same, the entry serves; where not, a free value decides (R173,
R175, log entry 6). A walk is one move, so none is in progress when TLBINV is written. -/
def State.translate (s : State) (c ctx va : Nat) : Trans × State :=
  if badHalf va then (.bad 0x10 2, s)
  else if bits va 79 78 = 3 then (.bad 0x11 0, s)
  else
    match tlbFind (s.core c).tlb ctx va with
    | some e =>
      if (s.walkAnswers (dieOf c) ctx va).all (fun x => x == e.trans va) then (e.trans va, s)
      else
        let (v, s) := s.freeVal
        if v % 2 = 0 then (e.trans va, s)
        else
          let k := s.core c
          (s.setCore c { k with tlb := k.tlb.filter (fun x => x != e) }).walkInstall c ctx va
    | none => s.walkInstall c ctx va

/-- Does the translation of a user access need a walk? -/
def State.needsWalk (s : State) (c ctx va : Nat) : Bool := bits va 79 78 == 0 && (tlbFind (s.core c).tlb ctx va).isNone

/-- How the walk that the translation of a user access needs has come on (R173, R316). -/
def State.translateGate (s : State) (w : Waiter) (c ctx va : Nat) : EngRes :=
  if s.needsWalk c ctx va then s.walkGate w (dieOf c) ctx va else .ok 0

/-- A translation that must wait. -/
def State.translateWait (s : State) (w : Waiter) (c ctx va : Nat) : State :=
  if s.needsWalk c ctx va then s.walkWait w (dieOf c) ctx va else s

/-- The walk that a translation needs is served by its banks. -/
def State.translateServed (s : State) (w : Waiter) (c ctx va : Nat) : State :=
  if s.needsWalk c ctx va then s.walkServed w (dieOf c) ctx va else s

/-! ### The checks after a walk (R172, R356) -/

/-- What an access asks of its page. -/
inductive PageUse where
  | read | write | fetch
deriving DecidableEq, Repr

def AccKind.use (k : AccKind) : PageUse :=
  match k with
  | .ld | .tq | .rfetch | .peek | .cflush | .cinv | .cpref | .lotdone => .read
  | _ => .write

def AccKind.isCell (k : AccKind) : Bool := [AccKind.bid, .peek, .recycle, .close].contains k
def AccKind.isCacheOp (k : AccKind) : Bool := [AccKind.cflush, .cinv, .cinvDiscard, .cdisc, .cpref].contains k
def AccKind.isDiscard (k : AccKind) : Bool := k == .cinvDiscard || k == .cdisc

/-- PRIV and the R, W and X bits (R172, rows 1 and 2). -/
def permFault (user : Bool) (u : PageUse) (attr : Nat) : Option Nat :=
  if user && attrPRIV attr then some 0x11
  else match u with
    | .read => if attrR attr then none else some 0x11
    | .write => if attrW attr then none else some 0x11
    | .fetch => if attrX attr then none else some 0x11

/-- The checks of R172 on an access of a user agent, in the order of its table, with those of R258 and R356: alias
operations 6 and 7, and cache operations on alias windows. -/
def accFault (k : AccKind) (sp : Space) (pa attr : Nat) : Option Nat :=
  match permFault true k.use attr with
  | some f => some f
  | none =>
    let reg := region pa
    let win := decide (8 ≤ reg)
    if k.isCell && !attrCELL attr then some 0x12
    else if !k.isCell && attrCELL attr && !(k == .cflush || k == .cinv || k == .cpref) then some 0x12
    else if (k == .cflush || k == .cinv || k == .cpref) && attrREM attr then some 0x12
    else if sp == .v && reg != 1 then some 0x12
    else if sp == .g && reg == 1 then some 0x12
    else if win && !((k == .ld || k == .st) && sp == .g) then some 0x12
    else if win && (bits pa 50 47 == 6 || bits pa 50 47 == 7) then some 0x12
    else if (k == .atom || k == .red) && reg == 2 && !attrSYSA attr then some 0x12
    else if (k == .st || k == .atom || k == .red || k.isDiscard) && attrELID attr then some 0x12
    else none

end Sys2Proof.Machine
end

