-- ==== Sys2Proof/Machine/Cache.lean ====
section
/-! DEFINITION. Access to banks, and the L1s, cluster caches and directories of a die with the cache actions of the scopes
(06_memory.md R158 to R166; 07_ordering.md R180 to R182; 10_banks.md R275; 11_faults.md R291). A line held on a die lists the
copies with their dirty masks: the coherent view of the die, in which a write takes ownership of every dirty byte (R160). A
store enters it in two steps: first the threads of its core see it, then those of its cluster, then the die (R181; log
entry 93). -/

namespace Sys2Proof.Machine

/-! ### Lines -/

/-- Keeps a line while it has a copy. -/
def State.setDieLine (s : State) (die line : Nat) (d : DieLine) : State :=
  { s with m := { s.m with caches := Tbl.put none s.m.caches (cacheKey die line) (if d.copies.isEmpty then none else some d) } }

/-- The 128 bytes of a line at its home. -/
def State.homeLine (s : State) (line : Nat) : Nat := ofBytes (s.viewBytes (line * 128) 128)

/-- Is a line in DRAM (region 0)? -/
def isDram (line : Nat) : Bool := region (line * 128) == 0

/-- The stack and the channel of a DRAM line. -/
def lineStack (line : Nat) : Nat := stackOf (bits (line * 128) 40 0)
def lineChannel (line : Nat) : Nat := bits (stackOffset (bits (line * 128) 40 0)) 13 10

/-- A write of the bytes of a line under a mask at its home (R180). Bytes of a frame that is ELIDED meanwhile, or of a
retired channel, are refused and dropped (log entry 17). Every monitor on the line notes the write (R84). -/
def State.writeHomeLine (s : State) (w : Waiter) (line data mask : Nat) : State :=
  if mask = 0 || (isDram line && ((s.frameClass (bits (line * 128) 40 0)).isElided || s.channelRetired (lineStack line) (lineChannel line))) then s
  else
    let s := (List.range 128).foldl (fun s i =>
      if bit mask i then s.setHomeByte (line * 128 + i) (BitVec.ofNat 8 (data / 256 ^ i)) else s) s
    (s.bankServed (line * 128) w).markMonitors line (fun _ => true)

/-- Does a write-back of a die get an error response: its pair is DOWN, its packets were given up, or the home channel of its relay
die is retired (R306, R313, R328)? -/
def State.backLost (s : State) (die line : Nat) : Bool :=
  isDram line && (s.routeDown die (lineStack line) || (match s.transfer? (.line die line) line with
    | some t => t.done == some false || s.transferCut t
    | none => match s.crossing die (line * 128) with
      | some ch => s.homeRetired ch
      | none => false))

/-- A write-back of a die. Where it gets an error response, its bytes are written or lost as a free value decides (R306; log entry
94). -/
def State.writeBack (s : State) (die line data mask : Nat) : State :=
  if mask != 0 && s.backLost die line then
    let (v, s) := s.freeVal
    if v % 2 = 0 then s.writeHomeLine (.line die line) line data mask else s
  else s.writeHomeLine (.line die line) line data mask

/-- A line's mirror is dropped when the line is written back (R291). -/
def State.dropMirror (s : State) (die line : Nat) : State :=
  { s with m := { s.m with mirror := s.m.mirror.filter (fun x => !(x.die == die && x.line == line)) } }

/-! ### Stores on their way to the die's view (R181) -/

/-- The stores of a line that not every core of the die sees yet, those that a cluster sees first. -/
def State.earlyOf (s : State) (die line : Nat) : List Early :=
  let es := s.m.early.filter (fun e => dieOf e.core == die && e.line == line)
  es.filter (fun e => e.spread) ++ es.filter (fun e => !e.spread)

/-- Do the threads of a core see a store already? -/
def Early.seenBy (e : Early) (core : Nat) : Bool := e.core == core || (e.spread && cluOf e.core == cluOf core)

/-- n bytes as the threads and engines of a core see them: the die's view under the stores that the core's own threads, or its
cluster, have made and that are not yet visible to the die (R177, R181). -/
def State.coreNat (s : State) (core pa n : Nat) : Nat :=
  match (s.earlyOf (dieOf core) (pa / 128)).filter (fun e => e.seenBy core) with
  | [] => s.dieNat (dieOf core) pa n
  | es =>
    let v := es.foldl (fun v e => overlay v e.data.toNat e.mask.toNat) (s.dieNat (dieOf core) (pa / 128 * 128) 128)
    bits v (pa % 128 * 8 + 8 * n - 1) (pa % 128 * 8)

/-- Is a line of a page with these attributes mirrored: a MIRR page, while the buddy of the die gives it room (R291)? -/
def State.mirrors (s : State) (die attr : Nat) : Bool :=
  attrMIRR attr && s.regF (mirrReg (die ^^^ 1)) 3 0 != 0 && !s.dieRetired (die ^^^ 1)

/-- A store enters the view of its die: the storing core gains the line, taking over every dirty byte, and every other copy
is dropped but for its own cluster's and those of cores with a store of their own on the way to the line. Those hold the line's
last value, clean, so that a cluster cache keeps every line of its L1s (R159, R160, R182). Lines that are mirrored are written
through to the cluster cache (R291). Monitors that watch the die note the write (R84). -/
def State.enterDie (s : State) (e : Early) : State :=
  let die := dieOf e.core
  let s := { s with m := { s.m with early := s.m.early.filter (fun x => x.id != e.id) } }
  let s := s.markMonitors e.line (fun k => dieOf k == die || region (e.line * 128) == 1)
  match s.dieLine? die e.line with
  | none => s.writeBack die e.line e.data.toNat e.mask.toNat
  | some d =>
    let (cur, dirty) := d.current
    let new := BitVec.ofNat 1024 (overlay cur e.data.toNat e.mask.toNat)
    let mask := BitVec.ofNat 128 dirty ||| e.mask
    let own (x : Copy) : Bool := x.holder == .clu (cluOf e.core) || x.holder == .l1 e.core
    let onWay (x : Copy) : Bool := (s.earlyOf die e.line).any (fun y => x.holder == .l1 y.core || x.holder == .clu (cluOf y.core))
    let others := (d.copies.filter (fun x => !own x && onWay x)).map (fun x => { x with data := new, dirty := (0 : BitVec 128) })
    let through := s.mirrors die e.attr
    s.setDieLine die e.line { d with
      mirr := through,
      copies := others ++ [⟨.clu (cluOf e.core), new, if through then mask else 0⟩, ⟨.l1 e.core, new, if through then 0 else mask⟩] }

/-- Every store of a line enters the view of its die. -/
def State.settleLine (s : State) (die line : Nat) : State := (s.earlyOf die line).foldl (fun s e => s.enterDie e) s

/-- Stores that a test selects become visible to their cluster. -/
def State.spreadCluster (s : State) (p : Early → Bool) : State :=
  { s with m := { s.m with early :=
      (s.m.early.filter (fun e => e.spread || !p e)) ++ (s.m.early.filter (fun e => !e.spread && p e)).map (fun e => { e with spread := true }) } }

/-- One store goes one step on: from its core to its cluster, or from its cluster to its die. It does not overtake an earlier
store to a byte of its own, so that every agent sees the writes of one location in one order (R180). -/
def State.spreadOne (s : State) (id : Nat) : State :=
  match s.m.early.find? (fun e => e.id == id) with
  | none => s
  | some e =>
    let earlier := s.m.early.takeWhile (fun x => x.id != id)
    let meets (x : Early) : Bool := dieOf x.core == dieOf e.core && x.line == e.line && x.mask &&& e.mask != 0
    if e.spread then
      if earlier.any (fun x => x.spread && cluOf x.core == cluOf e.core && meets x) then s else s.enterDie e
    else if earlier.any (fun x => !x.spread && x.core == e.core && meets x) then s
    else s.spreadCluster (fun x => x.id == id)

/-! ### Write-back and eviction -/

/-- Does a die hold dirty bytes of a line? -/
def State.lineDirty (s : State) (die line : Nat) : Bool :=
  !(s.earlyOf die line).isEmpty || (match s.dieLine? die line with
    | some d => d.current.2 != 0
    | none => false)

/-- May the home take a write-back of a line now, or is there nothing to write? It may have to wait for its pair, for its packets to a
relay die, or for its bank (R27, R275, R308, R328). -/
def State.canClean (s : State) (die line : Nat) : Bool :=
  !s.lineDirty die line || (match s.way (.line die line) die (line * 128) false with
    | .wait => false
    | _ => true)

/-- A write-back that must wait. -/
def State.backWait (s : State) (die line : Nat) : State := s.wayWait (.line die line) die (line * 128) 128 0

/-- Writes a line's dirty bytes to its home; the copies stay, clean and equal. -/
def State.cleanLine (s : State) (die line : Nat) : State :=
  let s := s.settleLine die line
  match s.dieLine? die line with
  | none => s
  | some d =>
    let (v, m) := d.current
    let s := (s.writeBack die line v m).endTransfers (.line die line)
    let s := s.dropMirror die line
    s.setDieLine die line { d with copies := d.copies.map (fun x => { x with data := BitVec.ofNat 1024 v, dirty := 0 }) }

/-- Writes a line's dirty bytes to its home and drops every copy on the die. -/
def State.evictLine (s : State) (die line : Nat) : State :=
  let s := s.cleanLine die line
  match s.dieLine? die line with
  | none => s
  | some d => s.setDieLine die line { d with copies := [] }

/-- Does a holder lie in a cluster (global cluster number)? -/
def Holder.inCluster (h : Holder) (c : Nat) : Bool :=
  match h with
  | .l1 k => cluOf k == c
  | .clu k => k == c

def Holder.isL1 (h : Holder) : Bool :=
  match h with
  | .l1 _ => true
  | .clu _ => false

/-- A streaming line's tag leaves a cluster cache with the last L1 copy of the cluster (R162). -/
def DieLine.dropTags (d : DieLine) : DieLine :=
  if d.strm then
    { d with copies := d.copies.filter (fun x => match x.holder with
        | .l1 _ => true
        | .clu c => d.copies.any (fun y => y.holder.isL1 && y.holder.inCluster c)) }
  else d

/-- The mirror of a line keeps only the bytes that are still dirty on its die (R291, R355). -/
def State.keepMirror (s : State) (die line : Nat) (mask : BitVec 128) : State :=
  { s with m := { s.m with mirror := (s.m.mirror.map (fun x =>
      if x.die == die && x.line == line then { x with mask := x.mask &&& mask } else x)).filter (fun x =>
        !(x.die == die && x.line == line) || x.mask != 0) } }

/-- Drops the copies that a test selects, discarding their dirty bytes and the stores still on their way from their L1s.
Answers how many held dirty bytes. Copies that stay are left as they are: they hold the line's last value before the discard
(R182, R355). -/
def State.discardCopies (s : State) (die line : Nat) (sel : Holder → Bool) : Nat × State :=
  match s.dieLine? die line with
  | none => (0, s)
  | some d =>
    let early := (s.earlyOf die line).filter (fun e => sel (.l1 e.core))
    let gone := d.copies.filter (fun x => sel x.holder)
    let n := (gone.filter (fun x => x.dirty != 0 || early.any (fun e => x.holder == .l1 e.core))).length
    let kept := d.copies.filter (fun x => !sel x.holder)
    let s := { s with m := { s.m with early := s.m.early.filter (fun e => !early.any (fun x => x.id == e.id)) } }
    (n, (s.setDieLine die line ({ d with copies := kept }).dropTags).keepMirror die line (kept.foldl (fun m x => m ||| x.dirty) 0))

/-- Drops the copies that a test selects. Their dirty bytes go to the cluster cache of the same cluster where it keeps a copy
with data, else to the home (R162, R355). -/
def State.dropCopies (s : State) (die line : Nat) (sel : Holder → Bool) : State :=
  let s := if s.m.early.any (fun e => dieOf e.core == die && e.line == line && sel (.l1 e.core)) then s.settleLine die line else s
  match s.dieLine? die line with
  | none => s
  | some d =>
    let gone := d.copies.filter (fun x => sel x.holder)
    let kept := d.copies.filter (fun x => !sel x.holder)
    let back (s : State) (x : Copy) : State := (s.writeBack die line x.data.toNat x.dirty.toNat).dropMirror die line
    let step (acc : List Copy × State) (x : Copy) : List Copy × State :=
      if x.dirty = 0 then acc
      else match x.holder with
        | .l1 k =>
          if !d.strm && acc.1.any (fun y => y.holder == .clu (cluOf k)) then
            (acc.1.map (fun y => if y.holder == .clu (cluOf k) then
              { y with data := BitVec.ofNat 1024 (overlay y.data.toNat x.data.toNat x.dirty.toNat), dirty := y.dirty ||| x.dirty }
              else y), acc.2)
          else (acc.1, back acc.2 x)
        | .clu _ => (acc.1, back acc.2 x)
    -- a cluster copy's bytes go first, so that the newer bytes of an L1 come last
    let order := gone.filter (fun x => !x.holder.isL1) ++ gone.filter (fun x => x.holder.isL1)
    let (kept, s) := order.foldl step (kept, s)
    s.setDieLine die line ({ d with copies := kept }).dropTags

/-! ### Replacement (R158, R159, R160): sets are selected by the low bits of the line or region number, and the victim in a
full set is open, so a free value names it (log entries 6 and 95) -/

def State.linesOf (s : State) (die : Nat) (p : Nat → DieLine → Bool) : List Nat :=
  s.m.caches.filterMap (fun e => match e.2 with
    | some d => if e.1 / 2 ^ 45 == die && p (e.1 % 2 ^ 45) d then some (e.1 % 2 ^ 45) else none
    | none => none)

/-- Lines of the same L1 set of a core, and of the same set of its cluster cache. -/
def State.setL1 (s : State) (core line : Nat) : List Nat :=
  s.linesOf (dieOf core) (fun l d => l % 128 == line % 128 && l != line && d.copies.any (fun x => x.holder == .l1 core))

def State.setClu (s : State) (core line : Nat) : List Nat :=
  s.linesOf (dieOf core) (fun l d => l % 4096 == line % 4096 && l != line && d.copies.any (fun x => x.holder == .clu (cluOf core)))

/-- Regions of 512 bytes of the same set of the directory of a die: 131,072 entries, 16-way. -/
def State.setDir (s : State) (die line : Nat) : List Nat :=
  ((s.linesOf die (fun l _ => l / 4 % 8192 == line / 4 % 8192 && l / 4 != line / 4)).map (fun l => l / 4)).eraseDups

/-- Lines of a set that may leave: those whose write-back can go now. In an L1 a streaming line is the next to leave (R162). -/
def State.victims (s : State) (die : Nat) (ls : List Nat) : List Nat :=
  let open' := ls.filter (fun l => s.canClean die l)
  let strm := open'.filter (fun l => match s.dieLine? die l with
    | some d => d.strm
    | none => false)
  if strm.isEmpty then open' else strm

/-- Regions of a directory set that may leave. -/
def State.victimRegions (s : State) (die : Nat) (rs : List Nat) : List Nat :=
  rs.filter (fun r => (List.range 4).all (fun i => s.canClean die (4 * r + i)))

/-- Is there room for a line, or a victim that can leave, at every level that the fill needs? -/
def State.canFill (s : State) (core line : Nat) : Bool :=
  let die := dieOf core
  let l1 := s.setL1 core line
  let clu := s.setClu core line
  let dir := s.setDir die line
  (l1.length < 8 || !(s.victims die l1).isEmpty) && (clu.length < 16 || !(clu.filter (fun l => s.canClean die l)).isEmpty)
  && (dir.length < 16 || !(s.victimRegions die dir).isEmpty)

/-- Room for a line in the L1 of a core: 8 ways, 128 sets. -/
def State.roomL1 (s : State) (core line : Nat) : State :=
  let ls := s.setL1 core line
  if ls.length < 8 then s
  else
    let vs := s.victims (dieOf core) ls
    let (v, s) := s.freeVal
    s.dropCopies (dieOf core) (vs.getD (v % vs.length) (ls.headD 0)) (fun h => h == .l1 core)

/-- Room in the cluster cache: 16 ways, 4,096 sets; the victim leaves every L1 of the cluster. -/
def State.roomClu (s : State) (core line : Nat) : State :=
  let ls := s.setClu core line
  if ls.length < 16 then s
  else
    let vs := ls.filter (fun l => s.canClean (dieOf core) l)
    let (v, s) := s.freeVal
    s.dropCopies (dieOf core) (vs.getD (v % vs.length) (ls.headD 0)) (fun h => h.inCluster (cluOf core))

/-- Room in the directory: 16 ways, 8,192 sets of 512-byte regions. -/
def State.roomDir (s : State) (core line : Nat) : State :=
  let die := dieOf core
  let rs := s.setDir die line
  if rs.length < 16 then s
  else
    let vs := s.victimRegions die rs
    let (v, s) := s.freeVal
    let r := vs.getD (v % vs.length) (rs.headD 0)
    (List.range 4).foldl (fun s i => s.evictLine die (4 * r + i)) s

/-! ### Reads and writes of a core through its die (R158 to R162, R165) -/

/-- Prepares a line for a context: a line under another context's tag is written back and dropped (R165). -/
def State.claimTag (s : State) (die line ctx : Nat) : State :=
  match s.dieLine? die line with
  | some d => if d.ctx = ctx then s else s.evictLine die line
  | none => s

/-- Is a line held on the die of a core under a context, with its data? -/
def State.holds (s : State) (core ctx line : Nat) : Bool :=
  match s.dieLine? (dieOf core) line with
  | some d => d.ctx == ctx && !d.dataCopies.isEmpty
  | none => false

/-- Is a line in the L1 of a core? -/
def State.inL1 (s : State) (core line : Nat) : Bool :=
  match s.dieLine? (dieOf core) line with
  | some d => d.copies.any (fun x => x.holder == .l1 core)
  | none => false

/-- Brings a line into the L1 of a core, from the die's copies or from the home, and into its cluster cache, of a streaming
page as a tag only. A dirty copy in another L1 of the cluster moves its dirty bytes to the cluster cache; a dirty copy of
another cluster stays dirty there (R160, R162). -/
def State.fillL1 (s : State) (core ctx pa attr : Nat) : State :=
  let die := dieOf core
  let line := pa / 128
  let clu := cluOf core
  let s := s.claimTag die line ctx
  if s.inL1 core line then s
  else
    let s : State := ((s.roomDir core line).roomL1 core line).roomClu core line
    match s.dieLine? die line with
    | some d =>
      if d.dataCopies.isEmpty then
        let v := BitVec.ofNat 1024 (s.homeLine line)
        s.setDieLine die line { d with copies := d.copies.filter (fun x => x.holder != .clu clu) ++ [⟨.clu clu, v, 0⟩, ⟨.l1 core, v, 0⟩] }
      else
        let data := BitVec.ofNat 1024 d.current.1
        let hasClu := d.copies.any (fun x => x.holder == .clu clu)
        if d.strm then
          s.setDieLine die line { d with copies := d.copies ++ (if hasClu then [] else [⟨.clu clu, data, 0⟩]) ++ [⟨.l1 core, data, 0⟩] }
        else
          let mates := d.copies.filter (fun x => x.holder.isL1 && x.holder.inCluster clu && x.dirty != 0)
          let moved : BitVec 128 := mates.foldl (fun m x => m ||| x.dirty) 0
          let cs := d.copies.map (fun x => match x.holder with
            | .l1 k => if cluOf k == clu then { x with dirty := 0 } else x
            | .clu c => if c == clu then { x with data := data, dirty := x.dirty ||| moved } else x)
          s.setDieLine die line { d with copies := cs ++ (if hasClu then [] else [⟨.clu clu, data, moved⟩]) ++ [⟨.l1 core, data, 0⟩] }
    | none =>
      let v := BitVec.ofNat 1024 (s.homeLine line)
      s.setDieLine die line ⟨ctx, attrSTRM attr, attrCELL attr, attrMIRR attr, [⟨.clu clu, v, 0⟩, ⟨.l1 core, v, 0⟩]⟩

/-- Brings a line into the cluster cache only (`CPREF`, R355). -/
def State.fillClu (s : State) (core ctx pa attr : Nat) : State :=
  let die := dieOf core
  let line := pa / 128
  let s := s.claimTag die line ctx
  match s.dieLine? die line with
  | some d =>
    if d.copies.any (fun x => x.holder.inCluster (cluOf core)) || attrSTRM attr || d.strm then s
    else
      let s := s.roomClu core line
      match s.dieLine? die line with
      | none => s
      | some d => s.setDieLine die line { d with copies := d.copies ++ [⟨.clu (cluOf core), BitVec.ofNat 1024 d.current.1, 0⟩] }
  | none =>
    if attrSTRM attr then s
    else
      let s := (s.roomDir core line).roomClu core line
      s.setDieLine die line ⟨ctx, false, attrCELL attr, attrMIRR attr, [⟨.clu (cluOf core), BitVec.ofNat 1024 (s.homeLine line), 0⟩]⟩

/-- The buddy's mirror area has room, or the line mirrored longest ago is first written back (R291). -/
def State.mirror (s : State) (die line attr data mask : Nat) : State :=
  let size := min 8 (s.regF (mirrReg (die ^^^ 1)) 3 0)
  if !s.mirrors die attr then s
  else
    let old := s.m.mirror.find? (fun x => x.die == die && x.line == line)
    let rest := s.m.mirror.filter (fun x => !(x.die == die && x.line == line))
    let entry : MirrorLine := match old with
      | some x => ⟨die, line, BitVec.ofNat 1024 (overlay x.data.toNat data mask), x.mask ||| BitVec.ofNat 128 mask⟩
      | none => ⟨die, line, BitVec.ofNat 1024 data, BitVec.ofNat 128 mask⟩
    let s := { s with m := { s.m with mirror := rest ++ [entry] } }
    let mine := s.m.mirror.filter (fun x => x.die == die)
    if 16 * size * 524288 < 128 * mine.length then
      match mine with
      | x :: _ => s.cleanLine die x.line
      | [] => s
    else s

/-- A write of n bytes of a line by a core, visible to the agents of a scope: the line is in its L1, and the store is on its
way to the view of the die. A line of a MIRR page enters it at once, and its dirty bytes go to the buddy (R181, R209, R291). -/
def State.writeL1 (s : State) (core ctx pa n v attr : Nat) (sc : Scope) : State :=
  let die := dieOf core
  let line := pa / 128
  let s := s.fillL1 core ctx pa attr
  let (id, s) := s.fresh
  let off := pa % 128
  let e : Early := ⟨id, core, ctx, line, BitVec.ofNat 1024 (wrapN v (8 * n) * 2 ^ (8 * off)), BitVec.ofNat 128 ((2 ^ n - 1) * 2 ^ off), attr, sc == .clu⟩
  let s := { s with m := { s.m with early := s.m.early ++ [e] } }
  if s.mirrors die attr then
    let s := s.settleLine die line
    match s.dieLine? die line with
    | some d => s.mirror die line attr d.current.1 d.current.2
    | none => s
  else if sc == .lot || sc == .clu then s
  else s.settleLine die line

/-! ### Actions of the scopes (R164) -/

/-- Dirty DRAM lines of a context on a die. -/
def State.dirtyLines (s : State) (die ctx : Nat) : List Nat :=
  s.linesOf die (fun l d => d.ctx == ctx && isDram l && s.lineDirty die l)

/-- Does a scope's release wait for the window of a bank (R164, R275)? -/
def State.releaseWaits (s : State) (die ctx : Nat) (sc : Scope) : Bool :=
  3 ≤ sc.code.toNat && (s.dirtyLines die ctx).any (fun l => !s.canClean die l)

/-- A release at PKG or SYS scope: every dirty DRAM line of a context on a die is written to its home, or waits for its bank. -/
def State.dieRelease (s : State) (die ctx : Nat) : State :=
  (s.dirtyLines die ctx).foldl (fun s l => if s.canClean die l then s.cleanLine die l else s.backWait die l) s

/-- A dirty line at an acquire keeps its dirty bytes, and its clean bytes come from the home again, so that R185 holds
for them too (log entry 16). -/
def State.refreshLine (s : State) (die line : Nat) : State :=
  match s.dieLine? die line with
  | none => s
  | some d =>
    let home := s.homeLine line
    s.setDieLine die line { d with copies := (d.copies.filter (fun x => x.dirty != 0)).map (fun x =>
      { x with data := BitVec.ofNat 1024 (overlay home x.data.toNat x.dirty.toNat) }) }

/-- An acquire at PKG or SYS scope: every clean DRAM line of a context on a die is invalidated, but for lines of CELL
pages. -/
def State.dieAcquire (s : State) (die ctx : Nat) : State :=
  (s.linesOf die (fun l d => d.ctx == ctx && isDram l && !d.cell)).foldl (fun s l =>
    let s := s.settleLine die l
    match s.dieLine? die l with
    | some d => if d.current.2 = 0 then (s.discardCopies die l (fun _ => true)).2 else s.refreshLine die l
    | none => s) s

/-- What a release at a scope does on the die of a core: the stores that the core sees become visible to the scope's
instance, and at PKG and SYS scope the dirty lines of the context go home (R164, R177, R184). -/
def State.scopeRelease (s : State) (core ctx : Nat) (sc : Scope) : State :=
  match sc with
  | .lot => s
  | .clu => s.spreadCluster (fun e => e.core == core)
  | .die => (s.m.early.filter (fun e => e.seenBy core)).foldl (fun s e => s.settleLine (dieOf core) e.line) s
  | _ => (s.m.early.filter (fun e => dieOf e.core == dieOf core)).foldl (fun s e => s.settleLine (dieOf core) e.line) s |>.dieRelease (dieOf core) ctx

/-- A release at a scope goes as far as the windows of its banks let it; is it complete (R164, R275)? -/
def State.releaseScope (s : State) (core ctx : Nat) (sc : Scope) : Bool × State :=
  let s := s.scopeRelease core ctx sc
  (!s.releaseWaits (dieOf core) ctx sc, s)

/-- What an acquire at a scope does on a die. -/
def State.scopeAcquire (s : State) (die ctx : Nat) (sc : Scope) : State :=
  if 3 ≤ sc.code.toNat then s.dieAcquire die ctx else s

/-- A line that must not be stale at its home, nor a copy of it on the die when the home's value becomes known there: its dirty
bytes are written back and its copies dropped (R180, R191, R196, R210). -/
def State.surrender (s : State) (die line : Nat) : State := s.evictLine die line

end Sys2Proof.Machine
end

