-- ==== Sys2Proof/Machine/Float.lean ====
section
/-! DEFINITION. Floating-point formats, exact values, rounding in the five modes, exact arithmetic, and conversion
(04_numbers.md R94 to R109). A finite value is kept exactly, as a sign, a natural mantissa and a power of two. -/

namespace Sys2Proof.Machine

/-! ### Formats (R94) -/

/-- Which encodings of the top exponent are special. -/
inductive FTop where
  | ieee        -- infinity and NaN
  | nanOnly     -- E4M3: only the all-ones mantissa is NaN
  | none        -- E2M1
deriving DecidableEq, Repr

/-- A format: exponent and mantissa widths, bias, top encodings, and whether it is an element format (R100). -/
structure FFmt where
  eb : Nat
  mb : Nat
  bias : Nat
  top : FTop
  elem : Bool
deriving DecidableEq, Repr

def fmtF32 : FFmt := ⟨8, 23, 127, .ieee, false⟩
def fmtF16 : FFmt := ⟨5, 10, 15, .ieee, false⟩
def fmtBF16 : FFmt := ⟨8, 7, 127, .ieee, false⟩
def fmtE4M3 : FFmt := ⟨4, 3, 7, .nanOnly, true⟩
def fmtE5M2 : FFmt := ⟨5, 2, 15, .ieee, true⟩
def fmtE2M1 : FFmt := ⟨2, 1, 1, .none, true⟩

/-- The format of a float type; other types do not reach it. -/
def fmtOf (t : Ty) : FFmt :=
  match t with
  | .f16 => fmtF16
  | .bf16 => fmtBF16
  | .e4m3 => fmtE4M3
  | .e5m2 => fmtE5M2
  | .e2m1 => fmtE2M1
  | _ => fmtF32

/-- An exact value: ±m × 2^e, an infinity, or a NaN. -/
inductive FVal where
  | nan (signalling : Bool)
  | inf (neg : Bool)
  | fin (neg : Bool) (m : Nat) (e : Int)
deriving DecidableEq, Repr

/-- Sign bit, exponent field and mantissa field of an encoding. -/
def FFmt.fields (f : FFmt) (x : Nat) : Bool × Nat × Nat :=
  (bit x (f.eb + f.mb), bits x (f.eb + f.mb - 1) f.mb, bits x (f.mb - 1) 0)

/-- ToReal of an encoding (R94, R95). -/
def FFmt.dec (f : FFmt) (x : Nat) : FVal :=
  let (s, e, m) := f.fields x
  let topE := e = 2 ^ f.eb - 1
  match f.top with
  | .ieee =>
    if topE then (if m = 0 then .inf s else .nan (!f.elem && !bit m (f.mb - 1)))
    else if e = 0 then .fin s m (1 - (f.bias : Int) - f.mb) else .fin s (2 ^ f.mb + m) ((e : Int) - f.bias - f.mb)
  | .nanOnly =>
    if topE && m = 2 ^ f.mb - 1 then .nan false
    else if e = 0 then .fin s m (1 - (f.bias : Int) - f.mb) else .fin s (2 ^ f.mb + m) ((e : Int) - f.bias - f.mb)
  | .none =>
    if e = 0 then .fin s m (1 - (f.bias : Int) - f.mb) else .fin s (2 ^ f.mb + m) ((e : Int) - f.bias - f.mb)

/-- The magnitude of the largest finite value, as an encoding. -/
def FFmt.maxEnc (f : FFmt) : Nat :=
  match f.top with
  | .ieee => (2 ^ f.eb - 1) * 2 ^ f.mb - 1
  | .nanOnly => 2 ^ (f.eb + f.mb) - 2
  | .none => 2 ^ (f.eb + f.mb) - 1

/-- The canonical NaN; E2M1 has none and gives +6 (R94, R103). -/
def FFmt.nanEnc (f : FFmt) : Nat :=
  match f.top with
  | .ieee => (2 ^ f.eb - 1) * 2 ^ f.mb + 2 ^ (f.mb - 1)
  | .nanOnly => 2 ^ (f.eb + f.mb) - 1
  | .none => 2 ^ (f.eb + f.mb) - 1

def FFmt.infEnc (f : FFmt) : Nat := (2 ^ f.eb - 1) * 2 ^ f.mb

def FFmt.signEnc (f : FFmt) (neg : Bool) (mag : Nat) : Nat := (if neg then 2 ^ (f.eb + f.mb) else 0) + mag

/-! ### Rounding (R99 to R101) -/

/-- The integer part of m × 2^e over 2^q: quotient, remainder and divisor. -/
def scaleTo (m : Nat) (e q : Int) : Nat × Nat × Nat :=
  if q ≤ e then (m * 2 ^ (e - q).toNat, 0, 1) else (m / 2 ^ (q - e).toNat, m % 2 ^ (q - e).toNat, 2 ^ (q - e).toNat)

/-- Does a magnitude k + r/d round away from zero? `u` is the 24-bit random number of RS (R101). -/
def roundsUp (rnd : Nat) (neg : Bool) (k r d u : Nat) : Bool :=
  if r = 0 then false
  else match rnd with
    | 0 => d < 2 * r || (2 * r == d && k % 2 == 1)
    | 1 => false
    | 2 => neg
    | 3 => !neg
    | _ =>
      -- frac24 counts from the lower neighbour, which for a negative value is the one away from zero
      if neg then !(u < (d - r) * 2 ^ 24 / d) else u < r * 2 ^ 24 / d

/-- A rounded value: magnitude k × 2^q, and whether it differs from the exact value. -/
def roundAt (rnd : Nat) (neg : Bool) (m : Nat) (e q : Int) (u : Nat) : Nat × Bool :=
  let (k, r, d) := scaleTo m e q
  (if roundsUp rnd neg k r d u then k + 1 else k, r != 0)

/-- Exponent of the leading bit of a nonzero m × 2^e. -/
def leadExp (m : Nat) (e : Int) : Int := (flog2 m : Int) + e

/-- The magnitude encoding of k × 2^q with k below 2^(mb + 2), unbounded above: the exponent field may pass the top. -/
def FFmt.encMag (f : FFmt) (k : Nat) (q : Int) : Nat :=
  if k < 2 ^ f.mb then k
  else if k < 2 ^ (f.mb + 1) then (q + f.mb + f.bias).toNat * 2 ^ f.mb + (k - 2 ^ f.mb)
  else (q + 1 + f.mb + f.bias).toNat * 2 ^ f.mb + (k / 2 - 2 ^ f.mb)

/-- A finite exact value rounded to a format: the encoding and the flags OF, UF, NX, SAT (R100). A value that exceeds
the largest finite magnitude saturates in an element format. -/
def FFmt.roundFin (f : FFmt) (rnd : Nat) (u : Nat) (neg : Bool) (m : Nat) (e : Int) : Nat × Nat :=
  if m = 0 then (f.signEnc neg 0, 0)
  else
    let le := leadExp m e
    let emin : Int := 1 - f.bias
    let q : Int := max (le - f.mb) (emin - f.mb)
    let (k, inexact) := roundAt rnd neg m e q u
    let mag := f.encMag k q
    if f.maxEnc < mag then
      if f.elem then (f.signEnc neg f.maxEnc, flagSAT ||| flagNX)
      else
        let toInf := rnd = 0 || (rnd = 2 && neg) || (rnd = 3 && !neg)
        (f.signEnc neg (if toInf then f.infEnc else f.maxEnc), flagOF ||| flagNX)
    else
      -- tiny: rounded with the exponent unbounded below, still below the smallest normal
      let (k', _) := roundAt rnd neg m e (le - f.mb) u
      let tiny := le < emin && !(le + 1 == emin && 2 ^ (f.mb + 1) ≤ k')
      (f.signEnc neg mag, flagIf inexact flagNX ||| flagIf (tiny && inexact) flagUF)

/-- Round of an exact value to a format of `CVT` or of the float instructions (R95, R100, R103). -/
def FFmt.round (f : FFmt) (rnd u : Nat) (v : FVal) : Nat × Nat :=
  match v with
  | .nan sg => (f.nanEnc, flagIf sg flagNV ||| flagIf (f.top == .none) flagNANS)
  | .inf neg => if f.elem then (f.signEnc neg f.maxEnc, flagSAT) else (f.signEnc neg f.infEnc, 0)
  | .fin neg m e => f.roundFin rnd u neg m e

/-! ### Exact arithmetic (R95, R96, R106) -/

/-- ±m × 2^e as a signed integer at the exponent x ≤ e. -/
def signedAt (neg : Bool) (m : Nat) (e x : Int) : Int :=
  let v : Int := (m * 2 ^ (e - x).toNat : Nat)
  if neg then -v else v

def FVal.isNan : FVal → Bool
  | .nan _ => true
  | _ => false

def FVal.isSig : FVal → Bool
  | .nan sg => sg
  | _ => false

def FVal.isNeg : FVal → Bool
  | .nan _ => false
  | .inf n => n
  | .fin n _ _ => n

def FVal.negate : FVal → FVal
  | .nan sg => .nan sg
  | .inf n => .inf (!n)
  | .fin n m e => .fin (!n) m e

/-- The exact sum. An exact zero sum of unlike signs is +0, or −0 under RD; `.nan true` marks an invalid operation. -/
def FVal.add (rd : Bool) (x y : FVal) : FVal :=
  match x, y with
  | .nan a, .nan b => .nan (a || b)
  | .nan a, _ => .nan a
  | _, .nan b => .nan b
  | .inf a, .inf b => if a == b then .inf a else .nan true
  | .inf a, _ => .inf a
  | _, .inf b => .inf b
  | .fin a m e, .fin b n g =>
    let h := min e g
    let v := signedAt a m e h + signedAt b n g h
    if v = 0 then .fin (if a == b then a else rd) 0 h
    else .fin (v < 0) v.natAbs h

/-- The exact product; 0 × ∞ is invalid. -/
def FVal.mul (x y : FVal) : FVal :=
  match x, y with
  | .nan a, .nan b => .nan (a || b)
  | .nan a, _ => .nan a
  | _, .nan b => .nan b
  | .inf a, .inf b => .inf (a != b)
  | .inf a, .fin b n _ => if n = 0 then .nan true else .inf (a != b)
  | .fin a m _, .inf b => if m = 0 then .nan true else .inf (a != b)
  | .fin a m e, .fin b n g => .fin (a != b) (m * n) (e + g)

/-- The exact product and sum; ∞ × 0 + c is invalid even when c is a quiet NaN (R106). -/
def FVal.fma (rd : Bool) (x y z : FVal) : FVal :=
  match FVal.mul x y with
  | .nan sg => .nan (sg || z.isSig)
  | p => FVal.add rd p z

/-- The order of two numbers, as x < y, x = y (R374); −0 equals +0. -/
def FVal.lt (x y : FVal) : Bool :=
  match x, y with
  | .inf a, .inf b => a && !b
  | .inf a, .fin _ _ _ => a
  | .fin _ _ _, .inf b => !b
  | .fin a m e, .fin b n g => let h := min e g; signedAt a m e h < signedAt b n g h
  | _, _ => false

def FVal.eqv (x y : FVal) : Bool :=
  match x, y with
  | .inf a, .inf b => a == b
  | .fin a m e, .fin b n g => let h := min e g; signedAt a m e h == signedAt b n g h
  | _, _ => false

/-- A number's order with −0 below +0, for FMIN and FMAX (R107). -/
def FVal.ltz (x y : FVal) : Bool :=
  FVal.lt x y || (FVal.eqv x y && x.isNeg && !y.isNeg)

/-- FMIN or FMAX: the encoding and the flags (R107, R379). -/
def FFmt.minMax (f : FFmt) (wantMax : Bool) (a b : Nat) : Nat × Nat :=
  let x := f.dec a
  let y := f.dec b
  let nv := flagIf (x.isSig || y.isSig) flagNV
  if x.isNan && y.isNan then (f.nanEnc, nv)
  else if x.isNan then (b, nv)
  else if y.isNan then (a, nv)
  else if wantMax then (if FVal.ltz x y then b else a, nv) else (if FVal.ltz y x then b else a, nv)

/-- The relation of FCMP's condition codes 0 to 7 (R373, R374). -/
def ccFloat (cc : Nat) (x y : FVal) : Bool :=
  if x.isNan || y.isNan then cc == 1 || cc == 6
  else match cc with
    | 0 => FVal.eqv x y
    | 1 => !FVal.eqv x y
    | 2 => FVal.lt x y
    | 3 => FVal.lt x y || FVal.eqv x y
    | 4 => FVal.lt y x
    | 5 => FVal.lt y x || FVal.eqv x y
    | 6 => false
    | _ => true

/-- NV of FCMP: a signalling NaN, or any NaN under LT, LE, GT and GE (R107). -/
def cmpFlags (cc : Nat) (x y : FVal) : Nat :=
  flagIf (x.isSig || y.isSig || ((x.isNan || y.isNan) && (2 ≤ cc && cc ≤ 5))) flagNV

/-! ### Square root (R380) -/

/-- The integer square root, bit by bit: n bits of the root. -/
def isqrt (x : Nat) : Nat → Nat → Nat
  | 0, r => r
  | n + 1, r => let t := r + 2 ^ n; isqrt x n (if t * t ≤ x then t else r)

/-- √x as an exact value or one whose last bit is sticky, far below any rounding position. -/
def FVal.sqrt (x : FVal) : FVal :=
  match x with
  | .nan sg => .nan sg
  | .inf neg => if neg then .nan true else .inf false
  | .fin neg m e =>
    if m = 0 then .fin neg 0 e
    else if neg then .nan true
    else
      -- scale to an even exponent with 160 more bits, then append a sticky bit
      let (m, e) := if e % 2 = 0 then (m, e) else (2 * m, e - 1)
      let w := m * 2 ^ 160
      let r := isqrt w 110 0
      if r * r = w then .fin false r (e / 2 - 80) else .fin false (2 * r + 1) (e / 2 - 81)

/-! ### Integers and the ternary format (R98, R103) -/

/-- An integer as an exact value. -/
def FVal.ofInt (v : Int) : FVal := .fin (v < 0) v.natAbs 0

/-- A value rounded to an integer: the integer, whether it changed; none for infinities and NaN. -/
def FVal.toIntRound (rnd u : Nat) (v : FVal) : Option (Int × Bool) :=
  match v with
  | .fin neg m e =>
    let (k, inexact) := roundAt rnd neg m e 0 u
    some (if neg then -(k : Int) else k, inexact)
  | _ => none

/-- Conversion to an integer type: out of range gives the nearest bound, NaN gives 0, both with NV (R103). -/
def toIntTy (t : Ty) (rnd u : Nat) (v : FVal) : Nat × Nat :=
  let n := t.bits
  let lo : Int := if t.signed then -(2 ^ (n - 1) : Int) else 0
  let hi : Int := if t.signed then (2 ^ (n - 1) : Int) - 1 else (2 ^ n : Int) - 1
  match v with
  | .nan _ => (0, flagNV)
  | .inf neg => (wrapI (if neg then lo else hi) n, flagNV)
  | .fin _ _ _ =>
    match FVal.toIntRound rnd u v with
    | some (k, inexact) =>
      if k < lo then (wrapI lo n, flagNV) else if hi < k then (wrapI hi n, flagNV)
      else (wrapI k n, flagIf inexact flagNX)
    | none => (0, flagNV)

/-- The code of a T2 value (R97). -/
def t2Code (v : Int) : Nat := if v = 0 then 0 else if 0 < v then 1 else 3

/-- The value of a T2 code and its flag (R97). -/
def t2Val (x : Nat) : Int × Nat :=
  match x % 4 with
  | 0 => (0, 0)
  | 1 => (1, 0)
  | 3 => (-1, 0)
  | _ => (0, flagTRES)

/-- Conversion to T2 (R98): rounding, then clamping, with SAT where the clamp changes the value. A finite value that
differs from the result sets NX as well (R100; log entry 45); a signalling NaN sets NV (R95). -/
def toT2 (rnd u : Nat) (v : FVal) : Nat × Nat :=
  match v with
  | .nan sg => (0, flagNANS ||| flagIf sg flagNV)
  | .inf neg => (if neg then 3 else 1, flagSAT)
  | .fin _ _ _ =>
    match FVal.toIntRound rnd u v with
    | some (k, inexact) =>
      let cut := k < -1 || 1 < k
      (t2Code k, flagIf cut flagSAT ||| flagIf (inexact || cut) flagNX)
    | none => (0, flagNANS)

/-! ### Conversion (R93, R103, R363) -/

def Ty.isFloat (t : Ty) : Bool := [Ty.f32, .f16, .bf16, .e4m3, .e5m2, .e2m1].contains t

/-- CVT of the bits of a source type: result bits and flags. A conversion of T2 to T2 returns the code unchanged, 0b10
with TRES (R363, R97; log entry 45). -/
def cvtVal (dst src : Ty) (rnd u x : Nat) : Nat × Nat :=
  let x := wrapN x src.bits
  if src = .e8m0 then
    if x = 255 then (fmtF32.nanEnc, 0) else fmtF32.round 0 0 (.fin false 1 ((x : Int) - 127))
  else if src = .t2 then
    let (v, fl) := t2Val x
    if dst = .t2 then (x, fl)
    else if Ty.isFloat dst then
      let (r, g) := (fmtOf dst).round rnd u (FVal.ofInt v)
      (r, g ||| fl)
    else
      let (r, g) := toIntTy dst rnd u (FVal.ofInt v)
      (r, g ||| fl)
  else if Ty.isFloat src then
    let v := (fmtOf src).dec x
    if dst = src then
      if v.isNan then ((fmtOf dst).nanEnc, flagIf v.isSig flagNV) else (x, 0)
    else if dst = .t2 then toT2 rnd u v
    else if Ty.isFloat dst then (fmtOf dst).round rnd u v
    else toIntTy dst rnd u v
  else
    let v : Int := if src.signed then sextI x src.bits else (x : Nat)
    if dst = .t2 then toT2 rnd u (FVal.ofInt v)
    else if Ty.isFloat dst then (fmtOf dst).round rnd u (FVal.ofInt v)
    else (wrapI v dst.bits, 0)

end Sys2Proof.Machine
end

