-- ==== Sys2Proof/Machine/IntAlu.lean ====
section
/-! DEFINITION. The integer, bitwise, shift, bit-field, move and compare instructions (14_ref_a_c.md R340, R346, R350;
15_ref_d_i.md R381 to R387; 16_ref_j_r.md R396, R397, R404 to R407, R411, R420; 17_ref_s_z.md R425 to R428, R450). -/

namespace Sys2Proof.Machine

/-! ### Results of operations on numbers (04_numbers.md R93) -/

/-- The integer that n bits stand for by a type's signedness. -/
def Ty.toInt (t : Ty) (x : Nat) : Int := if t.signed then sextI x t.bits else (wrapN x t.bits : Nat)

def minTy (t : Ty) (a b : Nat) : Nat := if Ty.toInt t a ≤ Ty.toInt t b then a else b
def maxTy (t : Ty) (a b : Nat) : Nat := if Ty.toInt t b ≤ Ty.toInt t a then a else b

/-- Wrap(p >> n, n) of the exact product by the type's signedness (R387). -/
def mulHigh (t : Ty) (a b : Nat) : Nat := wrapI ((Ty.toInt t a * Ty.toInt t b) / (2 ^ t.bits : Int)) t.bits

/-- The relation of a condition code 0 to 5 on integers (R129). -/
def ccInt (cc : Nat) (a b : Int) : Bool :=
  match cc with
  | 0 => a == b
  | 1 => a != b
  | 2 => a < b
  | 3 => a ≤ b
  | 4 => b < a
  | _ => b ≤ a

/-- BFX (R346). -/
def bfxVal (signed : Bool) (a b : Nat) : Nat :=
  let pos := bits b 7 0
  let len := bits b 15 8
  if 32 ≤ pos || len = 0 then 0
  else
    let len := min len (32 - pos)
    let f := bits a (pos + len - 1) pos
    if signed then sextN f len 32 else f

/-- BFI (R346). -/
def bfiVal (d a b : Nat) : Nat :=
  let pos := bits b 7 0
  let len := bits b 15 8
  if 32 ≤ pos || len = 0 then d
  else
    let len := min len (32 - pos)
    let m := (2 ^ len - 1) * 2 ^ pos
    andNot d m ||| ((a * 2 ^ pos) &&& m)

/-- SHL (R428). -/
def shlVal (n a s : Nat) : Nat := if n ≤ s then 0 else wrapN (a * 2 ^ s) n

/-- SHR: arithmetic for I types, logical for the others (R428). -/
def shrVal (t : Ty) (a s : Nat) : Nat :=
  if t.signed then wrapI (sextI a t.bits / (2 ^ min s (t.bits - 1) : Int)) t.bits
  else if t.bits ≤ s then 0 else wrapN a t.bits / 2 ^ s

/-- ROT: left by b mod n (R420). -/
def rotVal (n a b : Nat) : Nat :=
  let s := b % n
  wrapN (wrapN a n * 2 ^ s) n + wrapN a n / 2 ^ (n - s)

/-- The 64-bit value of the funnel forms: a high, c low (R428). -/
def funnelVal (a c : Nat) : Nat := wrapN a 32 * 2 ^ 32 + wrapN c 32

def shfHiVal (a c s : Nat) : Nat := bits (funnelVal a c * 2 ^ (s % 64)) 63 32
def shfLoVal (a c s : Nat) : Nat := bits (funnelVal a c / 2 ^ (s % 64)) 31 0

/-- LOP3: bit by bit through the truth table (R397). -/
def lop3Val (n table a b c : Nat) : Nat :=
  sumBits n (fun i => bit table ((bit c i).toNat * 4 + (bit b i).toNat * 2 + (bit a i).toNat))

/-! ### Frames of the formats -/

/-- A two-operand instruction of one type: D from a and b. -/
def State.alu2 (s : State) (f : FmtA) (dflt : Ty) (op : Ty → Nat → Nat → Nat) : Out :=
  let ty := f.ty dflt
  s.each true (usesA f ty true false) f.p (fun l a =>
    l.setVal a f.d ty.bits ty.signed (op ty (l.val a f.a ty.bits) (l.bVal a f ty)))

/-- A one-operand instruction of one type: D from a. -/
def State.alu1 (s : State) (f : FmtA) (dflt : Ty) (op : Ty → Nat → Nat) : Out :=
  let ty := f.ty dflt
  s.each true (usesA f ty false false) f.p (fun l a =>
    l.setVal a f.d ty.bits ty.signed (op ty (l.val a f.a ty.bits)))

/-- The accumulate form of a three-operand instruction: D is also the addend. -/
def State.aluAcc (s : State) (f : FmtA) (dflt : Ty) (op : Ty → Nat → Nat → Nat → Nat) : Out :=
  let ty := f.ty dflt
  s.each true (usesA f ty true false) f.p (fun l a =>
    l.setVal a f.d ty.bits ty.signed (op ty (l.val a f.a ty.bits) (l.bVal a f ty) (l.val a f.d ty.bits)))

/-- The four-operand form: the C register is the third source. -/
def State.aluC (s : State) (f : FmtA) (dflt : Ty) (op : Ty → Nat → Nat → Nat → Nat) : Out :=
  let ty := f.ty dflt
  s.each true (usesA f ty true true) f.p (fun l a =>
    l.setVal a f.d ty.bits ty.signed (op ty (l.val a f.a ty.bits) (l.bVal a f ty) (l.val a f.cReg ty.bits)))

/-- The amount of a shift: 32 bits of b or of the immediate (R420, R427). -/
def Lot.shiftAmount (l : Lot) (a : Agent) (f : FmtA) : Nat :=
  match f.immOf with
  | some w => w.toNat
  | none => l.val a f.b 32

/-- A shift: D and A have the type's width, B is one register. -/
def State.aluShift (s : State) (f : FmtA) (op : Ty → Nat → Nat → Nat) : Out :=
  let ty := f.ty .n32
  let uses := [useW f.d ty.bits, useW f.a ty.bits] ++ (if f.immOf.isNone then [use1 f.b] else [])
  s.each true uses f.p (fun l a =>
    l.setVal a f.d ty.bits ty.signed (op ty (l.val a f.a ty.bits) (l.shiftAmount a f)))

/-- A count of a B32 or B64 operand into one register (R350, R411). -/
def State.aluCount (s : State) (f : FmtA) (op : Nat → Nat → Nat) : Out :=
  let ty := f.ty .b32
  s.each true [use1 f.d, useW f.a ty.bits] f.p (fun l a =>
    l.setVal a f.d 32 false (op ty.bits (l.val a f.a ty.bits)))

/-! ### Integer arithmetic -/

/-- IADD (R383). -/
def execIadd (f : FmtA) (s : State) : Out := s.alu2 f .i32 (fun t a b => wrapN (a + b) t.bits)

/-- ISUB (R383). -/
def execIsub (f : FmtA) (s : State) : Out := s.alu2 f .i32 (fun t a b => wrapI ((a : Int) - (b : Int)) t.bits)

/-- INEG (R383). -/
def execIneg (f : FmtA) (s : State) : Out := s.alu1 f .i32 (fun t a => wrapI (-(a : Int)) t.bits)

/-- IMIN (R382). -/
def execImin (f : FmtA) (s : State) : Out := s.alu2 f .i32 minTy

/-- IMAX (R382). -/
def execImax (f : FmtA) (s : State) : Out := s.alu2 f .i32 maxTy

/-- IABS (R382): the most negative number returns itself. -/
def execIabs (f : FmtA) (s : State) : Out :=
  s.alu1 f .i32 (fun t a => wrapI ((Ty.toInt t a).natAbs : Int) t.bits)

/-- IMUL (R387). -/
def execImul (f : FmtA) (s : State) : Out := s.alu2 f .i32 (fun t a b => wrapN (a * b) t.bits)

/-- IMULH (R387). -/
def execImulh (f : FmtA) (s : State) : Out := s.alu2 f .i32 mulHigh

/-- IMULH.N32 (R387). -/
def execImulhN32 (f : FmtA) (s : State) : Out := s.alu2 f .n32 (fun _ a b => mulHigh .n32 a b)

/-- IMAD, accumulate form (R386). -/
def execImad (f : FmtA) (s : State) : Out := s.aluAcc f .i32 (fun t a b d => wrapN (a * b + d) t.bits)

/-- IMAD, four-operand form (R386). -/
def execImad4 (f : FmtA) (s : State) : Out := s.aluC f .i32 (fun t a b c => wrapN (a * b + c) t.bits)

/-! ### Comparison -/

/-- Writes PD and, where it is named, the complement PC (R385). -/
def Lot.setCmp (l : Lot) (a : Agent) (f : FmtP) (v : Bool) : Lot :=
  let l := l.setPred a f.pd.toNat v
  match f.m with
  | some m => if m.pc = 0 then l else l.setPred a m.pc.toNat (!v)
  | none => l

/-- Operand b of format P. -/
def Lot.bValP (l : Lot) (a : Agent) (f : FmtP) (ty : Ty) : Nat :=
  match f.m.bind (fun m => m.imm) with
  | some w => immVal ty w
  | none => l.val a f.b ty.bits

def usesP (f : FmtP) (ty : Ty) : List Use :=
  [useW f.a ty.bits] ++ (if (f.m.bind (fun m => m.imm)).isNone then [useW f.b ty.bits] else [])

/-- A comparison of integers at a type. -/
def State.cmpInt (s : State) (f : FmtP) (ty : Ty) : Out :=
  s.each true (usesP f ty) f.p (fun l a =>
    l.setCmp a f (ccInt f.cc.toNat (Ty.toInt ty (l.val a f.a ty.bits)) (Ty.toInt ty (l.bValP a f ty))))

/-- ICMP with 32-bit registers, or with the M word's type (R384, R385). -/
def execIcmp (f : FmtP) (s : State) : Out :=
  s.cmpInt f (match f.m with
    | some m => m.ty
    | none => if f.s then .i32 else .n32)

/-- ICMP with 64-bit pairs (R384, X = 1). -/
def execIcmp64 (f : FmtP) (s : State) : Out := s.cmpInt f (if f.s then .i64 else .n64)

/-! ### Bitwise -/

/-- AND (R340). -/
def execAnd (f : FmtA) (s : State) : Out := s.alu2 f .b32 (fun _ a b => a &&& b)

/-- OR (R407). -/
def execOr (f : FmtA) (s : State) : Out := s.alu2 f .b32 (fun _ a b => a ||| b)

/-- XOR (R450). -/
def execXor (f : FmtA) (s : State) : Out := s.alu2 f .b32 (fun _ a b => a ^^^ b)

/-- NOT (R407). -/
def execNot (f : FmtA) (s : State) : Out := s.alu1 f .b32 (fun t a => 2 ^ t.bits - 1 - a)

/-- LOP3 (R397). -/
def execLop3 (f : FmtLop3) (s : State) : Out :=
  let n := f.ty.bits
  s.each true [useW f.d n, useW f.a n, useW f.b n, useW f.c n] f.p (fun l a =>
    l.setVal a f.d n false (lop3Val n f.table.toNat (l.val a f.a n) (l.val a f.b n) (l.val a f.c n)))

/-- POPC (R411). -/
def execPopc (f : FmtA) (s : State) : Out := s.aluCount f (fun n a => popCount a n)

/-- CLZ (R350). -/
def execClz (f : FmtA) (s : State) : Out := s.aluCount f (fun n a => leadZeros a n)

/-- BREV (R350). -/
def execBrev (f : FmtA) (s : State) : Out := s.alu1 f .b32 (fun t a => revBits a t.bits)

/-- BFX (R346). -/
def execBfx (f : FmtA) (s : State) : Out := s.alu2 f .n32 (fun t a b => bfxVal t.signed a b)

/-- BFI reads its own destination (R346). In a barker clause d is the whole scalar, so that the bits outside the field
stay as they are (log entry 107). -/
def execBfi (f : FmtA) (s : State) : Out :=
  let ty := f.ty .n32
  s.each true (usesA f ty true false) f.p (fun l a =>
    let n := if a.isBarker then 64 else 32
    l.setVal a f.d n false (bfiVal (l.val a f.d n) (l.val a f.a 32) (l.bVal a f ty)))

/-! ### Shifts -/

/-- SHL (R427, R428). -/
def execShl (f : FmtA) (s : State) : Out := s.aluShift f (fun t a b => shlVal t.bits a b)

/-- SHR (R427, R428). -/
def execShr (f : FmtA) (s : State) : Out := s.aluShift f shrVal

/-- ROT (R420). -/
def execRot (f : FmtA) (s : State) : Out := s.aluShift f (fun t a b => rotVal t.bits a b)

/-- SHF.HI (R427, R428). -/
def execShfHi (f : FmtA) (s : State) : Out := s.aluC f .n32 (fun _ a b c => shfHiVal a c b)

/-- SHF.LO (R427, R428). -/
def execShfLo (f : FmtA) (s : State) : Out := s.aluC f .n32 (fun _ a b c => shfLoVal a c b)

/-! ### Moves -/

/-- A move of a width: the immediate form reads no register. -/
def State.move (s : State) (f : FmtA) (ty : Ty) : Out :=
  match f.immOf with
  | some w => s.each true [useW f.d ty.bits] f.p (fun l a => l.setVal a f.d ty.bits false (immVal ty w))
  | none => s.each true [useW f.d ty.bits, useW f.a ty.bits] f.p (fun l a =>
      l.setVal a f.d ty.bits false (l.val a f.a ty.bits))

/-- MOV (R404). -/
def execMov (f : FmtA) (s : State) : Out := s.move f .b32

/-- MOV.B64 (R404). -/
def execMovB64 (f : FmtA) (s : State) : Out := s.move f .b64

/-- MOVI (R405): the barker form sign-extends to 64 bits. -/
def execMovi (p : BitVec 3) (d : BitVec 7) (imm : BitVec 16) (s : State) : Out :=
  s.each true [use1 d] p (fun l a => l.setVal a d 32 true (sextN imm.toNat 16 32))

/-- LDI with one word (R396). -/
def execLdi (p : BitVec 3) (d : BitVec 7) (imm : BitVec 32) (s : State) : Out :=
  s.each true [use1 d] p (fun l a => l.setVal a d 32 false imm.toNat)

/-- LDI with two words (R396). -/
def execLdi64 (p : BitVec 3) (d : BitVec 7) (imm : BitVec 64) (s : State) : Out :=
  s.each true [use2 d] p (fun l a => l.setVal a d 64 false imm.toNat)

/-- SEL acts in every active lane; PRED is its selector (R425, R426). -/
def execSel (f : FmtA) (s : State) : Out :=
  let ty := f.ty .b32
  s.each true (usesA f ty true false) 0 (fun l a =>
    l.setVal a f.d ty.bits false (if l.pred a f.p.toNat then l.val a f.a ty.bits else l.bVal a f ty))

end Sys2Proof.Machine
end

