-- ==== Sys2Proof/Machine/Access.lean ====
section
/-! DEFINITION. Split transactions: what an instruction issues, the checks of the core through the operand log, the order
of a lane's accesses, flows and fences, and how a result or a refusal comes back (03_issue.md R85 to R89; 07_ordering.md
R179 to R194, R198; 11_faults.md R284 to R286). -/

namespace Sys2Proof.Machine

/-! ### Classes of accesses (R85) -/

/-- A result is due. -/
def Acc.hasResult (a : Acc) : Bool :=
  match a.kind with
  | .ld | .tq | .rfetch | .bid | .peek | .recycle | .close | .lotdone => true
  | .atom => a.dst.isSome
  | _ => false

/-- It only reads, for REL fences, which hold later writes only (R183). -/
def AccKind.onlyReads (k : AccKind) : Bool := [AccKind.ld, .tq, .rfetch, .peek, .cpref, .lotdone].contains k

/-- Counts in no counter. -/
def AccKind.uncounted (k : AccKind) : Bool := k == .cpref

/-- An access by place names its vault and an offset in it, no VA (R421). -/
def AccKind.byPlace (k : AccKind) : Bool := k == .rsend || k == .rfetch

/-- Bytes of the line that a cache operation acts on: 64 for a host line (R354). -/
def Acc.lineBytes (a : Acc) : Nat := if region a.pa = 2 then 64 else 128

/-- Bytes that an access names: a whole line for cache operations (R354). -/
def Acc.span (a : Acc) : Nat × Nat :=
  if a.kind.isCacheOp then (a.va / a.lineBytes * a.lineBytes, a.lineBytes) else (a.va, a.size)

/-- The same bytes by physical address, once it is known; an access by place names its vault (R421). -/
def Acc.paSpan (a : Acc) : Nat × Nat :=
  if a.kind.byPlace then (vaultPa a.pa a.va, a.size)
  else if a.kind.isCacheOp then (a.pa / a.lineBytes * a.lineBytes, a.lineBytes) else (a.pa, a.size)

/-- Has it not yet been performed? -/
def Phase.pending (p : Phase) : Bool :=
  match p with
  | .walk | .ready | .granted | .sent | .replay _ => true
  | _ => false

def overlaps (a m b n : Nat) : Bool := a < b + n && b < a + m

/-- May two accesses of one lane touch one location? Two addresses of one location agree in their low 16 bits, since
pages are of 64 KiB or more; scratchpad accesses of one lane are kept in order (R181, R192). -/
def mayMeet (a b : Acc) : Bool :=
  if a.sp == .l || b.sp == .l then a.sp == b.sp
  else
    let x := a.span
    let y := b.span
    overlaps (x.1 % 65536) x.2 (y.1 % 65536) y.2

/-- Does an earlier access name bytes of a later one? A pending entry of the operand log is compared by address, with an access by
place by physical address (R285); two accesses past the checks by physical address (R181); before that they may meet. -/
def Acc.meetsNow (x a : Acc) : Bool :=
  if x.phase.isReplay then
    if x.kind.byPlace || a.kind.byPlace then
      x.sp != .l && a.sp != .l && (if a.phase == .walk && !a.kind.byPlace then mayMeet x a
        else overlaps x.paSpan.1 x.paSpan.2 a.paSpan.1 a.paSpan.2)
    else (x.sp == .l) == (a.sp == .l) && overlaps x.span.1 x.span.2 a.span.1 a.span.2
  else if x.sp == .l || a.sp == .l || x.phase == .walk || a.phase == .walk then mayMeet x a
  else overlaps x.paSpan.1 x.paSpan.2 a.paSpan.1 a.paSpan.2

/-! ### Issue -/

/-- What one lane sends. -/
structure Req where
  t : Agent
  va : Nat
  data : Nat
  cmp : Nat
deriving DecidableEq, Repr

/-- Adds to one of the counters LD, ST, CP, TL of a warp (R85). -/
def Warp.bump (x : Warp) (cls : Nat) : Warp :=
  match cls with
  | 0 => { x with ld := x.ld + 1 }
  | 1 => { x with st := x.st + 1 }
  | 2 => { x with cp := x.cp + 1 }
  | _ => { x with tl := x.tl + 1 }

def Warp.drop (x : Warp) (cls : Nat) : Warp :=
  match cls with
  | 0 => { x with ld := x.ld - 1 }
  | 1 => { x with st := x.st - 1 }
  | 2 => { x with cp := x.cp - 1 }
  | _ => { x with tl := x.tl - 1 }

/-- Raises a counter of every home warp of a list of agents, once each (R85). -/
def State.countUp (s : State) (c b cls : Nat) (as : List Agent) : State :=
  ((as.map (fun a => a.w)).eraseDups).foldl (fun s w => s.onWarp c b w (fun x => x.bump cls)) s

def State.countDown (s : State) (c b w cls : Nat) : State := s.onWarp c b w (fun x => x.drop cls)

/-- Fences of a lane that hold an access of a kind (R183). -/
def State.gatesOf (s : State) (t : LaneId) (k : AccKind) : List Nat :=
  (s.fences.filter (fun f => f.t == t && (f.kind != .rel || !k.onlyReads))).map (fun f => f.id)

/-- One access of one lane: it comes after the lane's earlier accesses that it may meet, after those of lower lanes of the
same instruction (R180, R207, R224), and behind the lane's fences. -/
def State.issueOne (s : State) (proto : Acc) (r : Req) : State :=
  let (id, s) := s.fresh
  let t : LaneId := ⟨proto.t.core, proto.t.bctx, r.t.w, r.t.l⟩
  let a : Acc := { proto with id := id, t := t, va := r.va, data := r.data, cmp := r.cmp, gates := s.gatesOf t proto.kind }
  let after := (s.accs.filter (fun x => (x.t == t || (x.op == a.op && a.kind != .ld)) && mayMeet x a)).map (fun x => x.id)
  { s with accs := s.accs ++ [{ a with after := after }] }

/-- The fields of an access that do not depend on the lane. -/
def protoAcc (v : View) (op : Nat) (k : AccKind) (iw : List Word) (sp : Space) (flow size : Nat) (dst : Option (Nat × Ty)) : Acc :=
  { id := 0, op := op, t := ⟨v.i.core, v.i.bctx, 0, 0⟩, ctx := v.l.ctx, kind := k, hdr := v.i.hdr, iw := iw, sp := sp,
    flow := flow, va := 0, size := size, scope := .lot, order := .relaxed, aop := .add, ty := .b32, data := 0, cmp := 0,
    dst := dst, aux := 0, phase := .walk, pa := 0, attr := 0, modid := 0, after := [], gates := [], credit := flow == 0,
    delivered := false, half := 0, link := 0, back := none, lim := 128 }

/-- Writes that an agent has made or observed and that are not yet performed; the table writes of a TBIND are among them (R184,
R241). -/
def State.pendingOf (s : State) (c b : Nat) (a : Agent) : List Nat :=
  match s.lot? c b with
  | none => []
  | some l =>
    let obs := (l.thr a).obs
    (s.accs.filter (fun x => (x.t == ⟨c, b, a.w, a.l⟩ && !x.kind.onlyReads) || obs.contains x.id)).map (fun x => x.id)
    ++ (l.kicks.filter (fun k => k.kind == .tbind && (k.agent.w == a.w || obs.contains k.id))).map (fun k => k.id)

/-- An access kept with REPLAY for which nothing of its lot waits any more: the lot ends, is being saved, or drains for its dump
(R90, R288, R303; log entry 115). -/
def State.deferred (s : State) (x : Acc) : Bool :=
  x.phase.isReplay && match s.lot? x.t.core x.t.bctx with
  | some l => l.ending || l.phase == .halted || l.saving
  | none => false

/-- Is a write with an identifier still to be performed, or kept for a re-issue that is to be waited for? -/
def State.unperformed (s : State) (c b id : Nat) : Bool :=
  s.accs.any (fun x => x.id == id && !s.deferred x) || (match s.lot? c b with
    | some l => l.kicks.any (fun k => k.id == id)
    | none => false)

/-- Is a write covered by a release of a lane at a scope? An RSEND only where one instance of the scope holds issuer and
vault (R178, R424). -/
def Acc.inScope (x : Acc) (core : Nat) (sc : Scope) : Bool :=
  x.kind != .rsend || 3 ≤ sc.code.toNat || (sc == .die && x.pa / 16 == dieOf core)

/-- Does an access read, as an acquire needs it: it has a result, or is an atomic that acquires (R183, R187)? -/
def Acc.acquires (a : Acc) : Bool := a.hasResult || ((a.kind == .atom || a.kind == .red) && (a.order == .acq || a.order == .ar))

/-- Starts a fence of a lane: an acquire waits for the lane's reads, a release for all its accesses and for the writes that
it has observed (R183, R184). -/
def State.startFence (s : State) (t : LaneId) (kind : FenceKind) (sc : Scope) : State :=
  let (id, s) := s.fresh
  let seen := if kind == .acq then [] else s.pendingOf t.core t.bctx (laneAgent t)
  let covers := (s.accs.filter (fun x =>
    ((x.t == t && (kind != .acq || x.acquires)) || seen.contains x.id) && x.inScope t.core sc)).map (fun x => x.id)
    ++ seen.filter (fun i => !s.accs.any (fun x => x.id == i))
  { s with fences := s.fences ++ [⟨id, t, kind, sc, covers⟩] }

/-- Agents acquire at LOT scope from others of the lot: they have observed what those have made or observed, and their later
accesses wait until it is performed at LOT scope; an RSEND never is (R184, R188, R424; log entry 18). -/
def State.acquireFrom (s : State) (c b : Nat) (woken : List Agent) (src : Agent → Bool) : State :=
  match s.lot? c b with
  | none => s
  | some l =>
    let ids := ((l.allAgents.filter src).flatMap (fun a => s.pendingOf c b a)).eraseDups
    if ids.isEmpty then s
    else
      let live (l : Lot) (a : Agent) : List Nat := (l.thr a).obs.filter (fun i => s.unperformed c b i)
      let s := s.onLot c b (fun l => woken.foldl (fun l a =>
        l.setThr a { l.thr a with obs := (live l a ++ ids).eraseDups }) l)
      let held := (s.accs.filter (fun x => ids.contains x.id && x.kind != .rsend)).map (fun x => x.id)
      if held.isEmpty then s
      else woken.foldl (fun s a =>
        let (id, s) := s.fresh
        { s with fences := s.fences ++ [⟨id, ⟨c, b, a.w, a.l⟩, .acq, .lot, held⟩] }) s

/-- The reserved waiting-table entries that an instruction uses leave the running clause's reserve; those that its lanes'
common lines save stay reserved until the clause completes (R86, R89). -/
def State.useReserve (s : State) (n : Nat) : State :=
  match s.issuer? s.active with
  | some i => s.setIssuer s.active (some { i with reserved := i.reserved - n })
  | none => s

/-- Issues one instruction's accesses. They count once for each home warp with a participant (R85); a warp whose active
threads are all guarded off would count and fall at once. -/
def State.issueAll (s : State) (v : View) (proto : Acc) (reqs : List Req) : State :=
  let s := reqs.foldl (fun s r =>
    let t : LaneId := ⟨v.i.core, v.i.bctx, r.t.w, r.t.l⟩
    let cell := proto.kind == .bid || proto.kind == .recycle || proto.kind == .close
    -- ORDER REL and AR, and the cell instructions, are a release followed by the access (R187, R224)
    let s := if cell || proto.order == .rel || proto.order == .ar then s.startFence t .rel (if cell then .pkg else proto.scope) else s
    let s := s.issueOne proto r
    if cell || proto.order == .acq || proto.order == .ar then s.startFence t .acq (if cell then .pkg else proto.scope) else s) s
  let s := s.useReserve ((reqs.map (fun r => r.va / 128)).eraseDups).length
  if proto.kind.uncounted then s
  else s.countUp v.i.core v.i.bctx (if proto.hasResult then 0 else 1) (reqs.map (fun r => r.t))

/-! ### The core's checks (R150, R172, R198) -/

/-- Does an access of a context on a core meet a range lock? Answers the entry's tag (R198). -/
def State.lockHit (s : State) (a : Acc) : Option Nat :=
  let locks := (s.core a.t.core).locks.filter (fun k => k.ctx == a.ctx && !a.kind.isCell)
  let x := a.span
  let writes := [AccKind.st, .atom, .red, .cinvDiscard, .cdisc].contains a.kind
  (locks.find? (fun k =>
    (k.dst || writes) &&
    (if a.kind == .rsend || a.kind == .rfetch then k.sp == 1 && k.dst && overlaps (vaultPa a.pa a.va) a.size k.pa k.len
     else match a.sp with
      | .l => k.sp == 2 && k.bctx == a.t.bctx && overlaps x.1 x.2 k.base k.len
      | .v | .g => k.sp != 2 && overlaps x.1 x.2 k.base k.len))).map (fun k => k.tag)

/-- The stop of a failed check (R285). -/
def Acc.stop (a : Acc) (code detail tag : Nat) : Stop := ⟨code, detail, tag, a.va, true, a.hdr⟩

/-- Alignment (R150): cache operations have none. -/
def Acc.misaligned (a : Acc) : Bool := !a.kind.isCacheOp && a.kind != .tq && a.kind != .lotdone && a.va % a.size != 0

/-- What the core's checks answer. -/
inductive Checked where
  | pass (pa attr modid : Nat)
  | bad (code detail tag : Nat)
deriving DecidableEq, Repr

/-- Checks of one access: alignment, then the share or the translation with R172, then the range locks. -/
def State.checkAcc (s : State) (a : Acc) : Checked × State :=
  let locks (s : State) (a : Acc) : Checked × State :=
    match (if a.kind == .cpref || a.kind == .tq || a.kind == .lotdone then none else s.lockHit a) with
    | some tag => (.bad 0x13 0 tag, s)
    | none => (.pass a.pa a.attr a.modid, s)
  if a.misaligned then (.bad 0x10 1 0, s)
  else match a.kind with
  | .tq | .lotdone => (.pass 0 0 0, s)
  | .rsend | .rfetch => locks s a
  | _ =>
    if a.sp == .l then
      match s.lot? a.t.core a.t.bctx with
      | none => (.bad 0x11 0 0, s)
      | some l => if l.d.scr * 1024 < a.va + a.size then (.bad 0x11 0 0, s) else locks s a
    else
      match s.translate a.t.core a.ctx a.va with
      | (.bad code detail, s) => (.bad code detail 0, s)
      | (.ok pa attr modid _, s) =>
        if a.kind.isCacheOp && region pa = 3 then (.bad 0x12 0 0, s)
        else match accFault a.kind a.sp pa attr with
        | some code => (.bad code 0 0, s)
        | none => locks s { a with pa := pa, attr := attr, modid := modid }

/-! ### Order of performing (R181, R190, R193) -/

/-- The destination home of an access, for flows: stack, vault, host-line cache or reorder buffer (R190). -/
def Acc.home (a : Acc) : Nat :=
  if a.kind == .rsend || a.kind == .rfetch then 100000 + a.pa / 16 else homeOf a.pa

/-- Does an access go to all 32 stacks: an alias store with PAGE = 1 (R259)? -/
def Acc.toAllStacks (a : Acc) : Bool := a.kind == .st && 8 ≤ region a.pa && bit a.pa 46

/-- Do two accesses share a destination home (R190)? -/
def Acc.sameHome (x a : Acc) : Bool :=
  x.home == a.home || (x.toAllStacks && a.home < 32) || (a.toAllStacks && x.home < 32)

/-- Does an earlier access of the same flow stand before it (R190, R193)? -/
def flowBehind (a x : Acc) : Bool :=
  a.flow != 0 && a.sp != .l && x.sp != .l && x.id < a.id && x.flow == a.flow && x.t.core == a.t.core && x.ctx == a.ctx && x.phase.pending
  && (match x.phase with
      | .replay _ => x.t.bctx == a.t.bctx
      | .walk => true
      | _ => x.sameHome a)

/-- Is an access a load through an alias window: a BSTAT, as far as its page tells (R257)? -/
def State.isBstat (s : State) (x : Acc) : Bool :=
  x.kind == .ld && x.sp == .g && (match x.phase with
    | .walk => match s.walk (some (dieOf x.t.core)) x.ctx x.va with
      | .ok pa _ _ _ => 8 ≤ region pa
      | .bad _ _ => false
    | _ => 8 ≤ region x.pa)

/-- Is an access held behind an earlier one: one of its lane that it meets, one of lower lanes of its instruction, or a BSTAT
of its lane, which acquires when its result is DONE or ERROR (R181, R196, R273, R285; log entry 96)? -/
def State.heldBehind (s : State) (a x : Acc) : Bool :=
  (a.after.contains x.id && x.phase.pending && (x.t == a.t || !x.phase.isReplay) && x.meetsNow a)
  || (x.t == a.t && x.id < a.id && s.isBstat x)

/-- Do an access's lane and fences let it go? -/
def State.laneFree (s : State) (a : Acc) : Bool :=
  s.accs.all (fun x => !s.heldBehind a x) && s.fences.all (fun f => !a.gates.contains f.id) && a.credit

/-- May the access be performed now? Its lane's earlier accesses to the same bytes, its fences, its flow and its credit
allow it. -/
def State.free? (s : State) (a : Acc) : Bool := s.laneFree a && s.accs.all (fun x => !flowBehind a x || s.deferred x)

/-- In a lot that is being saved or drains for its dump, a lane's access to bytes of one of its accesses kept with REPLAY stays
behind it: it is kept with it and issued again after it (R90, R285; log entry 115). -/
def State.deferHeld (s : State) (c b : Nat) : State :=
  s.accs.foldl (fun s a =>
    let here := a.t.core == c && a.t.bctx == b && (a.phase == .ready || a.phase == .granted)
    if here && s.accs.any (fun x => x.phase.isReplay && x.t == a.t && s.heldBehind a x) then
      s.setAcc { a with phase := .replay (a.stop 0 0 0) }
    else s) s

/-! ### Results and ends -/

/-- Is a register of a result still within the warp's range? -/
def Lot.inRange (l : Lot) (a : Agent) (r n : Nat) : Bool := a.isBarker || r + n ≤ 16 * (l.warp a.w).blocks

/-- Writes a result to registers of which those from `lim` on have been released since: replies addressed to released
registers are discarded (R415). -/
def Lot.setValBelow (l : Lot) (a : Agent) (r lim : Nat) (ty : Ty) (v : Nat) : Lot :=
  let n := regsOf ty.bits
  if a.isBarker || r + n ≤ lim then l.setVal a (BitVec.ofNat 7 r) ty.bits ty.signed v
  else l.setRegs a r v (lim - r)

/-- Writes the result of an access. The result quad of a cell instruction takes four scalars in a barker clause (R221). -/
def Lot.putResult (l : Lot) (a : Acc) (v : Nat) : Lot :=
  let t := laneAgent a.t
  match a.dst with
  | none => l
  | some (r, ty) =>
    if a.kind.isCell && t.isBarker && ty.bits = 128 then
      (List.range 4).foldl (fun l i => l.setSreg (r + i) (BitVec.ofNat 64 (bits v (32 * i + 31) (32 * i)))) l
    else l.setValBelow t r a.lim ty v

/-- An access ends: it leaves the list, and its warp's counter falls with the last access of the instruction (R85);
parked threads are checked again (R86). -/
def State.endAcc (s : State) (a : Acc) : State :=
  let s := { s with accs := s.accs.filter (fun x => x.id != a.id) }
  let more := s.accs.any (fun x => x.op == a.op && x.t.core == a.t.core && x.t.bctx == a.t.bctx && x.t.w == a.t.w && (x.kind != .rsend || x.cmp != 2))
  let counted := !(a.kind == .rsend && a.cmp == 2)
  let s := if more || a.kind.uncounted || !counted then s else s.countDown a.t.core a.t.bctx a.t.w (if a.hasResult then 0 else 1)
  s.recheck a.t.core

/-- The record of a refused access: KIND 4 REQUEST (R213, R288; log entry 19). -/
def Acc.reqRec (a : Acc) (l : Lot) (x : Stop) (flags : Nat) : FRec :=
  { lotRec a.t.core l 4 x.code with
    flags := flags, warp := recWarp (laneAgent a.t), tag := x.tag, detail := x.detail, lanes := recLanes [laneAgent a.t],
    pc := a.hdr, addr := x.addr }

/-- DRAIN while the lot is ending FAILED; REPLAY where a logged access awaits its re-issue; a refusal in a launch that is
halted counts in NFAULT (R283, R288, R304). -/
def State.recordStop (s : State) (a : Acc) (x : Stop) : State :=
  match s.lot? a.t.core a.t.bctx with
  | none => s
  | some l =>
    let drain := match l.phase with
      | .failing _ | .draining => 16
      | .halted => 16
      | _ => 0
    let s := s.writeRec a.ctx (a.reqRec l x (drain + if x.replay then 2 else 0))
    match s.haltingLot l.launch with
    | some (hc, hb, _) => s.onLot hc hb (fun h => { h with nfault := h.nfault + 1 })
    | none => s

/-- The record of a refusal that no entry of the operand log keeps. -/
def State.recordAcc (s : State) (a : Acc) (code addr : Nat) : State := s.recordStop a ⟨code, 0, 0, addr, false, a.hdr⟩

/-- The refusal of an access at its home (R213, R258, R286): an access with a result fails at the point of use; one
without writes a record and its count falls. -/
def State.refuseAcc (s : State) (a : Acc) (code addr : Nat) : State :=
  if a.kind == .cpref then s.endAcc a
  else if a.hasResult then s.setAcc { a with phase := .failed code addr, back := none }
  else (s.recordAcc a code addr).endAcc a

/-- A fault that is due with a result: the thread stops at its next header; in a lot that is ending, or in a halted
launch, a record is written instead (R286, R288, R304). -/
def State.faultDue (s : State) (a : Acc) (code addr : Nat) : State :=
  match s.lot? a.t.core a.t.bctx with
  | none => s.endAcc a
  | some l =>
    let s := match l.phase with
      | .cancelling => s
      | .running =>
        if (s.haltingLot l.launch).isSome then s.recordAcc a code addr
        else s.noteStop a.t.core a.t.bctx (laneAgent a.t) ⟨code, 0, 0, addr, false, a.hdr⟩
      | _ => s.recordAcc a code addr
    s.endAcc a

/-- A result arrives: it is written, and the access ends. -/
def State.resultDue (s : State) (a : Acc) (v : Nat) : State :=
  (s.onLot a.t.core a.t.bctx (fun l => l.putResult a v)).endAcc a

end Sys2Proof.Machine
end

