-- ==== Sys2Proof/Machine/AtomOps.lean ====
section
/-! DEFINITION. The new value of an atomic or reduction (08_atomics.md R204, R205; 04_numbers.md R109) and the records of
hammer cells (R220 to R223). -/

namespace Sys2Proof.Machine

/-- MIN and MAX of floats as FMIN and FMAX, without flags (R204). -/
def atomMinMax (t : Ty) (wantMax : Bool) (o b : Nat) : Nat :=
  if Ty.isFloat t then ((fmtOf t).minMax wantMax o b).1 else if wantMax then maxTy t o b else minTy t o b

/-- The new value of an atomic from the old value o, operand b and comparand c; none when CAS writes nothing (R204). -/
def atomNew (op : AtomOp) (t : Ty) (o b c : Nat) : Option Nat :=
  let n := t.bits
  match op with
  | .add =>
    if Ty.isFloat t then some ((fmtOf t).round 0 0 (FVal.add false ((fmtOf t).dec o) ((fmtOf t).dec b))).1
    else some (wrapN (o + b) n)
  | .min => some (atomMinMax t false o b)
  | .max => some (atomMinMax t true o b)
  | .and => some (o &&& b)
  | .or => some (o ||| b)
  | .xor => some (o ^^^ b)
  | .exch => some b
  | .cas => if o = c then some b else none
  | .inc => some (if b ≤ o then 0 else o + 1)
  | .dec => some (if o = 0 ∨ b < o then b else o - 1)

/-- The unsigned type by which an old value of a width is written to D (R205, R207). -/
def rawTy (width : Nat) : Ty :=
  if width = 128 then .b128 else if width = 64 then .b64 else if width = 16 then .n16 else if width = 8 then .n8 else .b32

/-! ### Hammer cells (R220) -/

/-- A cell: VALUE, STATE, GEN, WINNER. -/
structure Cell where
  value : Nat
  st : Nat
  gen : Nat
  winner : Nat
deriving DecidableEq, Repr

def Cell.ofNat (x : Nat) : Cell := ⟨bits x 63 0, bits x 65 64, bits x 95 66, bits x 127 96⟩
def Cell.toNat (c : Cell) : Nat := c.value + 2 ^ 64 * (c.st % 4) + 2 ^ 66 * (c.gen % 2 ^ 30) + 2 ^ 96 * (c.winner % 2 ^ 32)

/-- A result quad: VALUE, WINNER, and GEN with a status in [31:30] (R221). -/
def Cell.quad (c : Cell) (status : Nat) : Nat :=
  c.value + 2 ^ 64 * (c.winner % 2 ^ 32) + 2 ^ 96 * (c.gen % 2 ^ 30 + status * 2 ^ 30)

/-- BID at the home: the cell after, and the result quad (R222). -/
def Cell.bid (c : Cell) (value bidId : Nat) (expgen : Nat) : Cell × Nat :=
  if !(bit expgen 31 || bits expgen 29 0 == c.gen) then (c, c.quad 3)
  else match c.st with
  | 0 =>
    let c := { c with st := 1, value := value % 2 ^ 64, winner := bidId % 2 ^ 32 }
    (c, c.quad 0)
  | 1 => if c.winner = bidId % 2 ^ 32 then (c, c.quad 0) else (c, c.quad 1)
  | _ => (c, c.quad 2)

/-- CLOSE: the cell after, and the status word (R221, R223). -/
def Cell.close (c : Cell) : Cell × Nat :=
  let d := if c.st ≤ 1 then { c with st := 2 } else c
  (d, d.gen + c.st * 2 ^ 30)

/-- RECYCLE (R221, R223). -/
def Cell.recycle (c : Cell) : Cell × Nat :=
  let d : Cell := if c.st = 0 then c else ⟨0, 0, (c.gen + 1) % 2 ^ 30, 0⟩
  (d, d.gen + c.st * 2 ^ 30)

end Sys2Proof.Machine
end

