-- ==== Sys2Proof/Machine/Routes.lean ====
section
/-! DEFINITION. Source routes over a die's mesh (05_encoding.md R135, R136), the routing entries of the memory plane, and the
state of links and ports (12_links.md R305 to R307, R316, R319). -/

namespace Sys2Proof.Machine

/-- One hop along a heading 0 N, 1 E, 2 S, 3 W; none off the 4 × 4 mesh. -/
def hop (x y head : Nat) : Option (Nat × Nat) :=
  match head with
  | 0 => if y = 0 then none else some (x, y - 1)
  | 1 => if x = 3 then none else some (x + 1, y)
  | 2 => if y = 3 then none else some (x, y + 1)
  | _ => if x = 0 then none else some (x - 1, y)

/-- Core number at mesh coordinates (R15). -/
def coreAt (x y : Nat) : Nat := x % 2 + 2 * (y % 2) + 4 * (x / 2) + 8 * (y / 2)

/-- The nodes that the turns of a route pass, and the node of its eject; none where it leaves the mesh or never ejects. -/
def routeFrom (x y head turns : Nat) : Nat → Option (List (Nat × Nat × Nat))
  | 0 => none
  | n + 1 =>
    let t := turns % 4
    if t = 3 then some []
    else
      let head := if t = 1 then (head + 3) % 4 else if t = 2 then (head + 1) % 4 else head
      match hop x y head with
      | none => none
      | some (x', y') =>
        match routeFrom x' y' head (turns / 4) n with
        | none => none
        | some rest => some ((coreAt x y, head, coreAt x' y') :: rest)

/-- The hops of a route word and the core number above whose node it ejects. -/
def routeHops (w : Nat) : Option (List (Nat × Nat × Nat) × Nat) :=
  let entry := bits w 25 22
  match routeFrom (meshX entry) (meshY entry) (bits w 21 20) (bits w 19 0) 10 with
  | none => none
  | some hops => some (hops, (hops.getLast?.map (fun h => h.2.2)).getD entry)

/-- The global vault that a route word names, if it is a route at all. -/
def routeVault (w : Nat) : Option Nat := (routeHops w).map (fun r => bits w 31 26 * 16 + r.2)

/-- Number of a mesh link of a die: 0 to 11 the links to the east of a node in row order, 12 to 23 those to the south
(13_platform.md R333). -/
def linkNumber (a head b : Nat) : Nat :=
  let (x, y) := if head = 1 || head = 2 then (meshX a, meshY a) else (meshX b, meshY b)
  if head % 2 = 1 then 3 * y + x else 12 + 4 * y + x

/-- Is a route refused at its use: malformed, or naming a retired die, node, link or vault (R136)? -/
def State.routeRefused (s : State) (w : Nat) : Bool :=
  match routeHops w with
  | none => true
  | some (hops, v) =>
    let die := bits w 31 26
    s.dieRetired die || s.nodeRetired (die * 16 + bits w 25 22) || s.vaultRetired (die * 16 + v)
    || hops.any (fun h => s.nodeRetired (die * 16 + h.2.2) || s.linkRetired die (linkNumber h.1 h.2.1 h.2.2))

/-! ### The memory plane (R305 to R307) -/

/-- A wavelength of a (die, stack) pair: direction to or from the stack, and 0 or 1 (R26). -/
def wlKey (die stack : Nat) (toStack : Bool) (wl : Nat) : Nat := ((die * 32 + stack) * 2 + toStack.toNat) * 2 + wl

def State.wlDown (s : State) (die stack : Nat) (toStack : Bool) (wl : Nat) : Bool :=
  Tbl.get false s.p.wlLost (wlKey die stack toStack wl)

/-- Does a die relay a pair? -/
def State.relays (s : State) (via die stack : Nat) : Bool := s.routeMode die stack == 2 && s.routeVia die stack == via

/-- May a die relay a pair (R307)? -/
def State.relayOk (s : State) (die stack via : Nat) : Bool :=
  via != die && via < 64 && s.routeMode via stack == 0 && !s.dieRetired via
  && s.regF (mpstatReg via) 31 24 < 4 + (s.relays via die stack).toNat

/-- The relay die of a pair (R307). -/
def State.relayFor (s : State) (die stack : Nat) : Option Nat :=
  if s.relayOk die stack (die ^^^ 1) then some (die ^^^ 1) else (List.range 64).find? (fun v => s.relayOk die stack v)

/-- MODE and VIA that the lost wavelengths of a pair ask for (R306). -/
def State.routeWanted (s : State) (die stack : Nat) : Nat × Nat :=
  let lost (dir : Bool) : Nat := (s.wlDown die stack dir 0).toNat + (s.wlDown die stack dir 1).toNat
  if lost true = 0 && lost false = 0 then (0, 0)
  else if lost true < 2 && lost false < 2 then (1, 0)
  else match s.relayFor die stack with
  | some via => (2, via)
  | none => (3, 0)

/-! ### Links and slot-fabric ports (R316, R319) -/

/-- The register that holds a link's STATE: HLSTAT of ports A and B, SFSTAT of slot-fabric ports (R318, R322). -/
def linkReg (link : Nat) : Nat := if link < 2 then hlstatReg link else sfstatReg (link - 2)

def State.linkState (s : State) (link : Nat) : Nat := s.regF (linkReg link) 1 0

def State.setLinkState (s : State) (link st : Nat) : State := s.setRegF (linkReg link) 1 0 st

def State.linkS (s : State) (link : Nat) : LinkS := Tbl.get LinkS.none s.p.links link

def State.setLinkS (s : State) (link : Nat) (x : LinkS) : State :=
  { s with p := { s.p with links := Tbl.put LinkS.none s.p.links link x } }

def State.port (s : State) (n : Nat) : PortS := Tbl.get PortS.none s.p.ports n

def State.setPort (s : State) (n : Nat) (x : PortS) : State :=
  { s with p := { s.p with ports := Tbl.put PortS.none s.p.ports n x } }

/-- The port, if any, in whose present slot a circuit to a module is open. -/
def State.circuit (s : State) (modid : Nat) : Option Nat :=
  (List.range 16).find? (fun n => (s.port n).here == some modid && s.linkState (2 + n) == 2)

/-- Traffic for another module: it goes out now, or waits for a slot with a circuit to the module (R319). -/
def State.sendFabric (s : State) (modid : Nat) (m : OutMsg) : State :=
  if (s.circuit modid).isSome then s.send m else { s with p := { s.p with fabric := s.p.fabric ++ [(modid, m)] } }

end Sys2Proof.Machine
end

