-- ==== Sys2Proof/Machine/Home.lean ====
section
/-! DEFINITION. Accesses at their homes: stacks, vault controllers and the host-line cache (06_memory.md R151 to R163;
07_ordering.md R191, R203; 08_atomics.md R207 to R217; 10_banks.md R257 to R260, R275; 16_ref_j_r.md R423). -/

namespace Sys2Proof.Machine

/-! ### Reading and writing n bytes at a home -/

/-- n bytes at the home of a PA: a vault controller probes its die, the stores in its L1s included; a host line is obtained first
(R161, R163, R180, R211). -/
def State.homeRead (s : State) (pa n : Nat) : Nat × State :=
  match region pa with
  | 1 =>
    let s := s.settleLine (vaultDie pa) (pa / 128)
    (s.dieNat (vaultDie pa) pa n, s)
  | 2 =>
    let s := s.hostFill pa
    (ofBytes (s.viewBytes pa n), s)
  | _ => (ofBytes (s.viewBytes pa n), s)

/-- A write of n bytes at the home of a PA: a vault controller first takes its die's copies back; every monitor on the
line notes the write (R84, R161, R203). -/
def State.homeWrite (s : State) (pa n v : Nat) : State :=
  let s := if region pa = 1 then s.evictLine (vaultDie pa) (pa / 128) else if region pa = 2 then s.hostFill pa else s
  (s.setHomeBytes pa (toBytes v n)).markMonitors (pa / 128) (fun _ => true)

/-! ### Alias windows (R256 to R260) -/

def aliasOp (pa : Nat) : Nat := bits pa 50 47

/-- Is an alias access malformed for its operation (R257, R258)? -/
def aliasBad (pa : Nat) (isLoad : Bool) (size data : Nat) : Bool :=
  let op := aliasOp pa
  let page := bit pa 46
  !(1 ≤ op && op ≤ 5) || bits pa 43 41 != 0 || (op != 2 && bits pa 45 44 != 0)
  || (match op with
      | 1 => isLoad || size != 4 || data / 2 ^ 10 != 0
      | 2 => isLoad || size < 4
      | 3 => !isLoad || size != 8 || page
      | 4 => isLoad || size != 4
      | _ => isLoad || size != 8 || data / 2 ^ 26 != 0)

/-- The refusal of a booth-class command for one unit (R258); the channel of the unit may be retired (R328). -/
def State.aliasRefusal (s : State) (pa unit data : Nat) : Option Nat :=
  let cls (l : Nat) := s.frameClass l == .aliased
  let stack := stackOf unit
  let bank := bankOf stack (stackOffset unit)
  if !cls unit || (aliasOp pa = 5 && !cls (locationOf stack (bits data 25 0 * 1024))) then some 0x12
  else if s.channelRetired stack (bits (stackOffset unit) 13 10) || (aliasOp pa = 5 && s.channelRetired stack (bits data 3 0)) then some 0x31
  else if 8 ≤ (s.booth bank).queue.length then some 0x30
  else none

/-- A stack takes a booth-class command for one unit into the bank's queue, or refuses it with a record whose ADDR names the
unit: the path of the issuing die may be down, or the command malformed (R258 to R260, R306). -/
def State.aliasUnit (s : State) (a : Acc) (unit addr : Nat) : State :=
  let cause :=
    if s.stackWay (.acc a.id) (dieOf a.t.core) (stackOf unit) = .bad 0x31 0 then some 0x31
    else if aliasBad a.pa false a.size a.data then some 0x30
    else s.aliasRefusal a.pa unit a.data
  match cause with
  | some code => s.recordAcc a code addr
  | none =>
    let k := bankOf (stackOf unit) (stackOffset unit)
    let b := s.booth k
    s.setBooth k { b with queue := b.queue ++ [⟨aliasOp a.pa, unit, bits a.pa 45 44, a.data, a.size, a.ctx⟩] }

/-- The units that an alias store acts on, each with the address that a record names (R259). -/
def Acc.aliasUnits (a : Acc) : List (Nat × Nat) :=
  let l := bits a.pa 40 0
  if bit a.pa 46 then (List.range 64).map (fun i => (l / 65536 * 65536 + 1024 * i + l % 1024, a.va / 65536 * 65536 + 1024 * i))
  else [(l, a.va)]

/-- An alias store at its stacks: each unit is taken or refused by itself (R258, R259). What goes to all stacks first crosses the die
plane for each that a relay die reaches (R27, R306). -/
def State.aliasStore (s : State) (a : Acc) : State :=
  let die := dieOf a.t.core
  let far := if a.toAllStacks then (List.range 32).filter (fun st => s.stackWay (.acc a.id) die st == .wait) else []
  if far.isEmpty then
    ((a.aliasUnits.foldl (fun s u => s.aliasUnit a u.1 u.2) s).endTransfers (.acc a.id)).setAcc { a with phase := .performed }
  else far.foldl (fun s st => s.stackAsk (.acc a.id) die st a.size) s

/-! ### Where an access is performed -/

/-- Served by the caches of the issuing die: DRAM lines and the die's own vault lines, without an ordered flow (R158,
R161, R191). -/
def Acc.cached (a : Acc) : Bool :=
  (region a.pa == 0 || (region a.pa == 1 && vaultDie a.pa == dieOf a.t.core)) && a.flow == 0

/-- An atomic that executes in the issuing core's L1 (R209). -/
def Acc.atomInL1 (a : Acc) : Bool := a.cached && a.scope.code.toNat ≤ 2

/-- Is a cell remote (R228)? -/
def State.remoteCell (s : State) (a : Acc) : Bool := attrREM a.attr && a.modid != s.regF sfctlReg 45 34

/-- The stack that an access is for, if it is for one; lane l of core g queries the board of stack g + l (R153, R265). -/
def Acc.stack? (a : Acc) : Option Nat :=
  match a.kind with
  | .tq => some ((a.t.core + (if (laneAgent a.t).isBarker then 0 else a.t.l)) % 32)
  | .rsend | .rfetch | .lotdone => none
  | _ => if a.sp != .l && (region a.pa = 0 || 8 ≤ region a.pa) then some (stackOf (bits a.pa 40 0)) else none

/-- The stacks whose pairs with the issuing die an access needs (R259). -/
def Acc.stacks (a : Acc) : List Nat := if a.toAllStacks then List.range 32 else a.stack?.toList

/-- The relay die over which an access reaches its stack (R306). -/
def State.relayOf (s : State) (a : Acc) : Option Nat :=
  if a.toAllStacks then none else a.stack?.bind (fun st => s.relayVia (dieOf a.t.core) st)

/-- The home channel of the die plane into which an access must cross: that of the die that its place lies on, or that of its PA
(R423). A store to all stacks crosses in parts. -/
def State.crossTo (s : State) (a : Acc) : Option Nat :=
  let die := dieOf a.t.core
  if a.sp == .l && a.kind != .rsend && a.kind != .rfetch then none
  else match a.kind with
  | .rsend | .rfetch => if a.pa / 16 = die then none else some (a.pa / 16)
  | .lotdone | .cflush | .cinv | .cinvDiscard | .cdisc => none
  | .tq => s.relayOf a
  | k =>
    if k.isCell && s.remoteCell a then none
    else if 8 ≤ region a.pa then s.relayOf a
    else s.crossing die a.pa

/-- Is it served by a line that the issuing die holds? -/
def State.hits (s : State) (a : Acc) : Bool :=
  a.sp != .l && (match a.kind with
    | .ld | .st => a.cached
    | .atom | .red => a.atomInL1
    | .peek => !s.remoteCell a
    | _ => false) && s.holds a.t.core a.ctx (a.pa / 128)

/-- Must an access still cross into a home channel that is retired? -/
def State.crossLost (s : State) (a : Acc) : Bool :=
  !a.delivered && (match s.crossTo a with
    | some ch => s.homeRetired ch
    | none => false)

/-- Is an access in flight: has it left its core's waiting-table entry for its home, or is a half of it performed? -/
def Acc.inFlight (a : Acc) : Bool := a.delivered || a.half != 0

/-- Is an access that its lane lets go at its home, or refused on the way: no pair that it needs is held for a change of its route,
and it has crossed the die plane where it must (R308, R313)? -/
def State.arrived (s : State) (a : Acc) : Bool :=
  (a.inFlight || !a.stacks.any (fun st => s.pairHeld (dieOf a.t.core) st)) && ((s.crossTo a).isNone || a.delivered || s.crossLost a)

/-- Is the path to its home down: no wavelength of its pair (R306), or a retired home channel (R328)? The units of an alias store
are refused one by one (R259). -/
def State.pathDown (s : State) (a : Acc) : Bool :=
  (!(a.kind == .st && 8 ≤ region a.pa) && a.stacks.any (fun st => s.routeDown (dieOf a.t.core) st)) || s.crossLost a

/-- The reply of an access that has crossed the die plane has still to cross back, into the home channel of the requester (R27, R306,
R310); it is lost where that channel is retired (R328). An RSEND is acknowledged by the reorder buffer that takes it, and what the
host has still to do has no reply yet (R216, R424). -/
def State.answered (s : State) (a : Acc) (s' : State) : State :=
  match s.crossTo a, s'.acc? a.id with
  | some ch, some b =>
    if b.phase = a.phase || b.phase = .sent || a.kind = .rsend then s'
    else if s.homeRetired (dieOf a.t.core) then s'.refuseAcc b 0x31 b.va
    else s'.setAcc { b with back := some ch }
  | _, _ => s'

/-- Is an atomic sent to the host as a native AtomicOp (R216, R217)? -/
def State.nativeAtom (s : State) (a : Acc) : Bool :=
  s.p.atomicOps && [AtomOp.add, .exch, .cas].contains a.aop && [Ty.i32, .n32, .i64, .n64].contains a.ty

/-- The grant of a vault admits an access by place (R422, R423). -/
def State.granted (s : State) (g ctx off size : Nat) : Bool :=
  let r := vgrantReg g
  s.regF r 12 12 == 1 && s.regF r 11 0 == ctx && s.regF r 22 16 * 65536 ≤ off
  && off + size ≤ min 96 (s.regF r 30 24) * 65536

/-- A read-modify-write at the home: the old value, and the state after (R207). -/
def State.homeAtom (s : State) (a : Acc) : Nat × State :=
  let (old, s) := s.homeRead a.pa a.size
  match atomNew a.aop a.ty old a.data a.cmp with
  | some v => (old, s.homeWrite a.pa a.size v)
  | none => (old, s)

/-- A read-modify-write in the issuing core's L1, which first gains the line within its die; the result becomes visible as a
store of the atomic's scope does (R207, R209, R211). -/
def State.l1Atom (s : State) (a : Acc) : Nat × State :=
  let s := (s.fillL1 a.t.core a.ctx a.pa a.attr).settleLine (dieOf a.t.core) (a.pa / 128)
  let old := s.coreNat a.t.core a.pa a.size
  match atomNew a.aop a.ty old a.data a.cmp with
  | some v => (old, s.writeL1 a.t.core a.ctx a.pa a.size v a.attr a.scope)
  | none => (old, s)

/-! ### The halves of 16-byte accesses (R179) -/

/-- The half of a 16-byte access that is performed next, 0 the low one: a free value names the first (log entry 25). -/
def State.nextHalf (s : State) (a : Acc) : Nat × State :=
  match a.half with
  | 0 =>
    let (v, s) := s.freeVal
    (v % 2, s)
  | 1 => (1, s)
  | _ => (0, s)

/-- A load is performed whole, or as two halves of 8 bytes, each single-copy atomic: the value, once it is complete. -/
def State.loadPart (s : State) (a : Acc) (read : State → Nat → Nat → Nat × State) : Option Nat × State :=
  if a.size < 16 then
    let (v, s) := read s 0 a.size
    (some v, s)
  else
    let (h, s) := s.nextHalf a
    let (v, s) := read s (8 * h) 8
    let data := a.data + v * 2 ^ (64 * h)
    if a.half = 0 then (none, s.setAcc { a with half := h + 1, data := data }) else (some data, s)

/-- A store in the same way: is it complete? -/
def State.storePart (s : State) (a : Acc) (write : State → Nat → Nat → Nat → State) : Bool × State :=
  if a.size < 16 then (true, write s 0 a.size a.data)
  else
    let (h, s) := s.nextHalf a
    let s := write s (8 * h) 8 (bits a.data (64 * h + 63) (64 * h))
    if a.half = 0 then (false, s.setAcc { a with half := h + 1 }) else (true, s)

/-- A result is on its way, or the access without one is performed. -/
def State.answer (s : State) (a : Acc) (v : Nat) : State :=
  if a.kind == .rsend && a.cmp == 2 then s.endAcc a
  else s.setAcc { a with phase := if a.hasResult then .replied v else .performed }

/-- A price-board set of a context (R262). -/
def State.pbSet (s : State) (ctx : Nat) : Option Nat :=
  (List.range 8).find? (fun n => s.regF (pbsetReg n) 12 12 == 1 && s.regF (pbsetReg n) 11 0 == ctx)

/-- Entry i of a table (R263). -/
def PbTable.entry (t : PbTable) (i : Nat) : Nat :=
  (Tbl.get 0 t.entries (i % (if t.shape = 2 then 4096 else 256))).toNat

/-- A table of a set as one stack's banks hold it (R261, R264). -/
def State.board (s : State) (n table stack : Nat) : PbTable := Tbl.get PbTable.none s.e.boards (boardPlace n table stack)

/-- The shape of a table as the request engine sees it: that of stack 0 (log entry 116). -/
def State.boardShape (s : State) (n table : Nat) : Nat := (s.board n table 0).shape

/-- Place of a board among the lines that hold uncorrectable data (R443). -/
def boardKey (n table : Nat) : Nat := 2 ^ 60 + n * 64 + table

/-- A query entry at a stack; a table whose set is being cleared, or that a TLOAD is still writing in that stack, gives its old or
its new value, as a free value decides (R262, R267). -/
def State.query (s : State) (n table stack i : Nat) : Nat × State :=
  let t := s.board n table stack
  let inFlight := s.e.orders.find? (fun o => match o.kind with
    | .tload tb _ => tb == table && o.started && o.stackSet.contains stack && s.pbSet o.ctx == some n
    | _ => false)
  if Tbl.get false s.e.pbBusy n then
    let (v, s) := s.freeVal
    (if v % 2 = 0 then t.entry i else 0, s)
  else match inFlight with
  | some o =>
    let (v, s) := s.freeVal
    let new : Nat := match o.kind with
      | .tload _ shape =>
        let w := if shape = 1 then 2 else 1
        let j := i % (if shape = 2 then 4096 else 256)
        ofBytes ((o.image.drop (j * w)).take w)
      | _ => 0
    (if v % 2 = 0 then t.entry i else new, s)
  | none => (t.entry i, s)

/-! ### The access at its home -/

/-- A load at the home of a PA (R161, R163, R191). -/
def State.homeLoad (s : State) (a : Acc) (pa : Nat) : State :=
  match s.loadPart a (fun s off n => s.homeRead (pa + off) n) with
  | (some v, s) => s.answer a v
  | (none, s) => s

/-- A store at the home of a PA (R161, R191, R203). -/
def State.homeStore (s : State) (a : Acc) (pa : Nat) : State :=
  match s.storePart a (fun s off n v => s.homeWrite (pa + off) n v) with
  | (true, s) => s.answer a 0
  | (false, s) => s

/-- An access that is performed at its home and not through the caches of its die. The die first writes its dirty bytes of the
line back and gives up its copies, so that no later read of the die returns an older value (R180, R191, R210). -/
def State.homeDirect (s : State) (a : Acc) (f : State → State) : State :=
  let s := s.surrender (dieOf a.t.core) (a.pa / 128)
  match s.homeRefusal a.pa (a.kind == .ld) with
  | some code => s.refuseAcc a code a.va
  | none => f s

/-- An atomic or reduction at its home, or the fallback at the host-line cache (R209, R210, R217). -/
def State.homeRmw (s : State) (a : Acc) : State :=
  s.homeDirect a (fun s =>
    let (old, s) := s.homeAtom a
    s.answer a old)

/-- An access by place at the vault controller (R136, R423). -/
def State.homePlace (s : State) (a : Acc) (route : Nat) : State :=
  if s.routeRefused route then s.refuseAcc a 0x30 route
  else if !s.granted a.pa a.ctx a.va a.size then s.refuseAcc a 0x30 a.va
  else
    let pa := vaultPa a.pa a.va
    match s.homeRefusal pa (a.kind == .rfetch) with
    | some code => s.refuseAcc a code a.va
    | none => if a.kind = .rfetch then s.homeLoad a pa else s.homeStore a pa

/-- A set that is full of lines whose write-backs must wait lets a fill wait; the write-back of one of them is asked for. -/
def State.waitVictim (s : State) (core line : Nat) : State :=
  let ask (s : State) (ls : List Nat) (ways : Nat) : State :=
    match ls with
    | [] => s
    | l :: _ => if ways ≤ ls.length then s.backWait (dieOf core) l else s
  ask (ask (ask s (s.setL1 core line) 8) (s.setClu core line) 16) ((s.setDir (dieOf core) line).map (fun r => 4 * r)) 16

/-- Is a 16-byte access performed in one visit of its bank? Where booths may run on its row, both halves see the row after one prefix
of a run (R179, R277; log entry 25). -/
def State.oneVisit (s : State) (a : Acc) : Bool :=
  region a.pa = 0 && (s.frameClass (bits a.pa 40 0) == .aliased || (s.booth (bankOfPa a.pa)).st != .idle)

/-- A visit of an access at its bank, both halves of it where one visit serves both. -/
def State.visit (s : State) (a : Acc) (f : State → Acc → State) : State :=
  let t := f s a
  match t.acc? a.id with
  | some b => if s.oneVisit a && a.half = 0 && b.half != 0 then f t b else t
  | none => t

/-- An access at a bank: it waits for a window of a running booth (R275). An ELIDED frame is not reached (R156, R278). -/
def State.atBank (s : State) (pa : Nat) (w : Waiter) (f : State → State) : State :=
  if s.elidedAt pa then f s
  else if s.bankOpen pa w then f (s.bankServed pa w)
  else s.bankWait pa w

/-- A DRAM or vault line that the issuing die asks for: the checks of the home, and the bank's window, in which the line as it
then is comes to the core's L1 (R151, R160, R277). -/
def State.homeGrant (s : State) (a : Acc) (readOnly : Bool) : State :=
  match s.homeRefusal a.pa readOnly with
  | some code => s.refuseAcc a code a.va
  | none =>
    if !s.canFill a.t.core (a.pa / 128) then s.waitVictim a.t.core (a.pa / 128)
    else s.atBank a.pa (.acc a.id) (fun s => (s.fillL1 a.t.core a.ctx a.pa a.attr).setAcc { a with phase := .granted })

/-- A host access goes over a port, waits, or fails by the states of the ports; what waits in the replay buffer of a port that
retrains is outstanding on it (R22, R23, R316). -/
def State.viaHost (s : State) (a : Acc) (f : State → State) : State :=
  match s.hostPath a.pa with
  | .port _ => f s
  | .waits => if s.portState (hostUnit a.pa) = 3 && a.link = 0 then s.setAcc { a with link := hostUnit a.pa + 1 } else s
  | .down => s.refuseAcc a 0x31 a.va

/-- A host atomic: native where the host completes it, else the fallback (R216, R217). -/
def State.hostRmw (s : State) (a : Acc) : State :=
  if s.nativeAtom a then
    let s := s.hostClean (hostLineOf a.pa) true
    let link := match s.hostPath a.pa with
      | .port p => p + 1
      | _ => 0
    (s.send (.atomicOp a.pa a.aop a.size a.data a.cmp)).setAcc { a with phase := .sent, link := link }
  else s.homeRmw a

/-- A table query at its stack (R262, R265, R443). -/
def State.queryHome (s : State) (a : Acc) : State :=
  if s.stackHeld (a.stack?.getD 0) then s else
  match s.pbSet a.ctx with
  | none => s.refuseAcc a 0x30 a.va
  | some n =>
    if Tbl.get false s.m.poison (boardKey n a.aux) then s.refuseAcc a 0x30 a.va else
    let (v, s) := s.query n a.aux (a.stack?.getD 0) a.va
    s.answer a v

/-- A prefetch: it brings its line into the L1 or the cluster cache, or does nothing (R355). -/
def State.prefetch (s : State) (a : Acc) : State :=
  let core := a.t.core
  let line := a.pa / 128
  if region a.pa = 2 then
    match s.hostPath a.pa with
    | .port _ => (s.hostFill a.pa).endAcc a
    | .waits => s
    | .down => s.endAcc a
  else if (s.homeRefusal a.pa true).isSome || !a.cached then s.endAcc a
  else if !s.canFill core line then s.waitVictim core line
  else s.atBank a.pa (.acc a.id) (fun s =>
    (if a.scope = .lot then s.fillL1 core a.ctx a.pa a.attr else s.fillClu core a.ctx a.pa a.attr).endAcc a)

/-- What an access does at the home that it has reached: it waits for its bank, is refused, is granted its line, or is
performed. -/
def State.visitHome (s : State) (a : Acc) : State :=
  match a.kind with
  | .tq => s.queryHome a
  | .rsend | .rfetch => s.homePlace a a.aux
  | .lotdone | .bid | .peek | .recycle | .close => s
  | .cflush | .cinv | .cinvDiscard | .cdisc => s
  | .cpref => s.prefetch a
  | .ld =>
    if a.sp = .l then s
    else if 8 ≤ region a.pa then
      if aliasBad a.pa true a.size 0 then s.refuseAcc a 0x30 a.va
      else if s.frameClass (bits a.pa 40 0) != .aliased then s.refuseAcc a 0x12 a.va
      else s  -- a BSTAT is served by its own event
    else if region a.pa = 2 then s.viaHost a (fun s => s.homeDirect a (fun s => s.homeLoad a a.pa))
    else if a.cached then s.homeGrant a true
    else s.atBank a.pa (.acc a.id) (fun s => s.homeDirect a (fun s => s.visit a (fun s a => s.homeLoad a a.pa)))
  | .st =>
    if a.sp = .l then s
    else if 8 ≤ region a.pa then s.aliasStore a
    else if region a.pa = 2 then s.viaHost a (fun s => s.homeDirect a (fun s => s.homeStore a a.pa))
    else if a.cached then s.homeGrant a false
    else s.atBank a.pa (.acc a.id) (fun s => s.homeDirect a (fun s => s.visit a (fun s a => s.homeStore a a.pa)))
  | .atom | .red =>
    if a.sp = .l then s
    else if region a.pa = 2 then s.viaHost a (fun s => s.hostRmw a)
    else if a.atomInL1 then s.homeGrant a false
    else s.atBank a.pa (.acc a.id) (fun s => s.homeRmw a)

/-- HOME_ACCESS of an access that is free to go: one that its die serves needs no home; another goes once it has arrived, fails
over a path that is down, or visits its home. -/
def State.atHome (s : State) (a : Acc) : State :=
  if s.hits a || !s.arrived a then s
  else if s.pathDown a then s.refuseAcc a 0x31 a.va
  else s.answered a (s.visitHome a)

end Sys2Proof.Machine
end

