-- ==== Sys2Proof/Machine/Mem.lean ====
section
/-! DEFINITION. The memory instructions: loads, stores, atomics, reductions, cell operations, accesses by place, cache
operations, table queries, fences and monitors (05_encoding.md R130, R131; 07_ordering.md R183; 08_atomics.md R206 to
R208, R221; 14_ref_a_c.md R354, R360; 16_ref_j_r.md R393 to R395, R402, R403, R410, R416, R417, R421; 17_ref_s_z.md
R434, R435, R443, R448, R449). -/

namespace Sys2Proof.Machine

/-! ### Addresses (R130) -/

def useAddr (r : BitVec 7) (sp : Space) : Use := if sp == .l then use1 r else use2 r

/-- The address of an access: `disp` is already sign-extended to 64 bits. -/
def Lot.addr (l : Lot) (a : Agent) (r : BitVec 7) (sp : Space) (disp : Nat) : Nat :=
  if sp == .l then wrapN (l.val a r 32 + disp) 32 else sextN (wrapN (l.val a r 64 + disp) 64) 64 80

/-- A displacement as a 64-bit number (R130). -/
def dispVal (d : Option Disp) : Nat :=
  match d with
  | none => 0
  | some (.d32 v) => sextN v.toNat 32 64
  | some (.d64 v) => v.toNat

/-- The type of an access size: SZ I8 and I16 extend with sign, the others with zeros (R394). -/
def szTy : MSize → Ty
  | .n8 => .n8 | .n16 => .n16 | .i8 => .i8 | .i16 => .i16 | .b32 => .b32 | .b64 => .b64 | .b128 => .b128

/-- Does an ATOM write D (R131, R207)? -/
def atomResult (f : FmtAt) : Bool := f.d != 0 || f.op == .cas

/-- The vault that a route names; a malformed route names its die's vault 0, and is refused at its use (R136). -/
def placeOf (route : Word) : Nat := (routeVault route.toNat).getD (bits route.toNat 31 26 * 16)

/-- The fields that a memory instruction gives each of its accesses. -/
def protoFor (v : View) (op : Nat) (i : Instr) : Acc :=
  let base (k : AccKind) (sp : Space) (flow size : Nat) (dst : Option (Nat × Ty)) : Acc := protoAcc v op k (encode i) sp flow size dst
  let load (f : FmtM3) : Acc := base .ld f.sp (if f.sp == .l then 0 else f.flow.toNat) ((szTy f.sz).bits / 8) (some (f.d.toNat, szTy f.sz))
  let store (f : FmtM3) : Acc := base .st f.sp (if f.sp == .l then 0 else f.flow.toNat) ((szTy f.sz).bits / 8) none
  let atomic (f : FmtAt) (k : AccKind) (result : Bool) : Acc :=
    { base k f.sp f.flow.toNat (f.ty.bits / 8) (if result then some (f.d.toNat, rawTy f.ty.bits) else none) with
      scope := f.scope, order := f.order, aop := f.op, ty := f.ty }
  let cache (f : FmtCache) (k : AccKind) : Acc :=
    { base k f.sp 0 1 (if k == .cinvDiscard then some (f.d.toNat, .b32) else none) with
      scope := f.scope }
  match i with
  | .ld f => load f
  | .ldDisp f _ => load f
  | .st f => store f
  | .stDisp f _ => store f
  | .atom f => atomic f .atom (atomResult f)
  | .red f => atomic f .red false
  | .bid _ d _ _ => base .bid .g 0 16 (some (d.toNat, .b128))
  | .peek _ d _ => base .peek .g 0 16 (some (d.toNat, .b128))
  | .recycle _ d _ => base .recycle .g 0 16 (some (d.toNat, .b32))
  | .close _ d _ => base .close .g 0 16 (some (d.toNat, .b32))
  | .rsend f => { base .rsend .v f.flow.toNat ((szTy f.sz).bits / 8) none with aux := f.route.toNat, pa := placeOf f.route }
  | .rfetch f =>
    { base .rfetch .v f.flow.toNat ((szTy f.sz).bits / 8) (some (f.d.toNat, szTy f.sz)) with
      aux := f.route.toNat, pa := placeOf f.route }
  | .cflush f => cache f .cflush
  | .cinv f => cache f .cinv
  | .cinvDiscard f => cache f .cinvDiscard
  | .cdisc f => cache f .cdisc
  | .cpref f => cache f .cpref
  | .tq _ d _ table => { base .tq .g 0 4 (some (d.toNat, .b32)) with aux := table.toNat }
  | _ => base .lotdone .g 0 4 none

/-- The frame of a memory instruction: its accesses are issued in ascending home-lane order. -/
def State.memOp (s : State) (uses : List Use) (p : BitVec 3) (i : Instr) (req : Lot → Agent → Req) : Out :=
  s.instr true true uses p (fun v s =>
    let (op, s) := s.fresh
    s.issueAll v (protoFor v op i) (v.parts.map (fun a => req v.l a)))

/-! ### LD and ST -/

def State.load (s : State) (f : FmtM3) (d : Option Disp) (i : Instr) : Out :=
  s.memOp [useAddr f.a f.sp, useW f.d (szTy f.sz).bits] f.p i
    (fun l a => ⟨a, l.addr a f.a f.sp (dispVal d), 0, 0⟩)

/-- LD without displacement (R393 to R395). -/
def execLd (f : FmtM3) (s : State) : Out := s.load f none (.ld f)

/-- LD with a displacement (R393 to R395). -/
def execLdDisp (f : FmtM3) (disp : Disp) (s : State) : Out := s.load f (some disp) (.ldDisp f disp)

def State.store (s : State) (f : FmtM3) (d : Option Disp) (i : Instr) : Out :=
  s.memOp [useAddr f.a f.sp, useW f.d (szTy f.sz).bits] f.p i
    (fun l a => ⟨a, l.addr a f.a f.sp (dispVal d), l.val a f.d (szTy f.sz).bits, 0⟩)

/-- ST without displacement (R434 to R436): D is read at issue. -/
def execSt (f : FmtM3) (s : State) : Out := s.store f none (.st f)

/-- ST with a displacement (R434 to R436). -/
def execStDisp (f : FmtM3) (disp : Disp) (s : State) : Out := s.store f (some disp) (.stDisp f disp)

/-! ### ATOM and RED -/

def State.atomic (s : State) (f : FmtAt) (result : Bool) (i : Instr) : Out :=
  let n := f.ty.bits
  let uses := [use2 f.a, useW f.b n] ++ (if result then [useW f.d n] else []) ++ (if f.op == .cas then [useW f.c n] else [])
  s.memOp uses f.p i
    (fun l a => ⟨a, l.addr a f.a f.sp 0, l.val a f.b n, if f.op == .cas then l.val a f.c n else 0⟩)

/-- ATOM (R341, R204 to R208). -/
def execAtom (f : FmtAt) (s : State) : Out := s.atomic f (atomResult f) (.atom f)

/-- RED (R417). -/
def execRed (f : FmtAt) (s : State) : Out := s.atomic f false (.red f)

/-! ### Hammer cells (R221) -/

/-- A register quad of 32-bit words: four scalars in a barker clause. -/
def useCell (r : BitVec 7) : Use := ⟨r, 4, 4⟩

/-- Word i of a bid quad. -/
def Lot.bidWord (l : Lot) (a : Agent) (r : BitVec 7) (i : Nat) : Nat :=
  if a.isBarker then ((l.sreg (r.toNat + i)).setWidth 32).toNat else (l.vreg a.w (r.toNat + i) a.l).toNat

/-- The 128 bits of a bid: VALUE, bid id, EXPGEN. -/
def Lot.bidQuad (l : Lot) (a : Agent) (r : BitVec 7) : Nat :=
  l.bidWord a r 0 + 2 ^ 32 * l.bidWord a r 1 + 2 ^ 64 * l.bidWord a r 2 + 2 ^ 96 * l.bidWord a r 3

/-- BID (R347, R221). -/
def execBid (p : BitVec 3) (d a b : BitVec 7) (s : State) : Out :=
  s.memOp [use2 a, useCell d, useCell b] p (.bid p d a b)
    (fun l t => ⟨t, l.addr t a .g 0, l.bidQuad t b, 0⟩)

/-- PEEK (R410, R221). -/
def execPeek (p : BitVec 3) (d a : BitVec 7) (s : State) : Out :=
  s.memOp [use2 a, useCell d] p (.peek p d a)
    (fun l t => ⟨t, l.addr t a .g 0, 0, 0⟩)

/-- RECYCLE (R416). -/
def execRecycle (p : BitVec 3) (d a : BitVec 7) (s : State) : Out :=
  s.memOp [use2 a, use1 d] p (.recycle p d a)
    (fun l t => ⟨t, l.addr t a .g 0, 0, 0⟩)

/-- CLOSE (R360). -/
def execClose (p : BitVec 3) (d a : BitVec 7) (s : State) : Out :=
  s.memOp [use2 a, use1 d] p (.close p d a)
    (fun l t => ⟨t, l.addr t a .g 0, 0, 0⟩)

/-! ### Accesses by place (R421) -/

/-- RSEND (R421 to R424). -/
def execRsend (f : FmtQ) (s : State) : Out :=
  let n := (szTy f.sz).bits
  s.memOp [use1 f.a, useW f.d n] f.p (.rsend f)
    (fun l a => ⟨a, l.val a f.a 32, l.val a f.d n, 0⟩)

/-- RFETCH (R421 to R424). -/
def execRfetch (f : FmtQ) (s : State) : Out :=
  let ty := szTy f.sz
  s.memOp [use1 f.a, useW f.d ty.bits] f.p (.rfetch f)
    (fun l a => ⟨a, l.val a f.a 32, 0, 0⟩)

/-! ### Cache operations (R354) -/

def State.cacheOp (s : State) (f : FmtCache) (result : Bool) (i : Instr) : Out :=
  s.memOp ([use2 f.a] ++ (if result then [use1 f.d] else [])) f.p i
    (fun l a => ⟨a, l.addr a f.a f.sp 0, 0, 0⟩)

/-- CFLUSH (R354 to R356). -/
def execCflush (f : FmtCache) (s : State) : Out := s.cacheOp f false (.cflush f)

/-- CINV (R354 to R356). -/
def execCinv (f : FmtCache) (s : State) : Out := s.cacheOp f false (.cinv f)

/-- CINV.DISCARD (R354 to R357). -/
def execCinvDiscard (f : FmtCache) (s : State) : Out := s.cacheOp f true (.cinvDiscard f)

/-- CDISC (R354 to R357). -/
def execCdisc (f : FmtCache) (s : State) : Out := s.cacheOp f false (.cdisc f)

/-- CPREF (R354 to R356): it counts in no counter and raises no fault. -/
def execCpref (f : FmtCache) (s : State) : Out := s.cacheOp f false (.cpref f)

/-! ### TQ (R443) -/

/-- TQ: the index is read as N32. -/
def execTq (p : BitVec 3) (d a : BitVec 7) (table : BitVec 6) (s : State) : Out :=
  s.memOp [use1 a, use1 d] p (.tq p d a table)
    (fun l t => ⟨t, l.val t a 32, 0, 0⟩)

/-! ### FENCE (R183) -/

/-- FENCE: one fence for each participant, which ends by RELEASE_ACTION_COMPLETE. -/
def execFence (p : BitVec 3) (scope : Scope) (kind : FenceKind) (s : State) : Out :=
  s.instr true true [] p (fun v s => v.parts.foldl (fun s a =>
    s.startFence ⟨v.i.core, v.i.bctx, a.w, a.l⟩ kind scope) s)

/-- RELEASE_ACTION_COMPLETE (R164, R184): when the writes that a fence covers are performed, its cache actions follow, as the
banks of its write-backs let them, and the accesses that it held may go. -/
def execReleaseActionComplete (fence : Nat) (s : State) : Out :=
  match s.fences.find? (fun f => f.id == fence) with
  | none => .next s
  | some f =>
    if f.covers.any (fun i => s.unperformed f.t.core f.t.bctx i) then .next s
    else
      let die := dieOf f.t.core
      let gone : List FenceRec := s.fences.filter (fun x => x.id != fence)
      match s.lot? f.t.core f.t.bctx with
      | none => .next { s with fences := gone }
      | some l =>
        match (if f.kind == .acq then (true, s) else s.releaseScope f.t.core l.ctx f.scope) with
        | (false, s) => .next s
        | (true, s) =>
          let s := if f.kind == .rel then s else s.scopeAcquire die l.ctx f.scope
          .next { s with fences := gone }

/-! ### MONITOR and WAITM (R84) -/

/-- The filters that watch a line for a core, with their capacities: a home stack and the core's die directory for a
DRAM line, the vault controller for a vault line, the host-line cache of the line's unit for a host line (R22, R84). -/
def filtersOf (core line : Nat) : List (Nat × Nat) :=
  match region (line * 128) with
  | 0 => [(stackOf (bits (line * 128) 40 0), 16384), (20000 + dieOf core, 2048)]
  | 1 => [(1000 + vaultOf (line * 128), 1024)]
  | _ => [(10000 + line / 32 % 2, 4096)]

/-- Does some thread of a core watch a line? -/
def State.watched (s : State) (core line : Nat) : Bool :=
  s.lotList.any (fun e => e.1 == core && e.2.2.threads.any (fun t => match t.2.mon with
    | some m => !m.scratch && m.line == line && !m.lost
    | none => false))

/-- A WAITM that ends has taken account of the writes before it: a later one returns 0 for later writes only (R449). -/
def Thread.tookWrites (t : Thread) : Thread :=
  { t with mon := t.mon.map (fun m => { m with pending := false, written := false }) }

/-- Has a write been performed that the thread's monitor has still to answer for, reported or not (R84)? -/
def Thread.wroteMon (t : Thread) : Bool :=
  match t.mon with
  | some m => m.pending || m.written
  | Option.none => false

/-- The status of a WAITM is written in the step of the wake (R449). -/
def State.wakeMon (s : State) (c b : Nat) (a : Agent) (d status : Nat) : State :=
  let s := s.onLot c b (fun l =>
    let l := if l.inRange a d 1 then l.setVal a (BitVec.ofNat 7 d) 32 false status else l
    l.setThr a (l.thr a).tookWrites)
  s.wake c b a

/-- Monitors on lines of the global and vault space are lost, by core and line; a parked thread wakes with status 2, unless a
write that was performed before is still being reported to it (R84). -/
def State.loseMonitors (s : State) (sel : Nat → Nat → Bool) : State :=
  s.lotList.foldl (fun s e =>
    e.2.2.allAgents.foldl (fun s a =>
      match (e.2.2.thr a).mon with
      | some m =>
        if !m.scratch && !m.lost && sel e.1 m.line then
          let s := s.onLot e.1 e.2.1 (fun l => l.setThr a { l.thr a with mon := some { m with lost := true } })
          match (e.2.2.thr a).st with
          | .parked (.mon d _) => if m.pending then s else s.wakeMon e.1 e.2.1 a d 2
          | _ => s
        else s
      | none => s) s) s

/-- A line enters a filter, unless the core already has an entry for it, which keeps its place; a full filter drops its oldest
entry. Entries that serve no monitor have left it (log entry 26). -/
def State.armFilter (s : State) (core line : Nat) (f : Nat × Nat) : State :=
  let live := s.m.filters.filter (fun e => s.watched e.core e.line)
  if live.any (fun e => e.filter == f.1 && e.line == line && e.core == core) then { s with m := { s.m with filters := live } }
  else
    let mine := live.filter (fun e => e.filter == f.1)
    if mine.length < f.2 then { s with m := { s.m with filters := live ++ [⟨f.1, line, core⟩] } }
    else match mine with
      | [] => s
      | old :: _ =>
        let s := { s with m := { s.m with filters := live.filter (fun e => e != old) ++ [(⟨f.1, line, core⟩ : FilterEntry)] } }
        s.loseMonitors (fun k n => k == old.core && n == old.line)

/-- MONITOR of one agent: the checks of a 4-byte read; a failing check stops the thread at its next header and leaves it with no
monitor armed (R403). -/
def State.monitor1 (s : State) (v : View) (sp : Space) (scope : Scope) (va : Nat) (a : Agent) : State :=
  let c := v.i.core
  let b := v.i.bctx
  let x (code detail : Nat) : Stop := ⟨code, detail, 0, va, false, v.i.hdr⟩
  let fail (s : State) (code detail : Nat) : State :=
    s.onLot c b (fun l => (l.setThr a { l.thr a with mon := none }).noteStop a (x code detail))
  let arm (s : State) (m : Monitor) : State := s.onLot c b (fun l => l.setThr a { l.thr a with mon := some m })
  if va % 4 != 0 then fail s 0x10 1
  else if sp == .l then
    if v.l.d.scr * 1024 < va + 4 then fail s 0x11 0 else arm s ⟨true, va / 128, scope, false, false, false⟩
  else
    match s.translate c v.l.ctx va with
    | (.bad code detail, s) => fail s code detail
    | (.ok pa attr _ _, s) =>
      match accFault .ld sp pa attr with
      | some code => fail s code 0
      | none =>
        if 8 ≤ region pa then fail s 0x12 0
        else
          let s := arm s ⟨false, pa / 128, scope, false, false, false⟩
          (filtersOf c (pa / 128)).foldl (fun s f => s.armFilter c (pa / 128) f) s

/-- MONITOR (R402, R403). -/
def execMonitor (p : BitVec 3) (sp : Space) (scope : Scope) (r : BitVec 7) (s : State) : Out :=
  s.instr true true [useAddr r sp] p (fun v s =>
    v.parts.foldl (fun s a => s.monitor1 v sp scope (v.l.addr a r sp 0) a) s)

/-- The status that a WAITM returns at once, if any: a write noted before the monitor was lost comes first (R84). -/
def waitmNow (t : Thread) (timeout : Nat) : Option Nat :=
  match t.mon with
  | none => some 2
  | some m => if t.wroteMon then some 0 else if m.lost then some 2 else if timeout = 0 then some 1 else none

/-- WAITM (R448, R449). -/
def execWaitm (p : BitVec 3) (d r : BitVec 7) (s : State) : Out :=
  s.instr true true [use1 d, use1 r] p (fun v s =>
    let now (a : Agent) := waitmNow (v.l.thr a) (v.l.val a r 32)
    let s := s.onLot v.i.core v.i.bctx (fun l => v.parts.foldl (fun l a =>
      match now a with
      | some st =>
        let l := l.setVal a d 32 false st
        l.setThr a (l.thr a).tookWrites
      | none => l) l)
    let parks := (v.parts.filter (fun a => (now a).isNone)).map (fun a =>
      let n := v.l.val a r 32
      (a, Park.mon d.toNat (if n = 0xFFFFFFFF then none else some n)))
    if parks.isEmpty then s else s.parkAll parks)

/-- MONITOR_REPORT (R84): a write performed is reported to a watching thread. -/
def execMonitorReport (t : LaneId) (s : State) : Out :=
  match s.lot? t.core t.bctx with
  | none => .next s
  | some l =>
    let a := laneAgent t
    match (l.thr a).mon with
    | none => .next s
    | some m =>
      if !m.pending then .next s
      else match (l.thr a).st with
      | .parked (.mon d _) => .next (s.wakeMon t.core t.bctx a d 0)
      | _ => .next (s.setLot t.core t.bctx (l.setThr a { l.thr a with mon := some { m with pending := false, written := true } }))

/-- WAITM_TIMEOUT (R84): the cycles have passed; when they have is not modelled (log entry 3). The first of the events decides:
where a write was performed before and its report is still on its way, the status is 0 (log entry 111). -/
def execWaitmTimeout (t : LaneId) (s : State) : Out :=
  match s.lot? t.core t.bctx with
  | none => .next s
  | some l =>
    let th := l.thr (laneAgent t)
    match th.st with
    | .parked (.mon d (some _)) => .next (s.wakeMon t.core t.bctx (laneAgent t) d (if th.wroteMon then 0 else 1))
    | _ => .next s

end Sys2Proof.Machine
end

