-- ==== Sys2Proof/Machine/MemEvents.lean ====
section
/-! DEFINITION. The events of split transactions: the core's checks, the visit of the home, replies and performing, host
AtomicOps, flow credits, and hammer cells at their homes (03_issue.md R85; 06_memory.md R151, R158 to R163; 07_ordering.md
R190 to R194; 08_atomics.md R209 to R228; 11_faults.md R284 to R286; 14_ref_a_c.md R355, R356). -/

namespace Sys2Proof.Machine

/-! ### The core's checks (R284, R285) -/

/-- A lane fails a core check. In a lot that is ending the entry is discarded, with a record if the lot fails; in a halted
launch it is recorded and kept for the replay (R288, R303, R304). The stop is noted; it is not taken yet. -/
def State.checkFailed (s : State) (a : Acc) (x : Stop) : State :=
  match s.lot? a.t.core a.t.bctx with
  | none => s.endAcc a
  | some l =>
    match l.phase with
    | .cancelling => s.endAcc a
    | .failing _ | .draining => (s.recordStop a { x with replay := false }).endAcc a
    | _ =>
      let s := s.setAcc { a with phase := .replay x }
      if (s.haltingLot l.launch).isSome then
        (s.recordStop a x).onLot a.t.core a.t.bctx (fun l => l.unexitDebug (laneAgent a.t))
      else s.noteOnly a.t.core a.t.bctx (laneAgent a.t) x

/-- Is an access checked without a walk of the page tables? -/
def Acc.noWalk (a : Acc) : Bool :=
  a.misaligned || a.sp == .l || [AccKind.tq, .lotdone, .rsend, .rfetch].contains a.kind

/-- How the walk of an access has come on. -/
def State.accGate (s : State) (a : Acc) : EngRes := if a.noWalk then .ok 0 else s.translateGate (.acc a.id) a.t.core a.ctx a.va

/-- What the checks of an access found. -/
def State.checked (s : State) (a : Acc) (c : Checked) : State :=
  match c with
  | .pass pa attr modid => (s.setAcc { a with phase := .ready, pa := pa, attr := attr, modid := modid }).recheck a.t.core
  | .bad code detail tag =>
    if a.kind = .cpref then s.endAcc a
    else
      let pa := if a.noWalk then a.pa else match s.translate a.t.core a.ctx a.va with
        | (.ok pa _ _ _, _) => pa
        | (.bad _ _, _) => 0
      s.checkFailed { a with pa := pa } (a.stop code detail tag)

/-- The checks of one access, oldest first for each thread, so that the oldest failure is the one reported. The reads of its walk may
have to wait, and one that is lost on the way is its failure (R171, R284, R285, R313, R316). -/
def State.checkOne (s : State) (acc : Nat) : State :=
  match s.acc? acc with
  | none => s
  | some a =>
    if a.phase != .walk || s.accs.any (fun x => x.t == a.t && x.id < a.id && x.phase == .walk) then s
    else match s.accGate a with
    | .wait => s
    | .bad code detail => (s.endTransfers (.acc a.id)).checked a (.bad code detail 0)
    | .ok _ =>
      let s := if a.noWalk then s else s.translateServed (.acc a.id) a.t.core a.ctx a.va
      let (c, s) := s.checkAcc a
      (if a.noWalk then s else s.endTransfers (.acc a.id)).checked a c

/-- Accesses that get their answer together with `a`: those that join its walk, of its die, context and VA[79:16]; without
a walk, the lanes of its instruction (R89, R173). -/
def joinsWalk (a x : Acc) : Bool :=
  x.phase == .walk
  && (if a.noWalk then x.noWalk && x.op == a.op
      else !x.noWalk && dieOf x.t.core == dieOf a.t.core && x.ctx == a.ctx && x.va / 65536 == a.va / 65536)

/-- PAGE_WALK: one walk serves every access that has joined it, and each failure is its thread's own (R171, R173, R285). -/
def execPageWalk (acc : Nat) (s : State) : Out :=
  match s.acc? acc with
  | none => .next s
  | some a =>
    let group := if a.phase == .walk then s.accs.filter (joinsWalk a) else []
    let s := if a.phase == .walk && s.accGate a == .wait then s.translateWait (.acc a.id) a.t.core a.ctx a.va else s
    let s := group.foldl (fun s x => s.checkOne x.id) s
    let lots := (group.map (fun x => (x.t.core, x.t.bctx))).eraseDups
    .next (lots.foldl (fun s p =>
      (s.takeStops p.1 p.2 (((group.filter (fun x => (x.t.core, x.t.bctx) == p)).map (fun x => laneAgent x.t)).eraseDups)).recheckLot p.1 p.2) s)

/-- HOME_ACCESS (R151): an access that its order, fences, flow and credit let go reaches its home. -/
def execHomeAccess (acc : Nat) (s : State) : Out :=
  match s.acc? acc with
  | none => .next s
  | some a => if a.phase = .ready && s.free? a then .next (s.atHome a) else .next s

/-! ### Replies -/

/-- Bytes of a scratchpad share (R148). -/
def Lot.scratchNat (l : Lot) (off n : Nat) : Nat := ofBytes ((List.range n).map (fun i => Tbl.get (0 : Byte) l.scratch (off + i)))

def Lot.setScratch (l : Lot) (off : Nat) (bs : List Byte) : Lot :=
  match bs with
  | [] => l
  | b :: rest => Lot.setScratch { l with scratch := Tbl.put 0 l.scratch off b } (off + 1) rest

/-- The line of an access comes to its core's L1, and `f` follows. An access whose granted line has left the die asks for it
again; one whose line finds no room waits. -/
def State.inCore (s : State) (a : Acc) (f : State → State) : State :=
  let core := a.t.core
  let line := a.pa / 128
  if !s.holds core a.ctx line then
    (if a.phase == .granted then s.setAcc { a with phase := .ready, delivered := false } else s)
  else if s.inL1 core line || s.canFill core line then f (s.fillL1 core a.ctx a.pa a.attr)
  else s.waitVictim core line

/-- The result quad of PEEK from the 16 bytes of a cell: its status is the STATE field (R221). -/
def peekQuad (v : Nat) : Nat := (Cell.ofNat v).quad (Cell.ofNat v).st

/-- A load is complete, or one of its halves is (R179). -/
def State.loadDue (s : State) (a : Acc) (read : State → Nat → Nat → Nat × State) : State :=
  match s.loadPart a read with
  | (some v, s) => s.resultDue a v
  | (none, s) => s

/-- A result that the core or the die can give now. -/
def State.replyNow (s : State) (a : Acc) : State :=
  match a.kind with
  | .ld =>
    if a.sp = .l then
      match s.lot? a.t.core a.t.bctx with
      | some l => s.loadDue a (fun s off n => (l.scratchNat (a.va + off) n, s))
      | none => s.endAcc a
    else if a.cached then s.inCore a (fun s => s.loadDue a (fun s off n => (s.coreNat a.t.core (a.pa + off) n, s)))
    else s
  | .atom =>
    if a.atomInL1 then
      s.inCore a (fun s =>
        if s.elidedAt a.pa then s.faultDue a 0x12 a.va
        else
          let (old, s) := s.l1Atom a
          s.resultDue a old)
    else s
  | .peek =>
    if s.hits a then s.inCore a (fun s => s.resultDue a (peekQuad (s.dieNat (dieOf a.t.core) a.pa 16))) else s
  | .lotdone =>
    match s.lot? a.t.core a.t.bctx with
    | some l => s.resultDue a (wrapN (match s.launch? l.launch with
        | some x => x.retired
        | none => 0) 32)
    | none => s.endAcc a
  | _ => s

/-- LOAD_REPLY (R85, R286, R394): a reply writes its destination, or its error is due. -/
def execLoadReply (acc : Nat) (s : State) : Out :=
  match s.acc? acc with
  | none => .next s
  | some a =>
    if !a.hasResult || a.back.isSome then .next s
    else match a.phase with
    | .failed code addr => .next (s.faultDue a code addr)
    | .replied v => .next (s.resultDue a v)
    | .ready | .granted => if s.free? a then .next (s.replyNow a) else .next s
    | _ => .next s

/-! ### Accesses without a result -/

/-- The copies that an invalidating cache operation reaches (R355). -/
def cacheReach (core : Nat) (sc : Scope) (h : Holder) : Bool :=
  match sc with
  | .lot => h == .l1 core
  | .clu => h.inCluster (cluOf core)
  | _ => true

/-- Is a line held under another context's tag (R165)? -/
def State.foreignLine (s : State) (a : Acc) : Bool :=
  match s.dieLine? (dieOf a.t.core) (a.pa / 128) with
  | some d => d.ctx != a.ctx
  | none => false

/-- Has a cache operation dirty bytes to write to the home: those of the line for CFLUSH, those of the copies in its reach that no
cluster cache takes for CINV and for a line of another context (R165, R355)? -/
def State.writesBack (s : State) (a : Acc) : Bool :=
  let die := dieOf a.t.core
  let line := a.pa / 128
  let reach := cacheReach a.t.core a.scope
  let drops : Bool := match s.dieLine? die line with
    | none => false
    | some d =>
      let toClu (k : Nat) : Bool := !d.strm && d.copies.any (fun x => x.holder == .clu (cluOf k) && !reach x.holder)
      (s.earlyOf die line).any (fun e => reach (.l1 e.core) && !toClu e.core)
      || d.copies.any (fun x => reach x.holder && x.dirty != 0 && (match x.holder with
        | .l1 k => !toClu k
        | .clu _ => true))
  match a.kind with
  | .cflush => 3 ≤ a.scope.code.toNat && s.lineDirty die line
  | .cinv => drops
  | _ => s.foreignLine a && drops

/-- A cache operation on the copies of a DRAM or vault line that its scope reaches; how many it discarded that held dirty bytes.
A line under another context's tag is first written back and dropped, within the reach (R165, R355). -/
def State.dieCacheOp (s : State) (a : Acc) : Nat × State :=
  let core := a.t.core
  let die := dieOf core
  let line := a.pa / 128
  let reach := cacheReach core a.scope
  let foreign := s.foreignLine a
  match a.kind with
  | .cflush =>
    if a.scope.code.toNat < 3 then (0, s)
    else (0, if foreign then s.evictLine die line else s.cleanLine die line)
  | .cinv => (0, s.dropCopies die line reach)
  | _ => if foreign then (0, s.dropCopies die line reach) else s.discardCopies die line reach

/-- A cache operation on a line: it ends when its write-backs are done and its copies are gone, and waits for a bank, a port or
a change of its route where it has dirty bytes to write (R275, R308, R316, R355, R356). -/
def State.performCacheOp (s : State) (a : Acc) : State :=
  let core := a.t.core
  let die := dieOf core
  let line := a.pa / 128
  let put (s : State) (n : Nat) : State := (s.onLot core a.t.bctx (fun l => l.putResult a n)).endAcc a
  if region a.pa = 2 then
    if a.scope != .sys then put s 0
    else
      let k := hostLineOf a.pa
      match Tbl.get none s.m.hostLines k with
      | none => put s 0
      | some h =>
        if h.dirty then s.viaHost a (fun s => put (s.hostClean k (a.kind != .cflush)) 0)
        else put (s.hostClean k (a.kind != .cflush)) 0
  else if region a.pa = 1 && vaultDie a.pa != die then put s 0
  else if isDram line && s.writesBack a then
    if s.backLost die line || s.channelRetired (lineStack line) (lineChannel line) then
      (s.endTransfers (.line die line)).refuseAcc a 0x31 a.va
    else if !s.canClean die line then s.backWait die line
    else put (s.dieCacheOp a).2 (s.dieCacheOp a).1
  else put (s.dieCacheOp a).2 (s.dieCacheOp a).1

/-- A store is complete and its count falls, or one of its halves is performed (R179). -/
def State.storeDue (s : State) (a : Acc) (write : State → Nat → Nat → Nat → State) : State :=
  match s.storePart a write with
  | (true, s) => s.endAcc a
  | (false, s) => s

/-- What an access without a result does when the core or the die can perform it now. -/
def State.performNow (s : State) (a : Acc) : State :=
  match a.kind with
  | .st =>
    if a.sp = .l then
      s.storeDue a (fun s off n v =>
        s.onLot a.t.core a.t.bctx (fun l => (l.setScratch (a.va + off) (toBytes v n)).markScratch a.va))
    else if a.cached then
      s.inCore a (fun s =>
        if s.elidedAt a.pa then s.refuseAcc a 0x12 a.va
        else s.storeDue a (fun s off n v => s.writeL1 a.t.core a.ctx (a.pa + off) n v a.attr .lot))
    else s
  | .atom | .red =>
    if a.atomInL1 then
      s.inCore a (fun s => if s.elidedAt a.pa then s.refuseAcc a 0x12 a.va else (s.l1Atom a).2.endAcc a)
    else s
  | .cflush | .cinv | .cinvDiscard | .cdisc => s.performCacheOp a
  | .rsend =>
    -- accepted by the destination's reorder buffer: ST falls with the last lane (R85, R424)
    if a.cmp = 2 || !s.arrived a then s
    else
      let more := s.accs.any (fun x => x.op == a.op && x.id != a.id && x.t.core == a.t.core && x.t.bctx == a.t.bctx && x.t.w == a.t.w && x.cmp != 2)
      let s := s.setAcc { a with cmp := 2 }
      if more then s else (s.countDown a.t.core a.t.bctx a.t.w 1).recheck a.t.core
  | _ => s

/-- STORE_PERFORMED (R85, R435): an access without a result is performed at LOT scope, and its counter falls. -/
def execStorePerformed (acc : Nat) (s : State) : Out :=
  match s.acc? acc with
  | none => .next s
  | some a =>
    if a.hasResult || a.back.isSome then .next s
    else match a.phase with
    | .performed => .next (s.endAcc a)
    | .ready | .granted => if s.free? a then .next (s.performNow a) else .next s
    | _ => .next s

/-! ### Host AtomicOps and credits -/

/-- HOST_ATOMICOP_COMPLETION (R216, R217): the host has performed the operation in its memory, for which it takes back the line
where the host-line cache has obtained it again; or it answers that it does not support it: the fallback is then taken, for
this and every later operation. -/
def execHostAtomicopCompletion (acc : Nat) (unsupported : Bool) (s : State) : Out :=
  match s.acc? acc with
  | none => .next s
  | some a =>
    if a.phase != .sent || !(a.kind == .atom || a.kind == .red) then .next s
    else if unsupported then
      .next (s.answered a (({ s with p := { s.p with atomicOps := false } }).homeRmw a))
    else
      let s := s.hostClean (hostLineOf a.pa) true
      let old := ofBytes (s.m.mem.readBytes a.pa a.size)
      let s := match atomNew a.aop a.ty old a.data a.cmp with
        | some v => ({ s with m := { s.m with mem := s.m.mem.writeBytes a.pa (toBytes v a.size) } }).markMonitors (a.pa / 128) (fun _ => true)
        | none => s
      .next (s.answered a (s.answer a old))

/-- FLOW_CREDIT_RETURN (R194): an access of an ordered flow obtains a credit of its destination's buffer. -/
def execFlowCreditReturn (acc : Nat) (s : State) : Out :=
  match s.acc? acc with
  | none => .next s
  | some a => .next (if a.credit then s else s.setAcc { a with credit := true })

/-! ### Hammer cells at their homes (R222 to R228) -/

/-- A change of a cell by its engine: the cell after, and the reply. -/
def State.cellAct (s : State) (pa : Nat) (f : Cell → Cell × Nat) : Nat × State :=
  let (v, s) := s.homeRead pa 16
  let (c, r) := f (Cell.ofNat v)
  (r, if c.toNat = v then s else s.homeWrite pa 16 c.toNat)

/-- A cell operation of this module at its home stack. -/
def State.cellVisit (s : State) (a : Acc) (k : AccKind) (f : Acc → Cell → Cell × Nat) : State :=
  let core := a.t.core
  let line := a.pa / 128
  match s.homeRefusal a.pa (k == .peek) with
  | some code => s.refuseAcc a code a.va
  | none =>
    if s.elidedAt a.pa then s.refuseAcc a 0x12 a.va
    else if k = .peek then
      if !s.canFill core line then s.waitVictim core line
      else s.atBank a.pa (.acc a.id) (fun s =>
        let s := s.fillL1 core a.ctx a.pa a.attr
        s.answer a (peekQuad (s.dieNat (dieOf core) a.pa 16)))
    else s.atBank a.pa (.acc a.id) (fun s =>
      let (v, s) := s.cellAct a.pa (f a)
      s.answer a v)

/-- A cell operation that arrives at its home stack, of this module or of another; the reply to another module waits for a
circuit to it. But for PEEK, the issuing die first gives up its copies of the cell's line (R224, R225, R228, R319). In MINIMAL no
other module is served (R325). -/
def State.cellHome (s : State) (i : Instr) (r : CellReq) (k : AccKind) (f : Acc → Cell → Cell × Nat) (g : Cell → Cell × Nat) : State :=
  match r with
  | .own id =>
    match s.acc? id with
    | none => s
    | some a =>
      if a.kind != k || a.phase != .ready || !s.free? a || s.remoteCell a || s.hits a then s
      else
        let s := if k == .peek then s else s.surrender (dieOf a.t.core) (a.pa / 128)
        if !s.arrived a then s
        else if s.pathDown a then s.refuseAcc a 0x31 a.va
        else s.answered a (s.cellVisit a k f)
  | .other modid pa _ _ _ =>
    if s.minimal then s
    else if region pa != 0 then s.sendFabric modid (.remoteReply modid pa (.error 0x30))
    else match s.homeRefusal pa false with
    | some code => (s.inputDone i).sendFabric modid (.remoteReply modid pa (.error code))
    | none =>
      if !s.bankOpen pa (.input pa) then (s.again i (.input pa)).bankWait pa (.input pa)
      else
        let (v, s) := ((s.bankServed pa (.input pa)).inputDone i).cellAct pa g
        s.sendFabric modid (.remoteReply modid pa (if k == .bid || k == .peek then
            .result (BitVec.ofNat 64 v) (BitVec.ofNat 32 (bits v 95 64)) (BitVec.ofNat 32 (bits v 127 96))
          else .result 0 0 (BitVec.ofNat 32 v)))

/-- CELL_BID_AT_HOME (R222, R224). -/
def cellBid (s : State) (r : CellReq) (q : Nat × Nat × Nat) : State :=
  s.cellHome (.cellBidAtHome r) r .bid (fun a c => c.bid (bits a.data 63 0) (bits a.data 95 64) (bits a.data 127 96)) (fun c => c.bid q.1 q.2.1 q.2.2)

end Sys2Proof.Machine
namespace Sys2Proof

/-- The bid of another module's request. -/
def CellReq.bidArgs : CellReq → Nat × Nat × Nat
  | .own _ => (0, 0, 0)
  | .other _ _ v i e => (v.toNat, i.toNat, e.toNat)

end Sys2Proof
namespace Sys2Proof.Machine

def execCellBidAtHome (r : CellReq) (s : State) : Out := .next (cellBid s r r.bidArgs)

/-- CELL_PEEK_AT_HOME (R225): the 16 bytes with the STATE as status; a local peek installs the line. -/
def execCellPeekAtHome (r : CellReq) (s : State) : Out :=
  .next (s.cellHome (.cellPeekAtHome r) r .peek (fun _ c => (c, c.toNat)) (fun c => (c, c.quad c.st)))

/-- CELL_CLOSE_AT_HOME (R223). -/
def execCellCloseAtHome (r : CellReq) (s : State) : Out :=
  .next (s.cellHome (.cellCloseAtHome r) r .close (fun _ c => c.close) (fun c => c.close))

/-- CELL_RECYCLE_AT_HOME (R223). -/
def execCellRecycleAtHome (r : CellReq) (s : State) : Out :=
  .next (s.cellHome (.cellRecycleAtHome r) r .recycle (fun _ c => c.recycle) (fun c => c.recycle))

/-- A request for a cell of another module goes out where a circuit to the module is open: it is outstanding on that link (R228,
R319). -/
def State.sendRemoteReq (s : State) (a : Acc) : State :=
  match s.circuit a.modid with
  | some n => (s.send (.remoteCell a.modid a.kind a.pa a.data)).setAcc { a with phase := .sent, link := n + 3 }
  | none => s

/-- REMOTE_CELL_REQUEST (R228): a request for a cell of another module goes out in a slot with a circuit to it, and its
reply comes back. -/
def execRemoteCellRequest (acc : Nat) (reply : Option RemoteReply) (s : State) : Out :=
  match s.acc? acc with
  | none => .next s
  | some a =>
    if !a.kind.isCell then .next s
    else match a.phase, reply with
    | .ready, _ => .next (if s.free? a && s.remoteCell a then s.sendRemoteReq a else s)
    | .sent, some (.result v w st) =>
      let quad := v.toNat + 2 ^ 64 * w.toNat + 2 ^ 96 * st.toNat
      .next (s.answer a (if a.kind == .bid || a.kind == .peek then quad else st.toNat))
    | .sent, some (.error code) => .next (s.refuseAcc a code a.va)
    | _, _ => .next s

/-- REMOTE_CELL_TIMEOUT (R228): a request unanswered 100 µs after its die handed it to a scale-out port gets fault 0x31, also where no
slot has had a circuit to its module, which no module may hold (log entry 84). -/
def execRemoteCellTimeout (acc : Nat) (s : State) : Out :=
  match s.acc? acc with
  | none => .next s
  | some a =>
    if a.kind.isCell && (a.phase = .sent || (a.phase = .ready && s.remoteCell a && s.free? a)) then .next (s.refuseAcc a 0x31 a.va)
    else .next s

end Sys2Proof.Machine
end

