-- ==== Sys2Proof/Machine/Booth.lean ====
section
/-! DEFINITION. Booths and alias commands: the micro-ops of the running booth of a bank, its segments, refresh and windows,
and the commands that a bank takes from its queue (10_banks.md R257 to R260, R268 to R278). -/

namespace Sys2Proof.Machine

/-! ### Rows (R154, R261, R268) -/

/-- Location of a row of a bank. -/
def rowLoc (bank row : Nat) : Nat :=
  locationOf (bank / 256) (row * 2 ^ 18 + bank % 16 * 2 ^ 14 + bank / 16 % 16 * 2 ^ 10)

/-- The 8,192 bits of a row as stored: column c is bit c mod 8 of byte c / 8 (R268, R278). -/
def State.rowBits (s : State) (bank row : Nat) : BitVec 8192 :=
  BitVec.ofNat 8192 (ofBytes (s.m.mem.readBytes (rowLoc bank row) 1024))

/-- Monitors on the lines of a row segment note a write at the home (R84). -/
def State.markRow (s : State) (loc : Nat) : State :=
  (List.range 8).foldl (fun s i => s.markMonitors (loc / 128 + i) (fun _ => true)) s

/-- Writes the bytes of a row segment as stored. -/
def State.putSegment (s : State) (loc : Nat) (bs : List Byte) : State :=
  ({ s with m := { s.m with mem := s.m.mem.writeBytes loc bs } }).markRow loc

def State.putRow (s : State) (bank row : Nat) (v : BitVec 8192) : State :=
  s.putSegment (rowLoc bank row) (toBytes v.toNat 1024)

/-- Does a row segment hold uncorrectable data? -/
def State.rowPoisoned (s : State) (loc : Nat) : Bool := (List.range 8).any (fun i => s.poisoned (loc + 128 * i))

/-! ### The end of a run and of a micro-op -/

/-- A run ends in DONE or ERROR; RUNS counts it (R272, R273). -/
def Booth.ends (b : Booth) (st : BoothState) (err : Nat) : Booth :=
  { b with st := st, err := BitVec.ofNat 8 err, runs := b.runs + 1, segCount := 0, refreshing := b.refreshing || b.refreshDue }

/-- A segment boundary: a refresh that falls due is performed (R274). -/
def Booth.boundary (b : Booth) : Booth := { b with segCount := 0, refreshing := b.refreshing || b.refreshDue }

/-- The end of a micro-op other than BEND: PC advances, or the run stops at PC 1,023; waiting accesses get their window
(R271, R272, R275). -/
def State.microEnd (s : State) (bank : Nat) (b : Booth) : State :=
  if b.pc.toNat = 1023 then s.setBooth bank (b.ends .error 0x03)
  else
    let b := { b with pc := b.pc + 1, segCount := b.segCount + 1 }
    if (b.waiting.filter (fun x => s.waits x)).isEmpty && !s.channelBusy bank then s.setBooth bank b
    else s.setBooth bank { b with st := .suspended, served := 0 }

/-- A record of a bank, for the context of its command (R272, R328). -/
def State.bankRec (s : State) (ctx code addr : Nat) : State :=
  s.writeRec ctx
    { kind := 4, code := code, flags := 1, core := 0xFFFF, desc := 0, lot := 0, lotend := 0, warp := 0xFF, tag := 0,
      outcome := 0, detail := 0, lanes := 0, pc := 0, addr := addr }

/-- The run stops at a row op that meets an uncorrectable error (0x30, R272) or a retired channel (0x31, R328; log entry 118), with
a record. -/
def State.rowError (s : State) (bank : Nat) (b : Booth) (row code : Nat) : State :=
  (s.setBooth bank (b.ends .error code)).bankRec b.owner.toNat code (rowLoc bank row)

/-- Is the channel of a bank retired (R28, R328)? -/
def State.bankRetired (s : State) (bank : Nat) : Bool := s.channelRetired (bank / 256) (bank / 16 % 16)

/-- May the booth of the bank execute a micro-op now (R274, R275)? -/
def Booth.moves (b : Booth) : Bool := b.st == .running && !b.refreshing && b.segCount < 64

/-- A micro-op of the booth of the active bank: `row` is the row offset that it uses, if any; `f` acts on the booth with
that row's bits, and answers the booth after and the row's new bits where it writes them (R271, R272). -/
def State.micro (s : State) (row : Option (BitVec 10)) (f : Booth → BitVec 8192 → Booth × Option (BitVec 8192)) : Out :=
  let b := s.booth s.actBank
  if !b.moves then .next s
  else match row with
  | none => .next (s.microEnd s.actBank (f b 0).1)
  | some n =>
    let r := b.base.toNat + n.toNat
    if 262144 ≤ r then .next (s.setBooth s.actBank (b.ends .error 0x02))
    else if s.bankRetired s.actBank then .next (s.rowError s.actBank b r 0x31)
    else if s.rowPoisoned (rowLoc s.actBank r) then .next (s.rowError s.actBank b r 0x30)
    else
      let (b, w) := f b (s.rowBits s.actBank r)
      let s := match w with
        | some v => s.putRow s.actBank r v
        | none => s
      .next (s.microEnd s.actBank b)

/-- Sel(f) of R271. -/
def Booth.sel (b : Booth) (f : BitVec 2) (row : BitVec 8192) : BitVec 8192 :=
  match f.toNat with
  | 0 => row
  | 1 => 0
  | 2 => BitVec.allOnes 8192
  | _ => b.tag

/-- Rep(h) of R271. -/
def repBit (h : Bool) : BitVec 8192 := if h then BitVec.allOnes 8192 else 0

/-- BKEY (R271). -/
def execBkey (o : MicroOp) (s : State) : Out :=
  s.micro (if o.f = 0 then some o.row else none) (fun b r => ({ b with key := b.sel o.f r }, none))

/-- BMASK (R271). -/
def execBmask (o : MicroOp) (s : State) : Out :=
  s.micro (if o.f = 0 then some o.row else none) (fun b r => ({ b with mask := b.sel o.f r }, none))

/-- BCMP (R271). -/
def execBcmp (o : MicroOp) (s : State) : Out :=
  s.micro (some o.row) (fun b r =>
    let m := (~~~(r ^^^ b.key) ||| ~~~b.mask) ^^^ repBit o.h
    ({ b with tag := if o.g then m else b.tag &&& m }, none))

/-- BWRT (R271). -/
def execBwrt (o : MicroOp) (s : State) : Out :=
  s.micro (some o.row) (fun b r =>
    let v := match o.f.toNat with
      | 0 => b.key
      | 1 => ~~~b.key
      | 2 => b.tag
      | _ => ~~~b.tag
    let w := b.mask &&& (b.tag ||| repBit o.g)
    (b, some ((r &&& ~~~w) ||| (v &&& w))))

/-- BTAGAND (R271). -/
def execBtagand (o : MicroOp) (s : State) : Out :=
  s.micro (some o.row) (fun b r => ({ b with tag := b.tag &&& (r ^^^ repBit o.h) }, none))

/-- BTAGOR (R271). -/
def execBtagor (o : MicroOp) (s : State) : Out :=
  s.micro (some o.row) (fun b r => ({ b with tag := b.tag ||| (r ^^^ repBit o.h) }, none))

/-- BTAGNOT (R271). -/
def execBtagnot (_o : MicroOp) (s : State) : Out := s.micro none (fun b _ => ({ b with tag := ~~~b.tag }, none))

/-- BCNT (R271). -/
def execBcnt (o : MicroOp) (s : State) : Out :=
  s.micro none (fun b _ =>
    let n : Word64 := BitVec.ofNat 64 (popCount (b.tag &&& b.mask).toNat 8192 * 2 ^ o.sh.toNat)
    let a := Tbl.get 0 b.ba o.f.toNat
    ({ b with ba := Tbl.put 0 b.ba o.f.toNat (if o.g then a - n else a + n) }, none))

/-- BSEG (R271, R274): a segment boundary. -/
def execBseg (_o : MicroOp) (s : State) : Out :=
  let b := s.booth s.actBank
  if !b.moves then .next s
  else
    let s := s.microEnd s.actBank b
    .next (s.setBooth s.actBank (s.booth s.actBank).boundary)

/-- BEND (R271): the run ends, PC on the BEND (R273). -/
def execBend (_o : MicroOp) (s : State) : Out :=
  let b := s.booth s.actBank
  if !b.moves then .next s else .next (s.setBooth s.actBank (b.ends .doneS 0))

/-! ### Segments, refresh, resumption -/

/-- SEGMENT_COUNT_EXPIRY (R274): after 64 micro-ops without a BSEG a segment ends. -/
def execSegmentCountExpiry (bank : Nat) (s : State) : Out :=
  let b := s.booth bank
  .next (if 64 ≤ b.segCount then s.setBooth bank b.boundary else s)

/-- BOOTH_RESUME (R275): the window has served the waiting accesses, or 16 of them, and the booth goes on; or the write-back of a
line, to which nothing comes back of itself, is served in its turn. -/
def execBoothResume (bank : Nat) (s : State) : Out :=
  let b := s.booth bank
  let live := b.waiting.filter (fun x => s.waits x)
  if b.st != .suspended || b.refreshing || s.channelBusy bank then .next s
  else if live.isEmpty || 16 ≤ b.served then .next (s.setBooth bank { b with st := .running, waiting := live, served := 0 })
  else match live with
  | .line die line :: _ => .next (if s.canClean die line then s.cleanLine die line else s)
  | _ => .next s

/-- REFRESH_DUE (R274): a refresh of a bank falls due, or will within 2 µs. A running booth performs it at its next segment
boundary; another bank at once. -/
def execRefreshDue (bank : Nat) (s : State) : Out :=
  let b := s.booth bank
  .next (s.setBooth bank { b with refreshDue := true, refreshing := b.refreshing || b.st != .running })

/-- REFRESH_COMPLETE (R274). -/
def execRefreshComplete (bank : Nat) (s : State) : Out :=
  let b := s.booth bank
  .next (if b.refreshing then s.setBooth bank { b with refreshing := false, refreshDue := false } else s)

/-! ### Commands at the head of a bank's queue (R257, R260, R269) -/

/-- May the bank take a booth-class command? Not while a run has not ended, nor during a refresh. -/
def Booth.takes (b : Booth) : Bool := b.st != .running && b.st != .suspended && !b.refreshing

/-- OWNER changes with the context of a BPARM or BRUN, and the program buffer is cleared (R269). -/
def Booth.own (b : Booth) (ctx : Nat) : Booth :=
  if b.owner.toNat = ctx % 4096 then b else { b with owner := BitVec.ofNat 12 ctx, prog := [] }

/-- Takes the head of the queue if it is the named command, while its channel, and that of an RCOPY's source, is not retrained and the grants are above
FLOOR (13_platform.md R328, R329). A command one of whose channels has been retired since it was accepted is dropped with a
record of code 0x31 (R328; log entry 98). -/
def State.takeCmd (s : State) (bank op : Nat) (f : BankCmd → State → State) : Out :=
  let b := s.booth bank
  match b.queue with
  | [] => .next s
  | c :: rest =>
    let banks := bank :: (if op = 5 then [bankOf (bank / 256) (bits c.data 25 0 * 1024)] else [])
    if !b.takes || c.op != op || banks.any (fun k => s.channelBusy k) || s.stackHeld (bank / 256) then .next s
    else if banks.any (fun k => s.bankRetired k) then .next ((s.setBooth bank { b with queue := rest }).bankRec c.ctx 0x31 c.loc)
    else .next (f c (s.setBooth bank { b with queue := rest }))

/-- BRUN (R257, R268). -/
def execBrun (bank : Nat) (s : State) : Out :=
  s.takeCmd bank 1 (fun c s =>
    let b := (s.booth bank).own c.ctx
    s.setBooth bank { b with
      key := 0, mask := 0, tag := 0, ba := [], pc := BitVec.ofNat 10 c.data, base := BitVec.ofNat 18 (rowOf (stackOffset c.loc)),
      st := .running, err := 0, segCount := 0 })

/-- BPARM (R257): one program word for each 4 bytes. -/
def execBparm (bank : Nat) (s : State) : Out :=
  s.takeCmd bank 2 (fun c s =>
    let b := (s.booth bank).own c.ctx
    let first := bits c.loc 9 2 + 256 * c.qtr
    let prog := (List.range (c.size / 4)).foldl (fun p i =>
      Tbl.put 0 p ((first + i) % 1024) (BitVec.ofNat 32 (c.data / 2 ^ (32 * i)))) b.prog
    s.setBooth bank { b with prog := prog })

/-- RFILL (R257). -/
def execRfill (bank : Nat) (s : State) : Out :=
  s.takeCmd bank 4 (fun c s =>
    s.putSegment (c.loc / 1024 * 1024) ((List.range 1024).map (fun o => BitVec.ofNat 8 (c.data / 2 ^ (8 * (o % 4))))))

/-- RCOPY (R257): the segment at a stack offset of the same stack. Lines that hold uncorrectable data stay so in the
copy (log entry 27). -/
def execRcopy (bank : Nat) (s : State) : Out :=
  s.takeCmd bank 5 (fun c s =>
    let src := locationOf (bank / 256) (bits c.data 25 0 * 1024)
    let dst := c.loc / 1024 * 1024
    let s := s.putSegment dst (s.m.mem.readBytes src 1024)
    { s with m := { s.m with poison := (List.range 8).foldl (fun p i =>
        if s.poisoned (src + 128 * i) then Tbl.put false p (dst / 128 + i) true else p) s.m.poison } })

/-! ### BSTAT (R273) -/

def BoothState.code : BoothState → Nat
  | .idle => 0 | .running => 1 | .suspended => 2 | .doneS => 3 | .error => 4

/-- The status word. -/
def Booth.status (b : Booth) : Nat :=
  b.st.code + (if b.st = .error then b.err.toNat else 0) * 2 ^ 8 + b.pc.toNat * 2 ^ 16 + b.queue.length * 2 ^ 26
  + b.owner.toNat * 2 ^ 32 + b.runs.toNat * 2 ^ 44

/-- The B64 value at an offset of the unit. -/
def Booth.statAt (b : Booth) (off : Nat) : Nat :=
  match off with
  | 0x00 => b.status
  | 0x08 => (Tbl.get 0 b.ba 0).toNat
  | 0x10 => (Tbl.get 0 b.ba 1).toNat
  | 0x18 => (Tbl.get 0 b.ba 2).toNat
  | 0x20 => (Tbl.get 0 b.ba 3).toNat
  | _ => 0

/-- BSTAT (R257, R273): a status load at its stack. It does not wait for the queue. -/
def execBstat (acc : Nat) (s : State) : Out :=
  match s.acc? acc with
  | none => .next s
  | some a =>
    let bank := bankOfPa a.pa
    if a.kind != .ld || a.sp = .l || region a.pa < 8 || a.phase != .ready || !s.free? a || !s.arrived a || s.channelBusy bank then .next s
    else if s.pathDown a then .next (s.refuseAcc a 0x31 a.va)
    else .next (s.answered a (
      if aliasBad a.pa true a.size 0 then s.refuseAcc a 0x30 a.va
      else if s.frameClass (bits a.pa 40 0) != .aliased then s.refuseAcc a 0x12 a.va
      else if s.channelRetired (bank / 256) (bank / 16 % 16) then s.refuseAcc a 0x31 a.va
      else s.answer a ((s.booth bank).statAt (a.pa % 1024))))

/-! ### The booth's turn -/

/-- What the booth of a bank does next: a segment boundary, or the micro-op at PC; an illegal word stops the run with
ERR 0x01 (R272). -/
inductive BoothMove where
  | still | boundary | illegal
  | run (i : Instr)
deriving DecidableEq, Repr

def State.boothMove (s : State) (bank : Nat) : BoothMove :=
  let b := s.booth bank
  if 64 ≤ b.segCount then .boundary
  else if b.st != .running || b.refreshing then .still
  else match decodeMicro (Tbl.get 0 b.prog b.pc.toNat) with
    | some i => .run i
    | none => .illegal

/-- The run stops at an illegal micro-op. -/
def State.illegalMicro (s : State) (bank : Nat) : State := s.setBooth bank ((s.booth bank).ends .error 0x01)

end Sys2Proof.Machine
end

