-- ==== Sys2Proof/Machine/LotOps.lean ====
section
/-! DEFINITION. Shared operations on a lot's masks, barriers, decision queue and register blocks (02_work.md R40 to R43;
03_issue.md R81 to R83; 14_ref_a_c.md R344; 15_ref_d_i.md R366, R370; 16_ref_j_r.md R389, R415). -/

namespace Sys2Proof.Machine

/-! ### Mask registers (R82, R83, R389) -/

def Warp.mem (x : Warp) (k : Nat) : Nat := (Tbl.get (0 : Word) x.members k).toNat
def Warp.arr (x : Warp) (k : Nat) : Nat := (Tbl.get (0 : Word) x.arrived k).toNat
def Warp.setMem (x : Warp) (k v : Nat) : Warp := { x with members := Tbl.put 0 x.members k (BitVec.ofNat 32 v) }
def Warp.setArr (x : Warp) (k v : Nat) : Warp := { x with arrived := Tbl.put 0 x.arrived k (BitVec.ofNat 32 v) }

/-- The release condition: MEMBERS and not ARRIVED is zero (R82). -/
def Warp.released (x : Warp) (k : Nat) : Bool := andNot (x.mem k) (x.arr k) == 0

/-- KJOIN of one lane: ARRIVED is set for a member (R82). -/
def Warp.join (x : Warp) (k lane : Nat) : Warp :=
  if bit (x.mem k) lane then x.setArr k (setBits (x.arr k) lane lane 1) else x

/-- KLEAVE of one lane (R82). -/
def Warp.leaveMask (x : Warp) (k lane : Nat) : Warp :=
  (x.setMem k (setBits (x.mem k) lane lane 0)).setArr k (setBits (x.arr k) lane lane 0)

/-- Lanes of a warp parked in KWAIT on a mask. -/
def Lot.kwaiters (l : Lot) (w k : Nat) : List Agent :=
  ((l.lanesOf w).map (fun i => (⟨w, i⟩ : Agent))).filter (fun a => (l.thr a).st == .parked (.kwait k))

/-- Every agent of a warp. -/
def Lot.warpAgents (l : Lot) (w : Nat) : List Agent := (l.lanesOf w).map (fun i => ⟨w, i⟩)

/-- Where the release condition holds, ARRIVED is cleared and every waiter wakes, acquiring from its warp (R82, R188). -/
def State.maskRelease (s : State) (c b w k : Nat) : State :=
  match s.lot? c b with
  | none => s
  | some l =>
    if (l.warp w).released k then
      let ws := l.kwaiters w k
      let s := s.acquireFrom c b ws (fun a => a.w == w)
      (s.onWarp c b w (fun x => x.setArr k 0)).wakeAll c b ws
    else s

/-- A change of a mask that KSET or KMOV writes: lanes already parked on it count as arrived (R389). -/
def Lot.rearm (l : Lot) (w k : Nat) : Lot :=
  let parked := (laneMask (l.kwaiters w k)).toNat
  if parked = 0 then l else l.setWarp w ((l.warp w).setArr k ((l.warp w).mem k &&& parked))

/-! ### Hardware barriers (R344) -/

def Lot.bar (l : Lot) (b : Nat) : Barrier := Tbl.get Barrier.none l.bars b
def Lot.setBar (l : Lot) (b : Nat) (x : Barrier) : Lot := { l with bars := Tbl.put Barrier.none l.bars b x }

/-- Threads that have left the lot's count of present threads (R369, R370). -/
def TState.gone (t : TState) : Bool :=
  match t with
  | .absent | .exiting _ | .exited | .stopped => true
  | _ => false

/-- Counts as EXITED for barriers, masks and the decision queue (R370). -/
def Thread.gone (t : Thread) : Bool := t.st.gone || t.exitAfter.isSome

def Lot.present (l : Lot) : Nat := (l.agents.filter (fun a => !(l.thr a).gone)).length

/-- Threads parked on a barrier at its present generation. -/
def Lot.barWaiters (l : Lot) (b : Nat) : List Agent :=
  l.agents.filter (fun a => (l.thr a).st == .parked (.bar b (l.bar b).gen))

/-- CheckRelease(b) (R344). -/
def State.checkBarrier (s : State) (c bc b : Nat) : State :=
  match s.lot? c bc with
  | none => s
  | some l =>
    let x := l.bar b
    let need := if x.expected != 0 then x.expected else l.present
    if 0 < x.arrivals && need ≤ x.arrivals then
      let ws := l.barWaiters b
      let s := s.acquireFrom c bc ws (fun a => !a.isBarker)
      (s.onLot c bc (fun l => l.setBar b { x with gen := x.gen + 1, arrivals := 0 })).wakeAll c bc ws
    else s

/-- One arrival (R344): the expected count is set by the first arrival of a generation. -/
def Barrier.arrive (x : Barrier) (req : Nat) : Barrier :=
  { x with expected := if x.arrivals = 0 then req else x.expected, arrivals := x.arrivals + 1 }

/-! ### The decision queue (R81, R365, R366) -/

/-- P − min_cursor modulo 2^16; threads that exited or were stopped do not count (R81, R365). -/
def Lot.dqFill (l : Lot) : Nat :=
  (l.agents.filter (fun a => !(l.thr a).gone)).foldl (fun m a => max m (l.dqP - (l.thr a).cursor).toNat) 0

/-- The barker parked DQFULL retries its push when there is room (R81). -/
def State.dqRoom (s : State) (c b : Nat) : State :=
  match s.lot? c b with
  | none => s
  | some l =>
    match (l.thr Agent.barker).st with
    | .parked (.dqfull _) => if l.dqFill < 64 then s.wake c b Agent.barker else s
    | _ => s

/-- An entry of the queue. -/
def Lot.dqEntry (l : Lot) (i : BitVec 16) : Word := Tbl.get 0 l.dq (i.toNat % 64)

/-- A push: the entry is written, P advances, and every lane parked at that entry receives it and wakes (R366). -/
def State.dqPush (s : State) (c b : Nat) (v : Word) : State :=
  match s.lot? c b with
  | none => s
  | some l =>
    let p := l.dqP
    let l := { l with dq := Tbl.put 0 l.dq (p.toNat % 64) v, dqP := p + 1 }
    let dst (a : Agent) : Option Nat := match (l.thr a).st with
      | .parked (.dq d) => if (l.thr a).cursor = p then some d else none
      | _ => none
    let ws := l.agents.filter (fun a => (dst a).isSome)
    let give (l : Lot) (a : Agent) : Lot := match dst a with
      | some d => (if l.inRange a d 1 then l.setVreg a.w d a.l v else l).setThr a { l.thr a with cursor := (l.thr a).cursor + 1 }
      | none => l
    let s := (s.setLot c b (ws.foldl give l)).acquireFrom c b ws (fun a => a.isBarker)
    s.wakeAll c b ws

/-! ### Register blocks (R40 to R43, R415) -/

/-- Registers of blocks [b, b + n) of a warp read zero (R41). -/
def Lot.clearBlocks (l : Lot) (w b n : Nat) : Lot :=
  { l with vregs := l.vregs.filter (fun e => !((128 * w + 16 * b) * 32 ≤ e.1 && e.1 < (128 * w + 16 * (b + n)) * 32)) }

/-- A queued request whose turn comes when its warp holds too many blocks for it: fault 0x20 for its lanes, at the RACQ (R40,
R415; log entry 97). -/
def State.refuseBlocks (s : State) (c : Nat) (r : BlockReq) : State :=
  let s := s.onLot c r.bctx (fun l => r.lanes.foldl (fun l a =>
    let t := l.thr a
    l.setThr a { t with pc := r.hdr, target := none, stop := some (t.stop.getD ⟨0x20, 0, 0, 0, false, r.hdr⟩) }) l)
  s.wakeAll c r.bctx r.lanes

/-- Serves the block queue: the head while the pool holds all its blocks, within the limit of 8 for its warp (R40, R42). -/
def State.serveBlocks (s : State) (c : Nat) : Nat → State
  | 0 => s
  | fuel + 1 =>
    let k := s.core c
    match k.blockQ with
    | [] => s
    | r :: rest =>
      let held := match s.lot? c r.bctx with
        | some l => (l.warp r.w).blocks
        | none => 0
      if 8 < held + r.n then State.serveBlocks ((s.setCore c { k with blockQ := rest }).refuseBlocks c r) c fuel
      else if r.n ≤ k.pool then
        let s := s.setCore c { k with pool := k.pool - r.n, blockQ := rest }
        let s := s.onLot c r.bctx (fun l =>
          let x := l.warp r.w
          (l.clearBlocks r.w x.blocks r.n).setWarp r.w { x with pool := x.pool + r.n })
        State.serveBlocks (s.wakeAll c r.bctx r.lanes) c fuel
      else s

def State.serveQueue (s : State) (c : Nat) : State := s.serveBlocks c (s.core c).blockQ.length

/-- Blocks come back to the pool and the reserve, and serve the queue (R42, R43). -/
def State.returnBlocks (s : State) (c pool reserve : Nat) : State :=
  let k := s.core c
  (s.setCore c { k with pool := k.pool + pool, reserve := k.reserve + reserve }).serveQueue c

/-- Registers of a warp from `lim` on are released: results on their way to them are discarded (R415). -/
def State.releaseRegs (s : State) (c b w lim : Nat) : State :=
  { s with
    accs := s.accs.map (fun a => if a.t.core == c && a.t.bctx == b && a.t.w == w then { a with lim := min a.lim lim } else a),
    e := { s.e with tileOps := s.e.tileOps.map (fun t =>
      if t.core == c && t.bctx == b then
        match t.kind with
        | .accrd n d lanes => { t with kind := .accrd n d (lanes.filter (fun e => !(e.1.w == w && lim ≤ d))) }
        | _ => t
      else t) } }

/-- Operations of a warp with a result or a tile operation that are outstanding (R415). -/
def State.warpOps (s : State) (c b w : Nat) : List Nat :=
  ((s.accs.filter (fun a => a.t.core == c && a.t.bctx == b && a.t.w == w && a.hasResult && !s.deferred a)).map
    (fun a => a.op)).eraseDups
  ++ (s.e.tileOps.filter (fun t => t.core == c && t.bctx == b && t.warps.contains w)).map (fun t => t.group)

end Sys2Proof.Machine
end

