-- ==== Sys2Proof/Machine/Control.lean ====
section
/-! DEFINITION. Control transfers, NOP, YIELD, BKPT, TRAP, EXIT, barriers, masks, the decision queue, WAITC, register
blocks and the special registers (05_encoding.md R120, R132; 14_ref_a_c.md R343 to R345, R348 to R352, R359; 15_ref_d_i.md
R364 to R370; 16_ref_j_r.md R388, R389, R406, R414, R415, R419; 17_ref_s_z.md R431 to R433, R444 to R447, R451). -/

namespace Sys2Proof.Machine

/-! ### Control transfers (R132) -/

/-- An 80-bit target from a base and a displacement of n bits. -/
def targetOf (base : VAddr) (disp n : Nat) : Nat := (base.toNat + sextN disp n 80) % 2 ^ 80

/-- A control transfer: every participant's link register is written, and it goes on at its target when the clause ends.
A misaligned target is fault 0x03 at the transfer (R132), with the target in ADDR (log entry 21). -/
def State.transfer (s : State) (p : BitVec 3) (uses : List Use) (link : Option (BitVec 7))
    (tgt : Issuer → Lot → Agent → Nat) : Out :=
  s.instr true true uses p (fun v s =>
    let ts := v.parts.map (fun a => (a, tgt v.i v.l a))
    let good := ts.filter (fun e => e.2 % 4 == 0)
    let go (l : Lot) (e : Agent × Nat) : Lot :=
      let l := match link with
        | some r => l.setVal e.1 r 64 false ((v.l.offsetOf v.i.next).toNat)
        | none => l
      l.setThr e.1 { l.thr e.1 with target := some (BitVec.ofNat 80 e.2) }
    let s := s.setLot v.i.core v.i.bctx (good.foldl go v.l)
    let bad := ts.filter (fun e => e.2 % 4 != 0)
    ((bad.map (fun e => e.2)).eraseDups).foldl (fun s t =>
      s.raise ((bad.filter (fun e => e.2 == t)).map (fun e => e.1)) 0x03 t) s)

/-- BRA (R349). -/
def execBra (p : BitVec 3) (off : BitVec 23) (s : State) : Out :=
  s.transfer p [] none (fun i _ _ => targetOf i.hdr (off.toNat * 4) 25)

/-- BRA.L (R349). -/
def execBraL (p : BitVec 3) (disp : BitVec 64) (s : State) : Out :=
  s.transfer p [] none (fun i _ _ => targetOf i.hdr disp.toNat 64)

/-- BRX (R351). -/
def execBrx (p : BitVec 3) (a : BitVec 7) (s : State) : Out :=
  s.transfer p [use2 a] none (fun _ l t => targetOf l.d.entry (l.val t a 64) 64)

/-- CALL (R352). -/
def execCall (p : BitVec 3) (l : BitVec 7) (off : BitVec 16) (s : State) : Out :=
  s.transfer p [use2 l] (some l) (fun i _ _ => targetOf i.hdr (off.toNat * 4) 18)

/-- CALL.L (R352). -/
def execCallL (p : BitVec 3) (l : BitVec 7) (disp : BitVec 64) (s : State) : Out :=
  s.transfer p [use2 l] (some l) (fun i _ _ => targetOf i.hdr disp.toNat 64)

/-- CALLX (R352): the pair is read before L is written. -/
def execCallx (p : BitVec 3) (l a : BitVec 7) (s : State) : Out :=
  s.transfer p [use2 l, use2 a] (some l) (fun _ lot t => targetOf lot.d.entry (lot.val t a 64) 64)

/-- RET (R419): a thread in its handler whose target is the recorded resume header returns from it (R287). -/
def execRet (p : BitVec 3) (a : BitVec 7) (s : State) : Out :=
  s.instr true true [use2 a] p (fun v s =>
    let ts := v.parts.map (fun t => (t, targetOf v.l.d.entry (v.l.val t a 64) 64))
    let ends (e : Agent × Nat) : Bool := match (v.l.thr e.1).shadow with
      | some sh => sh.resume.toNat == e.2
      | none => false
    let s := (ts.filter ends).foldl (fun s e => s.returnFromHandler v.i.core v.i.bctx e.1) s
    let rest := ts.filter (fun e => !ends e)
    let s := s.onLot v.i.core v.i.bctx (fun l => (rest.filter (fun e => e.2 % 4 == 0)).foldl (fun l e =>
      l.setThr e.1 { l.thr e.1 with target := some (BitVec.ofNat 80 e.2) }) l)
    let bad := rest.filter (fun e => e.2 % 4 != 0)
    ((bad.map (fun e => e.2)).eraseDups).foldl (fun s t =>
      s.raise ((bad.filter (fun e => e.2 == t)).map (fun e => e.1)) 0x03 t) s)

/-- NOP (R406): it changes no state. -/
def execNop (p : BitVec 3) (s : State) : Out := s.instr true true [] p (fun _ s => s)

/-- YIELD (R451): the run ends after the clause; in a barker clause nothing changes. -/
def execYield (p : BitVec 3) (s : State) : Out :=
  s.instr true true [] p (fun v s =>
    if v.i.agents.any (fun a => a.isBarker) then s else s.setIssuer s.active (some { v.i with yielded := true }))

/-! ### Breakpoints and traps -/

/-- The participants complete the clause and stop at the next header (R279, R348, R444); a stop that an access of the
thread caused earlier comes first (R285, log entry 22). -/
def State.stopNext (s : State) (p : BitVec 3) (event : Nat) (code : BitVec 16) : Out :=
  s.instr true true [] p (fun v s => s.onLot v.i.core v.i.bctx (fun l => v.parts.foldl (fun l a =>
    l.noteStop a ⟨event, 0, 0, code.toNat, false, v.i.hdr⟩) l))

/-- BKPT (R348). -/
def execBkpt (p : BitVec 3) (code : BitVec 16) (s : State) : Out := s.stopNext p 0x50 code

/-- TRAP (R444). -/
def execTrap (p : BitVec 3) (code : BitVec 16) (s : State) : Out := s.stopNext p 0x60 code

/-! ### EXIT -/

/-- The accesses that a thread discards when it exits from a handler: those with REPLAY (R287). -/
def State.discardReplays (s : State) (c b : Nat) (a : Agent) : State :=
  (s.accs.filter (fun x => x.t == ⟨c, b, a.w, a.l⟩ && x.phase.isReplay)).foldl (fun s x => s.endAcc x) s

/-- Step 1 of R369 for one agent, with the changes of R370. A fault that it has noted stands, and one of a handler stays a nested
one; in a handler the pending accesses are discarded (R285, R287). -/
def State.exitOne (s : State) (c b : Nat) (scope : Scope) (next : VAddr) (a : Agent) : State :=
  let inHandler := match s.lot? c b with
    | some l => (l.thr a).shadow.isSome
    | none => false
  let s := if inHandler then s.discardReplays c b a else s
  let s := s.onLot c b (fun l => l.setThr a { l.thr a with
    st := .exiting scope, pc := next, exitAfter := none, waitAfter := none, mon := none, nested := inHandler && (l.thr a).nests,
    shadow := none, target := none, stepping := false, dbgPend := false })
  if a.isBarker then s
  else
    let s := s.onWarp c b a.w (fun x => (List.range 12).foldl (fun x k => x.leaveMask k a.l) x)
    let s := (List.range 12).foldl (fun s k => s.maskRelease c b a.w k) s
    let s := (List.range 16).foldl (fun s k => s.checkBarrier c b k) s
    s.dqRoom c b

/-- Threads that exit with a fault noted come out of the wait of their EXIT and take it (R285; log entry 24). -/
def State.exitStops (s : State) (c b : Nat) (as : List Agent) : State :=
  match s.lot? c b with
  | none => s
  | some l =>
    let due := as.filter (fun a => (l.thr a).stop.isSome)
    if due.isEmpty then s
    else
      let (n, s) := s.fresh
      (s.onLot c b (fun l => due.foldl (fun l a => l.unexit a n) l)).takeStops c b due

/-- EXIT (R368 to R370). -/
def execExit (p : BitVec 3) (scope : Scope) (s : State) : Out :=
  s.instr true (scope == .lot) [] p (fun v s =>
    let s := s.leave v.parts
    (v.parts.foldl (fun s a => s.exitOne v.i.core v.i.bctx scope v.i.next a) s).exitStops v.i.core v.i.bctx v.parts)

/-- Nothing that an agent has issued is outstanding, and no write that it has observed is, as far as the scope's release covers
it: steps 2 and 3 of R369. -/
def State.laneQuiet (s : State) (t : LaneId) (sc : Scope) : Bool :=
  let obs := ((s.thr? t).map (fun x => x.obs)).getD []
  !s.accs.any (fun x => x.t == t || (obs.contains x.id && x.inScope t.core sc && !s.deferred x)) && !s.fences.any (fun f => f.t == t)

/-- The blocks of a warp whose last thread has finished step 2 of R369 return (R43, R370). -/
def State.freeWarp (s : State) (c b w : Nat) : State :=
  match s.lot? c b with
  | none => s
  | some l =>
    if (l.warpAgents w).all (fun a => (l.thr a).st == .exited) then
      let x := l.warp w
      let s := s.setLot c b (l.setWarp w { x with pool := 0, reserve := 0 })
      s.returnBlocks c x.pool x.reserve
    else s

/-- EXIT_COMPLETION (R369, steps 2 and 3): when the lane's accesses are performed and its replies written, the release at
the named scope is performed and the completion counter rises; for the barker, it is marked as exited (R45). -/
def execExitCompletion (t : LaneId) (s : State) : Out :=
  match s.lot? t.core t.bctx with
  | none => .next s
  | some l =>
    let a := laneAgent t
    match (l.thr a).st with
    | .exiting scope =>
      if !s.laneQuiet t scope then .next s
      else match s.releaseScope t.core l.ctx scope with
      | (false, s) => .next s
      | (true, s) =>
        let s := s.onLot t.core t.bctx (fun l =>
          let l := l.setThr a { l.thr a with st := .exited }
          if a.isBarker then { l with barkExited := true } else { l with done := l.done + 1 })
        .next (if a.isBarker then s else s.freeWarp t.core t.bctx a.w)
    | _ => .next s

/-! ### Barriers -/

/-- The count that a lane asks for (R343, R344). -/
def barReq (f : FmtBar) (l : Lot) (a : Agent) : Nat := if f.cn then l.val a f.n 32 else 32 * f.n.toNat

/-- One lane's arrival. -/
def State.barArrive1 (s : State) (c b bar req : Nat) (sync : Bool) (a : Agent) : State :=
  match s.lot? c b with
  | none => s
  | some l =>
    let gen := (l.bar bar).gen
    let s := s.setLot c b (l.setBar bar ((l.bar bar).arrive req))
    let s := if sync then s.parkAll [(a, .bar bar gen)] else s
    s.checkBarrier c b bar

/-- BAR: lanes whose count is above 1,024 fault, the others arrive in ascending home-lane order (R344). -/
def State.barrier (s : State) (f : FmtBar) (sync : Bool) : Out :=
  s.instr true false (if f.cn then [use1 f.n] else []) f.p (fun v s =>
    let bad := v.parts.filter (fun a => 1024 < barReq f v.l a)
    let ok := v.parts.filter (fun a => barReq f v.l a ≤ 1024)
    let s := if bad.isEmpty then s else s.raise bad 0x01 0
    ok.foldl (fun s a => s.barArrive1 v.i.core v.i.bctx f.b.toNat (barReq f v.l a) sync a) s)

/-- BAR.SYNC (R343 to R345). -/
def execBarSync (f : FmtBar) (s : State) : Out := s.barrier f true

/-- BAR.ARRIVE (R343 to R345). -/
def execBarArrive (f : FmtBar) (s : State) : Out := s.barrier f false

/-! ### Masks -/

/-- A mask instruction, once for each home warp with participants. -/
def State.maskOp (s : State) (uses : List Use) (p : BitVec 3)
    (f : View → Nat → List Agent → State → State) : Out :=
  s.instr true false uses p (fun v s =>
    ((v.parts.map (fun a => a.w)).eraseDups).foldl (fun s w => f v w (v.parts.filter (fun a => a.w == w)) s) s)

/-- KJOIN (R388, R389). -/
def execKjoin (p : BitVec 3) (k : BitVec 4) (s : State) : Out :=
  s.maskOp [] p (fun v w as s =>
    let s := s.onWarp v.i.core v.i.bctx w (fun x => as.foldl (fun x a => x.join k.toNat a.l) x)
    s.maskRelease v.i.core v.i.bctx w k.toNat)

/-- KLEAVE (R388, R389). -/
def execKleave (p : BitVec 3) (k : BitVec 4) (s : State) : Out :=
  s.maskOp [] p (fun v w as s =>
    let s := s.onWarp v.i.core v.i.bctx w (fun x => as.foldl (fun x a => x.leaveMask k.toNat a.l) x)
    s.maskRelease v.i.core v.i.bctx w k.toNat)

/-- KWAIT (R82, R388, R389): the participants that are members arrive and park; where the last member arrives, every waiter,
the last ones included, is READY at the next header at once. A lane that is no member goes on. -/
def execKwait (p : BitVec 3) (k : BitVec 4) (s : State) : Out :=
  s.maskOp [] p (fun v w as s =>
    let c := v.i.core
    let b := v.i.bctx
    let members := as.filter (fun a => bit ((v.l.warp w).mem k.toNat) a.l)
    let s := s.onWarp c b w (fun x => members.foldl (fun x a => x.join k.toNat a.l) x)
    if members.isEmpty then s
    else (s.parkAll (members.map (fun a => (a, .kwait k.toNat)))).maskRelease c b w k.toNat)

/-- KSET (R388, R389): the value of the participant with the lowest home lane, without absent and exited lanes. -/
def execKset (p : BitVec 3) (k : BitVec 4) (r : BitVec 7) (s : State) : Out :=
  s.maskOp [use1 r] p (fun v w as s =>
    match as with
    | [] => s
    | a0 :: rest =>
      let low := rest.foldl (fun (m : Agent) a => if a.l < m.l then a else m) a0
      let s := s.onLot v.i.core v.i.bctx (fun l =>
        let here := (laneMask ((l.warpAgents w).filter (fun a => !(l.thr a).gone))).toNat
        let l := l.setWarp w (((l.warp w).setMem k.toNat (v.l.val low r 32 &&& here)).setArr k.toNat 0)
        l.rearm w k.toNat)
      s.maskRelease v.i.core v.i.bctx w k.toNat)

/-- KGET (R388, R389). -/
def execKget (p : BitVec 3) (k : BitVec 4) (r : BitVec 7) (s : State) : Out :=
  s.maskOp [use1 r] p (fun v w as s => s.onLot v.i.core v.i.bctx (fun l =>
    as.foldl (fun l a => l.setVal a r 32 false ((v.l.warp w).mem k.toNat)) l))

/-- KMOV (R388, R389). -/
def execKmov (p : BitVec 3) (kd ka : BitVec 4) (s : State) : Out :=
  s.maskOp [] p (fun v w _ s =>
    if kd = ka then s
    else
      let s := s.onLot v.i.core v.i.bctx (fun l =>
        let x := l.warp w
        (l.setWarp w ((x.setMem kd.toNat (x.mem ka.toNat)).setArr kd.toNat (x.arr ka.toNat))).rearm w kd.toNat)
      s.maskRelease v.i.core v.i.bctx w kd.toNat)

/-! ### The decision queue -/

/-- DQPUSH (R364, R365): a full queue parks the barker at the instruction; its clause keeps the table entries that it has reserved
(R86). -/
def execDqpush (p : BitVec 3) (r : BitVec 7) (s : State) : Out :=
  s.instr false true [use1 r] p (fun v s =>
    if v.parts.isEmpty then s
    else if v.l.dqFill = 64 then
      let c := v.i.core
      let b := v.i.bctx
      let s := if v.l.ending then s.reportStops c b [Agent.barker] else s
      let s := s.onLot c b (fun l =>
        if l.ending then l.setThr Agent.barker { l.thr Agent.barker with st := .stopped, stop := none, target := none }
        else
          let l := l.park Agent.barker (.dqfull v.i.index) v.i.hdr
          l.setThr Agent.barker { l.thr Agent.barker with mid := v.i.index, kept := v.i.reserved })
      s.leave [Agent.barker]
    else s.dqPush v.i.core v.i.bctx ((v.l.sreg r.toNat).setWidth 32))

/-- DQPOP (R364, R366). -/
def execDqpop (p : BitVec 3) (r : BitVec 7) (s : State) : Out :=
  s.instr true false [use1 r] p (fun v s =>
    let none' := v.parts.filter (fun a => (v.l.thr a).cursor == v.l.dqP)
    let got := v.parts.filter (fun a => (v.l.thr a).cursor != v.l.dqP)
    let s := s.onLot v.i.core v.i.bctx (fun l => got.foldl (fun l a =>
      let t := l.thr a
      (l.setVreg a.w r.toNat a.l (l.dqEntry t.cursor)).setThr a { t with cursor := t.cursor + 1 }) l)
    let s := s.acquireFrom v.i.core v.i.bctx got (fun a => a.isBarker)
    let s := if none'.isEmpty then s else s.parkAll (none'.map (fun a => (a, .dq r.toNat)))
    s.dqRoom v.i.core v.i.bctx)

/-! ### WAITC (R446, R447) -/

def execWaitc (p : BitVec 3) (thr : BitVec 32) (s : State) : Out :=
  s.instr true true [] p (fun v s =>
    let wait := v.parts.filter (fun a => !(v.l.warp a.w).meets thr)
    if wait.isEmpty then s else s.parkAll (wait.map (fun a => (a, .waitc thr))))

/-! ### Register blocks (R41, R414, R415) -/

/-- Where the n blocks of a request come from: the reserve, the pool, or the queue (R41). A warp whose own released
reserve blocks are still on their way back waits in the queue (log entry 23). -/
inductive BlockSource where
  | reserve | pool | queue
deriving DecidableEq, Repr

def CoreS.source (k : CoreS) (x : Warp) (n : Nat) : BlockSource :=
  if x.reserve != 0 && n ≤ k.reserve then .reserve
  else if k.blockQ.isEmpty && n ≤ k.pool then .pool
  else if k.reserve = 8 then .reserve
  else .queue

/-- RACQ for one warp. -/
def State.racq1 (s : State) (c b n w : Nat) (hdr : VAddr) (as : List Agent) : State :=
  match s.lot? c b with
  | none => s
  | some l =>
    let x := l.warp w
    if 8 < x.blocks + n then s.raise as 0x20 0
    else
      let k := s.core c
      match k.source x n with
      | .reserve =>
        let s := s.setCore c { k with reserve := k.reserve - n }
        s.onLot c b (fun l => (l.clearBlocks w x.blocks n).setWarp w { x with reserve := x.reserve + n })
      | .pool =>
        let s := s.setCore c { k with pool := k.pool - n }
        s.onLot c b (fun l => (l.clearBlocks w x.blocks n).setWarp w { x with pool := x.pool + n })
      | .queue =>
        let s := s.parkAll (as.map (fun a => (a, .blocks n)))
        if l.ending then s else s.setCore c { s.core c with blockQ := (s.core c).blockQ ++ [⟨b, w, n, hdr, as⟩] }

/-- RREL for one warp: reserve blocks lie at the top and go first; results on their way to the released registers are discarded
(R42, R415). -/
def State.rrel1 (s : State) (c b n w : Nat) (as : List Agent) : State :=
  match s.lot? c b with
  | none => s
  | some l =>
    let x := l.warp w
    if x.blocks < l.d.base + n then s.raise as 0x20 0
    else
      let r := min n x.reserve
      let ops := s.warpOps c b w
      let x := { x with reserve := x.reserve - r, pool := x.pool - (n - r) }
      let s := s.releaseRegs c b w (16 * x.blocks)
      if ops.isEmpty then (s.setLot c b (l.setWarp w x)).returnBlocks c (n - r) r
      else s.setLot c b (l.setWarp w { x with backs := x.backs ++ [⟨n - r, r, ops⟩] })

/-- In ascending warp number, once for each home warp with a participant (R415). -/
def State.blockOp (s : State) (p : BitVec 3) (f : View → Nat → List Agent → State → State) : Out :=
  s.instr true false [] p (fun v s =>
    (List.range 32).foldl (fun s w =>
      let as := v.parts.filter (fun a => a.w == w)
      if as.isEmpty then s else f v w as s) s)

/-- RACQ (R414, R415). -/
def execRacq (p : BitVec 3) (n : BitVec 4) (s : State) : Out :=
  s.blockOp p (fun v w as s => s.racq1 v.i.core v.i.bctx n.toNat w v.i.hdr as)

/-- RREL (R414, R415). -/
def execRrel (p : BitVec 3) (n : BitVec 4) (s : State) : Out :=
  s.blockOp p (fun v w as s => s.rrel1 v.i.core v.i.bctx n.toNat w as)

/-- BLOCK_RETURN (R415): released blocks whose operations have completed go back. -/
def execBlockReturn (core bctx w : Nat) (s : State) : Out :=
  match s.lot? core bctx with
  | none => .next s
  | some l =>
    let live := s.warpOps core bctx w
    let x := l.warp w
    let due := x.backs.filter (fun k => !k.ops.any (fun o => live.contains o))
    if due.isEmpty then .next s
    else
      let s := s.setLot core bctx (l.setWarp w { x with backs := x.backs.filter (fun k => k.ops.any (fun o => live.contains o)) })
      .next (s.returnBlocks core ((due.map (fun k => k.pool)).sum) ((due.map (fun k => k.reserve)).sum))

/-! ### Special registers -/

/-- The module time advances by an amount that the model leaves free (R359, log entry 4). -/
def State.tickNs (s : State) : State :=
  let (v, s) := s.freeVal
  { s with p := { s.p with ns := s.p.ns + v } }

/-- A core's cycle count advances by a free amount (R431, log entry 4). -/
def State.tickCycles (s : State) (c : Nat) : State :=
  let (v, s) := s.freeVal
  let k := s.core c
  s.setCore c { k with cycles := k.cycles + v }

/-- CLOCK (R359). -/
def execClock (p : BitVec 3) (d : BitVec 7) (s : State) : Out :=
  s.instr true true [use2 d] p (fun v s =>
    let s := s.tickNs
    s.onLot v.i.core v.i.bctx (fun l => v.parts.foldl (fun l a => l.setVal a d 64 false s.p.ns) l))

/-- A 64-bit special register (R431). -/
def sregWide : SReg → Bool
  | .clock | .params | .faddr | .tags => true
  | _ => false

/-- A special register without a barker form (R433). -/
def sregBarker : SReg → Bool
  | .tid | .lane | .warp => false
  | _ => true

/-- The logged address of a thread's oldest REPLAY access; 0 if none (R431). -/
def State.faddrOf (s : State) (t : LaneId) : Nat :=
  match s.accs.find? (fun x => x.t == t && x.phase.isReplay) with
  | some x => match x.phase with
    | .replay st => st.addr
    | _ => 0
  | none => 0

/-- Value of a special register for an agent (R33, R431); %lotdone has no value here. -/
def State.sregVal (s : State) (c b : Nat) (l : Lot) (a : Agent) (r : SReg) : Nat :=
  let t := a.w * 32 + a.l
  let f := s.faddrOf ⟨c, b, a.w, a.l⟩
  match r with
  | .tid => t % l.d.lx + t / l.d.lx % l.d.ly * 2 ^ 10 + t / (l.d.lx * l.d.ly) * 2 ^ 20
  | .lane => a.l
  | .warp => a.w
  | .lot => l.index
  | .lotx => l.index % l.d.gx
  | .loty => l.index / l.d.gx % l.d.gy
  | .lotz => l.index / (l.d.gx * l.d.gy)
  | .gridx => l.d.gx
  | .gridy => l.d.gy
  | .gridz => l.d.gz
  | .core => coreInDie c
  | .die => dieOf c
  | .ctx => l.ctx
  | .clock => (s.core c).cycles
  | .params => bits l.d.param.toNat 63 0
  | .paramsh => bits l.d.param.toNat 79 64
  | .faddr => bits f 63 0
  | .faddrh => bits f 79 64
  | .tags => l.tags.toNat
  | .fstat => (l.warp a.w).fstat.toNat
  | .rseed => (l.thr a).rng.toNat
  | .dsm => s.fact l.ctx 18 17
  | .lotdone => 0

/-- SRD (R431, R432). %lotdone is remote: its value comes with a reply. -/
def execSrd (p : BitVec 3) (d : BitVec 7) (sreg : SReg) (s : State) : Out :=
  s.instr true (sregBarker sreg) [if sregWide sreg then use2 d else use1 d] p (fun v s =>
    if sreg = .lotdone then
      let (op, s) := s.fresh
      let proto := protoAcc v op .lotdone (encode (.srd p d sreg)) .g 0 4 (some (d.toNat, .b32))
      s.issueAll v proto (v.parts.map (fun a => ⟨a, 0, 0, 0⟩))
    else
      let s := if sreg = .clock then s.tickCycles v.i.core else s
      s.onLot v.i.core v.i.bctx (fun l => v.parts.foldl (fun l a =>
        l.setVal a d (if sregWide sreg then 64 else 32) false (s.sregVal v.i.core v.i.bctx v.l a sreg)) l))

/-- SWR (R433): in ascending home-lane order. -/
def execSwr (p : BitVec 3) (r : BitVec 7) (sreg : SReg) (s : State) : Out :=
  s.each true [use1 r] p (fun l a =>
    match sreg with
    | .fstat => l.setWarp a.w { l.warp a.w with fstat := BitVec.ofNat 8 (l.val a r 32) }
    | .rseed => l.setThr a { l.thr a with rng := rngSeed (l.val a r 32) a.rngLane }
    | _ => l)

end Sys2Proof.Machine
end

