-- ==== Sys2Proof/Machine/Issue.lean ====
section
/-! DEFINITION. Issue: the turns of issue slots and of the scalar pipeline, selection of formed warps, the entry of a
clause with its checks, and the end of a clause and of a run (03_issue.md R66 to R80, R86; 05_encoding.md R118 to R120). -/

namespace Sys2Proof.Machine

/-! ### Fetching (R119) -/

/-- A fetched word, or the fault of its fetch. -/
inductive Fetched where
  | ok (w : Word)
  | bad (code detail addr : Nat)
deriving DecidableEq, Repr

/-- FetchWord (R119): a translation, the checks of R172 on a fetch, and the word at its home; a host line comes into the
host-line cache (R163). Its walk or the word itself may be lost on the way (R313, R316). -/
def State.fetchWord (s : State) (core ctx va : Nat) : Fetched × State :=
  match s.translateGate (.unit s.active) core ctx va with
  | .bad code detail => (.bad code detail va, s)
  | _ =>
    match s.translate core ctx va with
    | (.bad code detail, s) => (.bad code detail va, s)
    | (.ok pa attr _ _, s) =>
      match permFault true .fetch attr with
      | some code => (.bad code 0 va, s)
      | none =>
        if attrCELL attr || 8 ≤ region pa then (.bad 0x12 0 va, s)
        else if s.wayLost (.unit s.active) pa then (.bad 0x31 0 va, s)
        else match s.readHome (some (dieOf core)) pa 4 with
        | .ok w => (.ok (BitVec.ofNat 32 w), if region pa = 2 then s.hostFill pa else s)
        | .bad code => (.bad code 0 va, s)

/-- The line that a fetch of a unit has to read, once its translation needs no more waiting. -/
def State.fetchPas (s : State) (core ctx va : Nat) : List Nat :=
  match (s.translate core ctx va).1 with
  | .ok pa _ _ _ => if 8 ≤ region pa then [] else [pa]
  | .bad _ _ => []

/-- Must a fetch of a unit wait, for its walk or for the word itself (R27, R275, R308, R316)? -/
def State.fetchHeld (s : State) (u core ctx va : Nat) : Bool :=
  s.translateGate (.unit u) core ctx va == .wait || s.waysTo (.unit u) (dieOf core) (s.fetchPas core ctx va) == .wait

/-- A fetch that must wait does what it can. -/
def State.fetchWait (s : State) (u core ctx va : Nat) : State :=
  if s.translateGate (.unit u) core ctx va = .wait then s.translateWait (.unit u) core ctx va
  else s.waysWait (.unit u) (dieOf core) 128 (s.fetchPas core ctx va)

/-- The addresses that stand for a clause at its fetch: a clause lies in at most two pages and two lines. -/
def Issuer.fetchVas (i : Issuer) : List Nat := [i.hdr.toNat, (i.hdr.toNat + 60) % 2 ^ 80]

/-- Does a running unit wait for the fetch of its clause? -/
def State.unitHeld (s : State) (u : Nat) (i : Issuer) : Bool :=
  !i.fetched && (match s.lot? i.core i.bctx with
    | some l => i.fetchVas.any (fun va => s.fetchHeld u i.core l.ctx va)
    | none => false)

/-- A unit waits for the fetch of its clause. -/
def State.unitWait (s : State) (u : Nat) (i : Issuer) : State :=
  match s.lot? i.core i.bctx with
  | some l => i.fetchVas.foldl (fun s va => s.fetchWait u i.core l.ctx va) s
  | none => s

/-- The banks have served the fetch of a unit's clause, and its transfers are done with (R275, R313). -/
def State.unitServed (s : State) (u : Nat) (i : Issuer) : State :=
  match s.lot? i.core i.bctx with
  | some l =>
    let s := i.fetchVas.foldl (fun s va => (s.fetchPas i.core l.ctx va).foldl (fun s pa => s.bankServed pa (.unit u)) s) s
    s.endTransfers (.unit u)
  | none => s

/-- `n` words from an address, in order. -/
def State.fetchWords (s : State) (core ctx va : Nat) : Nat → List Fetched × State
  | 0 => ([], s)
  | n + 1 =>
    let (w, s) := s.fetchWord core ctx va
    let (ws, s) := State.fetchWords s core ctx ((va + 4) % 2 ^ 80) n
    (w :: ws, s)

/-! ### EnterClause (R119) -/

def hdrCount (h : Word) : Nat := bits h.toNat 3 0
def hdrRB (h : Word) : Bool := bit h.toNat 27
def hdrBK (h : Word) : Bool := bit h.toNat 26

/-- The checks of the header word alone. -/
def headerFault (h : Word) (barker : Bool) : Option Nat :=
  if bits h.toNat 31 28 != 0xA then some 0x03
  else if hdrCount h == 0 || bits h.toNat 9 4 != 0 || hdrBK h != barker then some 0x02
  else none

/-- The word of a fetch, zero where it failed. -/
def Fetched.word : Fetched → Word
  | .ok w => w
  | .bad _ _ _ => 0

/-- The loop of EnterClause over the words of a clause from word `i` on; the number is fuel. -/
def wordsFault (h : Word) (ws : List Fetched) (i : Nat) : Nat → Option (Nat × Nat × Nat)
  | 0 => none
  | fuel + 1 =>
    match ws.drop i with
    | [] => none
    | .bad code detail addr :: _ => some (code, detail, addr)
    | .ok w :: rest =>
      let next : Option Word := rest.head?.map (fun f => f.word)
      match extWords w next with
      | none => none
      | some e =>
        if hdrCount h < i + 1 + e then some (0x02, 0, 0)
        else match (rest.take e).find? (fun f => match f with
            | .bad _ _ _ => true
            | .ok _ => false) with
        | some (.bad code detail addr) => some (code, detail, addr)
        | _ =>
          if !bit h.toNat (22 + classOf w) then some (0x02, 0, 0)
          else if endsClause w && i + 1 + e != hdrCount h then some (0x02, 0, 0)
          else wordsFault h ws (i + 1 + e) fuel

/-! ### What a clause asks (R86, R284) -/

/-- The four classes and the log and table uses of one instruction: LD, ST, CP, TL, log entries, memory instructions. -/
def instrNeeds (i : Instr) : Nat × Nat × Nat × Nat × Nat × Nat :=
  match i with
  | .ld _ | .ldDisp _ _ | .tq _ _ _ _ | .rfetch _ | .bid _ _ _ _ | .peek _ _ _ | .recycle _ _ _ | .close _ _ _ => (1, 0, 0, 0, 1, 1)
  | .atom f => if atomNeedsLd f then (1, 0, 0, 0, 1, 1) else (0, 1, 0, 0, 1, 1)
  | .cinvDiscard _ => (0, 1, 0, 0, 1, 1)
  | .st _ | .stDisp _ _ | .red _ | .rsend _ | .cflush _ | .cinv _ | .cdisc _ => (0, 1, 0, 0, 1, 1)
  | .cpref _ => (0, 0, 0, 0, 0, 1)
  | .srd _ _ .lotdone => (1, 0, 0, 0, 0, 1)
  | .kick _ _ | .tqr _ _ | .tload _ _ | .tbind _ _ _ => (0, 0, 1, 0, 0, 0)
  | .mma _ | .mmap _ _ | .accz _ _ | .accrd _ _ _ _ | .accwr _ _ _ _ | .quant _ => (0, 0, 0, 1, 0, 0)
  | _ => (0, 0, 0, 0, 0, 0)
where
  /-- An ATOM with a result counts as LD (R85, R207). -/
  atomNeedsLd (f : FmtAt) : Bool := f.d != 0 || f.op == .cas

/-- The needs of the words of a clause, up to the first that does not decode; `entries` counts memory instructions. -/
def needsOf (n : ClauseNeeds) (ws : List Word) : Nat → ClauseNeeds
  | 0 => n
  | fuel + 1 =>
    match decode ws with
    | .error _ => n
    | .ok (i, k) =>
      let (a, b, c, d, e, m) := instrNeeds i
      needsOf ⟨n.hdr, n.ld + a, n.st + b, n.cp + c, n.tl + d, n.logs + e, n.entries + m⟩ (ws.drop k) fuel

def clauseNeeds (h : Word) (ws : List Word) : ClauseNeeds := needsOf ⟨h, 0, 0, 0, 0, 0, 0⟩ ws ws.length

/-! ### Leaving a run -/

/-- Agents of the running formed warp come to a run boundary: they leave it and are READY with age zero at their PCs,
or stop, park DEBUG or take their pending stop there (R49, R73, R75, R285). -/
def State.boundary (s : State) (as : List Agent) : State :=
  match s.issuer? s.active with
  | none => s
  | some i => if as.isEmpty then s else (s.leave as).wakeAll i.core i.bctx as

/-- The run of the active unit ends at a header for its agents. -/
def State.endRunAt (s : State) (as : List Agent) (pc : VAddr) : State :=
  match s.issuer? s.active with
  | none => s
  | some i =>
    let s := s.onLot i.core i.bctx (fun l => as.foldl (fun l a => l.setThr a { l.thr a with pc := pc, target := none }) l)
    s.boundary as

/-! ### CLAUSE_START -/

/-- Stops the agents of the run at the header, in groups that came by the same branch: fault 0x03 at a header names in
ADDR the header of the clause whose branch led here (log entry 21). -/
def State.headerStop (s : State) (l : Lot) (as : List Agent) (code detail addr : Nat) : State :=
  if code = 0x03 then
    let via (a : Agent) : Nat := ((l.thr a).via.getD 0).toNat
    ((as.map via).eraseDups).foldl (fun s v => s.raiseD (as.filter (fun a => via a == v)) code detail v) s
  else s.raiseD as code detail addr

/-- The start condition of R86 for the clause's words; the threads that fail it park WAIT, and for the rest the clause
is fetched and its table entries are reserved. -/
def State.startClause (s : State) (h : Word) (ws : List Word) : State :=
  match s.issuer? s.active with
  | none => s
  | some i =>
    match s.lot? i.core i.bctx with
    | none => s
    | some l =>
      let need := clauseNeeds h ws
      let warps := (i.agents.map (fun a => a.w)).eraseDups
      let ok (w : Nat) : Bool := (l.warp w).admits need (8 - s.logsUsed i.core i.bctx w)
      let bad := i.agents.filter (fun a => !ok a.w)
      let rest := i.agents.filter (fun a => ok a.w)
      let entries := rest.length * need.entries
      let full := 3072 < s.entriesUsed i.core + entries
      let parks := if full then i.agents else bad
      let park (a : Agent) : Park :=
        .clauseStart { need with entries := need.entries * (parks.filter (fun x => x.w == a.w)).length }
      -- a clause-start WAIT resumes at the header that failed the check (R68)
      let s := s.setIssuer s.active (some { i with next := i.hdr })
      let s := if parks.isEmpty then s else s.parkAll (parks.map (fun a => (a, park a)))
      if full || warps.isEmpty then s
      else match s.issuer? s.active with
      | none => s
      | some j =>
        s.setIssuer s.active (some { j with
          next := i.hdr + 4 + BitVec.ofNat 80 (4 * hdrCount h), fetched := true, words := ws, index := 0, rb := hdrRB h,
          runWords := i.runWords + hdrCount h, reserved := entries, yielded := false })

/-- A barker that was parked DQFULL goes on at the word of its DQPUSH, in a clause that was checked before, with the entries that
the clause has kept. After a restore it has none, and parks WAIT where they are not free (R86, R365). -/
def State.resumeMid (s : State) (h : Word) (ws : List Word) (t : Thread) : State :=
  match s.issuer? s.active with
  | none => s
  | some i =>
    let rest := ws.drop (t.mid - 1)
    let more := (clauseNeeds h rest).entries - t.kept
    if more != 0 && 3072 < s.entriesUsed i.core + more then
      (s.setIssuer s.active (some { i with next := i.hdr })).parkAll [(Agent.barker, .clauseStart ⟨0x3FFFFF, 0, 0, 0, 0, 0, more⟩)]
    else
      let s := s.onLot i.core i.bctx (fun l => l.setThr Agent.barker { l.thr Agent.barker with mid := 0, kept := 0 })
      s.setIssuer s.active (some { i with
        next := i.hdr + 4 + BitVec.ofNat 80 (4 * hdrCount h), fetched := true, words := rest, index := t.mid - 1,
        rb := hdrRB h, runWords := i.runWords + hdrCount h, reserved := t.kept + more, yielded := false })

/-- CLAUSE_START of the active unit (R68, R73, R86, R119, R285): agents with a stop that became known take it; the clause
is fetched and checked; a clause that would carry the run past 24 words ends the run; the start condition follows. -/
def State.clauseStart (s : State) : State :=
  match s.issuer? s.active with
  | none => s
  | some i =>
    if i.fetched then s
    else if s.unitHeld s.active i then s.unitWait s.active i
    else match s.lot? i.core i.bctx with
    | none => s.setIssuer s.active none
    | some l =>
      -- a barker in the middle of its clause takes its stop at the end of the clause
      let due := i.agents.filter (fun a => (l.thr a).stop.isSome && (l.thr a).mid == 0)
      let s := s.endRunAt due i.hdr
      match s.issuer? s.active with
      | none => s
      | some i =>
        let barker := i.agents.any (fun a => a.isBarker)
        match s.fetchWord i.core l.ctx i.hdr.toNat with
        | (.bad code detail addr, s) => (s.unitServed s.active i).headerStop l i.agents code detail addr
        | (.ok h, s) =>
          match headerFault h barker with
          | some code => (s.unitServed s.active i).headerStop l i.agents code 0 0
          | none =>
            if 24 < i.runWords + hdrCount h then (s.unitServed s.active i).endRunAt i.agents i.hdr
            else
              let (fs, s) := s.fetchWords i.core l.ctx ((i.hdr.toNat + 4) % 2 ^ 80) (hdrCount h)
              let s := s.unitServed s.active i
              match wordsFault h fs 0 16 with
              | some (code, detail, addr) => s.headerStop l i.agents code detail addr
              | none =>
                let ws := fs.map (fun f => f.word)
                let t := l.thr Agent.barker
                if barker && t.mid != 0 then s.resumeMid h ws t else s.startClause h ws

/-- CLAUSE_START of a unit. -/
def execClauseStart (unit : Nat) (s : State) : Out := .next ({ s with active := unit }).clauseStart

/-! ### The end of a clause -/

/-- An agent at the end of its clause: it stands at its target or at the word that follows; a stepped thread stops with
event 0x51 (R120, R302). -/
def Lot.endClauseOf (l : Lot) (i : Issuer) (a : Agent) : Lot :=
  let t := l.thr a
  let pc := t.target.getD i.next
  let t := { t with
    pc := pc, via := if t.target.isSome then some i.hdr else none, target := none }
  let t := if t.stepping then
      { t with
        stepping := false, stop := some (t.stop.getD ⟨0x51, 0, 0, 0, false, i.hdr⟩) }
    else t
  l.setThr a t

/-- The last word of the clause has executed: threads with a stop to take leave, and the run goes on at the common PC of
the rest, or ends (R73, R75, R80, R120, R285). -/
def State.endClause (s : State) : State :=
  match s.issuer? s.active with
  | none => s
  | some i =>
    let s := s.onLot i.core i.bctx (fun l => i.agents.foldl (fun l a => l.endClauseOf i a) l)
    match s.lot? i.core i.bctx with
    | none => s.setIssuer s.active none
    | some l =>
      let s := s.setIssuer s.active (some { i with reserved := 0 })
      let due (a : Agent) : Bool := (l.thr a).stop.isSome
        || ((l.thr a).shadow.isNone && ((l.thr a).exitAfter.isSome || (l.thr a).waitAfter.isSome))
      let s := s.boundary (i.agents.filter due)
      match i.agents.filter (fun a => !due a) with
      | [] => s
      | a :: rest =>
        let pc := (l.thr a).pc
        if i.rb || i.yielded || a.isBarker || rest.any (fun b => (l.thr b).pc != pc) then s.boundary (a :: rest)
        else (s.setIssuer s.active (some { i with
            agents := a :: rest, hdr := pc, next := pc, fetched := false, words := [], index := 0, reserved := 0,
            yielded := false })).recheck i.core

/-! ### Turns of the issue slots (R69 to R73) -/

/-- The lot and its gang that own a gang of a core. -/
def State.gangOwner (s : State) (c g : Nat) : Option (Nat × Nat × Lot) :=
  (List.range 4).findSome? (fun b => (s.lot? c b).bind (fun l =>
    if l.gangs.contains g then some (b, l.gangs.findIdx (fun x => x == g), l) else none))

/-- Threads of a gang of a lot (R31). -/
def Lot.gangAgents (l : Lot) (k : Nat) : List Agent := l.agents.filter (fun a => a.w / 4 == k)

/-- Select's thread that decides the PC: of the aged threads the oldest, else of the READY threads the one of lowest PC;
ties by lowest PC (R70). -/
def Lot.selectPc (l : Lot) (ready : List Agent) : Option VAddr :=
  let aged := ready.filter (fun a => (l.thr a).aged)
  let better (x y : Agent) : Bool :=
    if aged.isEmpty then (l.thr x).pc.toNat < (l.thr y).pc.toNat
    else (l.thr x).seq < (l.thr y).seq || ((l.thr x).seq == (l.thr y).seq && (l.thr x).pc.toNat < (l.thr y).pc.toNat)
  match (if aged.isEmpty then ready else aged) with
  | [] => none
  | a :: rest => some (l.thr (rest.foldl (fun m x => if better x m then x else m) a)).pc

/-- The formed warps of a group: the n-th takes at each home lane the n-th thread by warp number (R70, R71). -/
def formWarps (group : List Agent) : List (List Agent) :=
  ((List.range 4).map (fun n => (List.range 32).filterMap (fun lane =>
    (group.filter (fun a => a.l == lane))[n]?))).filter (fun fw => !fw.isEmpty)

/-- READY threads of a gang that may be selected. -/
def Lot.readyOf (l : Lot) (k : Nat) : List Agent := (l.gangAgents k).filter (fun a => (l.thr a).st == .ready)

/-- SELECTION (R70): the batch of a gang. -/
def Lot.select (l : Lot) (k : Nat) : List (List Agent) :=
  let ready := l.readyOf k
  match l.selectPc ready with
  | none => []
  | some pc => formWarps (ready.filter (fun a => (l.thr a).pc == pc))

/-- The gang at a place of a slot's rotation has work: a formed warp that waits, or READY threads; a lot that is being
saved selects no more (R294). -/
def State.gangWork (s : State) (c g : Nat) : Bool :=
  match s.gangOwner c g with
  | none => false
  | some (_, k, l) => !(Tbl.get [] (s.core c).batches g).isEmpty || (!l.saving && !(l.readyOf k).isEmpty)

/-- A formed warp takes the slot: threads of a lot that is ending or that a debug stop has reached leave it first. -/
def State.startRun (s : State) (c slot g b : Nat) (fw : List Agent) : State :=
  match s.lot? c b with
  | none => s
  | some l =>
    match fw with
    | [] => s
    | a :: _ =>
      let pc := (l.thr a).pc
      let s := { s.setIssuer (unitOf c slot) (some ⟨c, b, fw, pc, pc, false, [], 0, false, 0, 0, g, false⟩) with active := unitOf c slot }
      s.boundary (fw.filter (fun a => l.ending || (l.thr a).dbgPend))

/-- A turn of an issue slot: the next gang of its rotation with work gives one run of one formed warp (R72). -/
def State.issueTurn (s : State) (c slot : Nat) : State :=
  if 4 ≤ slot || (s.issuer? (unitOf c slot)).isSome || (s.core c).halted then s
  else
    let last := Tbl.get 0 (s.core c).slotRR slot
    match ((List.range 4).map (fun n => (last + n) % 4)).find? (fun j => s.gangWork c (slot + 4 * j)) with
    | none => s
    | some j =>
      let g := slot + 4 * j
      match s.gangOwner c g with
      | none => s
      | some (b, k, l) =>
        let waiting := Tbl.get [] (s.core c).batches g
        let batch := if waiting.isEmpty then l.select k else waiting
        let fresh := if waiting.isEmpty then batch.flatten else []
        let s := s.onLot c b (fun l => fresh.foldl (fun l a => l.setThr a { l.thr a with st := .issuing, aged := false }) l)
        let x := s.core c
        let s := s.setCore c { x with
          slotRR := Tbl.put 0 x.slotRR slot ((j + 1) % 4), batches := Tbl.put [] x.batches g batch.tail }
        s.startRun c slot g b (batch.headD [])

/-- ISSUE_TURN (R66, R70, R72, R73). -/
def execIssueTurn (core slot : Nat) (s : State) : Out := .next (s.issueTurn core slot)

/-- THREAD_AGED (R77): a READY thread's age has reached 4,096 cycles; when it has is not modelled (log entry 3), but
older READY threads of its gang are aged before it. -/
def execThreadAged (t : LaneId) (s : State) : Out :=
  match s.lot? t.core t.bctx with
  | none => .next s
  | some l =>
    let a := laneAgent t
    let x := l.thr a
    let older := (l.gangAgents (a.w / 4)).any (fun y => (l.thr y).st == .ready && (l.thr y).seq < x.seq && !(l.thr y).aged)
    if a.isBarker || x.st != .ready || x.aged || older then .next s
    else .next (s.setLot t.core t.bctx (l.setThr a { x with aged := true }))

/-! ### Turns of the scalar pipeline (R80) -/

/-- May the barker of a context issue a clause? -/
def State.barkerReady (s : State) (c b : Nat) : Bool :=
  match s.lot? c b with
  | none => false
  | some l => l.d.bk && !l.saving && (l.thr Agent.barker).st == .ready

/-- BARKER_TURN (R79, R80): the next ready barker of the rotation gets the pipeline for one clause. -/
def State.barkerTurn (s : State) (c : Nat) : State :=
  if (s.issuer? (unitOf c 4)).isSome || (s.core c).halted then s
  else match ((List.range 4).map (fun n => ((s.core c).pipeRR + n) % 4)).find? (fun b => s.barkerReady c b) with
  | none => s
  | some b =>
    match s.lot? c b with
    | none => s
    | some l =>
      let s := s.setCore c { s.core c with pipeRR := (b + 1) % 4 }
      let s := s.setLot c b (l.setThr Agent.barker { l.thr Agent.barker with st := .issuing })
      s.startRun c 4 0 b [Agent.barker]

/-- BARKER_TURN. -/
def execBarkerTurn (core : Nat) (s : State) : Out := .next (s.barkerTurn core)

/-! ### What a unit does at its turn -/

/-- The words that the active unit has executed leave it. -/
def State.consume (s : State) (n : Nat) : State :=
  match s.issuer? s.active with
  | none => s
  | some i => s.setIssuer s.active (some { i with words := i.words.drop n, index := i.index + n })

/-- What the unit does next: a turn, a clause start, the end of the clause, an illegal word, or an instruction with its
number of words (R73, R80, R119, R125). -/
inductive UnitMove where
  | turn | start | finish | illegal
  | run (i : Instr) (n : Nat)
deriving DecidableEq, Repr

def State.unitMove (s : State) (u : Nat) : UnitMove :=
  match s.issuer? u with
  | none => .turn
  | some i =>
    if !i.fetched then .start
    else match i.words with
    | [] => .finish
    | ws => match decode ws with
      | .ok (x, n) => .run x n
      | .error _ => .illegal

/-- An illegal word: every agent of the run stops at it (R125). -/
def State.illegalWord (s : State) : State :=
  match s.issuer? s.active with
  | none => s
  | some i => s.raise i.agents 0x01 0

end Sys2Proof.Machine
end

