-- ==== Sys2Proof/Machine/TileMath.lean ====
section
/-! DEFINITION. The matrix array's sums and the quantisation of blocks, over lists of elements (04_numbers.md R104, R105,
R110 to R113), and the layout of tiles in slots (09_tiles.md R243). -/

namespace Sys2Proof.Machine

/-! ### Elements in slots (R243) -/

/-- Formats in which a slot is read or written. -/
inductive TileFmt where
  | i8 | e4m3 | e5m2 | e2m1 | t2 | bf16
deriving DecidableEq, Repr

/-- Elements of a row and bits of an element. -/
def TileFmt.cols : TileFmt → Nat
  | .bf16 => 32
  | _ => 64

def TileFmt.bits : TileFmt → Nat
  | .bf16 => 16
  | .e2m1 => 4
  | .t2 => 2
  | _ => 8

/-- Data bytes of a row. -/
def TileFmt.rowBytes (f : TileFmt) : Nat := f.cols * f.bits / 8

def TileFmt.ofTy : Ty → Option TileFmt
  | .i8 => some .i8
  | .e4m3 => some .e4m3
  | .e5m2 => some .e5m2
  | .e2m1 => some .e2m1
  | .t2 => some .t2
  | .bf16 => some .bf16
  | _ => none

def mxTile : MxFmt → TileFmt
  | .e4m3 => .e4m3
  | .e5m2 => .e5m2
  | .e2m1 => .e2m1

def TileFmt.ffmt : TileFmt → FFmt
  | .e4m3 => fmtE4M3
  | .e5m2 => fmtE5M2
  | .e2m1 => fmtE2M1
  | _ => fmtBF16

/-- The raw elements of a row from its bytes, packed elements from the low bits up (R243). -/
def rowElems (f : TileFmt) (bs : List Byte) : List Nat :=
  let v := ofBytes bs
  (List.range f.cols).map (fun k => bits v (k * f.bits + f.bits - 1) (k * f.bits))

/-- The bytes of a row of raw elements. -/
def rowBytesOf (f : TileFmt) (es : List Nat) : List Byte :=
  toBytes ((es.zipIdx).foldl (fun v e => v + wrapN e.1 f.bits * 2 ^ (e.2 * f.bits)) 0) f.rowBytes

/-! ### Sign-select (R110) -/

/-- One element of a sign-select MMA: the sum over k and whether a T2 code 0b10 was read. -/
def signDot (a : List Int) (b : List (Int × Nat)) : Int × Nat :=
  (a.zip b).foldl (fun s p => (s.1 + p.1 * p.2.1, s.2 ||| p.2.2)) (0, 0)

/-! ### Float sums (R111 to R113) -/

/-- An exact sum of products, without a sign of zero; `.nan true` marks an invalid operation. -/
def exactDot (a b : List FVal) : FVal :=
  let ps := (a.zip b).map (fun p => FVal.mul p.1 p.2)
  let sig := ps.any (fun p => p.isSig)
  let nan := ps.any (fun p => p.isNan)
  let pos := ps.any (fun p => p == .inf false)
  let neg := ps.any (fun p => p == .inf true)
  if sig || (pos && neg) then .nan true
  else if nan then .nan false
  else if pos then .inf false
  else if neg then .inf true
  else match ps.foldl (fun s p => FVal.add false s p) (.fin false 0 0) with
  | .fin _ 0 _ => .fin false 0 0
  | v => v

/-- The flags that the array sets (R113). -/
def arrayFlags (fl : Nat) : Nat := fl &&& (flagNV ||| flagOF ||| flagTRES)

/-- One rounded addition into an F32 accumulator: the raw bits and the flags. -/
def accAdd (c : Nat) (v : FVal) : Nat × Nat :=
  let (r, fl) := fmtF32.round 0 0 (FVal.add false (fmtF32.dec c) v)
  (r, arrayFlags fl)

/-- The value of an E8M0 scale code; 0xFF is NaN. -/
def scaleExp (s : Nat) : Option Int := if s = 255 then none else some ((s : Int) - 127)

/-- t of R111: the rounded product of a block's sum and its two scales. -/
def blockTerm (p : FVal) (sa sb : Nat) : Nat × Nat :=
  match scaleExp sa, scaleExp sb, p with
  | some x, some y, .fin n m e => let r := fmtF32.round 0 0 (.fin n m (e + x + y)); (r.1, arrayFlags r.2)
  | some _, some _, v => fmtF32.round 0 0 v
  | _, _, v => (fmtF32.nanEnc, flagIf v.isSig flagNV)

/-- One element of an MX MMA (R111): `a` and `b` are the two rows, `sa` and `sb` their two scales. -/
def mxElem (c : Nat) (a b : List FVal) (sa sb : List Nat) : Nat × Nat :=
  (List.range 2).foldl (fun acc blk =>
    let p := exactDot ((a.drop (32 * blk)).take 32) ((b.drop (32 * blk)).take 32)
    let (t, f1) := blockTerm p (sa.getD blk 0) (sb.getD blk 0)
    let (r, f2) := accAdd acc.1 (fmtF32.dec t)
    (r, acc.2 ||| f1 ||| f2)) (c, 0)

/-- One element of a BF16 MMA (R112). -/
def bf16Elem (c : Nat) (a b : List FVal) : Nat × Nat :=
  (List.range 16).foldl (fun acc n =>
    let (r, f) := accAdd acc.1 (exactDot ((a.drop (2 * n)).take 2) ((b.drop (2 * n)).take 2))
    (r, acc.2 ||| f)) (c, 0)

/-! ### Quantisation (R104, R105) -/

/-- Element types of quantisation. -/
def quantEmax (t : Ty) : Int :=
  match t with
  | .e4m3 => 8
  | .e5m2 => 15
  | .e2m1 => 2
  | _ => 0

/-- The scale code of a block. -/
def scaleCode (t : Ty) (xs : List FVal) : Nat :=
  let ls := xs.filterMap (fun x => match x with
    | .fin _ m e => if m = 0 then none else some (leadExp m e)
    | _ => none)
  match ls with
  | [] => 0
  | l :: rest =>
    let se := (rest.foldl (fun a b => if a < b then b else a) l) - quantEmax t
    (min (max se (-127)) 127 + 127).toNat

/-- One element at a scale: the raw element and the flags SAT, NANS and, for a signalling NaN, NV. -/
def quantElem (t : Ty) (rnd code : Nat) (x : FVal) : Nat × Nat :=
  let sc (e : Int) : Int := e - ((code : Int) - 127)
  if t = .i8 then
    match x with
    | .nan sg => (127, flagNANS ||| flagIf sg flagNV)
    | .inf neg => (wrapI (if neg then -127 else 127) 8, flagSAT)
    | .fin neg m e =>
      let (k, _) := roundAt rnd neg m (sc e) 0 0
      let v : Int := if neg then -(min k 127 : Nat) else (min k 127 : Nat)
      (wrapI v 8, flagIf (127 < k) flagSAT)
  else
    let f := fmtOf t
    match x with
    | .nan sg => (f.nanEnc, flagIf (f.top == .none) flagNANS ||| flagIf sg flagNV)
    | .inf neg => (f.signEnc neg f.maxEnc, flagSAT)
    | .fin neg m e =>
      let r := f.roundFin rnd 0 neg m (sc e)
      (r.1, r.2 &&& flagSAT)

/-- A block: its scale code, its elements and the flags. -/
def quantBlock (t : Ty) (rnd : Nat) (xs : List FVal) : Nat × List Nat × Nat :=
  let code := scaleCode t xs
  let rs := xs.map (fun x => quantElem t rnd code x)
  (code, rs.map (fun r => r.1), rs.foldl (fun f r => f ||| r.2) 0)

end Sys2Proof.Machine
end

