-- ==== Sys2Proof/Machine/Tiles.lean ====
section
/-! DEFINITION. Operand slots, accumulator tiles and the matrix array: the tile instructions, the tile order of a lot and
the events of its operations (09_tiles.md R242 to R254; 14_ref_a_c.md R337 to R339, R358; 16_ref_j_r.md R400, R401, R412,
R413, R418). -/

namespace Sys2Proof.Machine

/-! ### Slots and accumulators (R242 to R245) -/

def Lot.slotSt (l : Lot) (k : Nat) : SlotState := Tbl.get .free l.slotState k

def Lot.setSlotSt (l : Lot) (k : Nat) (x : SlotState) : Lot := { l with slotState := Tbl.put .free l.slotState k x }

/-- CheckSlotClaimed and CheckAcc (R242, R244). -/
def Lot.slotOk (l : Lot) (k : Nat) : Bool := k < l.d.ops && l.slotSt k == .claimed
def Lot.accOk (l : Lot) (n : Nat) : Bool := n < l.d.acc

/-- The bytes of row r of a slot in a format. -/
def Lot.slotRow (l : Lot) (k : Nat) (f : TileFmt) (r : Nat) : List Nat :=
  rowElems f (Tbl.slice 0 l.slotData (k * 4096 + r * f.rowBytes) f.rowBytes)

/-- Writes row r of a slot. -/
def Lot.setSlotRow (l : Lot) (k : Nat) (f : TileFmt) (r : Nat) (es : List Nat) : Lot :=
  let bs := rowBytesOf f es
  { l with slotData := Tbl.putRange 0 l.slotData (k * 4096 + r * f.rowBytes) f.rowBytes (fun i => bs.getD i 0) }

/-- Scale code (r, blk) of a slot; a slot's codes are 0x7F at placement (R242, R243). -/
def Lot.slotScaleAt (l : Lot) (k r blk : Nat) : Nat := (Tbl.get 0x7F l.slotScale (k * 128 + 2 * r + blk)).toNat

def Lot.setSlotScale (l : Lot) (k r blk v : Nat) : Lot :=
  { l with slotScale := Tbl.put 0x7F l.slotScale (k * 128 + 2 * r + blk) (BitVec.ofNat 8 v) }

/-- Row r of an accumulator tile, raw. -/
def Lot.accRow (l : Lot) (n r : Nat) : List Nat := (Tbl.slice 0 l.acc (n * 4096 + r * 64) 64).map (fun w => w.toNat)

def Lot.accAt (l : Lot) (n r c : Nat) : Word := Tbl.get 0 l.acc (n * 4096 + r * 64 + c)

def Lot.setAccAt (l : Lot) (n r c : Nat) (v : Word) : Lot := { l with acc := Tbl.put 0 l.acc (n * 4096 + r * 64 + c) v }

/-- KIND of a tile: INT or FLT (R245). -/
def Lot.accIsInt (l : Lot) (n : Nat) : Bool := Tbl.get false l.accInt n

/-- The exact value of a raw accumulator element by KIND (R245). -/
def accReal (int : Bool) (x : Nat) : FVal := if int then FVal.ofInt (sextI x 32) else fmtF32.dec x

/-! ### The effects of the operations -/

/-- MMA (R249): the tile after, with the flags. -/
def Lot.applyMma (l : Lot) (f : FmtMma) : Lot × Nat :=
  let n := f.acc.toNat
  let oa := f.oa.toNat
  let ob := f.ob.toNat
  let fa : TileFmt := match f.mode with
    | .ss => .i8
    | .mx => mxTile f.fa
    | .bf16 => .bf16
  let fb : TileFmt := match f.mode with
    | .ss => .t2
    | .mx => mxTile f.fb
    | .bf16 => .bf16
  let rows : List Nat := List.range 64
  let as := rows.map (fun r => l.slotRow oa fa r)
  let bs := rows.map (fun r => l.slotRow ob fb r)
  let cs := rows.map (fun r => l.accRow n r)
  let out : List (List (Nat × Nat)) := match f.mode with
    | .ss =>
      let xs := as.map (fun r => r.map (fun x => sextI x 8))
      let ys := bs.map (fun r => r.map t2Val)
      (cs.zip xs).map (fun p => (p.1.zip ys).map (fun q =>
        let (sum, fl) := signDot p.2 q.2
        (wrapI (sextI q.1 32 + sum) 32, fl)))
    | .mx =>
      let xs := as.map (fun r => r.map (fun x => fa.ffmt.dec x))
      let ys := bs.map (fun r => r.map (fun x => fb.ffmt.dec x))
      let sc (k r : Nat) : List Nat := [l.slotScaleAt k r 0, l.slotScaleAt k r 1]
      ((cs.zip xs).zipIdx).map (fun p => ((p.1.1.zip ys).zipIdx).map (fun q =>
        mxElem q.1.1 p.1.2 q.1.2 (sc oa p.2) (sc ob q.2)))
    | .bf16 =>
      let xs := as.map (fun r => r.map fmtBF16.dec)
      let ys := bs.map (fun r => r.map fmtBF16.dec)
      (cs.zip xs).map (fun p => (p.1.zip ys).map (fun q => bf16Elem q.1 p.2 q.2))
  let flat := out.flatten
  let flags := flat.foldl (fun a e => a ||| e.2) 0
  let vals : Array Nat := (flat.map (fun e => e.1)).toArray
  ({ l with
    acc := Tbl.putRange 0 l.acc (n * 4096) 4096 (fun i => BitVec.ofNat 32 (vals.getD i 0)),
    accInt := Tbl.put false l.accInt n (f.mode == .ss) }, flags)

/-- The rows of a quantised tile: for each row its elements, and its two scale codes, with the flags (R254). -/
def Lot.quantRows (l : Lot) (n : Nat) (t : Ty) (rnd : Nat) : List (List Nat × List Nat) × Nat :=
  let int := l.accIsInt n
  let rows := (List.range 64).map (fun r =>
    let xs := (l.accRow n r).map (accReal int)
    (quantBlock t rnd (xs.take 32), quantBlock t rnd (xs.drop 32)))
  (rows.map (fun p => (p.1.2.1 ++ p.2.2.1, [p.1.1, p.2.1])), rows.foldl (fun f p => f ||| p.1.2.2 ||| p.2.2.2) 0)

/-- QUANT into a slot (R254). -/
def Lot.applyQuant (l : Lot) (n : Nat) (t : Ty) (rnd slot : Nat) : Lot × Nat :=
  let f := (TileFmt.ofTy t).getD .i8
  let (rows, fl) := l.quantRows n t rnd
  let l := (rows.zipIdx).foldl (fun l e =>
    ((l.setSlotRow slot f e.2 e.1.1).setSlotScale slot e.2 0 (e.1.2.getD 0 0)).setSlotScale slot e.2 1 (e.1.2.getD 1 0)) l
  (l, fl)

/-- The bytes that QUANT writes to memory: the data, then the 128 scale codes (R254). -/
def Lot.quantBytes (l : Lot) (n : Nat) (t : Ty) (rnd : Nat) : List Byte × Nat :=
  let f := (TileFmt.ofTy t).getD .i8
  let (rows, fl) := l.quantRows n t rnd
  ((rows.flatMap (fun e => rowBytesOf f e.1)) ++ (rows.flatMap (fun e => e.2.map (fun c => BitVec.ofNat 8 c))), fl)

/-! ### Engine accesses to memory (R196, R230, R247) -/

/-- The checks of one engine access: the walk, R172, and no alias window. A space of `none` takes the one of the frame's
region (R240). -/
def State.engCheck (s : State) (core ctx va : Nat) (write : Bool) (sp : Option Space) : Trans × State :=
  match s.translate core ctx va with
  | (.bad code detail, s) => (.bad code detail, s)
  | (.ok pa attr modid big, s) =>
    let space : Space := sp.getD (if region pa = 1 then .v else .g)
    match accFault (if write then .st else .ld) space pa attr with
    | some code => (.bad code 0, s)
    | none => if 8 ≤ region pa then (.bad 0x12 0, s) else (.ok pa attr modid big, s)

/-- The transfers of an engine's step are done with. -/
def State.engDone (s : State) (id : Nat) : State := s.endTransfers (.acc id)

/-- The gate of an engine's access: the walk that its translation needs (R173). -/
def State.engWalk (s : State) (core ctx id va : Nat) : EngRes × State :=
  match s.translateGate (.acc id) core ctx va with
  | .wait => (.wait, s.translateWait (.acc id) core ctx va)
  | .bad code detail => (.bad code detail, s)
  | .ok v => (.ok v, s.translateServed (.acc id) core ctx va)

/-- Is a PA served through the caches of a core's die (R158, R161, R230)? -/
def ownCached (core pa : Nat) : Bool := region pa == 0 || (region pa == 1 && vaultDie pa == dieOf core)

/-- Reads n bytes within a line for an engine of a core, through the caches of its die: a line that the die holds for its
context needs no home, and one of another context is first written back and dropped (R165, R230). -/
def State.engRead (s : State) (core ctx id va n : Nat) (sp : Option Space) : EngRes × State :=
  match s.engWalk core ctx id va with
  | (.wait, s) => (.wait, s)
  | (.bad code detail, s) => (.bad code detail, s)
  | (.ok _, s) => match s.engCheck core ctx va false sp with
    | (.bad code detail, s) => (.bad code detail, s)
    | (.ok pa _ _ _, s) =>
      if ownCached core pa && s.holds core ctx (pa / 128) then (.ok (s.coreNat core pa n), s)
      else match s.way (.acc id) (dieOf core) pa true with
      | .wait => (.wait, s.wayWait (.acc id) (dieOf core) pa 0 n)
      | .bad code detail => (.bad code detail, s)
      | .ok _ =>
        let s := s.bankServed pa (.acc id)
        if ownCached core pa then
          let s := s.claimTag (dieOf core) (pa / 128) ctx
          (.ok (s.coreNat core pa n), s)
        else
          let (v, s) := s.homeRead pa n
          (.ok v, s)

/-- A piece of an engine's access that lies in one line: its PA and attribute bits, and which of the bytes it holds. -/
structure Piece where
  pa : Nat
  attr : Nat
  off : Nat
  n : Nat
deriving DecidableEq, Repr

/-- One piece of a write of an engine, as far as its home can take it now. One whose reply alone was lost is performed (R313). -/
def State.engPiece (s : State) (core ctx id va off n : Nat) (sp : Option Space) : (EngRes × List Piece) × State :=
  match s.engWalk core ctx id va with
  | (.wait, s) => ((.wait, []), s)
  | (.bad code detail, s) => ((.bad code detail, []), s)
  | (.ok _, s) => match s.engCheck core ctx va true sp with
    | (.bad code detail, s) => ((.bad code detail, []), s)
    | (.ok pa attr _ _, s) =>
      if s.replyLost (.acc id) pa then ((.ok 0, [⟨pa, attr, off, n⟩]), s)
      else match s.way (.acc id) (dieOf core) pa false with
      | .wait => ((.wait, []), s.wayWait (.acc id) (dieOf core) pa n 0)
      | .bad code detail => ((.bad code detail, []), s)
      | .ok _ => ((.ok 0, [⟨pa, attr, off, n⟩]), s)

/-- The pieces of a write of n bytes, n at most 128; it is performed whole or not at all (R179, R230). -/
def State.engPieces (s : State) (core ctx id va n : Nat) (sp : Option Space) : (EngRes × List Piece) × State :=
  let m := min n (128 - va % 128)
  match s.engPiece core ctx id (va % 2 ^ 80) 0 m sp with
  | ((.ok _, ps), s) =>
    if m = n then ((.ok 0, ps), s)
    else match s.engPiece core ctx id ((va + m) % 2 ^ 80) m (n - m) sp with
    | ((.ok _, qs), s) => ((.ok 0, ps ++ qs), s)
    | r => r
  | r => r

/-- The homes take the pieces: the die's copies are written back and dropped first (R196). -/
def State.takePieces (s : State) (core id : Nat) (ps : List Piece) : State :=
  ps.foldl (fun s p => (s.bankServed p.pa (.acc id)).surrender (dieOf core) (p.pa / 128)) s

/-- Was the reply of a piece lost? -/
def State.piecesLost (s : State) (id : Nat) (ps : List Piece) : Bool := ps.any (fun p => s.replyLost (.acc id) p.pa)

/-- A value read from its pieces, and written to them. -/
def State.readPieces (s : State) (ps : List Piece) : Nat × State :=
  ps.foldl (fun r p =>
    let (v, s) := r.2.homeRead p.pa p.n
    (r.1 + v * 2 ^ (8 * p.off), s)) (0, s)

def State.writePieces (s : State) (ps : List Piece) (v : Nat) : State :=
  ps.foldl (fun s p => s.homeWrite p.pa p.n (bits v (8 * (p.off + p.n) - 1) (8 * p.off))) s

/-- Writes n bytes, n at most 128, for an engine of a core; a write whose reply is lost stands, and fails with 0x31 (R196, R231,
R313). -/
def State.engWrite (s : State) (core ctx id va n v : Nat) (sp : Option Space) : EngRes × State :=
  match s.engPieces core ctx id va n sp with
  | ((.ok _, ps), s) =>
    (if s.piecesLost id ps then .bad 0x31 0 else .ok 0, (s.takePieces core id ps).writePieces ps v)
  | ((r, _), s) => (r, s)

/-- The pieces of a write of one row segment of 1,024 bytes, line by line. -/
def State.segPieces (s : State) (core ctx id va : Nat) (sp : Option Space) : (EngRes × List Piece) × State :=
  (List.range 8).foldl (fun r i => match r with
    | ((.ok _, ps), s) => (match s.engPiece core ctx id ((va + 128 * i) % 2 ^ 80) (128 * i) 128 sp with
      | ((.ok _, qs), s) => ((.ok 0, ps ++ qs), s)
      | r => r)
    | r => r) ((.ok 0, []), s)

/-- Writes a row segment for an engine in one window of its bank (R196, R277). -/
def State.engSegment (s : State) (core ctx id va v : Nat) (sp : Option Space) : EngRes × State :=
  match s.segPieces core ctx id va sp with
  | ((.ok _, ps), s) =>
    let s := (ps.take 1).foldl (fun s p => s.bankServed p.pa (.acc id)) s
    let t := (ps.foldl (fun s p => s.surrender (dieOf core) (p.pa / 128)) s).writePieces ps v
    (if s.piecesLost id ps then .bad 0x31 0 else .ok 0, t)
  | ((r, _), s) => (r, s)

/-! ### The tile order (R251) -/

/-- Resources: slot k is k, accumulator n is 32 + n. -/
def TileKind.reads (k : TileKind) : List Nat :=
  match k with
  | .mma f => [f.oa.toNat, f.ob.toNat, 32 + f.acc.toNat]
  | .accrd n _ _ => [32 + n]
  | .quantSlot n _ _ _ => [32 + n]
  | .quantMem n _ _ _ _ => [32 + n]
  | .store n _ => [32 + n]
  | .accz _ | .accwr _ _ | .load _ _ => []

def TileKind.writes (k : TileKind) : List Nat :=
  match k with
  | .mma f => [32 + f.acc.toNat]
  | .accz n => [32 + n]
  | .accwr n _ => [32 + n]
  | .quantSlot _ _ _ k => [k]
  | .load k _ => [k]
  | .accrd _ _ _ | .quantMem _ _ _ _ _ | .store _ _ => []

def TileKind.isMma (k : TileKind) : Bool :=
  match k with
  | .mma _ => true
  | _ => false

def meets (a b : List Nat) : Bool := a.any (fun x => b.contains x)

/-- Does an earlier incomplete operation hold a later one back? An MMA that has left the array has ended its reads. -/
def TileOp.holds (x y : TileOp) : Bool :=
  meets x.kind.writes (y.kind.reads ++ y.kind.writes) || (x.phase != .left && meets x.kind.reads y.kind.writes)

/-- Operations of a lot before a given one, in tile order. -/
def State.tilesBefore (s : State) (t : TileOp) : List TileOp :=
  (s.e.tileOps.takeWhile (fun x => x.id != t.id)).filter (fun x => x.core == t.core && x.bctx == t.bctx)

/-- Is an operation among the 64 that its core's scoreboard holds? -/
def State.onBoard (s : State) (t : TileOp) : Bool :=
  ((s.e.tileOps.filter (fun x => x.core == t.core)).take 64).any (fun x => x.id == t.id)

/-- May an operation start, as far as its lot's tile order goes (R251)? The exception lets an MMA start when the latest
earlier MMA on its accumulator, its only conflict, has left the array. -/
def State.tileFree (s : State) (t : TileOp) : Bool :=
  let before := s.tilesBefore t
  let held := before.filter (fun x => x.holds t)
  let chain : Option TileOp :=
    if t.kind.isMma then (before.filter (fun x => x.kind.isMma && meets x.kind.writes t.kind.writes)).getLast? else none
  s.onBoard t && (match held with
    | [] => true
    | [x] => x.phase == .left && (match chain with
      | some y => y.id == x.id
      | none => false)
    | _ => false)

/-- The MMA that the array of a core starts next: of the lots in rotation, the first with a ready MMA, and its earliest;
none while an MMA is in the array (R252). -/
def State.nextMma (s : State) (c : Nat) : Option TileOp :=
  if s.e.tileOps.any (fun x => x.core == c && x.kind.isMma && x.phase == .started) then none
  else (List.range 4).findSome? (fun n =>
    let b := ((s.core c).arrayRR + n) % 4
    s.e.tileOps.find? (fun x => x.core == c && x.bctx == b && x.kind.isMma && x.phase == .waiting && s.tileFree x))

/-- Enters operations in the tile order at issue, as one group that counts once in TL (R85, R250, R251). -/
def State.enterTiles (s : State) (v : View) (a : Agent) (warps : List Nat) (ks : List TileKind) : State :=
  if ks.isEmpty then s
  else
    let (g, s) := s.fresh
    let s := ks.foldl (fun s k =>
      let (id, s) := s.fresh
      { s with e := { s.e with tileOps := s.e.tileOps ++ [⟨id, g, v.i.core, v.i.bctx, a, v.i.hdr, k, .waiting, warps⟩] } }) s
    warps.foldl (fun s w => s.onWarp v.i.core v.i.bctx w (fun x => x.bump 3)) s

/-! ### Warp-scalar instructions (R248) -/

/-- The elected lane: the lowest home lane among the participants. -/
def View.elected (v : View) : Option Agent :=
  match v.parts with
  | [] => none
  | a :: rest => some (rest.foldl (fun m x => if x.l < m.l then x else m) a)

/-- Home warps of the active agents, each once (R85). -/
def View.warps (v : View) : List Nat := (v.i.agents.map (fun a => a.w)).eraseDups

/-- A warp-scalar instruction: it acts through the elected lane, whose registers it reads and for which it faults. -/
def State.scalarOp (s : State) (uses : List Use) (p : BitVec 3) (f : View → Agent → State → State) : Out :=
  match s.view p with
  | none => .fault .noIssuer
  | some v =>
    match v.elected with
    | none => .next s
    | some a =>
      match v.l.instrFault a true true uses with
      | some c => .next (s.raise [a] c 0)
      | none => .next (f v a s)

/-! ### CLAIM and RELEASE (R244) -/

/-- RELEASING slots that no incomplete operation reads are FREE. -/
def State.freeSlots (s : State) (c b : Nat) : State :=
  let used (k : Nat) : Bool := s.e.tileOps.any (fun x => x.core == c && x.bctx == b && x.kind.reads.contains k)
  s.onLot c b (fun l => { l with slotState := l.slotState.filter (fun e => !(e.2 == .releasing && !used e.1)) })

/-- CLAIM (R358). -/
def execClaim (p : BitVec 3) (slot : BitVec 5) (s : State) : Out :=
  s.scalarOp [] p (fun v a s =>
    if v.l.d.ops ≤ slot.toNat || v.l.slotSt slot.toNat == .claimed then s.raise [a] 0x21 0
    else s.setLot v.i.core v.i.bctx (v.l.setSlotSt slot.toNat .claimed))

/-- RELEASE (R418). -/
def execRelease (p : BitVec 3) (slot : BitVec 5) (s : State) : Out :=
  s.scalarOp [] p (fun v a s =>
    if !v.l.slotOk slot.toNat then s.raise [a] 0x21 0
    else (s.setLot v.i.core v.i.bctx (v.l.setSlotSt slot.toNat .releasing)).freeSlots v.i.core v.i.bctx)

/-! ### MMA, MMAP, ACCZ, ACCRD, ACCWR, QUANT -/

/-- The resource checks of an MMA (R249). -/
def Lot.mmaOk (l : Lot) (f : FmtMma) : Bool := l.accOk f.acc.toNat && l.slotOk f.oa.toNat && l.slotOk f.ob.toNat

/-- MMA (R249, R400). -/
def execMma (f : FmtMma) (s : State) : Out :=
  s.scalarOp [] f.p (fun v a s =>
    if !v.l.mmaOk f then s.raise [a] 0x21 0 else s.enterTiles v a v.warps [.mma f])

/-- Scratchpad bytes as they stand after the issuing warp's earlier stores: those that are still outstanding are laid over
the share in order (R250). -/
def State.scratchSeen (s : State) (c b w : Nat) (l : Lot) (off n : Nat) : List Byte :=
  let mine := s.accs.filter (fun x => x.t.core == c && x.t.bctx == b && x.t.w == w && x.kind == .st && x.sp == .l
    && !x.phase.isReplay && !x.misaligned && x.va + x.size ≤ l.d.scr * 1024 && (s.lockHit x).isNone)
  let l := mine.foldl (fun l x => l.setScratch x.va (toBytes x.data x.size)) l
  (List.range n).map (fun i => Tbl.get (0 : Byte) l.scratch (off + i))

/-- The faults of a chain's words, in order: the first malformed word or resource (R250). -/
def Lot.chainFault (l : Lot) (ws : List Word) : Option Nat :=
  ws.findSome? (fun w => match decode [w] with
    | .ok (.mma f, _) => if f.p != 0 then some 0x01 else if l.mmaOk f then none else some 0x21
    | _ => some 0x01)

/-- MMAP (R250, R401). -/
def execMmap (p : BitVec 3) (r : BitVec 7) (s : State) : Out :=
  s.scalarOp [use1 r] p (fun v a s =>
    let off := v.l.val a r 32
    if off % 64 != 0 then s.raiseD [a] 0x10 1 off
    else if v.l.d.scr * 1024 < off + 64 then s.raise [a] 0x11 off
    else
      let bs := s.scratchSeen v.i.core v.i.bctx a.w v.l off 64
      let ws := ((List.range 16).map (fun i => (BitVec.ofNat 32 (ofBytes ((bs.drop (4 * i)).take 4)) : Word))).takeWhile (fun w => w != 0)
      match v.l.chainFault ws with
      | some c => s.raise [a] c 0
      | none => s.enterTiles v a v.warps (ws.filterMap (fun w => match decode [w] with
          | .ok (.mma f, _) => some (.mma f)
          | _ => none)))

/-- ACCZ (R253, R339). -/
def execAccz (p : BitVec 3) (n : BitVec 4) (s : State) : Out :=
  s.scalarOp [] p (fun v a s =>
    if !v.l.accOk n.toNat then s.raise [a] 0x21 0 else s.enterTiles v a v.warps [.accz n.toNat])

/-- Row and column that a lane or the barker selects (R253, R338). -/
def accSel (a : Agent) (sel : Nat) : Nat × Nat :=
  if a.isBarker then (bits sel 5 0, bits sel 11 6) else (bits sel 5 0, 32 * bits sel 6 6 + a.l)

/-- The frame of ACCRD and ACCWR: the fault is the whole instruction's (R338). -/
def State.accOp (s : State) (p : BitVec 3) (n : BitVec 4) (d r : BitVec 7) (k : View → List (Agent × Nat × Nat) → TileKind) : Out :=
  s.instr true true [use1 d, use1 r] p (fun v s =>
    match v.parts with
    | [] => s
    | a :: _ =>
      if !v.l.accOk n.toNat then s.raise v.parts 0x21 0
      else
        let lanes := v.parts.map (fun x => (x, accSel x (v.l.val x r 32)))
        s.enterTiles v a v.warps [k v lanes])

/-- ACCRD (R253, R337, R338). -/
def execAccrd (p : BitVec 3) (n : BitVec 4) (d a : BitVec 7) (s : State) : Out :=
  s.accOp p n d a (fun _ lanes => .accrd n.toNat d.toNat lanes)

/-- ACCWR (R253, R337, R338): the data register is read at issue; participants stand in ascending home-lane order, so that
the highest lane's value stands. -/
def execAccwr (p : BitVec 3) (n : BitVec 4) (d a : BitVec 7) (s : State) : Out :=
  s.accOp p n d a (fun v lanes => .accwr n.toNat (lanes.map (fun e => (e.2.1, e.2.2, BitVec.ofNat 32 (v.l.val e.1 d 32)))))

/-- Bytes that a QUANT to memory writes. -/
def quantLen (t : Ty) : Nat := 64 * ((TileFmt.ofTy t).getD .i8).rowBytes + 128

/-- QUANT (R254, R412, R413): the faults of a memory destination are precise. -/
def execQuant (f : FmtQuant) (s : State) : Out :=
  s.scalarOp (if f.tomem then [use2 f.a] else []) f.p (fun v a s =>
    if !v.l.accOk f.acc.toNat then s.raise [a] 0x21 0
    else if !f.tomem then
      if !v.l.slotOk f.slot.toNat then s.raise [a] 0x21 0
      else s.enterTiles v a v.warps [.quantSlot f.acc.toNat f.ty f.rnd f.slot.toNat]
    else
      let va := v.l.addr a f.a .g 0
      let last := (va + quantLen f.ty - 1) % 2 ^ 80
      if va % 128 != 0 then s.raiseD [a] 0x10 1 va
      else match s.engCheck v.i.core v.l.ctx va true none with
      | (.bad code detail, s) => s.raiseD [a] code detail va
      | (.ok _ _ _ _, s) =>
        match s.engCheck v.i.core v.l.ctx last true none with
        | (.bad code detail, s) => s.raiseD [a] code detail last
        | (.ok _ _ _ _, s) => s.enterTiles v a v.warps [.quantMem f.acc.toNat f.ty f.rnd va 0])

/-! ### Events of tile operations -/

/-- TILE_OP_START (R251, R252). An order's operation starts with its order. -/
def execTileOpStart (op : Nat) (s : State) : Out :=
  match s.tileOp? op with
  | none => .next s
  | some t =>
    if t.phase != .waiting then .next s
    else match t.kind with
    | .load _ _ | .store _ _ => .next s
    | .mma _ =>
      match s.nextMma t.core with
      | some x =>
        if x.id = op then
          let s := s.setCore t.core { s.core t.core with arrayRR := (t.bctx + 1) % 4 }
          .next (s.setTileOp { t with phase := .started })
        else .next s
      | none => .next s
    | _ => .next (if s.tileFree t then s.setTileOp { t with phase := .started } else s)

/-- ARRAY_LEAVE (R251): the MMA's sums are formed; later MMAs on its accumulator may start. -/
def execArrayLeave (op : Nat) (s : State) : Out :=
  match s.tileOp? op with
  | none => .next s
  | some t =>
    match t.kind, t.phase with
    | .mma f, .started =>
      let s := s.onLot t.core t.bctx (fun l =>
        let (l, fl) := l.applyMma f
        l.orFlags t.agent.w fl)
      .next (s.setTileOp { t with phase := .left })
    | _, _ => .next s

/-- An operation ends: it leaves the tile order, TL of the issuers falls with the last of its group, and slots that nothing
reads any more are FREE (R85, R244, R250). -/
def State.endTile (s : State) (t : TileOp) : State :=
  let s := { s with e := { s.e with tileOps := s.e.tileOps.filter (fun x => x.id != t.id) } }
  let s := if s.e.tileOps.any (fun x => x.group == t.group) then s
    else t.warps.foldl (fun s w => s.countDown t.core t.bctx w 3) s
  (s.freeSlots t.core t.bctx).recheck t.core

/-- A record of an engine's refused access: KIND 4 REQUEST (R213, R241, R288). -/
def State.engRec (s : State) (core bctx : Nat) (a : Agent) (hdr : VAddr) (code detail addr outcome : Nat) : State :=
  match s.lot? core bctx with
  | none => s
  | some l =>
    let drain := match l.phase with
      | .running | .cancelling => 0
      | _ => 16
    (s.writeRec l.ctx { lotRec core l 4 code with
      flags := drain, warp := recWarp a, lanes := recLanes [a], outcome := outcome, detail := detail, pc := hdr, addr := addr }).countHalted
      l.launch

/-- The results of an operation other than an MMA; false where it is not done yet. A QUANT to memory writes one line at a time,
and its operation ends with the last, or with the first that is refused (R196, R254). -/
def State.performTile (s : State) (t : TileOp) (l : Lot) : Bool × State :=
  let put (l : Lot) : Bool × State := (true, s.setLot t.core t.bctx l)
  match t.kind with
  | .accz n => put { l with acc := Tbl.putRange 0 l.acc (n * 4096) 4096 (fun _ => 0) }
  | .accrd n d lanes =>
    put (lanes.foldl (fun l' e =>
      if l'.inRange e.1 d 1 then l'.setVal e.1 (BitVec.ofNat 7 d) 32 false (l.accAt n e.2.1 e.2.2).toNat else l') l)
  | .accwr n vals => put (vals.foldl (fun l e => l.setAccAt n e.1 e.2.1 e.2.2) l)
  | .quantSlot n ty rnd slot =>
    let (l, fl) := l.applyQuant n ty rnd.code.toNat slot
    put (l.orFlags t.agent.w fl)
  | .quantMem n ty rnd va done =>
    let (bs, fl) := l.quantBytes n ty rnd.code.toNat
    let flag (s : State) : State := (s.engDone t.id).onLot t.core t.bctx (fun l => l.orFlags t.agent.w fl)
    match s.engWrite t.core l.ctx t.id ((va + done) % 2 ^ 80) (min 128 (bs.length - done)) (ofBytes ((bs.drop done).take 128)) none with
    | (.wait, s) => (false, s)
    | (.ok _, s) =>
      if bs.length ≤ done + 128 then (true, flag s)
      else (false, (s.engDone t.id).setTileOp { t with kind := .quantMem n ty rnd va (done + 128) })
    | (.bad code detail, s) => (true, flag (s.engRec t.core t.bctx t.agent t.hdr code detail ((va + done) % 2 ^ 80) 0))
  | _ => (true, s)

/-- TILE_OP_COMPLETE (R252): the results are written and TL falls. -/
def execTileOpComplete (op : Nat) (s : State) : Out :=
  match s.tileOp? op with
  | none => .next s
  | some t =>
    match s.lot? t.core t.bctx with
    | none => .next (s.endTile t)
    | some l =>
      match t.kind, t.phase with
      | .mma _, .left => .next (s.endTile t)
      | .mma _, _ => .next s
      | .load _ _, _ => .next s
      | .store _ _, _ => .next s
      | _, .started =>
        let (done, s) := s.performTile t l
        .next (if done then s.endTile t else s)
      | _, _ => .next s

end Sys2Proof.Machine
end

