-- ==== Sys2Proof/Machine/Orders.lean ====
section
/-! DEFINITION. The request engine and the porter: kicks, copy orders and table commands, range locks, tags and the tensor
table (07_ordering.md R195 to R201; 09_tiles.md R229 to R241, R246, R247; 10_banks.md R264, R266; 16_ref_j_r.md R390;
17_ref_s_z.md R439 to R442). -/

namespace Sys2Proof.Machine

/-! ### Tags (R234 to R238, R201) -/

def tagMet (tags : Word64) (all : Bool) (mask : Word64) : Bool :=
  if all then tags &&& mask == mask else mask == 0 || tags &&& mask != 0

/-- Agents parked TAG whose condition holds wake (R441). -/
def State.wakeTags (s : State) (c b : Nat) : State :=
  match s.lot? c b with
  | none => s
  | some l => s.wakeAll c b (l.allAgents.filter (fun a => match (l.thr a).st with
      | .parked (.tag all mask) => tagMet l.tags all mask
      | _ => false))

/-- The lines of a range of VAs that a die holds, page by page. -/
def State.linesIn (s : State) (die ctx base len : Nat) : List Nat :=
  let first := base / 65536
  let pages := (List.range ((base + len + 65535) / 65536 - first)).map (fun i => first + i)
  pages.flatMap (fun p =>
    match s.walk (some die) ctx (p * 65536 % 2 ^ 80) with
    | .bad _ _ => []
    | .ok pa _ _ _ =>
      let lo := max base (p * 65536) - p * 65536
      let hi := min (base + len) ((p + 1) * 65536) - p * 65536
      let lines := (List.range ((pa + hi + 127) / 128 - (pa + lo) / 128)).map (fun i => (pa + lo) / 128 + i)
      lines.filter (fun l => (s.dieLine? die l).isSome))

/-- Is a range one of memory? -/
def Lock.inMemory (x : Lock) : Bool := x.sp != 2

/-- The dirty bytes of destination lines in the issuing die's caches are written back when the ranges are registered, as their
banks let them (R196, R275). -/
def State.cleanRange (s : State) (c : Nat) (x : Lock) : State :=
  if x.dst && x.inMemory then
    (s.linesIn (dieOf c) x.ctx x.base x.len).foldl (fun s l =>
      if s.canClean (dieOf c) l then s.cleanLine (dieOf c) l else s.backWait (dieOf c) l) s
  else s

/-- Are they? -/
def State.rangeClean (s : State) (c : Nat) (x : Lock) : Bool :=
  !(x.dst && x.inMemory) || (s.linesIn (dieOf c) x.ctx x.base x.len).all (fun l => s.canClean (dieOf c) l)

/-- Lines of the destination in the issuing die's caches are invalidated before the tag bit sets; what other agents have
written there since is theirs (R196). -/
def State.dropRange (s : State) (c : Nat) (x : Lock) : State :=
  if x.dst && x.inMemory then
    (s.linesIn (dieOf c) x.ctx x.base x.len).foldl (fun s l => if s.lineDirty (dieOf c) l then s else s.evictLine (dieOf c) l) s
  else s

/-- Range locks that a test selects clear, their destinations invalidated (R196, R201). -/
def State.clearLocks (s : State) (c : Nat) (p : Lock → Bool) : State :=
  let s := ((s.core c).locks.filter p).foldl (fun s x => s.dropRange c x) s
  let k := s.core c
  s.setCore c { k with locks := k.locks.filter (fun x => !p x) }

/-- Bit TAG of a lot's %tags is set: the range locks of that tag clear and waiters wake (R196, R201, R235). -/
def State.setTag (s : State) (c b tag : Nat) : State :=
  let s := s.clearLocks c (fun x => x.bctx == b && x.tag == tag)
  let s := s.onLot c b (fun l => { l with tags := l.tags ||| BitVec.ofNat 64 (2 ^ tag) })
  let waits := match s.lot? c b with
    | some l => l.allAgents.any (fun a => match (l.thr a).st with
        | .parked (.tag all mask) => tagMet l.tags all mask
        | _ => false)
    | none => false
  if waits then s.wakeTags c b else s

/-- Scratchpad bytes that an engine writes; monitors on the line note it (R84). -/
def Lot.engScratch (l : Lot) (off : Nat) (bs : List Byte) : Lot :=
  if bs.isEmpty then l
  else ((l.setScratch off bs).markScratch off).markScratch (off + bs.length - 1)

/-- One update of a barrier object by n bytes, n at most 128: the object after, and whether REMAIN reached zero (R235). -/
def objArrive (v n : Nat) : Nat × Bool :=
  let rem := bits v 47 0
  if n = 0 then (v, false)
  else if rem = 0 then (setBits v 62 62 1, false)
  else if n < rem then (setBits v 47 0 (rem - n), false)
  else (setBits (setBits v 47 0 0) 62 62 (if rem < n then 1 else bits v 62 62), true)

/-- Bytes of an order arrive, in updates of at most 128 (R235). -/
def State.arrive (s : State) (o : Order) (n : Nat) : Nat → State
  | 0 => s
  | fuel + 1 =>
    if n = 0 then s
    else
      let m := min n 128
      match s.lot? o.core o.bctx with
      | none => s
      | some l =>
        let (v, zero) := objArrive (l.scratchNat o.r.bobj 8) m
        let s := s.setLot o.core o.bctx (l.engScratch o.r.bobj (toBytes v 8))
        let s := if zero then s.setTag o.core o.bctx o.r.tag else s
        State.arrive s o (n - m) fuel

/-! ### The end of an order (R230, R236, R288) -/

/-- An ORDER record (R283, R288); it names no warp, lanes or PC, as R481 shows. -/
def State.orderRec (s : State) (o : Order) (code detail outcome addr : Nat) : State :=
  match s.lot? o.core o.bctx with
  | none => s
  | some l =>
    let drain := match l.phase with
      | .running | .cancelling => 0
      | _ => 16
    s.writeRec l.ctx { lotRec o.core l 3 code with
      flags := drain, tag := o.r.tag, outcome := outcome, detail := detail, addr := addr }

/-- An order leaves the engine; its tile operation completes. -/
def State.dropOrder (s : State) (o : Order) : State :=
  let s := ({ s with e := { s.e with orders := s.e.orders.filter (fun x => x.id != o.id) } }).engDone o.id
  match s.tileOp? o.tileOp with
  | some t => s.endTile t
  | none => s

/-- An order completes: an order that ends while its lot drains writes an ORDER record, COMPLETED (R288). -/
def State.endOrder (s : State) (o : Order) : State :=
  let drains := match s.lot? o.core o.bctx with
    | some l => match l.phase with
      | .running | .cancelling => false
      | _ => true
    | none => false
  let s := if drains then s.orderRec o 0 0 0 0 else s
  s.dropOrder o

/-- Is the barrier object well placed (R229, R236)? The code and DETAIL of the failure. -/
def Lot.bobjFault (l : Lot) (bobj : Nat) : Option (Nat × Nat) :=
  if bobj % 8 != 0 then some (0x10, 1) else if l.d.scr * 1024 < bobj + 8 then some (0x11, 0) else none

/-- An order fails: its record is written, its locks clear, FAIL is set in its object, and its tag bit is set (R201,
R236). -/
def State.failOrder (s : State) (o : Order) (code detail addr : Nat) : State :=
  let s := s.orderRec o code detail 3 addr
  let s := match s.lot? o.core o.bctx with
    | none => s
    | some l =>
      let s := s.countHalted l.launch
      match l.bobjFault o.r.bobj with
      | some _ => s
      | none => s.onLot o.core o.bctx (fun l =>
          l.engScratch o.r.bobj (toBytes (setBits (l.scratchNat o.r.bobj 8) 63 63 1) 8))
  let s := s.clearLocks o.core (fun x => x.order == o.id)
  (s.setTag o.core o.bctx o.r.tag).dropOrder o

/-! ### Tensors (R239, R240) -/

/-- A well-formed tensor entry. -/
structure Tensor where
  ty : Ty
  rank : Nat
  baxis : Nat
  mx : Bool
  dims : List Nat
  base : Nat
  sbase : Nat
  strides : List Int
  sstrides : List Int
deriving DecidableEq, Repr

/-- A number in a record: n bytes at an offset. -/
def recNat (bs : List Byte) (off n : Nat) : Nat := ofBytes ((bs.drop off).take n)

/-- An entry with V = 1, or none where it is malformed. -/
def tensorOf (bs : List Byte) : Option Tensor :=
  let f := recNat bs 0 1
  let rank := recNat bs 1 1
  let blk := recNat bs 2 1
  match Ty.ofCode (BitVec.ofNat 5 f) with
  | none => none
  | some ty =>
    let mx := bit blk 7
    let dims := (List.range 5).map (fun i => recNat bs (4 + 4 * i) 4)
    let strides := (List.range 5).map (fun i => sextI (recNat bs (0x30 + 8 * i) 8) 64)
    let ss := (List.range 5).map (fun i => sextI (recNat bs (0x58 + 8 * i) 8) 64)
    let sbase := recNat bs 0x22 10
    if ty = .b128 || ty = .e8m0 || bits f 6 5 != 0 || !bit f 7 || rank = 0 || 5 < rank || rank ≤ bits blk 2 0
        || bits blk 6 3 != 0 || (mx && !([Ty.e4m3, .e5m2, .e2m1, .i8].contains ty)) || recNat bs 3 1 != 0
        || (List.range 5).any (fun i => if i < rank then dims.getD i 0 == 0 else dims.getD i 0 != 0)
        || (!mx && sbase != 0) || recNat bs 0x2C 4 != 0
        || (List.range 5).any (fun i => rank ≤ i && strides.getD i 0 != 0)
        || ((ty = .t2 || ty = .e2m1) && strides.getD 0 0 != 0)
        || (List.range 5).any (fun i => (!mx || rank ≤ i) && ss.getD i 0 != 0) then none
    else some ⟨ty, rank, bits blk 2 0, mx, dims, recNat bs 0x18 10, sbase, strides, ss⟩

/-- In bounds (R240). -/
def Tensor.inside (t : Tensor) (i : List Nat) : Bool := (List.range t.rank).all (fun d => i.getD d 0 < t.dims.getD d 0)

/-- Byte address of an element, and the bit of the byte at which a packed element starts (R240). -/
def Tensor.addr (t : Tensor) (i : List Nat) : Nat × Nat :=
  let off : Int := ((List.range t.rank).drop 1).foldl (fun a d => a + (i.getD d 0 : Int) * t.strides.getD d 0) 0
  if t.ty.bits < 8 then
    let b := i.getD 0 0 * t.ty.bits
    (((t.base : Int) + off + (b / 8 : Nat)) % (2 ^ 80 : Int) |>.toNat, b % 8)
  else (((t.base : Int) + off + (i.getD 0 0 : Int) * t.strides.getD 0 0) % (2 ^ 80 : Int) |>.toNat, 0)

/-- Address of a scale, from a tensor index whose component on the block axis is already a block number (R240). -/
def Tensor.scaleAddr (t : Tensor) (j : List Nat) : Nat :=
  let off : Int := (List.range t.rank).foldl (fun a d => a + (j.getD d 0 : Int) * t.sstrides.getD d 0) 0
  (((t.sbase : Int) + off) % (2 ^ 80 : Int)).toNat

/-- Bytes that an element touches. -/
def Tensor.elemBytes (t : Tensor) : Nat := (t.ty.bits + 7) / 8

/-- The tensor index of element (r, k) of an order's tile (R246). -/
def OrderRec.index (o : OrderRec) (r k : Nat) : List Nat :=
  [o.coord.getD 0 0 + k, o.coord.getD 1 0 + r, o.coord.getD 2 0, o.coord.getD 3 0, o.coord.getD 4 0]

/-- An index with its component on the block axis replaced by its block number. -/
def blockIndex (i : List Nat) (axis : Nat) : List Nat := i.set axis (i.getD axis 0 / 32)

/-- The 128 bytes of an entry of a context's tensor table. -/
def State.tensorBytes (s : State) (ctx id : Nat) : List Byte :=
  (List.range 128).map (fun i => Tbl.get 0 s.e.tensors (ctx * 32768 + id * 128 + i))

/-! ### Reading and checking records (R229, R231) -/

/-- The record of a copy order. -/
def OrderRec.ofBytes (bs : List Byte) : OrderRec :=
  let sp := recNat bs 2 1
  { kind := recNat bs 0 1, tag := bits (recNat bs 1 1) 5 0, ssp := bits sp 1 0, dsp := bits sp 3 2, link := bit sp 4,
    op := bits (recNat bs 3 1) 2 0, rnd := bits (recNat bs 4 1) 2 0, tensor := recNat bs 5 1,
    unit := recNat bs 6 1, elsz := bits (recNat bs 7 1) 2 0, count := recNat bs 8 4, bobj := recNat bs 0x0C 4,
    src := recNat bs 0x10 10, dst := recNat bs 0x1C 10, coord := (List.range 5).map (fun i => recNat bs (0x28 + 4 * i) 4),
    next := recNat bs 0x3C 4 }

/-- Is a kind one of the tile kinds? -/
def OrderRec.tile (r : OrderRec) : Bool := r.kind = 4 || r.kind = 5 || r.kind = 6
def OrderRec.indexed (r : OrderRec) : Bool := r.kind = 2 || r.kind = 3

/-- A record that fails with code 0x01 by its own bytes (R229, R231); NEXT is reserved where LINK is 0 (log entry 120). -/
def badRecord (bs : List Byte) (r : OrderRec) : Bool :=
  let byte (i : Nat) := recNat bs i 1
  let linear := r.kind = 1 || r.indexed
  r.kind = 0 || 7 ≤ r.kind || bits (byte 1) 7 6 != 0 || bits (byte 2) 7 5 != 0
  || (if linear then r.ssp = 3 || r.dsp = 3 else bits (byte 2) 3 0 != 0)
  || (if r.kind = 6 then bits (byte 3) 7 3 != 0 || 6 ≤ r.op else byte 3 != 0)
  || (if r.kind = 5 then bits (byte 4) 7 3 != 0 || 4 ≤ r.rnd else byte 4 != 0)
  || (!r.tile && (r.tensor != 0 || r.unit != 0))
  || (r.kind = 4 && bits r.unit 7 5 != 0) || ((r.kind = 5 || r.kind = 6) && bits r.unit 7 4 != 0)
  || (if r.indexed then bits (byte 7) 7 3 != 0 || 5 ≤ r.elsz else byte 7 != 0)
  || (!linear && (r.count != 0 || r.src != 0 || r.dst != 0))
  || recNat bs 0x1A 2 != 0 || recNat bs 0x26 2 != 0
  || (if r.tile then false else if r.indexed then (r.coord.drop 1).any (fun x => x != 0) || r.coord.getD 0 0 % 4 != 0
      else r.coord.any (fun x => x != 0))
  || (if r.link then r.next % 64 != 0 else r.next != 0)
  || (linear && ((r.ssp = 2 && 2 ^ 32 ≤ r.src) || (r.dsp = 2 && 2 ^ 32 ≤ r.dst)))
  || (r.kind = 1 && r.ssp = r.dsp && overlaps r.src r.count r.dst r.count)

/-- Element size in bytes of a gather or scatter, and of what is moved at once: 16-byte elements move as two halves (R230). -/
def OrderRec.elem (r : OrderRec) : Nat := 2 ^ r.elsz
def OrderRec.part (r : OrderRec) : Nat := min 8 r.elem

/-- Entry i of an index list. -/
def Lot.orderIdx (l : Lot) (r : OrderRec) (i : Nat) : Nat := l.scratchNat (r.coord.getD 0 0 + 4 * i) 4

/-- Does a tile kind accept a tensor's format (R246, R247)? -/
def tensorFits (kind : Nat) (t : Tensor) : Bool :=
  match kind with
  | 4 => [Ty.i8, .e4m3, .e5m2, .e2m1, .t2, .bf16].contains t.ty && (!t.mx || t.baxis = 0)
  | 5 => [Ty.f32, .i32, .n32, .bf16, .f16].contains t.ty
      || ([Ty.e4m3, .e5m2, .e2m1, .i8].contains t.ty && t.mx && t.baxis ≤ 1)
  | _ => [Ty.f32, .i32, .n32, .bf16].contains t.ty

/-- The failure of a record at registration, if any, with its DETAIL: its own bytes, its resources, and its object (R231,
R236). An index list that runs past the share fails the record here, before any element moves (log entry 120). -/
def State.recordFault (s : State) (l : Lot) (bs : List Byte) (r : OrderRec) : Option (Nat × Nat) :=
  if badRecord bs r then some (0x01, 0)
  else if r.link && l.d.scr * 1024 < r.next + 64 then some (0x11, 0)
  else if r.tile then
    match tensorOf (s.tensorBytes l.ctx r.tensor) with
    | none => some (0x01, 0)
    | some t =>
      if !tensorFits r.kind t then some (0x01, 0)
      else if r.kind = 4 then (if l.slotOk r.unit then l.bobjFault r.bobj else some (0x21, 0))
      else if l.accOk r.unit then l.bobjFault r.bobj else some (0x21, 0)
  else if r.indexed && r.count != 0 && l.d.scr * 1024 < r.coord.getD 0 0 + 4 * r.count then some (0x11, 0)
  else l.bobjFault r.bobj

/-! ### Range locks (R197 to R201) -/

/-- A range to lock: space, destination or source, base and length. -/
structure Range where
  sp : Nat
  dst : Bool
  base : Nat
  len : Nat
deriving DecidableEq, Repr

/-- The smallest interval that holds the given pieces of n bytes. -/
def hull (sp : Nat) (dst : Bool) (as : List Nat) (n : Nat) : List Range :=
  match as with
  | [] => []
  | a :: rest =>
    let lo := rest.foldl min a
    [⟨sp, dst, lo, rest.foldl max a + n - lo⟩]

/-- In-bounds elements of a tile, by row and column. -/
def tileCells (r : OrderRec) (t : Tensor) (cols : Nat) : List (Nat × Nat) :=
  (List.range 64).flatMap (fun row => (List.range cols).filterMap (fun k =>
    if t.inside (r.index row k) then some (row, k) else none))

/-- Columns of an order's tile. -/
def tileCols (r : OrderRec) (t : Tensor) : Nat := if r.kind = 4 && t.ty = .bf16 then 32 else 64

/-- The space of a range by the frame of its first byte (R197). -/
def State.rangeSpace (s : State) (core ctx va : Nat) : Nat × State :=
  match s.translate core ctx va with
  | (.ok pa _ _ _, s) => (if region pa = 1 then 1 else 0, s)
  | (_, s) => (0, s)

/-- Ranges of a tile, global or vault by the frame of the first byte of each (log entry 108). -/
def State.spaced (s : State) (core ctx : Nat) (rs : List Range) : List Range × State :=
  rs.foldl (fun acc r =>
    let (sp, s) := acc.2.rangeSpace core ctx r.base
    (acc.1 ++ [{ r with sp := sp }], s)) ([], s)

/-- The ranges of an order (R197). The elements and the scales of a tile are a range each (log entry 108). -/
def State.rangesOf (s : State) (l : Lot) (core : Nat) (r : OrderRec) (bs : List Byte) : List Range × State :=
  match r.kind with
  | 1 => (if r.count = 0 then [] else [⟨r.ssp, false, r.src, r.count⟩, ⟨r.dsp, true, r.dst, r.count⟩], s)
  | 2 =>
    let n := r.elem
    (if r.count = 0 then [] else
      [⟨2, false, r.coord.getD 0 0, 4 * r.count⟩]
      ++ hull r.ssp false ((List.range r.count).map (fun i => r.src + l.orderIdx r i * n)) n
      ++ [⟨r.dsp, true, r.dst, r.count * n⟩], s)
  | 3 =>
    let n := r.elem
    (if r.count = 0 then [] else
      [⟨r.ssp, false, r.src, r.count * n⟩, ⟨2, false, r.coord.getD 0 0, 4 * r.count⟩]
      ++ hull r.dsp true ((List.range r.count).map (fun i => r.dst + l.orderIdx r i * n)) n, s)
  | _ =>
    match tensorOf bs with
    | none => ([], s)
    | some t =>
      let dst := r.kind != 4
      let cells := tileCells r t (tileCols r t)
      let elems := hull 0 dst (cells.map (fun c => (t.addr (r.index c.1 c.2)).1)) t.elemBytes
      let scales := if t.mx && r.kind != 6 then
          hull 0 dst (cells.map (fun c => t.scaleAddr (blockIndex (r.index c.1 c.2) t.baxis))) 1 else []
      s.spaced core l.ctx (elems ++ scales)

/-- Registers the ranges of an order at once; a vault range also keeps the PA of its base, for accesses by place. Dirty bytes of
a destination are written back (R196, R197, R199). -/
def State.lockRanges (s : State) (o : Order) (rs : List Range) : State :=
  rs.foldl (fun s r =>
    let (pa, s) := if r.sp = 1 then
        match s.translate o.core o.ctx r.base with
        | (.ok pa _ _ _, s) => (pa, s)
        | (_, s) => (0, s)
      else (0, s)
    let k := s.core o.core
    let x : Lock := ⟨o.ctx, o.bctx, r.sp, r.dst, o.r.tag, r.base, r.len, o.id, pa⟩
    (s.setCore o.core { k with locks := k.locks ++ [x] }).cleanRange o.core x) s

/-- Does an earlier entry conflict with one of a new order (R199)? Both are compared on VA, or on scratchpad offset and lot
(R197). -/
def Lock.conflicts (x y : Lock) : Bool :=
  x.ctx == y.ctx && (x.sp == 2) == (y.sp == 2) && (x.sp != 2 || x.bctx == y.bctx) && overlaps x.base x.len y.base y.len && (x.dst || y.dst)

/-- Does an entry registered earlier hold an order back (R199)? -/
def State.lockHeld (s : State) (o : Order) : Bool :=
  let ls := (s.core o.core).locks
  let mine := ls.filter (fun x => x.order == o.id)
  let earlier := ls.takeWhile (fun x => x.order != o.id)
  earlier.any (fun x => mine.any (fun y => x.conflicts y))

/-! ### Kicks (R195, R233) -/

/-- Agents of a home warp, or the barker. -/
def Lot.crew (l : Lot) (w : Nat) : List Agent := if w = 32 then [Agent.barker] else l.warpAgents w

/-- What a kick waits for: the writes that its warp has made or observed, which it releases to the engine, and the acquires of
its lanes that are still under way (R184, R195). -/
def State.kickAfter (s : State) (c b : Nat) (l : Lot) (w : Nat) : List Nat :=
  ((l.crew w).flatMap (fun a => s.pendingOf c b a)).eraseDups
  ++ (s.fences.filter (fun f => f.t.core == c && f.t.bctx == b && f.t.w == w && f.kind != .rel)).map (fun f => f.id)

/-- Enters a kick in its lot's queue and counts it in CP. An entry beyond the 64th stands for a kick that stays
outstanding until one frees (R233). -/
def State.enterKick (s : State) (v : View) (a : Agent) (kind : KickKind) (off first count : Nat) : State :=
  let c := v.i.core
  let b := v.i.bctx
  let (id, s) := s.fresh
  let k : Kick := ⟨id, kind, off, first, count, a, v.i.hdr, 1, s.kickAfter c b v.l a.w, v.warps⟩
  let s := s.onLot c b (fun l => { l with kicks := l.kicks ++ [k] })
  v.warps.foldl (fun s w => s.onWarp c b w (fun x => x.bump 2)) s

/-- KICK, TLOAD and TQR: the offset of a 64-byte record in the share (R233, R264). -/
def State.kickRecord (s : State) (p : BitVec 3) (r : BitVec 7) (kind : KickKind) : Out :=
  s.scalarOp [use1 r] p (fun v a s =>
    let off := v.l.val a r 32
    if off % 64 != 0 then s.raiseD [a] 0x10 1 off
    else if v.l.d.scr * 1024 < off + 64 then s.raise [a] 0x11 off
    else s.enterKick v a kind off 0 0)

/-- KICK (R233, R390). -/
def execKick (p : BitVec 3) (a : BitVec 7) (s : State) : Out := s.kickRecord p a .order

/-- TLOAD (R264, R442). -/
def execTload (p : BitVec 3) (a : BitVec 7) (s : State) : Out := s.kickRecord p a .tload

/-- TQR (R264, R266, R442). -/
def execTqr (p : BitVec 3) (a : BitVec 7) (s : State) : Out := s.kickRecord p a .tqr

/-- TBIND (R241, R439). -/
def execTbind (p : BitVec 3) (b a : BitVec 7) (s : State) : Out :=
  s.scalarOp [use1 b, use2 a] p (fun v t s =>
    let x := v.l.val t b 32
    let first := bits x 7 0
    let count := bits x 15 8
    let va := v.l.addr t a .g 0
    if count = 0 then s
    else if 256 < first + count then s.raise [t] 0x01 0
    else if va % 128 != 0 then s.raiseD [t] 0x10 1 va
    else s.enterKick v t .tbind va first count)

/-! ### Tag instructions (R237, R440, R441) -/

def State.tagWait (s : State) (p : BitVec 3) (r : BitVec 7) (all : Bool) : Out :=
  s.instr true true [use2 r] p (fun v s =>
    let mask (a : Agent) : Word64 := BitVec.ofNat 64 (v.l.val a r 64)
    let parks := (v.parts.filter (fun a => mask a != 0 && !tagMet v.l.tags all (mask a))).map (fun a => (a, Park.tag all (mask a)))
    if parks.isEmpty then s else s.parkAll parks)

/-- TWAITANY. -/
def execTwaitany (p : BitVec 3) (a : BitVec 7) (s : State) : Out := s.tagWait p a false

/-- TWAITALL. -/
def execTwaitall (p : BitVec 3) (a : BitVec 7) (s : State) : Out := s.tagWait p a true

/-- TFFR. -/
def execTffr (p : BitVec 3) (d a : BitVec 7) (s : State) : Out :=
  s.each true [use1 d, use2 a] p (fun l t => l.setVal t d 32 false (lowestSet (l.tags.toNat &&& l.val t a 64) 64))

/-- TCLR (R238): its clear is applied at its issue (log entry 119). -/
def execTclr (p : BitVec 3) (a : BitVec 7) (s : State) : Out :=
  s.each true [use2 a] p (fun l t => { l with tags := l.tags &&& ~~~(BitVec.ofNat 64 (l.val t a 64)) })

/-! ### The request engine (R199, R200, R231 to R233) -/

/-- The bytes of a record in the share. -/
def Lot.recBytes (l : Lot) (off : Nat) : List Byte := (List.range 64).map (fun i => Tbl.get (0 : Byte) l.scratch (off + i))

/-- Is something that a kick waits for still under way? -/
def State.kickWaits (s : State) (c b : Nat) (k : Kick) : Bool :=
  k.after.any (fun i => s.unperformed c b i || s.fences.any (fun f => f.id == i))

/-- The head of a lot's kick queue, once what it releases is performed and no order of the lot waits on a lock (R195,
R199). -/
def State.kickHead (s : State) (c b : Nat) : Option (Lot × Kick) :=
  match s.lot? c b with
  | none => none
  | some l =>
    match l.kicks with
    | [] => none
    | k :: _ =>
      if s.kickWaits c b k then none
      else if s.e.orders.any (fun o => o.core == c && o.bctx == b && !o.started && s.lockHeld o) then none
      else some (l, k)

/-- Ranges that the head record would register, at most; none for TBIND. -/
def State.kickRanges (s : State) (c : Nat) (l : Lot) (k : Kick) : Nat :=
  match k.kind with
  | .order =>
    let bs := l.recBytes k.off
    let r := OrderRec.ofBytes bs
    if (s.recordFault l bs r).isSome then 0
    else (s.rangesOf l c r (s.tensorBytes l.ctx r.tensor)).1.length
  | .tload => 1
  | .tqr => 2
  | .tbind => 0

/-- The lot whose kick the engine takes next: round-robin, and not one whose record finds no room in the lock table
(R200, R233). -/
def State.nextKick (s : State) (c : Nat) : Option (Nat × Lot × Kick) :=
  (List.range 4).findSome? (fun n =>
    let b := ((s.core c).kickRR + n) % 4
    (s.kickHead c b).bind (fun e =>
      if (s.core c).locks.length + s.kickRanges c e.1 e.2 ≤ 32 then some (b, e.1, e.2) else none))

/-- The rotation moves past a lot that was served. -/
def State.served' (s : State) (c b : Nat) : State := s.setCore c { s.core c with kickRR := (b + 1) % 4 }

/-- The head kick is done: CP falls for the warps that counted it (R85, R232). -/
def State.kickDone (s : State) (c b : Nat) (k : Kick) : State :=
  let s := s.onLot c b (fun l => { l with kicks := l.kicks.tail })
  (k.warps.foldl (fun s w => s.countDown c b w 2) s).recheck c

/-- The head kick goes on with the next record of its chain (R232). -/
def State.kickNext (s : State) (c b : Nat) (k : Kick) (next : Nat) : State :=
  s.onLot c b (fun l => { l with kicks := { k with off := next, chain := k.chain + 1, after := [] } :: l.kicks.tail })

/-- An order of a kick, before it is registered. -/
def Kick.order (k : Kick) (id c b ctx : Nat) (kind : OrderKind) (r : OrderRec) (tensor : List Byte) : Order :=
  ⟨id, c, b, ctx, kind, r, tensor, k.agent, false, 0, [], [], 0, k.hdr⟩

/-- The kind of an order's data movement. -/
def orderKindOf (kind : Nat) : OrderKind :=
  match kind with
  | 2 => .gather
  | 3 => .scatter
  | 4 => .tileld
  | 5 => .accst
  | 6 => .tred
  | _ => .copy

/-- A tile order takes its place in the tile order of its lot (R251). -/
def State.enterTileOrder (s : State) (o : Order) (k : TileKind) : Nat × State :=
  let (id, s) := s.fresh
  (id, { s with e := { s.e with tileOps := s.e.tileOps ++ [⟨id, id, o.core, o.bctx, o.agent, o.hdr, k, .waiting, []⟩] } })

/-- Registers a checked order: its ranges, its place in tile order, and the order itself; an order that moves nothing ends
at once (R197, R230, R251). -/
def State.register (s : State) (l : Lot) (o : Order) : State :=
  let (rs, s) := s.rangesOf l o.core o.r o.tensor
  let s := s.lockRanges o rs
  let (op, s) := match o.kind with
    | .tileld => s.enterTileOrder o (.load o.r.unit o.id)
    | .accst | .tred => s.enterTileOrder o (.store o.r.unit o.id)
    | _ => (0, s)
  let o := { o with tileOp := op }
  if !o.r.tile && o.r.count = 0 then s.endOrder o
  else { s with e := { s.e with orders := s.e.orders ++ [o] } }

/-- The engine reads one record of a copy order and registers it or fails it (R231, R232). ADDR of a failure with 0x10 or 0x11 is
BOBJ, whatever offset of the record is at fault (log entry 120). -/
def State.readRecord (s : State) (c b : Nat) (l : Lot) (k : Kick) : State :=
  let bs := l.recBytes k.off
  let r := OrderRec.ofBytes bs
  let (id, s) := s.fresh
  let o := k.order id c b l.ctx (orderKindOf r.kind) r (s.tensorBytes l.ctx r.tensor)
  let s := s.served' c b
  match (if 256 < k.chain then some (0x01, 0) else s.recordFault l bs r) with
  | some (e, detail) => (s.failOrder o e detail (if e = 0x10 || e = 0x11 then r.bobj else 0)).kickDone c b k
  | none =>
    let s := s.register l o
    if r.link then s.kickNext c b k r.next else s.kickDone c b k

/-- An event of the request engine for records of some kinds. -/
def State.engineTakes (s : State) (c : Nat) (sel : Nat → Bool) : Out :=
  match s.nextKick c with
  | none => .next s
  | some (b, l, k) =>
    if k.kind = .order && sel (recNat (l.recBytes k.off) 0 1) then .next (s.readRecord c b l k) else .next s

/-- ORDER_COPY: a record of KIND 1, or of no kind, which fails (R230, R231). -/
def execOrderCopy (core : Nat) (s : State) : Out := s.engineTakes core (fun k => k < 2 || 6 < k)

/-- ORDER_GATHER (R230). -/
def execOrderGather (core : Nat) (s : State) : Out := s.engineTakes core (fun k => k = 2)

/-- ORDER_SCATTER (R230). -/
def execOrderScatter (core : Nat) (s : State) : Out := s.engineTakes core (fun k => k = 3)

/-- ORDER_TILELD (R246). -/
def execOrderTileld (core : Nat) (s : State) : Out := s.engineTakes core (fun k => k = 4)

/-- ORDER_ACCST (R247). -/
def execOrderAccst (core : Nat) (s : State) : Out := s.engineTakes core (fun k => k = 5)

/-- ORDER_TRED (R247). -/
def execOrderTred (core : Nat) (s : State) : Out := s.engineTakes core (fun k => k = 6)

/-! ### Table commands (R262 to R266) -/

/-- Bytes of an image and of a result row. -/
def imageBytes (shape : Nat) : Nat := if shape = 1 then 512 else if shape = 2 then 4096 else 256
def resBytes (shape : Nat) : Nat := if shape = 1 then 2048 else 1024

/-- A command record as an order record: SRC and DST are the addresses that it names; ELSZ holds the shape of a TQR's table. -/
def cmdRec (tag count bobj src dst : Nat) : OrderRec :=
  { kind := 0, tag := tag, ssp := 0, dsp := 0, link := false, op := 0, rnd := 0, tensor := 0, unit := 0, elsz := 0,
    count := count, bobj := bobj, src := src, dst := dst, coord := [], next := 0 }

/-- Checks common to command records; then the ranges and the order. -/
def State.registerCmd (s : State) (c b : Nat) (l : Lot) (k : Kick) (kind : OrderKind) (r : OrderRec) (fault : Option Nat)
    (ranges : List Range) : State :=
  let (id, s) := s.fresh
  let o := k.order id c b l.ctx kind r []
  let s := s.served' c b
  match (match fault with
    | some e => some (e, 0)
    | none => l.bobjFault r.bobj) with
  | some (e, detail) => (s.failOrder o e detail (if e = 0x10 || e = 0x11 then r.bobj else 0)).kickDone c b k
  | none =>
    let s := s.lockRanges o ranges
    ({ s with e := { s.e with orders := s.e.orders ++ [o] } }).kickDone c b k

/-- TLOAD_COMMAND: the engine reads a TLOAD record (R264). -/
def execTloadCommand (core : Nat) (s : State) : Out :=
  match s.nextKick core with
  | some (b, l, k) =>
    if k.kind != .tload then .next s
    else
      let bs := l.recBytes k.off
      let table := recNat bs 0 1
      let tag := recNat bs 1 1
      let shape := recNat bs 2 1
      let src := recNat bs 8 10
      let bad := 64 ≤ table || 64 ≤ tag || 3 ≤ shape || recNat bs 3 1 != 0 || recNat bs 0x12 46 != 0 || src % 64 != 0
      let fault : Option Nat := if bad then some 0x01 else if (s.pbSet l.ctx).isNone then some 0x30 else none
      let (sp, s) := s.rangeSpace core l.ctx src
      .next (s.registerCmd core b l k (.tload (table % 64) shape) (cmdRec (tag % 64) 0 (recNat bs 4 4) src 0) fault
        [⟨sp, false, src, imageBytes shape⟩])
  | none => .next s

/-- TQR_COMMAND: the engine reads a TQR record (R266). -/
def execTqrCommand (core : Nat) (s : State) : Out :=
  match s.nextKick core with
  | some (b, l, k) =>
    if k.kind != .tqr then .next s
    else
      let bs := l.recBytes k.off
      let table := recNat bs 0 1
      let tag := recNat bs 1 1
      let count := recNat bs 2 2
      let idx := recNat bs 8 10
      let res := recNat bs 0x18 10
      let shape := match s.pbSet l.ctx with
        | some n => s.boardShape n (table % 64)
        | none => 0
      let bad := 64 ≤ table || 64 ≤ tag || 64 < count || recNat bs 0x12 6 != 0 || recNat bs 0x22 30 != 0 || idx % 1024 != 0
        || shape = 2 || res % resBytes shape != 0
      let fault : Option Nat := if bad then some 0x01 else if (s.pbSet l.ctx).isNone then some 0x30 else none
      let (sp, s) := s.rangeSpace core l.ctx res
      let rs : List Range := if count = 0 then [] else
        [⟨0, false, idx, 1024 * count⟩, ⟨sp, true, res, resBytes shape * count⟩]
      let r : OrderRec := { cmdRec (tag % 64) count (recNat bs 4 4) idx res with elsz := shape }
      .next (s.registerCmd core b l k (.tqr (table % 64)) r fault rs)
  | none => .next s

/-- TBIND_COMMAND: the engine reads, checks and writes one entry of a TBIND (R241). -/
def execTbindCommand (core : Nat) (s : State) : Out :=
  match s.nextKick core with
  | some (b, l, k) =>
    if k.kind != .tbind then .next s
    else match s.engRead core l.ctx k.id k.off 128 none with
    | (.wait, s) => .next s
    | (.bad code detail, s) =>
      .next ((((s.served' core b).engDone k.id).engRec core b k.agent k.hdr code detail k.off 3).kickDone core b k)
    | (.ok v, s) =>
      let s := (s.served' core b).engDone k.id
      let bs := toBytes v 128
      let valid := bit (recNat bs 0 1) 7
      if valid && (tensorOf bs).isNone then
        .next ((s.engRec core b k.agent k.hdr 0x01 0 k.off 3).kickDone core b k)
      else
        let put := if valid then bs else List.replicate 128 0
        let tensors := Tbl.putRange 0 s.e.tensors (l.ctx * 32768 + k.first * 128) 128 (fun i => put.getD i 0)
        let s := { s with e := { s.e with tensors := tensors } }
        if k.count ≤ 1 then .next (s.kickDone core b k)
        else
          let k' : Kick := { k with off := (k.off + 128) % 2 ^ 80, first := k.first + 1, count := k.count - 1 }
          .next (s.onLot core b (fun l => { l with kicks := k' :: l.kicks.tail }))
  | none => .next s

/-! ### Orders in progress -/

/-- The write-back of an order's destination that still waits for its banks goes on; is it done (R196)? -/
def State.readyRanges (s : State) (o : Order) : Bool × State :=
  let mine := (s.core o.core).locks.filter (fun x => x.order == o.id)
  (mine.all (fun x => s.rangeClean o.core x), mine.foldl (fun s x => s.cleanRange o.core x) s)

/-- ORDER_START (R196, R199, R251): no earlier lock conflicts, the dirty bytes of its destination are written back, and a tile
order's operation may start. -/
def execOrderStart (order : Nat) (s : State) : Out :=
  match s.order? order with
  | none => .next s
  | some o =>
    if o.started || s.lockHeld o then .next s
    else match s.readyRanges o with
    | (false, s) => .next s
    | (true, s) => match s.tileOp? o.tileOp with
      | none => .next (s.setOrder { o with started := true })
      | some t =>
        if s.tileFree t then .next ((s.setTileOp { t with phase := .started }).setOrder { o with started := true }) else .next s

/-- The space of a record's SSP or DSP code. -/
def spOf (sp : Nat) : Option Space := if sp = 1 then some .v else some .g

/-- Reads n bytes of an order's side: a scratchpad offset or a VA; pieces of more than one line are read line by line. -/
def State.sideRead (s : State) (o : Order) (sp : Nat) (space : Option Space) (va n : Nat) : EngRes × State :=
  if sp = 2 then
    match s.lot? o.core o.bctx with
    | none => (.bad 0x11 0, s)
    | some l => if l.d.scr * 1024 < va + n then (.bad 0x11 0, s) else (.ok (l.scratchNat va n), s)
  else
    let m := min n (128 - va % 128)
    match s.engRead o.core o.ctx o.id (va % 2 ^ 80) m space with
    | (.ok v, s) =>
      if m = n then (.ok v, s)
      else match s.engRead o.core o.ctx o.id ((va + m) % 2 ^ 80) (n - m) space with
      | (.ok w, s) => (.ok (v + w * 2 ^ (8 * m)), s)
      | r => r
    | r => r

/-- Writes n bytes of an order's side. -/
def State.sideWrite (s : State) (o : Order) (sp : Nat) (space : Option Space) (va n v : Nat) : EngRes × State :=
  if sp = 2 then
    match s.lot? o.core o.bctx with
    | none => (.bad 0x11 0, s)
    | some l =>
      if l.d.scr * 1024 < va + n then (.bad 0x11 0, s) else (.ok 0, s.setLot o.core o.bctx (l.engScratch va (toBytes v n)))
  else s.engWrite o.core o.ctx o.id va n v space

/-- Progress of an order: `n` bytes arrive, and the order ends when `pos` reaches its total. -/
def State.advance (s : State) (o : Order) (pos total n : Nat) : State :=
  let o := { o with pos := pos }
  let s := ((s.setOrder o).engDone o.id).arrive o n (n / 128 + 1)
  if total ≤ pos then s.endOrder o else s

/-- One move of bytes from a source to a destination: n bytes, after which `pos` is the progress. -/
def State.moveBytes (s : State) (o : Order) (src dst n pos total : Nat) : State :=
  match s.sideRead o o.r.ssp (spOf o.r.ssp) src n with
  | (.wait, s) => s
  | (.bad code detail, s) => s.failOrder o code detail src
  | (.ok v, s) =>
    match s.sideWrite o o.r.dsp (spOf o.r.dsp) dst n v with
    | (.wait, s) => s
    | (.bad code detail, s) => s.failOrder o code detail dst
    | (.ok _, s) => s.advance o pos total n

/-! ### Tiles of orders (R246, R247) -/

/-- One element of a tensor as raw bits, with its address; an element out of bounds reads as zero (R246). -/
def State.tensorRead (s : State) (o : Order) (t : Tensor) (i : List Nat) : (EngRes × Nat) × State :=
  if !t.inside i then ((.ok 0, 0), s)
  else
    let (a, b) := t.addr i
    match s.sideRead o 0 none a t.elemBytes with
    | (.ok v, s) => ((.ok (bits v (b + t.ty.bits - 1) b), a), s)
    | (r, s) => ((r, a), s)

/-- One element of a tensor written, with its address; a packed element changes its own bits of the byte only. -/
def State.tensorWrite (s : State) (o : Order) (t : Tensor) (i : List Nat) (v : Nat) : (EngRes × Nat) × State :=
  if !t.inside i then ((.ok 0, 0), s)
  else
    let (a, b) := t.addr i
    if t.ty.bits < 8 then
      match s.sideRead o 0 none a 1 with
      | (.ok old, s) =>
        let (r, s) := s.sideWrite o 0 none a 1 (setBits old (b + t.ty.bits - 1) b v)
        ((r, a), s)
      | (r, s) => ((r, a), s)
    else
      let (r, s) := s.sideWrite o 0 none a t.elemBytes v
      ((r, a), s)

/-- A scale code of TILELD, with its address: 0x7F without MX or where the scale index is out of bounds (R246). -/
def State.scaleRead (s : State) (o : Order) (t : Tensor) (row blk : Nat) : (EngRes × Nat) × State :=
  let i := o.r.index row (32 * blk)
  if !t.mx || !t.inside (i.set 0 (i.getD 0 0 / 32 * 32)) then ((.ok 0x7F, 0), s)
  else
    let a := t.scaleAddr (blockIndex i 0)
    let (r, s) := s.sideRead o 0 none a 1
    ((r, a), s)

/-- Bytes that have arrived after a number of a tile's elements: those whose every element is done, and at the last element the
arrival total (R230, R235). -/
def bytesFor (total elems bitsEach : Nat) : Nat := if total ≤ elems then (elems * bitsEach + 7) / 8 else elems * bitsEach / 8

/-- The item of a tile's row at a step: its scales first, as items 64 to 127, and then its elements, so that the last bytes that an
order counts are the last that it performs (R196, R235). -/
def tileItem (pos : Nat) : Nat := (pos + 64) % 128

/-- An item of a tile order is done: one of 128 for each of 64 rows; n bytes have arrived. -/
def State.itemDone (s : State) (o : Order) (n : Nat) : State := s.advance o (o.pos + 1) (64 * 128) n

/-- One item of a TILELD: element k of a row, or scale k - 64 (R246). -/
def State.loadItem (s : State) (o : Order) (t : Tensor) (f : TileFmt) (row k : Nat) : State :=
  if k < f.cols then
    match s.tensorRead o t (o.r.index row k) with
    | ((.wait, _), s) => s
    | ((.bad code detail, addr), s) => s.failOrder o code detail addr
    | ((.ok v, _), s) =>
      let n := row * f.cols + k
      (s.onLot o.core o.bctx (fun l => l.setSlotRow o.r.unit f row ((l.slotRow o.r.unit f row).set k v))).itemDone o
        (bytesFor (64 * f.cols) (n + 1) t.ty.bits - bytesFor (64 * f.cols) n t.ty.bits)
  else if k = 64 || k = 65 then
    match s.scaleRead o t row (k - 64) with
    | ((.wait, _), s) => s
    | ((.bad code detail, addr), s) => s.failOrder o code detail addr
    | ((.ok v, _), s) => (s.onLot o.core o.bctx (fun l => l.setSlotScale o.r.unit row (k - 64) v)).itemDone o 0
  else s.itemDone o 0

/-- The elements of a tile that share the scale of element (row, k): those whose tensor indices lie in one block of 32 along the
block axis (R240, R247; log entry 56). -/
def blockCells (o : OrderRec) (t : Tensor) (row k : Nat) : List (Nat × Nat) :=
  let at' (n : Nat) : Nat := (o.coord.getD t.baxis 0 + n) / 32
  if t.baxis = 0 then ((List.range 64).filter (fun n => at' n == at' k)).map (fun n => (row, n))
  else ((List.range 64).filter (fun n => at' n == at' row)).map (fun n => (n, k))

/-- The block of an element along the block axis: the in-bounds values of the accumulator (R247). -/
def Lot.accBlock (l : Lot) (o : OrderRec) (t : Tensor) (row k : Nat) : List FVal :=
  let int := l.accIsInt o.unit
  (blockCells o t row k).filterMap (fun c =>
    if t.inside (o.index c.1 c.2) then some (accReal int (l.accAt o.unit c.1 c.2).toNat) else none)

/-- The value that ACCST writes for an element, with its flags (R247). -/
def Lot.storeVal (l : Lot) (o : OrderRec) (t : Tensor) (row k : Nat) : Nat × Nat :=
  let int := l.accIsInt o.unit
  let x := (l.accAt o.unit row k).toNat
  if t.mx then quantElem t.ty o.rnd (scaleCode t.ty (l.accBlock o t row k)) (accReal int x)
  else if (t.ty = .f32 && !int) || ((t.ty = .i32 || t.ty = .n32) && int) then (x, 0)
  else cvtVal t.ty (if int then .i32 else .f32) o.rnd 0 x

/-- Is an element the first of its block in the tile, and in bounds? Its scale is written with it (R247). -/
def scaleHere (o : OrderRec) (t : Tensor) (row k : Nat) : Bool :=
  t.mx && (blockCells o t row k).head? == some (row, k) && t.inside (o.index row k)

/-- In-bounds elements of rows below a row. -/
def cellsBelow (o : OrderRec) (t : Tensor) (row : Nat) : Nat :=
  ((List.range row).map (fun r => ((List.range 64).filter (fun k => t.inside (o.index r k))).length)).sum

/-- In-bounds elements of a tile before element (row, k). -/
def cellsBefore (o : OrderRec) (t : Tensor) (row k : Nat) : Nat :=
  cellsBelow o t row + ((List.range k).filter (fun j => t.inside (o.index row j))).length

/-- One item of an ACCST: element k of a row, whose flags stand from its quantising on, or the scale of element k - 64 (R115,
R247). -/
def State.storeItem (s : State) (o : Order) (l : Lot) (t : Tensor) (row k : Nat) : State :=
  if k < 64 then
    if !t.inside (o.r.index row k) then s.itemDone o 0
    else
      let (v, fl) := l.storeVal o.r t row k
      let s := s.onLot o.core o.bctx (fun l => l.orFlags o.agent.w fl)
      match s.tensorWrite o t (o.r.index row k) v with
      | ((.wait, _), s) => s
      | ((.bad code detail, addr), s) => s.failOrder o code detail addr
      | ((.ok _, _), s) =>
        let n := cellsBefore o.r t row k
        let total := cellsBelow o.r t 64
        s.itemDone o (bytesFor total (n + 1) t.ty.bits - bytesFor total n t.ty.bits)
  else if !scaleHere o.r t row (k - 64) then s.itemDone o 0
  else
    let a := t.scaleAddr (blockIndex (o.r.index row (k - 64)) t.baxis)
    match s.sideWrite o 0 none a 1 (scaleCode t.ty (l.accBlock o.r t row (k - 64))) with
    | (.wait, s) => s
    | (.bad code detail, s) => s.failOrder o code detail a
    | (.ok _, s) => s.itemDone o 0

/-- The operation of a TRED (R229). -/
def tredOp (op : Nat) : AtomOp :=
  match op with
  | 0 => .add
  | 1 => .min
  | 2 => .max
  | 3 => .and
  | 4 => .or
  | _ => .xor

/-- One element of a TRED: a read-modify-write at the home. The conversion to an integer type sets the flags of `CVT`; F32 and
BF16 reductions set none (R103, R109, R214, R247). -/
def State.reduceElem (s : State) (o : Order) (l : Lot) (t : Tensor) (n : Nat) : State :=
  let row := n / 64
  let k := n % 64
  let i := o.r.index row k
  if !t.inside i then s.advance o (n + 1) 4096 0
  else
    let (va, _) := t.addr i
    let int := l.accIsInt o.r.unit
    let x := (l.accAt o.r.unit row k).toNat
    let whole := t.ty = .i32 || t.ty = .n32
    let (v, fl) := if (t.ty = .f32 && !int) || (whole && int) then (x, 0)
      else cvtVal t.ty (if int then .i32 else .f32) 0 0 x
    match s.engPieces o.core o.ctx o.id va t.elemBytes none with
    | ((.wait, _), s) => s
    | ((.bad code detail, _), s) => s.failOrder o code detail va
    | ((.ok _, ps), s) =>
      if ps.any (fun p => region p.pa == 2 && !attrSYSA p.attr) then s.failOrder o 0x12 0 va
      else
        let s := if whole then s.onLot o.core o.bctx (fun l => l.orFlags o.agent.w fl) else s
        let lost := s.piecesLost o.id ps
        let s := s.takePieces o.core o.id ps
        let (old, s) := s.readPieces ps
        let s := match atomNew (tredOp o.r.op) t.ty old v 0 with
          | some w => s.writePieces ps w
          | none => s
        if lost then s.failOrder o 0x31 0 va else s.advance o (n + 1) 4096 t.elemBytes

/-! ### ORDER_BYTES_PERFORMED (R230, R235) -/

/-- The next bytes of an order. -/
def State.orderStep (s : State) (o : Order) (l : Lot) : State :=
  let r := o.r
  match o.kind with
  | .copy =>
    let n := min (min (128 - (r.src + o.pos) % 128) (128 - (r.dst + o.pos) % 128)) (r.count - o.pos)
    s.moveBytes o (r.src + o.pos) (r.dst + o.pos) n (o.pos + n) r.count
  | .gather =>
    let halves := r.elem / r.part
    let at' := o.pos % halves * r.part
    s.moveBytes o (r.src + l.orderIdx r (o.pos / halves) * r.elem + at') (r.dst + o.pos * r.part) r.part (o.pos + 1) (r.count * halves)
  | .scatter =>
    let halves := r.elem / r.part
    let at' := o.pos % halves * r.part
    s.moveBytes o (r.src + o.pos * r.part) (r.dst + l.orderIdx r (o.pos / halves) * r.elem + at') r.part (o.pos + 1) (r.count * halves)
  | .tileld =>
    match tensorOf o.tensor with
    | none => s.failOrder o 0x01 0 0
    | some t => s.loadItem o t ((TileFmt.ofTy t.ty).getD .i8) (o.pos / 128) (tileItem o.pos)
  | .accst =>
    match tensorOf o.tensor with
    | none => s.failOrder o 0x01 0 0
    | some t => s.storeItem o l t (o.pos / 128) (tileItem o.pos)
  | .tred =>
    match tensorOf o.tensor with
    | none => s.failOrder o 0x01 0 0
    | some t => s.reduceElem o l t o.pos
  | .tload _ shape =>
    -- the image is read once, line by line; then the stacks are asked (R264)
    let total := imageBytes shape
    if total ≤ o.pos then s
    else
      let n := min (128 - (r.src + o.pos) % 128) (total - o.pos)
      match s.sideRead o 0 none (r.src + o.pos) n with
      | (.wait, s) => s
      | (.bad code detail, s) => s.failOrder o code detail (r.src + o.pos)
      | (.ok v, s) =>
        let o := { o with pos := o.pos + n, image := o.image ++ toBytes v n }
        (s.engDone o.id).setOrder (if total ≤ o.pos then { o with stackSet := List.range 32 } else o)
  | .tqr _ =>
    -- the data of the row that its stack has looked up, a row segment at a time (R266, R277)
    let total := resBytes r.elsz * r.count
    if total ≤ o.pos then s.endOrder o
    else if o.image.isEmpty then s
    else match s.engSegment o.core o.ctx o.id (r.dst + o.pos) (ofBytes (o.image.take 1024)) none with
    | (.wait, s) => s
    | (.bad code detail, s) => s.failOrder o code detail (r.dst + o.pos)
    | (.ok _, s) => s.advance { o with image := o.image.drop 1024 } (o.pos + 1024) total 1024

/-- ORDER_BYTES_PERFORMED. -/
def execOrderBytesPerformed (order : Nat) (s : State) : Out :=
  match s.order? order with
  | none => .next s
  | some o =>
    if !o.started then .next s
    else match s.lot? o.core o.bctx with
    | none => .next (s.dropOrder o)
    | some l => .next (s.orderStep o l)

/-- The table that an image holds (R263). -/
def tableOf (shape : Nat) (image : List Byte) : PbTable :=
  let w := if shape = 1 then 2 else 1
  ⟨shape, Tbl.putRange 0 [] 0 (if shape = 2 then 4096 else 256) (fun i => BitVec.ofNat 16 (ofBytes ((image.drop (i * w)).take w)))⟩

/-- A stack writes every replica of a table (R264). -/
def State.setBoard (s : State) (n table stack : Nat) (t : PbTable) : State :=
  { s with e := { s.e with boards := Tbl.put PbTable.none s.e.boards (boardPlace n table stack) t } }

/-- PBLOAD (R264): a stack writes every replica of the table and acknowledges; with the last acknowledgement the bytes arrive. A
stack whose path is down fails the order, and the stacks that have written keep the image (R231, R306). -/
def execPbload (order stack : Nat) (s : State) : Out :=
  match s.order? order with
  | none => .next s
  | some o =>
    match o.kind with
    | .tload table shape =>
      if !o.stackSet.contains stack || s.stackHeld stack then .next s
      else match s.stackWay (.acc o.id) (dieOf o.core) stack with
      | .wait => .next (s.stackAsk (.acc o.id) (dieOf o.core) stack (imageBytes shape))
      | .bad code detail => .next (s.failOrder o code detail 0)
      | .ok _ =>
        match s.pbSet o.ctx with
        | none => .next (s.failOrder o 0x30 0 0)
        | some n =>
          let o : Order := { o with stackSet := o.stackSet.filter (fun x => x != stack) }
          let s := s.setBoard n table stack (tableOf shape o.image)
          .next (if o.stackSet.isEmpty then s.advance o o.pos o.pos (imageBytes shape) else s.setOrder o)
    | _ => .next s

/-- The data that a row of index bytes looks up in a stack's table (R266). -/
def State.rowData (s : State) (n table stack w : Nat) (js : List Byte) : List Byte × State :=
  js.foldl (fun acc j =>
    let (v, s) := acc.2.query n table stack j.toNat
    (acc.1 ++ toBytes v w, s)) ([], s)

/-- TROWQ (R266): the stack of an index row looks up one row of a TQR, after the issuing die has written its dirty bytes of the
row back, which the TQR releases (R195). -/
def execTrowq (order : Nat) (s : State) : Out :=
  match s.order? order with
  | none => .next s
  | some o =>
    match o.kind with
    | .tqr table =>
      let rb := resBytes o.r.elsz
      if !o.started || rb * o.r.count ≤ o.pos || !o.image.isEmpty then .next s
      else match s.pbSet o.ctx with
      | none => .next (s.failOrder o 0x30 0 0)
      | some n =>
        if Tbl.get false s.m.poison (boardKey n table) then .next (s.failOrder o 0x30 0 0) else
        let idx := (o.r.src + 1024 * (o.pos / rb)) % 2 ^ 80
        let res := (o.r.dst + o.pos) % 2 ^ 80
        match s.engWalk o.core o.ctx o.id idx with
        | (.wait, s) => .next s
        | (.bad code detail, s) => .next (s.failOrder o code detail idx)
        | (.ok _, s) => match s.engCheck o.core o.ctx idx false none with
        | (.bad code detail, s) => .next (s.failOrder o code detail idx)
        | (.ok pa attr _ _, s) =>
          if region pa != 0 || attrELID attr || s.frameClass (bits pa 40 0) != .aliased then .next (s.failOrder o 0x12 0 idx)
          else if s.stackHeld (stackOf (bits pa 40 0)) then .next s
          else match s.way (.acc o.id) (dieOf o.core) pa true with
          | .wait => .next (s.wayWait (.acc o.id) (dieOf o.core) pa 0 0)
          | .bad code detail => .next (s.failOrder o code detail idx)
          | .ok _ =>
            if (List.range 8).any (fun i => s.poisoned (pa + 128 * i)) then .next (s.failOrder o 0x30 0 idx)
            else
              let s := (List.range 8).foldl (fun s i => s.cleanLine (dieOf o.core) (pa / 128 + i)) (s.bankServed pa (.acc o.id))
              let (bs, s) := s.rowData n table (stackOf (bits pa 40 0)) (rb / 1024) (s.m.mem.readBytes pa 1024)
              match s.engCheck o.core o.ctx res true none with
              | (.bad code detail, s) => .next (s.failOrder o code detail res)
              | (.ok rpa _ _ _, s) =>
                if region rpa = 2 then .next (s.failOrder o 0x12 0 res)
                else .next ((s.engDone o.id).setOrder { o with image := bs })
    | _ => .next s

end Sys2Proof.Machine
end

