-- ==== Sys2Proof/Machine/Work.lean ====
section
/-! DEFINITION. Launches and the levels above: descriptors, acceptance, dependences, completion, cancel, launches from the
device and soft interrupts (02_work.md R34, R35, R47 to R51, R56, R60 to R65; 14_ref_a_c.md R353; 16_ref_j_r.md R391, R392;
17_ref_s_z.md R437, R438). -/

namespace Sys2Proof.Machine

/-! ### Memory accesses of the command processors and the Market Master: privileged agents (R167) -/

/-- How far an access of a privileged agent has come on its way to a PA. -/
def State.ioGate (s : State) (w : Waiter) (pa : Nat) (readOnly : Bool) : EngRes :=
  match s.way w w.die pa readOnly with
  | .ok v => if 3 ≤ region pa then .bad 0x30 0 else .ok v
  | r => r

/-- Reads n bytes at their home, or waits on the way (R275, R316). -/
def State.ioRead (s : State) (w : Waiter) (pa n : Nat) : EngRes × State :=
  match s.ioGate w pa true with
  | .ok _ =>
    let (v, s) := (s.bankServed pa w).homeRead pa n
    (.ok v, s)
  | .wait => (.wait, s.wayWait w w.die pa 0 n)
  | r => (r, s)

/-- The entries that the walk of a privileged agent is going to read. -/
def State.ioWalkPas (s : State) (ctx va : Nat) : List Nat :=
  if badHalf va then []
  else s.ctxEntry ctx :: (match s.rootTable none ctx with
    | .ok t => (s.walkTrail none va t 4).map (fun r => r.2.1)
    | .bad _ _ => [])

/-- How the walk of a privileged agent has come on (R171, R316). -/
def State.ioWalk (s : State) (w : Waiter) (ctx va : Nat) : EngRes × State :=
  let pas := s.ioWalkPas ctx va
  match s.waysTo w w.die pas with
  | .wait => (.wait, s.waysWait w w.die 8 pas)
  | r => (r, pas.foldl (fun s pa => s.bankServed pa w) s)

/-- Translation of a privileged agent (R167, R172): its page must allow the use, hold no cells and be no alias window. -/
def State.ioTranslate (s : State) (ctx va : Nat) (u : PageUse) : Trans :=
  match s.walk none ctx va with
  | .bad code detail => .bad code detail
  | .ok pa attr modid big =>
    match permFault false u attr with
    | some code => .bad code 0
    | none =>
      if attrCELL attr || 8 ≤ region pa || (u == .write && attrELID attr) then .bad 0x12 0 else .ok pa attr modid big

/-- Reads n bytes of a context by VA; the bytes lie in one page. -/
def State.ioReadVa (s : State) (w : Waiter) (ctx va n : Nat) : EngRes × State :=
  match s.ioWalk w ctx va with
  | (.ok _, s) =>
    (match s.ioTranslate ctx va .read with
    | .bad code detail => (.bad code detail, s)
    | .ok pa _ _ _ => s.ioRead w pa n)
  | r => r

/-! ### Descriptors (R34, R35) -/

/-- A field of a descriptor read as one number. -/
def descField (v off n : Nat) : Nat := v / 2 ^ (8 * off) % 2 ^ (8 * n)

/-- The descriptor in 128 bytes, with the grid of a LAUNCHIND in place of its own; or the code of its refusal: 0x03 for a
reserved field, else 0x04 (R35, R59). -/
def descOf (va : VAddr) (v : Nat) (grid : Option (Nat × Nat × Nat)) : Except Nat Desc :=
  let f := descField v
  let deps := (List.range 4).map (fun i => (f (0x2C + 8 * i) 2, f (0x30 + 8 * i) 4))
  let g := grid.getD (f 0x10 4, f 0x14 4, f 0x18 4)
  let lots := g.1 * g.2.1 * g.2.2
  let threads := f 0x1C 2 * f 0x1E 2 * f 0x20 2
  if f 0x0A 2 != 0 || f 0x2A 2 != 0 || f 0x25 1 / 2 != 0 || f 0x56 42 != 0
      || (List.range 4).any (fun i => f (0x2E + 8 * i) 2 != 0) then .error 0x03
  else if (grid.isNone && lots = 0) || 2 ^ 31 < lots || threads = 0 || 1024 < threads || f 0x22 1 = 0 || 8 < f 0x22 1
      || 16 < f 0x23 1 || 32 < f 0x24 1 || 256 < f 0x26 2 || 1023 < f 0x28 2
      || deps.any (fun d => d.1 != 0xFFFF && 1023 < d.1) || f 0 10 % 4 != 0 || f 0x0C 4 % 4 != 0 then .error 0x04
  else .ok {
    va := va, entry := BitVec.ofNat 80 (f 0 10), bark := f 0x0C 4, gx := g.1, gy := g.2.1, gz := g.2.2, lx := f 0x1C 2,
    ly := f 0x1E 2, lz := f 0x20 2, base := f 0x22 1, acc := f 0x23 1, ops := f 0x24 1, bk := f 0x25 1 == 1,
    scr := f 0x26 2, ctr := f 0x28 2, deps := deps.filter (fun d => d.1 != 0xFFFF), param := BitVec.ofNat 80 (f 0x4C 10) }

/-- What reading a descriptor gives. -/
inductive DescRes where
  | ok (d : Desc)
  | wait
  | bad (code : Nat)
deriving DecidableEq, Repr

/-- Reads a descriptor of a context once (R35); failures carry the codes of R59. -/
def State.readDesc (s : State) (w : Waiter) (ctx : Nat) (va : VAddr) (grid : Option (Nat × Nat × Nat)) : DescRes × State :=
  if va.toNat % 128 != 0 then (.bad 0x04, s)
  else match s.ioReadVa w ctx va.toNat 128 with
  | (.ok v, s) =>
    (match descOf va v grid with
      | .ok d => .ok d
      | .error code => .bad code, s)
  | (.wait, s) => (.wait, s)
  | (.bad _ _, s) => (.bad 0x06, s)

/-- Lots of a grid (R32). -/
def Desc.lots (d : Desc) : Nat := d.gx * d.gy * d.gz

/-- Threads of a lot (R30). -/
def Desc.threads (d : Desc) : Nat := d.lx * d.ly * d.lz

def Desc.warps (d : Desc) : Nat := (d.threads + 31) / 32

/-! ### Counters, members and completion (R47, R48, R58) -/

/-- Adds to a counter of a context (R48). -/
def State.addCounter (s : State) (ctx i n : Nat) : State := s.setCounter ctx i (s.counter ctx i + BitVec.ofNat 64 n)

/-- A member of a level has completed: the counter of the level's begin mark rises (R47). -/
def State.memberDone (s : State) (level : Option Nat) : State :=
  match level.bind (fun i => s.level? i) with
  | none => s
  | some x => (s.setLevel { x with members := x.members - 1 }).addCounter x.ctx x.counter 1

/-- A launch completes (R47): its parents are told, and it is gone. -/
def State.completeLaunch (s : State) (x : Launch) : State :=
  let s := { s with w := { s.w with
    launches := (s.w.launches.filter (fun (y : Launch) => y.id != x.id)).map (fun (y : Launch) =>
      if some y.id == x.parentLaunch then { y with children := y.children - 1 } else y),
    device := if x.device then Tbl.put 0 s.w.device x.ctx (Tbl.get 0 s.w.device x.ctx - 1) else s.w.device } }
  s.memberDone x.parentLevel

/-- All lots of a launch have retired, and its children have completed. -/
def Launch.finished (x : Launch) : Bool := x.retired == x.total && x.children == 0

/-- LAUNCH_COMPLETION (R47): the lots' releases at PKG scope have performed their writes at the homes, so the SYS-scope
release has nothing left to do. -/
def execLaunchCompletion (launch : Nat) (s : State) : Out :=
  match s.launch? launch with
  | some x => .next (if x.finished then s.completeLaunch x else s)
  | none => .next s

/-- A closed level without a member that has not completed completes (R47, R58). -/
def State.completeLevel (s : State) (x : Level) : State :=
  if x.closed && x.members == 0 then
    ({ s with w := { s.w with levels := s.w.levels.filter (fun y => y.id != x.id) } }).memberDone x.parent
  else s

/-- LEVEL_COMPLETION (R47). -/
def execLevelCompletion (level : Nat) (s : State) : Out :=
  match s.level? level with
  | some x => .next (s.completeLevel x)
  | none => .next s

/-! ### Acceptance and dependences (R56, R60) -/

/-- Accepts a launch: it joins its level and its parent launch; one without lots completes at once (R55, R56, R60). -/
def State.accept (s : State) (x : Launch) : Nat × State :=
  let (id, s) := s.fresh
  let x := { x with id := id, seq := id }
  let s := { s with w := { s.w with
    launches := s.w.launches.map (fun (y : Launch) => if some y.id == x.parentLaunch then { y with children := y.children + 1 } else y) ++ [x],
    levels := s.w.levels.map (fun (y : Level) => if some y.id == x.parentLevel then { y with members := y.members + 1 } else y),
    device := if x.device then Tbl.put 0 s.w.device x.ctx (Tbl.get 0 s.w.device x.ctx + 1) else s.w.device } }
  (id, if x.total = 0 then s.completeLaunch x else s)

/-- A launch of a descriptor as it is accepted. -/
def Desc.launch (d : Desc) (ctx queue prio : Nat) (level parent : Option Nat) (device : Bool) : Launch :=
  ⟨0, ctx, queue, prio, d, level, parent, device, false, 0, d.lots, [], [], [], 0, 0, false, false, [], 0⟩

/-- LAUNCH_DEPENDENCES_MET (R56): every used dependence of an accepted launch holds, and its lots are offered. -/
def execLaunchDependencesMet (launch : Nat) (s : State) : Out :=
  match s.launch? launch with
  | none => .next s
  | some x =>
    if !x.offered && x.d.deps.all (fun d => d.2 ≤ (s.counter x.ctx d.1).toNat) then .next (s.setLaunch { x with offered := true })
    else .next s

/-! ### Cancel (R49 to R51, R353) -/

/-- Maximal ranges of consecutive numbers, from sorted ranges. -/
def joinRanges : List (Nat × Nat) → List (Nat × Nat)
  | [] => []
  | (a, b) :: rest =>
    match joinRanges rest with
    | (c, d) :: more => if c ≤ b + 1 then (a, max b d) :: more else (a, b) :: (c, d) :: more
    | [] => [(a, b)]

/-- The unstarted lots of a launch, as ranges: those from the next one on, and of the earlier ones those to be rerun (R38, R51). -/
def Launch.unstarted (x : Launch) : List (Nat × Nat) :=
  let re := ((x.reruns.filter (fun r => r < x.next)).foldl (fun (l : List Nat) r => (l.filter (fun y => y < r)) ++ [r] ++ l.filter (fun y => r < y)) []).map (fun r => (r, r))
  joinRanges (re ++ (if x.next < x.total then [(x.next, x.total - 1)] else []))

/-- An OUTCOME record of lots of a launch (R283). -/
def Launch.outcome (x : Launch) (core lo hi flags code outcome : Nat) : FRec :=
  { kind := 2, code := code, flags := flags, core := core, desc := x.d.va, lot := lo, lotend := hi, warp := 0xFF, tag := 0,
    outcome := outcome, detail := 0, lanes := 0, pc := 0, addr := 0 }

/-- A save area goes back to its pool. -/
def State.freeArea (s : State) (ctx area : Nat) : State :=
  let cs := s.ctxS ctx
  s.setCtxS ctx { cs with areas := cs.areas.filter (fun a => a.1 != area) }

/-- Cancels one launch (R49, R51): unstarted lots are never placed, save areas are released, and the cancel sets out for
the cores that hold its lots. -/
def State.cancelLaunch (s : State) (id : Nat) : State :=
  match s.launch? id with
  | none => s
  | some x =>
    if x.cancelled then s
    else
      let rs := x.unstarted
      let n := rs.foldl (fun n r => n + (r.2 + 1 - r.1)) 0 + x.saved.length
      let s := rs.foldl (fun s r => s.writeRec x.ctx (x.outcome 0xFFFF r.1 r.2 32 0 2)) s
      let s := x.saved.foldl (fun s v => (s.freeArea x.ctx v.area).writeRec x.ctx (x.outcome 0xFFFF v.index v.index 0 0 1)) s
      let s := s.setLaunch { x with cancelled := true, next := x.total, saved := [], reruns := [], retired := x.retired + n }
      let s := s.addCounter x.ctx x.d.ctr n
      let cores := ((s.lotList.filter (fun e => e.2.2.launch == id)).map (fun e => e.1)).eraseDups
      { s with w := { s.w with cancels := s.w.cancels ++ cores.map (fun c => (id, c)) } }

/-- Launches with all their device-side descendants; the number is fuel. -/
def State.withChildren (s : State) (ids : List Nat) : Nat → List Nat
  | 0 => ids
  | fuel + 1 =>
    let more := (s.w.launches.filter (fun x => (match x.parentLaunch with
      | some p => ids.contains p
      | none => false) && !ids.contains x.id)).map (fun x => x.id)
    if more.isEmpty then ids else State.withChildren s (ids ++ more) fuel

def State.cancelLaunches (s : State) (ids : List Nat) : State :=
  (s.withChildren ids s.w.launches.length).foldl (fun s i => s.cancelLaunch i) s

/-- A level with the levels in it. -/
def State.levelTree (s : State) (level : Nat) : List Nat :=
  let under (ids : List Nat) : List Nat := (s.w.levels.filter (fun x => match x.parent with
    | some p => ids.contains p
    | none => false)).map (fun x => x.id)
  let a := under [level]
  (level :: a) ++ under a

/-- Cancels a graph, phase or job, once (R49, R50). -/
def State.cancelLevel (s : State) (level : Nat) : State :=
  match s.level? level with
  | none => s
  | some x =>
    if x.cancelled then s
    else
      let ls := s.levelTree level
      let s := { s with w := { s.w with levels := s.w.levels.map (fun (y : Level) => if ls.contains y.id then { y with cancelled := true } else y) } }
      s.cancelLaunches ((s.w.launches.filter (fun (y : Launch) => match y.parentLevel with
        | some p => ls.contains p
        | none => false)).map (fun y => y.id))

/-- The level of a kind that contains a level; the number is fuel. -/
def State.levelOf (s : State) (kind : CancelLevel) (level : Option Nat) : Nat → Option Nat
  | 0 => none
  | fuel + 1 =>
    match level.bind (fun i => s.level? i) with
    | none => none
    | some x => if x.kind = kind then some x.id else State.levelOf s kind x.parent fuel

/-- CANCEL (R353): each participant cancels; repeats change nothing (R50). -/
def execCancel (p : BitVec 3) (level : CancelLevel) (s : State) : Out :=
  s.instr true true [] p (fun v s =>
    if v.parts.isEmpty then s
    else match s.levelOf level ((s.launch? v.l.launch).bind (fun x => x.parentLevel)) 3 with
    | some l => if level = .launch then s.cancelLaunches [v.l.launch] else s.cancelLevel l
    | none => s.cancelLaunches [v.l.launch])

/-! ### Launches from the device (R60 to R62, R391, R392) -/

/-- Is a launch, or a level that contains it, being cancelled? -/
def State.beingCancelled (s : State) (launch : Nat) : Bool :=
  match s.launch? launch with
  | none => false
  | some x => x.cancelled || (match x.parentLevel.bind (fun i => s.level? i) with
    | some y => y.cancelled
    | none => false)

/-- One child of a LAUNCH: the lanes that wait for it park (R60, R61). -/
def State.launchChild (s : State) (v : View) (d : BitVec 7) (a : Agent) (va : VAddr) (lanes : List Agent) : State :=
  let (id, s) := s.fresh
  let t : LaneId := ⟨v.i.core, v.i.bctx, a.w, a.l⟩
  let after := (lanes.flatMap (fun b => s.pendingOf v.i.core v.i.bctx b)).eraseDups
  let s := if v.l.ending then s
    else { s with w := { s.w with childReqs := s.w.childReqs ++ [⟨id, t, lanes, d.toNat, v.l.ctx, va, v.l.launch, after⟩] } }
  s.parkAll (lanes.map (fun b => (b, .launch d.toNat id)))

/-- A descriptor's address in a pair (R130, R391). -/
def Lot.descVa (l : Lot) (t : Agent) (a : BitVec 7) : VAddr := BitVec.ofNat 80 (sextN (l.val t a 64) 64 80)

/-- LAUNCH (R391, R392): one child for each participant, in ascending home-lane order. -/
def execLaunch (p : BitVec 3) (d a : BitVec 7) (s : State) : Out :=
  s.instr true true [use1 d, use2 a] p (fun v s =>
    v.parts.foldl (fun s t => s.launchChild v d t (v.l.descVa t a) [t]) s)

/-- LAUNCH.W (R61, R392): one child, from the descriptor of the lowest active lane. -/
def execLaunchW (p : BitVec 3) (d a : BitVec 7) (s : State) : Out :=
  s.instr true true [use1 d, use2 a] p (fun v s =>
    match v.parts with
    | [] => s
    | t :: rest =>
      let low := rest.foldl (fun (m : Agent) x => if x.l < m.l then x else m) t
      s.launchChild v d low (v.l.descVa low a) v.parts)

/-- The result word of R392 goes to D of the lanes still parked for the request, and they wake. -/
def State.childResult (s : State) (r : ChildReq) (word : Nat) : State :=
  let s := { s with w := { s.w with childReqs := s.w.childReqs.filter (fun x => x.id != r.id) } }
  match s.lot? r.t.core r.t.bctx with
  | none => s
  | some l =>
    let ws := r.lanes.filter (fun a => (l.thr a).st == .parked (.launch r.d r.id))
    let l := ws.foldl (fun l a => l.setVal a (BitVec.ofNat 7 r.d) 32 false word) l
    (s.setLot r.t.core r.t.bctx l).wakeAll r.t.core r.t.bctx ws

/-- CHILD_LAUNCH_ACCEPT (R60 to R62, R392): after the release of the lanes' earlier stores, the child is cancelled, refused
with a record, accepted, or waits for the limit of 4,096. Children are accepted in the order in which they were issued. -/
def execChildLaunchAccept (req : Nat) (s : State) : Out :=
  match s.w.childReqs.find? (fun r => r.id == req) with
  | none => .next s
  | some r =>
    match s.lot? r.t.core r.t.bctx with
    | none => .next s
    | some l =>
      let earlier := s.w.childReqs.any (fun x => x.id < r.id && x.t.core == r.t.core && x.t.bctx == r.t.bctx && !s.beingCancelled x.parent)
      if r.lanes.all (fun a => (l.thr a).st != .parked (.launch r.d r.id)) then .next s
      else if s.beingCancelled r.parent then .next (s.childResult r 2)
      else if earlier || r.after.any (fun i => s.unperformed r.t.core r.t.bctx i) then .next s
      else match s.releaseScope r.t.core r.ctx .pkg with
      | (false, s) => .next s
      | (true, s) => match s.readDesc (.child r.id) r.ctx r.va none with
        | (.wait, s) => .next s
        | (.bad code, s) =>
          let s := s.endTransfers (.child r.id)
          let rec' : FRec := { lotRec r.t.core l 6 code with
            desc := r.va, warp := recWarp (laneAgent r.t), lanes := recLanes r.lanes, outcome := 4 }
          .next ((s.writeRec r.ctx rec').childResult r (1 + 256 * code))
        | (.ok d, s') =>
          if 4096 ≤ Tbl.get 0 s'.w.device r.ctx then .next s
          else match s'.launch? r.parent with
          | none => .next s'
          | some x =>
            let (_, s) := (s'.endTransfers (.child r.id)).accept (d.launch r.ctx x.queue x.prio x.parentLevel (some x.id) true)
            .next (s.childResult r 0)

/-! ### Soft interrupts (R63 to R65, R437, R438) -/

/-- SWI: each participant sends one soft interrupt, in ascending home-lane order. -/
def execSwi (p : BitVec 3) (a b : BitVec 7) (s : State) : Out :=
  s.instr true true [use1 a, use1 b] p (fun v s =>
    v.parts.foldl (fun s t =>
      let (id, s) := s.fresh
      let lane : LaneId := ⟨v.i.core, v.i.bctx, t.w, t.l⟩
      let own := (s.accs.filter (fun x => x.t == lane && !x.hasResult)).map (fun x => x.id)
      let after := (own ++ s.pendingOf v.i.core v.i.bctx t).eraseDups
      { s with w := { s.w with swis := s.w.swis ++ [⟨id, lane, v.l.ctx, v.l.d.va, v.l.index, v.i.hdr, BitVec.ofNat 32 (v.l.val t a 32),
        BitVec.ofNat 32 (v.l.val t b 32), after⟩] } }) s)

/-- Delivers a wake value to a queue or to the Market Master's FIFO; answers whether it was delivered (R63, R64). -/
def State.deliver (s : State) (ctx : Nat) (value : Word) (target : Nat) (who : WakeEntry) : Bool × State :=
  if bit target 6 then
    if 256 ≤ s.w.wakeFifo.length then (false, s)
    else (true, { s with w := { s.w with wakeFifo := s.w.wakeFifo ++ [who] } })
  else
    let q := bits target 5 0
    if s.regF (queueReg q 0) 19 8 != ctx || s.regF (queueReg q 0) 0 0 = 0 then (false, s)
    else (true, s.setRegF (queueReg q 0x20) 31 0 (s.regF (queueReg q 0x20) 31 0 ||| value.toNat))

/-- The record of a failed delivery (R64). -/
def swiRec (core warp : Nat) (lanes : Word) (pc : VAddr) (value target : Word) : FRec :=
  { kind := 1, code := 0x61, flags := 0, core := core, desc := 0, lot := 0, lotend := 0, warp := warp, tag := 0, outcome := 0,
    detail := 0, lanes := lanes, pc := pc, addr := value.toNat + 2 ^ 32 * target.toNat }

/-- Where a soft interrupt goes: a queue, or the wake FIFO of the Market Master (R438). -/
def Swi.place (x : Swi) : Option Nat := if x.target.getLsbD 6 then none else some (bits x.target.toNat 5 0)

/-- SWI_DELIVERY (R438): after the lane's earlier stores are performed at SYS scope, the value is delivered or a record is
written; a lane's interrupts reach one target in the order in which it issued them. -/
def execSwiDelivery (id : Nat) (s : State) : Out :=
  match s.w.swis.find? (fun x => x.id == id) with
  | none => .next s
  | some x =>
    if s.w.swis.any (fun y => y.id < x.id && y.t == x.t && y.place == x.place) || x.after.any (fun i => s.unperformed x.t.core x.t.bctx i) then .next s
    else match s.releaseScope x.t.core x.ctx .sys with
    | (false, s) => .next s
    | (true, s) =>
      let s := { s with w := { s.w with swis := s.w.swis.filter (fun y => y.id != id) } }
      let a := laneAgent x.t
      let (ok, s) := s.deliver x.ctx x.value x.target.toNat ⟨x.ctx, x.value, x.t.core, recWarp a, recLanes [a]⟩
      let r := { swiRec x.t.core (recWarp a) (recLanes [a]) x.hdr x.value x.target with desc := x.desc, lot := x.lot, lotend := x.lot }
      .next (if ok then s else s.writeRec x.ctx r)

/-- WAKE_FIFO_SERVE (R65): the oldest entry becomes a WAKE record; not while a takeover is under way (R330). -/
def execWakeFifoServe (s : State) : Out :=
  if s.regF pwrctlReg 32 32 = 1 then .next s else
  match s.w.wakeFifo with
  | [] => .next s
  | e :: rest =>
    let s := { s with w := { s.w with wakeFifo := rest } }
    .next (s.writeRec e.ctx
      { kind := 9, code := 0, flags := 0, core := e.core, desc := 0, lot := 0, lotend := 0, warp := e.warp, tag := 0, outcome := 0,
        detail := 0, lanes := e.lanes, pc := 0, addr := e.value.toNat })

end Sys2Proof.Machine
end

