-- ==== Sys2Proof/Machine/SaveArea.lean ====
section
/-! DEFINITION. The save area and the dump: a lot as bytes, and a lot from bytes (03_issue.md R90; 11_faults.md R295 to
R299). The layout of PARAM is not in the spec and is the model's own (log entry 28). -/

namespace Sys2Proof.Machine

/-! ### Compressed registers (R299) -/

/-- The tag and the body of a register's 32 values. -/
def compressReg (xs : List Nat) : Nat × List Byte :=
  let x0 := xs.getD 0 0
  let d := wrapI ((xs.getD 1 0 : Int) - x0) 32
  let signedIn (n : Nat) : Bool := xs.all (fun x => sextN x n 32 == x)
  let words (n : Nat) : List Byte := xs.flatMap (fun x => toBytes x n)
  if xs.all (fun x => x == x0) then (0, toBytes x0 4)
  else if (xs.zipIdx).all (fun e => e.1 == wrapN (x0 + e.2 * d) 32) then (1, toBytes x0 4 ++ toBytes d 4)
  else if xs.all (fun x => x < 2 ^ 8) then (2, toBytes 0 4 ++ words 1)
  else if signedIn 8 then (2, toBytes 2 4 ++ words 1)
  else if xs.all (fun x => x < 2 ^ 16) then (2, toBytes 1 4 ++ words 2)
  else if signedIn 16 then (2, toBytes 3 4 ++ words 2)
  else (3, words 4)

/-- The values of a register from its tag and the bytes at an offset; and the bytes that its body takes. -/
def expandReg (tag : Nat) (rd : Nat → Nat → Nat) (off : Nat) : List Nat × Nat :=
  let x0 := rd off 4
  match tag with
  | 0 => ((List.range 32).map (fun _ => x0), 4)
  | 1 => ((List.range 32).map (fun i => wrapN (x0 + i * rd (off + 4) 4) 32), 8)
  | 2 =>
    let n := if bit x0 0 then 2 else 1
    ((List.range 32).map (fun i =>
      let x := rd (off + 4 + n * i) n
      if bit x0 1 then sextN x (8 * n) 32 else x), 4 + 32 * n)
  | _ => ((List.range 32).map (fun i => rd (off + 4 * i) 4), 128)

/-- The REGS part of a warp of b blocks. -/
def Lot.regsPart (l : Lot) (w b : Nat) : List Byte :=
  let rs := (List.range (16 * b)).map (fun r => compressReg ((List.range 32).map (fun i => (l.vreg w r i).toNat)))
  let tagWord (k : Nat) : Nat := ((List.range 16).map (fun j => (rs.getD (16 * k + j) (0, [])).1 * 4 ^ j)).sum
  ((List.range b).flatMap (fun k => toBytes (tagWord k) 4)) ++ rs.flatMap (fun r => r.2)

/-! ### Threads (R298) -/

/-- Row of a park reason in the table of R67, 10 for DQFULL. -/
def Park.reason : Park → Nat
  | .clauseStart _ | .waitc _ => 1
  | .bar _ _ => 2
  | .kwait _ => 3
  | .mon _ _ => 4
  | .dq _ => 5
  | .tag _ _ => 6
  | .blocks _ => 7
  | .launch _ _ => 8
  | .debug => 9
  | .dqfull _ => 10

/-- What a clause asks at its start, as a number: the limits of its header, its counts of each class and of log entries, and its
waiting-table entries (log entry 28). -/
def ClauseNeeds.pack (n : ClauseNeeds) : Nat :=
  bits n.hdr.toNat 21 10 + 2 ^ 12 * (n.ld % 16) + 2 ^ 16 * (n.st % 16) + 2 ^ 20 * (n.cp % 16) + 2 ^ 24 * (n.tl % 16)
  + 2 ^ 28 * (n.logs % 16) + 2 ^ 32 * (n.entries % 2 ^ 16)

def ClauseNeeds.unpack (v : Nat) : ClauseNeeds :=
  ⟨BitVec.ofNat 32 (bits v 11 0 * 2 ^ 10), bits v 15 12, bits v 19 16, bits v 23 20, bits v 27 24, bits v 31 28, bits v 47 32⟩

/-- PARAM: a number in byte 0, flags in byte 1, a value in bytes 2 to 9 (log entry 28). -/
def Park.param : Park → Nat × Nat
  | .clauseStart n => (0, n.pack)
  | .waitc t => (1, t.toNat)
  | .bar b g => (b, g.toNat)
  | .kwait k => (k, 0)
  | .mon d t => (d, t.getD 0xFFFFFFFF)
  | .dq d => (d, 0)
  | .tag all m => (all.toNat, m.toNat)
  | .blocks n => (n, 0)
  | .launch d r => (d, r)
  | .debug => (0, 0)
  | .dqfull i => (i, 0)

/-- A thread as it is saved: a barker that stands READY or in WAIT in the middle of its clause is saved in its DQFULL park,
from which it goes on there (R365; log entry 28). -/
def Thread.savedState (t : Thread) : TState :=
  match t.st with
  | .ready | .issuing | .parked (.clauseStart _) => if t.mid = 0 then t.st else .parked (.dqfull t.mid)
  | st => st

/-- STATE, REASON and PARAM of a thread: PARAM holds the park's parameters, and from byte 10 the code, the detail and the tag of
a fault that the thread has still to take; the barker's DEBUG pending, IN_HANDLER and REPLAY stand in its flags. The thresholds of
a WAITC to wait for again stand in bytes 6 to 9 where the park needs no more than a number and 4 bytes (log entry 28). -/
def Thread.stateBytes (t : Thread) : List Byte :=
  let room : Bool := match t.savedState with
    | .parked (.tag _ _) | .parked (.launch _ _) | .parked (.clauseStart _) => false
    | _ => true
  let (flags, high) : Nat × Nat := match t.exitAfter, t.waitAfter with
    | .some sc, _ => (sc.code.toNat + 1, 0)
    | .none, .some thr => if room then (15, thr.toNat) else (0, 0)
    | .none, .none => (0, 0)
  let (code, more, replay) : Nat × Nat × Bool := match t.stop with
    | .some x => (x.code, x.detail % 4 + 4 * x.tag, x.replay)
    | .none => (0, 0, false)
  let st (n r a v : Nat) : List Byte :=
    [BitVec.ofNat 8 n, BitVec.ofNat 8 r, BitVec.ofNat 8 a,
      BitVec.ofNat 8 (flags + 16 * t.dbgPend.toNat + 32 * t.shadow.isSome.toNat + 64 * replay.toNat + 128 * t.nested.toNat)]
    ++ toBytes (v + 2 ^ 32 * high) 8 ++ [BitVec.ofNat 8 code, BitVec.ofNat 8 more]
  match t.savedState with
  | .absent => st 0 0 0 0
  | .ready | .issuing => st 1 0 0 0
  | .parked .debug => st 2 9 t.mid 0
  | .parked p => st 2 p.reason p.param.1 p.param.2
  | .exiting _ | .exited | .stopped => st 3 0 0 0

/-- A thread slot; `replay` says whether a logged access of the thread awaits its re-issue. -/
def Thread.bytes (t : Thread) (replay : Bool) : List Byte :=
  toBytes t.pc.toNat 10 ++ t.stateBytes ++ toBytes t.cursor.toNat 2 ++ [t.preds &&& 0xFE]
  ++ [BitVec.ofNat 8 (t.shadow.isSome.toNat + 2 * replay.toNat + 4 * t.dbgPend.toNat)] ++ toBytes t.rng.toNat 4

/-- A thread state from STATE, REASON and PARAM; none where they are no state. Every park comes back as it was saved, but MON, which
comes back READY (R90). -/
def stateOf (st reason num v : Nat) : Option TState :=
  match st with
  | 0 => some .absent
  | 1 => some .ready
  | 3 => some .exited
  | 2 =>
    match reason with
    | 1 => if num = 1 then some (.parked (.waitc (BitVec.ofNat 32 v))) else some (.parked (.clauseStart (ClauseNeeds.unpack v)))
    | 2 => some (.parked (.bar num (BitVec.ofNat 16 v)))
    | 3 => some (.parked (.kwait num))
    | 4 => some .ready
    | 5 => some (.parked (.dq num))
    | 6 => some (.parked (.tag (num = 1) (BitVec.ofNat 64 v)))
    | 7 => some (.parked (.blocks num))
    | 8 => some (.parked (.launch num v))
    | 9 => some (.parked .debug)
    | 10 => some (.parked (.dqfull num))
    | _ => none
  | _ => none

/-- A thread from STATE, REASON and PARAM at an offset. Address and header of a fault that it has still to take are read from its
log entry where it has one (R285); else the area does not hold them and they are free values (log entry 28). -/
def readState (rd : Nat → Nat → Nat) (off free : Nat) (t : Thread) : Option Thread :=
  let flags := rd (off + 3) 1
  let code := rd (off + 12) 1
  let more := rd (off + 13) 1
  let value := rd (off + 4) (if flags % 16 = 15 then 4 else 8)
  (stateOf (rd off 1) (rd (off + 1) 1) (rd (off + 2) 1) value).map (fun st =>
    { t with
      st := st, dbgPend := bit flags 4, nested := bit flags 7,
      waitAfter := if flags % 16 = 15 then some (BitVec.ofNat 32 (rd (off + 8) 4)) else none,
      stop := if code = 0 then none else some ⟨code, more % 4, more / 4, wrapN free 80, bit flags 6, BitVec.ofNat 80 (free / 2 ^ 80)⟩,
      exitAfter := if flags % 16 = 0 || flags % 16 = 15 then none else Scope.ofCode (BitVec.ofNat 3 (flags % 16 - 1)),
      mid := match st with
        | .parked (.dqfull i) => i
        | .parked .debug => rd (off + 2) 1
        | _ => 0 })

/-! ### Sections -/

/-- The accesses of a lot that await re-issue, one list for each instruction of each warp, oldest first (R284). -/
def State.logEntries (s : State) (c b : Nat) : List (List Acc) :=
  let mine := s.accs.filter (fun a => a.t.core == c && a.t.bctx == b && a.phase.isReplay)
  ((mine.map (fun a => (a.op, a.t.w))).eraseDups).map (fun k => mine.filter (fun a => a.op == k.1 && a.t.w == k.2))

/-- A CAS of 16 bytes: its data fill the 16 data bytes of a lane. -/
def Acc.wideCas (a : Acc) : Bool := a.aop == .cas && a.size == 16 && (a.kind == .atom || a.kind == .red)

/-- A LOG entry: address 8 and data 16 for each lane. Where the data take 8 bytes at most, the value that a CAS compares with stands
in the other 8; that of a CAS of 16 bytes follows in a second item of its lane (log entry 28). -/
def logBytes (as : List Acc) : List Byte :=
  match as with
  | [] => []
  | a :: _ =>
    [BitVec.ofNat 8 (recWarp (laneAgent a.t))] ++ toBytes (laneMask (as.map (fun x => laneAgent x.t))).toNat 4
    ++ toBytes a.hdr.toNat 10 ++ (List.range 3).flatMap (fun i => toBytes (a.iw.getD i 0).toNat 4) ++ toBytes 0 5
    ++ as.flatMap (fun x =>
      if x.wideCas then toBytes x.va 8 ++ toBytes x.data 16 ++ toBytes x.va 8 ++ toBytes x.cmp 16
      else toBytes x.va 8 ++ toBytes (x.data + x.cmp * 2 ^ 64) 16)

/-- A shadow of a thread or of the barker in its handler. -/
def shadowBytes (a : Agent) (sh : Shadow) : List Byte :=
  let n := if a.isBarker then 8 else 4
  toBytes (if a.isBarker then 0xFFFF else 32 * a.w + a.l) 2 ++ (List.range 4).flatMap (fun i => toBytes (sh.regs.getD i 0).toNat n)
  ++ [sh.preds &&& 0xFE, 0] ++ toBytes sh.resume.toNat 10 ++ toBytes 0 2

/-- An entry of the RLOCK section. -/
def Lock.bytes (k : Lock) : List Byte :=
  toBytes (1 + 2 * k.bctx + 8 * k.sp + 32 * k.dst.toNat + 64 * (k.tag % 64)) 2 ++ toBytes k.ctx 2 ++ toBytes 0 4 ++ toBytes k.base 10
  ++ toBytes k.len 6

/-- Padding of a list of bytes to a length. -/
def padTo (n : Nat) (bs : List Byte) : List Byte := bs ++ List.replicate (n - bs.length) 0

/-- Blocks of a warp, those on their way back included. -/
def Warp.held (x : Warp) : Nat × Nat :=
  x.backs.foldl (fun e b => (e.1 + b.pool, e.2 + b.reserve)) (x.pool, x.reserve)

/-- The eleven sections of a lot (R298). -/
def State.sections (s : State) (c b : Nat) (l : Lot) (dump : Bool) : List (List Byte) :=
  let logs := s.logEntries c b
  let replay (a : Agent) : Bool := logs.any (fun e => e.any (fun x => laneAgent x.t == a))
  let warps := List.range l.nwarps
  let bk := l.thr Agent.barker
  let handlers := (l.agents.filter (fun a => (l.thr a).shadow.isSome)) ++ (if bk.shadow.isSome then [Agent.barker] else [])
  -- a lane without a thread keeps the generator state of the lot's start (R102)
  let slot (a : Agent) : Thread := if a.key < l.nthreads then l.thr a else { Thread.none with rng := rngStart a.l }
  [ warps.flatMap (fun w => (List.range 32).flatMap (fun i => (slot ⟨w, i⟩).bytes (replay ⟨w, i⟩))),
    warps.flatMap (fun w =>
      let x := l.warp w
      ((List.range 12).flatMap (fun k => toBytes (x.mem k) 4 ++ toBytes (x.arr k) 4)) ++ toBytes x.fstat.toNat 4 ++ toBytes 0 4),
    warps.flatMap (fun w => l.regsPart w (l.warp w).blocks),
    ((List.range 64).flatMap (fun r => toBytes (l.sreg r).toNat 8)) ++ toBytes bk.pc.toNat 10 ++ [bk.preds &&& 0xFE]
      ++ bk.stateBytes ++ [0] ++ toBytes (l.warp 32).fstat.toNat 4 ++ toBytes bk.rng.toNat 4,
    toBytes l.dqP.toNat 2 ++ [0, 0] ++ (List.range 64).flatMap (fun i => toBytes (Tbl.get (0 : Word) l.dq i).toNat 4),
    (List.range 16).flatMap (fun k =>
      let x := l.bar k
      let waiting := sumBits 32 (fun w => (l.barWaiters k).any (fun a => a.w == w))
      toBytes x.arrivals 4 ++ toBytes x.gen.toNat 4 ++ toBytes waiting 4 ++ toBytes x.expected 4),
    ((List.range 32).map (fun k => match l.slotSt k with
        | .free => (0 : Byte)
        | .claimed => 1
        | .releasing => 2))
      ++ (List.range 32).flatMap (fun k => Tbl.slice (0 : Byte) l.slotData (k * 4096) 4096 ++ (if k < l.d.ops then Tbl.slice (0x7F : Byte) l.slotScale (k * 128) 128 else List.replicate 128 0))
      ++ (Tbl.slice (0 : Word) l.acc 0 65536).flatMap (fun w => toBytes w.toNat 4)
      ++ toBytes (sumBits 16 (fun n => l.accIsInt n)) 2,
    Tbl.slice (0 : Byte) l.scratch 0 (l.d.scr * 1024),
    toBytes l.tags.toNat 8,
    logs.flatMap logBytes ++ handlers.flatMap (fun a => match (l.thr a).shadow with
      | some sh => shadowBytes a sh
      | none => []),
    if dump then
      let ks := if l.phase == .halted then l.captured else (s.core c).locks.filter (fun k => k.bctx == b)
      padTo 768 ((ks.take 32).flatMap (fun k => k.bytes))
    else [] ]

/-- Offsets of sections of the given lengths, each at a 64-byte boundary, and the end of the last. -/
def sectionOffsets (off : Nat) : List Nat → List Nat × Nat
  | [] => ([], off)
  | n :: rest =>
    let o := (off + 63) / 64 * 64
    let r := sectionOffsets (o + n) rest
    (o :: r.1, r.2)

/-- A save area or dump as bytes (R297). -/
def State.saveImage (s : State) (c b : Nat) (l : Lot) (dump : Bool) : List Byte :=
  let secs := s.sections c b l dump
  let (offs, _) := sectionOffsets 256 (secs.map (fun x => x.length))
  let blocks := padTo 32 ((List.range l.nwarps).map (fun w => BitVec.ofNat 8 ((l.warp w).pool + 16 * (l.warp w).reserve)))
  let fault : List Byte := match l.firstFault with
    | some r => if dump then r.bytes l.ctx l.firstSeq else List.replicate 64 0
    | none => List.replicate 64 0
  let header := toBytes 0x4B534156 4 ++ toBytes 1 2 ++ [if dump then 2 else 1, 0] ++ toBytes l.ctx 2 ++ [0, 0] ++ toBytes l.index 4
    ++ toBytes l.d.va.toNat 10 ++ toBytes 0 6 ++ toBytes l.d.lx 2 ++ toBytes l.d.ly 2 ++ toBytes l.d.lz 2
    ++ toBytes l.d.base 1 ++ toBytes l.d.acc 1 ++ toBytes l.d.ops 1 ++ [BitVec.ofNat 8 l.d.bk.toNat] ++ toBytes l.d.scr 2
    ++ toBytes l.nwarps 1 ++ toBytes 0 3 ++ blocks
    ++ (offs.zip secs).flatMap (fun e => toBytes e.1 4 ++ toBytes e.2.length 4)
    ++ fault ++ [0, BitVec.ofNat 8 (if dump then min 255 l.nfault else 0)] ++ toBytes 0 22
  (offs.zip secs).foldl (fun bs e => padTo e.1 bs ++ e.2) header

/-! ### Reading an area back -/

/-- The offset and length of a section. -/
def sectionAt (rd : Nat → Nat → Nat) (k : Nat) : Nat × Nat := (rd (0x50 + 8 * k) 4, rd (0x54 + 8 * k) 4)

/-- Checks of an area for a lot: magic, version, identity, and a section table that fits it (R296, R301). What the sections hold is
not checked (log entry 121). -/
def areaOk (rd : Nat → Nat → Nat) (l : Lot) (size : Nat) : Bool :=
  let lens := [32 * 32 * l.nwarps, 104 * l.nwarps, 0, 546, 260, 256, 397346, l.d.scr * 1024, 8, 0, 0]
  rd 0 4 == 0x4B534156 && rd 4 2 == 1 && rd 8 2 == l.ctx && rd 0x0C 4 == l.index
  && rd 0x20 2 == l.d.lx && rd 0x22 2 == l.d.ly && rd 0x24 2 == l.d.lz && rd 0x2C 1 == l.nwarps
  && (List.range l.nwarps).all (fun w => rd (0x30 + w) 1 % 16 + rd (0x30 + w) 1 / 16 ≤ 8)
  && (List.range 11).all (fun k =>
    let e := sectionAt rd k
    e.1 % 64 == 0 && 256 ≤ e.1 && e.1 + e.2 ≤ size && (lens.getD k 0 == 0 || lens.getD k 0 == e.2))

/-- The registers of a warp from its REGS part; `n` registers are left. Answers the next offset. -/
def readRegs (rd : Nat → Nat → Nat) (w tags : Nat) (l : Lot) (r off : Nat) : Nat → Lot × Nat
  | 0 => (l, off)
  | n + 1 =>
    let (xs, k) := expandReg (rd (tags + 4 * (r / 16)) 4 / 4 ^ (r % 16) % 4) rd off
    let l := (xs.zipIdx).foldl (fun l e => l.setVreg w r e.2 (BitVec.ofNat 32 e.1)) l
    readRegs rd w tags l (r + 1) (off + k) n

/-- The REGS section, warp by warp. -/
def readRegSection (rd : Nat → Nat → Nat) (l : Lot) (w off : Nat) : Nat → Lot
  | 0 => l
  | n + 1 =>
    let b := rd (0x30 + w) 1 % 16 + rd (0x30 + w) 1 / 16
    let (l, off) := readRegs rd w off l 0 (off + 4 * b) (16 * b)
    readRegSection rd l (w + 1) off n

/-- A table from n values. -/
def tblOf {α : Type} [DecidableEq α] (d : α) (n : Nat) (f : Nat → α) : Tbl α := Tbl.putRange d [] 0 n f

/-- Threads from the THREADS and BARKER sections; none where one has no state. -/
def readThreads (rd : Nat → Nat → Nat) (l : Lot) (seqNo free : Nat) : Option Lot :=
  let t0 := (sectionAt rd 0).1
  let bk := (sectionAt rd 3).1
  let one (off stateOff cursor pred tflags rng : Nat) (barker : Bool) : Option Thread :=
    (readState rd stateOff free { Thread.none with
      pc := BitVec.ofNat 80 (rd off 10), cursor := BitVec.ofNat 16 cursor, preds := BitVec.ofNat 8 pred &&& 0xFE,
      rng := BitVec.ofNat 32 rng, seq := seqNo }).map (fun t => if barker then t else { t with dbgPend := bit tflags 2 })
  let all := l.agents.map (fun a =>
    let o := t0 + 32 * a.key
    (a, one o (o + 10) (rd (o + 24) 2) (rd (o + 26) 1) (rd (o + 27) 1) (rd (o + 28) 4) false))
  let bkr : List (Agent × Option Thread) := [(Agent.barker, one (bk + 512) (bk + 523) 0 (rd (bk + 522) 1) 0 (rd (bk + 542) 4) true)]
  (all ++ bkr).foldl (fun l? e => match l?, e.2 with
    | some l, some t => some (l.setThr e.1 t)
    | _, _ => none) (some { l with threads := [] })

/-- D of the MON parks, the barker's among them, gets status 2 (R90). -/
def readMons (rd : Nat → Nat → Nat) (l : Lot) : Lot :=
  (l.agents ++ if l.d.bk then [Agent.barker] else []).foldl (fun l a =>
    let o := if a.isBarker then (sectionAt rd 3).1 + 523 else (sectionAt rd 0).1 + 32 * a.key + 10
    if rd o 1 = 2 && rd (o + 1) 1 = 4 then l.setVal a (BitVec.ofNat 7 (rd (o + 2) 1)) 32 false 2 else l) l

/-- The lot that an area holds, without its log; `l` gives its place, context and launch. -/
def readLot (rd : Nat → Nat → Nat) (l : Lot) (size seqNo free : Nat) : Option Lot :=
  if !areaOk rd l size then none
  else
    let sec (k : Nat) : Nat := (sectionAt rd k).1
    let warps := List.range l.nwarps
    let l := warps.foldl (fun l w =>
      let o := sec 1 + 104 * w
      let x : Warp := { Warp.none with
        pool := rd (0x30 + w) 1 % 16 + rd (0x30 + w) 1 / 16, fstat := BitVec.ofNat 8 (rd (o + 96) 4) }
      l.setWarp w ((List.range 12).foldl (fun x k => (x.setMem k (rd (o + 8 * k) 4)).setArr k (rd (o + 8 * k + 4) 4)) x))
      { l with warps := [] }
    let l := l.setWarp 32 { Warp.none with fstat := BitVec.ofNat 8 (rd (sec 3 + 538) 4) }
    let l := readRegSection rd { l with vregs := [] } 0 (sec 2) l.nwarps
    let l := { l with
      sregs := tblOf 0 64 (fun r => BitVec.ofNat 64 (rd (sec 3 + 8 * r) 8)),
      dqP := BitVec.ofNat 16 (rd (sec 4) 2), dq := tblOf 0 64 (fun i => BitVec.ofNat 32 (rd (sec 4 + 4 + 4 * i) 4)),
      bars := tblOf Barrier.none 16 (fun k => ⟨rd (sec 5 + 16 * k) 4 % 2048, rd (sec 5 + 16 * k + 12) 4 % 2048,
        BitVec.ofNat 16 (rd (sec 5 + 16 * k + 4) 4)⟩),
      slotState := tblOf .free 32 (fun k => match rd (sec 6 + k) 1 with
        | 0 => .free
        | 1 => .claimed
        | _ => .releasing),
      slotData := tblOf 0 131072 (fun i => BitVec.ofNat 8 (rd (sec 6 + 32 + i / 4096 * 4224 + i % 4096) 1)),
      slotScale := tblOf 0x7F (128 * l.d.ops) (fun i => BitVec.ofNat 8 (rd (sec 6 + 32 + i / 128 * 4224 + 4096 + i % 128) 1)),
      acc := tblOf 0 65536 (fun i => BitVec.ofNat 32 (rd (sec 6 + 135200 + 4 * i) 4)),
      accInt := tblOf false 16 (fun n => bit (rd (sec 6 + 397344) 2) n),
      scratch := tblOf 0 (l.d.scr * 1024) (fun i => BitVec.ofNat 8 (rd (sec 7 + i) 1)),
      tags := BitVec.ofNat 64 (rd (sec 8) 8), kicks := [] }
    (readThreads rd l seqNo free).map (fun l =>
      let l := readMons rd l
      { l with
        done := (l.agents.filter (fun a => (l.thr a).st == .exited)).length,
        barkExited := (l.thr Agent.barker).st == .exited })

/-! ### The log -/

/-- One entry of the LOG section: its accesses come back waiting for re-issue, and they raise their counter (R90). -/
def State.readLogEntry (s : State) (c b : Nat) (l : Lot) (rd : Nat → Nat → Nat) (off : Nat) : State × Nat :=
  let w := if rd off 1 = 0xFF then 32 else rd off 1
  let mask := rd (off + 1) 4
  let lanes := (List.range 32).filter (fun i => bit mask i)
  let hdr : VAddr := BitVec.ofNat 80 (rd (off + 5) 10)
  let words := (List.range 3).map (fun i => BitVec.ofNat 32 (rd (off + 15 + 4 * i) 4))
  match decode words with
  | .error _ => (s, off + 32 + 24 * lanes.length)
  | .ok (i, _) =>
    let (op, s) := s.fresh
    let v : View := ⟨⟨c, b, [], hdr, hdr, true, [], 0, false, 0, 0, 0, false⟩, l, []⟩
    let proto := protoFor v op i
    let item := if proto.wideCas then 48 else 24
    let s := (lanes.zipIdx).foldl (fun s e =>
      let (id, s) := s.fresh
      let at' := off + 32 + item * e.2
      let d := rd (at' + 8) 16
      let cas := proto.aop == .cas && (proto.kind == .atom || proto.kind == .red)
      let raw := rd at' 8
      let va := if proto.sp == .l || proto.kind.byPlace then raw else sextN raw 64 80
      let t : LaneId := ⟨c, b, w, e.1⟩
      let a : Acc := { proto with
        id := id, t := t, va := va, data := if cas && !proto.wideCas then d % 2 ^ 64 else d,
        cmp := if proto.wideCas then rd (at' + 32) 16 else if cas then d / 2 ^ 64 else 0,
        phase := .replay ⟨0, 0, 0, va, true, hdr⟩, lim := if w = 32 then 128 else min 128 (16 * (l.warp w).blocks) }
      let after := (s.accs.filter (fun x => x.t == t && mayMeet x a)).map (fun x => x.id)
      { s with accs := s.accs ++ [{ a with after := after }] }) s
    (s.onWarp c b w (fun x => x.bump (if proto.hasResult then 0 else 1)), off + 32 + item * lanes.length)

/-- The handlers' shadows at the end of the LOG section. -/
def State.readShadow (s : State) (c b : Nat) (rd : Nat → Nat → Nat) (off : Nat) : State × Nat :=
  let barker := rd off 2 = 0xFFFF
  let n := if barker then 8 else 4
  let a : Agent := if barker then Agent.barker else ⟨rd off 2 / 32, rd off 2 % 32⟩
  let sh : Shadow := ⟨(List.range 4).map (fun i => BitVec.ofNat 64 (rd (off + 2 + n * i) n)), BitVec.ofNat 8 (rd (off + 2 + 4 * n) 1),
    BitVec.ofNat 80 (rd (off + 4 + 4 * n) 10)⟩
  (s.onThr ⟨c, b, a.w, a.l⟩ (fun t => { t with shadow := some sh }), off + if barker then 48 else 32)

/-- Items of the LOG section: entries up to `shadowsAt`, then the handlers' shadows (R298); the last number is fuel. -/
def State.readLog (s : State) (c b : Nat) (l : Lot) (rd : Nat → Nat → Nat) (off stop shadowsAt : Nat) : Nat → State
  | 0 => s
  | fuel + 1 =>
    if stop ≤ off then s
    else if off < shadowsAt then
      let (s, n) := s.readLogEntry c b l rd off
      State.readLog s c b l rd n stop shadowsAt fuel
    else
      let (s, n) := s.readShadow c b rd off
      State.readLog s c b l rd n stop shadowsAt fuel

/-- Address and header of a restored fault of an access that is kept in the log are those of the thread's oldest entry. -/
def State.readStops (s : State) (c b : Nat) : State :=
  let oldest (a : Agent) : Option Acc := s.accs.find? (fun x => x.t == ⟨c, b, a.w, a.l⟩ && x.phase.isReplay)
  s.onLot c b (fun l => l.allAgents.foldl (fun l a =>
    match (l.thr a).stop, oldest a with
    | some x, some e => if x.replay then l.setThr a { l.thr a with stop := some { x with addr := e.va, hdr := e.hdr } } else l
    | _, _ => l) l)

/-- Reads the log of an area into the state, after its lot is in place. -/
def State.restoreLog (s : State) (c b : Nat) (l : Lot) (rd : Nat → Nat → Nat) : State :=
  let e := sectionAt rd 9
  let t0 := (sectionAt rd 0).1
  let inHandler := (l.agents.filter (fun a => bit (rd (t0 + 32 * a.key + 27) 1) 0)).length
  let barker := l.d.bk && bit (rd ((sectionAt rd 3).1 + 526) 1) 5
  (s.readLog c b l rd e.1 (e.1 + e.2) (e.1 + e.2 - 32 * inHandler - if barker then 48 else 0) (e.2 / 32 + 1)).readStops c b

end Sys2Proof.Machine
end

