-- ==== Sys2Proof/Machine/Place.lean ====
section
/-! DEFINITION. The life of a lot: placement, retirement, cancel at its core, the end FAILED, the watchdog, die loss,
pre-emption, saves and dumps (02_work.md R36 to R39, R45, R46, R49, R50; 11_faults.md R288 to R296, R303, R304). -/

namespace Sys2Proof.Machine

/-! ### What a core has free (R36) -/

/-- The resident lots of a core. -/
def State.lotsOn (s : State) (c : Nat) : List (Nat × Lot) := (List.range 4).filterMap (fun b => (s.lot? c b).map (fun l => (b, l)))

/-- Gangs of a core that no lot holds. -/
def State.freeGangs (s : State) (c : Nat) : List Nat :=
  (List.range 16).filter (fun g => !(s.lotsOn c).any (fun e => e.2.gangs.contains g))

/-- Room for a lot that asks for a number of blocks (R36, R43). -/
def State.room (s : State) (c : Nat) (d : Desc) (blocks : Nat) : Bool :=
  let ls := s.lotsOn c
  let sum (f : Desc → Nat) : Nat := (ls.map (fun e => f e.2.d)).sum
  ls.length < 4 && (d.warps + 3) / 4 ≤ (s.freeGangs c).length && blocks ≤ (s.core c).pool && sum (fun x => x.scr) + d.scr ≤ 256
  && sum (fun x => x.acc) + d.acc ≤ 16 && sum (fun x => x.ops) + d.ops ≤ 32

/-! ### The start of a lot (R37) -/

/-- A new lot: every present thread READY at ENTRY, the barker at ENTRY + BARK. -/
def startLot (x : Launch) (index : Nat) (gangs : List Nat) (seqNo : Nat) : Lot :=
  let d := x.d
  let l : Lot := {
    ctx := x.ctx, launch := x.id, index := index, d := d, nthreads := d.threads, nwarps := d.warps, threads := [], warps := [],
    vregs := [], sregs := [], scratch := [], slotData := [], slotScale := [], slotState := [], acc := [], accInt := [], tags := 0,
    bars := [], dq := [], dqP := 0, kicks := [], done := 0, barkExited := false, phase := .running, firstFault := none,
    firstSeq := 0, nfault := 0, captured := [], saving := false, gangs := gangs }
  let l := l.agents.foldl (fun l a => l.setThr a { Thread.none with st := .ready, pc := d.entry, rng := rngStart a.l, seq := seqNo }) l
  let l := l.setThr Agent.barker { Thread.none with
    st := if d.bk then .ready else .absent, pc := if d.bk then d.entry + BitVec.ofNat 80 d.bark else 0, rng := rngStart 32, seq := seqNo }
  (List.range d.warps).foldl (fun l w => l.setWarp w { Warp.none with pool := d.base }) l

/-! ### Ends of lots (R45, R46, R51) -/

/-- Engine work of a lot that has not completed. -/
def State.engineWork (s : State) (c b : Nat) (l : Lot) : Bool :=
  !l.kicks.isEmpty || s.e.orders.any (fun o => o.core == c && o.bctx == b) || s.e.tileOps.any (fun t => t.core == c && t.bctx == b)

/-- The accesses of a lot. -/
def State.lotAccs (s : State) (c b : Nat) : List Acc := s.accs.filter (fun a => a.t.core == c && a.t.bctx == b)

/-- No thread of the lot holds a slot or waits in its EXIT. -/
def Lot.settled (l : Lot) : Bool :=
  l.allAgents.all (fun a => match (l.thr a).st with
    | .issuing | .exiting _ => false
    | _ => true)

/-- Every thread has left the lot or was stopped. -/
def Lot.ended (l : Lot) : Bool :=
  l.allAgents.all (fun a => match (l.thr a).st with
    | .exited | .stopped | .absent => true
    | _ => false)

/-- The retirement condition of R45. -/
def State.complete (s : State) (c b : Nat) (l : Lot) : Bool :=
  l.done == l.nthreads && (!l.d.bk || l.barkExited) && !s.engineWork c b l

/-- A lot is gone from its core; its resources return (R17, R43). -/
def State.removeLot (s : State) (c b : Nat) : State :=
  match s.lot? c b with
  | none => s
  | some l =>
    let held := (l.warps.filter (fun e => e.1 < 32)).foldl (fun (n : Nat × Nat) e => (n.1 + e.2.held.1, n.2 + e.2.held.2)) (0, 0)
    let s := { s with
      accs := s.accs.filter (fun a => !(a.t.core == c && a.t.bctx == b)),
      fences := s.fences.filter (fun f => !(f.t.core == c && f.t.bctx == b)) }
    let k := s.core c
    let s := s.setCore c { k with
      locks := k.locks.filter (fun x => x.bctx != b), blockQ := k.blockQ.filter (fun r => r.bctx != b),
      batches := l.gangs.foldl (fun t g => Tbl.put [] t g []) k.batches }
    (s.dropLot c b).returnBlocks c held.1 held.2

/-- A lot has retired: its launch and its counter count it (R46, R51). -/
def State.countRetired (s : State) (launch : Nat) : State :=
  match s.launch? launch with
  | none => s
  | some x => (s.setLaunch { x with retired := x.retired + 1 }).addCounter x.ctx x.d.ctr 1

/-! ### Pre-emption: the choice of cores (R293, R294) -/

/-- Priority of a launch; 4 for none. -/
def State.prioOf (s : State) (launch : Nat) : Nat :=
  match s.launch? launch with
  | some x => x.prio
  | none => 4

/-- A vacated core rejoins the sets it left once no lot of the requesting queue is resident or waiting for it. -/
def State.rejoin (s : State) : State :=
  let busy (p : Preempt) (c : Nat) : Bool :=
    (s.lotsOn c).any (fun e => e.2.saving || (match s.launch? e.2.launch with
      | some x => x.queue == p.queue
      | none => false))
    || s.w.launches.any (fun x => x.queue == p.queue && x.offered && !x.removed.contains c && (x.next < x.total || !x.saved.isEmpty || !x.reruns.isEmpty))
  let back := s.w.preempts.flatMap (fun p => p.cores.filter (fun c => !busy p c))
  if back.isEmpty then s
  else { s with w := { s.w with
    launches := s.w.launches.map (fun (x : Launch) => { x with removed := x.removed.filter (fun c => !back.contains c) }),
    preempts := (s.w.preempts.map (fun (p : Preempt) => { p with cores := p.cores.filter (fun c => !back.contains c) })).filter (fun p =>
      p.n != 0 || !p.cores.isEmpty) } }

/-- The order of R293 among the cores that qualify: lowest resident priority, fewest resident warps, lowest number. An
empty core comes first. The resident priority of a core is the highest among its lots (log entry 29). -/
def State.preemptOrder (s : State) (prio : Nat) : List Nat :=
  let held (c : Nat) : Bool := s.w.preempts.any (fun p => p.cores.contains c)
  let cs := (List.range 1024).filter (fun c => !s.coreRetired c && !s.dieRetired (dieOf c) && !held c
    && (s.lotsOn c).all (fun e => prio < s.prioOf e.2.launch))
  let key (c : Nat) : Nat × Nat :=
    let ls := s.lotsOn c
    (4 - (ls.map (fun e => s.prioOf e.2.launch)).foldl min 4, (ls.map (fun e => e.2.nwarps)).sum)
  let le (a b : Nat) : Bool := (key a).1 < (key b).1 || ((key a).1 == (key b).1 && ((key a).2 < (key b).2 || ((key a).2 == (key b).2 && a ≤ b)))
  cs.foldl (fun l c => l.filter (fun x => le x c) ++ [c] ++ l.filter (fun x => !le x c)) []

/-- The lots of a chosen core are to be saved. -/
def State.vacate (s : State) (c : Nat) : State :=
  (List.range 4).foldl (fun s b => s.onLot c b (fun l => { l with saving := true })) s

/-- Requests that wait choose their cores when enough qualify (R293). -/
def State.servePreempts (s : State) : State :=
  s.w.preempts.foldl (fun s p =>
    if p.n = 0 then s
    else
      let cs := s.preemptOrder (s.regF (queueReg p.queue 0) 2 1)
      if cs.length < p.n then s
      else
        let take := cs.take p.n
        let s := { s with w := { s.w with preempts := s.w.preempts.map (fun (x : Preempt) => if x == p then { x with n := 0, cores := x.cores ++ take } else x) } }
        take.foldl (fun s c => s.vacate c) s) s

/-- PREEMPT_REQUEST (R293): a command processor asks for n cores for a queue. -/
def execPreemptRequest (q n : Nat) (s : State) : Out :=
  if n = 0 then .next s
  else .next (State.servePreempts { s with w := { s.w with preempts := s.w.preempts ++ [(⟨q, n, []⟩ : Preempt)] } })

/-- What follows from lots that come and go: cores rejoin, and waiting requests are served (R293, R294). -/
def State.settlePreempts (s : State) : State := s.rejoin.servePreempts

/-! ### Placement (R38, R39) -/

/-- Lots of a launch that a core may be given next: a saved lot, else the lowest unstarted one (R38). -/
inductive NextLot where
  | saved (v : SavedLot)
  | unstarted (index : Nat)
deriving DecidableEq, Repr

/-- The lot that a launch offers a core: of its saved lots the first in the list alone, which holds back the others of the launch on a
core where it does not fit (R38; log entry 30). -/
def Launch.nextLot (x : Launch) : Option NextLot :=
  match x.saved with
  | v :: _ => some (.saved v)
  | [] =>
    match x.reruns with
    | r :: rest => some (.unstarted (rest.foldl min r))
    | [] => if x.next < x.total then some (.unstarted x.next) else none

/-- Blocks that the next lot asks for. -/
def Launch.blocksFor (x : Launch) (n : NextLot) : Nat :=
  match n with
  | .saved v => v.blocks
  | .unstarted _ => x.d.base * x.d.warps

/-- The launch that a core with room serves: highest priority, then first accepted, among the launches whose next lot fits
(R39). That a launch whose next lot does not fit holds back no launch of lower priority is the model's choice (log entry 30). -/
def State.pickLaunch (s : State) (c : Nat) : Option (Launch × NextLot) :=
  let cand := s.w.launches.filterMap (fun x =>
    if !x.offered || x.halted || x.cancelled || x.removed.contains c then none
    else x.nextLot.bind (fun n => if s.room c x.d (x.blocksFor n) then some (x, n) else none))
  match cand with
  | [] => none
  | a :: rest => some (rest.foldl (fun m y => if y.1.prio < m.1.prio || (y.1.prio == m.1.prio && y.1.seq < m.1.seq) then y else m) a)

/-- The die's acquire before the first lot of a launch runs there; a resumed lot acquires always (R180, R189). -/
def State.placeAcquire (s : State) (x : Launch) (c : Nat) (always : Bool) : State :=
  if always || !x.diesRun.contains (dieOf c) then s.scopeAcquire (dieOf c) x.ctx .sys else s

/-- The place of a line's record among the transfers of a unit that reads a region line by line: it has been read. -/
def readMark : Nat := 68

/-- A region of memory is read line by line, each in a window of its bank: it is done when every line has been read (R275). -/
def State.rangeTake (s : State) (w : Waiter) (pa n : Nat) : EngRes × State :=
  let lines := (List.range ((pa % 128 + n + 127) / 128)).map (fun i => (pa / 128 + i) * 128)
  let read (s : State) (p : Nat) : Bool := (s.transfer? w (p / 128)).any (fun t => t.ch == readMark)
  let r := lines.foldl (fun (r : EngRes × State) p =>
    let s := r.2
    match r.1 with
    | .bad _ _ => r
    | _ =>
      if read s p then r
      else match s.ioGate w p true with
      | .ok _ =>
        let s := s.bankServed p w
        let s : State := { s with p := { s.p with transfers := s.p.transfers.filter (fun t => !(t.who == w && t.line == p / 128)) } }
        (r.1, s.addTransfer ⟨w, p / 128, readMark, 0, 0, 0, 0, none, none, true, some true⟩)
      | .wait => (.wait, s.wayWait w w.die p 0 128)
      | .bad code detail => (.bad code detail, s)) (.ok 0, s)
  match r with
  | (.wait, s) => (.wait, s)
  | (res, s) => (res, s.endTransfers w)

/-- Reads an area: a function from offset and length. -/
def State.areaReader (s : State) (pa off n : Nat) : Nat := s.homeNat (pa + off) n

/-- After a restore or a load: block requests are queued again, the conditions of parks are evaluated, and a thread that came back
READY takes the fault that it has still to take (R90, R286). -/
def State.reenter (s : State) (c b : Nat) : State :=
  match s.lot? c b with
  | none => s
  | some l =>
    let ps := l.agents.filterMap (fun a => match (l.thr a).st with
      | .parked (.blocks n) => some (a.w, n, (l.thr a).pc, a)
      | _ => none)
    let groups := (ps.map (fun e => (e.1, e.2.1, e.2.2.1))).eraseDups
    let reqs := groups.map (fun g => (⟨b, g.1, g.2.1, g.2.2, (ps.filter (fun e => (e.1, e.2.1, e.2.2.1) == g)).map (fun e => e.2.2.2)⟩ : BlockReq))
    let s := s.setCore c { s.core c with blockQ := (s.core c).blockQ ++ reqs }
    let here (r : ChildReq) : Bool := r.parent == l.launch && r.t.core == 4096 && r.lanes.any (fun a => match (l.thr a).st with
      | .parked (.launch _ id) => id == r.id
      | _ => false)
    let s := { s with w := { s.w with childReqs := s.w.childReqs.map (fun (r : ChildReq) =>
      if here r then { r with t := ⟨c, b, r.t.w, r.t.l⟩, after := [] } else r) } }
    (((((s.serveQueue c).wakeTags c b).recheckLot c b).dqRoom c b)).takeStops c b l.allAgents

/-- A saved lot whose area is bad: nothing is placed, the lot ends FAILED (R296). -/
def State.restoreFails (s : State) (x : Launch) (v : SavedLot) : State :=
  let s := s.setLaunch { x with saved := x.saved.drop 1 }
  let s := (s.freeArea x.ctx v.area).writeRec x.ctx (x.outcome 0xFFFF v.index v.index 0 0x30 3)
  s.countRetired x.id

/-- Places the next lot of a launch on a core; which free gangs it gets is open, so a free value chooses (log entry 30). -/
def State.placeLot (s : State) (c : Nat) (x : Launch) (n : NextLot) : State :=
  match (List.range 4).find? (fun b => (s.lot? c b).isNone) with
  | none => s
  | some b =>
    let (v, s) := s.freeVal
    let free := s.freeGangs c
    let turn := v % (free.length + 1)
    let gangs := (free.drop turn ++ free.take turn).take ((x.d.warps + 3) / 4)
    let (seqNo, s) := s.fresh
    let put (s : State) (x' : Launch) (l : Lot) (always : Bool) : State :=
      let s := s.placeAcquire x c always
      let dies := if x.diesRun.contains (dieOf c) then x.diesRun else x.diesRun ++ [dieOf c]
      let s := s.setLaunch { x' with diesRun := dies }
      let k := s.core c
      (s.setCore c { k with pool := k.pool - x.blocksFor n }).setLot c b l
    match n with
    | .unstarted i =>
      let x' := if x.reruns.contains i then { x with reruns := x.reruns.filter (fun r => r != i) } else { x with next := x.next + 1 }
      put s x' (startLot x i gangs seqNo) false
    | .saved sv =>
      match s.rangeTake (.area sv.area) sv.area sv.size with
      | (.wait, s) => s
      | (.bad _ _, s) => s.restoreFails x sv
      | (.ok _, s) =>
        let (lost, s) := s.freeVal
        let rd := s.areaReader sv.area
        let l0 := { startLot x sv.index gangs seqNo with threads := [] }
        match readLot rd l0 sv.size seqNo lost with
        | none => s.restoreFails x sv
        | some l =>
          let s := put s { x with saved := x.saved.drop 1 } l true
          let s := s.freeArea x.ctx sv.area
          (s.restoreLog c b l rd).reenter c b

/-- LOT_PLACEMENT (R38, R39, R324): once the module is READY, a core with room is given a saved lot or the next unstarted one. -/
def execLotPlacement (core : Nat) (s : State) : Out :=
  let s := s.rejoin
  if 1024 ≤ core || s.coreRetired core || s.dieRetired (dieOf core) || (s.lotsOn core).any (fun e => e.2.saving) || !s.isReady then .next s
  else match s.pickLaunch core with
  | none => .next s
  | some (x, n) => .next (s.placeLot core x n)

/-! ### Retirement (R45, R46, R50, R51) -/

/-- Discards the accesses of a lot that await a re-issue (R287, R288). -/
def State.discardLog (s : State) (c b : Nat) : State :=
  ((s.lotAccs c b).filter (fun a => a.phase.isReplay)).foldl (fun s a => s.endAcc a) s

/-- The lot's release at PKG scope, when the banks of its write-backs let it, and its retirement; a cancelled lot writes its
OUTCOME record (R46, R51, R275). -/
def State.retire (s : State) (c b : Nat) (l : Lot) : State :=
  match s.releaseScope c l.ctx .pkg with
  | (false, s) => s
  | (true, s) =>
  let s := (s.removeLot c b).countRetired l.launch
  let s := if l.phase = .cancelling then s.writeRec l.ctx { lotRec c l 2 0 with outcome := 1 } else s
  s.settlePreempts

/-- LOT_RETIREMENT (R45, R46, R49): a completed lot; a cancelled one whose threads have stopped and whose accesses and
orders have ended; one that has ended FAILED. -/
def execLotRetirement (core bctx : Nat) (s : State) : Out :=
  match s.lot? core bctx with
  | none => .next s
  | some l =>
    match l.phase with
    | .running => .next (if s.complete core bctx l then s.retire core bctx l else s)
    | .draining => .next (s.retire core bctx l)
    | .cancelling =>
      if !l.ended || s.engineWork core bctx l then .next s
      else if (s.lotAccs core bctx).any (fun a => a.phase.isReplay) then .next (s.discardLog core bctx)
      else .next (if (s.lotAccs core bctx).isEmpty then s.retire core bctx l else s)
    | _ => .next s

/-- A cancel reaches a lot (R49, R50): a lot whose retirement condition holds is COMPLETED all the same. -/
def State.cancelLot (s : State) (c b : Nat) (l : Lot) : State :=
  match l.phase with
  | .running =>
    if s.complete c b l then s
    else (s.onLot c b (fun l => { l.stopAll with phase := .cancelling, saving := false })).withdraw c b
  | _ => s

/-- CANCEL_REACHES_CORE (R49): not while the dump of a lot there is due (log entry 31). -/
def execCancelReachesCore (core : Nat) (s : State) : Out :=
  match s.w.cancels.find? (fun e => e.2 == core) with
  | none => .next s
  | some e =>
    let ls := (s.lotsOn core).filter (fun x => x.2.launch == e.1)
    if ls.any (fun x => x.2.phase == .halted) then .next s
    else
      let s := { s with w := { s.w with cancels := s.w.cancels.filter (fun x => x != e) } }
      .next (ls.foldl (fun s x => s.cancelLot core x.1 x.2) s)

/-! ### The end FAILED, and the watchdog (R288, R289) -/

/-- LOT_FAIL_DRAIN_END (R288): when the drain has ended, the log is discarded and the OUTCOME record is written. -/
def execLotFailDrainEnd (core bctx : Nat) (s : State) : Out :=
  match s.lot? core bctx with
  | none => .next s
  | some l =>
    match l.phase with
    | .failing code =>
      if !l.ended || s.engineWork core bctx l then .next s
      else if (s.lotAccs core bctx).any (fun a => a.phase.isReplay) then .next (s.discardLog core bctx)
      else if !(s.lotAccs core bctx).isEmpty then .next s
      else
        let s := s.writeRec l.ctx { lotRec core l 2 code with flags := 16, outcome := 3 }
        .next (s.onLot core bctx (fun l => { l with phase := .draining }))
    | _ => .next s

/-- Is every thread of a lot in DEBUG, or gone? -/
def Lot.allDebug (l : Lot) : Bool :=
  l.allAgents.all (fun a => match (l.thr a).st with
    | .parked .debug | .exited | .stopped | .absent => true
    | _ => false)

/-- WATCHDOG_EXPIRY (R289): the limit of WDLIM µs has passed without a clause or an engine operation of the lot; when it
has is not modelled (log entry 3). The lot ends FAILED, or its launch is halted for a dump, as group 5 says (R280; log
entry 69). -/
def execWatchdogExpiry (core bctx : Nat) (s : State) : Out :=
  match s.lot? core bctx with
  | none => .next s
  | some l =>
    if l.phase != .running || s.fact l.ctx 47 32 = 0 || l.allDebug || (s.core core).halted || (s.haltingLot l.launch).isSome then .next s
    else if s.factAction l.ctx 5 = 2 then
      let cs := s.ctxS l.ctx
      let r := lotRec core l 1 0x40
      .next ((s.writeRec l.ctx r).haltLaunch core bctx Agent.barker l.launch { r with flags := if cs.lost then 8 else 0 } cs.seq.toNat [])
    else .next ((s.writeRec l.ctx (lotRec core l 1 0x40)).failLot core bctx 0x40 [])

/-! ### Die loss (R292) -/

/-- The cache lines of a lost die, with the stores on their way in it: a byte that it wrote and that its home does not have is
written there or lost, as a free value decides. -/
def State.loseCaches (s : State) (die : Nat) : State :=
  let s := (s.m.early.filter (fun e => dieOf e.core == die)).foldl (fun s e => s.enterDie e) s
  (s.linesOf die (fun _ _ => true)).foldl (fun s line =>
    match s.dieLine? die line with
    | none => s
    | some d =>
      let (v, m) := d.current
      let (f, s) := s.freeVal
      let s := s.writeHomeLine (.line die line) line v (m &&& (f % 2 ^ 128))
      s.setDieLine die line { d with copies := [] }) s

/-- The buddy writes every mirrored line of a lost die to its home; answers how many. A buddy that is itself lost or retired, or
has no mirror area any more, has none to write (R291). -/
def State.flushMirror (s : State) (die : Nat) : Nat × State :=
  let here := !s.dieRetired (die ^^^ 1) && s.regF (mirrReg (die ^^^ 1)) 3 0 != 0
  let ms := if here then s.m.mirror.filter (fun x => x.die == die) else []
  let s := ms.foldl (fun s x => s.writeHomeLine (.line die x.line) x.line x.data.toNat x.mask.toNat) s
  (ms.length, { s with m := { s.m with mirror := s.m.mirror.filter (fun x => x.die != die) } })

/-- A lot that was lost with its die (R292, R295). One whose OUTCOME record has been written gets no second one (R51); one that
ends FAILED or whose launch is cancelled is not run again (R50; log entry 31). -/
def State.loseLot (s : State) (e : Nat × Nat × Lot) : State :=
  let l := e.2.2
  let ends := l.ending || (match s.launch? l.launch with
    | some x => x.cancelled
    | none => true)
  let rerun := s.fact l.ctx 19 19 == 1 && !ends
  let s := if l.phase = .draining then s
    else s.writeRec l.ctx { lotRec e.1 l 2 0x31 with outcome := if rerun then 5 else 3 }
  let s := { s with
    w := { s.w with childReqs := s.w.childReqs.filter (fun r => !(r.t.core == e.1 && r.t.bctx == e.2.1)) },
    p := { s.p with transfers := s.p.transfers.filter (fun t => t.src != dieOf e.1) },
    e := { s.e with
      orders := s.e.orders.filter (fun o => !(o.core == e.1 && o.bctx == e.2.1)),
      tileOps := s.e.tileOps.filter (fun t => !(t.core == e.1 && t.bctx == e.2.1)) } }
  let s := s.removeLot e.1 e.2.1
  if rerun then
    match s.launch? l.launch with
    | some x => s.setLaunch { x with reruns := x.reruns ++ [l.index] }
    | none => s
  else s.countRetired l.launch

/-- DIE_LOST (R292); monitors on the lines of its vaults are lost with them (R84). -/
def State.loseDie (s : State) (die : Nat) : State :=
  if s.dieRetired die || 64 ≤ die then s
  else
    let ls := s.lotList.filter (fun e => dieOf e.1 == die)
    let (n, s) := s.flushMirror die
    let s := s.loseCaches die
    let s := s.retireDie die
    let s := { s with
      m := { s.m with mirror := s.m.mirror.filter (fun x => x.die != die ^^^ 1) },
      p := { s.p with lost := Tbl.put false s.p.lost die true },
      running := s.running.filter (fun e => dieOf (e.1 / 5) != die),
      w := { s.w with
        cancels := s.w.cancels.filter (fun e => dieOf e.2 != die),
        swis := s.w.swis.filter (fun x => dieOf x.t.core != die),
        preempts := s.w.preempts.map (fun (p : Preempt) => { p with cores := p.cores.filter (fun c => dieOf c != die) }) } }
    let s := ((ls.map (fun e => e.2.2.ctx)).eraseDups).foldl (fun s ctx => s.writeRec ctx
      { kind := 7, code := 0, flags := 0, core := 0xFFFF, desc := 0, lot := 0, lotend := 0, warp := 0xFF, tag := 0, outcome := 0,
        detail := die, lanes := BitVec.ofNat 32 n, pc := 0, addr := 0 }) s
    let s := s.loseMonitors (fun _ line => region (line * 128) == 1 && vaultOf (line * 128) / 16 == die)
    (ls.foldl (fun s e => s.loseLot e) s).settlePreempts

/-- DIE_PROBE (R292): the Market Master's probe of a core die, answered or missed; three missed in a row lose the die. -/
def execDieProbe (die : Nat) (answered : Bool) (s : State) : Out :=
  let n := if answered then 0 else Tbl.get 0 s.p.probes die + 1
  let s := { s with p := { s.p with probes := Tbl.put 0 s.p.probes die n } }
  .next (if 3 ≤ n then s.loseDie die else s)

/-- HOME_WAIT_REPORT (R292): a home has waited 20 µs for a die, and the next probe is answered or fails. -/
def execHomeWaitReport (die : Nat) (answered : Bool) (s : State) : Out :=
  .next (if answered then { s with p := { s.p with probes := Tbl.put 0 s.p.probes die 0 } } else s.loseDie die)

/-! ### Areas and images (R294, R297, R303) -/

/-- The save pool of a context: its base and its size (R281). -/
def State.savePool (s : State) (ctx : Nat) : Nat × Nat :=
  (s.regF (ctxReg ctx 0x38) 51 20 * 2 ^ 20, 2 ^ min 20 (s.regF (ctxReg ctx 0x38) 4 0) * 2 ^ 20)

/-- The lowest place of a pool that holds n bytes, at a 64-byte boundary beside the areas in use (log entry 32). -/
def placeArea (base size n : Nat) (used : List (Nat × Nat)) : Option Nat :=
  let up (x : Nat) : Nat := (x + 63) / 64 * 64
  let starts := base :: used.map (fun u => up (u.1 + u.2))
  let ok := starts.filter (fun p => base ≤ p && p + n ≤ base + size && used.all (fun u => !overlaps p n u.1 u.2))
  match ok with
  | [] => none
  | p :: rest => some (rest.foldl min p)

/-- How the writing of an image ends. -/
inductive ImgRes where
  | done | wait
  | failed (code : Nat)
deriving DecidableEq, Repr

/-- Writes an image line by line; a refused line ends it, and a line whose bank or port makes it wait holds up the rest (R275).
Lines that hold their bytes of the image are done. -/
def State.writeImage (s : State) (w : Waiter) (pa : Nat) (bs : List Byte) : Nat → ImgRes × State
  | 0 => (.done, s)
  | fuel + 1 =>
    match bs with
    | [] => (.done, s)
    | _ =>
      let n := min bs.length (128 - pa % 128)
      let v := ofBytes (bs.take n)
      match s.ioGate w pa false with
      | .bad code _ => (.failed code, s)
      | .wait =>
        if region pa != 2 && s.homeNat pa n == v then State.writeImage s w (pa + n) (bs.drop n) fuel
        else (.wait, s.wayWait w w.die pa n 0)
      | .ok _ =>
        if s.homeNat pa n == v then State.writeImage s w (pa + n) (bs.drop n) fuel
        else State.writeImage ((s.bankServed pa w).homeWrite pa n v) w (pa + n) (bs.drop n) fuel

/-- Nothing of a lot is in flight but accesses that await a re-issue (R90, R294, R303). -/
def State.drained (s : State) (c b : Nat) (l : Lot) : Bool :=
  l.settled && !s.engineWork c b l && (s.lotAccs c b).all (fun a => a.phase.isReplay)

/-- May a lot be saved now: drained, no fence, no blocks on their way back, not complete, and no thread READY that has still to
enter its EXIT again? A parked thread keeps the fault that it has still to take (R90, R286). -/
def State.saveReady (s : State) (c b : Nat) (l : Lot) : Bool :=
  s.drained c b l && l.phase == .running && !s.fences.any (fun f => f.t.core == c && f.t.bctx == b)
  && l.warps.all (fun e => e.2.backs.isEmpty) && !s.complete c b l
  && l.allAgents.all (fun a => (l.thr a).exitAfter.isNone || (l.thr a).shadow.isSome || (l.thr a).st != .ready)

/-- LOT_SAVE (R294): a lot of a chosen core goes to its context's save pool and joins its launch's saved list; the core
leaves the launch's set. Its die first writes the context's dirty lines back (R180, log entry 33). A lot of a cancelled launch is
not saved: the cancel stops it there (R49, R51). -/
def execLotSave (core bctx : Nat) (s : State) : Out :=
  match s.lot? core bctx with
  | none => .next s
  | some l =>
    let s := if l.saving then s.deferHeld core bctx else s
    if !l.saving || !s.saveReady core bctx l then .next s
    else
      let image := s.saveImage core bctx l false
      let (base, size) := s.savePool l.ctx
      let cs := s.ctxS l.ctx
      match placeArea base size image.length cs.areas, s.launch? l.launch with
      | some pa, some x =>
        let (done, s) := s.releaseScope core l.ctx .pkg
        if x.cancelled then .next (s.cancelLot core bctx l)
        else if !done then .next s
        else
        match s.writeImage (.place core bctx) pa image image.length with
        | (.wait, t) => .next t
        | (.done, t) =>
          let t := t.setCtxS l.ctx { t.ctxS l.ctx with areas := cs.areas ++ [(pa, image.length)] }
          let blocks := (l.warps.map (fun e => e.2.blocks)).sum
          let t := t.setLaunch { x with
            saved := x.saved ++ [⟨l.index, pa, image.length, blocks⟩], removed := if x.removed.contains core then x.removed else x.removed ++ [core] }
          let t := { t with w := { t.w with childReqs := t.w.childReqs.map (fun (r : ChildReq) =>
            if r.t.core == core && r.t.bctx == bctx then { r with t := ⟨4096, 0, r.t.w, r.t.l⟩ } else r) } }
          .next ((t.endTransfers (.place core bctx)).removeLot core bctx).settlePreempts
        | (.failed _, _) => .next (s.endTransfers (.place core bctx))
      | _, _ => .next s

/-! ### Core dumps (R303, R304) -/

/-- The DUMP record (R303, R481). -/
def dumpRec (c : Nat) (l : Lot) (code detail addr : Nat) : FRec :=
  let first := l.firstFault.getD (lotRec c l 1 0)
  { lotRec c l 8 (if code = 0 then first.code else code) with
    flags := if addr = 0 then 0 else 1, warp := first.warp, detail := detail, addr := addr }

/-- CORE_DUMP_WRITE (R303, R304): the dump of the faulting lot, when it has drained. -/
def execCoreDumpWrite (core bctx : Nat) (s : State) : Out :=
  match s.lot? core bctx with
  | none => .next s
  | some l =>
    let s := if l.phase == .halted then s.deferHeld core bctx else s
    if l.phase != .halted || !s.drained core bctx l then .next s
    else
      let resume (s : State) : State := (s.endTransfers (.place core bctx)).onLot core bctx (fun l => { l with phase := .running })
      let image := s.saveImage core bctx l true
      let (base, size) := s.savePool l.ctx
      let cs := s.ctxS l.ctx
      match placeArea base size image.length cs.areas with
      | none => .next (resume (s.writeRec l.ctx (dumpRec core l 0 1 0)))
      | some pa =>
        match s.writeImage (.place core bctx) pa image image.length with
        | (.wait, t) => .next t
        | (.done, t) =>
          let t := t.setCtxS l.ctx { t.ctxS l.ctx with areas := cs.areas ++ [(pa, image.length)] }
          .next (resume (t.writeRec l.ctx (dumpRec core l 0 0 pa)))
        | (.failed code, t) =>
          let t := t.setCtxS l.ctx { t.ctxS l.ctx with areas := cs.areas ++ [(pa, image.length)] }
          let t := match t.ioGate (.place core bctx) (pa + 0xE8) false with
            | .ok _ => t.homeWrite (pa + 0xE8) 1 1
            | _ => t
          .next (resume (t.writeRec l.ctx (dumpRec core l code 1 pa)))

end Sys2Proof.Machine
end

