-- ==== Sys2Proof/Machine/Debug.lean ====
section
/-! DEFINITION. The debug commands of a core (11_faults.md R300 to R303). -/

namespace Sys2Proof.Machine

/-- Fields of a DBGCMD write: LOT, WARP, LANE, SET (R301). -/
structure DbgTarget where
  lot : Nat
  w : Nat
  lane : Nat
  set : Nat
deriving DecidableEq, Repr

def dbgTarget (v : Word64) : DbgTarget := ⟨bits v.toNat 4 3, bits v.toNat 9 5, bits v.toNat 14 10, bits v.toNat 16 15⟩

/-- A refused command sets ERR and changes nothing else (R301). -/
def State.dbgRefuse (s : State) (c : Nat) : State := s.setRegF (dbgReg c 0x08) 1 1 1

/-- Does the target name a lot, a warp of it and a present lane, as its SET asks (R301)? -/
def State.dbgNames (s : State) (c : Nat) (t : DbgTarget) : Bool :=
  t.set == 3 || (match s.lot? c t.lot with
    | none => false
    | some l => (2 ≤ t.set || t.w < l.nwarps) && (t.set != 0 || t.w * 32 + t.lane < l.nthreads))

/-- Is an agent of a context in the set? -/
def DbgTarget.has (t : DbgTarget) (b : Nat) (a : Agent) : Bool :=
  match t.set with
  | 0 => b == t.lot && a == ⟨t.w, t.lane⟩
  | 1 => b == t.lot && a.w == t.w
  | 2 => b == t.lot
  | _ => true

/-- Does the set reach a context? -/
def DbgTarget.reaches (t : DbgTarget) (b : Nat) : Bool := t.set == 3 || b == t.lot

/-- DBGCMD HALT (R300, R301): the set's threads park DEBUG at run boundaries; SET 3 halts the core's slots. -/
def execDbgcmdHalt (core : Nat) (v : Word64) (s : State) : Out :=
  let t := dbgTarget v
  if !s.dbgNames core t then .next (s.dbgRefuse core)
  else
    let pc : VAddr := match s.lot? core t.lot with
      | some l => (l.thr ⟨t.w, t.lane⟩).pc
      | none => 0
    let s := s.setDbgStop core t.lot ⟨t.w, t.lane⟩ 0 pc
    if t.set = 3 then .next (s.debugStopCore core)
    else .next (s.onLot core t.lot (fun l => l.debugStopAll (fun a => t.has t.lot a)))

/-- The threads of a set that stand in DEBUG go on: the logged accesses of those outside a handler are issued again, and a thread
whose set has such accesses waits in DEBUG until they have ended (R287, R303, R484). Stops that wait for a wake are withdrawn. -/
def State.dbgGo (s : State) (c : Nat) (t : DbgTarget) (stepping : Bool) : State :=
  let s := s.setCore c { s.core c with halted := false }
  (s.lotsOn c).foldl (fun s e =>
    let as := e.2.allAgents.filter (fun a => t.has e.1 a)
    let stopped := as.filter (fun a => (e.2.thr a).st == .parked .debug)
    let outside (a : Agent) : Bool := as.contains a && (e.2.thr a).shadow.isNone
    let again := (s.accs.filter (fun x => x.t.core == c && x.t.bctx == e.1 && outside (laneAgent x.t) && x.phase.isReplay)).map (fun x => x.id)
      ++ (as.flatMap (fun a => (e.2.thr a).resume)).filter (fun i => s.reissued i)
    let s := (as.filter outside).foldl (fun s a => s.replayAccs c e.1 a) s
    let s := s.onLot c e.1 (fun l => as.foldl (fun l a => l.setThr a { l.thr a with
      dbgPend := false,
      stepping := if stopped.contains a then stepping else (l.thr a).stepping,
      going := stopped.contains a,
      resume := if stopped.contains a then again else [] }) l)
    if again.isEmpty then s.wakeAll c e.1 stopped else s) s

/-- Placement of a halted launch goes on once none of its lots has a debug stop (R303, log entry 34). -/
def State.unhaltLaunches (s : State) : State :=
  let stopped (id : Nat) : Bool := s.lotList.any (fun e => e.2.2.launch == id && (e.2.2.phase == .halted
    || e.2.2.allAgents.any (fun a => ((e.2.2.thr a).st == .parked .debug && !(e.2.2.thr a).going) || (e.2.2.thr a).dbgPend)))
  { s with w := { s.w with launches := s.w.launches.map (fun (x : Launch) => if x.halted && !stopped x.id then { x with halted := false } else x) } }

/-- DBGCMD RESUME (R301, R303): the set's DEBUG threads become READY once their logged accesses have been issued again and have
ended, and stops that wait for a wake are withdrawn. -/
def execDbgcmdResume (core : Nat) (v : Word64) (s : State) : Out :=
  let t := dbgTarget v
  if !s.dbgNames core t then .next (s.dbgRefuse core)
  else
    .next (s.dbgGo core t false).unhaltLaunches

/-- DBGCMD STEP (R302): each DEBUG thread of the set executes exactly one clause and parks DEBUG again. -/
def execDbgcmdStep (core : Nat) (v : Word64) (s : State) : Out :=
  let t := dbgTarget v
  if !s.dbgNames core t || (s.lotsOn core).any (fun e => t.reaches e.1 && !e.2.allDebug) then .next (s.dbgRefuse core)
  else
    .next (s.dbgGo core t true)

/-- DBGCMD DUMP (R301): a dump of the target lot at DBGADDR; nothing else changes. A refused line ends it, with STATUS 1; a line
whose bank or port makes it wait holds up the rest (R275, R316). -/
def execDbgcmdDump (core : Nat) (v : Word64) (s : State) : Out :=
  let t := dbgTarget v
  let w : Waiter := .place core t.lot
  let ended (s : State) : State := (s.inputDone (.dbgcmdDump core v)).endTransfers w
  match s.lot? core t.lot with
  | none => .next (ended (s.dbgRefuse core))
  | some l =>
    if !s.dbgNames core t || !l.allDebug then .next (ended (s.dbgRefuse core))
    else
      let image := s.saveImage core t.lot l true
      let pa := s.regF (dbgReg core 0x20) 51 0
      match s.writeImage w pa image image.length with
      | (.done, s) => .next (ended s)
      | (.wait, s) => .next (s.again (.dbgcmdDump core v) w)
      | (.failed _, s) => match s.ioGate w (pa + 0xE8) false with
        | .ok _ => .next (ended (s.homeWrite (pa + 0xE8) 1 1))
        | _ => .next (ended s)

/-- DBGCMD LOAD (R301): the image at DBGADDR replaces the state of the stopped lot. Its blocks are taken from the pool;
where the pool lacks them the command is refused (log entry 34). -/
def execDbgcmdLoad (core : Nat) (v : Word64) (s : State) : Out :=
  let t := dbgTarget v
  let w : Waiter := .place core t.lot
  let ended (s : State) : State := s.inputDone (.dbgcmdLoad core v)
  match s.lot? core t.lot with
  | none => .next (ended (s.dbgRefuse core))
  | some l =>
    let pa := s.regF (dbgReg core 0x20) 51 0
    let rd := s.areaReader pa
    let ends := (List.range 11).map (fun k => (sectionAt rd k).1 + (sectionAt rd k).2)
    let size := ends.foldl max 256
    if !s.dbgNames core t || !l.allDebug || 2 ^ 24 ≤ size then .next (ended (s.dbgRefuse core))
    else match s.rangeTake w pa size with
    | (.wait, s) => .next (s.again (.dbgcmdLoad core v) w)
    | (.bad _ _, s) => .next (ended (s.dbgRefuse core))
    | (.ok _, s) =>
      let s := ended s
      let (seqNo, s) := s.fresh
      let (lost, s) := s.freeVal
      match readLot rd l size seqNo lost with
      | none => .next (s.dbgRefuse core)
      | some l' =>
        let held := (l.warps.filter (fun e => e.1 < 32)).foldl (fun (n : Nat × Nat) e => (n.1 + e.2.held.1, n.2 + e.2.held.2)) (0, 0)
        let want := (l'.warps.map (fun e => e.2.blocks)).sum
        let k := s.core core
        if k.pool + held.1 < want then .next (s.dbgRefuse core)
        else
          let s := s.setCore core { k with
            pool := k.pool + held.1 - want, reserve := k.reserve + held.2, blockQ := k.blockQ.filter (fun r => r.bctx != t.lot) }
          let s := { s with accs := s.accs.filter (fun a => !(a.t.core == core && a.t.bctx == t.lot && a.phase.isReplay)) }
          .next (((s.setLot core t.lot l').restoreLog core t.lot l' rd).reenter core t.lot)

end Sys2Proof.Machine
end

