-- ==== Sys2Proof/Machine/Start.lean ====
section
/-! DEFINITION. Phases of the start and what a reset leaves (00_scope.md R9; 13_platform.md R324, R325), and the monitors of lines that are
retired (03_issue.md R84). -/

namespace Sys2Proof.Machine

/-! ### Reset (R9, R324, R325) -/

/-- The module after a reset: every register and table at its reset value, but for what is kept: the retirement map and the
rollback fuse, and through a warm reset ATTEMPT, REASON and the contents of the module's memory (log entry 38). What has been
sent to the outside, the schedule and the counters of identifiers and free values belong to the model. -/
def State.afterReset (s : State) (power : Bool) : State :=
  { State.reset with
    agenda := s.agenda, nextId := s.nextId, free := s.free,
    dev := if power then [] else Tbl.put none [] startstatReg (some (BitVec.ofNat 64
      (s.regF startstatReg 5 4 * 2 ^ 4 + s.regF startstatReg 15 8 * 2 ^ 8))),
    m := { MemS.reset with
      mem := if power then s.m.mem.filter (fun e => region e.1 == 2) else s.m.mem,
      poison := if power then [] else s.m.poison.filter (fun e => e.1 < 2 ^ 60) },
    p := { LinkPlatS.reset with
      lost := s.p.lost, retmap := s.p.retmap, out := s.p.out, plat := { Platform.none with rollback := s.p.plat.rollback } } }

/-- STARTSTAT.PHASE. -/
def State.phase (s : State) : Nat := s.regF startstatReg 3 0

def State.setPhase (s : State) (n : Nat) : State := s.setRegF startstatReg 3 0 n

/-- A start fails (R325): REASON, ATTEMPT and a warm reset; the start that follows is the event WARM_RESET. -/
def State.failStart (s : State) (code : Nat) : State :=
  let s := s.setRegF startstatReg 15 8 code
  (s.setRegF startstatReg 5 4 (min 3 (s.regF startstatReg 5 4 + 1))).afterReset false

/-- READY (R324, R325, R331). -/
def State.ready (s : State) : State :=
  let s := (s.setPhase 7).setRegF startstatReg 5 4 0
  { s with p := { s.p with plat := { s.p.plat with rollback := max s.p.plat.rollback s.p.plat.version } } }

/-- Step 6 ends in READY when a port is UP, and fails when none is left that trains (R324). -/
def State.checkPorts (s : State) : State :=
  let st (p : Nat) : Nat := s.regF (hlstatReg p) 1 0
  if s.phase != 6 then s
  else if st 0 = 2 || st 1 = 2 then s.ready
  else if st 0 = 0 && st 1 = 0 then s.failStart 0x07
  else s

/-! ### Retired lines (R28, R84) -/

/-- Does a line lie in a retired vault, die or channel? -/
def State.lineRetired (s : State) (line : Nat) : Bool :=
  match region (line * 128) with
  | 0 => s.channelRetired (lineStack line) (lineChannel line)
  | 1 => s.vaultRetired (vaultOf (line * 128)) || s.dieRetired (vaultDie (line * 128))
  | _ => false

/-- A monitor on a line that is retired is lost (R84). -/
def State.loseRetired (s : State) : State := s.loseMonitors (fun _ line => s.lineRetired line)

end Sys2Proof.Machine
end

