-- ==== Sys2Proof/Machine/Links.lean ====
section
/-! DEFINITION. Links: the routing register and wavelengths of the memory plane, the die plane with its tokens and packets,
the host link, and the slot fabric (12_links.md R305 to R322). -/

namespace Sys2Proof.Machine

/-! ### The memory plane (R305 to R309) -/

/-- Field of MPSTAT that counts the entries of a mode. -/
def State.countMode (s : State) (die mode : Nat) (up : Bool) : State :=
  if mode = 0 then s
  else
    let lo := 8 * (mode - 1)
    let n := s.regF (mpstatReg die) (lo + 7) lo
    s.setRegF (mpstatReg die) (lo + 7) lo (if up then n + 1 else n - 1)

def State.countVia (s : State) (via : Nat) (up : Bool) : State :=
  let n := s.regF (mpstatReg via) 31 24
  s.setRegF (mpstatReg via) 31 24 (if up then n + 1 else n - 1)

/-- The entry of a pair in the ROUTE block of its die (R305). -/
def State.writeEntry (s : State) (die stack mode via : Nat) : State :=
  let lo := 8 * (stack % 8)
  s.setRegF (routeReg die (stack / 8)) (lo + 7) lo (mode + 4 * via)

/-- Writes an entry and updates MPSTAT (R308, R309). -/
def State.setRoute (s : State) (die stack mode via : Nat) : State :=
  let old := s.routeMode die stack
  let s := if old = 2 then s.countVia (s.routeVia die stack) false else s
  let s := s.countMode die old false
  let s := s.writeEntry die stack mode via
  let s := (s.countMode die mode true).bumpReg (mpstatReg die) 47 32 1
  if mode = 2 then s.countVia via true else s

/-- Writes an entry and updates MPSTAT (R308, R309); what was due for the pair is done. -/
def State.putRoute (s : State) (die stack mode via : Nat) : State :=
  let s := s.setRoute die stack mode via
  { s with p := { s.p with routeDue := Tbl.put none s.p.routeDue (die * 32 + stack) none } }

/-- A wavelength is lost and reported (R306, R309). -/
def State.loseWavelength (s : State) (die stack : Nat) (toStack : Bool) (wl : Nat) : State :=
  if 64 ≤ die || 32 ≤ stack || 2 ≤ wl || s.wlDown die stack toStack wl then s
  else
    let s := { s with p := { s.p with wlLost := Tbl.put false s.p.wlLost (wlKey die stack toStack wl) true } }
    s.bumpReg (mpstatReg die) 63 48 1

/-- Does a pair's entry serve the wavelengths that it has left? -/
def State.routeKeeps (s : State) (die stack : Nat) : Bool :=
  let (mode, via) := s.routeWanted die stack
  mode = s.routeMode die stack && (mode != 2 || via = s.routeVia die stack || s.relayOk die stack (s.routeVia die stack))

/-- A change of a pair's entry stands out: its new accesses are held from now on (R308). `n` is 0 for the entry that the lost
wavelengths ask for, else one more than the entry that the Market Master writes. -/
def State.dueRoute (s : State) (die stack n : Nat) : State :=
  { s with p := { s.p with routeDue := Tbl.put none s.p.routeDue (die * 32 + stack) (some n) } }

/-- The wavelengths of a pair have changed: a change of its entry is due, unless the entry serves them. -/
def State.reroute (s : State) (die stack : Nat) : State :=
  if 64 ≤ die || 32 ≤ stack || s.routeKeeps die stack then s else s.dueRoute die stack 0

/-- WAVELENGTH_LOSS (R306, R308): the loss is reported, and new accesses of the pair are held until ROUTE_CHANGE. Pairs that the die
relays stay as they are (log entry 73). -/
def execWavelengthLoss (die stack : Nat) (toStack : Bool) (wl : Nat) (s : State) : Out :=
  .next ((s.loseWavelength die stack toStack wl).reroute die stack)

/-- Accesses of a pair that are in flight: on their way to a relay die or from it, there, or performed by half; and the transfers
of engines, walks, fetches and write-backs that have left (R308). -/
def State.pairBusy (s : State) (die stack : Nat) : Bool :=
  s.accs.any (fun a => dieOf a.t.core == die && a.stacks.contains stack
    && (a.back.isSome || (a.phase == .ready && (a.inFlight || s.p.packets.any (fun x => x.acc == a.id)))))
  || s.p.transfers.any (fun t => t.src == die && t.ch < 66 && isDram t.line && lineStack t.line == stack
    && (t.sent.isSome || t.done.isSome) && s.waits t.who)

/-- ROUTE_CHANGE (R307, R308): when the accesses of the pair that are in flight have completed, its entry takes the mode that its
lost wavelengths ask for, or what the Market Master writes, and held accesses go the new way. -/
def execRouteChange (die stack : Nat) (s : State) : Out :=
  if 64 ≤ die || 32 ≤ stack || s.pairBusy die stack then .next s
  else match Tbl.get none s.p.routeDue (die * 32 + stack) with
  | some (n + 1) => .next (s.putRoute die stack (n % 4) (n / 4 % 64))
  | _ =>
    let (mode, via) := s.routeWanted die stack
    .next (if s.routeKeeps die stack then
      { s with p := { s.p with routeDue := Tbl.put none s.p.routeDue (die * 32 + stack) none } }
      else s.putRoute die stack mode via)

/-! ### The die plane (R310 to R314) -/

def State.channel (s : State) (ch : Nat) : Channel := Tbl.get Channel.none s.p.channels ch

def State.setChannel (s : State) (ch : Nat) (x : Channel) : State :=
  { s with p := { s.p with channels := Tbl.put Channel.none s.p.channels ch x } }

/-- The flow of a packet: core, context, FLOW and destination home (R190). -/
def Acc.flowKey (a : Acc) : Nat := ((a.t.core * 4096 + a.ctx) * 4 + a.flow) * 2 ^ 17 + a.home

/-- Has an access been sent as a packet by a writer? -/
def State.sentBy (s : State) (id writer : Nat) : Bool := s.p.packets.any (fun x => x.acc == id && x.writer == writer)

/-- An access that its die may send into a home channel: checked, let go by its lane and its fences, its pair not held, and after
every earlier access of its flow has been sent; the reader's reorder buffer keeps their order (R308, R313). -/
def State.sendable (s : State) (a : Acc) : Bool :=
  let die := dieOf a.t.core
  a.phase == .ready && (s.crossTo a).isSome && !s.crossLost a && !a.delivered && !s.hits a && !s.sentBy a.id die
  && !a.stacks.any (fun st => s.pairHeld die st) && s.laneFree a
  && s.accs.all (fun x => !(flowBehind a x && !x.delivered && !s.sentBy x.id die))

/-- A reply that the die of its home may send (R27, R310). -/
def State.replySendable (s : State) (a : Acc) : Bool :=
  match a.back with
  | some home => !s.sentBy a.id home
  | none => false

/-- Transfers whose request, or whose reply, may be sent. -/
def State.askable (s : State) (t : Transfer) : Bool := !t.reply && t.ch < 66 && t.pkt.isNone && t.done.isNone && !s.transferHeld t
def Transfer.answerable (t : Transfer) : Bool := t.reply && t.ch < 66 && t.pkt.isNone && t.done.isNone

/-- Puts a packet of n bytes on a channel (R313). Sequence numbers of what a writer has sent stand at even keys, those that a
reader expects at odd ones. Answers its number. -/
def State.putPacket (s : State) (ch writer key n acc : Nat) (ordered : Bool) : Nat × State :=
  let (id, s) := s.fresh
  let k := Tbl.get 0 s.p.seqs (2 * key)
  (id, { s with p := { s.p with
    seqs := if ordered then Tbl.put 0 s.p.seqs (2 * key) (k + 1) else s.p.seqs,
    packets := s.p.packets ++ [⟨id, ch, writer, key, ordered, k, acc, n, 1, false, true, false, false, false, false⟩] } })

def State.setPacket (s : State) (x : Packet) : State :=
  { s with p := { s.p with packets := s.p.packets.map (fun (y : Packet) => if y.id == x.id then x else y) } }

def State.setTransfer (s : State) (t : Transfer) : State :=
  { s with p := { s.p with transfers := s.p.transfers.map (fun (x : Transfer) => if x.who == t.who && x.line == t.line then t else x) } }

/-- The flow of replies to the accesses of a flow, which the requester's reorder buffer keeps in order too (R190, R313). -/
def replyFlow (key : Nat) : Nat := key + 2 ^ 72

/-- What a writer has to send into a channel next: a packet that is to be sent again, an acknowledgement, an access of its cores, a
reply, or the request or the reply of a transfer (R27, R310, R313). Answers the bytes of payload and the state after. -/
def State.nextOut (s : State) (ch writer : Nat) : Option (Nat × State) :=
  match s.p.packets.find? (fun x => x.ch == ch && x.writer == writer && x.due) with
  | some x => some (x.size, (s.setPacket { x with due := false, flying := true, sends := x.sends + 1 }).bumpReg (dpstatReg ch) 47 32 1)
  | none =>
  match s.p.packets.find? (fun x => x.ch == writer && x.writer == ch && x.received && !x.ackSent) with
  | some x => some (0, s.setPacket { x with ackSent := true })
  | none =>
  match s.accs.find? (fun a => dieOf a.t.core == writer && s.crossTo a == some ch && s.sendable a) with
  | some a => some (a.size, (s.putPacket ch writer a.flowKey a.size a.id (a.flow != 0)).2)
  | none =>
  match s.accs.find? (fun a => a.back == some writer && dieOf a.t.core == ch && s.replySendable a) with
  | some a => some (a.size, (s.putPacket ch writer (replyFlow a.flowKey) a.size a.id (a.flow != 0)).2)
  | none =>
  match s.p.transfers.find? (fun t => t.ch == ch && t.src == writer && s.askable t) with
  | some t =>
    let (id, s) := s.putPacket ch writer t.key t.out 0 false
    some (t.out, s.setTransfer { t with pkt := some id, sent := some id })
  | none =>
  match s.p.transfers.find? (fun t => t.src == ch && t.ch == writer && t.answerable) with
  | some t =>
    let (id, s) := s.putPacket ch writer (replyFlow t.key) t.back 0 false
    some (t.back, s.setTransfer { t with pkt := some id })
  | none => none

/-- Sends what a writer holds, up to `room` bytes of payload. Answers how many packets. -/
def State.sendAll (s : State) (ch writer room : Nat) : Nat → Nat × State
  | 0 => (0, s)
  | fuel + 1 =>
    match s.nextOut ch writer with
    | none => (0, s)
    | some (n, t) =>
      if room < n then (0, s)
      else
        let (k, t) := State.sendAll t ch writer (room - n) fuel
        (k + 1, t)

/-- Nanoseconds that a laser is lit for n packets: a preamble of 8 ns each, and 8 ns for the payload (R310). -/
def litNs (n : Nat) : Nat := if n = 0 then 0 else 8 * n + 8

/-- A home channel that is retrained or retired: its writers hold their packets (R328). -/
def State.homeHeld (s : State) (ch : Nat) : Bool := s.p.plat.retraining.contains (.home ch) || s.homeRetired ch

/-- TOKEN_ARRIVAL (R310 to R312): the token of a channel that stands at a writer lets it send and goes on to the next in
die-id order; at the reader's tap a token of an old epoch is absorbed. A writer whose transfer would bring the time that its laser
has been lit above 6 µs in all may defer, as a free value decides (log entry 36). -/
def execTokenArrival (ch writer : Nat) (s : State) : Out :=
  let c := s.channel ch
  let place := (writer + 66 - ch) % 66
  match c.tokens.find? (fun t => t.2 == place) with
  | none => .next s
  | some t =>
    if 66 ≤ ch || 66 ≤ writer || place = 0 || s.minimal then .next s
    else
      let rest := c.tokens.erase t
      let tap := place = 65
      let absorbed := tap && t.1 != s.regF (dpstatReg ch) 15 0
      let next := if tap then 1 else place + 1
      let s := s.setChannel ch { c with tokens := if absorbed then rest else rest ++ [(t.1, next)] }
      let s := if absorbed then s.bumpReg (dpstatReg ch) 31 24 1 else s
      if s.homeHeld ch || (s.nextOut ch writer).isNone then .next s
      else
        let lit := (s.channel writer).laser
        let (n, sent) := s.sendAll ch writer 2048 (s.accs.length + 2 * s.p.packets.length + s.p.transfers.length)
        let (v, s') := if 6000 < lit + litNs n then s.freeVal else (0, s)
        if v % 2 = 1 then .next (s'.bumpReg (dpstatReg writer) 63 56 1)
        else .next ({ sent with free := s'.free }.setChannel writer { sent.channel writer with laser := lit + litNs n })

/-- TOKEN_SILENCE (R312): no token has passed the reader's tap for 2 µs, and the reader emits one of the next epoch. The old
token is lost, or only late, as a free value decides. While the channel is retrained the epoch is kept (R328). -/
def execTokenSilence (ch : Nat) (s : State) : Out :=
  if 66 ≤ ch || s.minimal || s.p.plat.retraining.contains (.home ch) then .next s
  else
    let (v, s) := s.freeVal
    let c := s.channel ch
    let epoch := (s.regF (dpstatReg ch) 15 0 + 1) % 65536
    let s := s.setRegF (dpstatReg ch) 15 0 epoch
    let s := s.setChannel ch { c with tokens := (if v % 2 = 0 then [] else c.tokens.filter (fun t => t.2 != 1)) ++ [(epoch, 1)] }
    .next (s.bumpReg (dpstatReg ch) 23 16 1)

/-- Packets with which writer and reader have both done. -/
def State.dropPackets (s : State) : State :=
  { s with p := { s.p with packets := s.p.packets.filter (fun (x : Packet) => !(x.delivered && x.acked)) } }

/-- A packet of a transfer has arrived: its request, and the reply is to be sent; or the reply, and it is done. -/
def Transfer.arrived (t : Transfer) (pkt : Nat) : Transfer :=
  if t.pkt != some pkt then t
  else if t.reply then { t with pkt := none, done := some true }
  else { t with pkt := none, reply := true }

/-- Passes a packet on: an access or a transfer has reached the die it was sent to, or a reply has come back. -/
def State.deliverPacket (s : State) (x : Packet) : State :=
  let s := s.setPacket { x with delivered := true }
  { s with
    accs := s.accs.map (fun (a : Acc) =>
      if a.id == x.acc then (if dieOf a.t.core == x.writer then { a with delivered := true } else { a with back := none }) else a),
    p := { s.p with transfers := s.p.transfers.map (fun t => t.arrived x.id) } }

/-- The reorder buffer of an ordered flow passes on what stands next in sequence; the number is fuel (R313). -/
def State.deliverFlow (s : State) (key : Nat) : Nat → State
  | 0 => s
  | fuel + 1 =>
    let n := Tbl.get 0 s.p.seqs (2 * key + 1)
    match s.p.packets.find? (fun x => x.key == key && x.ordered && x.received && !x.delivered && x.seqNo == n) with
    | none => s
    | some x =>
      let s := s.deliverPacket x
      State.deliverFlow { s with p := { s.p with seqs := Tbl.put 0 s.p.seqs (2 * key + 1) (n + 1) } } key fuel

/-- What the reader does with a packet whose CRC holds. -/
def State.acceptPacket (s : State) (x : Packet) : State :=
  let s := s.setPacket { x with received := true }
  if x.ordered then s.deliverFlow x.key s.p.packets.length else s.deliverPacket { x with received := true }

/-- DIE_PLANE_PACKET_RECEIVE (R313): a packet on its way reaches its reader; one with a bad CRC is dropped, a duplicate is
discarded, and a good one is to be acknowledged over the reader's own transmitter. -/
def execDiePlanePacketReceive (pkt : Nat) (crcOk : Bool) (s : State) : Out :=
  match s.p.packets.find? (fun x => x.id == pkt) with
  | none => .next s
  | some x =>
    if !x.flying then .next s
    else
      let x : Packet := { x with flying := false, ackSent := x.ackSent && !crcOk }
      .next (if !crcOk || x.received then s.setPacket x else s.acceptPacket x)

/-- PACKET_ACK_RECEIVE (R313): the acknowledgement of a packet, once the reader has sent it, reaches its writer. -/
def execPacketAckReceive (pkt : Nat) (s : State) : Out :=
  match s.p.packets.find? (fun x => x.id == pkt) with
  | none => .next s
  | some x => .next (if x.ackSent then (s.setPacket { x with acked := true, due := false }).dropPackets else s)

/-- A transfer one of whose packets its writer gives up fails, unless it is done. A reader that had the request has performed what
it asks (R313). -/
def Transfer.givenUp (t : Transfer) (x : Packet) : Transfer :=
  if t.pkt == some x.id || (t.sent == some x.id && t.done.isNone) then
    { t with pkt := none, reply := t.reply || x.received, done := some false }
  else t

/-- A writer gives up a packet (R313): its access gets an error response with 0x31, a transfer fails, and an ordered flow
goes on behind it. -/
def State.giveUp (s : State) (x : Packet) : State :=
  let s := s.bumpReg (dpstatReg x.ch) 55 48 1
  let gone : Packet := { x with acc := 0, acked := true, due := false, flying := false }
  let s : State := { s with p := { s.p with transfers := s.p.transfers.map (fun t => t.givenUp x) } }
  let s := (if x.received then s.setPacket gone else s.acceptPacket gone).dropPackets
  match s.acc? x.acc with
  | some a => if a.phase.pending || (a.back.isSome && dieOf a.t.core != x.writer) then s.refuseAcc a 0x31 a.va else s
  | none => s

/-- PACKET_RESEND_TIMEOUT (R313): 4 µs without an acknowledgement; the packet waits for the next token to be sent again, or after
8 sends is given up. -/
def execPacketResendTimeout (pkt : Nat) (s : State) : Out :=
  match s.p.packets.find? (fun x => x.id == pkt) with
  | none => .next s
  | some x =>
    if x.acked || x.due then .next s
    else if x.sends < 8 then .next (s.setPacket { x with due := true })
    else .next (s.giveUp x)

/-! ### Links (R316 to R318) -/

/-- Training starts: DOWN goes to TRAINING (R316). -/
def State.startTraining (s : State) (link : Nat) : State :=
  if s.linkState link = 0 then (s.setLinkS link { s.linkS link with fails := 0 }).setLinkState link 1 else s

/-- A retrain at a rate: UP goes to RETRAIN (R316). -/
def State.startRetrain (s : State) (link rate : Nat) : State :=
  if s.linkState link = 2 then (s.setLinkS link { s.linkS link with target := rate }).setLinkState link 3 else s

/-- HLCTL_TRAIN (R318): a write of 1 to TRAIN: training in DOWN, a retrain at MAXRATE in UP, nothing in the other states. -/
def State.train (s : State) (port : Nat) : State :=
  let rate := min 2 (s.regF (hlctlReg port) 1 0)
  if 2 ≤ port then s
  else if s.linkState port = 2 then (s.startRetrain port rate).send (.retrain port rate)
  else s.startTraining port

def execHlctlTrain (port : Nat) (s : State) : Out := .next (s.train port)

/-- Is an access outstanding on the link that it has gone out on: a native AtomicOp or what waits in a replay buffer on a host
port, a remote cell request on a slot-fabric port (R219, R227, R316)? -/
def Acc.onLink (a : Acc) (link : Nat) : Bool := a.link == link + 1 && a.phase.pending

/-- An access that its link lost (R213, R316): fault 0x31. Whether the host has performed an AtomicOp is free. -/
def State.lostOnLink (s : State) (a : Acc) : State :=
  let (v, s) := s.freeVal
  let s :=
    if a.kind.isCell || a.phase != .sent || v % 2 = 0 then s
    else match atomNew a.aop a.ty (ofBytes (s.m.mem.readBytes a.pa a.size)) a.data a.cmp with
      | some x => { s with m := { s.m with mem := s.m.mem.writeBytes a.pa (toBytes x a.size) } }
      | none => s
  s.refuseAcc a 0x31 a.va

/-- A link enters DOWN: every access outstanding on it gets 0x31, and the other port serves its unit (R23, R316). In step 6 of the
start it may be the last port (R324). -/
def State.linkDown (s : State) (link : Nat) : State :=
  let lost := s.accs.filter (fun a => a.onLink link)
  let s := lost.foldl (fun s a => s.lostOnLink a) (s.setLinkState link 0)
  let s : State := { s with p := { s.p with transfers := s.p.transfers.map (fun (t : Transfer) =>
    if t.ch == 66 + link && t.done.isNone then { t with done := some false } else t) } }
  s.hostRehome.checkPorts

/-- What waited in the replay buffer of a port goes on (R316). -/
def State.linkResumes (s : State) (link : Nat) : State :=
  { s with
    accs := s.accs.map (fun (a : Acc) => if a.onLink link && a.phase == .ready then { a with link := 0 } else a),
    p := { s.p with transfers := s.p.transfers.filter (fun t => !(t.ch == 66 + link && t.done.isNone)) } }

/-- LOSS_OF_LOCK (R316). -/
def execLossOfLock (link : Nat) (s : State) : Out :=
  .next (if link < 18 && s.linkState link = 2 then s.linkDown link else s)

/-- RETRAIN_REQUEST (R317): the requests of this end and of the other in one flit interval. The lower rate is trained, and
one of two requests is discarded and counted. -/
def execRetrainRequest (link : Nat) (own other : Option Nat) (s : State) : Out :=
  if 18 ≤ link || s.linkState link != 2 then .next s
  else
    let s := match own with
      | some r => s.send (.retrain link (min 2 r))
      | none => s
    match own, other with
    | none, none => .next s
    | some r, none | none, some r => .next (s.startRetrain link (min 2 r))
    | some r, some t => .next ((s.startRetrain link (min 2 (min r t))).bumpReg (linkReg link) 55 48 1)

/-- RETRAIN_COMPLETE (R316): UP at the agreed rate, or DOWN. -/
def execRetrainComplete (link : Nat) (ok : Bool) (s : State) : Out :=
  if 18 ≤ link || s.linkState link != 3 then .next s
  else if !ok then .next (s.linkDown link)
  else
    let s := (s.setLinkState link 2).linkResumes link
    .next ((if link < 2 then ((s.setRegF (linkReg link) 3 2 (s.linkS link).target).bumpReg (linkReg link) 31 16 1).hostRehome else s).checkPorts)

/-- FLIT_CRC_ERROR (R318): a flit of a host port is replayed and counted. -/
def execFlitCrcError (link : Nat) (s : State) : Out :=
  .next (if link < 2 && s.linkState link = 2 then s.bumpReg (linkReg link) 47 32 1 else s)

/-! ### The host: snoops, CXL.mem and configuration (R163, R203, R315) -/

/-- Host lines are reported to their monitors at host snoops (R84). -/
def State.snooped (s : State) (pa : Nat) : State := s.markMonitors (pa / 128) (fun _ => true)

/-- The answer to a snoop: the line's data if the host-line cache has modified it. -/
def State.snoopData (s : State) (k : Nat) : Option (BitVec 512) :=
  match Tbl.get none s.m.hostLines k with
  | some h => if h.dirty then some h.data else none
  | none => none

/-- The host line of a snoop's address: a PA of the host region. -/
def snoopPa (pa : Nat) : Nat := 2 * 2 ^ 48 + pa % 2 ^ 48

/-- Does a snoop of a host line reach the device: over a port that serves its unit, and not in MINIMAL, where the link runs as CXL.io
only (R315, R316, R325)? -/
def State.snoopable (s : State) (a : Nat) : Bool :=
  !s.minimal && (match s.hostPath a with
    | .port _ => true
    | _ => false)

/-- SNPDATA (R315): the data go to the host, and the line stays, unmodified. -/
def execSnpdata (pa : Nat) (s : State) : Out :=
  let a := snoopPa pa
  if !s.snoopable a then .next s else
  .next ((((s.send (.snoop a (s.snoopData (hostLineOf a)))).hostClean (hostLineOf a) false).snooped a))

/-- Host memory after the host has taken a line: its 64 bytes are free values (log entry 37). -/
def State.freeHostLine (s : State) (k : Nat) : State :=
  (List.range 64).foldl (fun s i =>
    let (v, s) := s.freeVal
    { s with m := { s.m with mem := s.m.mem.write (k * 64 + i) (BitVec.ofNat 8 v) } }) s

/-- SNPINV (R315): the data go to the host, the line leaves the host-line cache, and the host may write it. -/
def execSnpinv (pa : Nat) (s : State) : Out :=
  let a := snoopPa pa
  if !s.snoopable a then .next s else
  .next ((((s.send (.snoop a (s.snoopData (hostLineOf a)))).hostClean (hostLineOf a) true).freeHostLine (hostLineOf a)).snooped a)

/-- SNPCUR (R315): the current data go to the host; the line is unchanged. -/
def execSnpcur (pa : Nat) (s : State) : Out :=
  let a := snoopPa pa
  if !s.snoopable a then .next s else
  .next ((s.send (.snoop a (s.snoopData (hostLineOf a)))).snooped a)

/-- Can the home stack take a host access of CXL.mem now? -/
inductive M2S where
  | go | wait | refuse
deriving DecidableEq, Repr

/-- CXL.mem reaches device DRAM over a port that is UP, in a module that is READY (in MINIMAL the link runs as CXL.io only); its
home refuses what it refuses to every agent (R151, R156), and its bank may make it wait (R275). -/
def State.m2s (s : State) (pa : Nat) (readOnly : Bool) : M2S :=
  if !(s.portState 0 == 2 || s.portState 1 == 2) || !s.isReady then .wait
  else if region pa != 0 || (s.homeRefusal pa readOnly).isSome then .refuse
  else if (readOnly && s.elidedAt pa) || s.bankOpen pa (.input pa) then .go else .wait

/-- A host access that waits for its bank, if that is what it waits for, goes on later (R275). -/
def State.m2sWait (s : State) (i : Instr) (pa : Nat) : State :=
  if region pa != 0 || s.bankOpen pa (.input pa) then s else (s.again i (.input pa)).bankWait pa (.input pa)

/-- M2S_REQ (R203, R315): a host read of 64 bytes of device DRAM, served at the home stack. -/
def execM2sReq (pa : Nat) (s : State) : Out :=
  let a := pa / 64 * 64
  let i : Instr := .m2sReq pa
  match s.m2s a true with
  | .wait => .next (s.m2sWait i a)
  | .refuse => .next ((s.inputDone i).send (.memData a none))
  | .go => .next (((s.bankServed a (.input a)).inputDone i).send (.memData a (some (BitVec.ofNat 512 (ofBytes (s.viewBytes a 64))))))

/-- M2S_RWD (R203, R315): a host write of the masked bytes of 64 bytes of device DRAM, performed at the home stack. -/
def execM2sRwd (pa : Nat) (data : BitVec 512) (mask : BitVec 64) (s : State) : Out :=
  let a := pa / 64 * 64
  let i : Instr := .m2sRwd pa data mask
  match s.m2s a false with
  | .wait => .next (s.m2sWait i a)
  | .refuse => .next ((s.inputDone i).send (.memDone a false))
  | .go =>
    let s := (List.range 64).foldl (fun s i =>
      if mask.getLsbD i then s.setHomeByte (a + i) (data.extractLsb' (8 * i) 8) else s) ((s.bankServed a (.input a)).inputDone i)
    .next ((s.markMonitors (a / 128) (fun _ => true)).send (.memDone a true))

/-- CONFIGURATION_REQUEST (R216, R315): enumeration through which the host reports its AtomicOp support; it comes over a port that is
UP (R316). -/
def execConfigurationRequest (atomicOps : Bool) (s : State) : Out :=
  if s.portState 0 != 2 && s.portState 1 != 2 then .next s else
  .next ({ s with p := { s.p with atomicOps := atomicOps } }.send (.config []))

/-! ### The slot fabric (R319 to R322) -/

/-- FROZEN follows the two causes (R320, R321). -/
def State.putPort (s : State) (n : Nat) (x : PortS) : State :=
  (s.setPort n x).setRegF (sfstatReg n) 2 2 ((x.guardFrozen || x.election).toNat)

/-- Traffic for a module that waits leaves in a slot with a circuit to it: replies, and requests for its cells (R228, R319). -/
def State.sendRemote (s : State) (modid : Nat) : State :=
  let mine := s.p.fabric.filter (fun e => e.1 == modid)
  let s := { s with p := { s.p with fabric := s.p.fabric.filter (fun e => e.1 != modid) } }
  let s := mine.foldl (fun s e => s.send e.2) s
  let due := s.accs.filter (fun a => a.kind.isCell && a.phase == .ready && a.modid == modid && s.remoteCell a && s.free? a)
  due.foldl (fun s a => s.sendRemoteReq a) s

/-- Is this module the crier in service (R321)? RANK 0xFFFF, as reset leaves it, is no rank (log entry 75). -/
def State.isCrier (s : State) : Bool :=
  s.regF sfctlReg 15 0 == s.regF sfctlReg 31 16 && s.regF sfctlReg 15 0 != 0xFFFF && s.regF sfctlReg 33 33 == 0

/-- Ranks in rank order. -/
def rankOrder (rs : List Nat) : List Nat := rs.foldl (fun l r => l.filter (fun x => x ≤ r) ++ [r] ++ l.filter (fun x => r < x)) []

/-- A schedule as the crier computes it: how is not stated, so its 64 entries are free values (R319; log entry 104). -/
def State.freeSchedule (s : State) : List SlotEntry × State :=
  (List.range 64).foldl (fun (r : List SlotEntry × State) _ =>
    let (v, t) := r.2.freeVal
    (r.1 ++ [if v % 2 = 0 then none else some (v / 2 % 4096, v / 8192 % 2 ^ 16)], t)) ([], s)

/-- The crier publishes a schedule for a port, with a successor list of up to 8 modules in rank order; its own port takes it as it
takes any (R319 to R321). -/
def State.publish (s : State) (port : Nat) : State :=
  let (entries, s) := s.freeSchedule
  let succ := (rankOrder (s.p.plat.successors.filter (fun r => r != s.regF sfctlReg 15 0))).take 8
  let x := s.port port
  (if x.guardFrozen then s else s.setPort port { x with received := some entries }).send (.schedule port entries succ)

/-- SLOT_START (R320): `offset` is the drift of the port's slot start from the beacon without a correction. The crier sends its
beacon, with the corrections that it owes the port's peer. A correction that has arrived is applied; within 40 ns the port
transmits, else it misses the slot and asks for resynchronisation, and the third miss in a row freezes it. -/
def execSlotStart (port : Nat) (offset : Int) (s : State) : Out :=
  if 16 ≤ port || s.minimal then .next s
  else
    let x := s.port port
    let s := if s.isCrier then s.send (.beacon port x.owed) else s
    let applied := x.arriving.getLast?.getD x.applied
    let seen := offset + applied
    let circuit := (x.sched.getD x.slot none).map (fun e => e.1)
    let x := { x with
      applied := applied, arriving := [], asked := x.asked ++ x.fresh, fresh := [], slot := (x.slot + 1) % 64, here := none,
      owed := if s.isCrier then [] else x.owed }
    if seen.natAbs ≤ 40 then
      let s := (s.putPort port { x with here := circuit }).setRegF (sfstatReg port) 17 16 0
      .next (match circuit with
        | some peer => if s.linkState (2 + port) = 2 then s.sendRemote peer else s
        | none => s)
    else
      let n := min 3 (s.regF (sfstatReg port) 17 16 + 1)
      let x := { x with fresh := [offset], cleanFrame := false, guardFrozen := x.guardFrozen || n = 3 }
      let s := ((s.putPort port x).setRegF (sfstatReg port) 17 16 n).bumpReg (sfstatReg port) 15 8 1
      .next ((s.bumpReg (sfstatReg port) 47 32 1).send (.beaconRequest port seen))

/-- RESYNC_REQUEST (R320): the crier's answer to this port's oldest request comes with its beacon: it undoes the drift that the
request reports, in place of an earlier correction (log entry 105). Or this module, as the crier, answers the request of another
that reports an offset, with its next beacon. -/
def execResyncRequest (port : Nat) (peer : Option Int) (s : State) : Out :=
  let x := s.port port
  if s.minimal then .next s else
  match peer with
  | some off => .next (if s.isCrier then s.setPort port { x with owed := x.owed ++ [-off] } else s)
  | none =>
    match x.asked with
    | [] => .next s
    | off :: rest => .next (s.setPort port { x with asked := rest, arriving := x.arriving ++ [-off] })

/-- Is a crier in service? -/
def State.crierUp (s : State) : Bool := s.regF sfctlReg 32 32 == 0 && s.regF sfctlReg 33 33 == 0

/-- FRAME_BOUNDARY (R319 to R321): a port frozen by the guard unfreezes after a whole frame within it, while a crier is in
service; a schedule that has been accepted takes effect and ends the freeze of an election. The crier may publish the next one, as
a free value decides (log entry 104). -/
def execFrameBoundary (port : Nat) (s : State) : Out :=
  if 16 ≤ port || s.minimal then .next s
  else
    let x := s.port port
    let x := { x with guardFrozen := x.guardFrozen && !(x.cleanFrame && s.crierUp), cleanFrame := true, slot := 0 }
    let s := s.putPort port (match x.received with
      | some sched => if x.guardFrozen then x else { x with sched := sched, received := none, election := false }
      | none => x)
    if !s.isCrier then .next s
    else
      let (v, s) := s.freeVal
      .next (if v % 2 = 1 then s.publish port else s)

/-- SCHEDULE_RECEIVED (R319 to R321): the crier's schedule for a port and its successor list. A port frozen by the guard
accepts none, and a schedule of a crier that ranks behind the one in service is ignored. -/
def execScheduleReceived (port : Nat) (crier : Nat) (entries : List SlotEntry) (successors : List Nat) (s : State) : Out :=
  if 16 ≤ port || s.minimal || s.regF sfctlReg 33 33 = 1 || s.regF sfctlReg 31 16 < crier % 65536 then .next s
  else
    let s := { s with p := { s.p with plat := { s.p.plat with successors := successors.take 8 } } }
    let s := (s.setRegF sfctlReg 31 16 crier).setRegF sfctlReg 32 32 0
    let x := s.port port
    .next (if x.guardFrozen then s else s.setPort port { x with received := some (entries.take 64) })

/-- BEACON_LOSS (R321): 4 slots without a beacon. Every port freezes and the election begins; the crier itself sends the
beacons and detects no loss. -/
def execBeaconLoss (s : State) : Out :=
  let rank := s.regF sfctlReg 15 0
  if s.minimal || s.regF sfctlReg 33 33 = 1 || (rank = s.regF sfctlReg 31 16 && rank != 0xFFFF) then .next s
  else
    let s := (s.setRegF sfctlReg 33 33 1).setRegF sfctlReg 31 16 0xFFFF
    let s := { s with p := { s.p with plat := { s.p.plat with claimSeen := none, waiting := s.p.plat.successors.contains rank } } }
    .next ((List.range 16).foldl (fun s n => s.putPort n { s.port n with election := true, received := none }) s)

/-- A claim stands: its rank is the crier's, and an election in progress is over (R321). -/
def State.claimStands (s : State) (rank : Nat) : State :=
  let s := if s.regF sfctlReg 33 33 = 1 then s.bumpReg sfctlReg 63 48 1 else s
  let s := ((s.setRegF sfctlReg 31 16 rank).setRegF sfctlReg 32 32 0).setRegF sfctlReg 33 33 0
  { s with p := { s.p with plat := { s.p.plat with claimSeen := some (match s.p.plat.claimSeen with
    | some r => min r rank
    | none => rank) } } }

/-- SUCCESSOR_CLAIM (R321): the wait of a successor ends. This module claims, and publishes its first schedules, unless it has seen
a claim of a better rank; where it is no successor and no claim has come, the election ends without a crier. -/
def execSuccessorClaim (s : State) : Out :=
  let rank := s.regF sfctlReg 15 0
  let plat := s.p.plat
  let better := match plat.claimSeen with
    | some r => decide (r < rank)
    | none => false
  if s.minimal then .next s
  else if plat.waiting then
    let s := { s with p := { s.p with plat := { plat with waiting := false } } }
    .next (if better then s else (List.range 16).foldl (fun s n => s.publish n) ((s.claimStands rank).send (.claim rank)))
  else if s.regF sfctlReg 33 33 = 1 && plat.claimSeen.isNone then .next ((s.setRegF sfctlReg 32 32 1).setRegF sfctlReg 33 33 0)
  else .next s

/-- CLAIM_RECEIVED (R321): the claim with the lowest rank stands; a crier of a worse rank steps down. -/
def execClaimReceived (rank : Nat) (s : State) : Out :=
  let r := rank % 65536
  .next (if s.minimal then s else if s.regF sfctlReg 33 33 = 1 || s.regF sfctlReg 32 32 = 1 || r < s.regF sfctlReg 31 16 then s.claimStands r else s)

end Sys2Proof.Machine
end

