-- ==== Sys2Proof/Machine/Platform.lean ====
section
/-! DEFINITION. The Market Master: start, reset and power, training, clocks, live retraining, the auctioneer and the
takeover by the standby, and the SPDM responder (13_platform.md R323 to R334). -/

namespace Sys2Proof.Machine

/-- Steps 1 and 2 of the start, to the beginning of step 3 or to MINIMAL (R324, R325, R331). -/
def State.beginStart (s : State) (b : BootInfo) : State :=
  let s := s.setPhase 1
  if !b.romOk then s.failStart 0x01
  else
    let s := s.setPhase 2
    if !Config.verify b.image then s.failStart 0x02
    else if b.version < s.p.plat.rollback then s.failStart 0x03
    else
      let s := { s with p := { s.p with plat := { s.p.plat with version := b.version, firmware := b.image } } }
      if s.regF startstatReg 5 4 = 3 then ((s.setPhase 8).startTraining 0).startTraining 1
      else (s.setPhase 3).setRegF startstatReg 23 16 (wrapI b.cold 8)

/-- POWER_ON (R324). -/
def execPowerOn (b : BootInfo) (s : State) : Out := .next ((s.afterReset true).beginStart b)

/-- WARM_RESET (R324). -/
def execWarmReset (b : BootInfo) (s : State) : Out := .next ((s.afterReset false).beginStart b)

/-- POWER_FAILURE (R325): all activity ends, and the kept fields read zero after the next power-on. -/
def execPowerFailure (s : State) : Out := .next (s.afterReset true)

/-- WARMING_TIMEOUT (R324, R325): step 3 fails after 600 s; the warm reset starts again. -/
def execWarmingTimeout (b : BootInfo) (s : State) : Out :=
  .next (if s.phase = 3 then (s.failStart 0x04).beginStart b else s)

/-- A write of 1 to RETRY (R323): in MINIMAL ATTEMPT is cleared and the start begins again at step 1. -/
def State.retryStart (s : State) : State := if s.minimal then (s.setRegF startstatReg 5 4 0).setPhase 1 else s

/-- STARTCTL_RETRY (R323): RETRY is written in MINIMAL, or has been written by a register access, and the start that it begins goes
on with what steps 1 and 2 find (log entry 102). -/
def execStartctlRetry (b : BootInfo) (s : State) : Out :=
  let s := s.retryStart
  .next (if s.phase = 1 then s.beginStart b else s)

/-! ### Training (R316, R324) -/

/-- Parts found faulty join the retirement map, each a change of its own; monitors on their lines are lost (R84, R324, R333). -/
def State.retireFaulty (s : State) (r : StepResult) : State :=
  let s := (r.faultyDies.filter (fun d => d < 64)).foldl (fun s d => if s.dieRetired d then s else s.retireDie d) s
  let s := (r.faultyVaults.filter (fun g => g < 1024)).foldl (fun s g =>
    if s.vaultRetired g then s else (s.setRetBit 0x080 g).bumpRetGen) s
  ((r.faultyChannels.filter (fun c => c.1 < 32 && c.2 < 16)).foldl (fun s c =>
    if s.channelRetired c.1 c.2 then s else (s.setRetBit 0x250 (16 * c.1 + c.2)).bumpRetGen) s).loseRetired

/-- Core dies in service. -/
def State.diesInService (s : State) : Nat := ((List.range 64).filter (fun d => !s.dieRetired d)).length

/-- WARMING_COMPLETE (R324): every stack is at −10 °C or above and every laser in its window; parts found faulty are retired, and
with at least 48 core dies in service step 4 begins. -/
def execWarmingComplete (e : WarmEnd) (s : State) : Out :=
  if s.phase != 3 || !e.temps.all (fun t => -10 ≤ t) || !e.found.ok then .next s
  else
    let s := s.retireFaulty e.found
    .next (if s.diesInService < 48 then s.failStart 0x08 else s.setPhase 4)

/-- The planes lock: lost wavelengths are noted and the entries set (R305, R324 step 5). No pair that has lost a wavelength stands as
NORMAL while relays are chosen, so that none of their dies is one (R307). -/
def State.lockPlanes (s : State) (r : StepResult) : State :=
  let lost := r.lostWl.filter (fun x => x.1 < 64 && x.2.1 < 32)
  let s := lost.foldl (fun s x => s.loseWavelength x.1 x.2.1 x.2.2.1 x.2.2.2) s
  let pairs := ((lost.map (fun x => (x.1, x.2.1))).eraseDups).filter (fun x => (s.routeWanted x.1 x.2).1 != 0)
  pairs.foldl (fun s x =>
    let w := s.routeWanted x.1 x.2
    (s.writeEntry x.1 x.2 0 0).putRoute x.1 x.2 w.1 w.2) (pairs.foldl (fun s x => s.writeEntry x.1 x.2 3 0) s)

/-- Has a die in service a DOWN entry? -/
def State.someDown (s : State) : Bool :=
  (List.range 64).any (fun d => !s.dieRetired d && s.regF (mpstatReg d) 23 16 != 0)

/-- A link's training ends (R316): UP at a rate; TRAINING again, or after the third failure DOWN. -/
def State.linkTrained (s : State) (r : StepResult) : State :=
  if 18 ≤ r.link || s.linkState r.link != 1 then s
  else if r.ok then
    let s := s.setLinkState r.link 2
    if r.link < 2 then
      (s.setRegF (linkReg r.link) 3 2 (min r.rate (min 2 (s.regF (hlctlReg r.link) 1 0)))).hostRehome.checkPorts
    else s
  else
    let x := s.linkS r.link
    let s := s.setLinkS r.link { x with fails := x.fails + 1 }
    if x.fails + 1 < 3 then s else s.linkDown r.link

/-- TRAINING_COMPLETE (R316, R324): the end of step 4, of step 5, or of the training of one link. A step that fails records its own
reason, be there fewer than 48 dies or not (log entry 76). -/
def execTrainingComplete (r : StepResult) (s : State) : Out :=
  if s.phase = 4 then
    let s := s.retireFaulty r
    .next (if !r.ok then s.failStart 0x05 else if s.diesInService < 48 then s.failStart 0x08 else s.setPhase 5)
  else if s.phase = 5 then
    let s := (s.retireFaulty r).lockPlanes r
    .next (if !r.ok || s.someDown then s.failStart 0x06
      else if s.diesInService < 48 then s.failStart 0x08
      else ((List.range 18).foldl (fun s l => s.startTraining l) (s.setPhase 6)).checkPorts)
  else .next (s.linkTrained r)

/-! ### Clocks (R326, R327) -/

/-- SUPPLY_DROOP (R326): the cycles of a core are stretched until the droop has passed; how many is free. -/
def execSupplyDroop (core : Nat) (s : State) : Out :=
  if 1024 ≤ core || s.minimal then .next s
  else
    let (v, s) := s.freeVal
    .next (s.bumpReg (clkstatReg (dieOf core)) 39 24 (v + 1))

/-- The highest step of 25 MHz within 600 to 2,100 MHz at which the die keeps its margin, not above a ceiling (R327). -/
def clockStep (margin cap : Nat) : Nat := max 600 (min 2100 (min margin cap) / 25 * 25)

/-- CLOCK_RETUNE (R327): the margin monitor sets FREQ. -/
def execClockRetune (die margin : Nat) (s : State) : Out :=
  if 64 ≤ die || s.minimal then .next s
  else
    let r := clkstatReg die
    .next ((s.setRegF r 11 0 (clockStep margin (s.regF r 23 12))).bumpReg r 55 40 1)

/-! ### Power (R329, R330) -/

/-- The limit in force: 0 and values above 14,000 act as 14,000, values below FLOOR as FLOOR (R323). -/
def State.powerLimit (s : State) : Nat :=
  let v := s.regF pwrctlReg 15 0
  max (s.regF pwrctlReg 48 33) (if v = 0 || 14000 < v then 14000 else v)

/-- A die's grant sets CAP; a lower CAP lowers FREQ (R327, R329). -/
def State.setCap (s : State) (die cap : Nat) : State :=
  let r := clkstatReg die
  let s := s.setRegF r 23 12 cap
  s.setRegF r 11 0 (min (s.regF r 11 0) (clockStep cap cap))

/-- The priority of a die in the auction: the highest among the launches of the lots on it, 4 for none (R39; log entry 106). -/
def State.diePrio (s : State) (die : Nat) : Nat :=
  ((s.lotList.filter (fun e => dieOf e.1 == die)).map (fun e => s.prioOf e.2.2.launch)).foldl min 4

/-- Shares of what is left for the members of a group: each its demand where all fit, else in proportion to demand (R329). What
the rounding of a proportional share leaves over goes to nobody (log entry 106). -/
def shareOut (demands : List Nat) (left : Nat) (group : List Nat) (grants : Nat → Nat) : Nat × (Nat → Nat) :=
  let d (x : Nat) : Nat := demands.getD x 0
  let total := (group.map d).sum
  let give (x : Nat) : Nat := if total ≤ left then d x else d x * left / total
  (left - total, fun x => if group.contains x then give x else grants x)

/-- The grants of a round, dies 0 to 63 and stacks 64 to 95: what the limit leaves beyond FLOOR goes to the dies by priority and then
to the stacks (R329; log entry 106). -/
def State.grantsFor (s : State) (demands : List Nat) : List Nat :=
  let left := s.powerLimit - s.regF pwrctlReg 48 33
  let byPrio := (List.range 5).map (fun p => (List.range 64).filter (fun d => s.diePrio d == p))
  let r := (byPrio ++ [(List.range 32).map (fun st => 64 + st)]).foldl (fun (r : Nat × (Nat → Nat)) g => shareOut demands r.1 g r.2) (left, fun _ => 0)
  (List.range 96).map r.2

/-- AUCTION_ROUND (R329, R330): a round of the auctioneer. Each die and stack reports its demand beyond FLOOR in W, and the grants keep
within LIMIT; a die's grant sets its CAP, and a stack that gets nothing of what it asks for holds its booths and boards. At FLOOR
every CAP is 600 MHz and every stack holds. A round ends a HOLD. -/
def execAuctionRound (demands : List Nat) (s : State) : Out :=
  if !s.isReady then .next s
  else
    let floor := s.powerLimit ≤ s.regF pwrctlReg 48 33
    let grants := s.grantsFor demands
    let starved := (List.range 32).filter (fun st => grants.getD (64 + st) 0 = 0 && demands.getD (64 + st) 0 != 0)
    let s := (s.setRegF pwrctlReg 32 32 0).setRegF pwrctlReg 31 16 (s.regF pwrctlReg 31 16 + 1)
    let s := { s with p := { s.p with plat := { s.p.plat with atFloor := floor, grants := grants, starved := starved } } }
    .next ((List.range 64).foldl (fun s d =>
      s.setCap d (if floor then 600 else max 600 (min 2100 (Config.capOf (grants.getD d 0))))) s)

/-- PWRCTL_LIMIT_WRITE (R329): LIMIT takes the value; the next round acts on it. -/
def execPwrctlLimitWrite (v : BitVec 16) (s : State) : Out := .next (s.setRegF pwrctlReg 15 0 v.toNat)

/-- HEARTBEAT_MISS (R330): the standby takes over, grants are held, and a start in progress begins again. -/
def execHeartbeatMiss (b : BootInfo) (s : State) : Out :=
  if s.p.plat.standby then .next s
  else
    let s := { s with p := { s.p with plat := { s.p.plat with standby := true } } }.setRegF pwrctlReg 32 32 1
    .next (if 1 ≤ s.phase && s.phase ≤ 6 then s.beginStart b else s)

/-- HOLD_TIMEOUT (R330): after more than 1 ms of HOLD every CAP is 600 MHz. -/
def execHoldTimeout (s : State) : Out :=
  .next (if s.regF pwrctlReg 32 32 = 1 then (List.range 64).foldl (fun s d => s.setCap d 600) s else s)

/-! ### Live retraining (R328) -/

/-- May a slice be retrained: one that is there, and for a wavelength one that is lost or whose pair is neither HALF nor
RELAY? -/
def State.sliceOk (s : State) (x : Slice) : Bool :=
  match x with
  | .channel st ch => st < 32 && ch < 16 && !s.channelRetired st ch
  | .wavelength d st dir wl => d < 64 && st < 32 && wl < 2
    && (s.wlDown d st dir wl || (s.routeMode d st != 1 && s.routeMode d st != 2))
  | .home ch => ch < 66 && !s.homeRetired ch

/-- SLICE_RETRAIN (R328): one slice at a time. -/
def execSliceRetrain (x : Slice) (s : State) : Out :=
  .next (if !s.minimal && s.p.plat.retraining.isEmpty && s.sliceOk x then
    { s with p := { s.p with plat := { s.p.plat with retraining := [x] } } } else s)

/-- A home channel is retired: what is on its way into it, or is to come back over it, is lost with 0x31 (R328). -/
def State.retireHome (s : State) (ch : Nat) : State :=
  let s := { s with p := { s.p with homeLost := Tbl.put false s.p.homeLost ch true } }
  let s := (s.p.packets.filter (fun x => x.ch == ch && !x.acked)).foldl (fun s x => s.giveUp x) s
  (s.accs.filter (fun a => a.back.isSome && dieOf a.t.core == ch)).foldl (fun s a => s.refuseAcc a 0x31 a.va) s

/-- SLICE_RETRAIN_COMPLETE (R328): a slice that retrains well serves again; one that fails is a lost wavelength or a retired
channel. -/
def execSliceRetrainComplete (x : Slice) (ok : Bool) (s : State) : Out :=
  if !s.p.plat.retraining.contains x then .next s
  else
    let s := { s with p := { s.p with plat := { s.p.plat with retraining := [] } } }
    if ok then
      let s := s.bumpReg rtctlReg 23 8 1
      .next (match x with
        | .wavelength d st dir wl => { s with p := { s.p with wlLost := Tbl.put false s.p.wlLost (wlKey d st dir wl) false } }.reroute d st
        | _ => s)
    else
      let s := s.bumpReg rtctlReg 31 24 1
      .next (match x with
        | .wavelength d st dir wl => (s.loseWavelength d st dir wl).reroute d st
        | .channel st ch => ((s.setRetBit 0x250 (16 * st + ch)).bumpRetGen).loseRetired
        | .home ch => s.retireHome ch)

/-! ### Identity and attestation (R331 to R334) -/

/-- Cores in service (R28). -/
def State.usableCores (s : State) : Nat := ((List.range 1024).filter (fun g => !s.coreRetired g)).length

/-- A B64 word of the retirement map, by index (R333). -/
def State.retWord (s : State) (i : Nat) : Word64 := Tbl.get 0 s.p.retmap i

/-- A B64 word of the identity record, by index (R332); the part number is the ASCII string CKZ-6400. -/
def State.identWord (s : State) (i : Nat) : Word64 :=
  if i = 0 then 0x303034362D5A4B43
  else if i = 2 then BitVec.ofNat 64 s.p.plat.version
  else if i = 3 then BitVec.ofNat 64 s.usableCores
  else if 16 ≤ i then s.retWord (i - 16)
  else Config.fuseIdentity i

/-- The four measurements: digests of the ROM, the firmware image, the retirement map and the identity record. -/
def State.measurements (s : State) : List Byte :=
  Config.digest Config.romImage ++ Config.digest s.p.plat.firmware
  ++ Config.digest ((List.range 128).flatMap (fun i => toBytes (s.retWord i).toNat 8))
  ++ Config.digest ((List.range 32).flatMap (fun i => toBytes (s.identWord i).toNat 8))

/-- An SPDM message: version, code and two parameters, then the body (PRESUMED, log entry 39). -/
def spdmMsg (code p1 p2 : Nat) (body : List Byte) : List Byte := [0x13, BitVec.ofNat 8 code, BitVec.ofNat 8 p1, BitVec.ofNat 8 p2] ++ body

/-- The answer to a request out of order. -/
def State.spdmError (s : State) : State := s.send (.spdm (spdmMsg 0x7F 4 0 []))

/-- Answers a request that stands after the named exchanges. -/
def State.spdmAfter (s : State) (need : List SpdmPhase) (f : State → State) : Out :=
  .next (if need.contains s.p.spdm then f s else s.spdmError)

def State.setSpdm (s : State) (x : SpdmPhase) : State := { s with p := { s.p with spdm := x } }

/-- GET_VERSION (R334): SPDM 1.3. -/
def execGetVersion (_req : List Byte) (s : State) : Out :=
  .next ((s.setSpdm .version).send (.spdm (spdmMsg 0x04 0 0 ([0, 1] ++ toBytes 0x1300 2))))

/-- GET_CAPABILITIES (R334): certificates, challenges and signed measurements; no sessions. -/
def execGetCapabilities (_req : List Byte) (s : State) : Out :=
  s.spdmAfter [.version] (fun s => (s.setSpdm .capabilities).send (.spdm (spdmMsg 0x61 0 0 (toBytes 0 4 ++ toBytes 0x16 4))))

/-- What a NEGOTIATE_ALGORITHMS request offers: SHA-384 as base hash, and the scheme of R331 among its extended algorithms (log
entry 39). -/
def offersHash (req : List Byte) : Bool := bit (ofBytes ((req.drop 12).take 4)) 1
def offersScheme (req : List Byte) : Bool :=
  (List.range (ofBytes ((req.drop 28).take 1))).any (fun i => ofBytes ((req.drop (32 + 4 * i)).take 4) == Config.extAlg.toNat)

/-- NEGOTIATE_ALGORITHMS (R334): of what the request offers, SHA-384 as base hash and measurement hash, and the signature scheme of
R331 as one extended algorithm, are selected; nothing else is. -/
def execNegotiateAlgorithms (req : List Byte) (s : State) : Out :=
  s.spdmAfter [.capabilities] (fun s =>
    let ext := if offersScheme req then toBytes Config.extAlg.toNat 4 else []
    let hash := if offersHash req then 2 else 0
    (s.setSpdm .algorithms).send (.spdm (spdmMsg 0x63 0 0 (toBytes (36 + ext.length) 2 ++ [1, 0] ++ toBytes 4 4 ++ toBytes 0 4 ++ toBytes hash 4
      ++ toBytes 0 12 ++ [BitVec.ofNat 8 (ext.length / 4), 0, 0, 0] ++ ext))))

/-- GET_DIGESTS (R334). -/
def execGetDigests (_req : List Byte) (s : State) : Out :=
  s.spdmAfter [.algorithms] (fun s => s.send (.spdm (spdmMsg 0x01 0 1 (Config.digest Config.certChain))))

/-- GET_CERTIFICATE (R334): the part of the chain that the request's offset and length name. -/
def execGetCertificate (req : List Byte) (s : State) : Out :=
  s.spdmAfter [.algorithms] (fun s =>
    let off := ofBytes ((req.drop 4).take 2)
    let part := (Config.certChain.drop off).take (ofBytes ((req.drop 6).take 2))
    s.send (.spdm (spdmMsg 0x02 0 0 (toBytes part.length 2 ++ toBytes (Config.certChain.length - off - part.length) 2 ++ part))))

/-- A nonce of 32 free bytes. -/
def State.nonce (s : State) : List Byte × State :=
  (List.range 32).foldl (fun (r : List Byte × State) _ =>
    let (v, t) := r.2.freeVal
    (r.1 ++ [BitVec.ofNat 8 v], t)) ([], s)

/-- CHALLENGE (R334): the answer is signed under the device key together with the request. -/
def execChallenge (req : List Byte) (s : State) : Out :=
  s.spdmAfter [.algorithms] (fun s =>
    let (n, s) := s.nonce
    let m := spdmMsg 0x03 0 1 (Config.digest Config.certChain ++ n ++ Config.digest s.measurements)
    s.send (.spdm (m ++ Config.sign (req ++ m))))

/-- GET_MEASUREMENTS (R334): the four digests; signed if the request asks for it. -/
def execGetMeasurements (req : List Byte) (s : State) : Out :=
  s.spdmAfter [.algorithms] (fun s =>
    let (n, s) := s.nonce
    let m := spdmMsg 0x60 0 0 ([4] ++ s.measurements ++ n)
    s.send (.spdm (m ++ (if bit (ofBytes ((req.drop 2).take 1)) 0 then Config.sign (req ++ m) else []))))

end Sys2Proof.Machine
end

