-- ==== Sys2Proof/Machine/Xlat.lean ====
section
/-! DEFINITION. The translation and cache-control registers: TLB invalidation, context flush, frame classes, and the
assignment of price-board sets (06_memory.md R156, R157, R166, R174, R175; 10_banks.md R262). -/

namespace Sys2Proof.Machine

def tlbstatReg : Nat := xlatReg 0x18
def cfstatReg : Nat := xlatReg 0x28
def fcstatReg : Nat := xlatReg 0x38

/-! ### TLBINV (R174, R175) -/

/-- Does an invalidation cover a page of a context, of either size? `va16` is VA[79:16]. -/
def TlbInv.covers (i : TlbInv) (ctx va16 : Nat) (big : Bool) : Bool :=
  match i with
  | .page c p => c == ctx && (if big then p / 2 ^ 16 == va16 / 2 ^ 16 else p == va16)
  | .context c => c == ctx
  | .all => true

/-- Is a walk-cache entry covered: does a VA that the invalidation covers walk through it? -/
def WalkEntry.covered (e : WalkEntry) (i : TlbInv) : Bool :=
  match i with
  | .page c p => c == e.ctx && p / 2 ^ (16 * (e.level - 1)) == e.page
  | .context c => c == e.ctx
  | .all => true

/-- Is a TLB entry covered? -/
def TlbEntry.covered (e : TlbEntry) (i : TlbInv) : Bool := i.covers e.ctx (if e.big then e.page * 2 ^ 16 else e.page) e.big

/-- Was an access translated under an invalidation's cover, and is it still outstanding? -/
def Acc.under (a : Acc) (i : TlbInv) : Bool :=
  a.sp != .l && a.kind != .tq && a.kind != .lotdone && a.kind != .rsend && a.kind != .rfetch
  && (match a.phase with
    | .walk | .replay _ => false
    | _ => true)
  && (i.covers a.ctx (a.va / 2 ^ 16) false || i.covers a.ctx (a.va / 2 ^ 16) true)

/-- A write to TLBINV: ignored with ERR while an invalidation is in progress. -/
def State.tlbinv (s : State) (i : TlbInv) : State :=
  if s.m.tlbinv.isSome then s.setRegF tlbstatReg 1 1 1
  else { s with m := { s.m with tlbinv := some i } }.setRegF tlbstatReg 0 0 1

/-- TLBINV of KIND 0: the page of TLBVA. -/
def execTlbinvPage (ctx : BitVec 12) (s : State) : Out := .next (s.tlbinv (.page ctx.toNat (s.reg (xlatReg 0x10)).toNat))

/-- TLBINV of KIND 1: all of a context. -/
def execTlbinvContext (ctx : BitVec 12) (s : State) : Out := .next (s.tlbinv (.context ctx.toNat))

/-- TLBINV of KIND 2: all contexts. -/
def execTlbinvAll (s : State) : Out := .next (s.tlbinv .all)

/-- The lines that a context wrote on a die, the stores on their way among them, reach their homes. -/
def State.releaseCtxs (s : State) (die : Nat) (p : Nat → Bool) : State :=
  let s := (s.m.early.filter (fun e => dieOf e.core == die && p e.ctx)).foldl (fun s e => s.settleLine die e.line) s
  (s.linesOf die (fun l d => p d.ctx && isDram l && d.current.2 != 0)).foldl (fun s l =>
    if s.canClean die l then s.cleanLine die l else s.backWait die l) s

/-- Does a die still hold dirty lines of a context: does a bank make their write-back wait (R275)? -/
def State.releaseLeft (s : State) (die : Nat) (p : Nat → Bool) : Bool :=
  !(s.linesOf die (fun l d => p d.ctx && isDram l && s.lineDirty die l)).isEmpty

/-- TLBINV_COMPLETE (R175): no access translated by a covered entry is outstanding; their stores are performed at SYS scope, as the
banks let them; the covered entries leave every TLB and walk cache, and BUSY falls. -/
def execTlbinvComplete (s : State) : Out :=
  match s.m.tlbinv with
  | none => .next s
  | some i =>
    if s.accs.any (fun a => a.under i) then .next s
    else
      let mine (c : Nat) : Bool := match i with
        | .page x _ | .context x => c == x
        | .all => true
      let s := (List.range 64).foldl (fun s die => s.releaseCtxs die mine) s
      if (List.range 64).any (fun die => s.releaseLeft die mine) then .next s
      else
      let s := { s with
        cores := s.cores.map (fun (e : Nat × CoreS) => (e.1, { e.2 with tlb := e.2.tlb.filter (fun (x : TlbEntry) => !x.covered i) })),
        m := { s.m with
          tlbinv := none,
          walkCache := (s.m.walkCache.map (fun (e : Nat × List WalkEntry) => (e.1, e.2.filter (fun (x : WalkEntry) => !x.covered i)))).filter (fun e => !e.2.isEmpty) } }
      .next (s.setRegF tlbstatReg 0 0 0)

/-! ### CTXFLUSH (R166, R174) -/

/-- A write to CTXFLUSH: ignored with ERR while a flush is in progress. -/
def State.ctxflush (s : State) (ctx : Nat) (inv : Bool) : State :=
  if s.m.ctxflush.isSome then s.setRegF cfstatReg 1 1 1
  else { s with m := { s.m with ctxflush := some ⟨ctx, inv, 0, none⟩ } }.setRegF cfstatReg 0 0 1

/-- CTXFLUSH with INV = 0. -/
def execCtxflush (ctx : BitVec 12) (s : State) : Out := .next (s.ctxflush ctx.toNat false)

/-- CTXFLUSH with INV = 1. -/
def execCtxflushInv (ctx : BitVec 12) (s : State) : Out := .next (s.ctxflush ctx.toNat true)

/-- One line of the context at its set's visit: its dirty bytes are written back, and with INV it is dropped; a line whose
write-back must wait is left for later (R166, R275). -/
def State.flushLine (f : CtxFlush) (r : CtxFlush × State) (e : Nat × Nat) : CtxFlush × State :=
  match r.2.dieLine? e.1 e.2 with
  | none => r
  | some d =>
    if d.ctx != f.ctx then r
    else if !r.2.canClean e.1 e.2 then ({ r.1 with left := some (r.1.left.getD [] ++ [e]) }, r.2.backWait e.1 e.2)
    else
      let dirty := r.2.lineDirty e.1 e.2
      ({ r.1 with count := r.1.count + dirty.toNat },
        if f.inv then r.2.evictLine e.1 e.2 else if dirty then r.2.cleanLine e.1 e.2 else r.2)

/-- The lines of a context in the caches of the module, by die. -/
def State.ctxLines (s : State) (ctx : Nat) : List (Nat × Nat) :=
  (List.range 64).flatMap (fun die => (s.linesOf die (fun _ d => d.ctx == ctx)).map (fun l => (die, l)))

/-- CTXFLUSH_COMPLETE (R166): every set is visited once; a line that the context allocates after that visit stays. When the lines
whose write-backs had to wait are done, COUNT holds the lines written back and BUSY falls. -/
def execCtxflushComplete (s : State) : Out :=
  match s.m.ctxflush with
  | none => .next s
  | some f =>
    let (g, s) := ((f.left.getD (s.ctxLines f.ctx)).foldl (State.flushLine f) ({ f with left := some [] }, s))
    if (g.left.getD []).isEmpty then
      let s := { s with m := { s.m with ctxflush := none } }
      .next ((s.setRegF cfstatReg 63 32 g.count).setRegF cfstatReg 0 0 0)
    else .next { s with m := { s.m with ctxflush := some g } }

/-! ### FCSET (R156, R157, R174) -/

/-- Frames that are ELIDED. -/
def State.elidedCount (s : State) : Nat := (s.m.frames.filter (fun e => e.2.isElided)).length

/-- A write to FCSET: ignored with ERR while a change is in progress; a new ELIDED frame beyond 16,384 sets FULL. -/
def State.fcset (s : State) (frame : Nat) (c : FrameClass) : State :=
  if s.m.fcset.isSome then s.setRegF fcstatReg 1 1 1
  else if c.isElided && !(Tbl.get .plain s.m.frames frame).isElided && 16384 ≤ s.elidedCount then s.setRegF fcstatReg 2 2 1
  else { s with m := { s.m with fcset := some (frame, c, List.range 32) } }.setRegF fcstatReg 0 0 1

/-- FCSET of CLASS 0. -/
def execFcsetPlain (frame : BitVec 25) (s : State) : Out := .next (s.fcset frame.toNat .plain)

/-- FCSET of CLASS 1. -/
def execFcsetAlias (frame : BitVec 25) (s : State) : Out := .next (s.fcset frame.toNat .aliased)

/-- FCSET of CLASS 2 with its pattern. -/
def execFcsetElided (frame : BitVec 25) (pattern : Word) (s : State) : Out := .next (s.fcset frame.toNat (.elided pattern))

/-- FCSET_STACK_APPLY (R157): one stack applies the change; after the last, the class is that of every stack and BUSY
falls. -/
def execFcsetStackApply (stack : Nat) (s : State) : Out :=
  match s.m.fcset with
  | none => .next s
  | some (frame, c, left) =>
    let rest := left.filter (fun x => x != stack)
    if !rest.isEmpty then .next { s with m := { s.m with fcset := some (frame, c, rest) } }
    else
      let s := { s with m := { s.m with fcset := none, frames := Tbl.put .plain s.m.frames frame c } }
      .next ((s.setRegF fcstatReg 30 16 s.elidedCount).setRegF fcstatReg 0 0 0)

/-! ### PBSETn (R262) -/

/-- PBSET_WRITE: CTX and V take effect and the set's tables are to be cleared; ignored while BUSY. -/
def execPbsetWrite (n : Nat) (v : Word64) (s : State) : Out :=
  if 8 ≤ n || s.regF (pbsetReg n) 13 13 = 1 then .next s
  else
    let s := s.setReg (pbsetReg n) (BitVec.ofNat 64 (bits v.toNat 12 0 + 2 ^ 13))
    .next { s with e := { s.e with pbBusy := Tbl.put false s.e.pbBusy n true } }

/-- PBSET_APPLIED: every table of the set is zero, of shape 256 × 8, in all stacks, and BUSY falls. -/
def execPbsetApplied (n : Nat) (s : State) : Out :=
  if !Tbl.get false s.e.pbBusy n then .next s
  else
    let s := { s with
      e := { s.e with
        pbBusy := Tbl.put false s.e.pbBusy n false,
        boards := s.e.boards.filter (fun e => !(boardPlace n 0 0 ≤ e.1 && e.1 < boardPlace (n + 1) 0 0)) },
      m := { s.m with
        poison := s.m.poison.filter (fun e => !(2 ^ 60 + 64 * n ≤ e.1 && e.1 < 2 ^ 60 + 64 * n + 64)) } }
    .next (s.setRegF (pbsetReg n) 13 13 0)

end Sys2Proof.Machine
end

