-- ==== Sys2Proof/Machine/DevRegs.lean ====
section
/-! DEFINITION. Reads and writes of device registers by privileged agents: the fields of every register by its table, B64 and
B32 accesses, and the effect of each write (00_scope.md R6 to R9, R486; 02_work.md R52, R53; 06_memory.md R174; 11_faults.md
R281, R290, R301; 12_links.md R305, R309, R314, R318, R322; 13_platform.md R323, R332, R333; 16_ref_j_r.md R422). -/

namespace Sys2Proof.Machine

/-- The fields of a register by access: RW and RC, as lists of [hi:lo]; all others read as they stand and ignore writes, but
for the effects of WO fields. -/
structure RegDef where
  rw : List (Nat × Nat)
  rc : List (Nat × Nat)
deriving DecidableEq, Repr

/-- The register block that a PA falls in, as the number of its unit and the offset in it. -/
def inUnit (pa base n stride : Nat) : Option (Nat × Nat) := (inBlock pa base n stride).map (fun i => (i, (pa - base) % stride))

/-- Registers of a command queue (R52). -/
def queueDef (off : Nat) : Option RegDef :=
  match off with
  | 0x00 => some ⟨[(0, 0), (2, 1), (19, 8), (23, 20)], []⟩
  | 0x08 => some ⟨[(51, 12)], []⟩
  | 0x10 | 0x18 | 0x20 => some ⟨[(31, 0)], []⟩
  | 0x28 | 0x30 => some ⟨[], []⟩
  | _ => none

/-- Translation and cache-control registers (R174). -/
def xlatDef (off : Nat) : Option RegDef :=
  match off with
  | 0x00 => some ⟨[(51, 16)], []⟩
  | 0x10 => some ⟨[(63, 0)], []⟩
  | 0x08 | 0x20 | 0x30 => some ⟨[], []⟩
  | 0x18 | 0x28 => some ⟨[], [(1, 1)]⟩
  | 0x38 => some ⟨[], [(1, 1), (2, 2)]⟩
  | _ => none

/-- Fault control block of a context (R281). -/
def ctxDef (off : Nat) : Option RegDef :=
  match off with
  | 0x00 => some ⟨[(0, 0), (4, 1), (51, 12)], []⟩
  | 0x08 => some ⟨[(31, 0)], []⟩
  | 0x10 => some ⟨[], []⟩
  | 0x18 => some ⟨[(16, 16), (31, 24)], [(15, 0)]⟩
  | 0x20 => some ⟨[(15, 0), (16, 16), (18, 17), (19, 19), (47, 32)], []⟩
  | 0x28 => some ⟨[(63, 0)], []⟩
  | 0x30 => some ⟨[(15, 0)], []⟩
  | 0x38 => some ⟨[(4, 0), (51, 20)], []⟩
  | _ => none

/-- Debug registers of a core (R301). -/
def dbgDef (off : Nat) : Option RegDef :=
  match off with
  | 0x00 | 0x10 | 0x18 => some ⟨[], []⟩
  | 0x08 => some ⟨[], [(1, 1)]⟩
  | 0x20 => some ⟨[(51, 0)], []⟩
  | _ => none

/-- ROUTE and MPSTAT of a die (R305, R309). -/
def routeDef (off : Nat) : Option RegDef :=
  match off with
  | 0x00 | 0x08 | 0x10 | 0x18 => some ⟨[(63, 0)], []⟩
  | 0x20 => some ⟨[], [(47, 32), (63, 48)]⟩
  | _ => none

/-- HLCTL and HLSTAT of a port (R318). -/
def hostLinkDef (off : Nat) : Option RegDef :=
  match off with
  | 0x00 => some ⟨[(1, 0)], []⟩
  | 0x08 => some ⟨[], [(31, 16), (47, 32), (55, 48)]⟩
  | _ => none

/-- The platform block (R323, R332, R333). -/
def platDef (pa : Nat) : Option RegDef :=
  if pa = startstatReg || pa = startctlReg then some ⟨[], []⟩
  else if pa = pwrctlReg then some ⟨[(15, 0)], []⟩
  else if pa = rtctlReg then some ⟨[(7, 0)], [(23, 8), (31, 24)]⟩
  else if (inBlock pa (clkstatReg 0) 64 8).isSome then some ⟨[], [(39, 24), (55, 40)]⟩
  else if (inBlock pa (identReg 0) 32 8).isSome || (inBlock pa (retmapReg 0) 128 8).isSome then some ⟨[], []⟩
  else none

/-- The fields of the register at a PA; none at an undefined offset (R151). -/
def regDef (pa : Nat) : Option RegDef :=
  match inUnit pa (queueReg 0 0) 64 0x40, inUnit pa (xlatReg 0) 1 0x40, inUnit pa (ctxReg 0 0) 4096 0x40,
    inUnit pa (dbgReg 0 0) 1024 0x40, inUnit pa (routeReg 0 0) 64 0x40, inUnit pa (hlctlReg 0) 2 0x40 with
  | some u, _, _, _, _, _ => queueDef u.2
  | _, some u, _, _, _, _ => xlatDef u.2
  | _, _, some u, _, _, _ => ctxDef u.2
  | _, _, _, some u, _, _ => dbgDef u.2
  | _, _, _, _, some u, _ => routeDef u.2
  | _, _, _, _, _, some u => hostLinkDef u.2
  | _, _, _, _, _, _ =>
    if pa % 8 != 0 then none
    else if (inBlock pa (pbsetReg 0) 8 8).isSome then some ⟨[(11, 0), (12, 12)], []⟩
    else if (inBlock pa (mirrReg 0) 64 8).isSome then some ⟨[(3, 0)], []⟩
    else if (inBlock pa (vgrantReg 0) 1024 8).isSome then some ⟨[(11, 0), (12, 12), (22, 16), (30, 24)], []⟩
    else if inUnit pa (dpstatReg 0) 66 0x40 |>.any (fun u => u.2 == 0) then
      some ⟨[], [(23, 16), (31, 24), (47, 32), (55, 48), (63, 56)]⟩
    else if inUnit pa (sfstatReg 0) 16 0x40 |>.any (fun u => u.2 == 0) then some ⟨[], [(15, 8), (47, 32), (55, 48)]⟩
    else if pa = sfctlReg then some ⟨[(15, 0), (45, 34)], [(63, 48)]⟩
    else platDef pa

/-- Who reaches a register: the debug registers are reached from the host link and JTAG only (R301). -/
def regReaches (agent : RegAgent) (pa : Nat) : Bool :=
  (regDef pa).isSome && (agent == .host || (inBlock pa (dbgReg 0 0) 1024 0x40).isNone)

/-- Who may write it: ROUTE and MPSTAT the Market Master, the platform block the Market Master and the host (R305, R323). -/
def regWritable (agent : RegAgent) (pa : Nat) : Bool :=
  if (inBlock pa (routeReg 0 0) 64 0x40).isSome then agent == .marketMaster
  else if startstatReg ≤ pa then agent == .marketMaster || agent == .host
  else true

/-- Bits that an access covers. -/
def partLo : RegPart → Nat
  | .upper => 32
  | _ => 0

def partHi : RegPart → Nat
  | .lower => 31
  | _ => 63

def partCovers (part : RegPart) (f : Nat × Nat) : Bool := partLo part ≤ f.2 && f.1 ≤ partHi part

/-- A written value in its place among the 64 bits, zero outside the access (R486). -/
def partPlace (part : RegPart) (v : Nat) : Nat :=
  match part with
  | .whole => v
  | .lower => v % 2 ^ 32
  | .upper => v % 2 ^ 32 * 2 ^ 32

/-! ### Command queues (R52, R53) -/

/-- Ring size in bytes. -/
def State.ringSize (s : State) (q : Nat) : Nat := 4096 * 2 ^ min 10 (s.regF (queueReg q 0) 23 20)

def State.qEn (s : State) (q : Nat) : Bool := s.regF (queueReg q 0) 0 0 == 1

def State.qHead (s : State) (q : Nat) : Nat := s.regF (queueReg q 0x10) 31 0 % s.ringSize q
def State.qTail (s : State) (q : Nat) : Nat := s.regF (queueReg q 0x18) 31 0 % s.ringSize q

def Queue.inBuffer (x : Queue) : Bool := x.frames.any (fun f => match f with
  | .buf _ _ _ => true
  | .loop _ _ _ => false)

/-- QSTAT (R52). -/
def State.qStat (s : State) (q : Nat) : Word64 :=
  let x := s.queue q
  let idle := s.qHead q = s.qTail q && !x.inBuffer && x.blocked == .no
  let v := setBits (s.reg (queueReg q 0x30)).toNat 0 0 (decide idle).toNat
  BitVec.ofNat 64 (setBits v 1 1 (x.blocked != .no).toNat)

/-- A value for QCTL: CTX stays while EN is 1; EN going from 0 to 1 clears ERR and HALTED (R52, R59). -/
def State.setQctl (s : State) (q v : Nat) : State :=
  let r := queueReg q 0
  let old := s.qEn q
  let s := (s.setRegF r 2 1 (bits v 2 1)).setRegF r 23 20 (bits v 23 20)
  let s := if old then s else s.setRegF r 19 8 (bits v 19 8)
  let s := s.setRegF r 0 0 (bits v 0 0)
  if !old && bit v 0 then (s.setRegF (queueReg q 0x30) 15 8 0).setRegF (queueReg q 0x30) 2 2 0 else s

/-- QCTL_WRITE (R52): a B64 write to QCTL. -/
def execQctlWrite (q : Nat) (v : Word64) (s : State) : Out := .next (if q < 64 then s.setQctl q v.toNat else s)

def State.orWake (s : State) (q v : Nat) : State :=
  s.setRegF (queueReg q 0x20) 31 0 (s.regF (queueReg q 0x20) 31 0 ||| v % 2 ^ 32)

/-- QWSET_WRITE (R52): ORs the value into QWAKE.BITS. -/
def execQwsetWrite (q : Nat) (v : Word64) (s : State) : Out := .next (if q < 64 then s.orWake q v.toNat else s)

/-- Effects of a write to a queue's registers; `new` is the register after the RW rule, `wrote` what the access writes, `lower`
says that it covers the lower word. -/
def State.queueEffect (s : State) (q off new : Nat) (lower : Bool) (wrote : Nat) : State :=
  match off with
  | 0x00 => s.setQctl q new
  | 0x10 =>
    if s.qEn q || !lower then s
    else
      let s := s.setReg (queueReg q off) (BitVec.ofNat 64 (new / 4 * 4))
      s.setQueue q { s.queue q with frames := [], blocked := .no }
  | 0x18 => s.setReg (queueReg q off) (BitVec.ofNat 64 (new / 4 * 4))
  | 0x28 => if lower then s.orWake q wrote else s
  | _ => s.setReg (queueReg q off) (BitVec.ofNat 64 new)

/-! ### Writes -/

/-- Takes the state that a meaning answers. -/
def State.take (s : State) (o : Out) : State :=
  match o with
  | .next t => t
  | _ => s

/-- A write to TLBINV, CTXFLUSH or FCSET (R174). -/
def State.xlatEffect (s : State) (off wrote : Nat) : State :=
  match off with
  | 0x08 =>
    let ctx := BitVec.ofNat 12 (bits wrote 11 0)
    (match bits wrote 13 12 with
    | 0 => s.take (execTlbinvPage ctx s)
    | 1 => s.take (execTlbinvContext ctx s)
    | 2 => s.take (execTlbinvAll s)
    | _ => s.setRegF tlbstatReg 1 1 1)
  | 0x20 => s.ctxflush (bits wrote 11 0) (bit wrote 12)
  | 0x30 =>
    let frame := bits wrote 24 0
    (match bits wrote 26 25 with
    | 0 => s.fcset frame .plain
    | 1 => s.fcset frame .aliased
    | 2 => s.fcset frame (.elided (BitVec.ofNat 32 (bits wrote 63 32)))
    | _ => s.setRegF fcstatReg 1 1 1)
  | _ => s

/-- A write to DBGCMD (R301). -/
def State.dbgEffect (s : State) (core : Nat) (v : Word64) : State :=
  match bits v.toNat 2 0 with
  | 1 => s.take (execDbgcmdHalt core v s)
  | 2 => s.take (execDbgcmdResume core v s)
  | 3 => s.take (execDbgcmdStep core v s)
  | 4 => s.take (execDbgcmdDump core v s)
  | 5 => s.take (execDbgcmdLoad core v s)
  | _ => s

/-- A word of a die's ROUTE: a change of each entry that changes is due, and is made as R308 states. -/
def State.routeEffect (s : State) (die w new : Nat) : State :=
  (List.range 8).foldl (fun s j =>
    let st := 8 * w + j
    let v := bits new (8 * j + 7) (8 * j)
    if v = s.routeMode die st + 4 * s.routeVia die st then s else s.dueRoute die st (v + 1)) s

/-- The Market Master writes a word of the retirement map; its reserved words stay zero, and GEN is the word that the Market Master
increments (R28, R333). Monitors on lines that are retired are lost (R84). -/
def State.retmapEffect (s : State) (i : Nat) (part : RegPart) (wrote : Nat) : State :=
  if 82 ≤ i then s
  else
    let new := setBits (s.retWord i).toNat (partHi part) (partLo part) (bits wrote (partHi part) (partLo part))
    { s with p := { s.p with retmap := Tbl.put 0 s.p.retmap i (BitVec.ofNat 64 new) } }.loseRetired

/-- A write of a device register (R6, R7, R486): the RW fields that lie in the access, then the effects of the register. A write
to an undefined offset gets an error response, which names the address (R151; log entry 103). -/
def State.regWrite (s : State) (agent : RegAgent) (pa : Nat) (part : RegPart) (v : Nat) : State :=
  match regDef pa with
  | none => s.send (.regError pa)
  | some d =>
    if !regReaches agent pa then s.send (.regError pa)
    else if !regWritable agent pa then s
    else if pa = startctlReg then (if part != .upper && bit v 0 then s.retryStart else s)
    else match inBlock pa (retmapReg 0) 128 8 with
    | some i => if agent = .marketMaster then s.retmapEffect i part (partPlace part v) else s
    | none =>
      let wrote := partPlace part v
      let lower := part != .upper
      let new := d.rw.foldl (fun x f =>
        let hi := min f.1 (partHi part)
        let lo := max f.2 (partLo part)
        if lo ≤ hi then setBits x hi lo (bits wrote hi lo) else x) (s.reg pa).toNat
      let plain := s.setReg pa (BitVec.ofNat 64 new)
      match inUnit pa (queueReg 0 0) 64 0x40, inUnit pa (xlatReg 0) 1 0x40, inUnit pa (dbgReg 0 0) 1024 0x40,
        inUnit pa (routeReg 0 0) 64 0x40, inUnit pa (hlctlReg 0) 2 0x40, inBlock pa (pbsetReg 0) 8 8 with
      | some u, _, _, _, _, _ => s.queueEffect u.1 u.2 new lower wrote
      | _, some u, _, _, _, _ => if lower then plain.xlatEffect u.2 wrote else plain
      | _, _, some u, _, _, _ => if u.2 = 0 then (if lower then s.dbgEffect u.1 (BitVec.ofNat 64 wrote) else s) else plain
      | _, _, _, some u, _, _ => if u.2 < 0x20 then s.routeEffect u.1 (u.2 / 8) new else s
      | _, _, _, _, some u, _ => if u.2 = 0 && bit wrote 2 && lower then plain.train u.1 else plain
      | _, _, _, _, _, some n => if lower then s.take (execPbsetWrite n (BitVec.ofNat 64 new) s) else s
      | _, _, _, _, _, _ =>
        if (inBlock pa (ctxReg 0 0) 4096 0x40).isSome && pa % 0x40 = 0x08 then s.setReg pa (BitVec.ofNat 64 (new / 64 * 64)) else plain

/-- REGISTER_WRITE (R6, R7, R486). -/
def execRegisterWrite (agent : RegAgent) (pa : Nat) (part : RegPart) (v : Word64) (s : State) : Out :=
  .next (s.regWrite agent pa part v.toNat)

/-! ### Reads -/

/-- Is some thread of a core in DEBUG (R301)? -/
def State.someDebug (s : State) (core : Nat) : Bool :=
  (List.range 4).any (fun b => match s.lot? core b with
    | some l => l.allAgents.any (fun a => (l.thr a).st == .parked .debug)
    | none => false)

/-- The 64 bits of a register as a read finds them. -/
def State.regValue (s : State) (pa : Nat) : Word64 :=
  match inUnit pa (queueReg 0 0) 64 0x40, inUnit pa (dbgReg 0 0) 1024 0x40, inBlock pa (identReg 0) 32 8, inBlock pa (retmapReg 0) 128 8 with
  | some u, _, _, _ => if u.2 = 0x30 then s.qStat u.1 else s.reg pa
  | _, some u, _, _ => if u.2 = 0x08 then BitVec.ofNat 64 (setBits (s.reg pa).toNat 0 0 (s.someDebug u.1).toNat) else s.reg pa
  | _, _, some i, _ => s.identWord i
  | _, _, _, some i => s.retWord i
  | _, _, _, _ => s.reg pa

/-- A read of a device register: the value of the access, and the RC fields that lie whole in it cleared (R6, R8, R486). -/
def State.regRead (s : State) (agent : RegAgent) (pa : Nat) (part : RegPart) : Option (Nat × State) :=
  match regDef pa with
  | none => none
  | some d =>
    if !regReaches agent pa then none
    else
      let v := bits (s.regValue pa).toNat (partHi part) (partLo part)
      let rc := d.rc.filter (fun f => partCovers part f)
      some (v, if rc.isEmpty then s else rc.foldl (fun s f => s.setRegF pa f.1 f.2 0) s)

/-- REGISTER_READ_CLEAR (R6, R8, R486): the value goes to the agent, or an error response for an undefined offset (R151). -/
def execRegisterReadClear (agent : RegAgent) (pa : Nat) (part : RegPart) (s : State) : Out :=
  match s.regRead agent pa part with
  | some (v, s) => .next (s.send (.regValue pa (BitVec.ofNat 64 v)))
  | none => .next (s.send (.regError pa))

end Sys2Proof.Machine
end

