-- ==== Sys2Proof/Machine/Approx.lean ====
section
/-! DEFINITION. The approximate functions (04_numbers.md R108; 15_ref_d_i.md R375, R376). A result that the rules do
not fix is an F32 value within the bound, picked by a constant of Config from the operand's bits alone (log entry 10).
Real numbers are held as enclosures: integers lo and hi at a power of two with lo ≤ x × 2^k ≤ hi. -/

namespace Sys2Proof.Machine

/-! ### F32 values in order -/

/-- The place of an F32 encoding in the order of values: −0 is −1, +0 is 0. -/
def f32Key (x : Nat) : Int := if bit x 31 then -1 - (bits x 30 0 : Nat) else (bits x 30 0 : Nat)

def f32OfKey (k : Int) : Nat := if k < 0 then 2 ^ 31 + (-1 - k).toNat else k.toNat

/-- The least finite F32 value at or above v × 2^e, and the greatest at or below. -/
def f32Ceil (v : Int) (e : Int) : Nat :=
  if v = 0 then 2 ^ 31 else (fmtF32.roundFin 3 0 (v < 0) v.natAbs e).1
def f32Floor (v : Int) (e : Int) : Nat := if v = 0 then 0 else (fmtF32.roundFin 2 0 (v < 0) v.natAbs e).1

/-- An F32 value between lo × 2^e and hi × 2^e, chosen by Config from the operand's bits (log entry 10); both ends are
capped at the largest finite magnitude. -/
def pickF32 (fn operand : Nat) (lo hi : Int) (e : Int) : Nat :=
  let mx : Int := 0x7F7FFFFF
  let a := max (-1 - mx) (f32Key (f32Ceil lo e))
  let b := min mx (f32Key (f32Floor hi e))
  f32OfKey (a + (Config.approxPick fn operand % ((b - a).toNat + 1) : Nat))

/-- Exponent of one unit in the last place of an F32 value whose leading exponent is le. -/
def ulpExp (le : Int) : Int := max (le - 23) (-149)

/-- A result within `n` ulp of a value enclosed by lo and hi at exponent e, of one sign (lo, hi not negative), whose
leading exponent is that of lo: from hi less the bound to lo plus the bound, so that it is in bound wherever the value lies. -/
def withinUlps (fn operand : Nat) (neg : Bool) (n lo hi : Nat) (e : Int) : Nat :=
  let u := ulpExp (leadExp (max lo 1) e)
  let g := min e (u - 2)
  let r : Int := (n * 2 ^ (u - g).toNat : Nat)
  let l : Int := (hi * 2 ^ (e - g).toNat : Nat) - r
  let h : Int := (lo * 2 ^ (e - g).toNat : Nat) + r
  if neg then pickF32 fn operand (-h) (-l) g else pickF32 fn operand l h g

/-- A result within an absolute bound of 2^-22 of a value between lo and hi at exponent e. -/
def withinAbs (fn operand : Nat) (lo hi : Int) (e : Int) : Nat :=
  let g := min e (-22)
  let r : Int := (2 ^ (-22 - g).toNat : Nat)
  let k : Int := (2 ^ (e - g).toNat : Nat)
  pickF32 fn operand (hi * k - r) (lo * k + r) g

/-! ### Enclosures of elementary functions, at 2^-80 -/

def fpUnit : Nat := 2 ^ 80

/-- ln 2 and π at 2^-80, rounded down. -/
def ln2Fp : Nat := 0xB17217F7D1CF79ABC9E3
def piFp : Nat := 0x3243F6A8885A308D31319

/-- The Taylor sum of exp(y) for 0 ≤ y < 1 at 2^-80; the true value lies less than 64 units above. -/
def expFp (y : Nat) : Nat :=
  ((List.range 30).foldl (fun (acc : Nat × Nat) i =>
    let t := acc.2 * y / fpUnit / (i + 1)
    (acc.1 + t, t)) (fpUnit, fpUnit)).1

/-- The Taylor sum of sin(z) for 0 ≤ z ≤ π/2 at 2^-80; the true value lies within 64 units. -/
def sinFp (z : Nat) : Nat :=
  let r := (List.range 20).foldl (fun (acc : Int × Nat) i =>
    let t := acc.2 * z / fpUnit * z / fpUnit / ((2 * i + 2) * (2 * i + 3))
    ((if i % 2 = 0 then acc.1 - (t : Int) else acc.1 + (t : Int)), t)) ((z : Int), z)
  r.1.toNat

/-- The first n fractional bits of log₂ of m × 2^-160 in [1, 2), by repeated squaring; for 72 bits the true value lies less
than 2 units above. -/
def log2Bits (m : Nat) : Nat → Nat
  | 0 => 0
  | n + 1 =>
    let q := m * m / 2 ^ 160
    if 2 ^ 161 ≤ q then 2 ^ n + log2Bits (q / 2) n else log2Bits q n

/-! ### The five functions: result and flags (R108, R376) -/

/-- FRCP of |x| > 2^126, as |x| = m × 2^e: zero, or a subnormal within 1 ulp of 1 / x (R108). -/
def frcpTiny (x m : Nat) (e : Int) : Nat :=
  let n := 2 ^ (149 - e).toNat
  let lo := if n % m = 0 then n / m - 1 else n / m
  let hi := min (n / m + 1) (2 ^ 23 - 1)
  let i := Config.approxPick 0 x % (hi + 2 - lo)
  if i = 0 then 0 else lo + i - 1

/-- FRCP of |x| ≤ 2^-128, where 1 / x lies beyond the largest finite value and R108 names no result: the largest finite
magnitude or infinity, as a free value (log entry 10). R108 gives FRCP no OF. -/
def frcpHuge (x : Nat) : Nat := if Config.approxPick 0 x % 2 = 0 then fmtF32.maxEnc else fmtF32.infEnc

/-- FRCP: 1 / x within 1 ulp. -/
def frcpVal (x : Nat) : Nat × Nat :=
  match fmtF32.dec x with
  | .nan sg => (fmtF32.nanEnc, flagIf sg flagNV)
  | .inf neg => (fmtF32.signEnc neg 0, 0)
  | .fin neg m e =>
    if m = 0 then (fmtF32.signEnc neg fmtF32.infEnc, flagDZ)
    else if 2 ^ 275 < m * 2 ^ (e + 149).toNat then (fmtF32.signEnc neg (frcpTiny x m e), 0)
    else if m * 2 ^ (e + 149).toNat ≤ 2 ^ 21 then (fmtF32.signEnc neg (frcpHuge x), 0)
    else
      let v := 2 ^ 100 / m
      (withinUlps 0 x neg 1 v (if 2 ^ 100 % m = 0 then v else v + 1) (-100 - e), 0)

/-- FRSQ: 1 / √x within 2 ulp. -/
def frsqVal (x : Nat) : Nat × Nat :=
  match fmtF32.dec x with
  | .nan sg => (fmtF32.nanEnc, flagIf sg flagNV)
  | .inf neg => if neg then (fmtF32.nanEnc, flagNV) else (0, 0)
  | .fin neg m e =>
    if m = 0 then (fmtF32.signEnc neg fmtF32.infEnc, flagDZ)
    else if neg then (fmtF32.nanEnc, flagNV)
    else
      let (m, e) := if e % 2 = 0 then (m, e) else (2 * m, e - 1)
      let v := isqrt (2 ^ 240 / m) 122 0
      (withinUlps 1 x false 2 v (if v * v * m = 2 ^ 240 then v else v + 1) (-120 - e / 2), 0)

/-- FEXP2: 2^x within 2 ulp; integers in range are exact. -/
def fexp2Val (x : Nat) : Nat × Nat :=
  match fmtF32.dec x with
  | .nan sg => (fmtF32.nanEnc, flagIf sg flagNV)
  | .inf neg => (if neg then 0 else fmtF32.infEnc, 0)
  | .fin neg m e =>
    -- |x| in units of 2^-80, rounded down; beyond 2^20 the result is an overflow or far below every subnormal
    if 20 ≤ leadExp m e && m != 0 then (if neg then withinUlps 2 x false 2 0 1 (-300) else fmtF32.infEnc, flagIf (!neg) flagOF)
    else
      let (k, r, _) := scaleTo m e (-80)
      let whole := k / fpUnit
      let frac := k % fpUnit
      if frac = 0 && r = 0 then
        if neg then
          if whole ≤ 149 then ((fmtF32.roundFin 0 0 false 1 (-(whole : Int))).1, 0)
          else (withinUlps 2 x false 2 1 1 (-(whole : Int)), 0)
        else if whole < 128 then ((fmtF32.roundFin 0 0 false 1 whole).1, 0) else (fmtF32.infEnc, flagOF)
      else
        -- floor and fraction of x itself
        let fl : Int := if neg then -(whole : Int) - 1 else whole
        let fr := if neg then fpUnit - frac else frac
        if 128 ≤ fl then (fmtF32.infEnc, flagOF)
        else
          let v := expFp (fr * ln2Fp / fpUnit)
          -- 2 to a fraction lies from 1 to below 2
          (withinUlps 2 x false 2 (max fpUnit (v - 8)) (min (v + 128) (2 * fpUnit)) (fl - 80), 0)

/-- FLOG2: log₂ x, absolute 2^-22 for x in [0.5, 2], 2 ulp elsewhere; powers of two are exact. -/
def flog2Val (x : Nat) : Nat × Nat :=
  match fmtF32.dec x with
  | .nan sg => (fmtF32.nanEnc, flagIf sg flagNV)
  | .inf neg => if neg then (fmtF32.nanEnc, flagNV) else (fmtF32.infEnc, 0)
  | .fin neg m e =>
    if m = 0 then (fmtF32.signEnc true fmtF32.infEnc, flagDZ)
    else if neg then (fmtF32.nanEnc, flagNV)
    else
      let le := leadExp m e
      if m = 2 ^ flog2 m then (fmtF32.round 0 0 (FVal.ofInt le))
      else
        let f := log2Bits (m * 2 ^ 160 / 2 ^ flog2 m) 72
        let lo : Int := le * 2 ^ 72 + (f : Nat)
        let hi := lo + 2
        if le = 0 || le = -1 then (withinAbs 3 x lo hi (-72), 0)
        else if 0 < le then (withinUlps 3 x false 2 lo.toNat hi.toNat (-72), 0)
        else (withinUlps 3 x true 2 (-hi).toNat (-lo).toNat (-72), 0)

/-- FSINP: sin(π x), absolute 2^-22; integers give 0 with the sign of x, halves give ±1. -/
def fsinpVal (x : Nat) : Nat × Nat :=
  match fmtF32.dec x with
  | .nan sg => (fmtF32.nanEnc, flagIf sg flagNV)
  | .inf _ => (fmtF32.nanEnc, flagNV)
  | .fin neg m e =>
    let (k, r, _) := scaleTo m e (-80)
    let k := k % (2 * fpUnit)
    if r = 0 && k % fpUnit = 0 then (fmtF32.signEnc neg 0, 0)
    else if r = 0 && k % fpUnit = fpUnit / 2 then
      ((if neg != decide (fpUnit ≤ k) then 0xBF800000 else 0x3F800000), 0)
    else
      let h := k % fpUnit
      let h := if fpUnit / 2 < h then fpUnit - h else h
      let v := sinFp (h * piFp / fpUnit)
      let lo : Int := max 0 ((v : Int) - 256)
      let hi : Int := (v : Int) + 256
      if neg != decide (fpUnit ≤ k) then (withinAbs 4 x (-hi) (-lo) (-80), 0) else (withinAbs 4 x lo hi (-80), 0)

end Sys2Proof.Machine
end

