-- ==== Sys2Proof/Machine/FloatAlu.lean ====
section
/-! DEFINITION. The float, packed, approximate and conversion instructions (14_ref_a_c.md R361 to R363; 15_ref_d_i.md
R371 to R380; 16_ref_j_r.md R408, R409). -/

namespace Sys2Proof.Machine

/-- The random number of one rounding: one generator step under RS, none in another mode (R101). -/
def Lot.draw (l : Lot) (a : Agent) (rnd : Nat) : Nat × Lot :=
  if rnd = 4 then
    let (n, l) := l.rngStep a
    (bits n 31 8, l)
  else (0, l)

/-- Writes a result and its flags (R371). -/
def Lot.setFloat (l : Lot) (a : Agent) (d : BitVec 7) (width : Nat) (r : Nat × Nat) : Lot :=
  (l.setVal a d width false r.1).orFlags a.w r.2

/-- An instruction with a rounded result: one rounding per lane under the mode. -/
def State.float (s : State) (f : FmtA) (uses : List Use) (op : Ty → Bool → Lot → Agent → FVal) : Out :=
  let ty := f.ty .f32
  s.each true uses f.p (fun l a =>
    let v := op ty (f.rnd == 2) l a
    let (u, l) := l.draw a f.rnd
    l.setFloat a f.d ty.bits ((fmtOf ty).round f.rnd u v))

/-- The exact value of a register operand. -/
def Lot.real (l : Lot) (a : Agent) (r : BitVec 7) (ty : Ty) : FVal := (fmtOf ty).dec (l.val a r ty.bits)

def Lot.realB (l : Lot) (a : Agent) (f : FmtA) (ty : Ty) : FVal := (fmtOf ty).dec (l.bVal a f ty)

/-- FADD (R372). -/
def execFadd (f : FmtA) (s : State) : Out :=
  s.float f (usesA f (f.ty .f32) true false) (fun ty rd l a => FVal.add rd (l.real a f.a ty) (l.realB a f ty))

/-- FSUB: FADD with the sign of y inverted (R372). -/
def execFsub (f : FmtA) (s : State) : Out :=
  s.float f (usesA f (f.ty .f32) true false) (fun ty rd l a => FVal.add rd (l.real a f.a ty) (l.realB a f ty).negate)

/-- FMUL (R372). -/
def execFmul (f : FmtA) (s : State) : Out :=
  s.float f (usesA f (f.ty .f32) true false) (fun ty _ l a => FVal.mul (l.real a f.a ty) (l.realB a f ty))

/-- FFMA, accumulate form (R377, R378). -/
def execFfma (f : FmtA) (s : State) : Out :=
  s.float f (usesA f (f.ty .f32) true false) (fun ty rd l a =>
    FVal.fma rd (l.real a f.a ty) (l.realB a f ty) (l.real a f.d ty))

/-- FFMA, four-operand form (R377, R378). -/
def execFfma4 (f : FmtA) (s : State) : Out :=
  s.float f (usesA f (f.ty .f32) true true) (fun ty rd l a =>
    FVal.fma rd (l.real a f.a ty) (l.realB a f ty) (l.real a f.cReg ty))

/-- FSQRT (R380). -/
def execFsqrt (f : FmtA) (s : State) : Out :=
  s.float f (usesA f .f32 false false) (fun _ _ l a => (l.real a f.a .f32).sqrt)

/-- A minimum or maximum of numbers (R379). -/
def State.floatMinMax (s : State) (f : FmtA) (wantMax : Bool) : Out :=
  let ty := f.ty .f32
  s.each true (usesA f ty true false) f.p (fun l a =>
    l.setFloat a f.d ty.bits ((fmtOf ty).minMax wantMax (l.val a f.a ty.bits) (l.bVal a f ty)))

/-- FMIN (R379). -/
def execFmin (f : FmtA) (s : State) : Out := s.floatMinMax f false

/-- FMAX (R379). -/
def execFmax (f : FmtA) (s : State) : Out := s.floatMinMax f true

/-- FCMP (R373, R374). -/
def execFcmp (f : FmtP) (s : State) : Out :=
  let ty := match f.m with
    | some m => m.ty
    | none => Ty.f32
  let imm := f.m.bind (fun m => m.imm)
  let uses := [useW f.a ty.bits] ++ (if imm.isNone then [useW f.b ty.bits] else [])
  s.each true uses f.p (fun l a =>
    let x := l.real a f.a ty
    let b := match imm with
      | some w => immVal ty w
      | none => l.val a f.b ty.bits
    let y := (fmtOf ty).dec b
    let v := ccFloat f.cc.toNat x y
    let l := l.orFlags a.w (cmpFlags f.cc.toNat x y)
    let l := l.setPred a f.pd.toNat v
    match f.m with
    | some m => if m.pc = 0 then l else l.setPred a m.pc.toNat (!v)
    | none => l)

/-- An approximate function of an F32 register. -/
def State.approx (s : State) (f : FmtA) (op : Nat → Nat × Nat) : Out :=
  s.each true [use1 f.d, use1 f.a] f.p (fun l a => l.setFloat a f.d 32 (op (l.val a f.a 32)))

/-- FRCP (R375, R376). -/
def execFrcp (f : FmtA) (s : State) : Out := s.approx f frcpVal

/-- FRSQ (R375, R376). -/
def execFrsq (f : FmtA) (s : State) : Out := s.approx f frsqVal

/-- FEXP2 (R375, R376). -/
def execFexp2 (f : FmtA) (s : State) : Out := s.approx f fexp2Val

/-- FLOG2 (R375, R376). -/
def execFlog2 (f : FmtA) (s : State) : Out := s.approx f flog2Val

/-- FSINP (R375, R376). -/
def execFsinp (f : FmtA) (s : State) : Out := s.approx f fsinpVal

/-- A packed instruction: each half from the halves in the same position, the low half's generator step first (R409). -/
def State.packed (s : State) (f : FmtA) (readsC : Bool) (op : Bool → FVal → FVal → FVal → FVal) : Out :=
  let ty := f.ty .bf16
  let fm := fmtOf ty
  let uses := [use1 f.d, use1 f.a] ++ (if f.immOf.isNone then [use1 f.b] else []) ++ (if readsC then [use1 f.cReg] else [])
  s.each true uses f.p (fun l a =>
    let x := l.val a f.a 32
    let y := match f.immOf with
      | some w => w.toNat
      | none => l.val a f.b 32
    let z := l.val a (if readsC then f.cReg else f.d) 32
    let half (i : Nat) : FVal := op (f.rnd == 2) (fm.dec (bits x (16 * i + 15) (16 * i)))
      (fm.dec (bits y (16 * i + 15) (16 * i))) (fm.dec (bits z (16 * i + 15) (16 * i)))
    let (u0, l) := l.draw a f.rnd
    let (u1, l) := l.draw a f.rnd
    let r0 := fm.round f.rnd u0 (half 0)
    let r1 := fm.round f.rnd u1 (half 1)
    l.setFloat a f.d 32 (r0.1 + 2 ^ 16 * r1.1, r0.2 ||| r1.2))

/-- PADD2 (R408, R409). -/
def execPadd2 (f : FmtA) (s : State) : Out := s.packed f false (fun rd x y _ => FVal.add rd x y)

/-- PMUL2 (R408, R409). -/
def execPmul2 (f : FmtA) (s : State) : Out := s.packed f false (fun _ x y _ => FVal.mul x y)

/-- PFMA2, accumulate form (R408, R409). -/
def execPfma2 (f : FmtA) (s : State) : Out := s.packed f false FVal.fma

/-- PFMA2, four-operand form (R408, R409). -/
def execPfma24 (f : FmtA) (s : State) : Out := s.packed f true FVal.fma

/-- CVT: the source's low bits; I8 and I16 results are sign-extended, other narrow results zero-extended; one generator
step under RS even for an exact result (R361 to R363). -/
def execCvt (f : FmtCvt) (s : State) : Out :=
  s.each true [useW f.d f.dst.bits, useW f.a f.src.bits] f.p (fun l a =>
    let x := l.val a f.a f.src.bits
    let rnd := f.rnd.code.toNat
    let (u, l) := l.draw a rnd
    let (r, fl) := cvtVal f.dst f.src rnd u x
    (l.setVal a f.d f.dst.bits f.dst.signed r).orFlags a.w fl)

end Sys2Proof.Machine
end

