-- ==== Sys2Proof/Machine/Lanes.lean ====
section
/-! DEFINITION. The cross-lane instructions: their participants are the threads of the executing thread's home warp in
the formed warp whose guard is true (14_ref_a_c.md R342; 15_ref_d_i.md R367; 16_ref_j_r.md R398, R399; 17_ref_s_z.md
R429, R430, R445; 03_issue.md R83). -/

namespace Sys2Proof.Machine

/-- BALLOT (R342). -/
def execBallot (f : FmtA) (s : State) : Out :=
  s.eachWarp [use1 f.d] f.p (fun l _ as =>
    let v := laneMask (as.filter (fun a => l.pred a f.b.toNat))
    as.foldl (fun l a => l.setVal a f.d 32 false v.toNat) l)

/-- MATCH (R399). -/
def execMatchLanes (f : FmtA) (s : State) : Out :=
  let n := (f.ty .b32).bits
  s.eachWarp [use1 f.d, useW f.a n] f.p (fun l0 _ as =>
    as.foldl (fun l a =>
      l.setVal a f.d 32 false (laneMask (as.filter (fun x => l0.val x f.a n == l0.val a f.a n))).toNat) l0)

/-- ELECT (R367): the participant with the lowest home lane. -/
def execElect (f : FmtA) (s : State) : Out :=
  s.eachWarp [] f.p (fun l _ as =>
    let first := as.foldl (fun m a => min m a.l) 32
    as.foldl (fun l a => l.setPred a (f.d.toNat % 8) (a.l == first)) l)

/-- An LRED over the participants in ascending home-lane order (R398). -/
def State.lred (s : State) (f : FmtA) (op : Ty → Nat → Nat → Nat) : Out :=
  let ty := f.ty .i32
  s.eachWarp [use1 f.d, use1 f.a] f.p (fun l _ as =>
    match as.map (fun a => l.val a f.a 32) with
    | [] => l
    | x :: xs =>
      let v := xs.foldl (op ty) x
      as.foldl (fun l a => l.setVal a f.d 32 false v) l)

/-- LRED.ADD (R398). -/
def execLredAdd (f : FmtA) (s : State) : Out := s.lred f (fun _ a b => wrapN (a + b) 32)

/-- LRED.MIN (R398). -/
def execLredMin (f : FmtA) (s : State) : Out := s.lred f minTy

/-- LRED.MAX (R398). -/
def execLredMax (f : FmtA) (s : State) : Out := s.lred f maxTy

/-- LRED.AND, LRED.OR and LRED.XOR (R398). -/
def execLredBitwise (op : BitOp) (f : FmtA) (s : State) : Out :=
  s.lred f (fun _ a b => match op with
    | .and => a &&& b
    | .or => a ||| b
    | .xor => a ^^^ b)

/-- Source lane of SHFL (R430). -/
def shflSource (mode : ShflMode) (l b : Nat) : Nat :=
  match mode with
  | .idx => b % 32
  | .xor => l ^^^ (b % 32)
  | .up => (l + 32 - b % 32) % 32
  | .dn => (l + b % 32) % 32

/-- SHFL on the sources read at issue; a lane whose source is no participant keeps its own value (R430). -/
def State.shuffle (s : State) (p : BitVec 3) (uses : List Use) (d a : BitVec 7) (mode : ShflMode)
    (b : Lot → Agent → Nat) : Out :=
  s.eachWarp uses p (fun l0 w as =>
    as.foldl (fun l t =>
      let j : Agent := ⟨w, shflSource mode t.l (b l0 t)⟩
      l.setVal t d 32 false (if as.contains j then l0.val j a 32 else l0.val t a 32)) l0)

/-- SHFL with a register (R429). -/
def execShfl (p : BitVec 3) (d a b : BitVec 7) (mode : ShflMode) (s : State) : Out :=
  s.shuffle p [use1 d, use1 a, use1 b] d a mode (fun l t => l.val t b 32)

/-- SHFL with an immediate (R429). -/
def execShflImm (p : BitVec 3) (d a : BitVec 7) (imm : BitVec 5) (mode : ShflMode) (s : State) : Out :=
  s.shuffle p [use1 d, use1 a] d a mode (fun _ _ => imm.toNat)

/-- VOTE (R445). -/
def execVote (p : BitVec 3) (mode : VoteMode) (pd ps : BitVec 3) (s : State) : Out :=
  s.eachWarp [] p (fun l _ as =>
    let yes := as.filter (fun a => l.pred a ps.toNat)
    let v := match mode with
      | .all => yes.length == as.length
      | .any => yes.length != 0
      | .same => yes.length == as.length || yes.length == 0
      | .par => yes.length % 2 == 1
    as.foldl (fun l a => l.setPred a pd.toNat v) l)

end Sys2Proof.Machine
end

