-- ==== Sys2Proof/Machine/Packets.lean ====
section
/-! DEFINITION. The command processors and the packets of the command queues (02_work.md R53 to R59). -/

namespace Sys2Proof.Machine

/-! ### Reads of a command processor -/

/-- Aligned bytes of a context by VA; in the device-register region a register is read (R151). -/
def State.cpRead (s : State) (w : Waiter) (ctx va n : Nat) : EngRes × State :=
  match s.ioWalk w ctx va with
  | (.ok _, s) =>
    (match s.ioTranslate ctx va .read with
    | .bad code detail => (.bad code detail, s)
    | .ok pa _ _ _ =>
      if region pa = 3 then
        let part : RegPart := if n = 8 then .whole else if pa % 8 = 4 then .upper else .lower
        match s.regRead .commandProcessor (pa / 8 * 8) part with
        | some (v, s) => (.ok v, s)
        | none => (.bad 0x30 0, s)
      else s.ioRead w pa n)
  | r => r

/-- A word of a packet in a buffer at any byte address. -/
def State.cpWord (s : State) (w : Waiter) (ctx va : Nat) : EngRes × State :=
  if va % 4 = 0 then s.cpRead w ctx va 4
  else
    (List.range 4).foldl (fun (r : EngRes × State) i =>
      match r with
      | (.ok v, s) =>
        (match s.ioReadVa w ctx ((va + i) % 2 ^ 80) 1 with
        | (.ok b, s) => (.ok (v + b * 256 ^ i), s)
        | r => r)
      | r => r) (.ok 0, s)

/-! ### Where a queue stands -/

/-- The innermost packet buffer of a queue: address, length, position. -/
def Queue.buffer (x : Queue) : Option (VAddr × Nat × Nat) :=
  x.frames.findSome? (fun f => match f with
    | .buf va len pos => some (va, len, pos)
    | .loop _ _ _ => .none)

/-- Context and priority of a queue. -/
def State.qCtx (s : State) (q : Nat) : Nat := s.regF (queueReg q 0) 19 8
def State.qPrio (s : State) (q : Nat) : Nat := s.regF (queueReg q 0) 2 1
def State.qBase (s : State) (q : Nat) : Nat := s.regF (queueReg q 0x08) 51 12 * 4096

/-- The position of the next packet: an offset in the innermost buffer, or in the ring. -/
def State.qPos (s : State) (q : Nat) : Nat :=
  match (s.queue q).buffer with
  | some (_, _, pos) => pos
  | none => s.qHead q

/-- The address of a byte of the stream: a VA in a buffer, a PA in the ring. -/
def State.qAddr (s : State) (q pos : Nat) : Nat :=
  match (s.queue q).buffer with
  | some (va, _, _) => (va.toNat + pos) % 2 ^ 80
  | none => s.qBase q + pos % s.ringSize q

/-- A word of the stream. -/
def State.qWord (s : State) (q pos : Nat) : EngRes × State :=
  if (s.queue q).buffer.isSome then s.cpWord (.cp (q / 16)) (s.qCtx q) (s.qAddr q pos)
  else s.ioRead (.cp (q / 16)) (s.qAddr q pos) 4

/-- n words of the stream. -/
def State.qWords (s : State) (q pos : Nat) : Nat → Option (List Nat) × EngRes × State
  | 0 => (some [], .ok 0, s)
  | n + 1 =>
    match s.qWord q pos with
    | (.ok w, s) =>
      match State.qWords s q (pos + 4) n with
      | (some ws, r, s) => (some (w :: ws), r, s)
      | r => r
    | (r, s) => (none, r, s)

/-- Does a queue run: READY, EN, not halted, not blocked, and with a packet to run (R53, R324)? -/
def State.qRuns (s : State) (q : Nat) : Bool :=
  s.isReady && s.qEn q && s.regF (queueReg q 0x30) 2 2 == 0 && (s.queue q).blocked == .no
  && ((s.queue q).inBuffer || s.qHead q != s.qTail q)

/-- The queue that a command processor serves next: round-robin among its queues of the highest priority that run (R53). -/
def State.cpPick (s : State) (cp : Nat) : Option Nat :=
  let prios := ((List.range 16).filter (fun i => s.qRuns (16 * cp + i))).map (fun i => s.qPrio (16 * cp + i))
  match prios with
  | [] => none
  | p :: rest =>
    let prio := rest.foldl min p
    let first := Tbl.get 0 s.w.cpRR (4 * cp + prio)
    ((List.range 16).map (fun i => 16 * cp + (first + i) % 16)).find? (fun q => s.qRuns q && s.qPrio q == prio)

/-- An error stops the queue before the packet: HALTED, ERR, the record; loops and buffers are left, HEAD stays. -/
def State.qStop (s : State) (q code : Nat) (desc : VAddr) : State :=
  let inBuf := (s.queue q).buffer.isSome
  let r : FRec :=
    { kind := 5, code := code, flags := if inBuf then 0 else 1, core := 0xFFFF, desc := desc, lot := q, lotend := q, warp := 0xFF,
      tag := 0, outcome := 0, detail := 0, lanes := 0, pc := 0, addr := s.qAddr q (s.qPos q) }
  let s := (s.setRegF (queueReg q 0x30) 15 8 code).setRegF (queueReg q 0x30) 2 2 1
  (s.setQueue q { s.queue q with frames := [], blocked := .no }).writeRec (s.qCtx q) r

/-! ### Going on (R53, R57) -/

/-- A CALLBUF packet has 5 words. -/
def callbufBytes : Nat := 20

/-- Changes the position of the innermost buffer of a list of frames; none without one. -/
def onBuf (f : Nat → Nat) : List Frame → Option (List Frame)
  | [] => none
  | .buf va len pos :: rest => some (.buf va len (f pos) :: rest)
  | .loop a b c :: rest => (onBuf f rest).map (fun r => .loop a b c :: r)

/-- The stream goes on by n bytes; a buffer that has ended is left, and its CALLBUF packet is passed. -/
def State.qAdvance (s : State) (q n : Nat) : Nat → State
  | 0 => s
  | fuel + 1 =>
    let x := s.queue q
    match onBuf (fun p => p + n) x.frames with
    | none => s.setReg (queueReg q 0x10) (BitVec.ofNat 64 ((s.qHead q + n) % s.ringSize q))
    | some fs =>
      match fs with
      | .buf _ len pos :: rest =>
        if len ≤ pos then State.qAdvance (s.setQueue q { x with frames := rest }) q callbufBytes fuel
        else s.setQueue q { x with frames := fs }
      | _ => s.setQueue q { x with frames := fs }

/-- Bytes from the start of a loop's body to a position of its stream. -/
def State.fromStart (s : State) (q start pos : Nat) : Nat :=
  if (s.queue q).buffer.isSome then pos - start else (pos + s.ringSize q - start % s.ringSize q) % s.ringSize q

/-- How many bytes remain, from the next packet on, in the bodies of the loops that are open in this stream, innermost first. -/
def State.loopsLeft (s : State) (q : Nat) : List Frame → List Nat
  | .loop start stop _ :: rest => (stop - start - s.fromStart q start (s.qPos q)) :: State.loopsLeft s q rest
  | _ => []

def State.qLoopsLeft (s : State) (q : Nat) : List Nat := s.loopsLeft q (s.queue q).frames

def State.qBufLeft (s : State) (q : Nat) : Option Nat := (s.queue q).buffer.map (fun b => b.2.1 - b.2.2)

/-- Do n bytes from here keep to packet boundaries (R57): within the buffer and every open body; the body of a loop ends with
the ENDLOOP of its own level, and a buffer not before that? -/
def State.qFits (s : State) (q n : Nat) (endloop : Bool) : Bool :=
  let loops := s.qLoopsLeft q
  (match s.qBufLeft q with
  | some left => n ≤ left && (n < left || loops.isEmpty || (endloop && loops.length == 1))
  | none => true)
  && (match loops with
  | left :: outer => (if endloop then n == left else n < left) && outer.all (fun m => n < m)
  | [] => true)

/-! ### One packet -/

/-- Known OPs, with the FLAGS that a packet may have and the LEN that it must have (R55). -/
def packetShape (op flags : Nat) : Option (Nat × Option Nat) :=
  match op with
  | 0x00 => some (0, none)
  | 0x01 => some (0, some 3)
  | 0x02 => some (0, some 6)
  | 0x03 => some (1, some (if bit flags 0 then 6 else 3))
  | 0x04 => some (3, some (if bit flags 0 then 6 else 3))
  | 0x05 => some (0, some 2)
  | 0x06 => some (0, some 0)
  | 0x07 => some (1, some (if bit flags 0 then 7 else 4))
  | 0x08 => some (0, some 4)
  | 0x09 => some (7, some 1)
  | 0x0A => some (3, some 1)
  | 0x0B => some (1, some 2)
  | 0x0C => some (0, some 1)
  | _ => none

/-- A packet with its words after the header. -/
structure Pkt where
  op : Nat
  flags : Nat
  len : Nat
  ws : List Nat
deriving DecidableEq, Repr

def Pkt.bytes (p : Pkt) : Nat := 4 + 4 * p.len
def Pkt.w (p : Pkt) (i : Nat) : Nat := p.ws.getD i 0

/-- The VA in three words at i, or none where its reserved bits are set (R54). -/
def Pkt.va (p : Pkt) (i : Nat) : Option Nat :=
  if p.w (i + 2) / 2 ^ 16 != 0 then none else some (p.w i + p.w (i + 1) * 2 ^ 32 + p.w (i + 2) * 2 ^ 64)

/-- What the reading of the next packet of a queue gives. -/
inductive PktRes where
  | ok (p : Pkt)
  | wait
  | bad (op : Option Nat) (code : Nat)
deriving DecidableEq, Repr

/-- Reads and checks the next packet of a queue (R54, R55, R57, R59). A NOP's payload is skipped unread. -/
def State.readPkt (s : State) (q : Nat) : PktRes × State :=
  if (match s.qBufLeft q with
    | some left => decide (left < 4)
    | none => false) then (.bad none 0x02, s)
  else match s.qWord q (s.qPos q) with
  | (.wait, s) => (.wait, s)
  | (.bad _ _, s) => (.bad none 0x06, s)
  | (.ok h, s) =>
    let op := bits h 31 24
    let flags := bits h 23 20
    let len := bits h 7 0
    match packetShape op flags with
    | none => (.bad none 0x01, s)
    | some (allowed, want) =>
      if bits h 19 8 != 0 || andNot flags allowed != 0 then (.bad (some op) 0x03, s)
      else if want.any (fun n => n != len) || !s.qFits q (4 + 4 * len) (op == 0x06) then (.bad (some op) 0x02, s)
      else if op = 0 then (.ok ⟨op, flags, len, []⟩, s)
      else match s.qWords q (s.qPos q + 4) len with
      | (some ws, _, s) => (.ok ⟨op, flags, len, ws⟩, s)
      | (none, .wait, s) => (.wait, s)
      | (none, _, s) => (.bad (some op) 0x06, s)

/-- The command processor has served a queue: the next in turn comes first among those of its priority, and what the packet read is
done with (R53). -/
def State.cpServed (s : State) (q : Nat) : State :=
  { s with w := { s.w with cpRR := Tbl.put 0 s.w.cpRR (4 * (q / 16) + s.qPrio q) ((q + 1) % 16) } }.endTransfers (.cp (q / 16))

/-- The event of a packet kind: the command processor picks the queue, and its next packet is of that OP. A read that has to
wait answers an error, with the state in which it waits. -/
def State.packet (s : State) (q op : Nat) (f : Pkt → State → Except State State) : Out :=
  if 64 ≤ q || s.cpPick (q / 16) != some q then .next s
  else match s.readPkt q with
  | (.ok p, t) =>
    if p.op != op then .next s
    else (match f p t with
      | .ok t => .next (t.cpServed q)
      | .error t => .next t)
  | (.bad (some o) code, t) => .next (if o = op then (t.qStop q code 0).cpServed q else s)
  | (.wait, t) => .next t
  | _ => .next s

/-- The packet is done: the queue goes on behind it. -/
def State.qDone (s : State) (q : Nat) (p : Pkt) : State := s.qAdvance q p.bytes 5

/-- PACKET_NOP. -/
def execPacketNop (q : Nat) (s : State) : Out := s.packet q 0x00 (fun p s => .ok (s.qDone q p))

/-- PACKET_UNKNOWN_OP: the queue stops with 0x01; also where the header cannot be read (0x06) or does not fit its buffer
(0x02). -/
def execPacketUnknownOp (q : Nat) (s : State) : Out :=
  if 64 ≤ q || s.cpPick (q / 16) != some q then .next s
  else match s.readPkt q with
  | (.bad none code, t) => .next ((t.qStop q code 0).cpServed q)
  | _ => .next s

/-! ### Launches (R55, R56) -/

/-- The innermost open level of a queue (R47). -/
def Queue.level (x : Queue) : Option Nat :=
  (x.graph.orElse (fun _ => x.phase)).orElse (fun _ => x.job)

/-- Accepts a launch of a queue. In a level that has been cancelled it runs as in any other: R49 acts on what the level holds when
it is cancelled (log entry 99). -/
def State.qLaunch (s : State) (q : Nat) (d : Desc) : State :=
  let x := s.queue q
  let (id, s) := s.accept (d.launch (s.qCtx q) q (s.qPrio q) x.level none false)
  s.setQueue q { x with lastLaunch := some id }

/-- PACKET_LAUNCH. -/
def execPacketLaunch (q : Nat) (s : State) : Out :=
  s.packet q 0x01 (fun p s =>
    match p.va 0 with
    | none => .ok (s.qStop q 0x03 0)
    | some va =>
      let va := BitVec.ofNat 80 va
      match s.readDesc (.cp (q / 16)) (s.qCtx q) va none with
      | (.ok d, s) => .ok ((s.qLaunch q d).qDone q p)
      | (.wait, s) => .error s
      | (.bad code, s) => .ok (s.qStop q code va))

/-- The three words of a LAUNCHIND. -/
def State.gridWords (s : State) (w : Waiter) (ctx va : Nat) : Option (List Nat) × EngRes × State :=
  match s.cpRead w ctx va 4 with
  | (.ok x, s) =>
    match s.cpRead w ctx ((va + 4) % 2 ^ 80) 4 with
    | (.ok y, s) =>
      match s.cpRead w ctx ((va + 8) % 2 ^ 80) 4 with
      | (.ok z, s) => (some [x, y, z], .ok 0, s)
      | (r, s) => (none, r, s)
    | (r, s) => (none, r, s)
  | (r, s) => (none, r, s)

/-- PACKET_LAUNCHIND. -/
def execPacketLaunchind (q : Nat) (s : State) : Out :=
  s.packet q 0x02 (fun p s =>
    match p.va 0, p.va 3 with
    | some va, some gv =>
      let va := BitVec.ofNat 80 va
      if gv % 4 != 0 then .ok (s.qStop q 0x08 0)
      else match s.gridWords (.cp (q / 16)) (s.qCtx q) gv with
      | (some ws, _, s) =>
        let g := (ws.getD 0 0, ws.getD 1 0, ws.getD 2 0)
        if 2 ^ 31 < g.1 * g.2.1 * g.2.2 then .ok (s.qStop q 0x04 va)
        else (match s.readDesc (.cp (q / 16)) (s.qCtx q) va (some g) with
          | (.ok d, s) => .ok ((s.qLaunch q d).qDone q p)
          | (.wait, s) => .error s
          | (.bad code, s) => .ok (s.qStop q code va))
      | (none, .wait, s) => .error s
      | (none, _, s) => .ok (s.qStop q 0x06 0)
    | _, _ => .ok (s.qStop q 0x03 0))

/-! ### Conditions (R54, R55) -/

/-- What the evaluation of a condition gives. -/
inductive CondRes where
  | holds (b : Bool)
  | wait
  | bad (code : Nat)
deriving DecidableEq, Repr

/-- The condition of WAIT and IF: the condition word, the value, and with MEM the word at a VA, whose three words start at
`vaAt`. -/
def State.condition (s : State) (q : Nat) (p : Pkt) (vaAt : Nat) : CondRes × State :=
  let c := p.w 0
  let v := p.w 1 + p.w 2 * 2 ^ 32
  let test (x : Nat) : CondRes :=
    match bits c 17 16 with
    | 0 => .holds (v ≤ x)
    | 1 => .holds (x == v)
    | _ => .holds (x != v)
  if bits c 15 10 != 0 || bits c 31 18 != 0 || bits c 17 16 = 3 then (.bad 0x03, s)
  else if !bit p.flags 0 then (test (s.counter (s.qCtx q) (bits c 9 0)).toNat, s)
  else match p.va vaAt with
  | none => (.bad 0x03, s)
  | some va =>
    if va % 8 != 0 then (.bad 0x08, s)
    else match s.cpRead (.cp (q / 16)) (s.qCtx q) va 8 with
    | (.ok x, s) => (test x, s)
    | (.wait, s) => (.wait, s)
    | (.bad _ _, s) => (.bad 0x06, s)

def State.setBlocked (s : State) (q : Nat) (b : Blocked) : State := s.setQueue q { s.queue q with blocked := b }

/-- A WAIT is evaluated: the queue goes on, blocks or stops. -/
def State.evalWait (s : State) (q : Nat) (p : Pkt) : Except State State :=
  match s.condition q p 3 with
  | (.holds true, s) => .ok ((s.setBlocked q .no).qDone q p)
  | (.holds false, s) => .ok (s.setBlocked q .wait)
  | (.wait, s) => .error s
  | (.bad code, s) => .ok (s.qStop q code 0)

/-- A blocked WAIT is evaluated again; `mem` says whether it waits for a memory word. -/
def State.reWait (s : State) (q : Nat) (mem : Bool) : State :=
  if 64 ≤ q || (s.queue q).blocked != .wait then s
  else match s.readPkt q with
  | (.ok p, t) =>
    if p.op = 0x03 && bit p.flags 0 == mem then (match t.evalWait q p with
      | .ok t => if (t.queue q).blocked = .wait then t else t.endTransfers (.cp (q / 16))
      | .error t => t)
    else s
  | (.wait, t) => t
  | _ => s

/-- PACKET_WAIT: the packet when it comes to its turn, and a blocked one whose counter may have changed. -/
def execPacketWait (q : Nat) (s : State) : Out :=
  if (s.queue q).blocked = .wait then .next (s.reWait q false) else s.packet q 0x03 (fun p s => s.evalWait q p)

/-- WAIT_WORD_REREAD: a blocked WAIT reads its memory word again. -/
def execWaitWordReread (q : Nat) (s : State) : Out := .next (s.reWait q true)

/-- PACKET_IF: where the condition is false, the skip must keep to packet boundaries as a packet must. -/
def execPacketIf (q : Nat) (s : State) : Out :=
  s.packet q 0x07 (fun p s =>
    let skip := p.w (if bit p.flags 0 then 6 else 3)
    match s.condition q p 3 with
    | (.holds true, s) => .ok (s.qDone q p)
    | (.holds false, s) =>
      if skip % 4 != 0 || !s.qFits q (p.bytes + skip) false then .ok (s.qStop q 0x02 0) else .ok (s.qAdvance q (p.bytes + skip) 5)
    | (.wait, s) => .error s
    | (.bad code, s) => .ok (s.qStop q code 0))

/-! ### SIGNAL (R55) -/

/-- What a SIGNAL does to memory at its home (R58, R216, R217). -/
def State.signalDo (s : State) (pa v : Nat) (add : Bool) : State :=
  if !add then s.homeWrite pa 8 v
  else if region pa = 2 && s.p.atomicOps then
    -- a native AtomicOp of the host
    let s := (s.hostClean (hostLineOf pa) true).send (.atomicOp pa .add 8 v 0)
    let old := ofBytes (s.m.mem.readBytes pa 8)
    ({ s with m := { s.m with mem := s.m.mem.writeBytes pa (toBytes (old + v) 8) } }).markMonitors (pa / 128) (fun _ => true)
  else
    let (old, s) := s.homeRead pa 8
    s.homeWrite pa 8 ((old + v) % 2 ^ 64)

/-- The write or add of a SIGNAL to memory; the codes are those of R59: 0x08 for the checks of its page, 0x06 for a translation
fault and for every error response, on the tables too. -/
def State.signalMem (s : State) (q va v : Nat) (add : Bool) : EngRes × State :=
  let w : Waiter := .cp (q / 16)
  if va % 8 != 0 then (.bad 0x08 0, s)
  else match s.ioWalk w (s.qCtx q) va with
  | (.wait, s) => (.wait, s)
  | (.bad _ _, s) => (.bad 0x06 0, s)
  | (.ok _, s) => match s.ioTranslate (s.qCtx q) va .write with
  | .bad code _ => (.bad (if code = 0x11 || code = 0x12 then 0x08 else 0x06) 0, s)
  | .ok pa attr _ _ =>
    if add && region pa = 2 && !attrSYSA attr then (.bad 0x08 0, s)
    else if region pa = 3 then
      if add || !regReaches .commandProcessor (pa / 8 * 8) then (.bad 0x06 0, s)
      else (.ok 0, s.regWrite .commandProcessor pa .whole v)
    else match s.ioGate w pa false with
    | .wait => (.wait, s.wayWait w w.die pa 8 0)
    | .bad _ _ => (.bad 0x06 0, if s.replyLost w pa then s.signalDo pa v add else s)
    | .ok _ => (.ok 0, (s.bankServed pa w).signalDo pa v add)

/-- PACKET_SIGNAL. -/
def execPacketSignal (q : Nat) (s : State) : Out :=
  s.packet q 0x04 (fun p s =>
    let w := p.w 0
    let v := p.w 1 + p.w 2 * 2 ^ 32
    let add := bit w 16
    let finish (s : State) : State := (if bit p.flags 1 then s.send (.msix (bits w 31 24)) else s).qDone q p
    if bits w 15 10 != 0 || bits w 23 17 != 0 then .ok (s.qStop q 0x03 0)
    else if !bit p.flags 0 then
      let ctx := s.qCtx q
      .ok (finish (s.setCounter ctx (bits w 9 0) (if add then s.counter ctx (bits w 9 0) + BitVec.ofNat 64 v else BitVec.ofNat 64 v)))
    else match p.va 3 with
    | none => .ok (s.qStop q 0x03 0)
    | some va =>
      match s.signalMem q va v add with
      | (.ok _, s) => .ok (finish s)
      | (.wait, s) => .error s
      | (.bad code _, s) => .ok (s.qStop q code 0))

/-! ### Loops and buffers (R55, R57) -/

def State.pushFrame (s : State) (q : Nat) (f : Frame) : State :=
  let x := s.queue q
  s.setQueue q { x with frames := f :: x.frames }

/-- PACKET_LOOP: the body starts behind the packet; with Count 0 it is skipped, and then only its length has to fit. A LOOP that
stands four deep stops the queue whatever its Count (log entry 100). -/
def execPacketLoop (q : Nat) (s : State) : Out :=
  s.packet q 0x05 (fun p s =>
    let count := p.w 0
    let len := p.w 1
    if 4 ≤ (s.queue q).frames.length then .ok (s.qStop q 0x05 0)
    else if len = 0 || len % 4 != 0 || ((s.queue q).buffer.isNone && s.ringSize q ≤ len) then .ok (s.qStop q 0x02 0)
    else if count = 0 then
      if s.qFits q (p.bytes + len) false then .ok (s.qAdvance q (p.bytes + len) 5) else .ok (s.qStop q 0x02 0)
    else
      let start := s.qPos q + p.bytes
      .ok ((s.qDone q p).pushFrame q (.loop start (start + len) count)))

/-- PACKET_ENDLOOP: the body runs again, or the loop is left behind its last pass. -/
def execPacketEndloop (q : Nat) (s : State) : Out :=
  s.packet q 0x06 (fun p s =>
    let x := s.queue q
    match x.frames with
    | .loop start stop n :: rest =>
      if n ≤ 1 then .ok ((s.setQueue q { x with frames := rest }).qDone q p)
      else
        match onBuf (fun _ => start) rest with
        | some fs => .ok (s.setQueue q { x with frames := .loop start stop (n - 1) :: fs })
        | none =>
          let s := s.setReg (queueReg q 0x10) (BitVec.ofNat 64 (start % s.ringSize q))
          .ok (s.setQueue q { x with frames := .loop start stop (n - 1) :: rest })
    | _ => .ok (s.qStop q 0x02 0))

/-- PACKET_CALLBUF: HEAD stays on the packet until its buffer has ended. One that stands four deep stops the queue whatever its
length (log entry 100). -/
def execPacketCallbuf (q : Nat) (s : State) : Out :=
  s.packet q 0x08 (fun p s =>
    match p.va 0 with
    | none => .ok (s.qStop q 0x03 0)
    | some va =>
      if 4 ≤ (s.queue q).frames.length then .ok (s.qStop q 0x05 0)
      else if p.w 3 = 0 then .ok (s.qDone q p)
      else .ok (s.pushFrame q (.buf (BitVec.ofNat 80 va) (p.w 3) 0)))

/-! ### Levels (R49, R55, R58) -/

/-- Opens a level: it is a member of the innermost open level that contains it, be that cancelled or not (log entry 99). -/
def State.openLevel (s : State) (q : Nat) (kind : CancelLevel) (counter : Nat) : Nat × State :=
  let (id, s) := s.fresh
  let parent := (s.queue q).level
  let lv : Level := ⟨id, kind, s.qCtx q, q, counter, false, 0, parent, false⟩
  (id, { s with w := { s.w with
    levels := s.w.levels.map (fun (y : Level) => if some y.id == parent then { y with members := y.members + 1 } else y) ++ [lv] } })

/-- The END mark closes a level; one without members completes. -/
def State.closeLevel (s : State) (id : Nat) : State :=
  match s.level? id with
  | none => s
  | some x =>
    let x := { x with closed := true }
    (s.setLevel x).completeLevel x

/-- PACKET_MARK. -/
def execPacketMark (q : Nat) (s : State) : Out :=
  s.packet q 0x09 (fun p s =>
    let x := s.queue q
    let inner : Bool := match bits p.flags 1 0 with
      | 1 => false
      | 2 => x.graph.isSome
      | _ => x.graph.isSome || x.phase.isSome
    let own : Option Nat := match bits p.flags 1 0 with
      | 1 => x.graph
      | 2 => x.phase
      | _ => x.job
    if bits p.flags 1 0 = 0 then .ok (s.qStop q 0x02 0)
    else if 1023 < p.w 0 then .ok (s.qStop q 0x07 0)
    else if inner || own.isSome != bit p.flags 2 then .ok (s.qStop q 0x02 0)
    else match own with
    | some id =>
      let s := s.closeLevel id
      .ok ((s.setQueue q (match bits p.flags 1 0 with
        | 1 => { x with graph := none }
        | 2 => { x with phase := none }
        | _ => { x with job := none })).qDone q p)
    | none =>
      let (id, s) := s.openLevel q (match bits p.flags 1 0 with
        | 1 => .graph
        | 2 => .phase
        | _ => .job) (p.w 0)
      .ok ((s.setQueue q (match bits p.flags 1 0 with
        | 1 => { x with graph := some id, lastGraph := some id }
        | 2 => { x with phase := some id, lastPhase := some id }
        | _ => { x with job := some id, lastJob := some id })).qDone q p))

/-- PACKET_CANCEL. -/
def execPacketCancel (q : Nat) (s : State) : Out :=
  s.packet q 0x0A (fun p s =>
    let x := s.queue q
    if p.w 0 != 0 then .ok (s.qStop q 0x03 0)
    else
      let s := match bits p.flags 1 0 with
        | 0 => (match x.lastLaunch with
          | some id => s.cancelLaunches [id]
          | none => s)
        | 1 => (match x.lastGraph with
          | some id => s.cancelLevel id
          | none => s)
        | 2 => (match x.lastPhase with
          | some id => s.cancelLevel id
          | none => s)
        | _ => (match x.lastJob with
          | some id => s.cancelLevel id
          | none => s)
      .ok (s.qDone q p))

/-! ### Wake bits (R55, R63 to R65) -/

/-- PACKET_WAKE: a failed delivery writes its record and does not stop the queue. The target word of its record is that of R438:
bit 6 for the Market Master, the queue below (log entry 101). -/
def execPacketWake (q : Nat) (s : State) : Out :=
  s.packet q 0x0B (fun p s =>
    let t := p.w 0
    let v := BitVec.ofNat 32 (p.w 1)
    if t / 64 != 0 then .ok (s.qStop q 0x03 0)
    else
      let ctx := s.qCtx q
      let target := if bit p.flags 0 then 64 + t else t
      let (ok, s) := s.deliver ctx v target ⟨ctx, v, 0xFFFF, 0xFF, 0⟩
      .ok ((if ok then s else s.writeRec ctx (swiRec 0xFFFF 0xFF 0 0 v (BitVec.ofNat 32 target))).qDone q p))

/-- Waits for wake bits: those of the mask are cleared in one step with the test. -/
def State.evalWake (s : State) (q : Nat) (p : Pkt) : State :=
  let now := s.regF (queueReg q 0x20) 31 0
  let mask := p.w 0
  if now &&& mask = 0 then s.setBlocked q .wake
  else ((s.setRegF (queueReg q 0x20) 31 0 (andNot now mask)).setBlocked q .no).qDone q p

/-- A blocked WAITWAKE is evaluated again. -/
def State.reWake (s : State) (q : Nat) : State :=
  if 64 ≤ q then s
  else match s.readPkt q with
  | (.ok p, t) => if p.op = 0x0C then t.evalWake q p else s
  | _ => s

/-- PACKET_WAITWAKE. -/
def execPacketWaitwake (q : Nat) (s : State) : Out :=
  if (s.queue q).blocked = .wake then .next (s.reWake q) else s.packet q 0x0C (fun p s => .ok (s.evalWake q p))

end Sys2Proof.Machine
end

