-- ==== Sys2Proof/Machine/Dispatch.lean ====
section
/-! DEFINITION. The dispatch: one arm per constructor of Instr, each one direct call of the meaning of that
instruction. -/
namespace Sys2Proof.Machine

def exec (i : Instr) (s : State) : Host.Outcome State Fault Refusal :=
  match i with
  | .accrd p n d a => Sys2Proof.Machine.execAccrd p n d a s
  | .accwr p n d a => Sys2Proof.Machine.execAccwr p n d a s
  | .accz p n => Sys2Proof.Machine.execAccz p n s
  | .and f => Sys2Proof.Machine.execAnd f s
  | .or f => Sys2Proof.Machine.execOr f s
  | .xor f => Sys2Proof.Machine.execXor f s
  | .not f => Sys2Proof.Machine.execNot f s
  | .lop3 f => Sys2Proof.Machine.execLop3 f s
  | .atom f => Sys2Proof.Machine.execAtom f s
  | .red f => Sys2Proof.Machine.execRed f s
  | .ballot f => Sys2Proof.Machine.execBallot f s
  | .matchLanes f => Sys2Proof.Machine.execMatchLanes f s
  | .elect f => Sys2Proof.Machine.execElect f s
  | .barSync f => Sys2Proof.Machine.execBarSync f s
  | .barArrive f => Sys2Proof.Machine.execBarArrive f s
  | .bfx f => Sys2Proof.Machine.execBfx f s
  | .bfi f => Sys2Proof.Machine.execBfi f s
  | .bid p d a b => Sys2Proof.Machine.execBid p d a b s
  | .peek p d a => Sys2Proof.Machine.execPeek p d a s
  | .recycle p d a => Sys2Proof.Machine.execRecycle p d a s
  | .close p d a => Sys2Proof.Machine.execClose p d a s
  | .bkpt p code => Sys2Proof.Machine.execBkpt p code s
  | .trap p code => Sys2Proof.Machine.execTrap p code s
  | .bra p off => Sys2Proof.Machine.execBra p off s
  | .braL p disp => Sys2Proof.Machine.execBraL p disp s
  | .brx p a => Sys2Proof.Machine.execBrx p a s
  | .ret p a => Sys2Proof.Machine.execRet p a s
  | .call p l off => Sys2Proof.Machine.execCall p l off s
  | .callL p l disp => Sys2Proof.Machine.execCallL p l disp s
  | .callx p l a => Sys2Proof.Machine.execCallx p l a s
  | .popc f => Sys2Proof.Machine.execPopc f s
  | .clz f => Sys2Proof.Machine.execClz f s
  | .brev f => Sys2Proof.Machine.execBrev f s
  | .cancel p level => Sys2Proof.Machine.execCancel p level s
  | .cflush f => Sys2Proof.Machine.execCflush f s
  | .cinv f => Sys2Proof.Machine.execCinv f s
  | .cinvDiscard f => Sys2Proof.Machine.execCinvDiscard f s
  | .cdisc f => Sys2Proof.Machine.execCdisc f s
  | .cpref f => Sys2Proof.Machine.execCpref f s
  | .claim p slot => Sys2Proof.Machine.execClaim p slot s
  | .release p slot => Sys2Proof.Machine.execRelease p slot s
  | .clock p d => Sys2Proof.Machine.execClock p d s
  | .cvt f => Sys2Proof.Machine.execCvt f s
  | .dqpush p a => Sys2Proof.Machine.execDqpush p a s
  | .dqpop p d => Sys2Proof.Machine.execDqpop p d s
  | .exit p scope => Sys2Proof.Machine.execExit p scope s
  | .exitCompletion t => Sys2Proof.Machine.execExitCompletion t s
  | .fadd f => Sys2Proof.Machine.execFadd f s
  | .fsub f => Sys2Proof.Machine.execFsub f s
  | .fmul f => Sys2Proof.Machine.execFmul f s
  | .ffma f => Sys2Proof.Machine.execFfma f s
  | .ffma4 f => Sys2Proof.Machine.execFfma4 f s
  | .fmin f => Sys2Proof.Machine.execFmin f s
  | .fmax f => Sys2Proof.Machine.execFmax f s
  | .fcmp f => Sys2Proof.Machine.execFcmp f s
  | .frcp f => Sys2Proof.Machine.execFrcp f s
  | .frsq f => Sys2Proof.Machine.execFrsq f s
  | .fsqrt f => Sys2Proof.Machine.execFsqrt f s
  | .fexp2 f => Sys2Proof.Machine.execFexp2 f s
  | .flog2 f => Sys2Proof.Machine.execFlog2 f s
  | .fsinp f => Sys2Proof.Machine.execFsinp f s
  | .fence p scope kind => Sys2Proof.Machine.execFence p scope kind s
  | .releaseActionComplete fence => Sys2Proof.Machine.execReleaseActionComplete fence s
  | .iadd f => Sys2Proof.Machine.execIadd f s
  | .isub f => Sys2Proof.Machine.execIsub f s
  | .ineg f => Sys2Proof.Machine.execIneg f s
  | .imin f => Sys2Proof.Machine.execImin f s
  | .imax f => Sys2Proof.Machine.execImax f s
  | .iabs f => Sys2Proof.Machine.execIabs f s
  | .icmp f => Sys2Proof.Machine.execIcmp f s
  | .icmp64 f => Sys2Proof.Machine.execIcmp64 f s
  | .imad f => Sys2Proof.Machine.execImad f s
  | .imad4 f => Sys2Proof.Machine.execImad4 f s
  | .imul f => Sys2Proof.Machine.execImul f s
  | .imulh f => Sys2Proof.Machine.execImulh f s
  | .imulhN32 f => Sys2Proof.Machine.execImulhN32 f s
  | .kjoin p k => Sys2Proof.Machine.execKjoin p k s
  | .kleave p k => Sys2Proof.Machine.execKleave p k s
  | .kwait p k => Sys2Proof.Machine.execKwait p k s
  | .kset p k v => Sys2Proof.Machine.execKset p k v s
  | .kget p k v => Sys2Proof.Machine.execKget p k v s
  | .kmov p kd ka => Sys2Proof.Machine.execKmov p kd ka s
  | .kick p a => Sys2Proof.Machine.execKick p a s
  | .launch p d a => Sys2Proof.Machine.execLaunch p d a s
  | .launchW p d a => Sys2Proof.Machine.execLaunchW p d a s
  | .ld f => Sys2Proof.Machine.execLd f s
  | .ldDisp f disp => Sys2Proof.Machine.execLdDisp f disp s
  | .st f => Sys2Proof.Machine.execSt f s
  | .stDisp f disp => Sys2Proof.Machine.execStDisp f disp s
  | .ldi p d imm => Sys2Proof.Machine.execLdi p d imm s
  | .ldi64 p d imm => Sys2Proof.Machine.execLdi64 p d imm s
  | .lredAdd f => Sys2Proof.Machine.execLredAdd f s
  | .lredMin f => Sys2Proof.Machine.execLredMin f s
  | .lredMax f => Sys2Proof.Machine.execLredMax f s
  | .lredBitwise op f => Sys2Proof.Machine.execLredBitwise op f s
  | .mma f => Sys2Proof.Machine.execMma f s
  | .mmap p a => Sys2Proof.Machine.execMmap p a s
  | .quant f => Sys2Proof.Machine.execQuant f s
  | .monitor p sp scope a => Sys2Proof.Machine.execMonitor p sp scope a s
  | .waitm p d t => Sys2Proof.Machine.execWaitm p d t s
  | .mov f => Sys2Proof.Machine.execMov f s
  | .movB64 f => Sys2Proof.Machine.execMovB64 f s
  | .movi p d imm => Sys2Proof.Machine.execMovi p d imm s
  | .nop p => Sys2Proof.Machine.execNop p s
  | .yield p => Sys2Proof.Machine.execYield p s
  | .padd2 f => Sys2Proof.Machine.execPadd2 f s
  | .pmul2 f => Sys2Proof.Machine.execPmul2 f s
  | .pfma2 f => Sys2Proof.Machine.execPfma2 f s
  | .pfma24 f => Sys2Proof.Machine.execPfma24 f s
  | .racq p n => Sys2Proof.Machine.execRacq p n s
  | .rrel p n => Sys2Proof.Machine.execRrel p n s
  | .blockReturn core bctx w => Sys2Proof.Machine.execBlockReturn core bctx w s
  | .rot f => Sys2Proof.Machine.execRot f s
  | .shl f => Sys2Proof.Machine.execShl f s
  | .shr f => Sys2Proof.Machine.execShr f s
  | .shfHi f => Sys2Proof.Machine.execShfHi f s
  | .shfLo f => Sys2Proof.Machine.execShfLo f s
  | .rsend f => Sys2Proof.Machine.execRsend f s
  | .rfetch f => Sys2Proof.Machine.execRfetch f s
  | .sel f => Sys2Proof.Machine.execSel f s
  | .shfl p d a b mode => Sys2Proof.Machine.execShfl p d a b mode s
  | .shflImm p d a imm mode => Sys2Proof.Machine.execShflImm p d a imm mode s
  | .srd p d sreg => Sys2Proof.Machine.execSrd p d sreg s
  | .swr p a sreg => Sys2Proof.Machine.execSwr p a sreg s
  | .swi p a b => Sys2Proof.Machine.execSwi p a b s
  | .swiDelivery id => Sys2Proof.Machine.execSwiDelivery id s
  | .tbind p b a => Sys2Proof.Machine.execTbind p b a s
  | .twaitany p a => Sys2Proof.Machine.execTwaitany p a s
  | .twaitall p a => Sys2Proof.Machine.execTwaitall p a s
  | .tffr p d a => Sys2Proof.Machine.execTffr p d a s
  | .tclr p a => Sys2Proof.Machine.execTclr p a s
  | .tload p a => Sys2Proof.Machine.execTload p a s
  | .tqr p a => Sys2Proof.Machine.execTqr p a s
  | .tq p d a table => Sys2Proof.Machine.execTq p d a table s
  | .vote p mode pd ps => Sys2Proof.Machine.execVote p mode pd ps s
  | .waitc p thresholds => Sys2Proof.Machine.execWaitc p thresholds s
  | .bend o => Sys2Proof.Machine.execBend o s
  | .bkey o => Sys2Proof.Machine.execBkey o s
  | .bmask o => Sys2Proof.Machine.execBmask o s
  | .bcmp o => Sys2Proof.Machine.execBcmp o s
  | .bwrt o => Sys2Proof.Machine.execBwrt o s
  | .btagand o => Sys2Proof.Machine.execBtagand o s
  | .btagor o => Sys2Proof.Machine.execBtagor o s
  | .btagnot o => Sys2Proof.Machine.execBtagnot o s
  | .bcnt o => Sys2Proof.Machine.execBcnt o s
  | .bseg o => Sys2Proof.Machine.execBseg o s
  | .segmentCountExpiry bank => Sys2Proof.Machine.execSegmentCountExpiry bank s
  | .boothResume bank => Sys2Proof.Machine.execBoothResume bank s
  | .refreshDue bank => Sys2Proof.Machine.execRefreshDue bank s
  | .refreshComplete bank => Sys2Proof.Machine.execRefreshComplete bank s
  | .brun bank => Sys2Proof.Machine.execBrun bank s
  | .bparm bank => Sys2Proof.Machine.execBparm bank s
  | .bstat acc => Sys2Proof.Machine.execBstat acc s
  | .rfill bank => Sys2Proof.Machine.execRfill bank s
  | .rcopy bank => Sys2Proof.Machine.execRcopy bank s
  | .pbload order stack => Sys2Proof.Machine.execPbload order stack s
  | .trowq order => Sys2Proof.Machine.execTrowq order s
  | .packetNop q => Sys2Proof.Machine.execPacketNop q s
  | .packetLaunch q => Sys2Proof.Machine.execPacketLaunch q s
  | .packetLaunchind q => Sys2Proof.Machine.execPacketLaunchind q s
  | .packetWait q => Sys2Proof.Machine.execPacketWait q s
  | .waitWordReread q => Sys2Proof.Machine.execWaitWordReread q s
  | .packetSignal q => Sys2Proof.Machine.execPacketSignal q s
  | .packetLoop q => Sys2Proof.Machine.execPacketLoop q s
  | .packetEndloop q => Sys2Proof.Machine.execPacketEndloop q s
  | .packetIf q => Sys2Proof.Machine.execPacketIf q s
  | .packetCallbuf q => Sys2Proof.Machine.execPacketCallbuf q s
  | .packetMark q => Sys2Proof.Machine.execPacketMark q s
  | .packetCancel q => Sys2Proof.Machine.execPacketCancel q s
  | .packetWake q => Sys2Proof.Machine.execPacketWake q s
  | .packetWaitwake q => Sys2Proof.Machine.execPacketWaitwake q s
  | .packetUnknownOp q => Sys2Proof.Machine.execPacketUnknownOp q s
  | .qctlWrite q v => Sys2Proof.Machine.execQctlWrite q v s
  | .qwsetWrite q v => Sys2Proof.Machine.execQwsetWrite q v s
  | .wakeFifoServe => Sys2Proof.Machine.execWakeFifoServe s
  | .launchDependencesMet launch => Sys2Proof.Machine.execLaunchDependencesMet launch s
  | .childLaunchAccept req => Sys2Proof.Machine.execChildLaunchAccept req s
  | .lotPlacement core => Sys2Proof.Machine.execLotPlacement core s
  | .lotRetirement core bctx => Sys2Proof.Machine.execLotRetirement core bctx s
  | .launchCompletion launch => Sys2Proof.Machine.execLaunchCompletion launch s
  | .levelCompletion level => Sys2Proof.Machine.execLevelCompletion level s
  | .cancelReachesCore core => Sys2Proof.Machine.execCancelReachesCore core s
  | .issueTurn core slot => Sys2Proof.Machine.execIssueTurn core slot s
  | .clauseStart unit => Sys2Proof.Machine.execClauseStart unit s
  | .threadAged t => Sys2Proof.Machine.execThreadAged t s
  | .barkerTurn core => Sys2Proof.Machine.execBarkerTurn core s
  | .loadReply acc => Sys2Proof.Machine.execLoadReply acc s
  | .storePerformed acc => Sys2Proof.Machine.execStorePerformed acc s
  | .homeAccess acc => Sys2Proof.Machine.execHomeAccess acc s
  | .hostAtomicopCompletion acc unsupported => Sys2Proof.Machine.execHostAtomicopCompletion acc unsupported s
  | .pageWalk acc => Sys2Proof.Machine.execPageWalk acc s
  | .monitorReport t => Sys2Proof.Machine.execMonitorReport t s
  | .waitmTimeout t => Sys2Proof.Machine.execWaitmTimeout t s
  | .flowCreditReturn acc => Sys2Proof.Machine.execFlowCreditReturn acc s
  | .orderCopy core => Sys2Proof.Machine.execOrderCopy core s
  | .orderGather core => Sys2Proof.Machine.execOrderGather core s
  | .orderScatter core => Sys2Proof.Machine.execOrderScatter core s
  | .orderTileld core => Sys2Proof.Machine.execOrderTileld core s
  | .orderAccst core => Sys2Proof.Machine.execOrderAccst core s
  | .orderTred core => Sys2Proof.Machine.execOrderTred core s
  | .tloadCommand core => Sys2Proof.Machine.execTloadCommand core s
  | .tqrCommand core => Sys2Proof.Machine.execTqrCommand core s
  | .tbindCommand core => Sys2Proof.Machine.execTbindCommand core s
  | .orderStart order => Sys2Proof.Machine.execOrderStart order s
  | .orderBytesPerformed order => Sys2Proof.Machine.execOrderBytesPerformed order s
  | .tileOpStart op => Sys2Proof.Machine.execTileOpStart op s
  | .arrayLeave op => Sys2Proof.Machine.execArrayLeave op s
  | .tileOpComplete op => Sys2Proof.Machine.execTileOpComplete op s
  | .cellBidAtHome r => Sys2Proof.Machine.execCellBidAtHome r s
  | .cellPeekAtHome r => Sys2Proof.Machine.execCellPeekAtHome r s
  | .cellCloseAtHome r => Sys2Proof.Machine.execCellCloseAtHome r s
  | .cellRecycleAtHome r => Sys2Proof.Machine.execCellRecycleAtHome r s
  | .remoteCellRequest acc reply => Sys2Proof.Machine.execRemoteCellRequest acc reply s
  | .remoteCellTimeout acc => Sys2Proof.Machine.execRemoteCellTimeout acc s
  | .pbsetWrite n v => Sys2Proof.Machine.execPbsetWrite n v s
  | .pbsetApplied n => Sys2Proof.Machine.execPbsetApplied n s
  | .lotFailDrainEnd core bctx => Sys2Proof.Machine.execLotFailDrainEnd core bctx s
  | .watchdogExpiry core bctx => Sys2Proof.Machine.execWatchdogExpiry core bctx s
  | .dieProbe die answered => Sys2Proof.Machine.execDieProbe die answered s
  | .homeWaitReport die answered => Sys2Proof.Machine.execHomeWaitReport die answered s
  | .preemptRequest q n => Sys2Proof.Machine.execPreemptRequest q n s
  | .lotSave core bctx => Sys2Proof.Machine.execLotSave core bctx s
  | .dbgcmdHalt core v => Sys2Proof.Machine.execDbgcmdHalt core v s
  | .dbgcmdResume core v => Sys2Proof.Machine.execDbgcmdResume core v s
  | .dbgcmdStep core v => Sys2Proof.Machine.execDbgcmdStep core v s
  | .dbgcmdDump core v => Sys2Proof.Machine.execDbgcmdDump core v s
  | .dbgcmdLoad core v => Sys2Proof.Machine.execDbgcmdLoad core v s
  | .coreDumpWrite core bctx => Sys2Proof.Machine.execCoreDumpWrite core bctx s
  | .tlbinvPage ctx => Sys2Proof.Machine.execTlbinvPage ctx s
  | .tlbinvContext ctx => Sys2Proof.Machine.execTlbinvContext ctx s
  | .tlbinvAll => Sys2Proof.Machine.execTlbinvAll s
  | .tlbinvComplete => Sys2Proof.Machine.execTlbinvComplete s
  | .ctxflush ctx => Sys2Proof.Machine.execCtxflush ctx s
  | .ctxflushInv ctx => Sys2Proof.Machine.execCtxflushInv ctx s
  | .ctxflushComplete => Sys2Proof.Machine.execCtxflushComplete s
  | .fcsetPlain frame => Sys2Proof.Machine.execFcsetPlain frame s
  | .fcsetAlias frame => Sys2Proof.Machine.execFcsetAlias frame s
  | .fcsetElided frame pattern => Sys2Proof.Machine.execFcsetElided frame pattern s
  | .fcsetStackApply stack => Sys2Proof.Machine.execFcsetStackApply stack s
  | .tokenArrival ch writer => Sys2Proof.Machine.execTokenArrival ch writer s
  | .diePlanePacketReceive pkt crcOk => Sys2Proof.Machine.execDiePlanePacketReceive pkt crcOk s
  | .packetAckReceive pkt => Sys2Proof.Machine.execPacketAckReceive pkt s
  | .registerWrite agent pa part v => Sys2Proof.Machine.execRegisterWrite agent pa part v s
  | .registerReadClear agent pa part => Sys2Proof.Machine.execRegisterReadClear agent pa part s
  | .tokenSilence ch => Sys2Proof.Machine.execTokenSilence ch s
  | .packetResendTimeout pkt => Sys2Proof.Machine.execPacketResendTimeout pkt s
  | .wavelengthLoss die stack toStack wl => Sys2Proof.Machine.execWavelengthLoss die stack toStack wl s
  | .routeChange die stack => Sys2Proof.Machine.execRouteChange die stack s
  | .hlctlTrain port => Sys2Proof.Machine.execHlctlTrain port s
  | .trainingComplete r => Sys2Proof.Machine.execTrainingComplete r s
  | .lossOfLock link => Sys2Proof.Machine.execLossOfLock link s
  | .retrainRequest link own other => Sys2Proof.Machine.execRetrainRequest link own other s
  | .retrainComplete link ok => Sys2Proof.Machine.execRetrainComplete link ok s
  | .snpdata pa => Sys2Proof.Machine.execSnpdata pa s
  | .snpinv pa => Sys2Proof.Machine.execSnpinv pa s
  | .snpcur pa => Sys2Proof.Machine.execSnpcur pa s
  | .m2sReq pa => Sys2Proof.Machine.execM2sReq pa s
  | .m2sRwd pa data mask => Sys2Proof.Machine.execM2sRwd pa data mask s
  | .slotStart port offset => Sys2Proof.Machine.execSlotStart port offset s
  | .resyncRequest port peer => Sys2Proof.Machine.execResyncRequest port peer s
  | .frameBoundary port => Sys2Proof.Machine.execFrameBoundary port s
  | .scheduleReceived port crier entries successors => Sys2Proof.Machine.execScheduleReceived port crier entries successors s
  | .beaconLoss => Sys2Proof.Machine.execBeaconLoss s
  | .successorClaim => Sys2Proof.Machine.execSuccessorClaim s
  | .claimReceived rank => Sys2Proof.Machine.execClaimReceived rank s
  | .powerOn b => Sys2Proof.Machine.execPowerOn b s
  | .warmReset b => Sys2Proof.Machine.execWarmReset b s
  | .warmingTimeout b => Sys2Proof.Machine.execWarmingTimeout b s
  | .startctlRetry b => Sys2Proof.Machine.execStartctlRetry b s
  | .supplyDroop core => Sys2Proof.Machine.execSupplyDroop core s
  | .clockRetune die margin => Sys2Proof.Machine.execClockRetune die margin s
  | .auctionRound demands => Sys2Proof.Machine.execAuctionRound demands s
  | .pwrctlLimitWrite v => Sys2Proof.Machine.execPwrctlLimitWrite v s
  | .sliceRetrain x => Sys2Proof.Machine.execSliceRetrain x s
  | .sliceRetrainComplete x ok => Sys2Proof.Machine.execSliceRetrainComplete x ok s
  | .heartbeatMiss b => Sys2Proof.Machine.execHeartbeatMiss b s
  | .holdTimeout => Sys2Proof.Machine.execHoldTimeout s
  | .getVersion req => Sys2Proof.Machine.execGetVersion req s
  | .getCapabilities req => Sys2Proof.Machine.execGetCapabilities req s
  | .negotiateAlgorithms req => Sys2Proof.Machine.execNegotiateAlgorithms req s
  | .getDigests req => Sys2Proof.Machine.execGetDigests req s
  | .getCertificate req => Sys2Proof.Machine.execGetCertificate req s
  | .challenge req => Sys2Proof.Machine.execChallenge req s
  | .getMeasurements req => Sys2Proof.Machine.execGetMeasurements req s
  | .flitCrcError link => Sys2Proof.Machine.execFlitCrcError link s
  | .configurationRequest atomicOps => Sys2Proof.Machine.execConfigurationRequest atomicOps s
  | .powerFailure => Sys2Proof.Machine.execPowerFailure s
  | .warmingComplete e => Sys2Proof.Machine.execWarmingComplete e s

end Sys2Proof.Machine
end

