-- ==== Sys2Proof/Machine/Next.lean ====
section
/-! DEFINITION. What moves next where the schedule names nothing: the events of the module itself that have fallen due, then
the units that have work (log entry 2). Inputs from outside come from the schedule only. -/

namespace Sys2Proof.Machine

/-- Does a move change the state? -/
def State.moves (s : State) (i : Instr) : Bool :=
  match exec i s with
  | .next t => t != s
  | _ => false

/-- Events that an outstanding access may take. -/
def Acc.events (a : Acc) : List Instr :=
  let own := CellReq.own a.id
  match a.phase with
  | .walk => [.pageWalk a.id]
  | .ready | .granted =>
    (if a.credit then [] else [.flowCreditReturn a.id])
    ++ [.bstat a.id, .homeAccess a.id, .cellBidAtHome own, .cellPeekAtHome own, .cellCloseAtHome own, .cellRecycleAtHome own,
      .remoteCellRequest a.id none, .loadReply a.id, .storePerformed a.id]
  | .replied _ | .failed _ _ => [.loadReply a.id]
  | .performed => [.storePerformed a.id]
  | _ => []

/-- The events of a lot's threads. -/
def lotEvents (c b : Nat) (l : Lot) : List Instr :=
  (l.allAgents.flatMap (fun a =>
    (match (l.thr a).st with
     | .exiting _ => [Instr.exitCompletion ⟨c, b, a.w, a.l⟩]
     | _ => [])
    ++ (match (l.thr a).mon with
     | some m => if m.pending then [.monitorReport ⟨c, b, a.w, a.l⟩] else []
     | none => [])))
  ++ (l.warps.filter (fun e => !e.2.backs.isEmpty)).map (fun e => .blockReturn c b e.1)

/-- The place of a unit or of a bank's booth in the rotation: units first, then banks. -/
def Move.place : Move → Nat
  | .event _ | .spread _ | .record => 0
  | .unit u => u
  | .booth b => 5120 + b

/-- Units and booths that may have work: units that run, slots and pipelines of cores with a lot, and running booths. -/
def State.unitMoves (s : State) : List Move :=
  (s.running.map (fun e => Move.unit e.1))
  ++ ((s.lots.map (fun e => e.1 / 4)).eraseDups).flatMap (fun c => (List.range 5).map (fun u => Move.unit (unitOf c u)))
  ++ (s.e.booths.filter (fun e => s.boothMove e.1 != .still)).map (fun e => Move.booth e.1)

/-- Does a unit run, and wait for no fetch? -/
def State.unitRuns (s : State) (u : Nat) : Bool :=
  match s.issuer? u with
  | some i => !s.unitHeld u i
  | none => false

/-- May a unit or a booth move: it runs, or a turn would start a run? -/
def State.unitHasWork (s : State) (m : Move) : Bool :=
  match m with
  | .unit u =>
    (match s.unitMove u with
     | .start => s.unitRuns u || s.moves (.clauseStart u)
     | .turn => s.moves (if u % 5 = 4 then .barkerTurn (u / 5) else .issueTurn (u / 5) (u % 5))
     | _ => true)
  | _ => true

/-- The next unit or booth with work after the active one. -/
def State.rotation (s : State) : Option Move :=
  let ms := s.unitMoves
  ((ms.filter (fun m => s.active < m.place)) ++ ms).find? (fun m => s.unitHasWork m)

/-- Events of the command processors: the packet of a queue that runs, and waits that are evaluated again. -/
def State.queueEvents (s : State) : List Instr :=
  ((List.range 4).filterMap (fun cp => s.cpPick cp)).flatMap (fun q =>
    [Instr.packetNop q, .packetLaunch q, .packetLaunchind q, .packetWait q, .packetSignal q, .packetLoop q, .packetEndloop q,
      .packetIf q, .packetCallbuf q, .packetMark q, .packetCancel q, .packetWake q, .packetWaitwake q, .packetUnknownOp q])
  ++ (s.w.queues.filter (fun e => e.2.blocked != .no)).flatMap (fun e =>
    [Instr.packetWait e.1, .waitWordReread e.1, .packetWaitwake e.1])

/-- Events of launches, levels, children and soft interrupts. -/
def State.workEvents (s : State) : List Instr :=
  s.w.launches.flatMap (fun x => [Instr.launchDependencesMet x.id, .launchCompletion x.id])
  ++ s.w.levels.map (fun x => Instr.levelCompletion x.id)
  ++ s.w.childReqs.map (fun r => Instr.childLaunchAccept r.id)
  ++ s.w.swis.map (fun x => Instr.swiDelivery x.id)
  ++ (if s.w.wakeFifo.isEmpty then [] else [Instr.wakeFifoServe])
  ++ s.w.cancels.map (fun e => Instr.cancelReachesCore e.2)

/-- Events of resident lots as wholes: saves, dumps, ends and retirement. -/
def State.placeEvents (s : State) : List Instr :=
  s.lotList.flatMap (fun e => [Instr.lotSave e.1 e.2.1, .coreDumpWrite e.1 e.2.1, .lotFailDrainEnd e.1 e.2.1, .lotRetirement e.1 e.2.1])

/-- Places where a launch may still put a lot. -/
def State.placements (s : State) : List Instr :=
  if s.w.launches.any (fun x => x.offered && !x.cancelled && !x.halted && (x.next < x.total || !x.saved.isEmpty || !x.reruns.isEmpty)) then
    (List.range 1024).map (fun c => Instr.lotPlacement c) else []

/-- Events of the engines: commands of kick queues, orders and tile operations. -/
def State.engineEvents (s : State) : List Instr :=
  (((s.lotList.filter (fun e => !e.2.2.kicks.isEmpty)).map (fun e => e.1)).eraseDups).flatMap (fun c =>
    [Instr.orderCopy c, .orderGather c, .orderScatter c, .orderTileld c, .orderAccst c, .orderTred c, .tloadCommand c,
      .tqrCommand c, .tbindCommand c])
  ++ s.e.orders.flatMap (fun o =>
    [Instr.orderStart o.id, .trowq o.id, .orderBytesPerformed o.id] ++ o.stackSet.map (fun st => Instr.pbload o.id st))
  ++ s.e.tileOps.flatMap (fun o => [Instr.tileOpStart o.id, .arrayLeave o.id, .tileOpComplete o.id])

/-- Changes of the translation and cache-control registers that end. -/
def State.xlatEvents (s : State) : List Instr :=
  [.tlbinvComplete, .ctxflushComplete]
  ++ (match s.m.fcset with
    | some (_, _, st :: _) => [Instr.fcsetStackApply st]
    | _ => [])
  ++ s.e.pbBusy.map (fun e => Instr.pbsetApplied e.1)

/-- The home channels into which something has to go: accesses, replies, transfers, acknowledgements and packets sent again. -/
def State.channelsWanted (s : State) : List Nat :=
  (((s.accs.filter (fun a => s.sendable a)).filterMap (fun a => s.crossTo a)
    ++ (s.accs.filter (fun a => s.replySendable a)).map (fun a => dieOf a.t.core)
    ++ (s.p.transfers.filter (fun t => s.askable t)).map (fun t => t.ch)
    ++ (s.p.transfers.filter (fun t => t.answerable)).map (fun t => t.src)
    ++ (s.p.packets.filter (fun x => x.received && !x.ackSent)).map (fun x => x.writer)
    ++ (s.p.packets.filter (fun x => x.due)).map (fun x => x.ch)).eraseDups).filter (fun ch => !s.homeHeld ch)

/-- The die plane: the tokens of channels into which something has to go, and packets and acknowledgements on their way. -/
def State.planeEvents (s : State) : List Instr :=
  (s.channelsWanted.flatMap (fun ch => (s.channel ch).tokens.map (fun t => Instr.tokenArrival ch ((ch + t.2) % 66))))
  ++ s.p.packets.flatMap (fun x => (if x.flying then [Instr.diePlanePacketReceive x.id true] else [])
    ++ (if x.ackSent then [.packetAckReceive x.id] else []))

/-- Changes of routing entries that are due. -/
def State.routeEvents (s : State) : List Instr := s.p.routeDue.map (fun e => Instr.routeChange (e.1 / 32) (e.1 % 32))

/-- Events of the module that may have fallen due. -/
def State.internalEvents (s : State) : List Instr :=
  s.accs.flatMap (fun a => a.events)
  ++ s.fences.map (fun f => Instr.releaseActionComplete f.id)
  ++ s.lotList.flatMap (fun e => lotEvents e.1 e.2.1 e.2.2)
  ++ s.e.booths.flatMap (fun e => [Instr.refreshComplete e.1, .brun e.1, .bparm e.1, .rfill e.1, .rcopy e.1])
  ++ s.p.inputs.map (fun e => e.1)
  ++ s.engineEvents ++ s.planeEvents ++ s.routeEvents ++ s.queueEvents ++ s.workEvents ++ s.placeEvents ++ s.xlatEvents ++ s.placements
  ++ s.e.booths.map (fun e => Instr.boothResume e.1)

/-- The move that the model takes where the schedule is empty: the active unit goes on; else the first event of the module
that changes the state; else the oldest store on its way goes one step on; else a failure record that waits is written; else the next unit or booth with work after the active
one. -/
def State.nextMove (s : State) : Option Move :=
  if s.unitRuns s.active then some (.unit s.active)
  else match s.internalEvents.find? (fun i => s.moves i) with
  | some i => some (.event i)
  | none =>
    match s.m.early.find? (fun e => s.spreadOne e.id != s) with
    | some e => some (.spread e.id)
    | none => if s.recordMove != s then some .record else s.rotation

/-! ### One move -/

/-- The turn of a unit. -/
def State.unitStep (s : State) (u : Nat) : Out :=
  let s := { s with active := u }
  match s.unitMove u with
  | .turn => exec (if u % 5 = 4 then .barkerTurn (u / 5) else .issueTurn (u / 5) (u % 5)) s
  | .start => exec (.clauseStart u) s
  | .finish => .next s.endClause
  | .illegal => .next s.illegalWord
  | .run i n => exec i (s.consume n)

/-- The turn of a bank's booth; no unit of a core is active in it. -/
def State.boothStep (s : State) (bank : Nat) : Out :=
  let s := { s with actBank := bank, active := 5120 + bank }
  match s.boothMove bank with
  | .still => .next s
  | .boundary => exec (.segmentCountExpiry bank) s
  | .illegal => .next (s.illegalMicro bank)
  | .run i => exec i s

/-- One move. -/
def State.doMove (s : State) (m : Move) : Out :=
  match m with
  | .event i => exec i s
  | .unit u => s.unitStep u
  | .booth b => s.boothStep b
  | .spread id => .next (s.spreadOne id)
  | .record => .next s.recordMove

/-! ### Placing an instruction for the next step -/

/-- A lot of one thread, and its barker, on core 0, as the placing of one instruction needs where none is there. -/
def fetchLot : Lot :=
  { ctx := 0, launch := 0, index := 0,
    d := ⟨0, 0, 0, 1, 1, 1, 1, 1, 1, 8, 16, 32, true, 256, 0, [], 0⟩,
    nthreads := 1, nwarps := 1, threads := [(0, { Thread.none with st := .issuing }), (1024, { Thread.none with st := .issuing })],
    warps := [(0, { Warp.none with pool := 8 })], vregs := [], sregs := [], scratch := [], slotData := [], slotScale := [],
    slotState := [], acc := [], accInt := [], tags := 0, bars := [], dq := [], dqP := 0, kicks := [], done := 0,
    barkExited := false, phase := .running, firstFault := none, firstSeq := 0, nfault := 0, captured := [], saving := false, gangs := [0] }

/-- A unit of core 0 that has fetched a clause of the given words for an agent. -/
def fetchIssuer (a : Agent) (ws : List Word) : Issuer :=
  ⟨0, 0, [a], 0, BitVec.ofNat 80 (4 + 4 * ws.length), true, ws, 0, false, ws.length, 0, 0, false⟩

/-- Has an instruction a barker form only? -/
def barkerOnly : Instr → Bool
  | .dqpush _ _ => true
  | _ => false

/-- The words of an instruction stand in a unit of core 0 that has the next turn; booth micro-ops stand at the PC of the
running booth of bank 0, which has the next turn (log entry 5). -/
def State.placeWord (s : State) (w : Nat) : State :=
  match decode (tableWords w) with
  | .ok (i, _) =>
    let a : Agent := if barkerOnly i then Agent.barker else ⟨0, 0⟩
    let u := if barkerOnly i then 4 else 0
    let l := match s.lot? 0 0 with
      | some l => l
      | none => fetchLot
    { ((s.setLot 0 0 l).setIssuer u (some (fetchIssuer a (tableWords w)))) with agenda := .unit u :: s.agenda }
  | .error _ =>
    let b := s.booth 0
    { s.setBooth 0 { b with
        st := .running, refreshing := false, segCount := 0, prog := Tbl.put 0 b.prog b.pc.toNat (BitVec.ofNat 32 w) } with
      agenda := .booth 0 :: s.agenda }

end Sys2Proof.Machine
end

