-- ==== Sys2Proof/Machine/Step.lean ====
section
/-! DEFINITION. One step of the module: the move that heads the schedule, else the move that the module takes by itself. -/

namespace Sys2Proof.Machine

/-- One step (log entry 2): with an empty schedule and nothing that moves, the state stands. -/
def step (s : State) : Host.Outcome State Fault Refusal :=
  match s.agenda with
  | m :: rest => State.doMove { s with agenda := rest } m
  | [] =>
    match s.nextMove with
    | some m => s.doMove m
    | none => .next s

/-- `s` with the instruction whose bits are `w` placed so that the next step runs it (log entry 5). -/
def State.withFetchWord (s : State) (nbits w : Nat) : State := s.placeWord (w % 2 ^ nbits)

end Sys2Proof.Machine
end

