-- ==== Sys2Proof/Safety.lean ====
section
/-! DEFINITION. What counts as a safe state and as the completion of an instruction, in the terms that claims use. -/

namespace Sys2Proof.Machine

/-- Memory keeps its canonical form. -/
def State.memWf (s : State) : Bool := s.m.mem.wf

/-- A formed warp: no agent twice, home lanes below 32, and a barker alone (R71, R79). -/
def View.formed (v : View) : Prop :=
  v.i.agents.Nodup ∧ ∀ a ∈ v.i.agents, a.l < 32 ∧ (a.isBarker = true → v.i.agents = [Agent.barker])

/-- The participants of an agent's home warp (R83). -/
def View.mates (v : View) (a : Agent) : List Agent := v.parts.filter (fun x => x.w == a.w)

/-- An instruction of a clause runs: the active unit holds a formed warp or a barker, and no operand of an active agent is
misplaced or beyond its blocks (R123). -/
def State.runs (s : State) (v : View) (p : BitVec 3) (th bk : Bool) (uses : List Use) : Prop :=
  s.view p = some v ∧ v.formed ∧ ∀ a ∈ v.i.agents, v.l.instrFault a th bk uses = none

/-- A register operand holds a result of a width: narrow results extended by their type, a 128-bit value of a barker in a
scalar pair (R92, R362, R381). -/
def Lot.holds (l : Lot) (a : Agent) (d : BitVec 7) (width : Nat) (signed : Bool) (x : Nat) : Prop :=
  if a.isBarker then
    if width = 128 then l.sreg d.toNat = BitVec.ofNat 64 x ∧ l.sreg (d.toNat + 1) = BitVec.ofNat 64 (x / 2 ^ 64)
    else l.sreg d.toNat = BitVec.ofNat 64 (if signed then sextN x width 64 else wrapN x width)
  else l.regs a d.toNat (regsOf width) =
    (if width < 32 then (if signed then sextN x width 32 else wrapN x width) else wrapN x width)

/-- Every register outside the destination of the agents listed is as before. -/
def Lot.others (l l' : Lot) (as : List Agent) (d : BitVec 7) (width : Nat) : Prop :=
  (∀ w r lane, r < 128 → lane < 32 →
    ¬ (∃ a ∈ as, a.isBarker = false ∧ a.w = w ∧ a.l = lane ∧ d.toNat ≤ r ∧ r < d.toNat + regsOf width) →
    l'.vreg w r lane = l.vreg w r lane)
  ∧ ∀ r, ¬ (∃ a ∈ as, a.isBarker = true ∧ d.toNat ≤ r ∧ r < d.toNat + (if width = 128 then 2 else 1)) →
    l'.sreg r = l.sreg r

/-- Every participant's destination holds its value, and nothing else changed: no other register, no predicate, flag,
counter, thread or warp of the lot, no other lot, no byte of memory. -/
def State.wrote (s t : State) (v : View) (d : BitVec 7) (width : Nat) (signed : Bool) (val : Agent → Nat) : Prop :=
  ∃ l', t = s.setLot v.i.core v.i.bctx l' ∧ l' = { v.l with vregs := l'.vregs, sregs := l'.sregs }
    ∧ (∀ a ∈ v.parts, l'.holds a d width signed (val a)) ∧ v.l.others l' v.parts d width
    ∧ ∀ pa, t.memByte pa = s.memByte pa

end Sys2Proof.Machine
namespace Sys2Proof
open Sys2Proof.Machine

/-- An instruction completes with one result for each participant, computed from the registers before it. -/
def Instr.computes (i : Instr) (p : BitVec 3) (bk : Bool) (uses : List Use) (d : BitVec 7) (width : Nat) (signed : Bool)
    (val : View → Agent → Nat) : Prop :=
  ∀ s v, s.runs v p true bk uses → ∃ t, exec i s = .next t ∧ s.wrote t v d width signed (val v)

end Sys2Proof
namespace Sys2Proof.Machine

/-- The generator after n steps (R101). -/
def rngAfter (x : Nat) : Nat → Nat
  | 0 => x
  | n + 1 => rngNext (rngAfter x n)

/-- The n-th random number of a rounding under RS, counted from 0; 0 in another mode (R101). -/
def Lot.drawn (l : Lot) (a : Agent) (rnd n : Nat) : Nat :=
  if rnd = 4 then bits (rngAfter (l.thr a).rng.toNat (n + 1)) 31 8 else 0

/-- Every participant's destination holds its result, the flags of its result are set in its warp, its generator has
advanced by `draws` steps under RS, and nothing else changed. -/
def State.wroteFloat (s t : State) (v : View) (d : BitVec 7) (width rnd draws : Nat) (res : Agent → Nat × Nat) : Prop :=
  ∃ l', t = s.setLot v.i.core v.i.bctx l'
    ∧ l' = { v.l with vregs := l'.vregs, sregs := l'.sregs, warps := l'.warps, threads := l'.threads }
    ∧ (∀ a ∈ v.parts, l'.holds a d width false (res a).1) ∧ v.l.others l' v.parts d width
    ∧ (∀ w, l'.warp w = { v.l.warp w with
        fstat := (v.l.warp w).fstat ||| BitVec.ofNat 8 ((v.parts.filter (fun a => a.w == w)).foldl (fun m a => m ||| (res a).2) 0) })
    ∧ (∀ a, a.l < 32 → l'.thr a = if a ∈ v.parts ∧ rnd = 4 then
        { v.l.thr a with rng := BitVec.ofNat 32 (rngAfter (v.l.thr a).rng.toNat draws) } else v.l.thr a)
    ∧ ∀ pa, t.memByte pa = s.memByte pa

end Sys2Proof.Machine
namespace Sys2Proof
open Sys2Proof.Machine

/-- A float instruction completes: results, flags, generators, and nothing else. -/
def Instr.computesFloat (i : Instr) (p : BitVec 3) (uses : List Use) (d : BitVec 7) (width rnd draws : Nat)
    (res : Lot → Agent → Nat × Nat) : Prop :=
  ∀ s v, s.runs v p true true uses → ∃ t, exec i s = .next t ∧ s.wroteFloat t v d width rnd draws (res v.l)

end Sys2Proof
namespace Sys2Proof.Machine

/-- Every participant's predicate PD, and PC where it is not p0, take a result and its complement; the flags given are
set in its warp; nothing else changed. -/
def State.compared (s t : State) (v : View) (pd pc : BitVec 3) (res : Agent → Bool) (fl : Agent → Nat) : Prop :=
  ∃ l', t = s.setLot v.i.core v.i.bctx l' ∧ l' = { v.l with warps := l'.warps, threads := l'.threads }
    ∧ (∀ a, a.l < 32 → l'.thr a = { v.l.thr a with preds := (l'.thr a).preds }
      ∧ ∀ q : BitVec 3, l'.pred a q.toNat =
        if a ∈ v.parts ∧ q ≠ 0 ∧ pc = q then !res a else if a ∈ v.parts ∧ q ≠ 0 ∧ pd = q then res a else v.l.pred a q.toNat)
    ∧ (∀ w, l'.warp w = { v.l.warp w with
        fstat := (v.l.warp w).fstat ||| BitVec.ofNat 8 ((v.parts.filter (fun a => a.w == w)).foldl (fun m a => m ||| fl a) 0) })
    ∧ ∀ pa, t.memByte pa = s.memByte pa

/-- The predicate of PC of a comparison: p0, which discards it, in a short form (R129, R385). -/
def FmtP_pc (f : FmtP) : BitVec 3 :=
  match f.m with
  | some m => m.pc
  | none => 0

/-- A run of one agent alone, whose guard holds. -/
def State.alone (s : State) (v : View) (p : BitVec 3) (a : Agent) (th bk : Bool) (uses : List Use) : Prop :=
  s.runs v p th bk uses ∧ v.i.agents = [a] ∧ v.parts = [a]

/-- A thread waits for nothing that a change of counters or tables could end. -/
def TState.waitsForCounters (t : TState) : Bool :=
  match t with
  | .parked (.clauseStart _) => true
  | .parked (.waitc _) => true
  | _ => false

/-- No thread of a core waits for counters, for the start condition of a clause, or in DEBUG for re-issued accesses. -/
def State.calm (s : State) (c : Nat) : Prop :=
  s.lotList.all (fun e => e.1 != c || e.2.2.allAgents.all (fun a =>
    !(e.2.2.thr a).st.waitsForCounters && !(e.2.2.thr a).going)) = true

def TState.isParked (t : TState) : Bool :=
  match t with
  | .parked _ => true
  | _ => false

/-- A thread with no stop to take, no debug stop or step in progress, and no EXIT or WAITC to go back to. -/
def Thread.plain (t : Thread) : Prop :=
  t.stop = Option.none ∧ t.dbgPend = false ∧ t.stepping = false ∧ t.exitAfter = Option.none ∧ t.waitAfter = Option.none

/-- What waits in a lot only waits: no parked agent has a stop to take, a debug stop or step in progress, or an EXIT or WAITC to
go back to. -/
def Lot.waitersPlain (l : Lot) : Prop := ∀ a ∈ Agent.barker :: l.allAgents, (l.thr a).st.isParked = true → (l.thr a).plain

/-- A failure record of a context has been made: it is written, under the next sequence number, or it waits for the bank or the
port of the queue (R281 to R283, R275). -/
def State.recorded (s t : State) (ctx : Nat) : Prop :=
  ((t.ctxS ctx).seq = (s.ctxS ctx).seq + 1 ∧ t.m.recs = s.m.recs) ∨ ∃ r, t.m.recs = s.m.recs ++ [(ctx, r)]

/-- A launch once a cancel has reached it: no further lot of it is placed, and its unstarted lots, those to be rerun and the
saved ones count as retired (R49 to R51). -/
def Launch.asCancelled (x : Launch) : Launch :=
  if x.cancelled then x
  else { x with
    cancelled := true, next := x.total, saved := [], reruns := [],
    retired := x.retired + (x.total - x.next) + ((List.range x.next).filter (fun i => x.reruns.contains i)).length + x.saved.length }

/-- The launches named and their device-side children, to any depth, are cancelled, and no other is: their save areas are
released, and the cancel is on its way to every core that holds a lot of one that was not cancelled before (R49). Lots and
accesses are as before. -/
def State.cancels (s t : State) (ids : List Nat) : Prop :=
  let all := s.withChildren ids s.w.launches.length
  (∀ z, s.launch? z.id = some z → t.launch? z.id = some (if z.id ∈ all then z.asCancelled else z))
  ∧ (∀ z, s.launch? z.id = some z → z.id ∈ all → z.cancelled = false →
    (∀ y ∈ z.saved, ∀ a ∈ (t.ctxS z.ctx).areas, a.1 ≠ y.area)
    ∧ ∀ e ∈ s.lotList, e.2.2.launch = z.id → (z.id, e.1) ∈ t.w.cancels)
  ∧ t.lots = s.lots ∧ t.accs = s.accs

/-- Registers whose write takes the fields written and does nothing else: not QCTL, QHEAD, QTAIL and QWSET of a queue, TLBINV,
CTXFLUSH and FCSET, FRQHEAD of a context, DBGCMD, a word of ROUTE, HLCTL, PBSETn, STARTCTL or the retirement map. -/
def regPlain (pa : Nat) : Bool :=
  let off (base n : Nat) (ok : Nat → Bool) : Bool := match inUnit pa base n 0x40 with
    | some u => ok u.2
    | none => true
  off (queueReg 0 0) 64 (fun o => o == 0x08 || o == 0x20 || o == 0x30)
  && off (xlatReg 0) 1 (fun o => o != 0x08 && o != 0x20 && o != 0x30)
  && off (ctxReg 0 0) 4096 (fun o => o != 0x08)
  && off (dbgReg 0 0) 1024 (fun o => o != 0x00)
  && off (routeReg 0 0) 64 (fun o => 0x20 ≤ o)
  && off (hlctlReg 0) 2 (fun o => o != 0x00)
  && (inBlock pa (pbsetReg 0) 8 8).isNone && pa != startctlReg && (inBlock pa (retmapReg 0) 128 8).isNone

/-- A waiter has been woken: it is READY at the header at which it waited. -/
def Lot.woken (l l' : Lot) (a : Agent) : Prop := (l'.thr a).st = .ready ∧ (l'.thr a).pc = (l.thr a).pc

/-- A control transfer of the participants: each has its target and its link pair, and nothing else changed (R132). -/
def State.transferred (s t : State) (v : View) (link : Option (BitVec 7)) (tgt : Agent → Nat) : Prop :=
  ∃ l', t = s.setLot v.i.core v.i.bctx l' ∧ l' = { v.l with vregs := l'.vregs, sregs := l'.sregs, threads := l'.threads }
    ∧ (∀ a : Agent, a.l < 32 → l'.thr a = if a ∈ v.parts then
        { v.l.thr a with target := some (BitVec.ofNat 80 (tgt a)) } else v.l.thr a)
    ∧ (match link with
        | none => l'.vregs = v.l.vregs ∧ l'.sregs = v.l.sregs
        | some r => (∀ a ∈ v.parts, l'.holds a r 64 false ((v.i.next - v.l.d.entry).toNat % 2 ^ 64)) ∧ v.l.others l' v.parts r 64)
    ∧ ∀ pa, t.memByte pa = s.memByte pa

/-- The address of a memory operand: for G and V the sum of the pair and the displacement in 64 bits, sign-extended to 80;
for L the sum of one register and the displacement in 32 bits (R130). -/
def View.dataAddr (v : View) (a : Agent) (r : BitVec 7) (sp : Space) (disp : Int) : Nat :=
  if sp = .l then (((v.l.val a r 32 : Int) + disp) % 2 ^ 32).toNat
  else ((BitVec.ofNat 64 ((((v.l.val a r 64 : Int) + disp) % 2 ^ 64).toNat)).signExtend 80).toNat

/-- What one participant's access carries: lane, kind, space, address, size, data, comparand and destination. -/
structure Sent where
  t : LaneId
  kind : AccKind
  sp : Space
  va : Nat
  size : Nat
  data : Nat
  cmp : Nat
  dst : Option (Nat × Ty)
  phase : Phase
deriving DecidableEq, Repr

def Acc.sent (a : Acc) : Sent := ⟨a.t, a.kind, a.sp, a.va, a.size, a.data, a.cmp, a.dst, a.phase⟩

/-- Accesses have been issued, one for each participant in order, all still to be checked; the counter of their class has
risen once for each home warp of a participant, 0 for LD and 1 for ST; registers, threads and memory are as before (R85). -/
def State.issued (s t : State) (v : View) (cls : Option Nat) (sent : Agent → Sent) : Prop :=
  (∃ new, t.accs = s.accs ++ new ∧ new.map Acc.sent = v.parts.map sent)
  ∧ (∃ l', t.lot? v.i.core v.i.bctx = some l' ∧ l' = { v.l with warps := l'.warps }
    ∧ ∀ w, l'.warp w = (match cls with
        | some c => if w ∈ v.parts.map (fun a => a.w) then (v.l.warp w).bump c else v.l.warp w
        | none => v.l.warp w))
  ∧ t.m = s.m

/-- One tile operation has entered the tile order behind the others, and TL of the warps given has risen (R85, R251);
registers, threads, slots, accumulators and memory are as before. -/
def State.enteredTile (s t : State) (v : View) (a : Agent) (warps : List Nat) (k : TileKind) : Prop :=
  (∃ id g, t.e = { s.e with tileOps := s.e.tileOps ++ [⟨id, g, v.i.core, v.i.bctx, a, v.i.hdr, k, .waiting, warps⟩] })
  ∧ (∃ l', t.lot? v.i.core v.i.bctx = some l' ∧ l' = { v.l with warps := l'.warps }
    ∧ ∀ w, l'.warp w = if w ∈ warps then { v.l.warp w with tl := (v.l.warp w).tl + 1 } else v.l.warp w)
  ∧ t.accs = s.accs ∧ t.m = s.m

/-- The state of a lot alone changed, from `l` to `l'`; every other lot, core, access, order, register and byte of memory
is as before. -/
def State.lotOnly (s t : State) (c b : Nat) (l' : Lot) : Prop :=
  t = s.setLot c b l' ∧ ∀ pa, t.memByte pa = s.memByte pa

/-- The command processor of queue q is about to run packet `p` of q, read with the state `t`; `fs` are the open loops and
buffers of the queue. -/
def State.atPacket (s : State) (q : Nat) (p : Pkt) (t : State) (fs : List Frame) : Prop :=
  q < 64 ∧ s.cpPick (q / 16) = some q ∧ s.readPkt q = (.ok p, t) ∧ (t.queue q).frames = fs

/-- HEAD of a queue has moved on by n bytes of its ring, and nothing else has changed. -/
def State.headPast (t : State) (q n : Nat) : State :=
  t.setReg (queueReg q 0x10) (BitVec.ofNat 64 ((t.qHead q + n) % t.ringSize q))

/-! ### Real values (R94, R108) -/

/-- An exact value stands for a real number. -/
def FVal.isReal (v : FVal) (x : ℝ) : Prop :=
  ∃ (neg : Bool) (m : Nat) (e : Int), v = .fin neg m e ∧ x = (if neg then (-1 : ℝ) else 1) * (m : ℝ) * (2 : ℝ) ^ e

/-- An F32 result lies within n units in the last place of a real number, the unit being that of the binade of the number
and at least the smallest subnormal (R94, R108). -/
def withinUlp (r : Nat) (x n : ℝ) : Prop :=
  ∃ (y : ℝ) (k : Int), (fmtF32.dec r).isReal y ∧ (2 : ℝ) ^ k ≤ |x| ∧ |x| < (2 : ℝ) ^ (k + 1)
    ∧ |y - x| ≤ n * (2 : ℝ) ^ (max (k - 23) (-149))

/-- An F32 result lies within 2^-22 of a real number. -/
def withinAbs22 (r : Nat) (x : ℝ) : Prop := ∃ y : ℝ, (fmtF32.dec r).isReal y ∧ |y - x| ≤ (2 : ℝ) ^ (-22 : Int)

/-! ### The conversion table (R98, R103, R363) -/

/-- A type of the integer rows. -/
def Ty.isInt (t : Ty) : Bool := [Ty.i8, .i16, .i32, .i64, .n8, .n16, .n32, .n64].contains t

/-- The least and the greatest value of an integer type (R92). -/
def Ty.least (t : Ty) : Int := if t.signed then -(2 : Int) ^ (t.bits - 1) else 0
def Ty.greatest (t : Ty) : Int := if t.signed then (2 : Int) ^ (t.bits - 1) - 1 else (2 : Int) ^ t.bits - 1

/-- The integer to which a finite value rounds. -/
def roundedInt (rnd u : Nat) (neg : Bool) (m : Nat) (e : Int) : Int :=
  if neg then -((roundAt rnd neg m e 0 u).1 : Int) else (roundAt rnd neg m e 0 u).1

/-- A value v brought to T2 from its rounded integer k: the code of the nearest of −1, 0 and 1, SAT where that changes k,
NX where the result differs from the value (R98, R100). -/
def t2Row (k : Int) (changed : Bool) : Nat × Nat :=
  (if 0 < k then 1 else if k < 0 then 3 else 0,
   (if k < -1 ∨ 1 < k then flagSAT else 0) ||| (if changed = true ∨ k < -1 ∨ 1 < k then flagNX else 0))

/-- The rows of the conversion table for the low bits x of a source, a mode and a random number: result bits and flags. -/
def cvtRow (dst src : Ty) (rnd u x : Nat) (r : Nat × Nat) : Prop :=
  let v := (fmtOf src).dec x
  let i : Int := if src.signed then sextI x src.bits else x
  let t : Int := if x = 1 then 1 else if x = 3 then -1 else 0
  let tres := if x = 2 then flagTRES else 0
  (src = .e8m0 → (x = 255 → r = (0x7FC00000, 0)) ∧ (x < 255 → r.2 = 0 ∧ (fmtF32.dec r.1).isReal ((2 : ℝ) ^ ((x : Int) - 127))))
  ∧ (src = dst → (Ty.isFloat src) = true →
      r = if v.isNan then ((fmtOf dst).nanEnc, if v.isSig then flagNV else 0) else (x, 0))
  ∧ (src = .t2 → dst = .t2 → r = (x, tres))
  ∧ (src ≠ dst → (Ty.isFloat src) = true → (Ty.isFloat dst) = true →
      (∀ sg, v = .nan sg → r = ((fmtOf dst).nanEnc, (if sg then flagNV else 0) ||| (if dst = .e2m1 then flagNANS else 0)))
      ∧ (∀ neg, v = .inf neg → r = if (fmtOf dst).elem then ((fmtOf dst).signEnc neg (fmtOf dst).maxEnc, flagSAT)
          else ((fmtOf dst).signEnc neg (fmtOf dst).infEnc, 0))
      ∧ ∀ neg m e, v = .fin neg m e → r = (fmtOf dst).roundFin rnd u neg m e)
  ∧ ((Ty.isFloat src) = true → (Ty.isInt dst) = true →
      (∀ sg, v = .nan sg → r = (0, flagNV))
      ∧ (∀ neg, v = .inf neg → r = (wrapI (if neg then (Ty.least dst) else (Ty.greatest dst)) dst.bits, flagNV))
      ∧ ∀ neg m e, v = .fin neg m e →
        let k := roundedInt rnd u neg m e
        r = if k < (Ty.least dst) then (wrapI (Ty.least dst) dst.bits, flagNV) else if (Ty.greatest dst) < k then (wrapI (Ty.greatest dst) dst.bits, flagNV)
          else (wrapI k dst.bits, if (roundAt rnd neg m e 0 u).2 then flagNX else 0))
  ∧ ((Ty.isInt src) = true → (Ty.isFloat dst) = true → r = (fmtOf dst).roundFin rnd u (decide (i < 0)) i.natAbs 0)
  ∧ ((Ty.isInt src) = true → (Ty.isInt dst) = true → r = (wrapI i dst.bits, 0))
  ∧ (src = .t2 → (Ty.isFloat dst) = true → r.2 = tres ∧ ((fmtOf dst).dec r.1).isReal t)
  ∧ (src = .t2 → (Ty.isInt dst) = true → r = if t < (Ty.least dst) then (0, flagNV) else (wrapI t dst.bits, tres))
  ∧ ((Ty.isFloat src) = true → dst = .t2 →
      (∀ sg, v = .nan sg → r = (0, flagNANS ||| (if sg then flagNV else 0)))
      ∧ (∀ neg, v = .inf neg → r = (if neg then 3 else 1, flagSAT))
      ∧ ∀ neg m e, v = .fin neg m e → r = t2Row (roundedInt rnd u neg m e) (roundAt rnd neg m e 0 u).2)
  ∧ ((Ty.isInt src) = true → dst = .t2 → r = t2Row i false)

end Sys2Proof.Machine
end

