-- ==== Sys2Proof/Certificates/Slice0/Obligations.lean ====
section
/-! DEFINITION. The statements for the provers, each a rule of the spec or an invariant of the model. A statement about a
next state says what the instruction or event changes and what it leaves. -/

open Sys2Proof Sys2Proof.Machine

/-! ### Integer, bitwise, shift and move instructions -/

/-- IADD, ISUB, IMUL, IMAD and their kin write Wrap of the exact result; IMULH writes the product's upper half; INEG, IABS,
IMIN and IMAX as their entries say (R382, R383, R386, R387). Nothing else changes. -/
def Obligations.IntegerArithmetic : Prop :=
  ∀ f : FmtA,
    let ty := f.ty .i32
    let n := ty.bits
    let x (v : View) (a : Agent) := v.l.val a f.a n
    let y (v : View) (a : Agent) := v.l.bVal a f ty
    (Instr.iadd f).computes f.p true (usesA f ty true false) f.d n ty.signed (fun v a => (x v a + y v a) % 2 ^ n)
    ∧ (Instr.isub f).computes f.p true (usesA f ty true false) f.d n ty.signed (fun v a => wrapI ((x v a : Int) - y v a) n)
    ∧ (Instr.ineg f).computes f.p true (usesA f ty false false) f.d n ty.signed (fun v a => wrapI (-(x v a : Int)) n)
    ∧ (Instr.iabs f).computes f.p true (usesA f ty false false) f.d n ty.signed
        (fun v a => if Ty.toInt ty (x v a) < 0 then wrapI (-Ty.toInt ty (x v a)) n else x v a)
    ∧ (Instr.imin f).computes f.p true (usesA f ty true false) f.d n ty.signed
        (fun v a => if Ty.toInt ty (y v a) < Ty.toInt ty (x v a) then y v a else x v a)
    ∧ (Instr.imax f).computes f.p true (usesA f ty true false) f.d n ty.signed
        (fun v a => if Ty.toInt ty (x v a) < Ty.toInt ty (y v a) then y v a else x v a)
    ∧ (Instr.imul f).computes f.p true (usesA f ty true false) f.d n ty.signed (fun v a => x v a * y v a % 2 ^ n)
    ∧ (Instr.imulh f).computes f.p true (usesA f ty true false) f.d n ty.signed
        (fun v a => wrapI (Ty.toInt ty (x v a) * Ty.toInt ty (y v a) / 2 ^ n) n)
    ∧ (Instr.imulhN32 f).computes f.p true (usesA f (f.ty .n32) true false) f.d (f.ty .n32).bits (f.ty .n32).signed
        (fun v a => wrapN (v.l.val a f.a (f.ty .n32).bits) 32 * wrapN (v.l.bVal a f (f.ty .n32)) 32 / 2 ^ 32 % 2 ^ 32)
    ∧ (Instr.imad f).computes f.p true (usesA f ty true false) f.d n ty.signed
        (fun v a => (x v a * y v a + v.l.val a f.d n) % 2 ^ n)
    ∧ (Instr.imad4 f).computes f.p true (usesA f ty true true) f.d n ty.signed
        (fun v a => (x v a * y v a + v.l.val a f.cReg n) % 2 ^ n)

/-- AND, OR, XOR and NOT bit by bit, and LOP3 through its truth table (R340, R397, R407, R450). POPC counts the set bits,
CLZ the zeros above the highest set bit, BREV mirrors; BFX takes the field at POS of length LEN cut at bit 31; BFI replaces
it in D and leaves every other bit of D as it was, of the whole scalar in a barker clause (R346, R350, R411; the barker's upper
half is log entry 107). -/
def Obligations.BitOperations : Prop :=
  (
    (∀ f : FmtA,
      let ty := f.ty .b32
      let n := ty.bits
      let op2 (con : FmtA → Instr) (op : Bool → Bool → Bool) : Prop :=
        (con f).computes f.p true (usesA f ty true false) f.d n ty.signed
          (fun v a => sumBits n (fun i => op (bit (v.l.val a f.a n) i) (bit (v.l.bVal a f ty) i)))
      op2 .and (fun x y => x && y) ∧ op2 .or (fun x y => x || y) ∧ op2 .xor (fun x y => x != y)
      ∧ (Instr.not f).computes f.p true (usesA f ty false false) f.d n ty.signed
          (fun v a => sumBits n (fun i => !bit (v.l.val a f.a n) i)))
    ∧ ∀ f : FmtLop3,
      let n := f.ty.bits
      (Instr.lop3 f).computes f.p true [useW f.d n, useW f.a n, useW f.b n, useW f.c n] f.d n false
        (fun v a => sumBits n (fun i => f.table.getLsbD ((if bit (v.l.val a f.c n) i then 4 else 0)
          + (if bit (v.l.val a f.b n) i then 2 else 0) + (if bit (v.l.val a f.a n) i then 1 else 0)))))
  ∧ (
    ∀ f : FmtA,
      let n := (f.ty .b32).bits
      let x (v : View) (a : Agent) := v.l.val a f.a n
      let m := (f.ty .n32).bits
      let z (v : View) (a : Agent) := v.l.val a f.a m
      let pos (v : View) (a : Agent) := v.l.bVal a f (f.ty .n32) % 256
      let len (v : View) (a : Agent) := v.l.bVal a f (f.ty .n32) / 256 % 256
      (Instr.popc f).computes f.p true [use1 f.d, useW f.a n] f.d 32 false
          (fun v a => ((List.range n).filter (fun i => bit (x v a) i)).length)
      ∧ (Instr.clz f).computes f.p true [use1 f.d, useW f.a n] f.d 32 false
          (fun v a => ((List.range n).filter (fun i => x v a < 2 ^ i)).length)
      ∧ (Instr.brev f).computes f.p true (usesA f (f.ty .b32) false false) f.d n (f.ty .b32).signed
          (fun v a => sumBits n (fun i => bit (x v a) (n - 1 - i)))
      ∧ ((f.ty .n32).bits = 32 → (Instr.bfx f).computes f.p true (usesA f (f.ty .n32) true false) f.d m (f.ty .n32).signed
          (fun v a =>
            let k := min (len v a) (32 - pos v a)
            let w := z v a / 2 ^ pos v a % 2 ^ k
            if k = 0 then 0 else if (f.ty .n32).signed then sextN w k 32 else w))
      ∧ ((f.ty .n32).bits = 32 → ∀ (s : State) (v : View), s.runs v f.p true true (usesA f (f.ty .n32) true false) →
        let w := if v.i.agents = [Agent.barker] then 64 else 32
        ∃ t, exec (.bfi f) s = .next t ∧ s.wrote t v f.d w false (fun a => sumBits w (fun i =>
          if pos v a ≤ i ∧ i < pos v a + len v a ∧ i < 32 then bit (z v a) (i - pos v a) else bit (v.l.val a f.d w) i))))

/-- SHL and SHR by the whole amount, SHR arithmetic for the I types, ROT by the amount modulo the width, and the two funnel
shifts of A:C (R420, R427, R428). MOV and MOV.B64 copy a register or the immediate, MOVI the sign-extended 16 bits, LDI its
words (R396, R404, R405). -/
def Obligations.ShiftsAndMoves : Prop :=
  (
    ∀ f : FmtA,
      let ty := f.ty .n32
      let n := ty.bits
      let x (v : View) (a : Agent) := v.l.val a f.a n
      let amount (v : View) (a : Agent) := match f.immOf with
        | some w => w.toNat
        | none => v.l.val a f.b 32
      let uses := [useW f.d n, useW f.a n] ++ (if f.immOf.isNone then [use1 f.b] else [])
      let pair (v : View) (a : Agent) := x v a % 2 ^ 32 * 2 ^ 32 + v.l.val a f.cReg n % 2 ^ 32
      (Instr.shl f).computes f.p true uses f.d n ty.signed (fun v a => x v a * 2 ^ amount v a % 2 ^ n)
      ∧ (Instr.shr f).computes f.p true uses f.d n ty.signed (fun v a => wrapI (Ty.toInt ty (x v a) / 2 ^ amount v a) n)
      ∧ (Instr.rot f).computes f.p true uses f.d n ty.signed
          (fun v a => ((BitVec.ofNat n (x v a)).rotateLeft (amount v a)).toNat)
      ∧ (Instr.shfHi f).computes f.p true (usesA f ty true true) f.d n ty.signed
          (fun v a => pair v a * 2 ^ (v.l.bVal a f ty % 64) / 2 ^ 32 % 2 ^ 32)
      ∧ (Instr.shfLo f).computes f.p true (usesA f ty true true) f.d n ty.signed
          (fun v a => pair v a / 2 ^ (v.l.bVal a f ty % 64) % 2 ^ 32))
  ∧ (
    (∀ f : FmtA,
      let mv (con : FmtA → Instr) (ty : Ty) : Prop :=
        (f.immOf = none → (con f).computes f.p true [useW f.d ty.bits, useW f.a ty.bits] f.d ty.bits false
          (fun v a => v.l.val a f.a ty.bits))
        ∧ ∀ w, f.immOf = some w → (con f).computes f.p true [useW f.d ty.bits] f.d ty.bits false (fun _ _ => w.toNat)
      mv .mov .b32 ∧ mv .movB64 .b64)
    ∧ (∀ (p : BitVec 3) (d : BitVec 7) (i : BitVec 16),
        (Instr.movi p d i).computes p true [use1 d] d 32 true (fun _ _ => (i.signExtend 32).toNat))
    ∧ (∀ (p : BitVec 3) (d : BitVec 7) (i : BitVec 32), (Instr.ldi p d i).computes p true [use1 d] d 32 false (fun _ _ => i.toNat))
    ∧ (∀ (p : BitVec 3) (d : BitVec 7) (i : BitVec 64), (Instr.ldi64 p d i).computes p true [use2 d] d 64 false (fun _ _ => i.toNat)))

/-! ### Comparisons, float and packed instructions -/

/-- ICMP compares the operands as the integers that the type's signedness gives, and writes the result to PD and its
complement to PC; no flag is set (R384, R385). FCMP writes the relation of the two values, false on a NaN except for NE and
UN, to PD and its complement to PC; NV is set for a signalling NaN, and for any NaN under LT, LE, GT and GE (R107, R373,
R374). -/
def Obligations.Comparisons : Prop :=
  (
    ∀ (f : FmtP) (s : State) (v : View),
      let rel (x y : Int) : Bool := match f.cc.toNat with
        | 0 => x == y | 1 => x != y | 2 => x < y | 3 => x ≤ y | 4 => y < x | _ => y ≤ x
      let go (i : Instr) (ty : Ty) : Prop := s.runs v f.p true true (usesP f ty) →
        ∃ t, exec i s = .next t ∧ s.compared t v f.pd (FmtP_pc f)
          (fun a => rel (Ty.toInt ty (v.l.val a f.a ty.bits)) (Ty.toInt ty (v.l.bValP a f ty))) (fun _ => 0)
      go (.icmp f) (match f.m with | some m => m.ty | none => if f.s then .i32 else .n32)
      ∧ go (.icmp64 f) (if f.s then .i64 else .n64))
  ∧ (
    ∀ (f : FmtP) (s : State) (v : View),
      let ty := match f.m with | some m => m.ty | none => Ty.f32
      let x (a : Agent) := (fmtOf ty).dec (v.l.val a f.a ty.bits)
      let y (a : Agent) := (fmtOf ty).dec (v.l.bValP a f ty)
      s.runs v f.p true true (usesP f ty) → ∃ t, exec (.fcmp f) s = .next t ∧ s.compared t v f.pd (FmtP_pc f)
        (fun a =>
          let un := (x a).isNan || (y a).isNan
          match f.cc.toNat with
          | 0 => !un && FVal.eqv (x a) (y a) | 1 => un || !FVal.eqv (x a) (y a)
          | 2 => !un && FVal.lt (x a) (y a) | 3 => !un && (FVal.lt (x a) (y a) || FVal.eqv (x a) (y a))
          | 4 => !un && FVal.lt (y a) (x a) | 5 => !un && (FVal.lt (y a) (x a) || FVal.eqv (x a) (y a))
          | 6 => un | _ => !un)
        (fun a => if (x a).isSig ∨ (y a).isSig ∨ (((x a).isNan ∨ (y a).isNan) ∧ 2 ≤ f.cc.toNat ∧ f.cc.toNat ≤ 5) then 1 else 0))

/-- FADD, FSUB, FMUL, FFMA and FSQRT round the exact result once under the instruction's mode, with one step of the
generator under RS (R99 to R101, R106, R371, R372, R377, R378, R380). FMIN and FMAX: a number beats a NaN, two NaNs give the
canonical NaN, −0 counts below +0; NV for a signalling NaN (R107, R379). The sum of two negative zeros is −0 in every mode, as the
model reads R96 (log entry 48). -/
def Obligations.FloatArithmetic : Prop :=
  (
    ∀ f : FmtA,
      let ty := f.ty .f32
      let fm := fmtOf ty
      let n := ty.bits
      let draws := if f.rnd = 4 then 1 else 0
      let go (con : FmtA → Instr) (uses : List Use) (value : Lot → Agent → FVal) : Prop :=
        (con f).computesFloat f.p uses f.d n f.rnd draws (fun l a => fm.round f.rnd (l.drawn a f.rnd 0) (value l a))
      let rd := f.rnd == 2
      go .fadd (usesA f ty true false) (fun l a => FVal.add rd (fm.dec (l.val a f.a n)) (fm.dec (l.bVal a f ty)))
      ∧ go .fsub (usesA f ty true false) (fun l a => FVal.add rd (fm.dec (l.val a f.a n)) (fm.dec (l.bVal a f ty)).negate)
      ∧ go .fmul (usesA f ty true false) (fun l a => FVal.mul (fm.dec (l.val a f.a n)) (fm.dec (l.bVal a f ty)))
      ∧ go .ffma (usesA f ty true false) (fun l a =>
          FVal.fma rd (fm.dec (l.val a f.a n)) (fm.dec (l.bVal a f ty)) (fm.dec (l.val a f.d n)))
      ∧ go .ffma4 (usesA f ty true true) (fun l a =>
          FVal.fma rd (fm.dec (l.val a f.a n)) (fm.dec (l.bVal a f ty)) (fm.dec (l.val a f.cReg n)))
      ∧ (ty = .f32 → go .fsqrt (usesA f ty false false) (fun l a => (fm.dec (l.val a f.a n)).sqrt)))
  ∧ (
    ∀ f : FmtA,
      let ty := f.ty .f32
      let fm := fmtOf ty
      let go (con : FmtA → Instr) (takesB : FVal → FVal → Bool) : Prop :=
        (con f).computesFloat f.p (usesA f ty true false) f.d ty.bits 0 0 (fun l a =>
          let x := fm.dec (l.val a f.a ty.bits)
          let y := fm.dec (l.bVal a f ty)
          (if x.isNan && y.isNan then fm.nanEnc else if x.isNan then l.bVal a f ty else if y.isNan then l.val a f.a ty.bits
            else if takesB x y then l.bVal a f ty else l.val a f.a ty.bits,
           if x.isSig || y.isSig then flagNV else 0))
      go .fmin (fun x y => FVal.ltz y x) ∧ go .fmax (fun x y => FVal.ltz x y))

/-- The approximate functions write a result that depends on the operand's bits alone, with its flags, and nothing else. For
every operand: a NaN gives the canonical NaN, NV if it is signalling; infinities, zeros and negative operands give the fixed
results and flags; FRCP lies within 1 ulp of 1 / x, or is a zero of the sign of x or a subnormal within 1 ulp for
|x| > 2^126; FRSQ within 2 ulp of 1 / √x; FEXP2 within 2 ulp of 2^x, exactly 2^x for an integer in range, +∞ with OF from 128
on; FLOG2 within 2^-22 of log₂ x from 0.5 to 2 and within 2 ulp elsewhere, exactly n for 2^n; FSINP within 2^-22 of sin(π x),
0 with the sign of x for an integer and ±1 exactly for n + 0.5 (R108, R375, R376). FRCP of |x| ≤ 2^-128, for which R108 names no
result, is a largest finite value or an infinity of the sign of x (the model's free value, log entry 10). -/
def Obligations.ApproximateFunctions : Prop :=
  (∀ f : FmtA,
    let go (con : FmtA → Instr) (val : Nat → Nat × Nat) : Prop :=
      (con f).computesFloat f.p [use1 f.d, use1 f.a] f.d 32 0 0 (fun l a => val (l.val a f.a 32))
    go .frcp frcpVal ∧ go .frsq frsqVal ∧ go .fexp2 fexp2Val ∧ go .flog2 flog2Val ∧ go .fsinp fsinpVal)
  ∧ ∀ x : Nat, x < 2 ^ 32 →
    let sign := x / 2 ^ 31 * 2 ^ 31
    (∀ sg, fmtF32.dec x = .nan sg → ∀ g ∈ [frcpVal, frsqVal, fexp2Val, flog2Val, fsinpVal],
      g x = (0x7FC00000, if sg then flagNV else 0))
    ∧ (∀ neg, fmtF32.dec x = .inf neg →
      frcpVal x = (sign, 0) ∧ frsqVal x = (if neg then (0x7FC00000, flagNV) else (0, 0))
      ∧ fexp2Val x = (if neg then 0 else 0x7F800000, 0) ∧ flog2Val x = (if neg then (0x7FC00000, flagNV) else (0x7F800000, 0))
      ∧ fsinpVal x = (0x7FC00000, flagNV))
    ∧ (x % 2 ^ 31 = 0 → frcpVal x = (sign + 0x7F800000, flagDZ) ∧ frsqVal x = (sign + 0x7F800000, flagDZ)
      ∧ fexp2Val x = (0x3F800000, 0) ∧ flog2Val x = (0xFF800000, flagDZ) ∧ fsinpVal x = (x, 0))
    ∧ ∀ a : ℝ, a ≠ 0 → (fmtF32.dec x).isReal a →
      ((2 : ℝ) ^ (-128 : Int) < |a| → |a| ≤ (2 : ℝ) ^ (126 : Int) → (frcpVal x).2 = 0 ∧ withinUlp (frcpVal x).1 (1 / a) 1)
      ∧ ((2 : ℝ) ^ (126 : Int) < |a| → (frcpVal x).2 = 0 ∧ ((frcpVal x).1 = sign
        ∨ ((frcpVal x).1 % 2 ^ 31 < 2 ^ 23 ∧ withinUlp (frcpVal x).1 (1 / a) 1)))
      ∧ (|a| ≤ (2 : ℝ) ^ (-128 : Int) → (frcpVal x).2 = 0
        ∧ ((frcpVal x).1 = sign + 0x7F7FFFFF ∨ (frcpVal x).1 = sign + 0x7F800000))
      ∧ (a < 0 → frsqVal x = (0x7FC00000, flagNV) ∧ flog2Val x = (0x7FC00000, flagNV))
      ∧ (0 < a → (frsqVal x).2 = 0 ∧ withinUlp (frsqVal x).1 (1 / Real.sqrt a) 2)
      ∧ (128 ≤ a → fexp2Val x = (0x7F800000, flagOF))
      ∧ (a < 128 → (fexp2Val x).2 = 0 ∧ withinUlp (fexp2Val x).1 ((2 : ℝ) ^ a) 2)
      ∧ (∀ n : Int, a = n → -149 ≤ n → n < 128 → (fmtF32.dec (fexp2Val x).1).isReal ((2 : ℝ) ^ n))
      ∧ (0 < a → (flog2Val x).2 = 0
        ∧ (1 / 2 ≤ a → a ≤ 2 → withinAbs22 (flog2Val x).1 (Real.logb 2 a))
        ∧ (a < 1 / 2 ∨ 2 < a → withinUlp (flog2Val x).1 (Real.logb 2 a) 2)
        ∧ ∀ n : Int, a = (2 : ℝ) ^ n → (fmtF32.dec (flog2Val x).1).isReal n)
      ∧ (fsinpVal x).2 = 0 ∧ withinAbs22 (fsinpVal x).1 (Real.sin (Real.pi * a))
      ∧ (∀ n : Int, a = n → (fsinpVal x).1 = sign)
      ∧ ∀ n : Int, a = n + 1 / 2 → (fmtF32.dec (fsinpVal x).1).isReal ((-1 : ℝ) ^ n)

/-- The packed instructions act on each half alone; under RS the low half takes the first generator step and the high half
the second (R408, R409). CVT writes the converted low bits of its source by the row of the conversion table for its two types,
I8 and I16 results sign-extended and other narrow results zero-extended, with their flags; under RS each participant takes one
generator step, and no other generator moves (R98, R100, R103, R361 to R363; a T2 result's NX and T2 to T2 are log entry 45, the NV of a
signalling NaN converted to T2 log entry 57, the sign of the zero sum of two negative zeros in PADD2 and PFMA2 log entry 48). -/
def Obligations.PackedAndConversion : Prop :=
  (
    ∀ f : FmtA,
      let ty := f.ty .bf16
      let fm := fmtOf ty
      let uses (c : Bool) := [use1 f.d, use1 f.a] ++ (if f.immOf.isNone then [use1 f.b] else []) ++ (if c then [use1 f.cReg] else [])
      let go (con : FmtA → Instr) (c : Bool) (op : Bool → FVal → FVal → FVal → FVal) : Prop :=
        (con f).computesFloat f.p (uses c) f.d 32 f.rnd (if f.rnd = 4 then 2 else 0) (fun l a =>
          let x := l.val a f.a 32
          let y := match f.immOf with | some w => w.toNat | none => l.val a f.b 32
          let z := l.val a (if c then f.cReg else f.d) 32
          let r (i : Nat) := fm.round f.rnd (l.drawn a f.rnd i) (op (f.rnd == 2) (fm.dec (x / 2 ^ (16 * i) % 2 ^ 16))
            (fm.dec (y / 2 ^ (16 * i) % 2 ^ 16)) (fm.dec (z / 2 ^ (16 * i) % 2 ^ 16)))
          ((r 0).1 + 2 ^ 16 * (r 1).1, (r 0).2 ||| (r 1).2))
      go .padd2 false (fun rd x y _ => FVal.add rd x y) ∧ go .pmul2 false (fun _ x y _ => FVal.mul x y)
      ∧ go .pfma2 false FVal.fma ∧ go .pfma24 true FVal.fma)
  ∧ (
    ∀ (f : FmtCvt) (s : State) (v : View), s.runs v f.p true true [useW f.d f.dst.bits, useW f.a f.src.bits] →
      (f.src = .e8m0 → f.dst = .f32) →
      let rnd := f.rnd.code.toNat
      ∃ (t : State) (l' : Lot) (res : Agent → Nat × Nat), exec (.cvt f) s = .next t ∧ t = s.setLot v.i.core v.i.bctx l'
        ∧ (∀ a ∈ v.parts, cvtRow f.dst f.src rnd (v.l.drawn a rnd 0) (wrapN (v.l.val a f.a f.src.bits) f.src.bits) (res a))
        ∧ l' = { v.l with vregs := l'.vregs, sregs := l'.sregs, warps := l'.warps, threads := l'.threads }
        ∧ (∀ a ∈ v.parts, l'.holds a f.d f.dst.bits f.dst.signed (res a).1) ∧ v.l.others l' v.parts f.d f.dst.bits
        ∧ (∀ w, l'.warp w = { v.l.warp w with
            fstat := (v.l.warp w).fstat ||| BitVec.ofNat 8 ((v.parts.filter (fun a => a.w == w)).foldl (fun m a => m ||| (res a).2) 0) })
        ∧ (∀ a : Agent, a.l < 32 → l'.thr a = if a ∈ v.parts ∧ rnd = 4 then
            { v.l.thr a with rng := BitVec.ofNat 32 (rngNext (v.l.thr a).rng.toNat) } else v.l.thr a)
        ∧ ∀ pa, t.memByte pa = s.memByte pa)

/-! ### Cross-lane instructions -/

/-- BALLOT writes a mask of the home lanes of the warp's participants whose predicate holds, MATCH of those with the same
operand, LRED the sum, minimum, maximum, AND, OR or XOR over the warp's participants, SHFL the value of the source lane
where it takes part, else the lane's own (R83, R342, R398, R399, R429, R430). ELECT sets PD in the participant of lowest
home lane of each warp alone; VOTE writes to every participant whether all, any, all or none, or an odd number of the warp's
participants hold PS (R367, R445). -/
def Obligations.CrossLane : Prop :=
  (
    (∀ f : FmtA,
      let n := (f.ty .b32).bits
      let x (v : View) (a : Agent) := v.l.val a f.a 32
      let ty := f.ty .i32
      let lred (i : Instr) (val : View → Agent → Nat) : Prop := i.computes f.p false [use1 f.d, use1 f.a] f.d 32 false val
      let fold (op : Nat → Nat → Nat) (v : View) (a : Agent) (start : Nat) : Nat := (v.mates a).foldl (fun m z => op m (x v z)) start
      (Instr.ballot f).computes f.p false [use1 f.d] f.d 32 false
          (fun v a => sumBits 32 (fun i => (v.mates a).any (fun z => z.l == i && v.l.pred z f.b.toNat)))
      ∧ (Instr.matchLanes f).computes f.p false [use1 f.d, useW f.a n] f.d 32 false
          (fun v a => sumBits 32 (fun i => (v.mates a).any (fun z => z.l == i && v.l.val z f.a n == v.l.val a f.a n)))
      ∧ lred (.lredAdd f) (fun v a => fold (fun m z => (m + z) % 2 ^ 32) v a 0)
      ∧ (ty.bits = 32 → lred (.lredMin f) (fun v a => fold (fun m z => if Ty.toInt ty z < Ty.toInt ty m then z else m) v a (x v a))
        ∧ lred (.lredMax f) (fun v a => fold (fun m z => if Ty.toInt ty m < Ty.toInt ty z then z else m) v a (x v a)))
      ∧ lred (.lredBitwise .and f) (fun v a => fold (fun m z => m &&& z) v a (x v a))
      ∧ lred (.lredBitwise .or f) (fun v a => fold (fun m z => m ||| z) v a 0)
      ∧ lred (.lredBitwise .xor f) (fun v a => fold (fun m z => m ^^^ z) v a 0))
    ∧ ∀ (p : BitVec 3) (d a b : BitVec 7) (imm : BitVec 5) (m : ShflMode),
      let src (l k : Nat) : Nat := match m with
        | .idx => k % 32
        | .xor => l ^^^ (k % 32)
        | .up => (((l : Int) - k) % 32).toNat
        | .dn => (l + k) % 32
      let take (k : View → Agent → Nat) (v : View) (t : Agent) : Nat :=
        let j : Agent := ⟨t.w, src t.l (k v t)⟩
        if j ∈ v.parts then v.l.val j a 32 else v.l.val t a 32
      (Instr.shfl p d a b m).computes p false [use1 d, use1 a, use1 b] d 32 false (take (fun v t => v.l.val t b 32))
      ∧ (Instr.shflImm p d a imm m).computes p false [use1 d, use1 a] d 32 false (take (fun _ _ => imm.toNat)))
  ∧ (
    (∀ (f : FmtA) (s : State) (v : View), s.runs v f.p true false [] →
      ∃ t, exec (.elect f) s = .next t ∧ s.compared t v (f.d.setWidth 3) 0
        (fun a => (v.mates a).all (fun z => a.l ≤ z.l)) (fun _ => 0))
    ∧ ∀ (p : BitVec 3) (m : VoteMode) (pd ps : BitVec 3) (s : State) (v : View), s.runs v p true false [] →
      ∃ t, exec (.vote p m pd ps) s = .next t ∧ s.compared t v pd 0
        (fun a =>
          let yes := (v.mates a).countP (fun z => v.l.pred z ps.toNat)
          match m with
          | .all => yes == (v.mates a).length
          | .any => 0 < yes
          | .same => yes == (v.mates a).length || yes == 0
          | .par => yes % 2 == 1)
        (fun _ => 0))

/-! ### Control transfers, breakpoints, exit -/

/-- BRA and CALL add their displacement to the clause's header address, BRX, CALLX and RET their pair to ENTRY, modulo 2^80;
each participant goes on there when the clause ends, and a call writes the offset of the following header to its link pair
(R132, R349, R351, R352, R419). An aligned target is assumed; another is fault 0x03 (FaultsTaken). -/
def Obligations.ControlTransfers : Prop :=
  ∀ (s : State) (v : View) (p : BitVec 3) (l a : BitVec 7),
    let entry := v.l.d.entry
    let pair (t : Agent) : Nat := (entry.toNat + sextN (v.l.val t a 64) 64 80) % 2 ^ 80
    let go (i : Instr) (uses : List Use) (link : Option (BitVec 7)) (tgt : Agent → Nat) : Prop :=
      s.runs v p true true uses → (∀ t ∈ v.parts, tgt t % 4 = 0) →
      ∃ t, exec i s = .next t ∧ s.transferred t v link tgt
    (∀ off : BitVec 23, go (.bra p off) [] none (fun _ => (v.i.hdr + ((off.setWidth 25) <<< 2).signExtend 80).toNat))
    ∧ (∀ d : BitVec 64, go (.braL p d) [] none (fun _ => (v.i.hdr + d.signExtend 80).toNat))
    ∧ go (.brx p a) [use2 a] none pair
    ∧ (∀ off : BitVec 16, go (.call p l off) [use2 l] (some l) (fun _ => (v.i.hdr + ((off.setWidth 18) <<< 2).signExtend 80).toNat))
    ∧ (∀ d : BitVec 64, go (.callL p l d) [use2 l] (some l) (fun _ => (v.i.hdr + d.signExtend 80).toNat))
    ∧ go (.callx p l a) [use2 l, use2 a] (some l) pair
    ∧ ((∀ t ∈ v.parts, (v.l.thr t).shadow = none) → go (.ret p a) [use2 a] none pair)

/-- RET of a thread in its handler to the recorded resume header ends the handler: v0 to v3 (s0 to s3 of a barker) and the
predicates come back from the fault shadow, the thread goes on at the resume header, and its REPLAY accesses, in the order of
the log, are again to be checked and performed (R287, R419). A fault that it has noted in this last clause stays one within a
handler. Other accesses, registers, threads and all memory are as before. -/
def Obligations.ReturnFromHandler : Prop :=
  ∀ (s : State) (v : View) (p : BitVec 3) (r : BitVec 7) (a : Agent) (sh : Shadow),
    s.alone v p a true true [use2 r] → (v.l.thr a).shadow = some sh →
    (v.l.d.entry.toNat + sextN (v.l.val a r 64) 64 80) % 2 ^ 80 = sh.resume.toNat →
    ∃ t l', exec (.ret p r) s = .next t ∧ t.lot? v.i.core v.i.bctx = some l'
      ∧ l'.thr a = { v.l.thr a with shadow := none, preds := sh.preds, target := some sh.resume, nested := (v.l.thr a).nests }
      ∧ (∀ k, k < 4 → if a.isBarker then l'.sreg k = sh.regs.getD k 0
          else l'.vreg a.w k a.l = (sh.regs.getD k 0).setWidth 32)
      ∧ (∀ k, 4 ≤ k → l'.sreg k = v.l.sreg k)
      ∧ (∀ w k lane, k < 128 → lane < 32 → ¬ (w = a.w ∧ lane = a.l ∧ k < 4) → l'.vreg w k lane = v.l.vreg w k lane)
      ∧ (∀ x : Agent, x.l < 32 → x ≠ a → l'.thr x = v.l.thr x)
      ∧ t.accs = s.accs.map (fun x => if x.t = ⟨v.i.core, v.i.bctx, a.w, a.l⟩ ∧ x.phase.isReplay = true
          then { x with phase := .walk } else x)
      ∧ ∀ pa, t.memByte pa = s.memByte pa

/-- NOP changes no state; YIELD ends the run after its clause and changes nothing else, and is nothing in a barker clause
(R406, R451). BKPT and TRAP complete the clause: every participant that has no earlier fault stops at its next header with
event 0x50 or 0x60, the immediate in ADDR; nothing else changes (R279, R348, R444). That a participant with an earlier fault
keeps that fault, and loses the event, is the model's choice (log entry 22). -/
def Obligations.YieldBreakpointTrap : Prop :=
  (
    ∀ (s : State) (v : View) (p : BitVec 3), s.runs v p true true [] →
      exec (.nop p) s = .next s
      ∧ (v.i.agents = [Agent.barker] → exec (.yield p) s = .next s)
      ∧ ((∀ a ∈ v.i.agents, a.isBarker = false) → exec (.yield p) s = .next (s.setIssuer s.active (some { v.i with yielded := true }))))
  ∧ (
    ∀ (s : State) (v : View) (p : BitVec 3) (code : BitVec 16),
      let go (i : Instr) (event : Nat) : Prop :=
        s.runs v p true true [] → (∀ a ∈ v.parts, (v.l.thr a).st = .issuing) →
        ∃ t l', exec i s = .next t ∧ t = s.setLot v.i.core v.i.bctx l' ∧ l' = { v.l with threads := l'.threads }
          ∧ ∀ a : Agent, a.l < 32 → l'.thr a = if a ∈ v.parts then
              { v.l.thr a with stop := some ((v.l.thr a).stop.getD ⟨event, 0, 0, code.toNat, false, v.i.hdr⟩) } else v.l.thr a
      go (.bkpt p code) 0x50 ∧ go (.trap p code) 0x60)

/-- EXIT with no fault pending: the thread leaves its run and its lot's masks, keeps no monitor, shadow or target, and waits
for its accesses with the scope named; the barker leaves its run alone. The lanes that wait on a mask or a barrier whose
release condition its leaving makes true are READY (R82, R344, R368 to R370). A fault that the thread still has to take is
taken, and the EXIT waits behind its handler (R285, R369; log entry 24). In a handler the pending REPLAY accesses are discarded,
and a fault noted there fails the lot (R287). EXIT_COMPLETION: with nothing of the lane outstanding and no line left for its release to write back, the thread is
EXITED and the lot's completion counter rises by one; the barker is marked as exited and not counted. While something is
outstanding nothing happens (R45, R369). -/
def Obligations.Exit : Prop :=
  (
    ∀ (s : State) (v : View) (p : BitVec 3) (sc : Scope) (a : Agent),
      s.alone v p a true (sc == .lot) [] → s.calm v.i.core → v.l.waitersPlain → v.l.ending = false → (v.l.thr a).st = .issuing →
      let lane : LaneId := ⟨v.i.core, v.i.bctx, a.w, a.l⟩
      let left (l' : Lot) : Prop :=
        l'.thr a = { v.l.thr a with
            st := .exiting sc, pc := v.i.next, exitAfter := none, waitAfter := none, mon := none, stop := none, nested := false,
            shadow := none, target := none, stepping := false, dbgPend := false }
        ∧ (a.isBarker = false → ∀ k, k < 12 → bit ((l'.warp a.w).mem k) a.l = false ∧ bit ((l'.warp a.w).arr k) a.l = false)
        ∧ l'.vregs = v.l.vregs ∧ l'.sregs = v.l.sregs
      ((v.l.thr a).shadow = none → (v.l.thr a).stop = none →
        ∃ t l', exec (.exit p sc) s = .next t ∧ t.lot? v.i.core v.i.bctx = some l' ∧ t.issuer? s.active = none ∧ left l'
          ∧ (a.isBarker = false →
            (∀ k, k < 12 → andNot (andNot ((v.l.warp a.w).mem k) (2 ^ a.l)) (andNot ((v.l.warp a.w).arr k) (2 ^ a.l)) = 0 →
              ∀ x ∈ v.l.kwaiters a.w k, v.l.woken l' x)
            ∧ ∀ b, b < 16 → 0 < (v.l.bar b).arrivals →
              (if (v.l.bar b).expected ≠ 0 then (v.l.bar b).expected
                else (v.l.agents.filter (fun x => x ≠ a ∧ (v.l.thr x).gone = false)).length) ≤ (v.l.bar b).arrivals →
              ∀ x ∈ v.l.barWaiters b, v.l.woken l' x)
          ∧ t.accs = s.accs ∧ ∀ pa, t.memByte pa = s.memByte pa)
      ∧ (∀ x, (v.l.thr a).shadow = none → (v.l.thr a).stop = some x → (v.l.thr a).mid = 0 → v.l.phase = .running →
        s.haltingLot v.l.launch = none → faultGroup x.code ≠ 5 → faultGroup x.code ≠ 6 → s.factAction v.l.ctx (faultGroup x.code) = 0 →
        s.handlerVA v.l.ctx ≠ 0 →
        ∃ t l', exec (.exit p sc) s = .next t ∧ t.lot? v.i.core v.i.bctx = some l' ∧ t.issuer? s.active = none
          ∧ (l'.thr a).st = .ready ∧ (l'.thr a).pc = s.handlerVA v.l.ctx ∧ (l'.thr a).exitAfter = some sc
          ∧ ((l'.thr a).shadow.map (fun y => y.resume)) = some v.i.next ∧ t.accs = s.accs)
      ∧ ((v.l.thr a).shadow.isSome = true → (v.l.thr a).stop = none → (s.accs.map (fun x => x.id)).Nodup →
        ∃ t l', exec (.exit p sc) s = .next t ∧ t.lot? v.i.core v.i.bctx = some l' ∧ t.issuer? s.active = none ∧ left l'
          ∧ t.accs = s.accs.filter (fun x => !(x.t == lane && x.phase.isReplay)))
      ∧ ∀ x, (v.l.thr a).shadow.isSome = true → (v.l.thr a).stop = some x → (v.l.thr a).mid = 0 → v.l.phase = .running →
        s.haltingLot v.l.launch = none → faultGroup x.code ≠ 6 →
        ∃ t l', exec (.exit p sc) s = .next t ∧ t.lot? v.i.core v.i.bctx = some l' ∧ t.issuer? s.active = none
          ∧ l'.phase = .failing x.code ∧ (l'.thr a).st = .stopped)
  ∧ (
    ∀ (s : State) (t : LaneId) (l : Lot) (sc : Scope),
      s.lot? t.core t.bctx = some l → (l.thr (laneAgent t)).st = .exiting sc → t.l < 32 →
      (s.laneQuiet t sc = true → (s.releaseScope t.core l.ctx sc).1 = true → (s.core t.core).blockQ = [] →
        ∃ u l', exec (.exitCompletion t) s = .next u ∧ u.lot? t.core t.bctx = some l'
          ∧ (l'.thr (laneAgent t)).st = .exited
          ∧ (if (laneAgent t).isBarker then l'.barkExited = true ∧ l'.done = l.done
             else l'.done = l.done + 1 ∧ l'.barkExited = l.barkExited)
          ∧ l'.vregs = l.vregs ∧ l'.sregs = l.sregs)
      ∧ (s.laneQuiet t sc = false → exec (.exitCompletion t) s = .next s))

/-! ### Barriers, masks, the decision queue, counters, blocks and special registers -/

/-- BAR: arrivals that leave the barrier short add to its arrivals, one for each participant; the first of a generation sets
the expected count, and SYNC parks the participants at the following header. The arrival that meets the count opens the next
generation with none arrived, and every thread parked on the old one is READY there, the arriving one of SYNC at its following
header (R343 to R345). -/
def Obligations.Barriers : Prop :=
  ∀ (s : State) (v : View) (f : FmtBar) (req : Nat),
    let b := f.b.toNat
    let x := v.l.bar b
    let n := v.parts.length
    let expected := if x.arrivals = 0 then req else x.expected
    let need := if expected ≠ 0 then expected else (v.l.agents.filter (fun t => !(v.l.thr t).gone)).length
    s.runs v f.p true false (if f.cn then [use1 f.n] else []) → v.parts ≠ [] → req ≤ 1024 →
    (∀ a ∈ v.parts, (if f.cn then v.l.val a f.n 32 else 32 * f.n.toNat) = req) →
    (x.arrivals + n < need →
      (∃ t l', exec (.barArrive f) s = .next t ∧ t = s.setLot v.i.core v.i.bctx l' ∧ l' = { v.l with bars := l'.bars }
        ∧ l'.bar b = ⟨x.arrivals + n, expected, x.gen⟩ ∧ ∀ j, j ≠ b → l'.bar j = v.l.bar j)
      ∧ (s.calm v.i.core → v.l.ending = false →
        ∃ t l', exec (.barSync f) s = .next t ∧ t.lot? v.i.core v.i.bctx = some l'
          ∧ l'.bar b = ⟨x.arrivals + n, expected, x.gen⟩ ∧ (∀ j, j ≠ b → l'.bar j = v.l.bar j)
          ∧ (∀ a ∈ v.parts, (l'.thr a).st = .parked (.bar b x.gen) ∧ (l'.thr a).pc = v.i.next)
          ∧ (∀ a : Agent, a.l < 32 → a ∉ v.parts → l'.thr a = v.l.thr a)
          ∧ l'.vregs = v.l.vregs ∧ t.accs = s.accs ∧ t.m = s.m))
    ∧ ∀ a, v.i.agents = [a] → v.parts = [a] → s.calm v.i.core → v.l.ending = false → (v.l.thr a).st = .issuing → (v.l.thr a).plain →
      v.l.waitersPlain → need ≤ x.arrivals + 1 →
      let released (t : State) (l' : Lot) : Prop := t.lot? v.i.core v.i.bctx = some l' ∧ l'.bar b = ⟨0, expected, x.gen + 1⟩
        ∧ (∀ j, j ≠ b → l'.bar j = v.l.bar j) ∧ (∀ y ∈ v.l.barWaiters b, v.l.woken l' y)
        ∧ (∀ y : Agent, y.l < 32 → y ≠ a → y ∉ v.l.barWaiters b → l'.thr y = v.l.thr y)
        ∧ l'.vregs = v.l.vregs ∧ t.accs = s.accs ∧ t.m = s.m
      (∃ t l', exec (.barArrive f) s = .next t ∧ released t l' ∧ l'.thr a = v.l.thr a)
      ∧ (a ∈ v.l.agents → ∃ t l', exec (.barSync f) s = .next t ∧ released t l' ∧ t.issuer? s.active = none
        ∧ (l'.thr a).st = .ready ∧ (l'.thr a).pc = v.i.next)

/-- KJOIN sets the participants' ARRIVED bits where they are members, KLEAVE clears their bits in both parts; KMOV copies both
parts, and the lanes already parked on the mask that it writes count as arrived; KWAIT arrives and parks the members among its participants,
and the others go on; KSET sets MEMBERS to
the value of the participant with the lowest home lane, without absent and exited lanes, and clears ARRIVED but for the lanes
already parked on the mask; KGET reads MEMBERS (R82, R388, R389). Where every member has arrived, ARRIVED is cleared and every
lane parked on the mask is READY, the last arrivers of KWAIT at their following header (R82, R389). Stated for the
participants of one warp. -/
def Obligations.MaskRegisters : Prop :=
  ∀ (s : State) (v : View) (p : BitVec 3) (k : BitVec 4) (w : Nat), v.parts ≠ [] → (∀ a ∈ v.parts, a.w = w) →
    let x := v.l.warp w
    let lanes := (laneMask v.parts).toNat
    let mem := x.mem k.toNat
    let arr := x.arr k.toNat
    let parked := (laneMask (v.l.kwaiters w k.toNat)).toNat
    -- the mask holds m and r unless every member has arrived: then its waiters are READY and ARRIVED is clear
    let becomes (i : Instr) (m r : Nat) : Prop :=
      (andNot m r ≠ 0 → ∃ t l', exec i s = .next t ∧ t = s.setLot v.i.core v.i.bctx l' ∧ l' = { v.l with warps := l'.warps }
        ∧ (∀ u, u ≠ w → l'.warp u = v.l.warp u) ∧ (l'.warp w).mem k.toNat = m ∧ (l'.warp w).arr k.toNat = r
        ∧ ∀ j, j ≠ k.toNat → (l'.warp w).mem j = x.mem j ∧ (l'.warp w).arr j = x.arr j)
      ∧ (andNot m r = 0 → v.l.ending = false → v.l.waitersPlain →
        ∃ t l', exec i s = .next t ∧ t.lot? v.i.core v.i.bctx = some l' ∧ (l'.warp w).mem k.toNat = m ∧ (l'.warp w).arr k.toNat = 0
          ∧ (∀ y ∈ v.l.kwaiters w k.toNat, v.l.woken l' y)
          ∧ (∀ y : Agent, y.l < 32 → y ∉ v.l.kwaiters w k.toNat → l'.thr y = v.l.thr y)
          ∧ (∀ j, j ≠ k.toNat → (l'.warp w).mem j = x.mem j ∧ (l'.warp w).arr j = x.arr j)
          ∧ l'.vregs = v.l.vregs ∧ t.accs = s.accs ∧ t.m = s.m)
    (s.runs v p true false [] →
      becomes (.kjoin p k) mem (arr ||| (mem &&& lanes))
      ∧ becomes (.kleave p k) (andNot mem lanes) (andNot arr lanes)
      ∧ (∀ k' : BitVec 4, k ≠ k' →
        becomes (.kmov p k k') (x.mem k'.toNat) (if parked = 0 then x.arr k'.toNat else x.mem k'.toNat &&& parked))
      ∧ exec (.kmov p k k) s = .next s
      ∧ (s.calm v.i.core → v.l.ending = false → v.l.waitersPlain →
        (∀ a ∈ v.parts, (v.l.thr a).plain ∧ (v.l.thr a).st = .issuing ∧ a ∈ v.l.warpAgents w) →
        (andNot mem (arr ||| (mem &&& lanes)) ≠ 0 →
          ∃ t l', exec (.kwait p k) s = .next t ∧ t.lot? v.i.core v.i.bctx = some l' ∧ (l'.warp w).mem k.toNat = mem
            ∧ (l'.warp w).arr k.toNat = arr ||| (mem &&& lanes)
            ∧ (∀ a ∈ v.parts, bit mem a.l = true → (l'.thr a).st = .parked (.kwait k.toNat) ∧ (l'.thr a).pc = v.i.next)
            ∧ (∀ y : Agent, y.l < 32 → y ∉ v.parts ∨ bit mem y.l = false → l'.thr y = v.l.thr y) ∧ l'.vregs = v.l.vregs ∧ t.m = s.m)
        ∧ (andNot mem (arr ||| (mem &&& lanes)) = 0 → mem &&& lanes ≠ 0 →
          ∃ t l', exec (.kwait p k) s = .next t ∧ t.lot? v.i.core v.i.bctx = some l' ∧ (l'.warp w).mem k.toNat = mem
            ∧ (l'.warp w).arr k.toNat = 0
            ∧ (∀ a ∈ v.parts, bit mem a.l = true → (l'.thr a).st = .ready ∧ (l'.thr a).pc = v.i.next)
            ∧ (∀ y ∈ v.l.kwaiters w k.toNat, v.l.woken l' y) ∧ l'.vregs = v.l.vregs ∧ t.m = s.m)))
    ∧ ∀ (r : BitVec 7), s.runs v p true false [use1 r] →
      (∀ a ∈ v.parts, (∀ y ∈ v.parts, a.l ≤ y.l) →
        let here := (laneMask ((v.l.warpAgents w).filter (fun y => !(v.l.thr y).gone))).toNat
        becomes (.kset p k r) (v.l.val a r 32 &&& here) (v.l.val a r 32 &&& here &&& parked))
      ∧ ∃ t, exec (.kget p k r) s = .next t ∧ s.wrote t v r 32 false (fun _ => mem)

/-- DQPUSH writes entry P of a queue with room and advances P; every thread that waits for that entry receives it, advances
its cursor and is READY. With 64 entries it parks the barker at the instruction. DQPOP reads the entry at the lane's cursor
and advances it, or parks at P; a barker that waits for room is READY when the slowest thread has made room (R81, R364 to
R366). -/
def Obligations.DecisionQueue : Prop :=
  ∀ (s : State) (v : View) (p : BitVec 3) (r : BitVec 7),
    let P := v.l.dqP
    (s.alone v p Agent.barker false true [use1 r] → v.l.dqFill < 64 → v.l.ending = false → v.l.waitersPlain →
      let value : Word := (v.l.sreg r.toNat).setWidth 32
      ∃ t l', exec (.dqpush p r) s = .next t ∧ t.lot? v.i.core v.i.bctx = some l' ∧ l'.dqP = P + 1 ∧ l'.dqEntry P = value
        ∧ (∀ i : BitVec 16, i.toNat % 64 ≠ P.toNat % 64 → l'.dqEntry i = v.l.dqEntry i)
        ∧ (∀ a ∈ v.l.agents, ∀ d, (v.l.thr a).st = .parked (.dq d) → (v.l.thr a).cursor = P →
          v.l.woken l' a ∧ (l'.thr a).cursor = P + 1 ∧ (d < 128 → v.l.inRange a d 1 = true → l'.vreg a.w d a.l = value))
        ∧ (∀ a : Agent, a.l < 32 → (∀ d, (v.l.thr a).st ≠ .parked (.dq d)) ∨ (v.l.thr a).cursor ≠ P → l'.thr a = v.l.thr a)
        ∧ t.accs = s.accs ∧ t.m = s.m)
    ∧ (s.alone v p Agent.barker false true [use1 r] → v.l.dqFill = 64 → s.calm v.i.core → v.l.ending = false →
      ∃ t l', exec (.dqpush p r) s = .next t ∧ t.lot? v.i.core v.i.bctx = some l' ∧ t.issuer? s.active = none
        ∧ (l'.thr Agent.barker).st = .parked (.dqfull v.i.index) ∧ (l'.thr Agent.barker).pc = v.i.hdr
        ∧ l'.dqP = P ∧ l'.dq = v.l.dq ∧ t.accs = s.accs ∧ t.m = s.m)
    ∧ (s.runs v p true false [use1 r] → v.l.waitersPlain → v.l.ending = false → (∀ a ∈ v.parts, (v.l.thr a).cursor ≠ P) →
      ∃ t l', exec (.dqpop p r) s = .next t ∧ t.lot? v.i.core v.i.bctx = some l'
        ∧ (∀ a ∈ v.parts, l'.vreg a.w r.toNat a.l = v.l.dqEntry (v.l.thr a).cursor
          ∧ l'.thr a = { v.l.thr a with cursor := (v.l.thr a).cursor + 1, obs := (l'.thr a).obs })
        ∧ v.l.others l' v.parts r 32 ∧ l'.dq = v.l.dq ∧ l'.dqP = P
        ∧ (∀ n, (v.l.thr Agent.barker).st = .parked (.dqfull n) →
          (∀ a ∈ v.l.agents, (v.l.thr a).gone = false →
            (P - (if a ∈ v.parts then (v.l.thr a).cursor + 1 else (v.l.thr a).cursor)).toNat < 64) →
          (l'.thr Agent.barker).st = .ready)
        ∧ t.accs = s.accs ∧ t.m = s.m)
    ∧ (s.runs v p true false [use1 r] → v.l.waitersPlain → v.l.ending = false → s.calm v.i.core → v.parts ≠ [] →
      (∀ a ∈ v.parts, (v.l.thr a).cursor = P) →
      ∃ t l', exec (.dqpop p r) s = .next t ∧ t.lot? v.i.core v.i.bctx = some l'
        ∧ (∀ a ∈ v.parts, (l'.thr a).st = .parked (.dq r.toNat) ∧ (l'.thr a).pc = v.i.next ∧ (l'.thr a).cursor = P)
        ∧ l'.vregs = v.l.vregs ∧ l'.dq = v.l.dq ∧ l'.dqP = P ∧ t.accs = s.accs ∧ t.m = s.m)

/-- WAITC goes on where the warp's counters are at or below its thresholds, 255 being no limit, and parks the thread at the
following header where one is above (R87, R446, R447). RACQ takes the blocks of a warp without reserve blocks from the pool
when no request waits there, and their registers read zero; RREL gives blocks back, reserve blocks first (R40 to R43, R414,
R415). BLOCK_RETURN gives back the released blocks whose operations have ended. -/
def Obligations.CountersAndBlocks : Prop :=
  (
    ∀ (s : State) (v : View) (p : BitVec 3) (thr : BitVec 32),
      let under (c : Nat) (i : Nat) : Bool := thr.toNat / 256 ^ i % 256 == 255 || c ≤ thr.toNat / 256 ^ i % 256
      let ok (a : Agent) : Bool := let x := v.l.warp a.w
        under x.ld 0 && under x.st 1 && under x.cp 2 && under x.tl 3
      s.runs v p true true [] →
      ((∀ a ∈ v.parts, ok a = true) → exec (.waitc p thr) s = .next s)
      ∧ (∀ a, v.i.agents = [a] → v.parts = [a] → ok a = false → s.calm v.i.core → v.l.ending = false → (v.l.thr a).stop = none →
        ∃ t l', exec (.waitc p thr) s = .next t ∧ t.lot? v.i.core v.i.bctx = some l' ∧ t.issuer? s.active = none
          ∧ (l'.thr a).st = .parked (.waitc thr) ∧ (l'.thr a).pc = v.i.next ∧ l'.warps = v.l.warps ∧ l'.vregs = v.l.vregs))
  ∧ (
    (∀ (s : State) (v : View) (p : BitVec 3) (n : BitVec 4) (a : Agent),
      let x := v.l.warp a.w
      let k := s.core v.i.core
      s.alone v p a true false [] → a.w < 32 →
      (x.pool + x.reserve + n.toNat ≤ 8 → x.reserve = 0 → k.blockQ = [] → n.toNat ≤ k.pool →
        ∃ t l', exec (.racq p n) s = .next t ∧ t.lot? v.i.core v.i.bctx = some l'
          ∧ l'.warp a.w = { x with pool := x.pool + n.toNat } ∧ (t.core v.i.core) = { k with pool := k.pool - n.toNat }
          ∧ (∀ r lane, 16 * (x.pool + x.reserve) ≤ r → r < 16 * (x.pool + x.reserve + n.toNat) → lane < 32 → l'.vreg a.w r lane = 0)
          ∧ (∀ r lane, r < 16 * (x.pool + x.reserve) → lane < 32 → l'.vreg a.w r lane = v.l.vreg a.w r lane))
      ∧ (v.l.d.base + n.toNat ≤ x.pool + x.reserve → k.blockQ = [] → s.warpOps v.i.core v.i.bctx a.w = [] →
        ∃ t l', exec (.rrel p n) s = .next t ∧ t.lot? v.i.core v.i.bctx = some l'
          ∧ l'.warp a.w = { x with reserve := x.reserve - min n.toNat x.reserve, pool := x.pool - (n.toNat - min n.toNat x.reserve) }
          ∧ (t.core v.i.core) = { k with pool := k.pool + (n.toNat - min n.toNat x.reserve), reserve := k.reserve + min n.toNat x.reserve }
          ∧ l'.vregs = v.l.vregs))
    ∧ ∀ (s : State) (c b w : Nat) (l : Lot) (y : Back), s.lot? c b = some l → (l.warp w).backs = [y] → (s.core c).blockQ = [] →
        (∀ o ∈ y.ops, o ∉ s.warpOps c b w) →
        ∃ t l', exec (.blockReturn c b w) s = .next t ∧ t.lot? c b = some l' ∧ l'.warp w = { l.warp w with backs := [] }
          ∧ t.core c = { s.core c with pool := (s.core c).pool + y.pool, reserve := (s.core c).reserve + y.reserve })

/-- SRD writes the special register's value, 64 bits to a pair for %clock, %params, %faddr and %tags; SWR writes %fstat,
seeds the generator, and discards a write of %dsm; CLOCK writes the module time, which does not fall (R33, R102, R359, R431
to R433). How far the clocks have advanced is a free value (log entry 4). -/
def Obligations.SpecialRegisters : Prop :=
  ∀ (s : State) (v : View) (p : BitVec 3) (d : BitVec 7) (g : SReg),
    let wide := g = .clock ∨ g = .params ∨ g = .faddr ∨ g = .tags
    let uses := [if wide then use2 d else use1 d]
    let failed (a : Agent) : Nat := ((s.accs.filter (fun x => x.t == ⟨v.i.core, v.i.bctx, a.w, a.l⟩)).findSome? (fun x =>
      match x.phase with | .replay y => some y.addr | _ => none)).getD 0
    let value (a : Agent) : Nat := let t := 32 * a.w + a.l
      match g with
      | .tid => t % v.l.d.lx + t / v.l.d.lx % v.l.d.ly * 2 ^ 10 + t / (v.l.d.lx * v.l.d.ly) * 2 ^ 20
      | .lane => a.l
      | .warp => a.w
      | .lot => v.l.index
      | .lotx => v.l.index % v.l.d.gx
      | .loty => v.l.index / v.l.d.gx % v.l.d.gy
      | .lotz => v.l.index / (v.l.d.gx * v.l.d.gy)
      | .gridx => v.l.d.gx
      | .gridy => v.l.d.gy
      | .gridz => v.l.d.gz
      | .core => v.i.core % 16
      | .die => v.i.core / 16
      | .ctx => v.l.ctx
      | .params => v.l.d.param.toNat % 2 ^ 64
      | .paramsh => v.l.d.param.toNat / 2 ^ 64
      | .tags => v.l.tags.toNat
      | .fstat => (v.l.warp a.w).fstat.toNat
      | .rseed => (v.l.thr a).rng.toNat
      | .dsm => s.regF (ctxReg v.l.ctx 0x20) 18 17
      | .faddr => failed a % 2 ^ 64
      | .faddrh => failed a / 2 ^ 64 % 2 ^ 16
      | _ => 0
    (s.runs v p true (g ≠ .tid && g ≠ .lane && g ≠ .warp) uses → g ≠ .clock → g ≠ .lotdone →
      ∃ t, exec (.srd p d g) s = .next t ∧ s.wrote t v d (if wide then 64 else 32) false value)
    ∧ (s.runs v p true true [use2 d] →
      (∃ t l' n, exec (.srd p d .clock) s = .next t ∧ t.lot? v.i.core v.i.bctx = some l'
        ∧ (t.core v.i.core).cycles = (s.core v.i.core).cycles + n ∧ ∀ a ∈ v.parts, l'.holds a d 64 false (t.core v.i.core).cycles)
      ∧ ∃ t l' n, exec (.clock p d) s = .next t ∧ t.lot? v.i.core v.i.bctx = some l' ∧ t.p.ns = s.p.ns + n
        ∧ (∀ a ∈ v.parts, l'.holds a d 64 false t.p.ns) ∧ v.l.others l' v.parts d 64)
    ∧ (s.runs v p true true [use1 d] →
      (∃ t l', exec (.swr p d .fstat) s = .next t ∧ t = s.setLot v.i.core v.i.bctx l' ∧ l' = { v.l with warps := l'.warps }
        ∧ ∀ a, v.parts = [a] → (l'.warp a.w).fstat.toNat = v.l.val a d 32 % 256)
      ∧ (∃ t l', exec (.swr p d .rseed) s = .next t ∧ t = s.setLot v.i.core v.i.bctx l' ∧ l' = { v.l with threads := l'.threads }
        ∧ ∀ a ∈ v.parts, (l'.thr a).rng =
            (let n := if a.isBarker then 32 else a.l
             let z := v.l.val a d 32 ^^^ (0x9E3779B9 * (n + 1) % 2 ^ 32)
             if z = 0 then 1 else BitVec.ofNat 32 z))
      ∧ exec (.swr p d .dsm) s = .next (s.setLot v.i.core v.i.bctx v.l))

/-! ### Accesses, fences and monitors -/

/-- LD and ST issue one access for each participant, in order, at the address of R130, with the register's value of a store;
LD counts in LD and ST in ST, once for each home warp (R85, R130, R393 to R395, R434 to R436). ATOM issues an access with a
result, and counts in LD, where D is not v0 or the operation is CAS, else without and in ST; RED never has one (R85, R131,
R207, R341, R417). -/
def Obligations.AccessesIssue : Prop :=
  (
    ∀ (s : State) (v : View) (f : FmtM3),
      let n := (szTy f.sz).bits
      let uses := [useAddr f.a f.sp, useW f.d n]
      let lane (a : Agent) : LaneId := ⟨v.i.core, v.i.bctx, a.w, a.l⟩
      let ld (disp : Int) (a : Agent) : Sent :=
        ⟨lane a, .ld, f.sp, v.dataAddr a f.a f.sp disp, n / 8, 0, 0, some (f.d.toNat, szTy f.sz), .walk⟩
      let st (disp : Int) (a : Agent) : Sent :=
        ⟨lane a, .st, f.sp, v.dataAddr a f.a f.sp disp, n / 8, v.l.val a f.d n, 0, none, .walk⟩
      s.runs v f.p true true uses →
      (∃ t, exec (.ld f) s = .next t ∧ s.issued t v (some 0) (ld 0))
      ∧ (∀ d : BitVec 32, ∃ t, exec (.ldDisp f (.d32 d)) s = .next t ∧ s.issued t v (some 0) (ld d.toInt))
      ∧ (∀ d : BitVec 64, ∃ t, exec (.ldDisp f (.d64 d)) s = .next t ∧ s.issued t v (some 0) (ld d.toInt))
      ∧ (∃ t, exec (.st f) s = .next t ∧ s.issued t v (some 1) (st 0))
      ∧ (∀ d : BitVec 32, ∃ t, exec (.stDisp f (.d32 d)) s = .next t ∧ s.issued t v (some 1) (st d.toInt))
      ∧ ∀ d : BitVec 64, ∃ t, exec (.stDisp f (.d64 d)) s = .next t ∧ s.issued t v (some 1) (st d.toInt))
  ∧ (
    ∀ (s : State) (v : View) (f : FmtAt),
      let n := f.ty.bits
      let result : Prop := f.d ≠ 0 ∨ f.op = .cas
      let uses (r : Bool) := [use2 f.a, useW f.b n] ++ (if r then [useW f.d n] else []) ++ (if f.op == .cas then [useW f.c n] else [])
      let sent (k : AccKind) (dst : Option (Nat × Ty)) (a : Agent) : Sent :=
        ⟨⟨v.i.core, v.i.bctx, a.w, a.l⟩, k, f.sp, v.l.addr a f.a f.sp 0, n / 8, v.l.val a f.b n,
          if f.op = .cas then v.l.val a f.c n else 0, dst, .walk⟩
      (s.runs v f.p true true (uses (atomResult f)) →
        (result → ∃ t, exec (.atom f) s = .next t ∧ s.issued t v (some 0) (sent .atom (some (f.d.toNat, rawTy n))))
        ∧ (¬ result → ∃ t, exec (.atom f) s = .next t ∧ s.issued t v (some 1) (sent .atom none)))
      ∧ (s.runs v f.p true true (uses false) → ∃ t, exec (.red f) s = .next t ∧ s.issued t v (some 1) (sent .red none)))

/-- BID, PEEK, RECYCLE and CLOSE issue a 16-byte access that counts in LD; BID carries VALUE, bid id and EXPGEN of its quad
(R85, R221, R347, R360, R410, R416). RSEND, RFETCH, TQ and the cache operations issue one access for each participant:
RFETCH and TQ count in LD, RSEND and the cache operations in ST, CPREF nowhere; `SRD %lotdone` is a split read of 4 bytes
that counts in LD (R85, R354, R421, R431, R443). -/
def Obligations.CellsPlacesAndCacheOpsIssue : Prop :=
  (
    ∀ (s : State) (v : View) (p : BitVec 3) (d a b : BitVec 7),
      let sent (k : AccKind) (ty : Ty) (data : Nat) (t : Agent) : Sent :=
        ⟨⟨v.i.core, v.i.bctx, t.w, t.l⟩, k, .g, v.l.addr t a .g 0, 16, data, 0, some (d.toNat, ty), .walk⟩
      let word (t : Agent) (i : Nat) : Nat :=
        if t.isBarker then (v.l.sreg (b.toNat + i)).toNat % 2 ^ 32 else (v.l.vreg t.w (b.toNat + i) t.l).toNat
      (s.runs v p true true [use2 a, useCell d, useCell b] → ∃ t, exec (.bid p d a b) s = .next t
        ∧ s.issued t v (some 0) (fun x => sent .bid .b128 (word x 0 + 2 ^ 32 * word x 1 + 2 ^ 64 * word x 2 + 2 ^ 96 * word x 3) x))
      ∧ (s.runs v p true true [use2 a, useCell d] → ∃ t, exec (.peek p d a) s = .next t ∧ s.issued t v (some 0) (sent .peek .b128 0))
      ∧ (s.runs v p true true [use2 a, use1 d] →
        (∃ t, exec (.recycle p d a) s = .next t ∧ s.issued t v (some 0) (sent .recycle .b32 0))
        ∧ ∃ t, exec (.close p d a) s = .next t ∧ s.issued t v (some 0) (sent .close .b32 0)))
  ∧ (
    ∀ (s : State) (v : View),
      let lane (a : Agent) : LaneId := ⟨v.i.core, v.i.bctx, a.w, a.l⟩
      (∀ f : FmtQ, s.runs v f.p true true [use1 f.a, useW f.d (szTy f.sz).bits] →
        (∃ t, exec (.rsend f) s = .next t ∧ s.issued t v (some 1) (fun a =>
          ⟨lane a, .rsend, .v, v.l.val a f.a 32, (szTy f.sz).bits / 8, v.l.val a f.d (szTy f.sz).bits, 0, none, .walk⟩))
        ∧ ∃ t, exec (.rfetch f) s = .next t ∧ s.issued t v (some 0) (fun a =>
          ⟨lane a, .rfetch, .v, v.l.val a f.a 32, (szTy f.sz).bits / 8, 0, 0, some (f.d.toNat, szTy f.sz), .walk⟩))
      ∧ (∀ f : FmtCache,
        let sent (k : AccKind) (dst : Option (Nat × Ty)) (a : Agent) : Sent := ⟨lane a, k, f.sp, v.l.addr a f.a f.sp 0, 1, 0, 0, dst, .walk⟩
        (s.runs v f.p true true [use2 f.a] →
          (∃ t, exec (.cflush f) s = .next t ∧ s.issued t v (some 1) (sent .cflush none))
          ∧ (∃ t, exec (.cinv f) s = .next t ∧ s.issued t v (some 1) (sent .cinv none))
          ∧ (∃ t, exec (.cdisc f) s = .next t ∧ s.issued t v (some 1) (sent .cdisc none))
          ∧ ∃ t, exec (.cpref f) s = .next t ∧ s.issued t v none (sent .cpref none))
        ∧ (s.runs v f.p true true [use2 f.a, use1 f.d] →
          ∃ t, exec (.cinvDiscard f) s = .next t ∧ s.issued t v (some 1) (sent .cinvDiscard (some (f.d.toNat, .b32)))))
      ∧ ∀ (p : BitVec 3) (d a : BitVec 7) (table : BitVec 6),
        (s.runs v p true true [use1 a, use1 d] → ∃ t, exec (.tq p d a table) s = .next t ∧ s.issued t v (some 0) (fun x =>
          ⟨lane x, .tq, .g, v.l.val x a 32, 4, 0, 0, some (d.toNat, .b32), .walk⟩))
        ∧ (s.runs v p true true [use1 d] → ∃ t, exec (.srd p d .lotdone) s = .next t ∧ s.issued t v (some 0) (fun x =>
          ⟨lane x, .lotdone, .g, 0, 4, 0, 0, some (d.toNat, .b32), .walk⟩)))

/-- FENCE covers the participant's earlier accesses, an acquire its reads and its atomics with an acquire alone; a release also
the writes that the lane has observed by synchronising, and the TBIND table writes of its warp (R184, R241); an RSEND is covered
from DIE scope on within the die and from PKG on elsewhere. The fence ends when nothing that it covers is outstanding and no line
is left for its release to write back, and not before (R183, R184). Accesses that await their re-issue in a lot that is ending,
halted or being saved are kept by the log and hold up no fence (R287, R294). -/
def Obligations.Fences : Prop :=
  (∀ (s : State) (v : View) (p : BitVec 3) (sc : Scope) (k : FenceKind) (a : Agent), s.alone v p a true true [] →
    (s.accs.map (fun x => x.id)).Nodup → (∀ x ∈ s.accs, ∀ q ∈ v.l.kicks, x.id ≠ q.id) →
    let lane : LaneId := ⟨v.i.core, v.i.bctx, a.w, a.l⟩
    let seen (i : Nat) : Prop := i ∈ (v.l.thr a).obs
    ∃ t id covers, exec (.fence p sc k) s = .next t
      ∧ t = { s with nextId := s.nextId + 1, fences := s.fences ++ [⟨id, lane, k, sc, covers⟩] }
      ∧ ∀ i, i ∈ covers ↔
        (∃ x ∈ s.accs, x.id = i ∧ x.inScope v.i.core sc = true ∧ ((x.t = lane ∧ (k ≠ .acq ∨ x.acquires = true)) ∨ (k ≠ .acq ∧ seen i)))
        ∨ (k ≠ .acq ∧ ∃ q ∈ v.l.kicks, q.id = i ∧ q.kind = .tbind ∧ (q.agent.w = a.w ∨ seen i)))
  ∧ (∀ (x : Acc) (core : Nat) (sc : Scope), x.inScope core sc =
      (x.kind != .rsend || sc == .pkg || sc == .sys || (sc == .die && x.pa / 16 == core / 16)))
  ∧ ∀ (s : State) (f : FenceRec) (l : Lot), s.fences.find? (fun x => x.id == f.id) = some f → s.lot? f.t.core f.t.bctx = some l →
    ((∀ x ∈ s.accs, x.id ∈ f.covers → s.deferred x = true) → (∀ q ∈ l.kicks, q.id ∉ f.covers) →
      (f.kind = .acq ∨ (s.releaseScope f.t.core l.ctx f.scope).1 = true → ∃ t, exec (.releaseActionComplete f.id) s = .next t
        ∧ t.fences = s.fences.filter (fun x => x.id != f.id) ∧ t.accs = s.accs ∧ t.lots.length = s.lots.length)
      ∧ (f.kind ≠ .acq → (s.releaseScope f.t.core l.ctx f.scope).1 = false → ∃ t, exec (.releaseActionComplete f.id) s = .next t
        ∧ t.fences = s.fences ∧ t.accs = s.accs))
    ∧ ((∃ x ∈ s.accs, x.id ∈ f.covers ∧ s.deferred x = false) ∨ (∃ q ∈ l.kicks, q.id ∈ f.covers) → exec (.releaseActionComplete f.id) s = .next s)

/-- MONITOR of an aligned scratchpad word inside the share watches its line, one that is misaligned or outside stops the
thread at its next header with fault 0x10 or 0x11 and leaves no monitor armed; of a global word it watches the line of its PA
(R84, R402, R403). WAITM returns at once 0 after a write seen, else 2 without a live monitor and 1 with a timeout of 0, and
parks the thread otherwise; a report wakes it with status 0 and a timeout with status 1, and either forgets the writes seen
before it (R84, R448, R449). That a write which the monitor has noted comes before a timeout, or a loss, that follows it, so that
the status is 0, is the model's reading of the first of these events (log entry 111). -/
def Obligations.Monitors : Prop :=
  (
    ∀ (s : State) (v : View) (p : BitVec 3) (sp : Space) (sc : Scope) (r : BitVec 7) (a : Agent),
      let va := v.l.addr a r sp 0
      let next (t : State) (x : Thread) : Prop := ∃ l', t.lot? v.i.core v.i.bctx = some l' ∧ l'.thr a = x ∧ l'.vregs = v.l.vregs
      s.alone v p a true true [useAddr r sp] →
      (sp = .l → va % 4 = 0 → va + 4 ≤ v.l.d.scr * 1024 → ∃ t, exec (.monitor p sp sc r) s = .next t
        ∧ next t { v.l.thr a with mon := some ⟨true, va / 128, sc, false, false, false⟩ })
      ∧ ((v.l.thr a).st = .issuing → (v.l.thr a).stop = none → va % 4 ≠ 0 → ∃ t, exec (.monitor p sp sc r) s = .next t
        ∧ next t { v.l.thr a with mon := none, stop := some ⟨0x10, 1, 0, va, false, v.i.hdr⟩ })
      ∧ ((v.l.thr a).st = .issuing → (v.l.thr a).stop = none → sp = .l → va % 4 = 0 → v.l.d.scr * 1024 < va + 4 →
        ∃ t, exec (.monitor p sp sc r) s = .next t ∧ next t { v.l.thr a with mon := none, stop := some ⟨0x11, 0, 0, va, false, v.i.hdr⟩ })
      ∧ ∀ (pa attr modid : Nat) (big : Bool) (s' : State), sp ≠ .l → va % 4 = 0 →
        s.translate v.i.core v.l.ctx va = (.ok pa attr modid big, s') → accFault .ld sp pa attr = none → region pa < 8 →
        (∀ f ∈ filtersOf v.i.core (pa / 128), (s'.m.filters.filter (fun e => e.filter == f.1)).length < f.2) →
        ∃ t, exec (.monitor p sp sc r) s = .next t ∧ next t { v.l.thr a with mon := some ⟨false, pa / 128, sc, false, false, false⟩ })
  ∧ (
    (∀ (s : State) (v : View) (p : BitVec 3) (d r : BitVec 7) (a : Agent),
      let n := v.l.val a r 32
      let atOnce (m : Option Monitor) (st : Nat) : Prop := (v.l.thr a).mon = m → ∃ t l', exec (.waitm p d r) s = .next t
        ∧ t.lot? v.i.core v.i.bctx = some l' ∧ l'.holds a d 32 false st ∧ v.l.others l' [a] d 32 ∧ (l'.thr a).st = (v.l.thr a).st
      s.alone v p a true true [use1 d, use1 r] →
      atOnce none 2
      ∧ (∀ m : Monitor, (m.lost = true → m.pending = false → m.written = false → atOnce (some m) 2)
        ∧ (m.pending = true ∨ m.written = true → atOnce (some m) 0)
        ∧ (m.lost = false → m.pending = false → m.written = false → n = 0 → atOnce (some m) 1)
        ∧ (m.lost = false → m.pending = false → m.written = false → n ≠ 0 → (v.l.thr a).mon = some m → s.calm v.i.core →
          v.l.ending = false →
          ∃ t l', exec (.waitm p d r) s = .next t ∧ t.lot? v.i.core v.i.bctx = some l' ∧ t.issuer? s.active = none
            ∧ (l'.thr a).st = .parked (.mon d.toNat (if n = 2 ^ 32 - 1 then none else some n)) ∧ (l'.thr a).pc = v.i.next)))
    ∧ ∀ (s : State) (t : LaneId) (l : Lot) (m : Monitor) (d : Nat) (lim : Option Nat),
      let a := laneAgent t
      s.lot? t.core t.bctx = some l → t.l < 32 → d < 128 → l.inRange a d 1 = true → (l.thr a).mon = some m → (l.thr a).plain →
      l.ending = false → (l.thr a).st = .parked (.mon d lim) →
      (m.pending = true → ∃ u l', exec (.monitorReport t) s = .next u ∧ u.lot? t.core t.bctx = some l'
        ∧ l'.holds a (BitVec.ofNat 7 d) 32 false 0 ∧ (l'.thr a).st = .ready
        ∧ (l'.thr a).mon = some { m with pending := false, written := false })
      ∧ (lim.isSome → ∃ u l', exec (.waitmTimeout t) s = .next u ∧ u.lot? t.core t.bctx = some l'
        ∧ l'.holds a (BitVec.ofNat 7 d) 32 false (if m.pending || m.written then 0 else 1) ∧ (l'.thr a).st = .ready
        ∧ (l'.thr a).mon = some { m with pending := false, written := false }))

/-! ### Kicks, tags and tile instructions -/

/-- KICK, TLOAD and TQR put the 64-byte record's offset into the lot's kick queue, TBIND its entries, behind every write that
a lane of the issuing warp has made or observed by synchronising and behind the warp's acquires, and count in CP (R85, R195, R233, R241, R264, R439, R442). TWAITANY and TWAITALL go on where the mask is
zero or its condition holds and park the thread where not; TFFR writes the number of the lowest tag set under its mask, 64
for none; TCLR clears the tags of its mask (R234, R237, R440, R441). -/
def Obligations.KicksAndTags : Prop :=
  (
    ∀ (s : State) (v : View) (p : BitVec 3) (r b : BitVec 7) (a : Agent),
      let entered (t : State) (kind : KickKind) (off first count : Nat) : Prop := ∃ l' id after,
        t = { s with nextId := t.nextId, lots := t.lots } ∧ t.lot? v.i.core v.i.bctx = some l'
        ∧ l' = { v.l with kicks := v.l.kicks ++ [⟨id, kind, off, first, count, a, v.i.hdr, 1, after, v.warps⟩], warps := l'.warps }
        ∧ (∀ w, l'.warp w = if w ∈ v.warps then { v.l.warp w with cp := (v.l.warp w).cp + 1 } else v.l.warp w)
        ∧ (∀ y ∈ v.l.crew a.w, (∀ x ∈ s.accs, x.t = ⟨v.i.core, v.i.bctx, y.w, y.l⟩ → x.kind.onlyReads = false → x.id ∈ after)
          ∧ ∀ x ∈ s.accs, x.id ∈ (v.l.thr y).obs → x.id ∈ after)
        ∧ ∀ f ∈ s.fences, f.t.core = v.i.core → f.t.bctx = v.i.bctx → f.t.w = a.w → f.kind ≠ .rel → f.id ∈ after
      let off := v.l.val a r 32
      v.elected = some a → a ∈ v.parts ∧ (∀ x ∈ v.parts, a.l ≤ x.l)
      ∧ (s.runs v p true true [use1 r] → off % 64 = 0 → off + 64 ≤ v.l.d.scr * 1024 →
        (∃ t, exec (.kick p r) s = .next t ∧ entered t .order off 0 0)
        ∧ (∃ t, exec (.tload p r) s = .next t ∧ entered t .tload off 0 0)
        ∧ ∃ t, exec (.tqr p r) s = .next t ∧ entered t .tqr off 0 0)
      ∧ (let first := v.l.val a b 32 % 256
         let count := v.l.val a b 32 / 256 % 256
         let va := v.l.addr a r .g 0
         s.runs v p true true [use1 b, use2 r] → count ≠ 0 → first + count ≤ 256 → va % 128 = 0 →
         ∃ t, exec (.tbind p b r) s = .next t ∧ entered t .tbind va first count))
  ∧ (
    ∀ (s : State) (v : View) (p : BitVec 3) (d r : BitVec 7),
      let mask (a : Agent) : Word64 := BitVec.ofNat 64 (v.l.val a r 64)
      let wait (i : Instr) (all : Bool) (holds : Word64 → Prop) : Prop :=
        ((∀ a ∈ v.parts, holds (mask a)) → exec i s = .next s)
        ∧ ∀ a, v.i.agents = [a] → v.parts = [a] → ¬ holds (mask a) → s.calm v.i.core → v.l.ending = false →
          ∃ t l', exec i s = .next t ∧ t.lot? v.i.core v.i.bctx = some l' ∧ t.issuer? s.active = none
            ∧ (l'.thr a).st = .parked (.tag all (mask a)) ∧ (l'.thr a).pc = v.i.next ∧ l'.tags = v.l.tags
      (s.runs v p true true [use2 r] →
        wait (.twaitany p r) false (fun m => m = 0 ∨ v.l.tags &&& m ≠ 0)
        ∧ wait (.twaitall p r) true (fun m => v.l.tags &&& m = m)
        ∧ ∃ t l', exec (.tclr p r) s = .next t ∧ t = s.setLot v.i.core v.i.bctx l' ∧ l' = { v.l with tags := l'.tags }
          ∧ ∀ i, i < 64 → l'.tags.getLsbD i = (v.l.tags.getLsbD i && v.parts.all (fun a => !(mask a).getLsbD i)))
      ∧ (Instr.tffr p d r).computes p true [use1 d, use2 r] d 32 false (fun v a =>
          ((List.range 64).find? (fun i => v.l.tags.getLsbD i && bit (v.l.val a r 64) i)).getD 64))

/-- CLAIM takes a slot of the lot that is not CLAIMED; RELEASE frees a CLAIMED slot that no tile operation reads, and leaves
it RELEASING where one does (R244, R358, R418). MMA, ACCZ, ACCRD, ACCWR and QUANT enter one operation each in the tile order
of their lot and count in TL for every warp with an active lane; ACCRD and ACCWR address row SEL[5:0] and column 32 SEL[6] plus the home lane, or SEL[11:6] for
a barker; MMAP enters the MMA of a chain of one (R248 to R254, R337 to R339, R400, R401, R412). -/
def Obligations.TileInstructions : Prop :=
  (
    ∀ (s : State) (v : View) (p : BitVec 3) (k : BitVec 5), s.runs v p true true [] → v.parts ≠ [] → k.toNat < v.l.d.ops →
      (v.l.slotSt k.toNat ≠ .claimed → ∃ t l', exec (.claim p k) s = .next t ∧ t = s.setLot v.i.core v.i.bctx l'
        ∧ l' = { v.l with slotState := l'.slotState } ∧ ∀ j, l'.slotSt j = if j = k.toNat then .claimed else v.l.slotSt j)
      ∧ (v.l.slotSt k.toNat = .claimed → ∃ t l', exec (.release p k) s = .next t ∧ t = s.setLot v.i.core v.i.bctx l'
        ∧ l' = { v.l with slotState := l'.slotState }
        ∧ l'.slotSt k.toNat = (if s.e.tileOps.any (fun x => x.core == v.i.core && x.bctx == v.i.bctx && x.kind.reads.contains k.toNat)
            then .releasing else .free)
        ∧ ∀ j, v.l.slotSt j = .claimed → j ≠ k.toNat → l'.slotSt j = .claimed))
  ∧ (
    ∀ (s : State) (v : View) (a : Agent), v.elected = some a →
      let place (x : Agent) (sel : Nat) : Nat × Nat :=
        if x.isBarker then (sel % 64, sel / 64 % 64) else (sel % 64, 32 * (sel / 64 % 2) + x.l)
      (∀ f : FmtMma, s.runs v f.p true true [] → f.acc.toNat < v.l.d.acc → v.l.slotOk f.oa.toNat = true → v.l.slotOk f.ob.toNat = true →
        ∃ t, exec (.mma f) s = .next t ∧ s.enteredTile t v a v.warps (.mma f))
      ∧ (∀ (p : BitVec 3) (n : BitVec 4), s.runs v p true true [] → n.toNat < v.l.d.acc →
        ∃ t, exec (.accz p n) s = .next t ∧ s.enteredTile t v a v.warps (.accz n.toNat))
      ∧ (∀ (p : BitVec 3) (n : BitVec 4) (d r : BitVec 7), s.runs v p true true [use1 d, use1 r] → n.toNat < v.l.d.acc →
        let lanes := v.parts.map (fun x => (x, place x (v.l.val x r 32)))
        let first := v.parts.headD a
        (∃ t, exec (.accrd p n d r) s = .next t ∧ s.enteredTile t v first v.warps (.accrd n.toNat d.toNat lanes))
        ∧ ∃ t, exec (.accwr p n d r) s = .next t ∧ s.enteredTile t v first v.warps
            (.accwr n.toNat (v.parts.map (fun x => ((place x (v.l.val x r 32)).1, (place x (v.l.val x r 32)).2, BitVec.ofNat 32 (v.l.val x d 32))))))
      ∧ (∀ f : FmtQuant, f.tomem = false → s.runs v f.p true true [] → f.acc.toNat < v.l.d.acc → v.l.slotOk f.slot.toNat = true →
        ∃ t, exec (.quant f) s = .next t ∧ s.enteredTile t v a v.warps (.quantSlot f.acc.toNat f.ty f.rnd f.slot.toNat))
      ∧ (∀ (f : FmtQuant) (pa pa' at' at'' m m' : Nat) (big big' : Bool) (s' s'' : State), f.tomem = true →
        s.runs v f.p true true [use2 f.a] → f.acc.toNat < v.l.d.acc → v.l.addr a f.a .g 0 % 128 = 0 →
        s.engCheck v.i.core v.l.ctx (v.l.addr a f.a .g 0) true none = (.ok pa at' m big, s') →
        s'.engCheck v.i.core v.l.ctx ((v.l.addr a f.a .g 0 + quantLen f.ty - 1) % 2 ^ 80) true none = (.ok pa' at'' m' big', s'') →
        ∃ t, exec (.quant f) s = .next t ∧ s''.enteredTile t v a v.warps (.quantMem f.acc.toNat f.ty f.rnd (v.l.addr a f.a .g 0) 0))
      ∧ ∀ (p : BitVec 3) (r : BitVec 7) (f : FmtMma) (w : Word), s.runs v p true true [use1 r] → s.accs = [] →
        v.l.val a r 32 % 64 = 0 → v.l.val a r 32 + 64 ≤ v.l.d.scr * 1024 → decode [w] = .ok (.mma f, 1) → w ≠ 0 → f.p = 0 →
        f.acc.toNat < v.l.d.acc → v.l.slotOk f.oa.toNat = true → v.l.slotOk f.ob.toNat = true →
        v.l.scratchNat (v.l.val a r 32) 8 = w.toNat →
        ∃ t, exec (.mmap p r) s = .next t ∧ s.enteredTile t v a v.warps (.mma f))

/-! ### Work -/

/-- LAUNCH and LAUNCH.W ask for a child launch of the descriptor named, behind the writes that the waiting lanes have made or
observed, and park them: LAUNCH of one participant its own, LAUNCH.W all participants for the descriptor of the lowest lane
(R60, R61, R391, R392). A child request of a launch that is being cancelled gives the status word 2 to the lanes that wait;
one whose writes are performed and released at PKG scope, and whose descriptor is read without fault, is accepted below the
limit of 4,096, as a device launch of its parent, with the status word 0; one whose descriptor is refused gives 1 and the
code, with a record (R60 to R62, R392). That the request waits for writes which the lanes have observed, and for the TBIND kicks
of their warps, beside their own stores, is the model's reading of the release (log entry 112). -/
def Obligations.ChildLaunches : Prop :=
  (
    ∀ (s : State) (v : View) (p : BitVec 3) (d a : BitVec 7) (t0 : Agent),
      s.runs v p true true [use1 d, use2 a] → v.parts = v.i.agents → v.elected = some t0 → s.calm v.i.core → v.l.ending = false →
      let asked (t : State) (lanes : List Agent) : Prop := ∃ id after l',
        t.w = { s.w with childReqs := s.w.childReqs ++ [⟨id, ⟨v.i.core, v.i.bctx, t0.w, t0.l⟩, lanes, d.toNat, v.l.ctx,
          ((BitVec.ofNat 64 (v.l.val t0 a 64)).signExtend 80), v.l.launch, after⟩] }
        ∧ (∀ i, i ∈ after ↔
            (∃ x ∈ s.accs, x.id = i ∧ ∃ b ∈ lanes, (x.t = ⟨v.i.core, v.i.bctx, b.w, b.l⟩ ∧ x.kind.onlyReads = false) ∨ i ∈ (v.l.thr b).obs)
            ∨ ∃ k ∈ v.l.kicks, k.id = i ∧ k.kind = .tbind ∧ ∃ b ∈ lanes, k.agent.w = b.w ∨ i ∈ (v.l.thr b).obs)
        ∧ t.lot? v.i.core v.i.bctx = some l' ∧ t.issuer? s.active = none ∧ l'.vregs = v.l.vregs
        ∧ ∀ b ∈ lanes, (l'.thr b).st = .parked (.launch d.toNat id) ∧ (l'.thr b).pc = v.i.next
      (∃ t, exec (.launchW p d a) s = .next t ∧ asked t v.parts)
      ∧ (v.parts = [t0] → ∃ t, exec (.launch p d a) s = .next t ∧ asked t [t0]))
  ∧ (
    ∀ (s : State) (r : ChildReq) (l : Lot) (a : Agent),
      s.w.childReqs = [r] → s.lot? r.t.core r.t.bctx = some l → r.lanes = [a] → a.l < 32 → a.isBarker = false → r.d < 128 →
      (l.thr a).st = .parked (.launch r.d r.id) → (l.thr a).plain → l.ending = false →
      let got (t : State) (word : Nat) : Prop := t.w.childReqs = [] ∧ ∃ l', t.lot? r.t.core r.t.bctx = some l'
        ∧ l'.vreg a.w r.d a.l = BitVec.ofNat 32 word ∧ (l'.thr a).st = .ready
      (s.beingCancelled r.parent = true → ∃ t, exec (.childLaunchAccept r.id) s = .next t ∧ got t 2 ∧ t.w.launches = s.w.launches)
      ∧ ∀ s0 s', s.beingCancelled r.parent = false → (∀ i ∈ r.after, s.unperformed r.t.core r.t.bctx i = false) →
        s.releaseScope r.t.core r.ctx .pkg = (true, s0) →
        (∀ (d : Desc) (x : Launch), s0.readDesc (.child r.id) r.ctx r.va none = (.ok d, s') →
          s'.launch? r.parent = some x → Tbl.get 0 s'.w.device r.ctx < 4096 → s'.w.childReqs = [r] → s'.lot? r.t.core r.t.bctx = some l →
          0 < d.gx * d.gy * d.gz →
          ∃ t y, exec (.childLaunchAccept r.id) s = .next t ∧ got t 0 ∧ y ∈ t.w.launches ∧ y.d = d ∧ y.device = true
            ∧ y.parentLaunch = some x.id ∧ y.queue = x.queue ∧ y.prio = x.prio ∧ y.total = d.gx * d.gy * d.gz
            ∧ Tbl.get 0 t.w.device r.ctx = Tbl.get 0 s'.w.device r.ctx + 1)
        ∧ ∀ code : Nat, s0.readDesc (.child r.id) r.ctx r.va none = (.bad code, s') →
          s'.w.childReqs = [r] → s'.lot? r.t.core r.t.bctx = some l →
          ∃ t, exec (.childLaunchAccept r.id) s = .next t ∧ got t (1 + 256 * code) ∧ t.w.launches = s'.w.launches
            ∧ s'.recorded t r.ctx)

/-- CANCEL of the launch, or of a level in which the launch does not lie, cancels the launch with its device-side children; CANCEL
of a level that contains it marks the level and the levels within it, and cancels every launch in them with its children. Of
each launch so cancelled no further lot is placed, the save areas go, and exactly its unstarted lots, its lots to be rerun and
its saved lots count as retired, in its counter too; the cancel is on its way to the cores of its resident lots, the issuing lot
among them. A launch or level that is cancelled already is left as it is, so a repeat changes nothing, and without a participant
nothing happens (R49 to R51, R353). -/
def Obligations.Cancels : Prop :=
  ∀ (s : State) (v : View) (p : BitVec 3) (k : CancelLevel) (x : Launch), s.runs v p true true [] → s.launch? v.l.launch = some x →
    (v.parts = [] → exec (.cancel p k) s = .next s)
    ∧ (v.parts ≠ [] → k = .launch ∨ s.levelOf k x.parentLevel 3 = none →
      let all := s.withChildren [x.id] s.w.launches.length
      (∃ t, exec (.cancel p k) s = .next t ∧ s.cancels t [x.id] ∧ t.w.levels = s.w.levels
        ∧ (all = [x.id] →
          t.counter x.ctx x.d.ctr = s.counter x.ctx x.d.ctr + BitVec.ofNat 64 (x.asCancelled.retired - x.retired)))
      ∧ ((∀ i ∈ all, ∀ z, s.launch? i = some z → z.cancelled = true) → exec (.cancel p k) s = .next s))
    ∧ (v.parts ≠ [] → k ≠ .launch → ∀ (id : Nat) (y : Level), s.levelOf k x.parentLevel 3 = some id → s.level? id = some y →
      (y.cancelled = true → exec (.cancel p k) s = .next s)
      ∧ (y.cancelled = false → ∃ t, exec (.cancel p k) s = .next t
        ∧ (∀ z, s.level? z.id = some z → t.level? z.id = some (if z.id ∈ s.levelTree id then { z with cancelled := true } else z))
        ∧ s.cancels t ((s.w.launches.filter (fun z => match z.parentLevel with
            | some n => (s.levelTree id).contains n
            | none => false)).map (fun z => z.id))))

/-- SWI sends one soft interrupt for each participant, in order, behind the writes that the lane has made or observed; it is
delivered, once they are performed and released at SYS scope, to the wake register of an enabled queue of its context, or to the Market Master's FIFO of 256; a failed delivery writes a record
(R63, R64, R437, R438). That it waits for the writes which the lane has observed, beside the lane's own, is the model's reading of
the release (log entry 112). A launch whose dependences hold is offered; a launch whose lots have all retired and whose children
have completed is gone, and its level counts it in its counter; so for a closed level without members; the oldest wake-FIFO
entry becomes a record (R47, R56, R58, R65). -/
def Obligations.InterruptsAndCompletion : Prop :=
  (
    (∀ (s : State) (v : View) (p : BitVec 3) (a b : BitVec 7), s.runs v p true true [use1 a, use1 b] →
      ∃ t new, exec (.swi p a b) s = .next t ∧ t.w = { s.w with swis := s.w.swis ++ new } ∧ t.accs = s.accs ∧ t.lots = s.lots
        ∧ new.map (fun x => (x.t, x.ctx, x.value.toNat, x.target.toNat)) = v.parts.map (fun x =>
          ((⟨v.i.core, v.i.bctx, x.w, x.l⟩ : LaneId), v.l.ctx, v.l.val x a 32, v.l.val x b 32))
        ∧ ∀ x ∈ new, ∀ y ∈ s.accs, (y.t = x.t ∧ y.hasResult = false) ∨ y.id ∈ (v.l.thr (laneAgent x.t)).obs → y.id ∈ x.after)
    ∧ ∀ (s : State) (x : Swi), s.w.swis = [x] → (∀ i ∈ x.after, s.unperformed x.t.core x.t.bctx i = false) →
      (s.releaseScope x.t.core x.ctx .sys).1 = true →
      let q := x.target.toNat % 64
      (x.target.getLsbD 6 = false → s.regF (queueReg q 0) 19 8 = x.ctx → s.regF (queueReg q 0) 0 0 = 1 →
        ∃ t, exec (.swiDelivery x.id) s = .next t ∧ t.w.swis = []
          ∧ t.regF (queueReg q 0x20) 31 0 = s.regF (queueReg q 0x20) 31 0 ||| x.value.toNat)
      ∧ (x.target.getLsbD 6 = true → s.w.wakeFifo.length < 256 →
        ∃ t e, exec (.swiDelivery x.id) s = .next t ∧ t.w.swis = [] ∧ t.w.wakeFifo = s.w.wakeFifo ++ [e] ∧ e.ctx = x.ctx ∧ e.value = x.value)
      ∧ ((x.target.getLsbD 6 = true ∧ 256 ≤ s.w.wakeFifo.length) ∨ (x.target.getLsbD 6 = false ∧ s.regF (queueReg q 0) 0 0 = 0) →
        ∃ t, exec (.swiDelivery x.id) s = .next t ∧ t.w.swis = [] ∧ t.w.wakeFifo = s.w.wakeFifo
          ∧ s.recorded t x.ctx))
  ∧ (
    (∀ (s : State) (x : Launch), s.launch? x.id = some x → x.offered = false → (∀ d ∈ x.d.deps, d.2 ≤ (s.counter x.ctx d.1).toNat) →
      exec (.launchDependencesMet x.id) s = .next (s.setLaunch { x with offered := true }))
    ∧ (∀ (s : State) (x : Launch) (d : Nat × Nat), s.launch? x.id = some x → d ∈ x.d.deps → (s.counter x.ctx d.1).toNat < d.2 →
      exec (.launchDependencesMet x.id) s = .next s)
    ∧ (∀ (s : State) (x : Launch) (y : Level), s.launch? x.id = some x → x.retired = x.total → x.children = 0 →
      x.parentLevel = some y.id → s.level? y.id = some y →
      ∃ t, exec (.launchCompletion x.id) s = .next t ∧ t.launch? x.id = none ∧ t.counter y.ctx y.counter = s.counter y.ctx y.counter + 1
        ∧ (t.level? y.id).map (fun z => z.members) = some (y.members - 1) ∧ t.m = s.m ∧ t.lots = s.lots)
    ∧ (∀ (s : State) (x : Launch), s.launch? x.id = some x → x.retired ≠ x.total ∨ x.children ≠ 0 →
      exec (.launchCompletion x.id) s = .next s)
    ∧ (∀ (s : State) (x y : Level), s.level? x.id = some x → x.closed = true → x.members = 0 → x.parent = some y.id → y.id ≠ x.id →
      s.level? y.id = some y →
      ∃ t, exec (.levelCompletion x.id) s = .next t ∧ t.level? x.id = none ∧ t.counter y.ctx y.counter = s.counter y.ctx y.counter + 1
        ∧ (t.level? y.id).map (fun z => z.members) = some (y.members - 1) ∧ t.m = s.m ∧ t.lots = s.lots)
    ∧ ∀ (s : State) (e : WakeEntry) (rest : List WakeEntry), s.w.wakeFifo = e :: rest → s.regF pwrctlReg 32 32 = 0 →
      ∃ t, exec .wakeFifoServe s = .next t ∧ t.w.wakeFifo = rest ∧ s.recorded t e.ctx)

/-! ### Booths and alias commands -/

/-- A micro-op of a running booth, column by column: BKEY and BMASK load the row, zeros, ones or TAG; BCMP compares under
MASK; BTAGAND, BTAGOR and BTAGNOT combine TAG; BWRT writes the columns under MASK and TAG; BCNT adds the tagged columns to
an accumulator; PC and the segment count rise by one (R268, R271). Nothing waits for the bank here. -/
def Obligations.BoothMicroOps : Prop :=
  ∀ (s : State) (o : MicroOp),
    let k := s.actBank
    let b := s.booth k
    let row := b.base.toNat + o.row.toNat
    let r := s.rowBits k row
    let went (i : Instr) (ok : Booth → State → Prop) : Prop := ∃ t b', exec i s = .next t
      ∧ t.booth k = { b' with pc := b.pc + 1, segCount := b.segCount + 1 } ∧ ok b' t
    let quiet (b' : Booth) (t : State) : Prop := t = s.setBooth k { b' with pc := b.pc + 1, segCount := b.segCount + 1 }
    let load (x : BitVec 8192) (c : Nat) : Prop := c < 8192 → x.getLsbD c =
      (if o.f = 0 then r.getLsbD c else if o.f = 1 then false else if o.f = 2 then true else b.tag.getLsbD c)
    b.st = .running → b.refreshing = false → b.segCount < 64 → b.pc.toNat < 1023 → b.waiting = [] → s.channelBusy k = false →
    went (.btagnot o) (fun b' t => quiet b' t ∧ b' = { b with tag := b'.tag } ∧ ∀ c, c < 8192 → b'.tag.getLsbD c = !b.tag.getLsbD c)
    ∧ went (.bcnt o) (fun b' t => quiet b' t ∧ b' = { b with ba := b'.ba }
        ∧ let n := ((List.range 8192).filter (fun c => b.tag.getLsbD c && b.mask.getLsbD c)).length * 2 ^ o.sh.toNat
          ∀ j, Tbl.get 0 b'.ba j = if j = o.f.toNat then
            (if o.g then Tbl.get 0 b.ba j - BitVec.ofNat 64 n else Tbl.get 0 b.ba j + BitVec.ofNat 64 n) else Tbl.get 0 b.ba j)
    ∧ (row < 262144 → s.bankRetired k = false → s.rowPoisoned (rowLoc k row) = false →
      went (.bkey o) (fun b' t => quiet b' t ∧ b' = { b with key := b'.key } ∧ ∀ c, load b'.key c)
      ∧ went (.bmask o) (fun b' t => quiet b' t ∧ b' = { b with mask := b'.mask } ∧ ∀ c, load b'.mask c)
      ∧ went (.bcmp o) (fun b' t => quiet b' t ∧ b' = { b with tag := b'.tag } ∧ ∀ c, c < 8192 →
          b'.tag.getLsbD c = (((r.getLsbD c == b.key.getLsbD c || !b.mask.getLsbD c) != o.h) && (o.g || b.tag.getLsbD c)))
      ∧ went (.btagand o) (fun b' t => quiet b' t ∧ b' = { b with tag := b'.tag } ∧ ∀ c, c < 8192 →
          b'.tag.getLsbD c = (b.tag.getLsbD c && (r.getLsbD c != o.h)))
      ∧ went (.btagor o) (fun b' t => quiet b' t ∧ b' = { b with tag := b'.tag } ∧ ∀ c, c < 8192 →
          b'.tag.getLsbD c = (b.tag.getLsbD c || (r.getLsbD c != o.h)))
      ∧ went (.bwrt o) (fun b' t => b' = b ∧ ∀ c, c < 8192 → (t.rowBits k row).getLsbD c =
          if b.mask.getLsbD c && (b.tag.getLsbD c || o.g) then
            (if o.f = 0 then b.key.getLsbD c else if o.f = 1 then !b.key.getLsbD c else if o.f = 2 then b.tag.getLsbD c
              else !b.tag.getLsbD c)
          else r.getLsbD c))

/-- BEND ends the run DONE with PC on the BEND; BSEG is a segment boundary, at which a refresh that is due begins; a row
beyond the bank stops the run with ERR 0x02, uncorrectable data with 0x30 and a record, and the micro-op at PC 1,023 with
0x03; RUNS counts each end (R271 to R274). A row op in a channel that has been retired stops it with 0x31 and a record, as the
model chooses (log entry 118). After 64 micro-ops the segment ends and a due refresh begins; a suspended booth
resumes when the window has served what waits; a refresh that falls due begins at once in a bank whose booth does not run,
and ends with its completion (R274, R275). -/
def Obligations.BoothRuns : Prop :=
  (
    ∀ (s : State) (o : MicroOp),
      let k := s.actBank
      let b := s.booth k
      let row := b.base.toNat + o.row.toNat
      let ended (t : State) (st : BoothState) (err : Nat) : Prop := (t.booth k).st = st ∧ (t.booth k).err = BitVec.ofNat 8 err
        ∧ (t.booth k).runs = b.runs + 1 ∧ (t.booth k).pc = b.pc ∧ (t.booth k).segCount = 0
      b.st = .running → b.refreshing = false → b.segCount < 64 →
      (∃ t, exec (.bend o) s = .next t ∧ ended t .doneS 0 ∧ t.m = s.m)
      ∧ (b.pc.toNat < 1023 → b.waiting = [] → s.channelBusy k = false →
        exec (.bseg o) s = .next (s.setBooth k { b with pc := b.pc + 1, segCount := 0, refreshing := b.refreshDue }))
      ∧ (b.pc.toNat = 1023 → ∃ t, exec (.btagnot o) s = .next t ∧ ended t .error 3)
      ∧ (262144 ≤ row → ∀ i ∈ [Instr.bcmp o, .bwrt o, .btagand o, .btagor o], ∃ t, exec i s = .next t ∧ ended t .error 2 ∧ t.m = s.m)
      ∧ (row < 262144 → s.bankRetired k = false → s.rowPoisoned (rowLoc k row) = true →
        ∀ i ∈ [Instr.bcmp o, .bwrt o, .btagand o, .btagor o],
        ∃ t, exec i s = .next t ∧ ended t .error 0x30 ∧ s.recorded t b.owner.toNat)
      ∧ (row < 262144 → s.bankRetired k = true → ∀ i ∈ [Instr.bcmp o, .bwrt o, .btagand o, .btagor o],
        ∃ t, exec i s = .next t ∧ ended t .error 0x31 ∧ s.recorded t b.owner.toNat))
  ∧ (
    ∀ (s : State) (k : Nat),
      let b := s.booth k
      (64 ≤ b.segCount → exec (.segmentCountExpiry k) s =
        .next (s.setBooth k { b with segCount := 0, refreshing := b.refreshing || b.refreshDue }))
      ∧ (b.st = .suspended → b.refreshing = false → s.channelBusy k = false → b.waiting = [] →
        exec (.boothResume k) s = .next (s.setBooth k { b with st := .running, waiting := [], served := 0 }))
      ∧ (b.st = .running → exec (.refreshDue k) s = .next (s.setBooth k { b with refreshDue := true }))
      ∧ (b.st ≠ .running → exec (.refreshDue k) s = .next (s.setBooth k { b with refreshDue := true, refreshing := true }))
      ∧ (b.refreshing = true → exec (.refreshComplete k) s = .next (s.setBooth k { b with refreshDue := false, refreshing := false })))

/-- The command at the head of a bank's queue, taken while no run is in progress: BRUN starts a run at its micro-op with the
booth's registers zero; BPARM writes program words; RFILL repeats its 4 bytes over the segment; RCOPY copies a segment of
the stack (R257, R268, R269). A status load at its stack answers the booth's state, ERR, PC, queue length, OWNER and RUNS,
or an accumulator, and the answer comes back over the die plane where the load went over it (R27, R257, R273). -/
def Obligations.AliasCommands : Prop :=
  (
    ∀ (s : State) (k : Nat) (c : BankCmd) (rest : List BankCmd),
      let b := s.booth k
      b.queue = c :: rest → b.st = .idle ∨ b.st = .doneS ∨ b.st = .error → b.refreshing = false → s.channelBusy k = false →
      s.stackHeld (k / 256) = false → s.channelRetired (k / 256) (k / 16 % 16) = false →
      (c.op = 1 → ∃ t, exec (.brun k) s = .next t ∧ (t.booth k).st = .running ∧ (t.booth k).pc = BitVec.ofNat 10 c.data
        ∧ (t.booth k).base = BitVec.ofNat 18 (rowOf (stackOffset c.loc)) ∧ (t.booth k).key = 0 ∧ (t.booth k).mask = 0
        ∧ (t.booth k).tag = 0 ∧ (t.booth k).ba = [] ∧ (t.booth k).err = 0 ∧ (t.booth k).owner = BitVec.ofNat 12 c.ctx
        ∧ (t.booth k).queue = rest ∧ (t.booth k).runs = b.runs ∧ t.m = s.m)
      ∧ (c.op = 2 → c.size = 4 → c.ctx < 4096 → ∃ t, exec (.bparm k) s = .next t ∧ (t.booth k).queue = rest
        ∧ (t.booth k).owner = BitVec.ofNat 12 c.ctx
        ∧ (∀ j, Tbl.get 0 (t.booth k).prog j = if j = (c.loc / 4 % 256 + 256 * c.qtr) % 1024 then BitVec.ofNat 32 c.data
            else if b.owner.toNat = c.ctx then Tbl.get 0 b.prog j else 0)
        ∧ t.m = s.m)
      ∧ (c.op = 4 → ∃ t, exec (.rfill k) s = .next t ∧ (t.booth k).queue = rest ∧ ∀ pa, t.memByte pa =
          if c.loc / 1024 * 1024 ≤ pa ∧ pa < c.loc / 1024 * 1024 + 1024 then BitVec.ofNat 8 (c.data / 2 ^ (8 * (pa % 4))) else s.memByte pa)
      ∧ (let src := bankOf (k / 256) (bits c.data 25 0 * 1024)
        c.op = 5 → s.channelBusy src = false → s.bankRetired src = false → ∃ t, exec (.rcopy k) s = .next t ∧ (t.booth k).queue = rest ∧ ∀ pa, t.memByte pa =
          if c.loc / 1024 * 1024 ≤ pa ∧ pa < c.loc / 1024 * 1024 + 1024 then
            s.memByte (locationOf (k / 256) (c.data % 2 ^ 26 * 1024) + pa % 1024) else s.memByte pa))
  ∧ (
    ∀ (s : State) (a : Acc), s.acc? a.id = some a → a.kind = .ld → a.sp ≠ .l → 8 ≤ region a.pa → a.phase = .ready →
      s.free? a = true → s.arrived a = true → s.pathDown a = false → a.back = none →
      s.crossTo a = none ∨ s.homeRetired (dieOf a.t.core) = false → aliasBad a.pa true a.size 0 = false →
      s.frameClass (bits a.pa 40 0) = .aliased →
      let k := bankOfPa a.pa
      s.channelBusy k = false → s.channelRetired (k / 256) (k / 16 % 16) = false →
      let b := s.booth k
      let code : Nat := match b.st with | .idle => 0 | .running => 1 | .suspended => 2 | .doneS => 3 | .error => 4
      let v : Nat := match a.pa % 1024 with
        | 0x00 => code + (if b.st = .error then b.err.toNat else 0) * 2 ^ 8 + b.pc.toNat * 2 ^ 16 + b.queue.length * 2 ^ 26
            + b.owner.toNat * 2 ^ 32 + b.runs.toNat * 2 ^ 44
        | 0x08 => (Tbl.get 0 b.ba 0).toNat | 0x10 => (Tbl.get 0 b.ba 1).toNat
        | 0x18 => (Tbl.get 0 b.ba 2).toNat | 0x20 => (Tbl.get 0 b.ba 3).toNat | _ => 0
      exec (.bstat a.id) s = .next (s.setAcc { a with phase := .replied v, back := s.crossTo a }))

/-! ### Command processors, device registers, translation control -/

/-- A packet of the ring that completes moves HEAD behind itself. NOP does nothing more; LAUNCH and LAUNCHIND accept the
launch of their descriptor, LAUNCHIND with the grid that it reads; CANCEL cancels the last launch of the queue; WAKE sets
wake bits of an enabled queue of the context; WAITWAKE takes bits of its mask, or blocks the queue (R53 to R56, R63). -/
def Obligations.Packets : Prop :=
  ∀ (s t0 : State) (q : Nat) (p : Pkt), s.atPacket q p t0 [] →
    let done (i : Instr) (t : State) : Prop := exec i s = .next ((t.headPast q p.bytes).cpServed q)
    let accepted (i : Instr) (t1 : State) (d : Desc) : Prop := ∃ t y, exec i s = .next t ∧ y ∈ t.w.launches ∧ y.d = d ∧ y.queue = q
      ∧ y.ctx = t1.regF (queueReg q 0) 19 8 ∧ y.prio = t1.regF (queueReg q 0) 2 1 ∧ y.parentLevel = (t1.queue q).level ∧ y.offered = false
      ∧ y.total = d.gx * d.gy * d.gz ∧ (t.queue q).lastLaunch = some y.id
      ∧ t.reg (queueReg q 0x10) = BitVec.ofNat 64 ((t1.qHead q + p.bytes) % t1.ringSize q)
    (p.op = 0 → done (.packetNop q) t0)
    ∧ (∀ va d t1, p.op = 1 → p.va 0 = some va → t0.readDesc (.cp (q / 16)) (t0.qCtx q) (BitVec.ofNat 80 va) none = (.ok d, t1) → (t1.queue q).frames = [] →
      0 < d.gx * d.gy * d.gz → accepted (.packetLaunch q) t1 d)
    ∧ (∀ va gv x y z r d t1 t2, p.op = 2 → p.va 0 = some va → p.va 3 = some gv → gv % 4 = 0 →
      t0.gridWords (.cp (q / 16)) (t0.qCtx q) gv = (some [x, y, z], r, t1) → x * y * z ≤ 2 ^ 31 →
      t1.readDesc (.cp (q / 16)) (t1.qCtx q) (BitVec.ofNat 80 va) (some (x, y, z)) = (.ok d, t2) → (t2.queue q).frames = [] →
      0 < d.gx * d.gy * d.gz → accepted (.packetLaunchind q) t2 d)
    ∧ (p.op = 0x0A → p.w 0 = 0 → p.flags = 0 → ∀ id, (t0.queue q).lastLaunch = some id → done (.packetCancel q) (t0.cancelLaunches [id]))
    ∧ (p.op = 0x0B → p.flags = 0 → p.w 0 < 64 → t0.regF (queueReg (p.w 0) 0) 19 8 = t0.regF (queueReg q 0) 19 8 →
      t0.regF (queueReg (p.w 0) 0) 0 0 = 1 →
      done (.packetWake q) (t0.setRegF (queueReg (p.w 0) 0x20) 31 0 (t0.regF (queueReg (p.w 0) 0x20) 31 0 ||| p.w 1 % 2 ^ 32)))
    ∧ (p.op = 0x0C →
      let now := t0.regF (queueReg q 0x20) 31 0
      (now &&& p.w 0 ≠ 0 → done (.packetWaitwake q) ((t0.setRegF (queueReg q 0x20) 31 0 (andNot now (p.w 0))).setBlocked q .no))
      ∧ (now &&& p.w 0 = 0 → exec (.packetWaitwake q) s = .next ((t0.setBlocked q .wake).cpServed q)))

/-- WAIT and IF compare a counter of the context, or a word of memory, with their value by COND: WAIT goes on or blocks its
queue, and a blocked one goes on at a later reading that satisfies it; IF skips its bytes where the condition is false.
SIGNAL sets a counter or adds to it and may send an interrupt; a SIGNAL to memory goes on behind its write (R54, R55). LOOP
opens a loop of Count passes behind itself, and skips its body with Count 0; ENDLOOP goes back to the body, or leaves the
loop behind the last pass; CALLBUF enters its buffer with HEAD on itself; MARK opens a graph with its counter, inside the
innermost open level, or closes it; an unknown OP stops the queue with ERR 1, HEAD on the packet and a record (R55, R57 to
R59). That a body skipped with Count 0 is checked for its length only is the model's choice (log entry 100), the order of a
packet's checks its reading (log entry 67), and so is the rotation among queues of equal priority (log entry 87). -/
def Obligations.PacketControl : Prop :=
  (
    (∀ (s t0 : State) (q : Nat) (p : Pkt), s.atPacket q p t0 [] →
      let done (i : Instr) (t : State) (n : Nat) : Prop := exec i s = .next ((t.headPast q n).cpServed q)
      let c := p.w 0
      let v := p.w 1 + p.w 2 * 2 ^ 32
      let holds (x : Nat) : Bool := if bits c 17 16 = 0 then decide (v ≤ x) else if bits c 17 16 = 1 then x == v else x != v
      let counter := holds (t0.counter (t0.qCtx q) (bits c 9 0)).toNat
      (p.op = 3 → p.flags = 0 → bits c 15 10 = 0 → bits c 31 18 = 0 → bits c 17 16 ≠ 3 →
        (counter = true → done (.packetWait q) (t0.setBlocked q .no) p.bytes)
        ∧ (counter = false → exec (.packetWait q) s = .next ((t0.setBlocked q .wait).cpServed q)))
      ∧ (p.op = 7 → p.flags = 0 → bits c 15 10 = 0 → bits c 31 18 = 0 → bits c 17 16 ≠ 3 →
        (counter = true → done (.packetIf q) t0 p.bytes)
        ∧ (counter = false → p.w 3 % 4 = 0 → done (.packetIf q) t0 (p.bytes + p.w 3)))
      ∧ (p.op = 4 → p.flags = 0 ∨ p.flags = 2 → bits c 15 10 = 0 → bits c 23 17 = 0 →
        let t1 := t0.setCounter (t0.qCtx q) (bits c 9 0)
          (if bit c 16 then t0.counter (t0.qCtx q) (bits c 9 0) + BitVec.ofNat 64 v else BitVec.ofNat 64 v)
        done (.packetSignal q) (if p.flags = 2 then t1.send (.msix (bits c 31 24)) else t1) p.bytes)
      ∧ ∀ va w t1, p.op = 4 → p.flags = 1 → bits c 15 10 = 0 → bits c 23 17 = 0 → p.va 3 = some va →
        t0.signalMem q va v (bit c 16) = (.ok w, t1) → (t1.queue q).frames = [] → done (.packetSignal q) t1 p.bytes)
    ∧ ∀ (s t0 t1 : State) (q va x : Nat) (p : Pkt), q < 64 → (s.queue q).blocked = .wait → s.readPkt q = (.ok p, t0) → p.op = 3 → p.flags = 1 →
      let c := p.w 0
      let v := p.w 1 + p.w 2 * 2 ^ 32
      bits c 15 10 = 0 → bits c 31 18 = 0 → bits c 17 16 = 0 → p.va 3 = some va → va % 8 = 0 →
      t0.cpRead (.cp (q / 16)) (t0.qCtx q) va 8 = (.ok x, t1) → (t1.queue q).frames = [] →
      (v ≤ x → exec (.waitWordReread q) s = .next (((t1.setBlocked q .no).headPast q p.bytes).endTransfers (.cp (q / 16))))
      ∧ (x < v → exec (.waitWordReread q) s = .next (t1.setBlocked q .wait)))
  ∧ (
    (∀ (s t0 : State) (q : Nat) (p : Pkt), s.atPacket q p t0 [] →
      (p.op = 5 → p.w 1 ≠ 0 → p.w 1 % 4 = 0 → p.w 1 < t0.ringSize q →
        (p.w 0 ≠ 0 → exec (.packetLoop q) s = .next (((t0.headPast q p.bytes).pushFrame q
          (.loop (t0.qHead q + p.bytes) (t0.qHead q + p.bytes + p.w 1) (p.w 0))).cpServed q))
        ∧ (p.w 0 = 0 → exec (.packetLoop q) s = .next ((t0.headPast q (p.bytes + p.w 1)).cpServed q)))
      ∧ (∀ va, p.op = 8 → p.va 0 = some va →
        (p.w 3 = 0 → exec (.packetCallbuf q) s = .next ((t0.headPast q p.bytes).cpServed q))
        ∧ (p.w 3 ≠ 0 → exec (.packetCallbuf q) s = .next ((t0.pushFrame q (.buf (BitVec.ofNat 80 va) (p.w 3) 0)).cpServed q)))
      ∧ (p.op = 9 → p.flags = 1 → p.w 0 < 1024 → (t0.queue q).graph = none →
        ∃ t y, exec (.packetMark q) s = .next t ∧ y ∈ t.w.levels ∧ y.kind = .graph ∧ y.counter = p.w 0 ∧ y.closed = false ∧ y.members = 0
          ∧ y.parent = (t0.queue q).level ∧ y.ctx = t0.qCtx q ∧ (t.queue q).graph = some y.id ∧ (t.queue q).lastGraph = some y.id
          ∧ t.reg (queueReg q 0x10) = BitVec.ofNat 64 ((t0.qHead q + p.bytes) % t0.ringSize q))
      ∧ ∀ id y, p.op = 9 → p.flags = 5 → p.w 0 < 1024 → (t0.queue q).graph = some id → t0.level? id = some y → y.members ≠ 0 →
        ∃ t, exec (.packetMark q) s = .next t ∧ t.level? id = some { y with closed := true } ∧ (t.queue q).graph = none
          ∧ t.reg (queueReg q 0x10) = BitVec.ofNat 64 ((t0.qHead q + p.bytes) % t0.ringSize q))
    ∧ (∀ (s t0 : State) (q start stop n : Nat) (p : Pkt), s.atPacket q p t0 [.loop start stop n] → p.op = 6 →
      (n ≤ 1 → exec (.packetEndloop q) s = .next (((t0.setQueue q { t0.queue q with frames := [] }).headPast q p.bytes).cpServed q))
      ∧ (1 < n → exec (.packetEndloop q) s = .next (((t0.setReg (queueReg q 0x10) (BitVec.ofNat 64 (start % t0.ringSize q))).setQueue q
          { t0.queue q with frames := [.loop start stop (n - 1)] }).cpServed q)))
    ∧ ∀ (s t0 : State) (q h : Nat), q < 64 → s.cpPick (q / 16) = some q → (s.queue q).frames = [] → s.qWord q (s.qPos q) = (.ok h, t0) →
      0x0C < bits h 31 24 →
      ∃ t, exec (.packetUnknownOp q) s = .next t ∧ t.regF (queueReg q 0x30) 15 8 = 1 ∧ t.regF (queueReg q 0x30) 2 2 = 1
        ∧ t.reg (queueReg q 0x10) = t0.reg (queueReg q 0x10) ∧ t0.recorded t (t0.qCtx q))

/-- QCTL takes its fields, CTX only while EN is 0, and EN going to 1 clears ERR and HALTED; QWSET sets wake bits; PBSETn
takes CTX and V with BUSY, and its tables are zero when BUSY falls. In every register of the tables a write by an agent that may
write it takes the bits of its RW fields that lie in the access and leaves every other bit, and has no other effect unless the
register is one of those with an effect of their own; a write by another agent is ignored; a read answers the bits of the access
and clears the RC fields that lie in it whole. FRQHEAD drops its low six bits, QTAIL and, while EN is 0, QHEAD their low two. An
access to an undefined offset, or to a debug register from within the module, gets an error response; RETRY written in MINIMAL clears ATTEMPT and begins the start at step 1; the Market Master writes words of the
retirement map (R6 to R8, R52, R151, R262, R323, R333, R486). -/
def Obligations.DeviceRegisters : Prop :=
  ∀ (s : State),
    (∀ (q : Nat) (v : Word64), q < 64 → ∃ t, exec (.qctlWrite q v) s = .next t ∧ t = { s with dev := t.dev }
      ∧ t.regF (queueReg q 0) 0 0 = bits v.toNat 0 0 ∧ t.regF (queueReg q 0) 2 1 = bits v.toNat 2 1
      ∧ t.regF (queueReg q 0) 23 20 = bits v.toNat 23 20
      ∧ t.regF (queueReg q 0) 19 8 = (if s.regF (queueReg q 0) 0 0 = 1 then s.regF (queueReg q 0) 19 8 else bits v.toNat 19 8)
      ∧ (s.regF (queueReg q 0) 0 0 = 0 → bit v.toNat 0 = true →
        t.regF (queueReg q 0x30) 15 8 = 0 ∧ t.regF (queueReg q 0x30) 2 2 = 0)
      ∧ ∀ pa, pa ≠ queueReg q 0 → pa ≠ queueReg q 0x30 → t.reg pa = s.reg pa)
    ∧ (∀ (q : Nat) (v : Word64), q < 64 → ∃ t, exec (.qwsetWrite q v) s = .next t ∧ t = { s with dev := t.dev }
      ∧ t.regF (queueReg q 0x20) 31 0 = s.regF (queueReg q 0x20) 31 0 ||| v.toNat % 2 ^ 32
      ∧ ∀ pa, pa ≠ queueReg q 0x20 → t.reg pa = s.reg pa)
    ∧ (∀ (n : Nat) (v : Word64), n < 8 →
      (s.regF (pbsetReg n) 13 13 = 0 → ∃ t, exec (.pbsetWrite n v) s = .next t ∧ t.regF (pbsetReg n) 12 0 = bits v.toNat 12 0
        ∧ t.regF (pbsetReg n) 13 13 = 1 ∧ Tbl.get false t.e.pbBusy n = true ∧ t.e.boards = s.e.boards)
      ∧ (s.regF (pbsetReg n) 13 13 = 1 → exec (.pbsetWrite n v) s = .next s)
      ∧ (Tbl.get false s.e.pbBusy n = true → ∃ t, exec (.pbsetApplied n) s = .next t ∧ t.regF (pbsetReg n) 13 13 = 0
        ∧ (∀ k st, k < 64 → st < 32 → t.board n k st = PbTable.none)
        ∧ ∀ m k st, m ≠ n → k < 64 → st < 32 → t.board m k st = s.board m k st))
    ∧ (∀ (g : RegAgent) (pa : Nat) (part : RegPart) (v : Word64) (d : RegDef), regDef pa = some d → regReaches g pa = true →
      let covered (fs : List (Nat × Nat)) (i : Nat) : Bool := fs.any (fun f => f.2 ≤ i && i ≤ f.1)
      (regWritable g pa = false → exec (.registerWrite g pa part v) s = .next s)
      ∧ (regWritable g pa = true → regPlain pa = true → ∃ w : Word64, exec (.registerWrite g pa part v) s = .next (s.setReg pa w)
        ∧ ∀ i, i < 64 → w.getLsbD i = if covered d.rw i && partLo part ≤ i && i ≤ partHi part
          then (partPlace part v.toNat).testBit i else (s.reg pa).getLsbD i)
      ∧ ∃ t, exec (.registerReadClear g pa part) s = .next t ∧ t.accs = s.accs ∧ t.m = s.m
        ∧ t.p.out = s.p.out ++ [.regValue pa (BitVec.ofNat 64 (bits (s.regValue pa).toNat (partHi part) (partLo part)))]
        ∧ (∀ pa', pa' ≠ pa → t.reg pa' = s.reg pa')
        ∧ ∀ i, i < 64 → (t.reg pa).getLsbD i =
          if covered (d.rc.filter (fun f => partCovers part f)) i then false else (s.reg pa).getLsbD i)
    ∧ (∀ (g : RegAgent) (c q : Nat) (v : Word64), c < 4096 → q < 64 →
      (∃ t, exec (.registerWrite g (ctxReg c 0x08) .whole v) s = .next t ∧ t = { s with dev := t.dev }
        ∧ t.regF (ctxReg c 0x08) 31 0 = bits v.toNat 31 6 * 64)
      ∧ (∃ t, exec (.registerWrite g (queueReg q 0x18) .whole v) s = .next t ∧ t = { s with dev := t.dev }
        ∧ t.regF (queueReg q 0x18) 31 0 = bits v.toNat 31 2 * 4)
      ∧ (s.regF (queueReg q 0) 0 0 = 1 → exec (.registerWrite g (queueReg q 0x10) .whole v) s = .next s)
      ∧ (s.regF (queueReg q 0) 0 0 = 0 → ∃ t, exec (.registerWrite g (queueReg q 0x10) .whole v) s = .next t
        ∧ t.regF (queueReg q 0x10) 31 0 = bits v.toNat 31 2 * 4 ∧ (t.queue q).frames = [] ∧ (t.queue q).blocked = .no))
    ∧ ∀ (g : RegAgent) (c : Nat) (v : Word64), c < 4096 →
      (∀ part, ∃ t, exec (.registerWrite g (ctxReg c 0x28) part v) s = .next t ∧ t = { s with dev := t.dev }
        ∧ (∀ pa, pa ≠ ctxReg c 0x28 → t.reg pa = s.reg pa)
        ∧ t.regF (ctxReg c 0x28) 31 0 = (if part = .upper then s.regF (ctxReg c 0x28) 31 0 else bits v.toNat 31 0)
        ∧ t.regF (ctxReg c 0x28) 63 32 = (match part with
          | .whole => bits v.toNat 63 32
          | .lower => s.regF (ctxReg c 0x28) 63 32
          | .upper => bits v.toNat 31 0))
      ∧ (∃ t, exec (.registerWrite g (ctxReg c 0x10) .whole v) s = .next t ∧ t = { s with dev := t.dev } ∧ ∀ pa, t.reg pa = s.reg pa)
      ∧ (∃ t, exec (.registerReadClear g (ctxReg c 0x18) .whole) s = .next t
        ∧ t.p = { s.p with out := s.p.out ++ [.regValue (ctxReg c 0x18) (s.reg (ctxReg c 0x18))] }
        ∧ t.regF (ctxReg c 0x18) 15 0 = 0 ∧ t.regF (ctxReg c 0x18) 63 16 = s.regF (ctxReg c 0x18) 63 16
        ∧ ∀ pa, pa ≠ ctxReg c 0x18 → t.reg pa = s.reg pa)
      ∧ exec (.registerReadClear g (ctxReg c 0x18) .upper) s =
        .next (s.send (.regValue (ctxReg c 0x18) (BitVec.ofNat 64 (s.regF (ctxReg c 0x18) 63 32))))
      ∧ (∀ pa part, regReaches g pa = false → exec (.registerWrite g pa part v) s = .next (s.send (.regError pa))
        ∧ exec (.registerReadClear g pa part) s = .next (s.send (.regError pa)))
      ∧ (∀ part, g = .host ∨ g = .marketMaster → s.phase = 8 → part ≠ .upper → v.getLsbD 0 = true →
        ∃ t, exec (.registerWrite g startctlReg part v) s = .next t ∧ t = { s with dev := t.dev } ∧ t.phase = 1
          ∧ t.regF startstatReg 5 4 = 0 ∧ ∀ pa, pa ≠ startstatReg → t.reg pa = s.reg pa)
      ∧ ∀ i, i < 82 → g = .marketMaster → ∃ t, exec (.registerWrite g (retmapReg (8 * i)) .whole v) s = .next t ∧ t.retWord i = v
        ∧ (∀ j, j ≠ i → t.retWord j = s.retWord j) ∧ t.accs = s.accs ∧ t.m = s.m

/-- TLBINV, CTXFLUSH and FCSET start what they name with BUSY, and set ERR while one is in progress; an invalidation ends
when no covered access is outstanding and the stores of its contexts are home, with no covered entry in any TLB or walk cache;
a flush visits every line of the context once, in the state it then finds: each is clean after its visit, and with INV dropped, or
waits for its bank and is visited again, and the flush ends when none waits; a class change ends with the last stack (R156,
R157, R166, R174, R175). The page of an invalidation is TLBVA as it was at the write of TLBINV, and lines and entries stand
until the events of completion: these are the model's readings (log entries 82 and 70), and so is that write-backs wait for their
banks from one event to the next (log entry 109). -/
def Obligations.TranslationControl : Prop :=
  ∀ (s : State) (ctx : BitVec 12) (frame : BitVec 25) (pattern : Word),
    let inv (i : Instr) (x : TlbInv) : Prop :=
      (s.m.tlbinv = none → exec i s = .next ({ s with m := { s.m with tlbinv := some x } }.setRegF (xlatReg 0x18) 0 0 1))
      ∧ (s.m.tlbinv ≠ none → exec i s = .next (s.setRegF (xlatReg 0x18) 1 1 1))
    let flush (i : Instr) (b : Bool) : Prop :=
      (s.m.ctxflush = none → exec i s = .next ({ s with m := { s.m with ctxflush := some ⟨ctx.toNat, b, 0, none⟩ } }.setRegF (xlatReg 0x28) 0 0 1))
      ∧ (s.m.ctxflush ≠ none → exec i s = .next (s.setRegF (xlatReg 0x28) 1 1 1))
    let cls (i : Instr) (c : FrameClass) : Prop :=
      (s.m.fcset = none → c.isElided = false ∨ s.elidedCount < 16384 →
        exec i s = .next ({ s with m := { s.m with fcset := some (frame.toNat, c, List.range 32) } }.setRegF (xlatReg 0x38) 0 0 1))
      ∧ (s.m.fcset ≠ none → exec i s = .next (s.setRegF (xlatReg 0x38) 1 1 1))
    inv (.tlbinvPage ctx) (.page ctx.toNat (s.reg (xlatReg 0x10)).toNat) ∧ inv (.tlbinvContext ctx) (.context ctx.toNat) ∧ inv .tlbinvAll .all
    ∧ flush (.ctxflush ctx) false ∧ flush (.ctxflushInv ctx) true
    ∧ cls (.fcsetPlain frame) .plain ∧ cls (.fcsetAlias frame) .aliased ∧ cls (.fcsetElided frame pattern) (.elided pattern)
    ∧ (∀ i, s.m.tlbinv = some i →
      ((∃ a ∈ s.accs, a.under i = true) → exec .tlbinvComplete s = .next s)
      ∧ ((∀ a ∈ s.accs, a.under i = false) →
        let mine (c : Nat) : Bool := match i with
          | .page x _ => c == x
          | .context x => c == x
          | .all => true
        let s1 := (List.range 64).foldl (fun s die => s.releaseCtxs die mine) s
        ((∀ die, die < 64 → s1.releaseLeft die mine = false) →
          ∃ t, exec .tlbinvComplete s = .next t ∧ t.m.tlbinv = none ∧ t.regF (xlatReg 0x18) 0 0 = 0 ∧ t.accs = s.accs
            ∧ (∀ c, (t.core c).tlb = (s.core c).tlb.filter (fun e => !e.covered i))
            ∧ ∀ die, ∀ e ∈ Tbl.get [] t.m.walkCache die, e.covered i = false)
        ∧ ((∃ die, die < 64 ∧ s1.releaseLeft die mine = true) →
          ∃ t, exec .tlbinvComplete s = .next t ∧ t.m.tlbinv = some i ∧ t.accs = s.accs ∧ t.cores = s.cores)))
    ∧ (∀ f, s.m.ctxflush = some f →
      let visited := f.left.getD (s.ctxLines f.ctx)
      (∀ die line d, die < 64 → line < 2 ^ 45 → s.dieLine? die line = some d → d.ctx = f.ctx → (die, line) ∈ s.ctxLines f.ctx)
      ∧ ∃ t, exec .ctxflushComplete s = .next t
        ∧ ((t.m.ctxflush = none ∧ t.regF (xlatReg 0x28) 0 0 = 0
            ∧ ∀ e ∈ visited, e.1 < 64 → e.2 < 2 ^ 45 → ∀ d, t.dieLine? e.1 e.2 = some d → d.ctx = f.ctx →
              f.inv = false ∧ t.lineDirty e.1 e.2 = false)
          ∨ ∃ n left, f.count ≤ n ∧ left ≠ [] ∧ t.m.ctxflush = some { f with count := n, left := some left }
              ∧ ∀ e ∈ left, e ∈ visited))
    ∧ ∀ f c left stack, s.m.fcset = some (f, c, left) →
      (left.filter (fun x => x != stack) = [] → ∃ t, exec (.fcsetStackApply stack) s = .next t ∧ t.m.fcset = none
        ∧ t.regF (xlatReg 0x38) 0 0 = 0 ∧ Tbl.get .plain t.m.frames f = c
        ∧ ∀ g, g ≠ f → Tbl.get .plain t.m.frames g = Tbl.get .plain s.m.frames g)
      ∧ (left.filter (fun x => x != stack) ≠ [] → exec (.fcsetStackApply stack) s =
        .next { s with m := { s.m with fcset := some (f, c, left.filter (fun x => x != stack)) } })

/-! ### Accesses at work -/

/-- The events of an access that is alone on its core: PAGE_WALK checks alignment and share of a scratchpad access and stops
its thread with a REPLAY fault where they fail; a reply writes the destination, but for registers released since, and lowers
LD; a store performed in the scratchpad writes its bytes and lowers ST; HOME_ACCESS brings a line to the die, performs a
store of an ordered flow at its home, or answers a refused load with its fault; a 16-byte store is performed as two halves of
8 bytes, in one visit to the bank where booths may run on the row, as the model reads R277 (log entry 25); a host AtomicOp that
completes writes the host's memory, which takes its line back first, and its reply crosses back where the request crossed; a
flow credit comes back (R23, R85, R148, R150, R151, R179, R191, R194, R216, R217, R277, R284 to R286, R415). -/
def Obligations.AccessEvents : Prop :=
  ∀ (s : State) (a : Acc) (l : Lot),
    let g := laneAgent a.t
    let line := a.pa / 128
    let die := dieOf a.t.core
    s.accs = [a] → s.fences = [] → a.after = [] → a.credit = true → a.back = none → s.calm a.t.core →
    s.lot? a.t.core a.t.bctx = some l → a.t.l < 32 →
    (a.phase = .walk → a.kind = .ld ∨ a.kind = .st → a.sp = .l → (s.core a.t.core).locks = [] → (l.thr g).stop = none →
      (a.va % a.size = 0 → a.va + a.size ≤ l.d.scr * 1024 → exec (.pageWalk a.id) s = .next (s.setAcc { a with phase := .ready }))
      ∧ (a.va % a.size ≠ 0 ∨ l.d.scr * 1024 < a.va + a.size → l.phase = .running → s.haltingLot l.launch = none → (l.thr g).st = .issuing →
        let x : Stop := ⟨if a.va % a.size ≠ 0 then 0x10 else 0x11, if a.va % a.size ≠ 0 then 1 else 0, 0, a.va, true, a.hdr⟩
        ∃ t l', exec (.pageWalk a.id) s = .next t ∧ t.accs = [{ a with phase := .replay x }] ∧ t.lot? a.t.core a.t.bctx = some l'
          ∧ l'.thr g = { l.thr g with stop := some x } ∧ l'.vregs = l.vregs ∧ t.m = s.m))
    ∧ (∀ v r ty, a.phase = .replied v → a.hasResult = true → a.kind.isCell = false → a.dst = some (r, ty) → r + regsOf ty.bits ≤ 128 →
      ∃ t l', exec (.loadReply a.id) s = .next t ∧ t.accs = [] ∧ t.lot? a.t.core a.t.bctx = some l'
        ∧ (a.lim = 128 → l'.holds g (BitVec.ofNat 7 r) ty.bits ty.signed v ∧ l.others l' [g] (BitVec.ofNat 7 r) ty.bits)
        ∧ (a.lim ≤ r → g.isBarker = false → l'.vregs = l.vregs ∧ l'.sregs = l.sregs)
        ∧ (l'.warp a.t.w).ld = (l.warp a.t.w).ld - 1 ∧ t.m = s.m)
    ∧ (a.phase = .ready → a.kind = .st → a.sp = .l →
      let stores (t : State) (l' : Lot) (lo n : Nat) : Prop := t.lot? a.t.core a.t.bctx = some l' ∧ l'.vregs = l.vregs ∧ t.m = s.m
        ∧ ∀ off, Tbl.get 0 l'.scratch off = if lo ≤ off ∧ off < lo + n then BitVec.ofNat 8 (a.data / 256 ^ (off - a.va))
            else Tbl.get 0 l.scratch off
      (a.size < 16 → ∃ t l', exec (.storePerformed a.id) s = .next t ∧ stores t l' a.va a.size ∧ t.accs = []
        ∧ (l'.warp a.t.w).st = (l.warp a.t.w).st - 1)
      ∧ (a.size = 16 → a.half = 0 → ∃ t l' h, exec (.storePerformed a.id) s = .next t ∧ h < 2 ∧ stores t l' (a.va + 8 * h) 8
        ∧ t.accs = [{ a with half := h + 1 }])
      ∧ ∀ h, a.size = 16 → h < 2 → a.half = h + 1 → ∃ t l', exec (.storePerformed a.id) s = .next t ∧ stores t l' (a.va + 8 * (1 - h)) 8
        ∧ t.accs = [] ∧ (l'.warp a.t.w).st = (l.warp a.t.w).st - 1)
    ∧ (a.phase = .ready → a.sp = .g → region a.pa = 0 → s.hits a = false → s.arrived a = true → s.pathDown a = false →
      s.crossTo a = none →
      (a.kind = .ld → a.flow = 0 →
        (s.homeRefusal a.pa true = none → s.canFill a.t.core line = true → s.bankOpen a.pa (.acc a.id) = true →
          ∃ t, exec (.homeAccess a.id) s = .next t ∧ t.accs = [{ a with phase := .granted }]
            ∧ (s.dieLine? die line = none → s.earlyOf die line = [] →
              t.holds a.t.core a.ctx line = true ∧ t.inL1 a.t.core line = true ∧ t.dieNat die (line * 128) 128 = ofBytes (s.viewBytes (line * 128) 128)))
        ∧ (s.homeRefusal a.pa true = none → s.canFill a.t.core line = true → s.bankOpen a.pa (.acc a.id) = false → s.elidedAt a.pa = false →
          exec (.homeAccess a.id) s = .next (s.bankWait a.pa (.acc a.id)))
        ∧ ∀ code, s.homeRefusal a.pa true = some code → exec (.homeAccess a.id) s = .next (s.setAcc { a with phase := .failed code a.va }))
      ∧ (a.kind = .st → a.flow ≠ 0 → s.homeRefusal a.pa false = none → s.bankOpen a.pa (.acc a.id) = true → s.dieLine? die line = none →
        s.earlyOf die line = [] →
        let stores (t : State) (lo n : Nat) : Prop := ∀ x, t.memByte x =
          if lo ≤ x ∧ x < lo + n then BitVec.ofNat 8 (a.data / 256 ^ (x - a.pa)) else s.memByte x
        (a.size < 16 → ∃ t, exec (.homeAccess a.id) s = .next t ∧ t.accs = [{ a with phase := .performed }] ∧ stores t a.pa a.size)
        ∧ (a.size = 16 → a.half = 0 → s.oneVisit a = false → ∃ t h, exec (.homeAccess a.id) s = .next t ∧ h < 2
          ∧ t.accs = [{ a with half := h + 1 }] ∧ stores t (a.pa + 8 * h) 8)
        ∧ (a.size = 16 → a.half = 0 → s.oneVisit a = true → ∃ t h, exec (.homeAccess a.id) s = .next t ∧ h < 2
          ∧ t.accs = [{ a with phase := .performed, half := h + 1 }] ∧ stores t a.pa 16)
        ∧ ∀ h, a.size = 16 → h < 2 → a.half = h + 1 → ∃ t, exec (.homeAccess a.id) s = .next t
          ∧ t.accs = [{ a with phase := .performed }] ∧ stores t (a.pa + 8 * (1 - h)) 8))
    ∧ (a.phase = .sent → a.kind = .red → s.crossTo a = none ∨ s.homeRetired die = false →
      let s1 := s.hostClean (hostLineOf a.pa) true
      ∀ v, atomNew a.aop a.ty (ofBytes (s1.m.mem.readBytes a.pa a.size)) a.data a.cmp = some v →
        ∃ t, exec (.hostAtomicopCompletion a.id false) s = .next t ∧ t.accs = [{ a with phase := .performed, back := s.crossTo a }]
          ∧ ∀ x, t.memByte x = if a.pa ≤ x ∧ x < a.pa + a.size then BitVec.ofNat 8 (v / 256 ^ (x - a.pa)) else s1.memByte x)
    ∧ exec (.flowCreditReturn a.id) s = .next s
    ∧ exec (.flowCreditReturn a.id) { s with accs := [{ a with credit := false }] } = .next s

/-- A cell operation of the module at its home stack reads the cell's 16 bytes, changes them as a whole, and answers: BID
decides an OPEN cell of a matching generation for its bidder, CLOSE closes, RECYCLE reopens a cell with the next generation;
PEEK brings the line to the die and reads it there, and a PEEK of a line that the die holds writes its quad at once. A cell
of another module is asked for in a slot with a circuit to it, its reply taken, and a request unanswered for too long fails
with 0x31, also where it still waits for a circuit, as the model reads R228 (log entry 84) (R221 to R225, R228, R319). -/
def Obligations.CellEvents : Prop :=
  (∀ (s : State) (a : Acc), s.accs = [a] → a.phase = .ready → s.free? a = true → a.kind.isCell = true → a.back = none →
    let old := Cell.ofNat (ofBytes (s.m.mem.readBytes a.pa 16))
    let line := a.pa / 128
    let die := dieOf a.t.core
    let act (k : AccKind) (i : Instr) (c : Cell) (reply : Nat) : Prop := a.kind = k →
      ∃ t, exec i s = .next t ∧ t.accs = [{ a with phase := .replied reply }]
        ∧ ∀ x, t.memByte x = if a.pa ≤ x ∧ x < a.pa + 16 then BitVec.ofNat 8 (c.toNat / 256 ^ (x - a.pa)) else s.memByte x
    let id := bits a.data 95 64
    let fits : Bool := bit a.data 127 || bits a.data 125 96 == old.gen
    let status : Nat := if !fits then 3 else if old.st = 0 then 0 else if old.st = 1 then (if old.winner = id then 0 else 1) else 2
    let bidCell : Cell := if fits && old.st == 0 then ⟨bits a.data 63 0, 1, old.gen, id⟩ else old
    (s.remoteCell a = false → s.arrived a = true → s.pathDown a = false → s.crossTo a = none →
      s.bankOpen a.pa (.acc a.id) = true → region a.pa = 0 → a.pa % 16 = 0 → s.homeRefusal a.pa false = none → s.elidedAt a.pa = false →
      s.dieLine? die line = none → s.earlyOf die line = [] →
      act .bid (.cellBidAtHome (.own a.id)) bidCell (bidCell.value + 2 ^ 64 * bidCell.winner + 2 ^ 96 * bidCell.gen + 2 ^ 126 * status)
      ∧ act .close (.cellCloseAtHome (.own a.id)) { old with st := if old.st ≤ 1 then 2 else old.st } (old.gen + 2 ^ 30 * old.st)
      ∧ act .recycle (.cellRecycleAtHome (.own a.id)) (if old.st = 0 then old else ⟨0, 0, (old.gen + 1) % 2 ^ 30, 0⟩)
          ((if old.st = 0 then old.gen else (old.gen + 1) % 2 ^ 30) + 2 ^ 30 * old.st)
      ∧ (a.kind = .peek → s.canFill a.t.core line = true → ∃ t, exec (.cellPeekAtHome (.own a.id)) s = .next t
        ∧ t.accs = [{ a with phase := .replied (old.quad old.st) }] ∧ t.holds a.t.core a.ctx line = true))
    ∧ (∀ l d, a.kind = .peek → s.hits a = true → s.inL1 a.t.core line = true → s.calm a.t.core → s.lot? a.t.core a.t.bctx = some l →
      s.dieLine? die line = some d → a.t.l < 32 → (laneAgent a.t).isBarker = false → a.lim = 128 → ∀ r ty, a.dst = some (r, ty) →
      ty.bits = 128 → r + 4 ≤ 128 →
      ∃ t l', exec (.loadReply a.id) s = .next t ∧ t.accs = [] ∧ t.lot? a.t.core a.t.bctx = some l'
        ∧ l'.holds (laneAgent a.t) (BitVec.ofNat 7 r) 128 ty.signed (peekQuad (bits d.current.1 (a.pa % 128 * 8 + 127) (a.pa % 128 * 8)))
        ∧ l.others l' [laneAgent a.t] (BitVec.ofNat 7 r) 128 ∧ t.m = s.m)
    ∧ (s.remoteCell a = true →
      (∀ n, s.circuit a.modid = some n → exec (.remoteCellRequest a.id none) s =
        .next ((s.send (.remoteCell a.modid a.kind a.pa a.data)).setAcc { a with phase := .sent, link := n + 3 }))
      ∧ (s.circuit a.modid = none → exec (.remoteCellRequest a.id none) s = .next s)
      ∧ exec (.remoteCellTimeout a.id) s = .next (s.setAcc { a with phase := .failed 0x31 a.va, back := none })))
  ∧ ∀ (s : State) (a : Acc), s.accs = [a] → a.phase = .sent → a.kind = .bid →
    (∀ v w st, exec (.remoteCellRequest a.id (some (.result v w st))) s =
      .next (s.setAcc { a with phase := .replied (v.toNat + 2 ^ 64 * w.toNat + 2 ^ 96 * st.toNat) }))
    ∧ (∀ code, exec (.remoteCellRequest a.id (some (.error code))) s = .next (s.setAcc { a with phase := .failed code a.va, back := none }))
    ∧ exec (.remoteCellTimeout a.id) s = .next (s.setAcc { a with phase := .failed 0x31 a.va, back := none })

/-! ### The request engine and the array -/

/-- The request engine takes the head record of the kick queue whose turn it is: a well-formed record becomes an order of
its kind, not started, behind the orders in progress, a tile order taking its place in tile order; the kick leaves its
queue, or goes on with the next record of its chain under LINK; memory changes at most where the issuing die writes the dirty
bytes of the destination back. A record that fails sets its tag's bit and leaves the queue (R196, R199, R229 to R233, R236,
R246, R247, R251). The request engine takes a TLOAD or TQR record of a context that a price-board set serves: the order is
registered with the fields of its record, the image of a TLOAD as a range of the space of its frame. An entry of a TBIND is
checked and written to the tensor table, as zeros where its V is 0 (R197, R241, R264, R266). That a TQR goes by the shape that
stack 0 holds, where a failed TLOAD has left the stacks apart, is the model's choice (log entry 116). -/
def Obligations.EngineRecords : Prop :=
  (
    ∀ (s : State) (core b : Nat) (l : Lot) (k : Kick),
      s.nextKick core = some (b, l, k) → k.kind = .order → k.chain ≤ 256 → s.calm core →
      let r := OrderRec.ofBytes (l.recBytes k.off)
      let takes (i : Instr) (kd : OrderKind) (tile : Option TileKind) : Prop :=
        (s.recordFault l (l.recBytes k.off) r = none → l.bobjFault r.bobj = none → r.tile = true ∨ r.count ≠ 0 →
          ∃ t l' op, exec i s = .next t ∧ t.lot? core b = some l'
            ∧ t.e.orders = s.e.orders ++ [⟨s.nextId, core, b, l.ctx, kd, r, s.tensorBytes l.ctx r.tensor, k.agent, false, 0, [], [], op, k.hdr⟩]
            ∧ t.e.tileOps = s.e.tileOps ++ (match tile with
                | some tk => [⟨op, op, core, b, k.agent, k.hdr, tk, .waiting, []⟩]
                | none => [])
            ∧ l'.kicks = (if r.link then [{ k with off := r.next, chain := k.chain + 1, after := [] }] else []) ++ l.kicks.tail
            ∧ l'.vregs = l.vregs ∧ ∀ pa, region pa ≠ 2 → s.lineDirty (dieOf core) (pa / 128) = false → t.memByte pa = s.memByte pa)
        ∧ ∀ e, l.waitersPlain → (if (s.recordFault l (l.recBytes k.off) r).isSome then s.recordFault l (l.recBytes k.off) r else l.bobjFault r.bobj) = some e →
          ∃ t l', exec i s = .next t ∧ t.lot? core b = some l' ∧ l'.kicks = l.kicks.tail ∧ bit l'.tags.toNat r.tag = true
      (r.kind < 2 ∨ 6 < r.kind → takes (.orderCopy core) .copy none)
      ∧ (r.kind = 2 → takes (.orderGather core) .gather none)
      ∧ (r.kind = 3 → takes (.orderScatter core) .scatter none)
      ∧ (r.kind = 4 → takes (.orderTileld core) .tileld (some (.load r.unit s.nextId)))
      ∧ (r.kind = 5 → takes (.orderAccst core) .accst (some (.store r.unit s.nextId)))
      ∧ (r.kind = 6 → takes (.orderTred core) .tred (some (.store r.unit s.nextId))))
  ∧ (
    ∀ (s : State) (core b : Nat) (l : Lot) (k : Kick), s.nextKick core = some (b, l, k) → s.calm core →
      let bs := l.recBytes k.off
      let byte (off n : Nat) := recNat bs off n
      let enters (i : Instr) (kd : OrderKind) (r : OrderRec) : Prop :=
        ∃ t l', exec i s = .next t ∧ t.lot? core b = some l' ∧ l'.kicks = l.kicks.tail
          ∧ t.e.orders = s.e.orders ++ [⟨s.nextId, core, b, l.ctx, kd, r, [], k.agent, false, 0, [], [], 0, k.hdr⟩]
          ∧ ∀ pa, region pa ≠ 2 → s.lineDirty (dieOf core) (pa / 128) = false → t.memByte pa = s.memByte pa
      ((s.pbSet l.ctx).isSome = true → l.bobjFault (byte 4 4) = none → byte 0 1 < 64 → byte 1 1 < 64 →
        (k.kind = .tload → byte 2 1 < 3 → byte 3 1 = 0 → byte 0x12 46 = 0 → byte 8 10 % 64 = 0 →
          enters (.tloadCommand core) (.tload (byte 0 1) (byte 2 1)) (cmdRec (byte 1 1) 0 (byte 4 4) (byte 8 10) 0)
          ∧ ∃ t sp pa, exec (.tloadCommand core) s = .next t ∧ (t.core core).locks = (s.core core).locks
              ++ [⟨l.ctx, b, sp, false, byte 1 1, byte 8 10, if byte 2 1 = 0 then 256 else if byte 2 1 = 1 then 512 else 4096, s.nextId, pa⟩]
            ∧ ∀ frame attr m big s', s.translate core l.ctx (byte 8 10) = (.ok frame attr m big, s') → sp = if region frame = 1 then 1 else 0)
        ∧ (∀ n, k.kind = .tqr → s.pbSet l.ctx = some n → s.boardShape n (byte 0 1) ≠ 2 → byte 2 2 ≤ 64 → byte 0x12 6 = 0 →
          byte 0x22 30 = 0 → byte 8 10 % 1024 = 0 → byte 0x18 10 % (if s.boardShape n (byte 0 1) = 1 then 2048 else 1024) = 0 →
          enters (.tqrCommand core) (.tqr (byte 0 1))
            { cmdRec (byte 1 1) (byte 2 2) (byte 4 4) (byte 8 10) (byte 0x18 10) with elsz := s.boardShape n (byte 0 1) }))
      ∧ ∀ v s', k.kind = .tbind → k.count ≤ 1 → s.engRead core l.ctx k.id k.off 128 none = (.ok v, s') →
        let e := toBytes v 128
        let valid := bit v 7
        valid = false ∨ (tensorOf e).isSome = true →
        ∃ t l', exec (.tbindCommand core) s = .next t ∧ t.lot? core b = some l' ∧ l'.kicks = l.kicks.tail
          ∧ ∀ i, Tbl.get 0 t.e.tensors i =
            if l.ctx * 32768 + k.first * 128 ≤ i ∧ i < l.ctx * 32768 + k.first * 128 + 128 then
              (if valid then BitVec.ofNat 8 (v / 256 ^ (i - (l.ctx * 32768 + k.first * 128))) else 0)
            else Tbl.get 0 s.e.tensors i)

/-- An order starts when no earlier range lock conflicts, the dirty bytes of its destination are written back and its tile
operation may start; the bytes of a copy within the scratchpad move up to the end of a line and lower REMAIN of the order's
object; a stack that a TLOAD reaches holds its image from then on, and the last acknowledgement ends the order; a row of a TQR
is looked up in its stack's table, and its data written a row segment at a time (R196, R199, R230, R235, R251, R264, R266, R277).
The size and the rising order of the byte steps, and what crosses the die plane, are the model's choice (log entry 52); that the
data of a row stand in the order of its bytes is its reading (log entry 59). -/
def Obligations.OrdersProgress : Prop :=
  ∀ (s : State) (id : Nat) (o : Order), s.order? id = some o →
    (o.started = false → s.lockHeld o = false →
      let clean : Prop := ∀ x ∈ (s.core o.core).locks, x.order = o.id → s.rangeClean o.core x = true
      let kept (t : State) : Prop := t.accs = s.accs ∧ ∀ pa, s.lineDirty (dieOf o.core) (pa / 128) = false → t.memByte pa = s.memByte pa
      (clean → s.tileOp? o.tileOp = none →
        ∃ t, exec (.orderStart id) s = .next t ∧ t.e.orders = (s.setOrder { o with started := true }).e.orders
          ∧ t.e.tileOps = s.e.tileOps ∧ kept t)
      ∧ (∀ x, clean → s.tileOp? o.tileOp = some x → s.tileFree x = true →
        ∃ t, exec (.orderStart id) s = .next t ∧ t.e.orders = (s.setOrder { o with started := true }).e.orders
          ∧ t.tileOp? o.tileOp = some { x with phase := .started } ∧ kept t)
      ∧ (¬ clean → ∃ t, exec (.orderStart id) s = .next t ∧ t.e.orders = s.e.orders ∧ t.e.tileOps = s.e.tileOps ∧ kept t))
    ∧ (∀ l, s.lot? o.core o.bctx = some l → o.started = true → o.kind = .copy → o.r.ssp = 2 → o.r.dsp = 2 → o.pos < o.r.count →
      l.phase = .running → s.tileOp? o.tileOp = none →
      let src := o.r.src + o.pos
      let dst := o.r.dst + o.pos
      let n := min (min (128 - src % 128) (128 - dst % 128)) (o.r.count - o.pos)
      src + n ≤ l.d.scr * 1024 → dst + n ≤ l.d.scr * 1024 → o.r.bobj + 8 ≤ dst ∨ dst + n ≤ o.r.bobj →
      n < l.scratchNat o.r.bobj 8 % 2 ^ 48 →
      ∃ t l', exec (.orderBytesPerformed id) s = .next t ∧ t.lot? o.core o.bctx = some l' ∧ l'.vregs = l.vregs
        ∧ l'.scratchNat o.r.bobj 8 = l.scratchNat o.r.bobj 8 - n
        ∧ (∀ x, x < o.r.bobj ∨ o.r.bobj + 8 ≤ x → Tbl.get 0 l'.scratch x =
            if dst ≤ x ∧ x < dst + n then Tbl.get 0 l.scratch (src + (x - dst)) else Tbl.get 0 l.scratch x)
        ∧ (if o.pos + n = o.r.count then t.e.orders = s.e.orders.filter (fun y => y.id != id)
           else t.e.orders = (s.setOrder { o with pos := o.pos + n }).e.orders)
        ∧ ∀ pa, t.memByte pa = s.memByte pa)
    ∧ (∀ table shape stack n, o.kind = .tload table shape → stack ∈ o.stackSet → s.stackHeld stack = false →
      s.stackWay (.acc o.id) (dieOf o.core) stack = .ok 0 → s.pbSet o.ctx = some n →
      let rest := o.stackSet.filter (fun x => x != stack)
      let w := if shape = 1 then 2 else 1
      ∃ t, exec (.pbload id stack) s = .next t ∧ (t.board n table stack).shape = shape
        ∧ (∀ i, i < (if shape = 2 then 4096 else 256) → Tbl.get 0 (t.board n table stack).entries i =
            BitVec.ofNat 16 (ofBytes ((o.image.drop (i * w)).take w)))
        ∧ (∀ k, k ≠ boardPlace n table stack → Tbl.get PbTable.none t.e.boards k = Tbl.get PbTable.none s.e.boards k)
        ∧ (rest ≠ [] → t.e.orders = (s.setOrder { o with stackSet := rest }).e.orders ∧ t.lots = s.lots ∧ t.m = s.m)
        ∧ (rest = [] → ∀ y ∈ t.e.orders, y.id ≠ id))
    ∧ (∀ table n v0 s0 pa attr m big s1 v rpa attr' m' big' s2, o.kind = .tqr table → o.started = true → o.image = [] →
      s.pbSet o.ctx = some n → Tbl.get false s.m.poison (boardKey n table) = false →
      Tbl.get false s.e.pbBusy n = false → (∀ y ∈ s.e.orders, y.stackSet = []) →
      let w := if o.r.elsz = 1 then 2 else 1
      let row := o.pos / (1024 * w)
      o.pos < 1024 * w * o.r.count →
      s.engWalk o.core o.ctx o.id ((o.r.src + 1024 * row) % 2 ^ 80) = (.ok v0, s0) →
      s0.engCheck o.core o.ctx ((o.r.src + 1024 * row) % 2 ^ 80) false none = (.ok pa attr m big, s1) → region pa = 0 →
      attrELID attr = false → s1.frameClass (bits pa 40 0) = .aliased → s1.stackHeld (stackOf (bits pa 40 0)) = false →
      s1.way (.acc o.id) (dieOf o.core) pa true = .ok v → (∀ i, i < 8 → s1.poisoned (pa + 128 * i) = false) →
      let home := (List.range 8).foldl (fun s i => s.cleanLine (dieOf o.core) (pa / 128 + i)) (s1.bankServed pa (.acc o.id))
      home.engCheck o.core o.ctx ((o.r.dst + o.pos) % 2 ^ 80) true none = (.ok rpa attr' m' big', s2) → region rpa ≠ 2 →
      exec (.trowq id) s = .next ((s2.engDone o.id).setOrder { o with
        image := (home.m.mem.readBytes pa 1024).flatMap (fun j => toBytes ((home.board n table (stackOf (bits pa 40 0))).entry j.toNat) w) }))
    ∧ ∀ table l x s1, o.kind = .tqr table → o.started = true → s.lot? o.core o.bctx = some l →
      let total := 1024 * (if o.r.elsz = 1 then 2 else 1) * o.r.count
      (o.pos < total → o.image ≠ [] → s.engSegment o.core o.ctx o.id (o.r.dst + o.pos) (ofBytes (o.image.take 1024)) none = (.ok x, s1) →
        exec (.orderBytesPerformed id) s = .next (s1.advance { o with image := o.image.drop 1024 } (o.pos + 1024) total 1024))
      ∧ (o.pos < total → o.image = [] → exec (.orderBytesPerformed id) s = .next s)

/-- The array starts the earliest ready MMA of the lot in turn, and another tile operation starts when its tile order allows
it; an MMA that leaves the array has its sums, here a sign-select one: each element of the tile rises by the sum over k of
the I8 elements of OA's row times the T2 elements of OB's row; the operation that ends leaves the tile order and TL falls
with the last of its group, ACCZ having cleared its tile and ACCWR written its elements (R85, R110, R249, R251 to R253). -/
def Obligations.TileOperationsRun : Prop :=
  ∀ (s : State) (id : Nat) (x : TileOp) (l : Lot), s.tileOp? id = some x → s.lot? x.core x.bctx = some l →
    (∀ f, x.kind = .mma f → x.phase = .waiting → s.nextMma x.core = some x →
      ∃ t, exec (.tileOpStart id) s = .next t ∧ t.e = (s.setTileOp { x with phase := .started }).e
        ∧ t.core x.core = { s.core x.core with arrayRR := (x.bctx + 1) % 4 } ∧ t.lots = s.lots)
    ∧ (∀ n, x.kind = .accz n → x.phase = .waiting → s.tileFree x = true →
      exec (.tileOpStart id) s = .next (s.setTileOp { x with phase := .started }))
    ∧ (∀ f, x.kind = .mma f → x.phase = .started → f.mode = .ss →
      ∃ t l', exec (.arrayLeave id) s = .next t ∧ t.e = (s.setTileOp { x with phase := .left }).e ∧ t.lot? x.core x.bctx = some l'
        ∧ (∀ r c, r < 64 → c < 64 →
          let a (k : Nat) : Int := sextI ((l.slotRow f.oa.toNat .i8 r).getD k 0) 8
          let b (k : Nat) : Int := match (l.slotRow f.ob.toNat .t2 c).getD k 0 with | 1 => 1 | 3 => -1 | _ => 0
          l'.accAt f.acc.toNat r c = BitVec.ofInt 32 ((l.accAt f.acc.toNat r c).toInt + ((List.range 64).map (fun k => a k * b k)).sum))
        ∧ l'.accIsInt f.acc.toNat = true ∧ l'.vregs = l.vregs ∧ l'.slotData = l.slotData)
    ∧ (s.calm x.core →
      let ends (l1 : Lot → Prop) : Prop :=
        ∃ t l', exec (.tileOpComplete id) s = .next t ∧ t.lot? x.core x.bctx = some l' ∧ l1 l' ∧ l'.vregs = l.vregs
          ∧ t.e.tileOps = s.e.tileOps.filter (fun y => y.id != id)
          ∧ (∀ w, x.warps = [w] → (∀ y ∈ s.e.tileOps, y.group = x.group → y.id = id) → (l'.warp w).tl = (l.warp w).tl - 1)
          ∧ ∀ pa, t.memByte pa = s.memByte pa
      (∀ f, x.kind = .mma f → x.phase = .left → ends (fun l' => l'.acc = l.acc))
      ∧ (∀ n, x.kind = .accz n → x.phase = .started →
        ends (fun l' => ∀ k, Tbl.get 0 l'.acc k = if n * 4096 ≤ k ∧ k < n * 4096 + 4096 then 0 else Tbl.get 0 l.acc k))
      ∧ ∀ n r c v, x.kind = .accwr n [(r, c, v)] → x.phase = .started →
        ends (fun l' => ∀ k, Tbl.get 0 l'.acc k = if k = n * 4096 + r * 64 + c then v else Tbl.get 0 l.acc k))

/-! ### Lots, loss, pre-emption and debug -/

/-- Placement gives a core with room the lowest unstarted lot of the launch that it serves: its threads READY at ENTRY with
their seeds and no predicate, its registers and tags zero, BASE blocks for each warp. A lot whose threads and barker have
exited and whose engine work has completed retires and is counted, once its release at PKG scope is complete; a cancel that
reaches its core stops its threads at run boundaries; a lot that ends FAILED is drained and recorded; the watchdog fails a lot
with 0x40, or halts its launch where group 5 selects a dump, as the model reads R280 (log entry 69) (R36 to R40, R45, R46, R49,
R102, R280, R288, R289). -/
def Obligations.LotLife : Prop :=
  (∀ (s : State) (c i : Nat) (x : Launch), s.w.preempts = [] → c < 1024 → s.coreRetired c = false → s.dieRetired (dieOf c) = false →
    (∀ e ∈ s.lotsOn c, e.2.saving = false) → s.isReady = true → s.pickLaunch c = some (x, .unstarted i) → s.lot? c 0 = none →
    x.reruns = [] → x.d.threads ≤ 1024 →
    ∃ t l, exec (.lotPlacement c) s = .next t ∧ t.lot? c 0 = some l ∧ l.index = i ∧ l.launch = x.id ∧ l.ctx = x.ctx ∧ l.phase = .running
      ∧ l.done = 0 ∧ l.tags = 0 ∧ l.nthreads = x.d.threads ∧ (∀ w r lane, l.vreg w r lane = 0) ∧ (∀ r, l.sreg r = 0)
      ∧ (∀ n, n < x.d.threads → l.thr ⟨n / 32, n % 32⟩ = { Thread.none with
          st := .ready, pc := x.d.entry, rng := BitVec.ofNat 32 (0x9E3779B9 * (n % 32 + 1)), seq := (l.thr ⟨n / 32, n % 32⟩).seq })
      ∧ (∀ w, w < x.d.warps → (l.warp w).pool = x.d.base ∧ (l.warp w).reserve = 0)
      ∧ (t.core c).pool = (s.core c).pool - x.d.base * x.d.warps ∧ (t.launch? x.id).map (fun y => y.next) = some (x.next + 1))
  ∧ (∀ (s : State) (c b : Nat) (l : Lot) (x : Launch), s.lot? c b = some l → s.launch? l.launch = some x → (s.core c).blockQ = [] →
    s.w.preempts = [] → l.phase = .running →
    (l.done = l.nthreads → (l.d.bk = true → l.barkExited = true) → s.engineWork c b l = false →
      (s.releaseScope c l.ctx .pkg).1 = true →
      ∃ t, exec (.lotRetirement c b) s = .next t ∧ t.lot? c b = none ∧ t.launch? l.launch = some { x with retired := x.retired + 1 }
        ∧ t.counter x.ctx x.d.ctr = s.counter x.ctx x.d.ctr + 1 ∧ (t.ctxS l.ctx).seq = (s.ctxS l.ctx).seq)
    ∧ (l.done ≠ l.nthreads ∨ (l.d.bk = true ∧ l.barkExited = false) ∨ s.engineWork c b l = true → exec (.lotRetirement c b) s = .next s))
  ∧ (∀ (s : State) (c b id : Nat) (l : Lot), s.w.cancels = [(id, c)] → b < 4 → s.lot? c b = some l → l.launch = id → l.phase = .running →
    s.complete c b l = false → (∀ e ∈ s.lotsOn c, e.2.launch = id → e.2.phase ≠ .halted) →
    ∃ t l', exec (.cancelReachesCore c) s = .next t ∧ t.w.cancels = [] ∧ t.lot? c b = some l' ∧ l'.phase = .cancelling
      ∧ ∀ a ∈ l.allAgents, (l.thr a).st.atBoundary = true → (l'.thr a).st = .stopped)
  ∧ ∀ (s : State) (c b : Nat) (l : Lot), s.lot? c b = some l →
    (∀ code, l.phase = .failing code → l.ended = true → s.engineWork c b l = false → s.lotAccs c b = [] →
      ∃ t l', exec (.lotFailDrainEnd c b) s = .next t ∧ t.lot? c b = some l' ∧ l' = { l with phase := .draining }
        ∧ s.recorded t l.ctx)
    ∧ (l.phase = .running → s.regF (ctxReg l.ctx 0x20) 47 32 ≠ 0 → l.allDebug = false → (s.core c).halted = false →
      s.haltingLot l.launch = none →
      (s.factAction l.ctx 5 ≠ 2 → (∀ a ∈ l.allAgents, (l.thr a).stop = none) →
        ∃ t l', exec (.watchdogExpiry c b) s = .next t ∧ t.lot? c b = some l' ∧ l'.phase = .failing 0x40
          ∧ (∀ a ∈ l.allAgents, (l.thr a).st.atBoundary = true → (l'.thr a).st = .stopped)
          ∧ s.recorded t l.ctx)
      ∧ (s.factAction l.ctx 5 = 2 → ∃ t l', exec (.watchdogExpiry c b) s = .next t ∧ t.lot? c b = some l' ∧ l'.phase = .halted
          ∧ l'.firstFault.map (fun r => r.code) = some 0x40))

/-- A probe that is answered clears the count of missed ones; the third missed in a row, or a home that waits in vain, loses
the die: it is retired and its lots are gone. A pre-emption request that finds enough cores has their lots saved; a lot that
has drained goes to its save area and joins its launch's saved lots, and one whose launch is cancelled is cancelled instead
(R49, R292 to R294). The area at the first place of the pool that fits, and the release at PKG scope before the save, are the
model's readings (log entries 32 and 33), and that accesses which cannot go on join the log is its choice (log entry 115). -/
def Obligations.LossAndPreemption : Prop :=
  (∀ (s : State) (die : Nat), die < 64 → s.dieRetired die = false →
    let n := Tbl.get 0 s.p.probes die
    let gone (i : Instr) : Prop := ∃ t, exec i s = .next t ∧ t.dieRetired die = true ∧ Tbl.get false t.p.lost die = true
      ∧ ∀ c b, dieOf c = die → b < 4 → t.lot? c b = none
    exec (.dieProbe die true) s = .next { s with p := { s.p with probes := Tbl.put 0 s.p.probes die 0 } }
    ∧ (n < 2 → exec (.dieProbe die false) s = .next { s with p := { s.p with probes := Tbl.put 0 s.p.probes die (n + 1) } })
    ∧ (2 ≤ n → gone (.dieProbe die false))
    ∧ exec (.homeWaitReport die true) s = .next { s with p := { s.p with probes := Tbl.put 0 s.p.probes die 0 } }
    ∧ gone (.homeWaitReport die false))
  ∧ (∀ (s : State) (q n : Nat), n ≠ 0 → s.w.preempts = [] →
    let s1 : State := { s with w := { s.w with preempts := [⟨q, n, []⟩] } }
    let cores := s1.preemptOrder (s.regF (queueReg q 0) 2 1)
    (cores.length < n → exec (.preemptRequest q n) s = .next s1)
    ∧ (n ≤ cores.length → ∃ t, exec (.preemptRequest q n) s = .next t ∧ t.w.preempts = [⟨q, 0, cores.take n⟩]
      ∧ ∀ c ∈ cores.take n, ∀ b l, b < 4 → s.lot? c b = some l → t.lot? c b = some { l with saving := true }))
  ∧ ∀ (s s0 t0 : State) (c b pa : Nat) (l : Lot) (x : Launch), s.lot? c b = some l → l.saving = true →
    let held := s.deferHeld c b
    held.saveReady c b l = true → s.launch? l.launch = some x → (s.core c).blockQ = [] →
    let image := held.saveImage c b l false
    placeArea (s.savePool l.ctx).1 (s.savePool l.ctx).2 image.length (s.ctxS l.ctx).areas = some pa →
    (x.cancelled = false → held.releaseScope c l.ctx .pkg = (true, s0) → s0.writeImage (.place c b) pa image image.length = (.done, t0) →
      ∃ t y, exec (.lotSave c b) s = .next t ∧ t.lot? c b = none ∧ t.launch? l.launch = some y
        ∧ y.saved = x.saved ++ [⟨l.index, pa, image.length, (l.warps.map (fun e => e.2.blocks)).sum⟩]
        ∧ (pa, image.length) ∈ (t.ctxS l.ctx).areas)
    ∧ (x.cancelled = true → ∃ t l', exec (.lotSave c b) s = .next t ∧ t.lot? c b = some l' ∧ l'.phase = .cancelling)

/-- A debug command whose target is not there sets ERR alone. HALT parks the thread it names DEBUG, or halts the core;
RESUME and STEP make a DEBUG thread READY, STEP for one clause, but where accesses of the thread await their re-issue they are
issued again first and the thread waits for them in DEBUG; DUMP writes the stopped lot's image, LOAD replaces the lot by the
image; the dump of a halted lot writes its record (R287, R300 to R303). Stated for SET 0. That RESUME and STEP end the halt of
the core, the wait in DEBUG, and the blocks that LOAD takes are the model's readings (log entry 34), the place of a dump too (log
entry 32); the accesses that join the log of a dump are its choice (log entry 115). -/
def Obligations.DebugCommands : Prop :=
  ∀ (s : State) (c : Nat) (v : Word64),
    let d := dbgTarget v
    let a : Agent := ⟨d.w, d.lane⟩
    (s.dbgNames c d = false → ∀ i ∈ [Instr.dbgcmdHalt c v, .dbgcmdResume c v, .dbgcmdStep c v],
      exec i s = .next (s.setRegF (dbgReg c 0x08) 1 1 1))
    ∧ (s.lot? c d.lot = none → ∀ i ∈ [Instr.dbgcmdDump c v, .dbgcmdLoad c v], exec i s = .next (s.setRegF (dbgReg c 0x08) 1 1 1))
    ∧ (d.set = 3 → ∃ t, exec (.dbgcmdHalt c v) s = .next t ∧ (t.core c).halted = true ∧ t.m = s.m)
    ∧ ∀ l, s.lot? c d.lot = some l → s.dbgNames c d = true → d.set = 0 →
      ((l.thr a).st = .ready → a ∈ l.allAgents →
        ∃ t l', exec (.dbgcmdHalt c v) s = .next t ∧ t.lot? c d.lot = some l' ∧ l'.thr a = { l.thr a with st := .parked .debug, stepping := false }
          ∧ (∀ x : Agent, x.l < 32 → x ≠ a → l'.thr x = l.thr x) ∧ l'.vregs = l.vregs ∧ t.m = s.m
          ∧ t.regF (dbgReg c 0x08) 11 10 = d.lot ∧ t.regF (dbgReg c 0x08) 16 12 = d.w ∧ t.regF (dbgReg c 0x08) 21 17 = d.lane
          ∧ t.reg (dbgReg c 0x10) = (l.thr a).pc.setWidth 64)
      ∧ ((l.thr a).st = .parked .debug → a ∈ l.allAgents → (l.thr a).stop = none → (l.thr a).exitAfter = none → (l.thr a).waitAfter = none → l.ending = false →
        let lane : LaneId := ⟨c, d.lot, a.w, a.l⟩
        let outside := (l.thr a).shadow.isNone
        let due := (s.accs.filter (fun x => x.t == lane && outside && x.phase.isReplay)).map (fun x => x.id)
          ++ (l.thr a).resume.filter (fun i => s.reissued i)
        (due = [] →
        (∃ t l', exec (.dbgcmdResume c v) s = .next t ∧ t.lot? c d.lot = some l' ∧ (l'.thr a).st = .ready ∧ (l'.thr a).pc = (l.thr a).pc
          ∧ (t.core c).halted = false ∧ l'.vregs = l.vregs ∧ t.m = s.m)
        ∧ (l.allDebug = true → ∃ t l', exec (.dbgcmdStep c v) s = .next t ∧ t.lot? c d.lot = some l' ∧ (l'.thr a).st = .ready
          ∧ (l'.thr a).stepping = true ∧ (l'.thr a).pc = (l.thr a).pc ∧ l'.vregs = l.vregs ∧ t.m = s.m))
        ∧ (due ≠ [] →
          ∃ t l', exec (.dbgcmdResume c v) s = .next t ∧ t.lot? c d.lot = some l' ∧ (l'.thr a).st = .parked .debug
            ∧ (l'.thr a).resume = due ∧ l'.vregs = l.vregs ∧ t.m = s.m
            ∧ t.accs = s.accs.map (fun x => if x.t = lane ∧ outside = true ∧ x.phase.isReplay = true then { x with phase := .walk } else x)))
      ∧ (l.allDebug = true →
        (∀ t, s.writeImage (.place c d.lot) (s.regF (dbgReg c 0x20) 51 0) (s.saveImage c d.lot l true)
            (s.saveImage c d.lot l true).length = (.done, t) →
          exec (.dbgcmdDump c v) s = .next ((t.inputDone (.dbgcmdDump c v)).endTransfers (.place c d.lot)))
        ∧ ∀ l' s1, let pa := s.regF (dbgReg c 0x20) 51 0
          let rd := s.areaReader pa
          let size := ((List.range 11).map (fun k => (sectionAt rd k).1 + (sectionAt rd k).2)).foldl max 256
          size < 2 ^ 24 → s.rangeTake (.place c d.lot) pa size = (.ok 0, s1) → readLot rd l size s1.nextId s1.fresh.2.freeVal.1 = some l' →
          (∀ x ∈ l'.allAgents, (l'.thr x).st.isParked = false ∧ (l'.thr x).stop = none) → (sectionAt rd 9).2 = 0 → (s.core c).blockQ = [] →
          (l'.warps.map (fun e => e.2.blocks)).sum ≤ (s.core c).pool →
          ∃ t, exec (.dbgcmdLoad c v) s = .next t ∧ t.lot? c d.lot = some l')
      ∧ (l.phase = .halted → (s.deferHeld c d.lot).drained c d.lot l = true → ∀ pa t0,
        let image := (s.deferHeld c d.lot).saveImage c d.lot l true
        placeArea (s.savePool l.ctx).1 (s.savePool l.ctx).2 image.length (s.ctxS l.ctx).areas = some pa →
        (s.deferHeld c d.lot).writeImage (.place c d.lot) pa image image.length = (.done, t0) →
        ∃ t l', exec (.coreDumpWrite c d.lot) s = .next t ∧ t.lot? c d.lot = some l' ∧ l'.phase = .running ∧ l'.vregs = l.vregs
          ∧ (pa, image.length) ∈ (t.ctxS l.ctx).areas ∧ t0.recorded t l.ctx)

/-! ### Links and the host -/

/-- A lost wavelength is noted and counted, and holds the new accesses of its pair where the pair's entry no longer serves it;
a drained pair then takes the mode that its lost wavelengths ask for, NORMAL with none lost, HALF with at most one of each
direction, RELAY with a relay die, else DOWN, or what the Market Master has written, and its accesses are held no longer;
while something of the pair is in flight its entry stays; other entries are as before (R305 to R309). What is in flight, that new
accesses wait from the loss or the write on, and that a relay stays while its die qualifies, are the model's readings (log entry
73). -/
def Obligations.MemoryPlaneRoutes : Prop :=
  ∀ (s : State) (die stack : Nat), die < 64 → stack < 32 →
    (∀ toStack wl, wl < 2 → s.wlDown die stack toStack wl = false →
      ∃ t, exec (.wavelengthLoss die stack toStack wl) s = .next t ∧ t.wlDown die stack toStack wl = true
        ∧ t.regF (mpstatReg die) 63 48 = min 0xFFFF (s.regF (mpstatReg die) 63 48 + 1)
        ∧ (t.pairHeld die stack = true ∨ (t.routeKeeps die stack = true ∧ t.pairHeld die stack = s.pairHeld die stack))
        ∧ (∀ pa, pa ≠ mpstatReg die → t.reg pa = s.reg pa) ∧ t.m = s.m ∧ t.accs = s.accs)
    ∧ (s.pairBusy die stack = true → exec (.routeChange die stack) s = .next s)
    ∧ (s.pairBusy die stack = false →
      let due := Tbl.get none s.p.routeDue (die * 32 + stack)
      let up (dir : Bool) (wl : Nat) := !s.wlDown die stack dir wl
      let one (dir : Bool) := up dir 0 || up dir 1
      let want : Nat × Nat :=
        if up true 0 && up true 1 && up false 0 && up false 1 then (0, 0)
        else if one true && one false then (1, 0)
        else match s.relayFor die stack with
          | some via => (2, via)
          | none => (3, 0)
      let takes (mode via : Nat) : Prop := ∃ t, exec (.routeChange die stack) s = .next t ∧ t.pairHeld die stack = false
        ∧ t.routeMode die stack = mode ∧ t.routeVia die stack = via
        ∧ (∀ d k, d < 64 → k < 32 → d ≠ die ∨ k ≠ stack → t.routeMode d k = s.routeMode d k ∧ t.routeVia d k = s.routeVia d k)
        ∧ t.accs = s.accs ∧ t.m = s.m
      (∀ n, due = some (n + 1) → takes (n % 4) (n / 4 % 64))
      ∧ (due = none ∨ due = some 0 →
        (want.1 = s.routeMode die stack → want.1 ≠ 2 ∨ want.2 = s.routeVia die stack ∨ s.relayOk die stack (s.routeVia die stack) = true →
          takes (s.routeMode die stack) (s.routeVia die stack))
        ∧ (want.1 ≠ s.routeMode die stack → takes want.1 want.2)))

/-- The die plane: the token at a writer that holds one access, one reply, one acknowledgement, one request or answer of a transfer,
or one packet that is to be sent again, for the channel has it sent and goes on to the next place; where the laser would be lit for
more than 6 µs the writer may defer, and counts it; a packet that arrives whole is passed on, in the order of its flow where it has
one, one with a bad CRC or a duplicate is not, and a good one is to be acknowledged; an acknowledgement that the reader has sent
ends it; without one it waits to be sent again, and the eighth time its access fails with 0x31, or its transfer does; 2 µs of
silence bring a token of the next epoch (R310 to R313; when a writer defers is a free value, log entry 36; the transfers of
engines, walks, fetches and write-backs are log entry 52). -/
def Obligations.DiePlane : Prop :=
  (∀ (s : State) (ch writer epoch : Nat), ch < 66 → writer < 66 → s.minimal = false → s.homeHeld ch = false →
    let place := (writer + 66 - ch) % 66
    let lit := (s.channel writer).laser
    let pkt (key acc n : Nat) (ordered : Bool) : Packet :=
      ⟨s.nextId, ch, writer, key, ordered, Tbl.get 0 s.p.seqs (2 * key), acc, n, 1, false, true, false, false, false, false⟩
    let sends (packets : List Packet) (more : State → Prop) : Prop :=
      ∃ t, exec (.tokenArrival ch writer) s = .next t ∧ (t.channel ch).tokens = [(epoch, place + 1)] ∧ t.accs = s.accs ∧ t.m = s.m
        ∧ (((t.channel writer).laser = lit + 16 ∧ t.p.packets = packets ∧ more t)
          ∨ (5984 < lit ∧ (t.channel writer).laser = lit ∧ t.p.packets = s.p.packets ∧ t.p.transfers = s.p.transfers
            ∧ t.regF (dpstatReg writer) 63 56 = min 255 (s.regF (dpstatReg writer) 63 56 + 1)))
    0 < place → place < 65 → (s.channel ch).tokens = [(epoch, place)] →
    (s.p.transfers = [] →
      (∀ a, s.accs = [a] → (∀ x ∈ s.p.packets, x.due = false ∧ (x.received = true → x.ackSent = true)) → a.size ≤ 2048 →
        (s.sendable a = true → dieOf a.t.core = writer → s.crossTo a = some ch → a.back = none →
          sends (s.p.packets ++ [pkt a.flowKey a.id a.size (a.flow != 0)])
            (fun t => a.flow ≠ 0 → Tbl.get 0 t.p.seqs (2 * a.flowKey) = Tbl.get 0 s.p.seqs (2 * a.flowKey) + 1))
        ∧ (a.back = some writer → dieOf a.t.core = ch → s.replySendable a = true →
          sends (s.p.packets ++ [pkt (replyFlow a.flowKey) a.id a.size (a.flow != 0)])
            (fun t => a.flow ≠ 0 → Tbl.get 0 t.p.seqs (2 * replyFlow a.flowKey) = Tbl.get 0 s.p.seqs (2 * replyFlow a.flowKey) + 1)))
      ∧ ∀ x, s.accs = [] → s.p.packets = [x] →
        (x.ch = ch → x.writer = writer → x.due = true → x.size ≤ 2048 →
          sends [{ x with due := false, flying := true, sends := x.sends + 1 }]
            (fun t => t.regF (dpstatReg ch) 47 32 = min 0xFFFF (s.regF (dpstatReg ch) 47 32 + 1)))
        ∧ (x.ch = writer → x.writer = ch → x.received = true → x.ackSent = false → sends [{ x with ackSent := true }] (fun _ => True)))
    ∧ ∀ y, s.accs = [] → s.p.packets = [] → s.p.transfers = [y] →
      (y.ch = ch → y.src = writer → s.askable y = true → y.out ≤ 2048 →
        sends [pkt y.key 0 y.out false] (fun t => t.p.transfers = [{ y with pkt := some s.nextId, sent := some s.nextId }]))
      ∧ (y.src = ch → y.ch = writer → y.answerable = true → y.back ≤ 2048 →
        sends [pkt (replyFlow y.key) 0 y.back false] (fun t => t.p.transfers = [{ y with pkt := some s.nextId }])))
  ∧ (∀ (s : State) (x : Packet), s.p.packets = [x] →
    let came : Packet := { x with flying := false, ackSent := false }
    let passed (t : State) : Prop := t.p.packets = [{ came with received := true, delivered := true }] ∧ t.m = s.m
      ∧ t.accs = s.accs.map (fun a => if a.id = x.acc then
          (if dieOf a.t.core = x.writer then { a with delivered := true } else { a with back := none }) else a)
      ∧ t.p.transfers = s.p.transfers.map (fun y => if y.pkt ≠ some x.id then y
          else if y.reply = true then { y with pkt := none, done := some true } else { y with pkt := none, reply := true })
    (x.flying = true → x.received = false →
      (x.ordered = false → ∃ t, exec (.diePlanePacketReceive x.id true) s = .next t ∧ passed t)
      ∧ (x.ordered = true → x.delivered = false → x.seqNo = Tbl.get 0 s.p.seqs (2 * x.key + 1) →
        ∃ t, exec (.diePlanePacketReceive x.id true) s = .next t ∧ passed t ∧ Tbl.get 0 t.p.seqs (2 * x.key + 1) = x.seqNo + 1)
      ∧ (x.ordered = true → x.delivered = false → x.seqNo ≠ Tbl.get 0 s.p.seqs (2 * x.key + 1) →
        ∃ t, exec (.diePlanePacketReceive x.id true) s = .next t ∧ t.p.packets = [{ came with received := true }] ∧ t.accs = s.accs
          ∧ t.p.transfers = s.p.transfers))
    ∧ (x.flying = true → exec (.diePlanePacketReceive x.id false) s =
      .next { s with p := { s.p with packets := [{ x with flying := false }] } })
    ∧ (x.flying = true → x.received = true → exec (.diePlanePacketReceive x.id true) s =
      .next { s with p := { s.p with packets := [came] } })
    ∧ (x.flying = false → ∀ ok, exec (.diePlanePacketReceive x.id ok) s = .next s)
    ∧ (x.ackSent = true → ∃ t, exec (.packetAckReceive x.id) s = .next t ∧ t = { s with p := { s.p with packets := t.p.packets } }
        ∧ t.p.packets = if x.delivered then [] else [{ x with acked := true, due := false }])
    ∧ (x.ackSent = false → exec (.packetAckReceive x.id) s = .next s)
    ∧ (x.acked = false → x.due = false → x.sends < 8 →
      exec (.packetResendTimeout x.id) s = .next { s with p := { s.p with packets := [{ x with due := true }] } })
    ∧ (x.acked = false → x.due = false → 8 ≤ x.sends →
      let counted (t : State) : Prop := t.m = s.m ∧ t.regF (dpstatReg x.ch) 55 48 = min 255 (s.regF (dpstatReg x.ch) 55 48 + 1)
      (∀ a, x.received = true → x.delivered = true → s.acc? x.acc = some a → a.phase.pending = true → a.hasResult = true →
        ∃ t, exec (.packetResendTimeout x.id) s = .next t ∧ t.p.packets = []
          ∧ t.accs = (s.setAcc { a with phase := .failed 0x31 a.va, back := none }).accs ∧ counted t)
      ∧ ∀ y, s.accs = [] → s.p.transfers = [y] → y.pkt = some x.id → ∃ t, exec (.packetResendTimeout x.id) s = .next t
        ∧ t.p.transfers = [{ y with pkt := none, reply := y.reply || x.received, done := some false }] ∧ counted t))
  ∧ ∀ (s : State) (ch : Nat), ch < 66 → s.minimal = false → s.p.plat.retraining.contains (.home ch) = false →
    ∃ t, exec (.tokenSilence ch) s = .next t
      ∧ t.regF (dpstatReg ch) 15 0 = (s.regF (dpstatReg ch) 15 0 + 1) % 65536
      ∧ (t.regF (dpstatReg ch) 15 0, 1) ∈ (t.channel ch).tokens
      ∧ t.regF (dpstatReg ch) 23 16 = min 255 (s.regF (dpstatReg ch) 23 16 + 1)
      ∧ (∀ pa, pa ≠ dpstatReg ch → t.reg pa = s.reg pa) ∧ t.accs = s.accs ∧ t.m = s.m

/-- Links: TRAIN starts training in DOWN and a retrain at MAXRATE in UP and does nothing in the other states; training that
succeeds brings the link UP at its rate; loss of lock and a failed retrain bring it DOWN; of two retrain requests the lower
rate is trained and the collision counted; a flit with a CRC error is counted (R316 to R318). Nothing else changes where no
access is outstanding on the link, but that host lines move to the half of the I/O die whose port now serves them, as the model
chooses (log entry 117); a result outstanding on a link that goes DOWN fails with 0x31, and so does what an engine, a walk or a
fetch has waiting on it (R23, R219, R227, R316). Step 6 of the start, whose end these changes of state also decide, stands in
`Start`. -/
def Obligations.LinkStates : Prop :=
  ∀ (s : State) (link : Nat), link < 18 → s.phase ≠ 6 →
    ((∀ a ∈ s.accs, a.onLink link = false) →
      let same (t : State) : Prop := (∀ pa, pa ≠ linkReg link → t.reg pa = s.reg pa) ∧ t.accs = s.accs ∧ t.m = s.m ∧ t.lots = s.lots
      let moved (t : State) : Prop := (∀ pa, pa ≠ linkReg link → t.reg pa = s.reg pa) ∧ t.accs = s.accs ∧ t.lots = s.lots
        ∧ t.m = { s.m with mem := t.m.mem, hostLines := t.m.hostLines }
        ∧ (s.m.hostLines.length < 524288 → t.m.mem = s.m.mem ∧ ∀ k h, Tbl.get none s.m.hostLines k = some h →
          ∃ half, Tbl.get none t.m.hostLines k = some { h with half := half } ∧ ∀ p, t.hostPath (k * 64) = .port p → half = p)
      let lost (t : State) : Prop := t.linkState link = 0 ∧ moved t
        ∧ t.p.transfers = s.p.transfers.map (fun y => if y.ch = 66 + link ∧ y.done = none then { y with done := some false } else y)
      (link < 2 →
        (s.linkState link = 0 → ∃ t, exec (.hlctlTrain link) s = .next t ∧ t.linkState link = 1 ∧ (t.linkS link).fails = 0 ∧ same t)
        ∧ (s.linkState link = 2 → ∃ t, exec (.hlctlTrain link) s = .next t ∧ t.linkState link = 3
          ∧ (t.linkS link).target = min 2 (s.regF (hlctlReg link) 1 0) ∧ same t)
        ∧ (s.linkState link = 1 ∨ s.linkState link = 3 → exec (.hlctlTrain link) s = .next s)
        ∧ (s.linkState link = 2 → ∃ t, exec (.flitCrcError link) s = .next t ∧ same t
          ∧ t.regF (linkReg link) 47 32 = min 0xFFFF (s.regF (linkReg link) 47 32 + 1)))
      ∧ (∀ r : StepResult, r.link = link → s.linkState link = 1 → s.phase ≠ 4 → s.phase ≠ 5 →
        (r.ok = true → ∃ t, exec (.trainingComplete r) s = .next t ∧ t.linkState link = 2 ∧ (if link < 2 then moved t else same t)
          ∧ (link < 2 → t.regF (linkReg link) 3 2 = min r.rate (min 2 (s.regF (hlctlReg link) 1 0))))
        ∧ (r.ok = false → ∃ t, exec (.trainingComplete r) s = .next t ∧ (t.linkS link).fails = (s.linkS link).fails + 1
          ∧ if (s.linkS link).fails < 2 then t.linkState link = 1 ∧ same t else lost t))
      ∧ (s.linkState link = 2 → (∃ t, exec (.lossOfLock link) s = .next t ∧ lost t)
        ∧ ∀ a b : Nat, ∃ t, exec (.retrainRequest link (some a) (some b)) s = .next t ∧ t.linkState link = 3
          ∧ (t.linkS link).target = min 2 (min a b) ∧ same t
          ∧ t.regF (linkReg link) 55 48 = min 255 (s.regF (linkReg link) 55 48 + 1))
      ∧ (s.linkState link = 3 → (∃ t, exec (.retrainComplete link false) s = .next t ∧ lost t)
        ∧ ((s.linkS link).target ≤ 2 → ∃ t, exec (.retrainComplete link true) s = .next t ∧ t.linkState link = 2 ∧ moved t
          ∧ t.p.transfers = s.p.transfers.filter (fun y => !(y.ch = 66 + link && y.done.isNone))
          ∧ (link < 2 → t.regF (linkReg link) 3 2 = (s.linkS link).target
            ∧ t.regF (linkReg link) 31 16 = min 0xFFFF (s.regF (linkReg link) 31 16 + 1)))))
    ∧ ∀ a, s.accs = [a] → a.onLink link = true → a.hasResult = true →
      let down (t : State) : Prop := t.linkState link = 0 ∧ t.accs = [{ a with phase := .failed 0x31 a.va, back := none }]
      (s.linkState link = 2 → ∃ t, exec (.lossOfLock link) s = .next t ∧ down t)
      ∧ (s.linkState link = 3 → ∃ t, exec (.retrainComplete link false) s = .next t ∧ down t)

/-- The host: outside MINIMAL and over a port that serves its unit, a snoop of a modified host line sends its data, SNPDATA writes
them to host memory and keeps the line clean, SNPINV drops the line, SNPCUR leaves it; in MINIMAL, CXL.io only, and with no such
port, none is answered. With a port UP and the bank open, a CXL.mem read answers the 64 bytes of device DRAM, the pattern where the
frame is ELIDED, which needs no bank, and a write changes exactly the bytes of its mask; while the bank is not open the request
waits in the bank's order; a refused request is answered with an error and changes nothing; enumeration reports the host's AtomicOp
support over a port that is UP (R156, R163, R203, R216, R275, R315, R316, R325). -/
def Obligations.HostRequests : Prop :=
  ∀ (s : State) (pa : Nat),
    let k := hostLineOf (snoopPa pa)
    let line := pa / 64 * 64
    (s.minimal = true ∨ (∀ p, s.hostPath (snoopPa pa) ≠ .port p) → exec (.snpdata pa) s = .next s ∧ exec (.snpinv pa) s = .next s ∧ exec (.snpcur pa) s = .next s)
    ∧ (∀ h p, s.minimal = false → s.hostPath (snoopPa pa) = .port p → Tbl.get none s.m.hostLines k = some h → h.dirty = true →
      let tells (t : State) : Prop := t.p = { s.p with out := s.p.out ++ [.snoop (snoopPa pa) (some h.data)] } ∧ t.accs = s.accs
      (∃ t, exec (.snpdata pa) s = .next t ∧ tells t ∧ Tbl.get none t.m.hostLines k = some { h with dirty := false }
        ∧ ∀ x, t.memByte x = if k * 64 ≤ x ∧ x < k * 64 + 64 then h.data.extractLsb' (8 * (x - k * 64)) 8 else s.memByte x)
      ∧ (∃ t, exec (.snpinv pa) s = .next t ∧ tells t ∧ Tbl.get none t.m.hostLines k = none
        ∧ ∀ x, x < k * 64 ∨ k * 64 + 64 ≤ x → t.memByte x = s.memByte x)
      ∧ ∃ t, exec (.snpcur pa) s = .next t ∧ tells t ∧ t.m = s.m)
    ∧ (s.portState 0 = 2 ∨ s.portState 1 = 2 → s.isReady = true →
      (region line = 0 → s.homeRefusal line true = none → s.elidedAt line = true ∨ s.bankOpen line (.input line) = true →
        ∃ t, ∃ d : BitVec 512, exec (.m2sReq pa) s = .next t ∧ t.m = s.m ∧ t.accs = s.accs
          ∧ t.p = { s.p with inputs := s.p.inputs.filter (fun e => e.1 != .m2sReq pa), out := s.p.out ++ [.memData line (some d)] }
          ∧ ∀ i, i < 64 → d.extractLsb' (8 * i) 8 = s.viewByte (line + i)
            ∧ (s.elidedAt line = false → d.extractLsb' (8 * i) 8 = s.memByte (line + i)))
      ∧ (region line = 0 → s.homeRefusal line false = none → s.bankOpen line (.input line) = true → ∀ (data : BitVec 512) (mask : BitVec 64),
        ∃ t, exec (.m2sRwd pa data mask) s = .next t ∧ t.accs = s.accs
          ∧ t.p = { s.p with inputs := s.p.inputs.filter (fun e => e.1 != .m2sRwd pa data mask), out := s.p.out ++ [.memDone line true] }
          ∧ ∀ x, t.memByte x = if line ≤ x ∧ x < line + 64 ∧ mask.getLsbD (x - line) = true
            then data.extractLsb' (8 * (x - line)) 8 else s.memByte x)
      ∧ (region line ≠ 0 ∨ (s.homeRefusal line true).isSome = true → exec (.m2sReq pa) s =
        .next ((s.inputDone (.m2sReq pa)).send (.memData line none)))
      ∧ (region line = 0 → s.bankOpen line (.input line) = false →
        (s.homeRefusal line true = none → s.elidedAt line = false →
          exec (.m2sReq pa) s = .next ((s.again (.m2sReq pa) (.input line)).bankWait line (.input line)))
        ∧ ∀ (data : BitVec 512) (mask : BitVec 64), s.homeRefusal line false = none →
          exec (.m2sRwd pa data mask) s = .next ((s.again (.m2sRwd pa data mask) (.input line)).bankWait line (.input line)))
      ∧ ∀ (data : BitVec 512) (mask : BitVec 64), region line ≠ 0 ∨ (s.homeRefusal line false).isSome = true →
        exec (.m2sRwd pa data mask) s = .next ((s.inputDone (.m2sRwd pa data mask)).send (.memDone line false)))
    ∧ ∀ b : Bool,
      (s.portState 0 = 2 ∨ s.portState 1 = 2 →
        exec (.configurationRequest b) s = .next ({ s with p := { s.p with atomicOps := b } }.send (.config [])))
      ∧ (s.portState 0 ≠ 2 → s.portState 1 ≠ 2 → exec (.configurationRequest b) s = .next s)

/-! ### The slot fabric -/

/-- Slots of a port, outside MINIMAL: within 40 ns of the beacon, its latest correction applied, the port goes to the next slot,
resets the count of misses and sends what waits for its circuit; beyond, it misses the slot, reports its offset, and freezes at
the third miss in a row; this module as the crier carries the negation of an offset in its next beacon to the port (R228, R319,
R320). Schedules and the election: a schedule of a crier that does not rank behind is kept and takes effect at the frame
boundary, where a port that the guard froze and that stayed within it for a frame unfreezes, and where the crier may publish a
schedule with a successor list of at most 8; 4 slots without a beacon freeze every port and begin the election; a successor
whose wait ends claims and publishes on every port unless a better claim was seen; without a claim NOCRIER is set; the claim of
the lowest rank stands and ends the election (R319 to R321). That the crier detects no loss, that CRIER is 0xFFFF from the loss to a
claim, that RANK 0xFFFF is no rank, and that a module that is no successor ends its election, are log entry 75; that a correction replaces the one before is log entry 105, what
the crier's schedule holds and when it is published log entry 104. -/
def Obligations.SlotFabric : Prop :=
  (
    ∀ (s : State) (n : Nat) (off : Int), n < 16 → s.minimal = false →
      let x := s.port n
      let applied := x.arriving.getLast?.getD x.applied
      let seen := off + applied
      let stat := sfstatReg n
      let out := if s.isCrier then s.p.out ++ [.beacon n x.owed] else s.p.out
      let circuit := (x.sched.getD x.slot none).map (fun e => e.1)
      let told (t : State) : Prop := t.m = s.m ∧ (t.port n).slot = (x.slot + 1) % 64 ∧ (t.port n).applied = applied
        ∧ (t.port n).arriving = [] ∧ (t.port n).asked = x.asked ++ x.fresh ∧ (t.port n).sched = x.sched
        ∧ (s.isCrier = true → (t.port n).owed = [])
      (seen.natAbs ≤ 40 → ∃ t, exec (.slotStart n off) s = .next t ∧ told t ∧ (t.port n).here = circuit ∧ (t.port n).fresh = []
        ∧ t.regF stat 17 16 = 0
        ∧ (circuit = none → t.accs = s.accs ∧ t.p.out = out)
        ∧ ∀ peer, circuit = some peer → s.linkState (2 + n) = 2 →
          (s.accs = [] → t.accs = [] ∧ t.p.fabric = s.p.fabric.filter (fun e => e.1 != peer)
            ∧ t.p.out = out ++ (s.p.fabric.filter (fun e => e.1 == peer)).map (fun e => e.2))
          ∧ ∀ a, s.accs = [a] → s.p.fabric = [] → a.kind.isCell = true → a.phase = .ready → s.remoteCell a = true → a.modid = peer →
            s.free? a = true → ∃ k, k < 16 ∧ t.accs = [{ a with phase := .sent, link := k + 3 }]
              ∧ t.p.out = out ++ [.remoteCell a.modid a.kind a.pa a.data])
      ∧ (40 < seen.natAbs → ∃ t, exec (.slotStart n off) s = .next t ∧ told t ∧ t.accs = s.accs ∧ (t.port n).here = none
        ∧ t.regF stat 17 16 = min 3 (s.regF stat 17 16 + 1)
        ∧ t.regF stat 15 8 = min 255 (s.regF stat 15 8 + 1)
        ∧ (s.regF stat 17 16 ≥ 2 → t.regF stat 2 2 = 1)
        ∧ (t.port n).fresh = [off] ∧ t.p.out = out ++ [.beaconRequest n seen])
      ∧ (∀ o rest, x.asked = o :: rest →
        exec (.resyncRequest n none) s = .next (s.setPort n { x with asked := rest, arriving := x.arriving ++ [-o] }))
      ∧ exec (.resyncRequest n (some off)) s = .next (if s.isCrier then s.setPort n { x with owed := x.owed ++ [-off] } else s))
  ∧ (
    ∀ (s : State), s.minimal = false →
      let rank := s.regF sfctlReg 15 0
      let crier := s.regF sfctlReg 31 16
      let begun := s.regF sfctlReg 33 33
      let others (t : State) : Prop := t.accs = s.accs ∧ t.m = s.m ∧ t.lots = s.lots
      let published (m : OutMsg) : Prop := ∃ n es succ, m = .schedule n es succ ∧ es.length = 64 ∧ succ.length ≤ 8 ∧ rank ∉ succ
      (∀ n c (es : List SlotEntry) (next : List Nat), n < 16 → begun = 0 → c ≤ crier → (s.port n).guardFrozen = false →
        ∃ t, exec (.scheduleReceived n c es next) s = .next t ∧ (t.port n).received = some (es.take 64)
          ∧ (t.port n).sched = (s.port n).sched ∧ t.p.plat.successors = next.take 8 ∧ t.regF sfctlReg 31 16 = c ∧ t.regF sfctlReg 32 32 = 0 ∧ others t)
      ∧ (∀ n, n < 16 → ∃ t, exec (.frameBoundary n) s = .next t ∧ others t ∧ (t.port n).slot = 0 ∧ (t.port n).cleanFrame = true
        ∧ (t.port n).guardFrozen = ((s.port n).guardFrozen && !((s.port n).cleanFrame && s.regF sfctlReg 32 32 == 0 && begun == 0))
        ∧ t.regF (sfstatReg n) 2 2 = ((t.port n).guardFrozen || (t.port n).election).toNat
        ∧ (t.p.out = s.p.out ∨ (s.isCrier = true ∧ ∃ m, t.p.out = s.p.out ++ [m] ∧ published m))
        ∧ ∀ sched, (s.port n).received = some sched → (t.port n).guardFrozen = false →
          (t.port n).sched = sched ∧ (s.isCrier = false → (t.port n).received = none) ∧ (t.port n).election = false)
      ∧ (begun = 0 → rank ≠ crier ∨ rank = 0xFFFF → ∃ t, exec .beaconLoss s = .next t ∧ others t ∧ t.regF sfctlReg 33 33 = 1
        ∧ t.regF sfctlReg 31 16 = 0xFFFF ∧ t.p.plat.waiting = s.p.plat.successors.contains rank ∧ t.p.plat.claimSeen = none
        ∧ ∀ n, n < 16 → (t.port n).election = true ∧ (t.port n).received = none ∧ t.regF (sfstatReg n) 2 2 = 1)
      ∧ (s.p.plat.waiting = true →
        (s.p.plat.claimSeen = none → ∃ t more, exec .successorClaim s = .next t ∧ others t ∧ t.p.plat.waiting = false
          ∧ t.p.out = s.p.out ++ .claim rank :: more ∧ more.length = 16 ∧ (∀ m ∈ more, published m)
          ∧ t.regF sfctlReg 31 16 = rank ∧ t.regF sfctlReg 33 33 = 0)
        ∧ ∀ r, s.p.plat.claimSeen = some r → r < rank →
          exec .successorClaim s = .next { s with p := { s.p with plat := { s.p.plat with waiting := false } } })
      ∧ (s.p.plat.waiting = false → begun = 1 → s.p.plat.claimSeen = none → ∃ t, exec .successorClaim s = .next t ∧ others t
        ∧ t.regF sfctlReg 32 32 = 1 ∧ t.regF sfctlReg 33 33 = 0)
      ∧ ∀ r, r < 65536 → begun = 1 ∨ s.regF sfctlReg 32 32 = 1 ∨ r < crier →
        ∃ t, exec (.claimReceived r) s = .next t ∧ others t ∧ t.regF sfctlReg 31 16 = r
          ∧ t.regF sfctlReg 33 33 = 0 ∧ t.regF sfctlReg 32 32 = 0
          ∧ t.p.plat.claimSeen = some (match s.p.plat.claimSeen with | some q => min q r | none => r))

/-! ### The Market Master -/

/-- The start: a reset with a good ROM and an image that is not below the rollback fuse reaches step 3 where the image
verifies, every register at its reset value but those that are kept, with no lot and no launch, and counts a failed attempt
of reason 0x02 where it does not; warmth, the DRAM training and the planes each bring the next step, and the first host link
that comes UP, or one that was UP already, brings READY; a step that fails, that leaves fewer than 48 dies, or that leaves no
port counts an attempt with its reason, and three of them bring MINIMAL, which RETRY leaves (R9, R324, R325, R331). Which state
a reset keeps is log entry 38. -/
def Obligations.Start : Prop :=
  ∀ (s : State) (b : BootInfo), b.romOk = true → s.p.plat.rollback ≤ b.version →
    let attempt (t : State) : Nat := t.regF startstatReg 5 4
    let begun (t : State) (n : Nat) (good : Prop) : Prop :=
      if Config.verify b.image = true then good
      else t.phase = 0 ∧ t.regF startstatReg 15 8 = 2 ∧ attempt t = min 3 (n + 1) ∧ t.lots = []
    let empty (t : State) : Prop := t.lots = [] ∧ t.accs = [] ∧ t.w.launches = [] ∧ t.running = [] ∧ t.p.retmap = s.p.retmap
      ∧ t.p.plat.version = b.version ∧ t.p.plat.firmware = b.image
    let keeps (t : State) : Prop := t.lots = s.lots ∧ t.accs = s.accs ∧ t.m = s.m
    let clean (r : StepResult) : Prop := r.faultyDies = [] ∧ r.faultyVaults = [] ∧ r.faultyChannels = [] ∧ r.lostWl = []
    let failed (t : State) (code : Nat) : Prop := t.phase = 0 ∧ t.regF startstatReg 15 8 = code ∧ attempt t = min 3 (attempt s + 1)
      ∧ t.lots = [] ∧ t.accs = []
    (∃ t, exec (.powerOn b) s = .next t ∧ (∀ pa, pa ≠ startstatReg → t.reg pa = regReset pa)
      ∧ (∀ pa, t.memByte pa = if region pa = 2 then s.memByte pa else Memory.unlisted)
      ∧ begun t 0 (t.phase = 3 ∧ empty t ∧ attempt t = 0))
    ∧ (attempt s ≠ 3 → ∃ t, exec (.warmReset b) s = .next t ∧ (∀ pa, pa ≠ startstatReg → t.reg pa = regReset pa)
      ∧ (∀ pa, t.memByte pa = s.memByte pa) ∧ begun t (attempt s) (t.phase = 3 ∧ empty t ∧ attempt t = attempt s))
    ∧ (∃ t, exec .powerFailure s = .next t ∧ t.phase = 0 ∧ attempt t = 0 ∧ t.lots = [] ∧ t.accs = [] ∧ t.p.retmap = s.p.retmap)
    ∧ (s.phase = 3 →
      (∀ e : WarmEnd, (∀ x ∈ e.temps, -10 ≤ x) → e.found.ok = true → clean e.found → s.lots = [] →
        (48 ≤ s.diesInService → ∃ t, exec (.warmingComplete e) s = .next t ∧ t.phase = 4 ∧ keeps t
          ∧ ∀ pa, pa ≠ startstatReg → t.reg pa = s.reg pa)
        ∧ (s.diesInService < 48 → ∃ t, exec (.warmingComplete e) s = .next t ∧ failed t 8))
      ∧ (attempt s < 2 → ∃ t, exec (.warmingTimeout b) s = .next t
        ∧ begun t (attempt s + 1) (t.phase = 3 ∧ attempt t = attempt s + 1 ∧ t.regF startstatReg 15 8 = 4))
      ∧ (2 ≤ attempt s → ∃ t, exec (.warmingTimeout b) s = .next t
        ∧ begun t 3 (t.phase = 8 ∧ t.linkState 0 = 1 ∧ t.linkState 1 = 1)))
    ∧ (s.phase = 8 → ∃ t, exec (.startctlRetry b) s = .next t ∧ begun t 0 (t.phase = 3 ∧ keeps t ∧ attempt t = 0))
    ∧ ∀ r : StepResult, clean r → s.lots = [] →
      (s.phase = 4 → ∃ t, exec (.trainingComplete r) s = .next t
        ∧ if r.ok = false then failed t 5 else if s.diesInService < 48 then failed t 8 else t.phase = 5 ∧ keeps t)
      ∧ (s.phase = 5 → ∃ t, exec (.trainingComplete r) s = .next t
        ∧ if r.ok = false ∨ s.someDown = true then failed t 6 else if s.diesInService < 48 then failed t 8
          else keeps t ∧ (s.linkState 0 = 2 ∨ s.linkState 1 = 2 → t.isReady = true)
            ∧ ((∀ l, l < 18 → s.linkState l = 0) → t.phase = 6 ∧ ∀ l, l < 18 → t.linkState l = 1))
      ∧ (s.phase = 6 → r.link < 2 → s.linkState r.link = 1 →
        (r.ok = true → ∃ t, exec (.trainingComplete r) s = .next t ∧ t.isReady = true ∧ t.lots = s.lots ∧ t.accs = s.accs
          ∧ (s.m.hostLines = [] → t.m = s.m) ∧ attempt t = 0 ∧ t.p.plat.rollback = max s.p.plat.rollback s.p.plat.version)
        ∧ (r.ok = false → 2 ≤ (s.linkS r.link).fails → s.linkState (1 - r.link) = 0 →
          ∃ t, exec (.trainingComplete r) s = .next t ∧ failed t 7))

/-- Power and clocks: LIMIT takes what is written; a round grants no more than each demand and no more in all than LIMIT leaves
above FLOOR, every demand where they fit, dies of a higher priority first and in proportion among equals; it gives each die
its ceiling, 600 MHz at FLOOR, lowers FREQ to it, counts the round and ends HOLD; after a missed heartbeat grants are held by
the standby, and after 1 ms of HOLD every ceiling is 600 MHz; the margin monitor sets FREQ in steps of 25 MHz below the
ceiling; a droop stretches cycles (R323, R326, R327, R329, R330; how many cycles is free, log entry 6; the units of demand,
stacks after dies, and the ceiling of a grant are log entry 106). Live retraining takes one slice at a time; a slice that retrains
well serves again, and one that fails is a lost wavelength, a retired channel or a lost home channel; each end is counted
(R328). What a failed retrain takes out of service is log entry 77, that grants are given again from the next round is log entry 78,
and that a round carries the demands is log entry 79. -/
def Obligations.PowerAndRetraining : Prop :=
  (
    ∀ (s : State),
      let limit := s.regF pwrctlReg 15 0
      let floor := s.regF pwrctlReg 48 33
      let inForce := max floor (if limit = 0 ∨ 14000 < limit then 14000 else limit)
      let keeps (t : State) : Prop := t.lots = s.lots ∧ t.accs = s.accs ∧ t.m = s.m
      let capped (t : State) (d cap : Nat) : Prop := t.regF (clkstatReg d) 23 12 = cap
        ∧ t.regF (clkstatReg d) 11 0 = min (s.regF (clkstatReg d) 11 0) (max 600 (min 2100 cap / 25 * 25))
      (∀ v : BitVec 16, ∃ t, exec (.pwrctlLimitWrite v) s = .next t ∧ keeps t ∧ t.regF pwrctlReg 15 0 = v.toNat
        ∧ t.regF pwrctlReg 63 16 = s.regF pwrctlReg 63 16 ∧ ∀ pa, pa ≠ pwrctlReg → t.reg pa = s.reg pa)
      ∧ (∀ demands : List Nat, s.isReady = true →
        let dem (x : Nat) : Nat := demands.getD x 0
        ∃ t, exec (.auctionRound demands) s = .next t ∧ keeps t ∧ t.regF pwrctlReg 32 32 = 0
          ∧ t.regF pwrctlReg 31 16 = (s.regF pwrctlReg 31 16 + 1) % 65536 ∧ t.p.plat.atFloor = decide (inForce ≤ floor)
          ∧ (let g (x : Nat) : Nat := t.p.plat.grants.getD x 0
            t.p.plat.grants.length = 96 ∧ t.p.plat.grants.sum ≤ inForce - floor ∧ (∀ x, g x ≤ dem x)
            ∧ (((List.range 96).map dem).sum ≤ inForce - floor → ∀ x, x < 96 → g x = dem x)
            ∧ (∀ d e, d < 64 → e < 64 → s.diePrio d < s.diePrio e → 0 < g e → g d = dem d)
            ∧ (∀ d k, d < 64 → k < 32 → 0 < g (64 + k) → g d = dem d)
            ∧ (∀ p, ∃ left, ∀ d, d < 64 → s.diePrio d = p → g d =
              let all := (((List.range 64).filter (fun d => s.diePrio d == p)).map dem).sum
              if all ≤ left then dem d else dem d * left / all)
            ∧ (∀ k, k ∈ t.p.plat.starved ↔ k < 32 ∧ g (64 + k) = 0 ∧ dem (64 + k) ≠ 0)
            ∧ ∀ d, d < 64 → capped t d (if inForce ≤ floor then 600 else max 600 (min 2100 (Config.capOf (g d))))))
      ∧ (∀ b, s.p.plat.standby = false → s.phase = 7 → ∃ t, exec (.heartbeatMiss b) s = .next t ∧ keeps t ∧ t.p.plat.standby = true ∧ t.p.plat.grants = s.p.plat.grants
        ∧ t.regF pwrctlReg 32 32 = 1 ∧ ∀ pa, pa ≠ pwrctlReg → t.reg pa = s.reg pa)
      ∧ (s.regF pwrctlReg 32 32 = 1 → ∃ t, exec .holdTimeout s = .next t ∧ keeps t ∧ ∀ d, d < 64 → capped t d 600)
      ∧ (∀ die margin, die < 64 → s.minimal = false → ∃ t, exec (.clockRetune die margin) s = .next t ∧ keeps t
        ∧ t.regF (clkstatReg die) 11 0 = max 600 (min 2100 (min margin (s.regF (clkstatReg die) 23 12)) / 25 * 25)
        ∧ t.regF (clkstatReg die) 55 40 = min 0xFFFF (s.regF (clkstatReg die) 55 40 + 1)
        ∧ ∀ pa, pa ≠ clkstatReg die → t.reg pa = s.reg pa)
      ∧ ∀ core, core < 1024 → s.minimal = false → ∃ t, exec (.supplyDroop core) s = .next t ∧ keeps t
        ∧ (s.regF (clkstatReg (core / 16)) 39 24 < 0xFFFF →
          s.regF (clkstatReg (core / 16)) 39 24 < t.regF (clkstatReg (core / 16)) 39 24)
        ∧ ∀ pa, pa ≠ clkstatReg (core / 16) → t.reg pa = s.reg pa)
  ∧ (
    ∀ (s : State) (x : Slice),
      let keeps (t : State) : Prop := t.lots = s.lots ∧ t.accs = s.accs ∧ t.m = s.m
      (s.minimal = false → s.p.plat.retraining = [] → s.sliceOk x = true → ∃ t, exec (.sliceRetrain x) s = .next t ∧ keeps t ∧ t.p.plat.retraining = [x])
      ∧ (s.minimal = true ∨ s.p.plat.retraining ≠ [] → exec (.sliceRetrain x) s = .next s)
      ∧ (s.p.plat.retraining = [x] →
        (∃ t, exec (.sliceRetrainComplete x true) s = .next t ∧ keeps t ∧ t.p.plat.retraining = []
          ∧ t.regF rtctlReg 23 8 = min 0xFFFF (s.regF rtctlReg 23 8 + 1)
          ∧ ∀ d k dir w, x = .wavelength d k dir w → t.wlDown d k dir w = false)
        ∧ ∃ t, exec (.sliceRetrainComplete x false) s = .next t ∧ t.p.plat.retraining = []
          ∧ t.regF rtctlReg 31 24 = min 255 (s.regF rtctlReg 31 24 + 1)
          ∧ (∀ d k dir w, x = .wavelength d k dir w → d < 64 → k < 32 → w < 2 → t.wlDown d k dir w = true ∧ keeps t)
          ∧ (∀ k c, x = .channel k c → k < 32 → c < 16 → t.channelRetired k c = true ∧ t.accs = s.accs ∧ t.m = s.m)
          ∧ ∀ c, x = .home c → Tbl.get false t.p.homeLost c = true ∧ (s.p.packets = [] → s.accs = [] → keeps t)))

/-- The SPDM responder answers version, capabilities, algorithms in their order, then digests, parts of the certificate
chain, challenges and measurements, signed under the device key; the algorithms it selects are among those the request
offers, SHA-384 and the extended algorithm of R331's signatures; a request out of order is answered by an error. Nothing but
the exchange's own state changes (R331, R334; the message layout is PRESUMED, log entry 39, and digest, signature, chain and
the extended algorithm's number are open constants, log entry 11). -/
def Obligations.Attestation : Prop :=
  ∀ (s : State) (req : List Byte),
    let head (code p1 p2 : Nat) : List Byte := [0x13, BitVec.ofNat 8 code, BitVec.ofNat 8 p1, BitVec.ofNat 8 p2]
    let answers (i : Instr) (ph : SpdmPhase) (out : List Byte → Prop) : Prop :=
      ∃ t m, exec i s = .next t ∧ out m ∧ t = { s with free := t.free, p := { s.p with spdm := ph, out := s.p.out ++ [.spdm m] } }
    let error (i : Instr) : Prop := answers i s.p.spdm (fun m => m = head 0x7F 4 0)
    let offered (byte k : Nat) : Bool := (req.getD byte 0).getLsbD k
    let part := (Config.certChain.drop (ofBytes ((req.drop 4).take 2))).take (ofBytes ((req.drop 6).take 2))
    answers (.getVersion req) .version (fun m => m = head 4 0 0 ++ [0, 1, 0x00, 0x13])
    ∧ (s.p.spdm = .version → answers (.getCapabilities req) .capabilities (fun m => m = head 0x61 0 0 ++ [0, 0, 0, 0, 0x16, 0, 0, 0]))
    ∧ (s.p.spdm ≠ .version → error (.getCapabilities req))
    ∧ (s.p.spdm = .capabilities → answers (.negotiateAlgorithms req) .algorithms (fun m => ∃ ext : List Byte,
        m = head 0x63 0 0 ++ ([BitVec.ofNat 8 (36 + ext.length), 0, 1, 0, 4, 0, 0, 0, 0, 0, 0, 0, if offered 12 1 then 2 else 0, 0, 0, 0]
          ++ List.replicate 12 0 ++ [BitVec.ofNat 8 (ext.length / 4), 0, 0, 0] ++ ext)
        ∧ ((∃ i, i < (req.getD 28 0).toNat ∧ ofBytes ((req.drop (32 + 4 * i)).take 4) = Config.extAlg.toNat) → ext = toBytes Config.extAlg.toNat 4)
        ∧ ((∀ i, i < (req.getD 28 0).toNat → ofBytes ((req.drop (32 + 4 * i)).take 4) ≠ Config.extAlg.toNat) → ext = [])))
    ∧ (s.p.spdm ≠ .capabilities → error (.negotiateAlgorithms req))
    ∧ (s.p.spdm = .algorithms →
      answers (.getDigests req) .algorithms (fun m => m = head 1 0 1 ++ Config.digest Config.certChain)
      ∧ answers (.getCertificate req) .algorithms (fun m => ∃ rest : List Byte, m = head 2 0 0 ++ toBytes part.length 2 ++ rest ++ part
          ∧ rest.length = 2)
      ∧ answers (.challenge req) .algorithms (fun m => ∃ n body : List Byte, n.length = 32
          ∧ body = head 3 0 1 ++ (Config.digest Config.certChain ++ n ++ Config.digest s.measurements) ∧ m = body ++ Config.sign (req ++ body))
      ∧ answers (.getMeasurements req) .algorithms (fun m => ∃ n body : List Byte, n.length = 32
          ∧ body = head 0x60 0 0 ++ ([4] ++ s.measurements ++ n)
          ∧ m = if bit (ofBytes ((req.drop 2).take 1)) 0 then body ++ Config.sign (req ++ body) else body))
    ∧ (s.p.spdm ≠ .algorithms → error (.getDigests req) ∧ error (.getCertificate req) ∧ error (.challenge req) ∧ error (.getMeasurements req))

/-! ### The machine as a whole -/

/-- A turn of a free issue slot selects READY threads of the gang in turn at their lowest PC, when none is aged, and starts
a run of them at that header; a turn of the scalar pipeline gives it to the next ready barker; CLAUSE_START, while no walk,
line or bank holds up its fetch, fetches a clause that passes its checks, and its words wait to be executed; a READY thread may age (R66, R70 to R73, R77, R79, R80, R86,
R119). -/
def Obligations.Issue : Prop :=
  (∀ (s : State) (c slot b k : Nat) (l : Lot),
    let g := slot + 4 * (Tbl.get 0 (s.core c).slotRR slot % 4)
    slot < 4 → s.issuer? (unitOf c slot) = none → (s.core c).halted = false → s.gangOwner c g = some (b, k, l) → l.saving = false →
    l.ending = false → Tbl.get [] (s.core c).batches g = [] → l.readyOf k ≠ [] →
    (∀ a ∈ l.readyOf k, (l.thr a).aged = false ∧ (l.thr a).dbgPend = false) →
    ∃ t i l', exec (.issueTurn c slot) s = .next t ∧ t.issuer? (unitOf c slot) = some i ∧ t.active = unitOf c slot ∧ i.core = c ∧ i.bctx = b
      ∧ i.fetched = false ∧ i.agents ≠ [] ∧ i.runWords = 0 ∧ t.lot? c b = some l'
      ∧ (∀ a ∈ i.agents, a ∈ l.readyOf k ∧ (l.thr a).pc = i.hdr ∧ (l'.thr a).st = .issuing)
      ∧ ∀ a ∈ l.readyOf k, i.hdr.toNat ≤ (l.thr a).pc.toNat)
  ∧ (∀ (s : State) (c : Nat) (l : Lot),
    let b := (s.core c).pipeRR % 4
    s.issuer? (unitOf c 4) = none → (s.core c).halted = false → s.lot? c b = some l → l.d.bk = true → l.saving = false → l.ending = false →
    (l.thr Agent.barker).st = .ready → (l.thr Agent.barker).dbgPend = false →
    ∃ t i l', exec (.barkerTurn c) s = .next t ∧ t.issuer? (unitOf c 4) = some i ∧ i.agents = [Agent.barker] ∧ i.bctx = b
      ∧ i.hdr = (l.thr Agent.barker).pc ∧ i.fetched = false ∧ t.lot? c b = some l' ∧ (l'.thr Agent.barker).st = .issuing)
  ∧ (∀ (s s1 s2 : State) (u : Nat) (i : Issuer) (l : Lot) (h : Word) (fs : List Fetched),
    let ws := fs.map (fun f => f.word)
    let need := clauseNeeds h ws
    s.issuer? u = some i → i.fetched = false → s.unitHeld u i = false → s.lot? i.core i.bctx = some l → i.agents ≠ [] →
    (∀ a ∈ i.agents, (l.thr a).stop = none ∧ a.isBarker = false) →
    ({ s with active := u } : State).fetchWord i.core l.ctx i.hdr.toNat = (.ok h, s1) → headerFault h false = none →
    i.runWords + hdrCount h ≤ 24 → s1.fetchWords i.core l.ctx ((i.hdr.toNat + 4) % 2 ^ 80) (hdrCount h) = (fs, s2) →
    let s3 := s2.unitServed u i
    wordsFault h fs 0 16 = none → s2.lot? i.core i.bctx = some l → s2.issuer? u = some i → s2.active = u →
    (∀ a ∈ i.agents, (l.warp a.w).admits need (8 - s3.logsUsed i.core i.bctx a.w) = true) →
    s3.entriesUsed i.core + i.agents.length * need.entries ≤ 3072 →
    ∃ t, exec (.clauseStart u) s = .next t ∧ t = { s3 with running := t.running }
      ∧ t.issuer? u = some { i with
          next := i.hdr + 4 + BitVec.ofNat 80 (4 * hdrCount h), fetched := true, words := ws, index := 0, rb := hdrRB h,
          runWords := i.runWords + hdrCount h, reserved := i.agents.length * need.entries, yielded := false }
      ∧ ∀ x, x ≠ u → t.issuer? x = s3.issuer? x)
  ∧ ∀ (s : State) (t : LaneId) (l : Lot), s.lot? t.core t.bctx = some l →
    let a := laneAgent t
    a.isBarker = false → (l.thr a).st = .ready → (l.thr a).aged = false →
    (∀ x ∈ l.gangAgents (a.w / 4), (l.thr x).st = .ready → (l.thr x).seq < (l.thr a).seq → (l.thr x).aged = true) →
    exec (.threadAged t) s = .next (s.setLot t.core t.bctx (l.setThr a { l.thr a with aged := true }))

/-- A step of a unit that holds a clause executes the instruction that the next words of the clause decode to, with those
words consumed; a step of a running booth executes the micro-op at its PC; a step whose move is an event is that event (R73,
R80, R119, R271; the schedule is log entry 2). -/
def Obligations.StepRunsDecoded : Prop :=
  (∀ (s : State) (u n : Nat) (rest : List Move) (i : Issuer) (x : Instr), s.agenda = .unit u :: rest → s.issuer? u = some i →
    i.fetched = true → decode i.words = .ok (x, n) →
    step s = exec x { s with
      agenda := rest, active := u,
      running := Tbl.put none s.running u (some { i with words := i.words.drop n, index := i.index + n }) })
  ∧ (∀ (s : State) (k : Nat) (rest : List Move) (x : Instr), s.agenda = .booth k :: rest → (s.booth k).st = .running →
    (s.booth k).refreshing = false → (s.booth k).segCount < 64 → decodeMicro (Tbl.get 0 (s.booth k).prog (s.booth k).pc.toNat) = some x →
    step s = exec x { s with agenda := rest, actBank := k, active := 5120 + k })
  ∧ ∀ (s : State) (x : Instr) (rest : List Move), s.agenda = .event x :: rest → step s = exec x { s with agenda := rest }

/-- Words written out in the spec decode to the instructions that they stand for (R343, R348, R358, R359, R364, R383, R391,
R393, R404, R406, R414, R450). -/
def Obligations.DecodedWords : Prop :=
  decode [0x7C100000] = .ok (.nop 0, 1)
  ∧ decode [0x7C180012] = .ok (.bkpt 0 0x12, 1)
  ∧ decode [0xD4314000] = .ok (.clock 0 10, 1)
  ∧ decode [0x30030800] = .ok (.mov ⟨0, 3, 4, 0, none⟩, 1)
  ∧ decode [0x30030003, 0x000800A0, 0x12345678] = .ok (.mov ⟨0, 3, 0, 0, some ⟨.b32, 0, 0, some 0x12345678, 0⟩⟩, 3)
  ∧ decode [0xB4300005] = .ok (.claim 0 5, 1)
  ∧ decode [0x80141095, 0x40] = .ok (.ldDisp ⟨0, 20, 8, .v, 0, .b64⟩ (.d32 0x40), 2)
  ∧ decode [0xD4104120] = .ok (.launchW 0 2 4, 1)
  ∧ decode [0x04040C23, 0x30] = .ok (.iadd ⟨0, 4, 6, 8, some ⟨.i64, 0, 0, none, 0⟩⟩, 2)
  ∧ decode [0x7C385000] = .ok (.dqpush 0 5, 1)
  ∧ decode [0x90098400] = .ok (.barSync ⟨0, 3, false, 8⟩, 1)
  ∧ decode [0x1C030803, 0x000800A2, 0xFF] = .ok (.xor ⟨0, 3, 4, 0, some ⟨.b32, 0, 0, some 0xFF, 0⟩⟩, 3)
  ∧ decode [0xC8120000] = .ok (.rrel 0 2, 1)

/-- Decoding and encoding agree: every well-formed instruction that has words is decoded from them, whatever follows, with
every operand as it was; and what decodes is well-formed and has those words, 1 to 3 of them (R122 to R134). The same of
booth micro-ops, whose word is one of 32 bits (R270). -/
def Obligations.DecodeEncode : Prop :=
  (
    (∀ (i : Instr) (rest : List Word), i.wf = true → encode i ≠ [] → decode (encode i ++ rest) = .ok (i, (encode i).length))
    ∧ ∀ (ws : List Word) (i : Instr) (n : Nat), decode ws = .ok (i, n) → i.wf = true ∧ ws.take n = encode i ∧ 1 ≤ n ∧ n ≤ 3)
  ∧ (
    (∀ (i : Instr) (w : Word), i.wf = true → encodeMicro i = some w → decodeMicro w = some i)
    ∧ ∀ (i : Instr) (w : Word), decodeMicro w = some i → i.wf = true ∧ encodeMicro i = some w)

/-- An agent alone in its run whose register operand is misplaced (0x01) or beyond its blocks (0x20), or whose branch target
is misaligned (0x03, the target in ADDR, as the model reads R132: log entry 21), does not execute the instruction. With HANDLE and a handler it is READY at FHVA
with the clause's header as its resume header (the model's reading, log entry 15), its first four registers and predicates in the shadow, the resume offset, the
fault word and ADDR in the registers; with FAIL its lot ends FAILED, its record is written and its threads stop (R123, R125,
R132, R279, R280, R287, R288). -/
def Obligations.FaultsTaken : Prop :=
  ∀ (s : State) (v : View) (p : BitVec 3) (a : Agent),
    s.view p = some v → v.formed → v.i.agents = [a] → v.parts = [a] → v.l.phase = .running → s.haltingLot v.l.launch = none →
    s.calm v.i.core → (v.l.thr a).shadow = none → (v.l.thr a).nested = false → (v.l.thr a).stop = none →
    let off := (v.i.hdr - v.l.d.entry).setWidth 64
    let entered (i : Instr) (code addr : Nat) : Prop :=
      s.factAction v.l.ctx (faultGroup code) = 0 → s.handlerVA v.l.ctx ≠ 0 →
      ∃ t l', exec i s = .next t ∧ t.issuer? s.active = none ∧ t.lot? v.i.core v.i.bctx = some l' ∧ t.accs = s.accs ∧ t.m = s.m
        ∧ (l'.thr a).st = .ready ∧ (l'.thr a).pc = s.handlerVA v.l.ctx ∧ (l'.thr a).preds = (v.l.thr a).preds
        ∧ (l'.thr a).shadow = some ⟨(List.range 4).map (fun k => if a.isBarker then v.l.sreg k else (v.l.vreg a.w k a.l).setWidth 64),
            (v.l.thr a).preds, v.i.hdr⟩
        ∧ (if a.isBarker then l'.sreg 0 = off ∧ l'.sreg 1 = 0 ∧ l'.sreg 2 = BitVec.ofNat 64 code ∧ l'.sreg 3 = BitVec.ofNat 64 addr
            ∧ l'.vregs = v.l.vregs ∧ ∀ k, 4 ≤ k → l'.sreg k = v.l.sreg k
          else l'.vreg a.w 0 a.l = off.setWidth 32 ∧ l'.vreg a.w 1 a.l = (off >>> 32).setWidth 32
            ∧ l'.vreg a.w 2 a.l = BitVec.ofNat 32 code ∧ l'.vreg a.w 3 a.l = BitVec.ofNat 32 addr ∧ l'.sregs = v.l.sregs
            ∧ ∀ w k lane, k < 128 → lane < 32 → ¬ (w = a.w ∧ lane = a.l ∧ k < 4) → l'.vreg w k lane = v.l.vreg w k lane)
    let failed (i : Instr) (code : Nat) : Prop :=
      s.factAction v.l.ctx (faultGroup code) = 1 → a ∈ v.l.allAgents → (∀ x ∈ v.l.allAgents, x ≠ a → (v.l.thr x).stop = none) →
      ∃ t l', exec i s = .next t ∧ t.issuer? s.active = none ∧ t.lot? v.i.core v.i.bctx = some l' ∧ l'.phase = .failing code
        ∧ (l'.thr a).st = .stopped ∧ l'.vregs = v.l.vregs ∧ l'.sregs = v.l.sregs ∧ s.recorded t v.l.ctx
    (∀ (f : FmtA) (code : Nat), f.p = p → v.l.instrFault a true true (usesA f (f.ty .i32) true false) = some code →
      entered (.iadd f) code 0 ∧ failed (.iadd f) code)
    ∧ ∀ r : BitVec 7, v.l.instrFault a true true [use2 r] = none →
      let target := (v.l.d.entry.toNat + sextN (v.l.val a r 64) 64 80) % 2 ^ 80
      target % 4 ≠ 0 → entered (.brx p r) 3 target ∧ failed (.brx p r) 3

/-- After reset nothing runs: no lot, no launch, no access; the registers hold their After reset values: queues disabled and
idle, FACT 0x0002_1541, LIMIT 14,000 W, HLCTL with RATE 2, and a host line, cache or frame class that nothing has set is
absent or PLAIN (R9, R52, R156, R281, R318, R323). Memory that nothing has written reads 0 (log entry 1). -/
def Obligations.ResetState : Prop :=
  (∀ c b, State.reset.lot? c b = none) ∧ State.reset.w.launches = [] ∧ State.reset.accs = [] ∧ (∀ u, State.reset.issuer? u = none)
  ∧ (∀ q, q < 64 → State.reset.reg (queueReg q 0) = 0 ∧ State.reset.reg (queueReg q 0x30) = 1)
  ∧ (∀ c, c < 4096 → State.reset.reg (ctxReg c 0) = 0 ∧ State.reset.reg (ctxReg c 0x20) = 0x21541 ∧ State.reset.reg (ctxReg c 0x28) = 0)
  ∧ State.reset.regF pwrctlReg 15 0 = 14000 ∧ (∀ p, p < 2 → State.reset.reg (hlctlReg p) = 2)
  ∧ (∀ l, State.reset.frameClass l = .plain) ∧ (∀ pa, State.reset.memByte pa = 0) ∧ State.reset.memWf = true
  ∧ (∀ k, Tbl.get none State.reset.m.hostLines k = none) ∧ State.reset.m.early = []
  ∧ (∀ die line, State.reset.dieLine? die line = none) ∧ (∀ die, Tbl.get [] State.reset.m.walkCache die = [])
  ∧ ∀ c, (State.reset.core c).tlb = []

/-- Bytes written at their homes are read back, every other byte is as before, and memory keeps its canonical form. The
region of the bytes is not host memory. -/
def Obligations.MemoryReadsBack : Prop :=
  ∀ (s : State) (pa : Nat) (bs : List Byte), pa % 2 ^ 48 + bs.length ≤ 2 ^ 48 → region pa ≠ 2 →
    (∀ i, i < bs.length → (s.setHomeBytes pa bs).memByte (pa + i) = bs.getD i 0)
    ∧ (∀ x, x < pa ∨ pa + bs.length ≤ x → (s.setHomeBytes pa bs).memByte x = s.memByte x)
    ∧ (s.memWf = true → (s.setHomeBytes pa bs).memWf = true)

/-- Every step keeps physical memory in its canonical form: addresses strictly rising and no entry equal to what an unlisted
address reads as (log entry 1), whatever the step does to memory: stores, atomics and cells at their homes, lines written
back, engines, booths, records, save areas, the host, and resets. -/
def Obligations.MemoryStaysCanonical : Prop :=
  ∀ s t : State, s.memWf = true → step s = .next t → t.memWf = true

/-- SEL: every active lane, whatever its predicate, takes a where the predicate is true and operand b where it is not
(R426). -/
def Obligations.Select : Prop :=
  ∀ f : FmtA, (Instr.sel f).computes 0 true (usesA f (f.ty .b32) true false) f.d (f.ty .b32).bits false (fun v a =>
    if v.l.pred a f.p.toNat then v.l.val a f.a (f.ty .b32).bits else v.l.bVal a f (f.ty .b32))

/-- The vault region: PA[32:27] is the die, PA[26:23] the core below the vault, PA[22:0] the offset in its window, of which
0 to 0x5F_FFFF are populated (R152). -/
def Obligations.VaultRegion : Prop :=
  ∀ (s : State) (d v off : Nat), d < 64 → v < 16 → off < 2 ^ 23 →
    let pa := 2 ^ 48 + d * 2 ^ 27 + v * 2 ^ 23 + off
    region pa = 1 ∧ vaultDie pa = d ∧ vaultOf pa = 16 * d + v ∧ vaultOffset pa = off ∧ (0x5FFFFF < off → s.regionOk pa = false)

/-- NOP is 0x7C10_0000 with its guard in [25:23]; a nonzero bit of [18:0] is refused; whatever its guard, in thread and
barker clauses, it changes no state; its class is CTRL and its counter none (R406; the cycle of its slot is timing, log
entry 3). -/
def Obligations.NopChangesNothing : Prop :=
  (∀ p : BitVec 3, decode [BitVec.ofNat 32 (0x7C100000 + p.toNat * 2 ^ 23)] = .ok (.nop p, 1))
  ∧ (∀ (p : BitVec 3) (r : BitVec 19) (rest : List Word), r ≠ 0 →
    decode (BitVec.ofNat 32 (0x7C100000 + p.toNat * 2 ^ 23 + r.toNat) :: rest) = .error .reserved)
  ∧ (∀ (s : State) (v : View) (p : BitVec 3), s.view p = some v → exec (.nop p) s = .next s)
  ∧ (∀ p : BitVec 3, classOf (BitVec.ofNat 32 (0x7C100000 + p.toNat * 2 ^ 23)) = 3) ∧ ∀ p : BitVec 3, instrNeeds (.nop p) = (0, 0, 0, 0, 0, 0)
end

