-- ==== Sys2Proof/Laws/Tbl.lean ====
section
/-! SUPPORT. Laws of tables and of memory: a read after a write, and the canonical form that every write keeps. -/

namespace Sys2Proof

@[simp] theorem Tbl.get_nil {α : Type} (d : α) (k : Nat) : Tbl.get d [] k = d := rfl

theorem Tbl.get_of_absent {α : Type} (d : α) (t : Tbl α) (k : Nat) (h : ∀ e ∈ t, e.1 ≠ k) : Tbl.get d t k = d := by
  induction t with
  | nil => rfl
  | cons e t ih =>
    have he := h e (by simp)
    simp [Tbl.get, he, ih (fun x hx => h x (by simp [hx]))]

theorem Tbl.get_del_same {α : Type} (d : α) (t : Tbl α) (k : Nat) : Tbl.get d (Tbl.del t k) k = d :=
  Tbl.get_of_absent d _ k (by intro e he; simp [Tbl.del] at he; exact he.2)

theorem Tbl.get_del_other {α : Type} (d : α) (t : Tbl α) (k j : Nat) (h : j ≠ k) : Tbl.get d (Tbl.del t k) j = Tbl.get d t j := by
  induction t with
  | nil => rfl
  | cons e t ih =>
    unfold Tbl.del at ih ⊢
    by_cases hk : e.1 = k
    · have hj : e.1 ≠ j := by omega
      rw [List.filter_cons_of_neg (by simp [hk]), ih]
      simp [Tbl.get, hj]
    · rw [List.filter_cons_of_pos (by simp [hk])]
      simp [Tbl.get, ih]

theorem Tbl.get_ins_same {α : Type} (d : α) (t : Tbl α) (k : Nat) (v : α) (h : ∀ e ∈ t, e.1 ≠ k) :
    Tbl.get d (Tbl.ins t k v) k = v := by
  induction t with
  | nil => simp [Tbl.ins, Tbl.get]
  | cons e t ih =>
    have he := h e (by simp)
    by_cases hk : k < e.1
    · simp [Tbl.ins, hk, Tbl.get]
    · simp [Tbl.ins, hk, Tbl.get, he, ih (fun x hx => h x (by simp [hx]))]

theorem Tbl.get_ins_other {α : Type} (d : α) (t : Tbl α) (k j : Nat) (v : α) (h : j ≠ k) :
    Tbl.get d (Tbl.ins t k v) j = Tbl.get d t j := by
  induction t with
  | nil => simp [Tbl.ins, Tbl.get, Ne.symm h]
  | cons e t ih =>
    by_cases hk : k < e.1
    · simp [Tbl.ins, hk, Tbl.get, Ne.symm h]
    · simp only [Tbl.ins, hk, if_false, Tbl.get, ih]

/-- A read after a write to the same key gives the value written. -/
@[simp] theorem Tbl.get_put_same {α : Type} [DecidableEq α] (d : α) (t : Tbl α) (k : Nat) (v : α) : Tbl.get d (Tbl.put d t k v) k = v := by
  unfold Tbl.put
  split
  · next h => rw [Tbl.get_del_same, h]
  · exact Tbl.get_ins_same d _ k v (by intro e he; simp [Tbl.del] at he; exact he.2)

/-- A write leaves every other key alone. -/
theorem Tbl.get_put_other {α : Type} [DecidableEq α] (d : α) (t : Tbl α) (k j : Nat) (v : α) (h : j ≠ k) :
    Tbl.get d (Tbl.put d t k v) j = Tbl.get d t j := by
  unfold Tbl.put
  split
  · exact Tbl.get_del_other d t k j h
  · rw [Tbl.get_ins_other d _ k j v h, Tbl.get_del_other d t k j h]

/-- A read after a write. -/
theorem Tbl.get_put {α : Type} [DecidableEq α] (d : α) (t : Tbl α) (k j : Nat) (v : α) :
    Tbl.get d (Tbl.put d t k v) j = if j = k then v else Tbl.get d t j := by
  split
  · next h => rw [h, Tbl.get_put_same]
  · next h => exact Tbl.get_put_other d t k j v h

/-! ### The canonical form -/

theorem Tbl.risingFrom_weaken {α : Type} (a b : Option Nat) (t : Tbl α)
    (hab : ∀ n, a = some n → ∃ m, b = some m ∧ n ≤ m) (h : Tbl.risingFrom b t = true) : Tbl.risingFrom a t = true := by
  cases t with
  | nil => rfl
  | cons e t =>
    simp only [Tbl.risingFrom, Bool.and_eq_true] at h ⊢
    refine ⟨?_, h.2⟩
    cases a with
    | none => rfl
    | some n =>
      obtain ⟨m, hm, hle⟩ := hab n rfl
      subst hm
      have := h.1
      simp at this ⊢
      omega

theorem Tbl.risingFrom_del {α : Type} (b : Option Nat) (t : Tbl α) (k : Nat) (h : Tbl.risingFrom b t = true) :
    Tbl.risingFrom b (Tbl.del t k) = true := by
  induction t generalizing b with
  | nil => rfl
  | cons e t ih =>
    have h' := h
    simp only [Tbl.risingFrom, Bool.and_eq_true] at h
    unfold Tbl.del
    by_cases hk : e.1 = k
    · rw [List.filter_cons_of_neg (by simp [hk])]
      refine ih b (Tbl.risingFrom_weaken b (some e.1) t ?_ h.2)
      intro n hn
      subst hn
      have := h.1
      simp at this
      exact ⟨e.1, rfl, by omega⟩
    · rw [List.filter_cons_of_pos (by simp [hk])]
      simp only [Tbl.risingFrom, Bool.and_eq_true]
      exact ⟨h.1, ih (some e.1) h.2⟩

theorem Tbl.risingFrom_ins {α : Type} (b : Option Nat) (t : Tbl α) (k : Nat) (v : α) (h : Tbl.risingFrom b t = true)
    (hb : ∀ n, b = some n → n < k) (hk : ∀ e ∈ t, e.1 ≠ k) : Tbl.risingFrom b (Tbl.ins t k v) = true := by
  induction t generalizing b with
  | nil => cases b with
    | none => rfl
    | some n => simp [Tbl.ins, Tbl.risingFrom, hb n rfl]
  | cons e t ih =>
    simp only [Tbl.risingFrom, Bool.and_eq_true] at h
    by_cases hlt : k < e.1
    · simp only [Tbl.ins, hlt, if_true, Tbl.risingFrom, Bool.and_eq_true]
      refine ⟨?_, by simp, h.2⟩
      cases b with
      | none => rfl
      | some n => simp [hb n rfl]
    · simp only [Tbl.ins, hlt, if_false, Tbl.risingFrom, Bool.and_eq_true]
      refine ⟨h.1, ih (some e.1) h.2 ?_ (fun x hx => hk x (by simp [hx]))⟩
      intro n hn
      have := hk e (by simp)
      simp at hn
      omega

theorem Tbl.all_ins {α : Type} (p : Nat × α → Bool) (t : Tbl α) (k : Nat) (v : α) (h : t.all p = true) (hv : p (k, v) = true) :
    (Tbl.ins t k v).all p = true := by
  induction t with
  | nil => simp [Tbl.ins, hv]
  | cons e t ih =>
    simp only [List.all_cons, Bool.and_eq_true] at h
    by_cases hlt : k < e.1
    · simp only [Tbl.ins, hlt, if_true, List.all_cons, Bool.and_eq_true]
      exact ⟨hv, h.1, h.2⟩
    · simp only [Tbl.ins, hlt, if_false, List.all_cons, Bool.and_eq_true]
      exact ⟨h.1, ih h.2⟩

/-- A write keeps the canonical form. -/
theorem Tbl.wf_put {α : Type} [DecidableEq α] (d : α) (t : Tbl α) (k : Nat) (v : α) (h : Tbl.wf d t = true) : Tbl.wf d (Tbl.put d t k v) = true := by
  simp only [Tbl.wf, Bool.and_eq_true] at h ⊢
  have hd : (Tbl.del t k).all (fun e => e.2 != d) = true := by
    rw [List.all_eq_true] at h ⊢
    intro e he
    exact h.2 e (List.mem_of_mem_filter he)
  unfold Tbl.put
  split
  · exact ⟨Tbl.risingFrom_del none t k h.1, hd⟩
  · next hv =>
    refine ⟨Tbl.risingFrom_ins none _ k v (Tbl.risingFrom_del none t k h.1) (by simp) ?_, Tbl.all_ins _ _ k v hd (by simpa using hv)⟩
    intro e he
    simp [Tbl.del] at he
    exact he.2

theorem Tbl.wf_nil {α : Type} [DecidableEq α] (d : α) : Tbl.wf d ([] : Tbl α) = true := rfl

/-! ### Memory -/

@[simp] theorem Memory.read_write_same (m : Memory) (a : Nat) (b : Byte) : (m.write a b).read a = b :=
  Tbl.get_put_same _ _ _ _

theorem Memory.read_write_other (m : Memory) (a x : Nat) (b : Byte) (h : x ≠ a) : (m.write a b).read x = m.read x :=
  Tbl.get_put_other _ _ _ _ _ h

/-- A byte written keeps the canonical form. -/
theorem Memory.wf_write (m : Memory) (a : Nat) (b : Byte) (h : m.wf = true) : (m.write a b).wf = true :=
  Tbl.wf_put _ _ _ _ h

/-- Bytes written keep the canonical form. -/
theorem Memory.wf_writeBytes (m : Memory) (a : Nat) (bs : List Byte) (h : m.wf = true) : (m.writeBytes a bs).wf = true := by
  induction bs generalizing m a with
  | nil => exact h
  | cons b bs ih => exact ih _ _ (Memory.wf_write m a b h)

/-- Bytes outside those written read as before. -/
theorem Memory.read_writeBytes_other (m : Memory) (a x : Nat) (bs : List Byte) (h : x < a ∨ a + bs.length ≤ x) :
    (m.writeBytes a bs).read x = m.read x := by
  induction bs generalizing m a with
  | nil => rfl
  | cons b bs ih =>
    have hl : (b :: bs).length = bs.length + 1 := rfl
    rw [Memory.writeBytes, ih _ _ (by omega)]
    exact Memory.read_write_other m a x b (by omega)

end Sys2Proof
end

