-- ==== Sys2Proof/Laws/State.lean ====
section
/-! SUPPORT. One lemma per field per update of the state and of a lot, true by rfl, so that no proof unfolds a record update;
and what the accessors read after an update. -/

namespace Sys2Proof.Machine

/-! ### Fields of the state after an update -/

@[simp] theorem State.fresh_agenda (s : State) : s.fresh.2.agenda = s.agenda := rfl
@[simp] theorem State.fresh_active (s : State) : s.fresh.2.active = s.active := rfl
@[simp] theorem State.fresh_actBank (s : State) : s.fresh.2.actBank = s.actBank := rfl
@[simp] theorem State.fresh_nextId (s : State) : s.fresh.2.nextId = s.nextId + 1 := rfl
@[simp] theorem State.fresh_free (s : State) : s.fresh.2.free = s.free := rfl
@[simp] theorem State.fresh_running (s : State) : s.fresh.2.running = s.running := rfl
@[simp] theorem State.fresh_cores (s : State) : s.fresh.2.cores = s.cores := rfl
@[simp] theorem State.fresh_lots (s : State) : s.fresh.2.lots = s.lots := rfl
@[simp] theorem State.fresh_accs (s : State) : s.fresh.2.accs = s.accs := rfl
@[simp] theorem State.fresh_fences (s : State) : s.fresh.2.fences = s.fences := rfl
@[simp] theorem State.fresh_dev (s : State) : s.fresh.2.dev = s.dev := rfl
@[simp] theorem State.fresh_m (s : State) : s.fresh.2.m = s.m := rfl
@[simp] theorem State.fresh_e (s : State) : s.fresh.2.e = s.e := rfl
@[simp] theorem State.fresh_w (s : State) : s.fresh.2.w = s.w := rfl
@[simp] theorem State.fresh_p (s : State) : s.fresh.2.p = s.p := rfl

@[simp] theorem State.freeVal_agenda (s : State) : s.freeVal.2.agenda = s.agenda := rfl
@[simp] theorem State.freeVal_active (s : State) : s.freeVal.2.active = s.active := rfl
@[simp] theorem State.freeVal_actBank (s : State) : s.freeVal.2.actBank = s.actBank := rfl
@[simp] theorem State.freeVal_nextId (s : State) : s.freeVal.2.nextId = s.nextId := rfl
@[simp] theorem State.freeVal_free (s : State) : s.freeVal.2.free = s.free + 1 := rfl
@[simp] theorem State.freeVal_running (s : State) : s.freeVal.2.running = s.running := rfl
@[simp] theorem State.freeVal_cores (s : State) : s.freeVal.2.cores = s.cores := rfl
@[simp] theorem State.freeVal_lots (s : State) : s.freeVal.2.lots = s.lots := rfl
@[simp] theorem State.freeVal_accs (s : State) : s.freeVal.2.accs = s.accs := rfl
@[simp] theorem State.freeVal_fences (s : State) : s.freeVal.2.fences = s.fences := rfl
@[simp] theorem State.freeVal_dev (s : State) : s.freeVal.2.dev = s.dev := rfl
@[simp] theorem State.freeVal_m (s : State) : s.freeVal.2.m = s.m := rfl
@[simp] theorem State.freeVal_e (s : State) : s.freeVal.2.e = s.e := rfl
@[simp] theorem State.freeVal_w (s : State) : s.freeVal.2.w = s.w := rfl
@[simp] theorem State.freeVal_p (s : State) : s.freeVal.2.p = s.p := rfl

@[simp] theorem State.send_agenda (s : State) (x : OutMsg) : (s.send x).agenda = s.agenda := rfl
@[simp] theorem State.send_active (s : State) (x : OutMsg) : (s.send x).active = s.active := rfl
@[simp] theorem State.send_actBank (s : State) (x : OutMsg) : (s.send x).actBank = s.actBank := rfl
@[simp] theorem State.send_nextId (s : State) (x : OutMsg) : (s.send x).nextId = s.nextId := rfl
@[simp] theorem State.send_free (s : State) (x : OutMsg) : (s.send x).free = s.free := rfl
@[simp] theorem State.send_running (s : State) (x : OutMsg) : (s.send x).running = s.running := rfl
@[simp] theorem State.send_cores (s : State) (x : OutMsg) : (s.send x).cores = s.cores := rfl
@[simp] theorem State.send_lots (s : State) (x : OutMsg) : (s.send x).lots = s.lots := rfl
@[simp] theorem State.send_accs (s : State) (x : OutMsg) : (s.send x).accs = s.accs := rfl
@[simp] theorem State.send_fences (s : State) (x : OutMsg) : (s.send x).fences = s.fences := rfl
@[simp] theorem State.send_dev (s : State) (x : OutMsg) : (s.send x).dev = s.dev := rfl
@[simp] theorem State.send_m (s : State) (x : OutMsg) : (s.send x).m = s.m := rfl
@[simp] theorem State.send_e (s : State) (x : OutMsg) : (s.send x).e = s.e := rfl
@[simp] theorem State.send_w (s : State) (x : OutMsg) : (s.send x).w = s.w := rfl
@[simp] theorem State.send_p (s : State) (x : OutMsg) : (s.send x).p = { s.p with out := s.p.out ++ [x] } := rfl

@[simp] theorem State.setCore_agenda (s : State) (c : Nat) (x : CoreS) : (s.setCore c x).agenda = s.agenda := rfl
@[simp] theorem State.setCore_active (s : State) (c : Nat) (x : CoreS) : (s.setCore c x).active = s.active := rfl
@[simp] theorem State.setCore_actBank (s : State) (c : Nat) (x : CoreS) : (s.setCore c x).actBank = s.actBank := rfl
@[simp] theorem State.setCore_nextId (s : State) (c : Nat) (x : CoreS) : (s.setCore c x).nextId = s.nextId := rfl
@[simp] theorem State.setCore_free (s : State) (c : Nat) (x : CoreS) : (s.setCore c x).free = s.free := rfl
@[simp] theorem State.setCore_running (s : State) (c : Nat) (x : CoreS) : (s.setCore c x).running = s.running := rfl
@[simp] theorem State.setCore_cores (s : State) (c : Nat) (x : CoreS) : (s.setCore c x).cores = Tbl.put CoreS.none s.cores c x := rfl
@[simp] theorem State.setCore_lots (s : State) (c : Nat) (x : CoreS) : (s.setCore c x).lots = s.lots := rfl
@[simp] theorem State.setCore_accs (s : State) (c : Nat) (x : CoreS) : (s.setCore c x).accs = s.accs := rfl
@[simp] theorem State.setCore_fences (s : State) (c : Nat) (x : CoreS) : (s.setCore c x).fences = s.fences := rfl
@[simp] theorem State.setCore_dev (s : State) (c : Nat) (x : CoreS) : (s.setCore c x).dev = s.dev := rfl
@[simp] theorem State.setCore_m (s : State) (c : Nat) (x : CoreS) : (s.setCore c x).m = s.m := rfl
@[simp] theorem State.setCore_e (s : State) (c : Nat) (x : CoreS) : (s.setCore c x).e = s.e := rfl
@[simp] theorem State.setCore_w (s : State) (c : Nat) (x : CoreS) : (s.setCore c x).w = s.w := rfl
@[simp] theorem State.setCore_p (s : State) (c : Nat) (x : CoreS) : (s.setCore c x).p = s.p := rfl

@[simp] theorem State.setLot_agenda (s : State) (c b : Nat) (l : Lot) : (s.setLot c b l).agenda = s.agenda := rfl
@[simp] theorem State.setLot_active (s : State) (c b : Nat) (l : Lot) : (s.setLot c b l).active = s.active := rfl
@[simp] theorem State.setLot_actBank (s : State) (c b : Nat) (l : Lot) : (s.setLot c b l).actBank = s.actBank := rfl
@[simp] theorem State.setLot_nextId (s : State) (c b : Nat) (l : Lot) : (s.setLot c b l).nextId = s.nextId := rfl
@[simp] theorem State.setLot_free (s : State) (c b : Nat) (l : Lot) : (s.setLot c b l).free = s.free := rfl
@[simp] theorem State.setLot_running (s : State) (c b : Nat) (l : Lot) : (s.setLot c b l).running = s.running := rfl
@[simp] theorem State.setLot_cores (s : State) (c b : Nat) (l : Lot) : (s.setLot c b l).cores = s.cores := rfl
@[simp] theorem State.setLot_lots (s : State) (c b : Nat) (l : Lot) : (s.setLot c b l).lots = Tbl.put none s.lots (lotKey c b) (some l) := rfl
@[simp] theorem State.setLot_accs (s : State) (c b : Nat) (l : Lot) : (s.setLot c b l).accs = s.accs := rfl
@[simp] theorem State.setLot_fences (s : State) (c b : Nat) (l : Lot) : (s.setLot c b l).fences = s.fences := rfl
@[simp] theorem State.setLot_dev (s : State) (c b : Nat) (l : Lot) : (s.setLot c b l).dev = s.dev := rfl
@[simp] theorem State.setLot_m (s : State) (c b : Nat) (l : Lot) : (s.setLot c b l).m = s.m := rfl
@[simp] theorem State.setLot_e (s : State) (c b : Nat) (l : Lot) : (s.setLot c b l).e = s.e := rfl
@[simp] theorem State.setLot_w (s : State) (c b : Nat) (l : Lot) : (s.setLot c b l).w = s.w := rfl
@[simp] theorem State.setLot_p (s : State) (c b : Nat) (l : Lot) : (s.setLot c b l).p = s.p := rfl

@[simp] theorem State.dropLot_agenda (s : State) (c b : Nat) : (s.dropLot c b).agenda = s.agenda := rfl
@[simp] theorem State.dropLot_active (s : State) (c b : Nat) : (s.dropLot c b).active = s.active := rfl
@[simp] theorem State.dropLot_actBank (s : State) (c b : Nat) : (s.dropLot c b).actBank = s.actBank := rfl
@[simp] theorem State.dropLot_nextId (s : State) (c b : Nat) : (s.dropLot c b).nextId = s.nextId := rfl
@[simp] theorem State.dropLot_free (s : State) (c b : Nat) : (s.dropLot c b).free = s.free := rfl
@[simp] theorem State.dropLot_running (s : State) (c b : Nat) : (s.dropLot c b).running = s.running := rfl
@[simp] theorem State.dropLot_cores (s : State) (c b : Nat) : (s.dropLot c b).cores = s.cores := rfl
@[simp] theorem State.dropLot_lots (s : State) (c b : Nat) : (s.dropLot c b).lots = Tbl.put none s.lots (lotKey c b) none := rfl
@[simp] theorem State.dropLot_accs (s : State) (c b : Nat) : (s.dropLot c b).accs = s.accs := rfl
@[simp] theorem State.dropLot_fences (s : State) (c b : Nat) : (s.dropLot c b).fences = s.fences := rfl
@[simp] theorem State.dropLot_dev (s : State) (c b : Nat) : (s.dropLot c b).dev = s.dev := rfl
@[simp] theorem State.dropLot_m (s : State) (c b : Nat) : (s.dropLot c b).m = s.m := rfl
@[simp] theorem State.dropLot_e (s : State) (c b : Nat) : (s.dropLot c b).e = s.e := rfl
@[simp] theorem State.dropLot_w (s : State) (c b : Nat) : (s.dropLot c b).w = s.w := rfl
@[simp] theorem State.dropLot_p (s : State) (c b : Nat) : (s.dropLot c b).p = s.p := rfl

@[simp] theorem State.setIssuer_agenda (s : State) (u : Nat) (i : Option Issuer) : (s.setIssuer u i).agenda = s.agenda := rfl
@[simp] theorem State.setIssuer_active (s : State) (u : Nat) (i : Option Issuer) : (s.setIssuer u i).active = s.active := rfl
@[simp] theorem State.setIssuer_actBank (s : State) (u : Nat) (i : Option Issuer) : (s.setIssuer u i).actBank = s.actBank := rfl
@[simp] theorem State.setIssuer_nextId (s : State) (u : Nat) (i : Option Issuer) : (s.setIssuer u i).nextId = s.nextId := rfl
@[simp] theorem State.setIssuer_free (s : State) (u : Nat) (i : Option Issuer) : (s.setIssuer u i).free = s.free := rfl
@[simp] theorem State.setIssuer_running (s : State) (u : Nat) (i : Option Issuer) : (s.setIssuer u i).running = Tbl.put none s.running u i := rfl
@[simp] theorem State.setIssuer_cores (s : State) (u : Nat) (i : Option Issuer) : (s.setIssuer u i).cores = s.cores := rfl
@[simp] theorem State.setIssuer_lots (s : State) (u : Nat) (i : Option Issuer) : (s.setIssuer u i).lots = s.lots := rfl
@[simp] theorem State.setIssuer_accs (s : State) (u : Nat) (i : Option Issuer) : (s.setIssuer u i).accs = s.accs := rfl
@[simp] theorem State.setIssuer_fences (s : State) (u : Nat) (i : Option Issuer) : (s.setIssuer u i).fences = s.fences := rfl
@[simp] theorem State.setIssuer_dev (s : State) (u : Nat) (i : Option Issuer) : (s.setIssuer u i).dev = s.dev := rfl
@[simp] theorem State.setIssuer_m (s : State) (u : Nat) (i : Option Issuer) : (s.setIssuer u i).m = s.m := rfl
@[simp] theorem State.setIssuer_e (s : State) (u : Nat) (i : Option Issuer) : (s.setIssuer u i).e = s.e := rfl
@[simp] theorem State.setIssuer_w (s : State) (u : Nat) (i : Option Issuer) : (s.setIssuer u i).w = s.w := rfl
@[simp] theorem State.setIssuer_p (s : State) (u : Nat) (i : Option Issuer) : (s.setIssuer u i).p = s.p := rfl

@[simp] theorem State.setReg_agenda (s : State) (pa : Nat) (v : Word64) : (s.setReg pa v).agenda = s.agenda := rfl
@[simp] theorem State.setReg_active (s : State) (pa : Nat) (v : Word64) : (s.setReg pa v).active = s.active := rfl
@[simp] theorem State.setReg_actBank (s : State) (pa : Nat) (v : Word64) : (s.setReg pa v).actBank = s.actBank := rfl
@[simp] theorem State.setReg_nextId (s : State) (pa : Nat) (v : Word64) : (s.setReg pa v).nextId = s.nextId := rfl
@[simp] theorem State.setReg_free (s : State) (pa : Nat) (v : Word64) : (s.setReg pa v).free = s.free := rfl
@[simp] theorem State.setReg_running (s : State) (pa : Nat) (v : Word64) : (s.setReg pa v).running = s.running := rfl
@[simp] theorem State.setReg_cores (s : State) (pa : Nat) (v : Word64) : (s.setReg pa v).cores = s.cores := rfl
@[simp] theorem State.setReg_lots (s : State) (pa : Nat) (v : Word64) : (s.setReg pa v).lots = s.lots := rfl
@[simp] theorem State.setReg_accs (s : State) (pa : Nat) (v : Word64) : (s.setReg pa v).accs = s.accs := rfl
@[simp] theorem State.setReg_fences (s : State) (pa : Nat) (v : Word64) : (s.setReg pa v).fences = s.fences := rfl
@[simp] theorem State.setReg_dev (s : State) (pa : Nat) (v : Word64) : (s.setReg pa v).dev = Tbl.put none s.dev pa (some v) := rfl
@[simp] theorem State.setReg_m (s : State) (pa : Nat) (v : Word64) : (s.setReg pa v).m = s.m := rfl
@[simp] theorem State.setReg_e (s : State) (pa : Nat) (v : Word64) : (s.setReg pa v).e = s.e := rfl
@[simp] theorem State.setReg_w (s : State) (pa : Nat) (v : Word64) : (s.setReg pa v).w = s.w := rfl
@[simp] theorem State.setReg_p (s : State) (pa : Nat) (v : Word64) : (s.setReg pa v).p = s.p := rfl

@[simp] theorem State.setRegF_agenda (s : State) (pa hi lo v : Nat) : (s.setRegF pa hi lo v).agenda = s.agenda := rfl
@[simp] theorem State.setRegF_active (s : State) (pa hi lo v : Nat) : (s.setRegF pa hi lo v).active = s.active := rfl
@[simp] theorem State.setRegF_actBank (s : State) (pa hi lo v : Nat) : (s.setRegF pa hi lo v).actBank = s.actBank := rfl
@[simp] theorem State.setRegF_nextId (s : State) (pa hi lo v : Nat) : (s.setRegF pa hi lo v).nextId = s.nextId := rfl
@[simp] theorem State.setRegF_free (s : State) (pa hi lo v : Nat) : (s.setRegF pa hi lo v).free = s.free := rfl
@[simp] theorem State.setRegF_running (s : State) (pa hi lo v : Nat) : (s.setRegF pa hi lo v).running = s.running := rfl
@[simp] theorem State.setRegF_cores (s : State) (pa hi lo v : Nat) : (s.setRegF pa hi lo v).cores = s.cores := rfl
@[simp] theorem State.setRegF_lots (s : State) (pa hi lo v : Nat) : (s.setRegF pa hi lo v).lots = s.lots := rfl
@[simp] theorem State.setRegF_accs (s : State) (pa hi lo v : Nat) : (s.setRegF pa hi lo v).accs = s.accs := rfl
@[simp] theorem State.setRegF_fences (s : State) (pa hi lo v : Nat) : (s.setRegF pa hi lo v).fences = s.fences := rfl
@[simp] theorem State.setRegF_dev (s : State) (pa hi lo v : Nat) : (s.setRegF pa hi lo v).dev = (s.setReg pa (BitVec.ofNat 64 (setBits (s.reg pa).toNat hi lo v))).dev := rfl
@[simp] theorem State.setRegF_m (s : State) (pa hi lo v : Nat) : (s.setRegF pa hi lo v).m = s.m := rfl
@[simp] theorem State.setRegF_e (s : State) (pa hi lo v : Nat) : (s.setRegF pa hi lo v).e = s.e := rfl
@[simp] theorem State.setRegF_w (s : State) (pa hi lo v : Nat) : (s.setRegF pa hi lo v).w = s.w := rfl
@[simp] theorem State.setRegF_p (s : State) (pa hi lo v : Nat) : (s.setRegF pa hi lo v).p = s.p := rfl

@[simp] theorem State.bumpReg_agenda (s : State) (pa hi lo n : Nat) : (s.bumpReg pa hi lo n).agenda = s.agenda := rfl
@[simp] theorem State.bumpReg_active (s : State) (pa hi lo n : Nat) : (s.bumpReg pa hi lo n).active = s.active := rfl
@[simp] theorem State.bumpReg_actBank (s : State) (pa hi lo n : Nat) : (s.bumpReg pa hi lo n).actBank = s.actBank := rfl
@[simp] theorem State.bumpReg_nextId (s : State) (pa hi lo n : Nat) : (s.bumpReg pa hi lo n).nextId = s.nextId := rfl
@[simp] theorem State.bumpReg_free (s : State) (pa hi lo n : Nat) : (s.bumpReg pa hi lo n).free = s.free := rfl
@[simp] theorem State.bumpReg_running (s : State) (pa hi lo n : Nat) : (s.bumpReg pa hi lo n).running = s.running := rfl
@[simp] theorem State.bumpReg_cores (s : State) (pa hi lo n : Nat) : (s.bumpReg pa hi lo n).cores = s.cores := rfl
@[simp] theorem State.bumpReg_lots (s : State) (pa hi lo n : Nat) : (s.bumpReg pa hi lo n).lots = s.lots := rfl
@[simp] theorem State.bumpReg_accs (s : State) (pa hi lo n : Nat) : (s.bumpReg pa hi lo n).accs = s.accs := rfl
@[simp] theorem State.bumpReg_fences (s : State) (pa hi lo n : Nat) : (s.bumpReg pa hi lo n).fences = s.fences := rfl
@[simp] theorem State.bumpReg_dev (s : State) (pa hi lo n : Nat) : (s.bumpReg pa hi lo n).dev = (s.setRegF pa hi lo (min (2 ^ (hi + 1 - lo) - 1) (s.regF pa hi lo + n))).dev := rfl
@[simp] theorem State.bumpReg_m (s : State) (pa hi lo n : Nat) : (s.bumpReg pa hi lo n).m = s.m := rfl
@[simp] theorem State.bumpReg_e (s : State) (pa hi lo n : Nat) : (s.bumpReg pa hi lo n).e = s.e := rfl
@[simp] theorem State.bumpReg_w (s : State) (pa hi lo n : Nat) : (s.bumpReg pa hi lo n).w = s.w := rfl
@[simp] theorem State.bumpReg_p (s : State) (pa hi lo n : Nat) : (s.bumpReg pa hi lo n).p = s.p := rfl

@[simp] theorem State.setAcc_agenda (s : State) (a : Acc) : (s.setAcc a).agenda = s.agenda := rfl
@[simp] theorem State.setAcc_active (s : State) (a : Acc) : (s.setAcc a).active = s.active := rfl
@[simp] theorem State.setAcc_actBank (s : State) (a : Acc) : (s.setAcc a).actBank = s.actBank := rfl
@[simp] theorem State.setAcc_nextId (s : State) (a : Acc) : (s.setAcc a).nextId = s.nextId := rfl
@[simp] theorem State.setAcc_free (s : State) (a : Acc) : (s.setAcc a).free = s.free := rfl
@[simp] theorem State.setAcc_running (s : State) (a : Acc) : (s.setAcc a).running = s.running := rfl
@[simp] theorem State.setAcc_cores (s : State) (a : Acc) : (s.setAcc a).cores = s.cores := rfl
@[simp] theorem State.setAcc_lots (s : State) (a : Acc) : (s.setAcc a).lots = s.lots := rfl
@[simp] theorem State.setAcc_accs (s : State) (a : Acc) : (s.setAcc a).accs = s.accs.map (fun x => if x.id == a.id then a else x) := rfl
@[simp] theorem State.setAcc_fences (s : State) (a : Acc) : (s.setAcc a).fences = s.fences := rfl
@[simp] theorem State.setAcc_dev (s : State) (a : Acc) : (s.setAcc a).dev = s.dev := rfl
@[simp] theorem State.setAcc_m (s : State) (a : Acc) : (s.setAcc a).m = s.m := rfl
@[simp] theorem State.setAcc_e (s : State) (a : Acc) : (s.setAcc a).e = s.e := rfl
@[simp] theorem State.setAcc_w (s : State) (a : Acc) : (s.setAcc a).w = s.w := rfl
@[simp] theorem State.setAcc_p (s : State) (a : Acc) : (s.setAcc a).p = s.p := rfl

@[simp] theorem State.setLaunch_agenda (s : State) (x : Launch) : (s.setLaunch x).agenda = s.agenda := rfl
@[simp] theorem State.setLaunch_active (s : State) (x : Launch) : (s.setLaunch x).active = s.active := rfl
@[simp] theorem State.setLaunch_actBank (s : State) (x : Launch) : (s.setLaunch x).actBank = s.actBank := rfl
@[simp] theorem State.setLaunch_nextId (s : State) (x : Launch) : (s.setLaunch x).nextId = s.nextId := rfl
@[simp] theorem State.setLaunch_free (s : State) (x : Launch) : (s.setLaunch x).free = s.free := rfl
@[simp] theorem State.setLaunch_running (s : State) (x : Launch) : (s.setLaunch x).running = s.running := rfl
@[simp] theorem State.setLaunch_cores (s : State) (x : Launch) : (s.setLaunch x).cores = s.cores := rfl
@[simp] theorem State.setLaunch_lots (s : State) (x : Launch) : (s.setLaunch x).lots = s.lots := rfl
@[simp] theorem State.setLaunch_accs (s : State) (x : Launch) : (s.setLaunch x).accs = s.accs := rfl
@[simp] theorem State.setLaunch_fences (s : State) (x : Launch) : (s.setLaunch x).fences = s.fences := rfl
@[simp] theorem State.setLaunch_dev (s : State) (x : Launch) : (s.setLaunch x).dev = s.dev := rfl
@[simp] theorem State.setLaunch_m (s : State) (x : Launch) : (s.setLaunch x).m = s.m := rfl
@[simp] theorem State.setLaunch_e (s : State) (x : Launch) : (s.setLaunch x).e = s.e := rfl
@[simp] theorem State.setLaunch_w (s : State) (x : Launch) : (s.setLaunch x).w = { s.w with launches := s.w.launches.map (fun y => if y.id == x.id then x else y) } := rfl
@[simp] theorem State.setLaunch_p (s : State) (x : Launch) : (s.setLaunch x).p = s.p := rfl

@[simp] theorem State.setLevel_agenda (s : State) (x : Level) : (s.setLevel x).agenda = s.agenda := rfl
@[simp] theorem State.setLevel_active (s : State) (x : Level) : (s.setLevel x).active = s.active := rfl
@[simp] theorem State.setLevel_actBank (s : State) (x : Level) : (s.setLevel x).actBank = s.actBank := rfl
@[simp] theorem State.setLevel_nextId (s : State) (x : Level) : (s.setLevel x).nextId = s.nextId := rfl
@[simp] theorem State.setLevel_free (s : State) (x : Level) : (s.setLevel x).free = s.free := rfl
@[simp] theorem State.setLevel_running (s : State) (x : Level) : (s.setLevel x).running = s.running := rfl
@[simp] theorem State.setLevel_cores (s : State) (x : Level) : (s.setLevel x).cores = s.cores := rfl
@[simp] theorem State.setLevel_lots (s : State) (x : Level) : (s.setLevel x).lots = s.lots := rfl
@[simp] theorem State.setLevel_accs (s : State) (x : Level) : (s.setLevel x).accs = s.accs := rfl
@[simp] theorem State.setLevel_fences (s : State) (x : Level) : (s.setLevel x).fences = s.fences := rfl
@[simp] theorem State.setLevel_dev (s : State) (x : Level) : (s.setLevel x).dev = s.dev := rfl
@[simp] theorem State.setLevel_m (s : State) (x : Level) : (s.setLevel x).m = s.m := rfl
@[simp] theorem State.setLevel_e (s : State) (x : Level) : (s.setLevel x).e = s.e := rfl
@[simp] theorem State.setLevel_w (s : State) (x : Level) : (s.setLevel x).w = { s.w with levels := s.w.levels.map (fun y => if y.id == x.id then x else y) } := rfl
@[simp] theorem State.setLevel_p (s : State) (x : Level) : (s.setLevel x).p = s.p := rfl

@[simp] theorem State.setOrder_agenda (s : State) (x : Order) : (s.setOrder x).agenda = s.agenda := rfl
@[simp] theorem State.setOrder_active (s : State) (x : Order) : (s.setOrder x).active = s.active := rfl
@[simp] theorem State.setOrder_actBank (s : State) (x : Order) : (s.setOrder x).actBank = s.actBank := rfl
@[simp] theorem State.setOrder_nextId (s : State) (x : Order) : (s.setOrder x).nextId = s.nextId := rfl
@[simp] theorem State.setOrder_free (s : State) (x : Order) : (s.setOrder x).free = s.free := rfl
@[simp] theorem State.setOrder_running (s : State) (x : Order) : (s.setOrder x).running = s.running := rfl
@[simp] theorem State.setOrder_cores (s : State) (x : Order) : (s.setOrder x).cores = s.cores := rfl
@[simp] theorem State.setOrder_lots (s : State) (x : Order) : (s.setOrder x).lots = s.lots := rfl
@[simp] theorem State.setOrder_accs (s : State) (x : Order) : (s.setOrder x).accs = s.accs := rfl
@[simp] theorem State.setOrder_fences (s : State) (x : Order) : (s.setOrder x).fences = s.fences := rfl
@[simp] theorem State.setOrder_dev (s : State) (x : Order) : (s.setOrder x).dev = s.dev := rfl
@[simp] theorem State.setOrder_m (s : State) (x : Order) : (s.setOrder x).m = s.m := rfl
@[simp] theorem State.setOrder_e (s : State) (x : Order) : (s.setOrder x).e = { s.e with orders := s.e.orders.map (fun y => if y.id == x.id then x else y) } := rfl
@[simp] theorem State.setOrder_w (s : State) (x : Order) : (s.setOrder x).w = s.w := rfl
@[simp] theorem State.setOrder_p (s : State) (x : Order) : (s.setOrder x).p = s.p := rfl

@[simp] theorem State.setTileOp_agenda (s : State) (x : TileOp) : (s.setTileOp x).agenda = s.agenda := rfl
@[simp] theorem State.setTileOp_active (s : State) (x : TileOp) : (s.setTileOp x).active = s.active := rfl
@[simp] theorem State.setTileOp_actBank (s : State) (x : TileOp) : (s.setTileOp x).actBank = s.actBank := rfl
@[simp] theorem State.setTileOp_nextId (s : State) (x : TileOp) : (s.setTileOp x).nextId = s.nextId := rfl
@[simp] theorem State.setTileOp_free (s : State) (x : TileOp) : (s.setTileOp x).free = s.free := rfl
@[simp] theorem State.setTileOp_running (s : State) (x : TileOp) : (s.setTileOp x).running = s.running := rfl
@[simp] theorem State.setTileOp_cores (s : State) (x : TileOp) : (s.setTileOp x).cores = s.cores := rfl
@[simp] theorem State.setTileOp_lots (s : State) (x : TileOp) : (s.setTileOp x).lots = s.lots := rfl
@[simp] theorem State.setTileOp_accs (s : State) (x : TileOp) : (s.setTileOp x).accs = s.accs := rfl
@[simp] theorem State.setTileOp_fences (s : State) (x : TileOp) : (s.setTileOp x).fences = s.fences := rfl
@[simp] theorem State.setTileOp_dev (s : State) (x : TileOp) : (s.setTileOp x).dev = s.dev := rfl
@[simp] theorem State.setTileOp_m (s : State) (x : TileOp) : (s.setTileOp x).m = s.m := rfl
@[simp] theorem State.setTileOp_e (s : State) (x : TileOp) : (s.setTileOp x).e = { s.e with tileOps := s.e.tileOps.map (fun y => if y.id == x.id then x else y) } := rfl
@[simp] theorem State.setTileOp_w (s : State) (x : TileOp) : (s.setTileOp x).w = s.w := rfl
@[simp] theorem State.setTileOp_p (s : State) (x : TileOp) : (s.setTileOp x).p = s.p := rfl

@[simp] theorem State.setBooth_agenda (s : State) (k : Nat) (b : Booth) : (s.setBooth k b).agenda = s.agenda := rfl
@[simp] theorem State.setBooth_active (s : State) (k : Nat) (b : Booth) : (s.setBooth k b).active = s.active := rfl
@[simp] theorem State.setBooth_actBank (s : State) (k : Nat) (b : Booth) : (s.setBooth k b).actBank = s.actBank := rfl
@[simp] theorem State.setBooth_nextId (s : State) (k : Nat) (b : Booth) : (s.setBooth k b).nextId = s.nextId := rfl
@[simp] theorem State.setBooth_free (s : State) (k : Nat) (b : Booth) : (s.setBooth k b).free = s.free := rfl
@[simp] theorem State.setBooth_running (s : State) (k : Nat) (b : Booth) : (s.setBooth k b).running = s.running := rfl
@[simp] theorem State.setBooth_cores (s : State) (k : Nat) (b : Booth) : (s.setBooth k b).cores = s.cores := rfl
@[simp] theorem State.setBooth_lots (s : State) (k : Nat) (b : Booth) : (s.setBooth k b).lots = s.lots := rfl
@[simp] theorem State.setBooth_accs (s : State) (k : Nat) (b : Booth) : (s.setBooth k b).accs = s.accs := rfl
@[simp] theorem State.setBooth_fences (s : State) (k : Nat) (b : Booth) : (s.setBooth k b).fences = s.fences := rfl
@[simp] theorem State.setBooth_dev (s : State) (k : Nat) (b : Booth) : (s.setBooth k b).dev = s.dev := rfl
@[simp] theorem State.setBooth_m (s : State) (k : Nat) (b : Booth) : (s.setBooth k b).m = s.m := rfl
@[simp] theorem State.setBooth_e (s : State) (k : Nat) (b : Booth) : (s.setBooth k b).e = { s.e with booths := Tbl.put Booth.none s.e.booths k b } := rfl
@[simp] theorem State.setBooth_w (s : State) (k : Nat) (b : Booth) : (s.setBooth k b).w = s.w := rfl
@[simp] theorem State.setBooth_p (s : State) (k : Nat) (b : Booth) : (s.setBooth k b).p = s.p := rfl

@[simp] theorem State.setQueue_agenda (s : State) (q : Nat) (x : Queue) : (s.setQueue q x).agenda = s.agenda := rfl
@[simp] theorem State.setQueue_active (s : State) (q : Nat) (x : Queue) : (s.setQueue q x).active = s.active := rfl
@[simp] theorem State.setQueue_actBank (s : State) (q : Nat) (x : Queue) : (s.setQueue q x).actBank = s.actBank := rfl
@[simp] theorem State.setQueue_nextId (s : State) (q : Nat) (x : Queue) : (s.setQueue q x).nextId = s.nextId := rfl
@[simp] theorem State.setQueue_free (s : State) (q : Nat) (x : Queue) : (s.setQueue q x).free = s.free := rfl
@[simp] theorem State.setQueue_running (s : State) (q : Nat) (x : Queue) : (s.setQueue q x).running = s.running := rfl
@[simp] theorem State.setQueue_cores (s : State) (q : Nat) (x : Queue) : (s.setQueue q x).cores = s.cores := rfl
@[simp] theorem State.setQueue_lots (s : State) (q : Nat) (x : Queue) : (s.setQueue q x).lots = s.lots := rfl
@[simp] theorem State.setQueue_accs (s : State) (q : Nat) (x : Queue) : (s.setQueue q x).accs = s.accs := rfl
@[simp] theorem State.setQueue_fences (s : State) (q : Nat) (x : Queue) : (s.setQueue q x).fences = s.fences := rfl
@[simp] theorem State.setQueue_dev (s : State) (q : Nat) (x : Queue) : (s.setQueue q x).dev = s.dev := rfl
@[simp] theorem State.setQueue_m (s : State) (q : Nat) (x : Queue) : (s.setQueue q x).m = s.m := rfl
@[simp] theorem State.setQueue_e (s : State) (q : Nat) (x : Queue) : (s.setQueue q x).e = s.e := rfl
@[simp] theorem State.setQueue_w (s : State) (q : Nat) (x : Queue) : (s.setQueue q x).w = { s.w with queues := Tbl.put Queue.none s.w.queues q x } := rfl
@[simp] theorem State.setQueue_p (s : State) (q : Nat) (x : Queue) : (s.setQueue q x).p = s.p := rfl

@[simp] theorem State.setCtxS_agenda (s : State) (c : Nat) (x : CtxS) : (s.setCtxS c x).agenda = s.agenda := rfl
@[simp] theorem State.setCtxS_active (s : State) (c : Nat) (x : CtxS) : (s.setCtxS c x).active = s.active := rfl
@[simp] theorem State.setCtxS_actBank (s : State) (c : Nat) (x : CtxS) : (s.setCtxS c x).actBank = s.actBank := rfl
@[simp] theorem State.setCtxS_nextId (s : State) (c : Nat) (x : CtxS) : (s.setCtxS c x).nextId = s.nextId := rfl
@[simp] theorem State.setCtxS_free (s : State) (c : Nat) (x : CtxS) : (s.setCtxS c x).free = s.free := rfl
@[simp] theorem State.setCtxS_running (s : State) (c : Nat) (x : CtxS) : (s.setCtxS c x).running = s.running := rfl
@[simp] theorem State.setCtxS_cores (s : State) (c : Nat) (x : CtxS) : (s.setCtxS c x).cores = s.cores := rfl
@[simp] theorem State.setCtxS_lots (s : State) (c : Nat) (x : CtxS) : (s.setCtxS c x).lots = s.lots := rfl
@[simp] theorem State.setCtxS_accs (s : State) (c : Nat) (x : CtxS) : (s.setCtxS c x).accs = s.accs := rfl
@[simp] theorem State.setCtxS_fences (s : State) (c : Nat) (x : CtxS) : (s.setCtxS c x).fences = s.fences := rfl
@[simp] theorem State.setCtxS_dev (s : State) (c : Nat) (x : CtxS) : (s.setCtxS c x).dev = s.dev := rfl
@[simp] theorem State.setCtxS_m (s : State) (c : Nat) (x : CtxS) : (s.setCtxS c x).m = s.m := rfl
@[simp] theorem State.setCtxS_e (s : State) (c : Nat) (x : CtxS) : (s.setCtxS c x).e = s.e := rfl
@[simp] theorem State.setCtxS_w (s : State) (c : Nat) (x : CtxS) : (s.setCtxS c x).w = { s.w with ctxs := Tbl.put CtxS.none s.w.ctxs c x } := rfl
@[simp] theorem State.setCtxS_p (s : State) (c : Nat) (x : CtxS) : (s.setCtxS c x).p = s.p := rfl

@[simp] theorem State.setCounter_agenda (s : State) (c i : Nat) (v : Word64) : (s.setCounter c i v).agenda = s.agenda := rfl
@[simp] theorem State.setCounter_active (s : State) (c i : Nat) (v : Word64) : (s.setCounter c i v).active = s.active := rfl
@[simp] theorem State.setCounter_actBank (s : State) (c i : Nat) (v : Word64) : (s.setCounter c i v).actBank = s.actBank := rfl
@[simp] theorem State.setCounter_nextId (s : State) (c i : Nat) (v : Word64) : (s.setCounter c i v).nextId = s.nextId := rfl
@[simp] theorem State.setCounter_free (s : State) (c i : Nat) (v : Word64) : (s.setCounter c i v).free = s.free := rfl
@[simp] theorem State.setCounter_running (s : State) (c i : Nat) (v : Word64) : (s.setCounter c i v).running = s.running := rfl
@[simp] theorem State.setCounter_cores (s : State) (c i : Nat) (v : Word64) : (s.setCounter c i v).cores = s.cores := rfl
@[simp] theorem State.setCounter_lots (s : State) (c i : Nat) (v : Word64) : (s.setCounter c i v).lots = s.lots := rfl
@[simp] theorem State.setCounter_accs (s : State) (c i : Nat) (v : Word64) : (s.setCounter c i v).accs = s.accs := rfl
@[simp] theorem State.setCounter_fences (s : State) (c i : Nat) (v : Word64) : (s.setCounter c i v).fences = s.fences := rfl
@[simp] theorem State.setCounter_dev (s : State) (c i : Nat) (v : Word64) : (s.setCounter c i v).dev = s.dev := rfl
@[simp] theorem State.setCounter_m (s : State) (c i : Nat) (v : Word64) : (s.setCounter c i v).m = s.m := rfl
@[simp] theorem State.setCounter_e (s : State) (c i : Nat) (v : Word64) : (s.setCounter c i v).e = s.e := rfl
@[simp] theorem State.setCounter_w (s : State) (c i : Nat) (v : Word64) : (s.setCounter c i v).w = { s.w with counters := Tbl.put 0 s.w.counters (c * 1024 + i) v } := rfl
@[simp] theorem State.setCounter_p (s : State) (c i : Nat) (v : Word64) : (s.setCounter c i v).p = s.p := rfl

@[simp] theorem State.setRetBit_agenda (s : State) (off i : Nat) : (s.setRetBit off i).agenda = s.agenda := rfl
@[simp] theorem State.setRetBit_active (s : State) (off i : Nat) : (s.setRetBit off i).active = s.active := rfl
@[simp] theorem State.setRetBit_actBank (s : State) (off i : Nat) : (s.setRetBit off i).actBank = s.actBank := rfl
@[simp] theorem State.setRetBit_nextId (s : State) (off i : Nat) : (s.setRetBit off i).nextId = s.nextId := rfl
@[simp] theorem State.setRetBit_free (s : State) (off i : Nat) : (s.setRetBit off i).free = s.free := rfl
@[simp] theorem State.setRetBit_running (s : State) (off i : Nat) : (s.setRetBit off i).running = s.running := rfl
@[simp] theorem State.setRetBit_cores (s : State) (off i : Nat) : (s.setRetBit off i).cores = s.cores := rfl
@[simp] theorem State.setRetBit_lots (s : State) (off i : Nat) : (s.setRetBit off i).lots = s.lots := rfl
@[simp] theorem State.setRetBit_accs (s : State) (off i : Nat) : (s.setRetBit off i).accs = s.accs := rfl
@[simp] theorem State.setRetBit_fences (s : State) (off i : Nat) : (s.setRetBit off i).fences = s.fences := rfl
@[simp] theorem State.setRetBit_dev (s : State) (off i : Nat) : (s.setRetBit off i).dev = s.dev := rfl
@[simp] theorem State.setRetBit_m (s : State) (off i : Nat) : (s.setRetBit off i).m = s.m := rfl
@[simp] theorem State.setRetBit_e (s : State) (off i : Nat) : (s.setRetBit off i).e = s.e := rfl
@[simp] theorem State.setRetBit_w (s : State) (off i : Nat) : (s.setRetBit off i).w = s.w := rfl

@[simp] theorem State.markMonitors_agenda (s : State) (n : Nat) (f : Nat → Bool) : (s.markMonitors n f).agenda = s.agenda := rfl
@[simp] theorem State.markMonitors_active (s : State) (n : Nat) (f : Nat → Bool) : (s.markMonitors n f).active = s.active := rfl
@[simp] theorem State.markMonitors_actBank (s : State) (n : Nat) (f : Nat → Bool) : (s.markMonitors n f).actBank = s.actBank := rfl
@[simp] theorem State.markMonitors_nextId (s : State) (n : Nat) (f : Nat → Bool) : (s.markMonitors n f).nextId = s.nextId := rfl
@[simp] theorem State.markMonitors_free (s : State) (n : Nat) (f : Nat → Bool) : (s.markMonitors n f).free = s.free := rfl
@[simp] theorem State.markMonitors_running (s : State) (n : Nat) (f : Nat → Bool) : (s.markMonitors n f).running = s.running := rfl
@[simp] theorem State.markMonitors_cores (s : State) (n : Nat) (f : Nat → Bool) : (s.markMonitors n f).cores = s.cores := rfl
@[simp] theorem State.markMonitors_accs (s : State) (n : Nat) (f : Nat → Bool) : (s.markMonitors n f).accs = s.accs := rfl
@[simp] theorem State.markMonitors_fences (s : State) (n : Nat) (f : Nat → Bool) : (s.markMonitors n f).fences = s.fences := rfl
@[simp] theorem State.markMonitors_dev (s : State) (n : Nat) (f : Nat → Bool) : (s.markMonitors n f).dev = s.dev := rfl
@[simp] theorem State.markMonitors_m (s : State) (n : Nat) (f : Nat → Bool) : (s.markMonitors n f).m = s.m := rfl
@[simp] theorem State.markMonitors_e (s : State) (n : Nat) (f : Nat → Bool) : (s.markMonitors n f).e = s.e := rfl
@[simp] theorem State.markMonitors_w (s : State) (n : Nat) (f : Nat → Bool) : (s.markMonitors n f).w = s.w := rfl
@[simp] theorem State.markMonitors_p (s : State) (n : Nat) (f : Nat → Bool) : (s.markMonitors n f).p = s.p := rfl

/-! ### Fields of a lot after an update -/

@[simp] theorem Lot.setThr_ctx (l : Lot) (a : Agent) (t : Thread) : (l.setThr a t).ctx = l.ctx := rfl
@[simp] theorem Lot.setThr_launch (l : Lot) (a : Agent) (t : Thread) : (l.setThr a t).launch = l.launch := rfl
@[simp] theorem Lot.setThr_index (l : Lot) (a : Agent) (t : Thread) : (l.setThr a t).index = l.index := rfl
@[simp] theorem Lot.setThr_d (l : Lot) (a : Agent) (t : Thread) : (l.setThr a t).d = l.d := rfl
@[simp] theorem Lot.setThr_nthreads (l : Lot) (a : Agent) (t : Thread) : (l.setThr a t).nthreads = l.nthreads := rfl
@[simp] theorem Lot.setThr_nwarps (l : Lot) (a : Agent) (t : Thread) : (l.setThr a t).nwarps = l.nwarps := rfl
@[simp] theorem Lot.setThr_threads (l : Lot) (a : Agent) (t : Thread) : (l.setThr a t).threads = Tbl.put Thread.none l.threads a.key t := rfl
@[simp] theorem Lot.setThr_warps (l : Lot) (a : Agent) (t : Thread) : (l.setThr a t).warps = l.warps := rfl
@[simp] theorem Lot.setThr_vregs (l : Lot) (a : Agent) (t : Thread) : (l.setThr a t).vregs = l.vregs := rfl
@[simp] theorem Lot.setThr_sregs (l : Lot) (a : Agent) (t : Thread) : (l.setThr a t).sregs = l.sregs := rfl
@[simp] theorem Lot.setThr_scratch (l : Lot) (a : Agent) (t : Thread) : (l.setThr a t).scratch = l.scratch := rfl
@[simp] theorem Lot.setThr_slotData (l : Lot) (a : Agent) (t : Thread) : (l.setThr a t).slotData = l.slotData := rfl
@[simp] theorem Lot.setThr_slotScale (l : Lot) (a : Agent) (t : Thread) : (l.setThr a t).slotScale = l.slotScale := rfl
@[simp] theorem Lot.setThr_slotState (l : Lot) (a : Agent) (t : Thread) : (l.setThr a t).slotState = l.slotState := rfl
@[simp] theorem Lot.setThr_acc (l : Lot) (a : Agent) (t : Thread) : (l.setThr a t).acc = l.acc := rfl
@[simp] theorem Lot.setThr_accInt (l : Lot) (a : Agent) (t : Thread) : (l.setThr a t).accInt = l.accInt := rfl
@[simp] theorem Lot.setThr_tags (l : Lot) (a : Agent) (t : Thread) : (l.setThr a t).tags = l.tags := rfl
@[simp] theorem Lot.setThr_bars (l : Lot) (a : Agent) (t : Thread) : (l.setThr a t).bars = l.bars := rfl
@[simp] theorem Lot.setThr_dq (l : Lot) (a : Agent) (t : Thread) : (l.setThr a t).dq = l.dq := rfl
@[simp] theorem Lot.setThr_dqP (l : Lot) (a : Agent) (t : Thread) : (l.setThr a t).dqP = l.dqP := rfl
@[simp] theorem Lot.setThr_kicks (l : Lot) (a : Agent) (t : Thread) : (l.setThr a t).kicks = l.kicks := rfl
@[simp] theorem Lot.setThr_done (l : Lot) (a : Agent) (t : Thread) : (l.setThr a t).done = l.done := rfl
@[simp] theorem Lot.setThr_barkExited (l : Lot) (a : Agent) (t : Thread) : (l.setThr a t).barkExited = l.barkExited := rfl
@[simp] theorem Lot.setThr_phase (l : Lot) (a : Agent) (t : Thread) : (l.setThr a t).phase = l.phase := rfl
@[simp] theorem Lot.setThr_firstFault (l : Lot) (a : Agent) (t : Thread) : (l.setThr a t).firstFault = l.firstFault := rfl
@[simp] theorem Lot.setThr_firstSeq (l : Lot) (a : Agent) (t : Thread) : (l.setThr a t).firstSeq = l.firstSeq := rfl
@[simp] theorem Lot.setThr_nfault (l : Lot) (a : Agent) (t : Thread) : (l.setThr a t).nfault = l.nfault := rfl
@[simp] theorem Lot.setThr_captured (l : Lot) (a : Agent) (t : Thread) : (l.setThr a t).captured = l.captured := rfl
@[simp] theorem Lot.setThr_saving (l : Lot) (a : Agent) (t : Thread) : (l.setThr a t).saving = l.saving := rfl
@[simp] theorem Lot.setThr_gangs (l : Lot) (a : Agent) (t : Thread) : (l.setThr a t).gangs = l.gangs := rfl

@[simp] theorem Lot.setWarp_ctx (l : Lot) (w : Nat) (x : Warp) : (l.setWarp w x).ctx = l.ctx := rfl
@[simp] theorem Lot.setWarp_launch (l : Lot) (w : Nat) (x : Warp) : (l.setWarp w x).launch = l.launch := rfl
@[simp] theorem Lot.setWarp_index (l : Lot) (w : Nat) (x : Warp) : (l.setWarp w x).index = l.index := rfl
@[simp] theorem Lot.setWarp_d (l : Lot) (w : Nat) (x : Warp) : (l.setWarp w x).d = l.d := rfl
@[simp] theorem Lot.setWarp_nthreads (l : Lot) (w : Nat) (x : Warp) : (l.setWarp w x).nthreads = l.nthreads := rfl
@[simp] theorem Lot.setWarp_nwarps (l : Lot) (w : Nat) (x : Warp) : (l.setWarp w x).nwarps = l.nwarps := rfl
@[simp] theorem Lot.setWarp_threads (l : Lot) (w : Nat) (x : Warp) : (l.setWarp w x).threads = l.threads := rfl
@[simp] theorem Lot.setWarp_warps (l : Lot) (w : Nat) (x : Warp) : (l.setWarp w x).warps = Tbl.put Warp.none l.warps w x := rfl
@[simp] theorem Lot.setWarp_vregs (l : Lot) (w : Nat) (x : Warp) : (l.setWarp w x).vregs = l.vregs := rfl
@[simp] theorem Lot.setWarp_sregs (l : Lot) (w : Nat) (x : Warp) : (l.setWarp w x).sregs = l.sregs := rfl
@[simp] theorem Lot.setWarp_scratch (l : Lot) (w : Nat) (x : Warp) : (l.setWarp w x).scratch = l.scratch := rfl
@[simp] theorem Lot.setWarp_slotData (l : Lot) (w : Nat) (x : Warp) : (l.setWarp w x).slotData = l.slotData := rfl
@[simp] theorem Lot.setWarp_slotScale (l : Lot) (w : Nat) (x : Warp) : (l.setWarp w x).slotScale = l.slotScale := rfl
@[simp] theorem Lot.setWarp_slotState (l : Lot) (w : Nat) (x : Warp) : (l.setWarp w x).slotState = l.slotState := rfl
@[simp] theorem Lot.setWarp_acc (l : Lot) (w : Nat) (x : Warp) : (l.setWarp w x).acc = l.acc := rfl
@[simp] theorem Lot.setWarp_accInt (l : Lot) (w : Nat) (x : Warp) : (l.setWarp w x).accInt = l.accInt := rfl
@[simp] theorem Lot.setWarp_tags (l : Lot) (w : Nat) (x : Warp) : (l.setWarp w x).tags = l.tags := rfl
@[simp] theorem Lot.setWarp_bars (l : Lot) (w : Nat) (x : Warp) : (l.setWarp w x).bars = l.bars := rfl
@[simp] theorem Lot.setWarp_dq (l : Lot) (w : Nat) (x : Warp) : (l.setWarp w x).dq = l.dq := rfl
@[simp] theorem Lot.setWarp_dqP (l : Lot) (w : Nat) (x : Warp) : (l.setWarp w x).dqP = l.dqP := rfl
@[simp] theorem Lot.setWarp_kicks (l : Lot) (w : Nat) (x : Warp) : (l.setWarp w x).kicks = l.kicks := rfl
@[simp] theorem Lot.setWarp_done (l : Lot) (w : Nat) (x : Warp) : (l.setWarp w x).done = l.done := rfl
@[simp] theorem Lot.setWarp_barkExited (l : Lot) (w : Nat) (x : Warp) : (l.setWarp w x).barkExited = l.barkExited := rfl
@[simp] theorem Lot.setWarp_phase (l : Lot) (w : Nat) (x : Warp) : (l.setWarp w x).phase = l.phase := rfl
@[simp] theorem Lot.setWarp_firstFault (l : Lot) (w : Nat) (x : Warp) : (l.setWarp w x).firstFault = l.firstFault := rfl
@[simp] theorem Lot.setWarp_firstSeq (l : Lot) (w : Nat) (x : Warp) : (l.setWarp w x).firstSeq = l.firstSeq := rfl
@[simp] theorem Lot.setWarp_nfault (l : Lot) (w : Nat) (x : Warp) : (l.setWarp w x).nfault = l.nfault := rfl
@[simp] theorem Lot.setWarp_captured (l : Lot) (w : Nat) (x : Warp) : (l.setWarp w x).captured = l.captured := rfl
@[simp] theorem Lot.setWarp_saving (l : Lot) (w : Nat) (x : Warp) : (l.setWarp w x).saving = l.saving := rfl
@[simp] theorem Lot.setWarp_gangs (l : Lot) (w : Nat) (x : Warp) : (l.setWarp w x).gangs = l.gangs := rfl

@[simp] theorem Lot.setVreg_ctx (l : Lot) (w r i : Nat) (v : Word) : (l.setVreg w r i v).ctx = l.ctx := rfl
@[simp] theorem Lot.setVreg_launch (l : Lot) (w r i : Nat) (v : Word) : (l.setVreg w r i v).launch = l.launch := rfl
@[simp] theorem Lot.setVreg_index (l : Lot) (w r i : Nat) (v : Word) : (l.setVreg w r i v).index = l.index := rfl
@[simp] theorem Lot.setVreg_d (l : Lot) (w r i : Nat) (v : Word) : (l.setVreg w r i v).d = l.d := rfl
@[simp] theorem Lot.setVreg_nthreads (l : Lot) (w r i : Nat) (v : Word) : (l.setVreg w r i v).nthreads = l.nthreads := rfl
@[simp] theorem Lot.setVreg_nwarps (l : Lot) (w r i : Nat) (v : Word) : (l.setVreg w r i v).nwarps = l.nwarps := rfl
@[simp] theorem Lot.setVreg_threads (l : Lot) (w r i : Nat) (v : Word) : (l.setVreg w r i v).threads = l.threads := rfl
@[simp] theorem Lot.setVreg_warps (l : Lot) (w r i : Nat) (v : Word) : (l.setVreg w r i v).warps = l.warps := rfl
@[simp] theorem Lot.setVreg_vregs (l : Lot) (w r i : Nat) (v : Word) : (l.setVreg w r i v).vregs = Tbl.put 0 l.vregs ((128 * w + r) * 32 + i) v := rfl
@[simp] theorem Lot.setVreg_sregs (l : Lot) (w r i : Nat) (v : Word) : (l.setVreg w r i v).sregs = l.sregs := rfl
@[simp] theorem Lot.setVreg_scratch (l : Lot) (w r i : Nat) (v : Word) : (l.setVreg w r i v).scratch = l.scratch := rfl
@[simp] theorem Lot.setVreg_slotData (l : Lot) (w r i : Nat) (v : Word) : (l.setVreg w r i v).slotData = l.slotData := rfl
@[simp] theorem Lot.setVreg_slotScale (l : Lot) (w r i : Nat) (v : Word) : (l.setVreg w r i v).slotScale = l.slotScale := rfl
@[simp] theorem Lot.setVreg_slotState (l : Lot) (w r i : Nat) (v : Word) : (l.setVreg w r i v).slotState = l.slotState := rfl
@[simp] theorem Lot.setVreg_acc (l : Lot) (w r i : Nat) (v : Word) : (l.setVreg w r i v).acc = l.acc := rfl
@[simp] theorem Lot.setVreg_accInt (l : Lot) (w r i : Nat) (v : Word) : (l.setVreg w r i v).accInt = l.accInt := rfl
@[simp] theorem Lot.setVreg_tags (l : Lot) (w r i : Nat) (v : Word) : (l.setVreg w r i v).tags = l.tags := rfl
@[simp] theorem Lot.setVreg_bars (l : Lot) (w r i : Nat) (v : Word) : (l.setVreg w r i v).bars = l.bars := rfl
@[simp] theorem Lot.setVreg_dq (l : Lot) (w r i : Nat) (v : Word) : (l.setVreg w r i v).dq = l.dq := rfl
@[simp] theorem Lot.setVreg_dqP (l : Lot) (w r i : Nat) (v : Word) : (l.setVreg w r i v).dqP = l.dqP := rfl
@[simp] theorem Lot.setVreg_kicks (l : Lot) (w r i : Nat) (v : Word) : (l.setVreg w r i v).kicks = l.kicks := rfl
@[simp] theorem Lot.setVreg_done (l : Lot) (w r i : Nat) (v : Word) : (l.setVreg w r i v).done = l.done := rfl
@[simp] theorem Lot.setVreg_barkExited (l : Lot) (w r i : Nat) (v : Word) : (l.setVreg w r i v).barkExited = l.barkExited := rfl
@[simp] theorem Lot.setVreg_phase (l : Lot) (w r i : Nat) (v : Word) : (l.setVreg w r i v).phase = l.phase := rfl
@[simp] theorem Lot.setVreg_firstFault (l : Lot) (w r i : Nat) (v : Word) : (l.setVreg w r i v).firstFault = l.firstFault := rfl
@[simp] theorem Lot.setVreg_firstSeq (l : Lot) (w r i : Nat) (v : Word) : (l.setVreg w r i v).firstSeq = l.firstSeq := rfl
@[simp] theorem Lot.setVreg_nfault (l : Lot) (w r i : Nat) (v : Word) : (l.setVreg w r i v).nfault = l.nfault := rfl
@[simp] theorem Lot.setVreg_captured (l : Lot) (w r i : Nat) (v : Word) : (l.setVreg w r i v).captured = l.captured := rfl
@[simp] theorem Lot.setVreg_saving (l : Lot) (w r i : Nat) (v : Word) : (l.setVreg w r i v).saving = l.saving := rfl
@[simp] theorem Lot.setVreg_gangs (l : Lot) (w r i : Nat) (v : Word) : (l.setVreg w r i v).gangs = l.gangs := rfl

@[simp] theorem Lot.setSreg_ctx (l : Lot) (r : Nat) (v : Word64) : (l.setSreg r v).ctx = l.ctx := rfl
@[simp] theorem Lot.setSreg_launch (l : Lot) (r : Nat) (v : Word64) : (l.setSreg r v).launch = l.launch := rfl
@[simp] theorem Lot.setSreg_index (l : Lot) (r : Nat) (v : Word64) : (l.setSreg r v).index = l.index := rfl
@[simp] theorem Lot.setSreg_d (l : Lot) (r : Nat) (v : Word64) : (l.setSreg r v).d = l.d := rfl
@[simp] theorem Lot.setSreg_nthreads (l : Lot) (r : Nat) (v : Word64) : (l.setSreg r v).nthreads = l.nthreads := rfl
@[simp] theorem Lot.setSreg_nwarps (l : Lot) (r : Nat) (v : Word64) : (l.setSreg r v).nwarps = l.nwarps := rfl
@[simp] theorem Lot.setSreg_threads (l : Lot) (r : Nat) (v : Word64) : (l.setSreg r v).threads = l.threads := rfl
@[simp] theorem Lot.setSreg_warps (l : Lot) (r : Nat) (v : Word64) : (l.setSreg r v).warps = l.warps := rfl
@[simp] theorem Lot.setSreg_vregs (l : Lot) (r : Nat) (v : Word64) : (l.setSreg r v).vregs = l.vregs := rfl
@[simp] theorem Lot.setSreg_sregs (l : Lot) (r : Nat) (v : Word64) : (l.setSreg r v).sregs = Tbl.put 0 l.sregs r v := rfl
@[simp] theorem Lot.setSreg_scratch (l : Lot) (r : Nat) (v : Word64) : (l.setSreg r v).scratch = l.scratch := rfl
@[simp] theorem Lot.setSreg_slotData (l : Lot) (r : Nat) (v : Word64) : (l.setSreg r v).slotData = l.slotData := rfl
@[simp] theorem Lot.setSreg_slotScale (l : Lot) (r : Nat) (v : Word64) : (l.setSreg r v).slotScale = l.slotScale := rfl
@[simp] theorem Lot.setSreg_slotState (l : Lot) (r : Nat) (v : Word64) : (l.setSreg r v).slotState = l.slotState := rfl
@[simp] theorem Lot.setSreg_acc (l : Lot) (r : Nat) (v : Word64) : (l.setSreg r v).acc = l.acc := rfl
@[simp] theorem Lot.setSreg_accInt (l : Lot) (r : Nat) (v : Word64) : (l.setSreg r v).accInt = l.accInt := rfl
@[simp] theorem Lot.setSreg_tags (l : Lot) (r : Nat) (v : Word64) : (l.setSreg r v).tags = l.tags := rfl
@[simp] theorem Lot.setSreg_bars (l : Lot) (r : Nat) (v : Word64) : (l.setSreg r v).bars = l.bars := rfl
@[simp] theorem Lot.setSreg_dq (l : Lot) (r : Nat) (v : Word64) : (l.setSreg r v).dq = l.dq := rfl
@[simp] theorem Lot.setSreg_dqP (l : Lot) (r : Nat) (v : Word64) : (l.setSreg r v).dqP = l.dqP := rfl
@[simp] theorem Lot.setSreg_kicks (l : Lot) (r : Nat) (v : Word64) : (l.setSreg r v).kicks = l.kicks := rfl
@[simp] theorem Lot.setSreg_done (l : Lot) (r : Nat) (v : Word64) : (l.setSreg r v).done = l.done := rfl
@[simp] theorem Lot.setSreg_barkExited (l : Lot) (r : Nat) (v : Word64) : (l.setSreg r v).barkExited = l.barkExited := rfl
@[simp] theorem Lot.setSreg_phase (l : Lot) (r : Nat) (v : Word64) : (l.setSreg r v).phase = l.phase := rfl
@[simp] theorem Lot.setSreg_firstFault (l : Lot) (r : Nat) (v : Word64) : (l.setSreg r v).firstFault = l.firstFault := rfl
@[simp] theorem Lot.setSreg_firstSeq (l : Lot) (r : Nat) (v : Word64) : (l.setSreg r v).firstSeq = l.firstSeq := rfl
@[simp] theorem Lot.setSreg_nfault (l : Lot) (r : Nat) (v : Word64) : (l.setSreg r v).nfault = l.nfault := rfl
@[simp] theorem Lot.setSreg_captured (l : Lot) (r : Nat) (v : Word64) : (l.setSreg r v).captured = l.captured := rfl
@[simp] theorem Lot.setSreg_saving (l : Lot) (r : Nat) (v : Word64) : (l.setSreg r v).saving = l.saving := rfl
@[simp] theorem Lot.setSreg_gangs (l : Lot) (r : Nat) (v : Word64) : (l.setSreg r v).gangs = l.gangs := rfl

@[simp] theorem Lot.setPred_ctx (l : Lot) (a : Agent) (p : Nat) (v : Bool) : (l.setPred a p v).ctx = l.ctx := rfl
@[simp] theorem Lot.setPred_launch (l : Lot) (a : Agent) (p : Nat) (v : Bool) : (l.setPred a p v).launch = l.launch := rfl
@[simp] theorem Lot.setPred_index (l : Lot) (a : Agent) (p : Nat) (v : Bool) : (l.setPred a p v).index = l.index := rfl
@[simp] theorem Lot.setPred_d (l : Lot) (a : Agent) (p : Nat) (v : Bool) : (l.setPred a p v).d = l.d := rfl
@[simp] theorem Lot.setPred_nthreads (l : Lot) (a : Agent) (p : Nat) (v : Bool) : (l.setPred a p v).nthreads = l.nthreads := rfl
@[simp] theorem Lot.setPred_nwarps (l : Lot) (a : Agent) (p : Nat) (v : Bool) : (l.setPred a p v).nwarps = l.nwarps := rfl
@[simp] theorem Lot.setPred_warps (l : Lot) (a : Agent) (p : Nat) (v : Bool) : (l.setPred a p v).warps = l.warps := rfl
@[simp] theorem Lot.setPred_vregs (l : Lot) (a : Agent) (p : Nat) (v : Bool) : (l.setPred a p v).vregs = l.vregs := rfl
@[simp] theorem Lot.setPred_sregs (l : Lot) (a : Agent) (p : Nat) (v : Bool) : (l.setPred a p v).sregs = l.sregs := rfl
@[simp] theorem Lot.setPred_scratch (l : Lot) (a : Agent) (p : Nat) (v : Bool) : (l.setPred a p v).scratch = l.scratch := rfl
@[simp] theorem Lot.setPred_slotData (l : Lot) (a : Agent) (p : Nat) (v : Bool) : (l.setPred a p v).slotData = l.slotData := rfl
@[simp] theorem Lot.setPred_slotScale (l : Lot) (a : Agent) (p : Nat) (v : Bool) : (l.setPred a p v).slotScale = l.slotScale := rfl
@[simp] theorem Lot.setPred_slotState (l : Lot) (a : Agent) (p : Nat) (v : Bool) : (l.setPred a p v).slotState = l.slotState := rfl
@[simp] theorem Lot.setPred_acc (l : Lot) (a : Agent) (p : Nat) (v : Bool) : (l.setPred a p v).acc = l.acc := rfl
@[simp] theorem Lot.setPred_accInt (l : Lot) (a : Agent) (p : Nat) (v : Bool) : (l.setPred a p v).accInt = l.accInt := rfl
@[simp] theorem Lot.setPred_tags (l : Lot) (a : Agent) (p : Nat) (v : Bool) : (l.setPred a p v).tags = l.tags := rfl
@[simp] theorem Lot.setPred_bars (l : Lot) (a : Agent) (p : Nat) (v : Bool) : (l.setPred a p v).bars = l.bars := rfl
@[simp] theorem Lot.setPred_dq (l : Lot) (a : Agent) (p : Nat) (v : Bool) : (l.setPred a p v).dq = l.dq := rfl
@[simp] theorem Lot.setPred_dqP (l : Lot) (a : Agent) (p : Nat) (v : Bool) : (l.setPred a p v).dqP = l.dqP := rfl
@[simp] theorem Lot.setPred_kicks (l : Lot) (a : Agent) (p : Nat) (v : Bool) : (l.setPred a p v).kicks = l.kicks := rfl
@[simp] theorem Lot.setPred_done (l : Lot) (a : Agent) (p : Nat) (v : Bool) : (l.setPred a p v).done = l.done := rfl
@[simp] theorem Lot.setPred_barkExited (l : Lot) (a : Agent) (p : Nat) (v : Bool) : (l.setPred a p v).barkExited = l.barkExited := rfl
@[simp] theorem Lot.setPred_phase (l : Lot) (a : Agent) (p : Nat) (v : Bool) : (l.setPred a p v).phase = l.phase := rfl
@[simp] theorem Lot.setPred_firstFault (l : Lot) (a : Agent) (p : Nat) (v : Bool) : (l.setPred a p v).firstFault = l.firstFault := rfl
@[simp] theorem Lot.setPred_firstSeq (l : Lot) (a : Agent) (p : Nat) (v : Bool) : (l.setPred a p v).firstSeq = l.firstSeq := rfl
@[simp] theorem Lot.setPred_nfault (l : Lot) (a : Agent) (p : Nat) (v : Bool) : (l.setPred a p v).nfault = l.nfault := rfl
@[simp] theorem Lot.setPred_captured (l : Lot) (a : Agent) (p : Nat) (v : Bool) : (l.setPred a p v).captured = l.captured := rfl
@[simp] theorem Lot.setPred_saving (l : Lot) (a : Agent) (p : Nat) (v : Bool) : (l.setPred a p v).saving = l.saving := rfl
@[simp] theorem Lot.setPred_gangs (l : Lot) (a : Agent) (p : Nat) (v : Bool) : (l.setPred a p v).gangs = l.gangs := rfl

@[simp] theorem Lot.orFlags_ctx (l : Lot) (w n : Nat) : (l.orFlags w n).ctx = l.ctx := rfl
@[simp] theorem Lot.orFlags_launch (l : Lot) (w n : Nat) : (l.orFlags w n).launch = l.launch := rfl
@[simp] theorem Lot.orFlags_index (l : Lot) (w n : Nat) : (l.orFlags w n).index = l.index := rfl
@[simp] theorem Lot.orFlags_d (l : Lot) (w n : Nat) : (l.orFlags w n).d = l.d := rfl
@[simp] theorem Lot.orFlags_nthreads (l : Lot) (w n : Nat) : (l.orFlags w n).nthreads = l.nthreads := rfl
@[simp] theorem Lot.orFlags_nwarps (l : Lot) (w n : Nat) : (l.orFlags w n).nwarps = l.nwarps := rfl
@[simp] theorem Lot.orFlags_threads (l : Lot) (w n : Nat) : (l.orFlags w n).threads = l.threads := rfl
@[simp] theorem Lot.orFlags_vregs (l : Lot) (w n : Nat) : (l.orFlags w n).vregs = l.vregs := rfl
@[simp] theorem Lot.orFlags_sregs (l : Lot) (w n : Nat) : (l.orFlags w n).sregs = l.sregs := rfl
@[simp] theorem Lot.orFlags_scratch (l : Lot) (w n : Nat) : (l.orFlags w n).scratch = l.scratch := rfl
@[simp] theorem Lot.orFlags_slotData (l : Lot) (w n : Nat) : (l.orFlags w n).slotData = l.slotData := rfl
@[simp] theorem Lot.orFlags_slotScale (l : Lot) (w n : Nat) : (l.orFlags w n).slotScale = l.slotScale := rfl
@[simp] theorem Lot.orFlags_slotState (l : Lot) (w n : Nat) : (l.orFlags w n).slotState = l.slotState := rfl
@[simp] theorem Lot.orFlags_acc (l : Lot) (w n : Nat) : (l.orFlags w n).acc = l.acc := rfl
@[simp] theorem Lot.orFlags_accInt (l : Lot) (w n : Nat) : (l.orFlags w n).accInt = l.accInt := rfl
@[simp] theorem Lot.orFlags_tags (l : Lot) (w n : Nat) : (l.orFlags w n).tags = l.tags := rfl
@[simp] theorem Lot.orFlags_bars (l : Lot) (w n : Nat) : (l.orFlags w n).bars = l.bars := rfl
@[simp] theorem Lot.orFlags_dq (l : Lot) (w n : Nat) : (l.orFlags w n).dq = l.dq := rfl
@[simp] theorem Lot.orFlags_dqP (l : Lot) (w n : Nat) : (l.orFlags w n).dqP = l.dqP := rfl
@[simp] theorem Lot.orFlags_kicks (l : Lot) (w n : Nat) : (l.orFlags w n).kicks = l.kicks := rfl
@[simp] theorem Lot.orFlags_done (l : Lot) (w n : Nat) : (l.orFlags w n).done = l.done := rfl
@[simp] theorem Lot.orFlags_barkExited (l : Lot) (w n : Nat) : (l.orFlags w n).barkExited = l.barkExited := rfl
@[simp] theorem Lot.orFlags_phase (l : Lot) (w n : Nat) : (l.orFlags w n).phase = l.phase := rfl
@[simp] theorem Lot.orFlags_firstFault (l : Lot) (w n : Nat) : (l.orFlags w n).firstFault = l.firstFault := rfl
@[simp] theorem Lot.orFlags_firstSeq (l : Lot) (w n : Nat) : (l.orFlags w n).firstSeq = l.firstSeq := rfl
@[simp] theorem Lot.orFlags_nfault (l : Lot) (w n : Nat) : (l.orFlags w n).nfault = l.nfault := rfl
@[simp] theorem Lot.orFlags_captured (l : Lot) (w n : Nat) : (l.orFlags w n).captured = l.captured := rfl
@[simp] theorem Lot.orFlags_saving (l : Lot) (w n : Nat) : (l.orFlags w n).saving = l.saving := rfl
@[simp] theorem Lot.orFlags_gangs (l : Lot) (w n : Nat) : (l.orFlags w n).gangs = l.gangs := rfl

/-! ### What the accessors read after an update -/

theorem lotKey_ne {c b c' b' : Nat} (hb : b < 4) (hb' : b' < 4) (h : c ≠ c' ∨ b ≠ b') : lotKey c b ≠ lotKey c' b' := by
  unfold lotKey; omega

@[simp] theorem State.lot?_setLot (s : State) (c b : Nat) (l : Lot) : (s.setLot c b l).lot? c b = some l := by
  unfold State.lot? State.setLot; rw [Tbl.get_put_same]
theorem State.lot?_setLot_other (s : State) (c b c' b' : Nat) (l : Lot) (h : lotKey c' b' ≠ lotKey c b) :
    (s.setLot c b l).lot? c' b' = s.lot? c' b' := by
  unfold State.lot? State.setLot; rw [Tbl.get_put_other _ _ _ _ _ h]
@[simp] theorem State.lot?_dropLot (s : State) (c b : Nat) : (s.dropLot c b).lot? c b = none := by
  unfold State.lot? State.dropLot; rw [Tbl.get_put_same]
theorem State.lot?_dropLot_other (s : State) (c b c' b' : Nat) (h : lotKey c' b' ≠ lotKey c b) :
    (s.dropLot c b).lot? c' b' = s.lot? c' b' := by
  unfold State.lot? State.dropLot; rw [Tbl.get_put_other _ _ _ _ _ h]
theorem State.lot?_of_lots {s t : State} (h : t.lots = s.lots) (c b : Nat) : t.lot? c b = s.lot? c b := congrArg (Tbl.get none · _) h

@[simp] theorem State.core_setCore (s : State) (c : Nat) (x : CoreS) : (s.setCore c x).core c = x := Tbl.get_put_same ..
theorem State.core_setCore_other (s : State) (c d : Nat) (x : CoreS) (h : d ≠ c) : (s.setCore c x).core d = s.core d :=
  Tbl.get_put_other _ _ _ _ _ h
theorem State.core_of_cores {s t : State} (h : t.cores = s.cores) (c : Nat) : t.core c = s.core c := congrArg (Tbl.get CoreS.none · _) h

@[simp] theorem State.issuer?_setIssuer (s : State) (u : Nat) (i : Option Issuer) : (s.setIssuer u i).issuer? u = i := Tbl.get_put_same ..
theorem State.issuer?_setIssuer_other (s : State) (u x : Nat) (i : Option Issuer) (h : x ≠ u) : (s.setIssuer u i).issuer? x = s.issuer? x :=
  Tbl.get_put_other _ _ _ _ _ h
theorem State.issuer?_of_running {s t : State} (h : t.running = s.running) (u : Nat) : t.issuer? u = s.issuer? u :=
  congrArg (Tbl.get none · _) h

@[simp] theorem State.reg_setReg (s : State) (pa : Nat) (v : Word64) : (s.setReg pa v).reg pa = v := by
  unfold State.reg State.setReg; rw [Tbl.get_put_same]
theorem State.reg_setReg_other (s : State) (pa x : Nat) (v : Word64) (h : x ≠ pa) : (s.setReg pa v).reg x = s.reg x := by
  unfold State.reg State.setReg; rw [Tbl.get_put_other _ _ _ _ _ h]
theorem State.reg_setRegF_other (s : State) (pa hi lo v x : Nat) (h : x ≠ pa) : (s.setRegF pa hi lo v).reg x = s.reg x :=
  State.reg_setReg_other s pa x _ h
theorem State.reg_of_dev {s t : State} (h : t.dev = s.dev) (pa : Nat) : t.reg pa = s.reg pa := by unfold State.reg; rw [h]

@[simp] theorem State.queue_setQueue (s : State) (q : Nat) (x : Queue) : (s.setQueue q x).queue q = x := Tbl.get_put_same ..
@[simp] theorem State.booth_setBooth (s : State) (k : Nat) (b : Booth) : (s.setBooth k b).booth k = b := Tbl.get_put_same ..
theorem State.booth_setBooth_other (s : State) (k j : Nat) (b : Booth) (h : j ≠ k) : (s.setBooth k b).booth j = s.booth j :=
  Tbl.get_put_other _ _ _ _ _ h
@[simp] theorem State.ctxS_setCtxS (s : State) (c : Nat) (x : CtxS) : (s.setCtxS c x).ctxS c = x := Tbl.get_put_same ..
@[simp] theorem State.counter_setCounter (s : State) (c i : Nat) (v : Word64) : (s.setCounter c i v).counter c i = v := Tbl.get_put_same ..

theorem Agent.key_ne {a b : Agent} (ha : a.l < 32) (hb : b.l < 32) (h : b ≠ a) : b.key ≠ a.key := by
  intro e; apply h
  obtain ⟨w, i⟩ := a; obtain ⟨w', i'⟩ := b
  simp only [Agent.key, Agent.mk.injEq] at *; omega
@[simp] theorem Lot.thr_setThr (l : Lot) (a : Agent) (t : Thread) : (l.setThr a t).thr a = t := Tbl.get_put_same ..
theorem Lot.thr_setThr_other (l : Lot) (a b : Agent) (t : Thread) (ha : a.l < 32) (hb : b.l < 32) (h : b ≠ a) :
    (l.setThr a t).thr b = l.thr b := Tbl.get_put_other _ _ _ _ _ (Agent.key_ne ha hb h)
@[simp] theorem Lot.thr_setWarp (l : Lot) (w : Nat) (x : Warp) (a : Agent) : (l.setWarp w x).thr a = l.thr a := rfl
@[simp] theorem Lot.thr_setVreg (l : Lot) (w r i : Nat) (v : Word) (a : Agent) : (l.setVreg w r i v).thr a = l.thr a := rfl
@[simp] theorem Lot.thr_setSreg (l : Lot) (r : Nat) (v : Word64) (a : Agent) : (l.setSreg r v).thr a = l.thr a := rfl
@[simp] theorem Lot.warp_setWarp (l : Lot) (w : Nat) (x : Warp) : (l.setWarp w x).warp w = x := Tbl.get_put_same ..
theorem Lot.warp_setWarp_other (l : Lot) (w v : Nat) (x : Warp) (h : v ≠ w) : (l.setWarp w x).warp v = l.warp v :=
  Tbl.get_put_other _ _ _ _ _ h
@[simp] theorem Lot.warp_setThr (l : Lot) (a : Agent) (t : Thread) (w : Nat) : (l.setThr a t).warp w = l.warp w := rfl
@[simp] theorem Lot.warp_setVreg (l : Lot) (w r i : Nat) (v : Word) (x : Nat) : (l.setVreg w r i v).warp x = l.warp x := rfl
@[simp] theorem Lot.warp_setSreg (l : Lot) (r : Nat) (v : Word64) (x : Nat) : (l.setSreg r v).warp x = l.warp x := rfl
@[simp] theorem Lot.vreg_setThr (l : Lot) (a : Agent) (t : Thread) (w r i : Nat) : (l.setThr a t).vreg w r i = l.vreg w r i := rfl
@[simp] theorem Lot.vreg_setWarp (l : Lot) (x : Nat) (y : Warp) (w r i : Nat) : (l.setWarp x y).vreg w r i = l.vreg w r i := rfl
@[simp] theorem Lot.vreg_setSreg (l : Lot) (x : Nat) (y : Word64) (w r i : Nat) : (l.setSreg x y).vreg w r i = l.vreg w r i := rfl
@[simp] theorem Lot.vreg_setVreg (l : Lot) (w r i : Nat) (v : Word) : (l.setVreg w r i v).vreg w r i = v := Tbl.get_put_same ..
theorem Lot.vreg_setVreg_other (l : Lot) (w r i w' r' i' : Nat) (v : Word) (hr : r < 128) (hr' : r' < 128) (hi : i < 32) (hi' : i' < 32)
    (h : w' ≠ w ∨ r' ≠ r ∨ i' ≠ i) : (l.setVreg w r i v).vreg w' r' i' = l.vreg w' r' i' :=
  Tbl.get_put_other _ _ _ _ _ (by omega)
@[simp] theorem Lot.sreg_setSreg (l : Lot) (r : Nat) (v : Word64) : (l.setSreg r v).sreg r = v := Tbl.get_put_same ..
theorem Lot.sreg_setSreg_other (l : Lot) (r x : Nat) (v : Word64) (h : x ≠ r) : (l.setSreg r v).sreg x = l.sreg x :=
  Tbl.get_put_other _ _ _ _ _ h
@[simp] theorem Lot.sreg_setThr (l : Lot) (a : Agent) (t : Thread) (r : Nat) : (l.setThr a t).sreg r = l.sreg r := rfl
@[simp] theorem Lot.sreg_setVreg (l : Lot) (w r i : Nat) (v : Word) (x : Nat) : (l.setVreg w r i v).sreg x = l.sreg x := rfl
@[simp] theorem Lot.sreg_setWarp (l : Lot) (w : Nat) (x : Warp) (r : Nat) : (l.setWarp w x).sreg r = l.sreg r := rfl

end Sys2Proof.Machine
end

