-- ==== Sys2Proof/Laws/Mem.lean ====
section
/-! SUPPORT. Laws of the operations over physical memory: each keeps the canonical form of memory, and what each leaves as it
was. -/

namespace Sys2Proof.Machine

/-! ### Bytes at their homes -/

/-- A byte at its home, once written: memory keeps its form. -/
theorem State.memWf_setHomeByte (s : State) (pa : Nat) (b : Byte) (h : s.memWf = true) : (s.setHomeByte pa b).memWf = true := by
  unfold State.setHomeByte
  split
  · split
    · exact h
    · exact Memory.wf_write _ _ _ h
  · exact Memory.wf_write _ _ _ h

theorem State.memWf_setHomeBytes (s : State) (pa : Nat) (bs : List Byte) (h : s.memWf = true) : (s.setHomeBytes pa bs).memWf = true := by
  induction bs generalizing s pa with
  | nil => exact h
  | cons b bs ih => exact ih _ _ (State.memWf_setHomeByte s pa b h)

/-- Memory is all that decides its form. -/
theorem State.memWf_of_m {s t : State} (h : t.m.mem = s.m.mem) : t.memWf = s.memWf := congrArg Memory.wf h

/-- A write to a byte at its home changes the memory side alone. -/
theorem State.setHomeByte_frame (s : State) (pa : Nat) (b : Byte) :
    s.setHomeByte pa b = { s with m := { s.m with mem := (s.setHomeByte pa b).m.mem, hostLines := (s.setHomeByte pa b).m.hostLines } } := by
  unfold State.setHomeByte
  split
  · split <;> rfl
  · rfl

theorem State.setHomeBytes_frame (s : State) (pa : Nat) (bs : List Byte) :
    s.setHomeBytes pa bs = { s with m := { s.m with mem := (s.setHomeBytes pa bs).m.mem, hostLines := (s.setHomeBytes pa bs).m.hostLines } } := by
  induction bs generalizing s pa with
  | nil => rfl
  | cons b bs ih =>
    rw [State.setHomeBytes, ih (s.setHomeByte pa b) (pa + 1), State.setHomeByte_frame s pa b]

/-- A byte of memory outside the bytes written reads as before. -/
theorem State.memByte_setHomeBytes_other (s : State) (pa x : Nat) (bs : List Byte) (h : x < pa ∨ pa + bs.length ≤ x) :
    (s.setHomeBytes pa bs).memByte x = s.memByte x := by
  induction bs generalizing s pa with
  | nil => rfl
  | cons b bs ih =>
    have hl : (b :: bs).length = bs.length + 1 := rfl
    rw [State.setHomeBytes, ih _ _ (by omega)]
    have hx : x ≠ pa := by omega
    unfold State.setHomeByte
    split
    · split
      · rfl
      · exact Memory.read_write_other _ _ _ _ hx
    · exact Memory.read_write_other _ _ _ _ hx

/-- Monitors that note a write change lots alone. -/
@[simp] theorem State.markMonitors_memWf (s : State) (line : Nat) (f : Nat → Bool) : (s.markMonitors line f).memWf = s.memWf := rfl
@[simp] theorem State.markMonitors_memByte (s : State) (line : Nat) (f : Nat → Bool) (x : Nat) :
    (s.markMonitors line f).memByte x = s.memByte x := rfl

/-! ### Lines -/

theorem State.memWf_foldl {α : Type} (f : State → α → State) (xs : List α) (s : State) (h : s.memWf = true)
    (hf : ∀ s x, s.memWf = true → (f s x).memWf = true) : (xs.foldl f s).memWf = true := by
  induction xs generalizing s with
  | nil => exact h
  | cons x xs ih => exact ih _ (hf s x h)

@[simp] theorem State.setDieLine_mem (s : State) (die line : Nat) (d : DieLine) : (s.setDieLine die line d).m.mem = s.m.mem := rfl
@[simp] theorem State.dropMirror_mem (s : State) (die line : Nat) : (s.dropMirror die line).m.mem = s.m.mem := rfl

@[simp] theorem State.bankServed_memWf (s : State) (pa : Nat) (w : Waiter) : (s.bankServed pa w).memWf = s.memWf := by
  unfold State.bankServed
  split
  · dsimp only; split <;> rfl
  · rfl

@[simp] theorem State.endTransfers_mem (s : State) (w : Waiter) : (s.endTransfers w).m = s.m := rfl

@[simp] theorem State.freeVal_mem (s : State) : s.freeVal.2.m.mem = s.m.mem := rfl

theorem State.memWf_writeHomeLine (s : State) (w : Waiter) (line v m : Nat) (h : s.memWf = true) :
    (s.writeHomeLine w line v m).memWf = true := by
  unfold State.writeHomeLine
  split
  · exact h
  · rw [State.markMonitors_memWf, State.bankServed_memWf]
    refine State.memWf_foldl _ _ _ h ?_
    intro s x hs
    split
    · exact State.memWf_setHomeByte _ _ _ hs
    · exact hs

theorem State.memWf_writeBack (s : State) (die line v m : Nat) (h : s.memWf = true) : (s.writeBack die line v m).memWf = true := by
  unfold State.writeBack
  split
  · dsimp only
    split
    · exact State.memWf_writeHomeLine _ _ _ _ _ h
    · exact h
  · exact State.memWf_writeHomeLine _ _ _ _ _ h

theorem State.memWf_enterDie (s : State) (e : Early) (h : s.memWf = true) : (s.enterDie e).memWf = true := by
  unfold State.enterDie
  dsimp only
  split
  · exact State.memWf_writeBack _ _ _ _ _ h
  · split <;> exact h

theorem State.memWf_settleLine (s : State) (die line : Nat) (h : s.memWf = true) : (s.settleLine die line).memWf = true :=
  State.memWf_foldl _ _ _ h (fun s e hs => State.memWf_enterDie s e hs)

theorem State.memWf_cleanLine (s : State) (die line : Nat) (h : s.memWf = true) : (s.cleanLine die line).memWf = true := by
  have h := State.memWf_settleLine s die line h
  unfold State.cleanLine
  dsimp only
  split
  · exact h
  · simp only [State.memWf, State.setDieLine_mem, State.dropMirror_mem, State.endTransfers_mem]
    exact State.memWf_writeBack _ _ _ _ _ h

theorem State.memWf_evictLine (s : State) (die line : Nat) (h : s.memWf = true) : (s.evictLine die line).memWf = true := by
  have h := State.memWf_cleanLine s die line h
  unfold State.evictLine
  dsimp only
  split <;> exact h

/-! ### Host lines and writes at homes -/

theorem State.memWf_hostClean (s : State) (k : Nat) (drop : Bool) (h : s.memWf = true) : (s.hostClean k drop).memWf = true := by
  unfold State.hostClean
  split
  · exact h
  · dsimp only
    split
    · exact Memory.wf_writeBytes _ _ _ h
    · exact h

theorem State.memWf_hostRoom (s : State) (half : Nat) (h : s.memWf = true) : (s.hostRoom half).memWf = true := by
  unfold State.hostRoom
  dsimp only
  split
  · exact h
  · exact State.memWf_hostClean _ _ _ h

theorem State.memWf_hostFill (s : State) (pa : Nat) (h : s.memWf = true) : (s.hostFill pa).memWf = true := by
  unfold State.hostFill
  dsimp only
  split
  · exact h
  · exact State.memWf_hostRoom _ _ h

theorem State.memWf_homeWrite (s : State) (pa n v : Nat) (h : s.memWf = true) : (s.homeWrite pa n v).memWf = true := by
  unfold State.homeWrite
  rw [State.markMonitors_memWf]
  apply State.memWf_setHomeBytes
  split
  · exact State.memWf_evictLine _ _ _ h
  · split
    · exact State.memWf_hostFill _ _ h
    · exact h

theorem State.memWf_homeRead (s : State) (pa n : Nat) (h : s.memWf = true) : (s.homeRead pa n).2.memWf = true := by
  unfold State.homeRead
  split
  · exact State.memWf_settleLine _ _ _ h
  · exact State.memWf_hostFill _ _ h
  · exact h

end Sys2Proof.Machine
end

