-- ==== Sys2Proof/Laws/Ops.lean ====
section
/-! SUPPORT. Laws of the shared operations of the instructions: what the frame of an instruction answers, and what a write of
a register value leaves and gives. -/

namespace Sys2Proof.Machine

/-! ### The frame of an instruction -/

/-- Where an instruction runs, its frame answers the instruction's own effect. -/
theorem State.instr_runs {s : State} {v : View} {p : BitVec 3} {th bk : Bool} {uses : List Use} (h : s.runs v p th bk uses)
    (f : View → State → State) : s.instr th bk uses p f = .next (f v s) := by
  obtain ⟨hv, -, hn⟩ := h
  unfold State.instr
  rw [hv]
  have hb : v.i.agents.filterMap (fun a => (v.l.instrFault a th bk uses).map (fun c => (a, c))) = [] := by
    rw [List.filterMap_eq_nil_iff]
    intro a ha
    rw [hn a ha]; rfl
  simp [hb]

theorem State.each_runs {s : State} {v : View} {p : BitVec 3} {bk : Bool} {uses : List Use} (h : s.runs v p true bk uses)
    (f : Lot → Agent → Lot) : s.each bk uses p f = .next (s.setLot v.i.core v.i.bctx (v.parts.foldl f v.l)) :=
  State.instr_runs h _

theorem State.eachWarp_runs {s : State} {v : View} {p : BitVec 3} {uses : List Use} (h : s.runs v p true false uses)
    (f : Lot → Nat → List Agent → Lot) :
    s.eachWarp uses p f = .next (s.setLot v.i.core v.i.bctx (((v.parts.map (fun a => a.w)).eraseDups).foldl
      (fun l w => f l w (v.parts.filter (fun a => a.w == w))) v.l)) :=
  State.instr_runs h _

/-- A view is of the active issuer's lot, and its participants are the agents whose guard is true. -/
theorem State.view_eq {s : State} {v : View} {p : BitVec 3} (h : s.view p = some v) :
    s.issuer? s.active = some v.i ∧ s.lot? v.i.core v.i.bctx = some v.l
      ∧ v.parts = v.i.agents.filter (fun a => v.l.pred a p.toNat) := by
  unfold State.view at h
  split at h
  · simp at h
  · next i hi =>
    split at h
    · simp at h
    · next l hl =>
      simp only [Option.some.injEq] at h
      subst h
      exact ⟨hi, hl, rfl⟩

/-- Participants are active agents, none twice. -/
theorem State.runs_parts {s : State} {v : View} {p : BitVec 3} {th bk : Bool} {uses : List Use} (h : s.runs v p th bk uses) :
    v.parts.Nodup ∧ ∀ a ∈ v.parts, a ∈ v.i.agents ∧ a.l < 32 := by
  obtain ⟨hv, ⟨hd, hf⟩, -⟩ := h
  obtain ⟨-, -, hp⟩ := State.view_eq hv
  rw [hp]
  refine ⟨hd.filter _, fun a ha => ?_⟩
  have := (List.mem_filter.mp ha).1
  exact ⟨this, (hf a this).1⟩

/-- A register operand of an agent whose instruction does not fault is in place: an aligned register whose last one exists. -/
theorem Lot.instrFault_use {l : Lot} {a : Agent} {th bk : Bool} {uses : List Use} (h : l.instrFault a th bk uses = none)
    {u : Use} (hu : u ∈ uses) : l.useFault a u = none := by
  have key : (uses.filterMap (fun u => l.useFault a u)).head? = none := by
    unfold Lot.instrFault at h
    dsimp only at h
    generalize (!(if a.isBarker = true then bk else th)) = c at h
    cases c
    · rw [if_neg (by simp)] at h
      split at h
      · simp at h
      · exact h
    · simp at h
  rw [List.head?_eq_none_iff, List.filterMap_eq_nil_iff] at key
  exact key u hu

/-- The registers of an aligned operand end at register 127 or before. -/
theorem Lot.useFault_fits {l : Lot} {a : Agent} {d : BitVec 7} {width : Nat} (hb : a.isBarker = false)
    (h : l.useFault a (useW d width) = none) : d.toNat + regsOf width ≤ 128 := by
  have hd := d.isLt
  have key : d.toNat % (useW d width).n = 0 := by
    unfold Lot.useFault at h
    rw [hb] at h
    simp only [Bool.false_eq_true, if_false] at h
    split at h
    · simp at h
    · next hn =>
      have hr : (useW d width).r = d := by unfold useW use1 use2 use4; split <;> [rfl; split <;> rfl]
      rw [hr] at hn
      simpa using hn
  unfold useW use1 use2 use4 at key
  unfold regsOf
  by_cases h1 : width = 128
  · simp only [h1, if_true] at key ⊢; omega
  · by_cases h2 : width = 64
    · rw [if_neg h1, if_pos h2] at key; rw [if_neg h1, if_pos h2]; simp only at key; omega
    · rw [if_neg h1, if_neg h2]; omega

/-- The scalars of an aligned operand of a barker. -/
theorem Lot.useFault_scalar {l : Lot} {a : Agent} {d : BitVec 7} {width : Nat} (hb : a.isBarker = true)
    (h : l.useFault a (useW d width) = none) : d.toNat + (if width = 128 then 2 else 1) ≤ 64 := by
  have key : d.toNat + ((useW d width).s - 1) ≤ 63 := by
    unfold Lot.useFault at h
    rw [hb] at h
    simp only [if_true] at h
    split at h
    · simp at h
    · next hn =>
      have hr : (useW d width).r = d := by unfold useW use1 use2 use4; split <;> [rfl; split <;> rfl]
      rw [hr] at hn
      simp only [Bool.or_eq_true, decide_eq_true_eq, not_or] at hn
      omega
  unfold useW use1 use2 use4 at key
  by_cases h1 : width = 128
  · simp only [h1, if_true] at key ⊢; omega
  · by_cases h2 : width = 64
    · rw [if_neg h1, if_pos h2] at key; rw [if_neg h1]; simp only at key; omega
    · rw [if_neg h1, if_neg h2] at key; rw [if_neg h1]; simp only at key; omega

/-! ### Registers -/

theorem Agent.eq_of {a b : Agent} (hw : a.w = b.w) (hl : a.l = b.l) : a = b := by cases a; cases b; simp_all

/-- A write of consecutive registers of a column. -/
theorem Lot.vreg_setRegs (l : Lot) (a : Agent) (r v n w x i : Nat) (ha : a.l < 32) (hr : r + n ≤ 128) (hx : x < 128) (hi : i < 32) :
    (l.setRegs a r v n).vreg w x i =
      if w = a.w ∧ i = a.l ∧ r ≤ x ∧ x < r + n then BitVec.ofNat 32 (v / 2 ^ (32 * (x - r))) else l.vreg w x i := by
  induction n generalizing l r v with
  | zero =>
    rw [if_neg (by omega)]
    rfl
  | succ n ih =>
    rw [Lot.setRegs, ih _ _ _ (by omega)]
    by_cases h1 : w = a.w ∧ i = a.l ∧ r + 1 ≤ x ∧ x < r + 1 + n
    · rw [if_pos h1, if_pos ⟨h1.1, h1.2.1, by omega, by omega⟩, Nat.div_div_eq_div_mul, ← Nat.pow_add]
      congr 3
      omega
    · rw [if_neg h1]
      by_cases h2 : w = a.w ∧ i = a.l ∧ r ≤ x ∧ x < r + (n + 1)
      · have hxr : x = r := by omega
        obtain ⟨rfl, rfl, -, -⟩ := h2
        subst hxr
        rw [Lot.vreg_setVreg, if_pos ⟨rfl, rfl, by omega, by omega⟩]
        simp
      · rw [if_neg h2]
        exact Lot.vreg_setVreg_other _ _ _ _ _ _ _ _ (by omega) hx ha hi (by omega)

/-- A write of registers changes the vector registers alone. -/
theorem Lot.setRegs_frame (l : Lot) (a : Agent) (r v n : Nat) : l.setRegs a r v n = { l with vregs := (l.setRegs a r v n).vregs } := by
  induction n generalizing l r v with
  | zero => rfl
  | succ n ih =>
    rw [Lot.setRegs, ih]
    rfl

/-- The registers written read back as the value. -/
theorem Lot.regs_setRegs (l : Lot) (a : Agent) (r v n : Nat) (ha : a.l < 32) (hr : r + n ≤ 128) :
    (l.setRegs a r v n).regs a r n = v % 2 ^ (32 * n) := by
  suffices h : ∀ k m r v (l' : Lot), r + k ≤ 128 →
      (∀ x, r ≤ x → x < r + k → l'.vreg a.w x a.l = BitVec.ofNat 32 (v / 2 ^ (32 * (x - r)))) → m = k → l'.regs a r m = v % 2 ^ (32 * k) by
    refine h n n r v _ hr (fun x h1 h2 => ?_) rfl
    rw [Lot.vreg_setRegs _ _ _ _ _ _ _ _ ha hr (by omega) ha, if_pos ⟨rfl, rfl, h1, h2⟩]
  intro k
  induction k with
  | zero => intro m r v l' _ _ hm; subst hm; simp [Lot.regs, Nat.mod_one]
  | succ k ih =>
    intro m r v l' hr hl hm
    subst hm
    rw [Lot.regs, ih k (r + 1) (v / 2 ^ 32) l' (by omega) ?_ rfl, hl r (by omega) (by omega)]
    · rw [BitVec.toNat_ofNat, Nat.sub_self, Nat.mul_zero, Nat.pow_zero, Nat.div_one, show 32 * (k + 1) = 32 + 32 * k by omega,
        Nat.pow_add, Nat.mod_mul]
    · intro x h1 h2
      rw [hl x (by omega) (by omega), Nat.div_div_eq_div_mul, ← Nat.pow_add]
      congr 3
      omega

/-- A result changes the registers alone. -/
theorem Lot.setVal_frame (l : Lot) (a : Agent) (d : BitVec 7) (width : Nat) (signed : Bool) (x : Nat) :
    l.setVal a d width signed x =
      { l with vregs := (l.setVal a d width signed x).vregs, sregs := (l.setVal a d width signed x).sregs } := by
  unfold Lot.setVal
  split
  · split <;> rfl
  · split
    · rw [Lot.setRegs_frame]
    · rw [Lot.setRegs_frame]

@[simp] theorem Lot.thr_setVal (l : Lot) (a b : Agent) (d : BitVec 7) (width : Nat) (signed : Bool) (x : Nat) :
    (l.setVal a d width signed x).thr b = l.thr b := by rw [Lot.setVal_frame]; rfl

@[simp] theorem Lot.warp_setVal (l : Lot) (a : Agent) (d : BitVec 7) (width : Nat) (signed : Bool) (x w : Nat) :
    (l.setVal a d width signed x).warp w = l.warp w := by rw [Lot.setVal_frame]; rfl

@[simp] theorem Lot.pred_setVal (l : Lot) (a b : Agent) (d : BitVec 7) (width : Nat) (signed : Bool) (x p : Nat) :
    (l.setVal a d width signed x).pred b p = l.pred b p := by rw [Lot.setVal_frame]; rfl

/-- A result stands in its registers. -/
theorem Lot.holds_setVal (l : Lot) (a : Agent) (d : BitVec 7) (width : Nat) (signed : Bool) (x : Nat)
    (hw : width < 32 ∨ width = 32 ∨ width = 64 ∨ width = 128) (ha : a.l < 32)
    (hr : a.isBarker = false → d.toNat + regsOf width ≤ 128) : (l.setVal a d width signed x).holds a d width signed x := by
  unfold Lot.setVal Lot.holds
  cases hb : a.isBarker
  · simp only [Bool.false_eq_true, if_false]
    have hr := hr hb
    split
    · have h1 : regsOf width = 1 := by unfold regsOf; split <;> [omega; split <;> omega]
      rw [h1] at hr ⊢
      rw [Lot.regs_setRegs _ _ _ _ _ ha hr]
      apply Nat.mod_eq_of_lt
      split
      · unfold sextN wrapI
        have : ∀ z : Int, (z % (2 ^ 32 : Int)).toNat < 2 ^ (32 * 1) := by intro z; omega
        exact this _
      · unfold wrapN
        exact Nat.lt_of_lt_of_le (Nat.mod_lt _ (Nat.two_pow_pos _)) (Nat.pow_le_pow_right (by decide) (by omega))
    · rw [Lot.regs_setRegs _ _ _ _ _ ha hr]
      unfold wrapN
      congr 2
      unfold regsOf
      split <;> [omega; split <;> omega]
  · simp only [if_true]
    split
    · refine ⟨?_, by simp⟩
      rw [Lot.sreg_setSreg_other _ _ _ _ (by omega)]
      simp
    · simp

/-- A result leaves every other register as it was. -/
theorem Lot.others_setVal (l : Lot) (a : Agent) (d : BitVec 7) (width : Nat) (signed : Bool) (x : Nat)
    (ha : a.l < 32) (hr : a.isBarker = false → d.toNat + regsOf width ≤ 128) :
    l.others (l.setVal a d width signed x) [a] d width := by
  unfold Lot.setVal Lot.others
  cases hb : a.isBarker
  · simp only [Bool.false_eq_true, if_false]
    have hr := hr hb
    have key : ∀ v n, n = regsOf width →
        (∀ w r lane, r < 128 → lane < 32 →
          ¬ (∃ b ∈ [a], b.isBarker = false ∧ b.w = w ∧ b.l = lane ∧ d.toNat ≤ r ∧ r < d.toNat + regsOf width) →
          (l.setRegs a d.toNat v n).vreg w r lane = l.vreg w r lane) ∧
        ∀ r, ¬ (∃ b ∈ [a], b.isBarker = true ∧ d.toNat ≤ r ∧ r < d.toNat + (if width = 128 then 2 else 1)) →
          (l.setRegs a d.toNat v n).sreg r = l.sreg r := by
      intro v n hn
      subst hn
      refine ⟨fun w r lane hr' hl hne => ?_, fun r _ => by rw [Lot.setRegs_frame]; rfl⟩
      rw [Lot.vreg_setRegs _ _ _ _ _ _ _ _ ha hr hr' hl, if_neg]
      rintro ⟨rfl, rfl, h1, h2⟩
      exact hne ⟨a, by simp, hb, rfl, rfl, h1, h2⟩
    split
    · exact key _ 1 (by unfold regsOf; split <;> [omega; split <;> omega])
    · exact key _ _ rfl
  · simp only [if_true]
    split
    · refine ⟨fun w r lane _ _ _ => rfl, fun r hne => ?_⟩
      have h0 : r ≠ d.toNat := fun h => hne ⟨a, by simp, hb, by omega, by omega⟩
      have h1 : r ≠ d.toNat + 1 := fun h => hne ⟨a, by simp, hb, by omega, by omega⟩
      rw [Lot.sreg_setSreg_other _ _ _ _ h1, Lot.sreg_setSreg_other _ _ _ _ h0]
    · refine ⟨fun w r lane _ _ _ => rfl, fun r hne => ?_⟩
      have h0 : r ≠ d.toNat := fun h => hne ⟨a, by simp, hb, by omega, by omega⟩
      exact Lot.sreg_setSreg_other _ _ _ _ h0

/-- The registers of another thread are as before a result. -/
theorem Lot.regs_setVal_other (l : Lot) (a b : Agent) (d : BitVec 7) (width : Nat) (signed : Bool) (x : Nat)
    (ha : a.l < 32) (hb : b.l < 32) (hab : b ≠ a) (hd : a.isBarker = false → d.toNat + regsOf width ≤ 128) (k r : Nat)
    (hr : r + k ≤ 128) : (l.setVal a d width signed x).regs b r k = l.regs b r k := by
  have ho := (Lot.others_setVal l a d width signed x ha hd).1
  induction k generalizing r with
  | zero => rfl
  | succ k ih =>
    rw [Lot.regs, Lot.regs, ih (r + 1) (by omega), ho b.w r b.l (by omega) hb]
    rintro ⟨c, hc, -, hw, hl, -, -⟩
    rw [List.mem_singleton] at hc
    subst hc
    exact hab (Agent.eq_of hw.symm hl.symm)

/-- An operand of another thread reads as before a result. -/
theorem Lot.val_setVal_other (l : Lot) (a b : Agent) (d r : BitVec 7) (width n : Nat) (signed : Bool) (x : Nat)
    (ha : a.l < 32) (hb : b.l < 32) (hab : b ≠ a) (hbb : b.isBarker = false)
    (hd : a.isBarker = false → d.toNat + regsOf width ≤ 128) (hr : r.toNat + regsOf n ≤ 128) :
    (l.setVal a d width signed x).val b r n = l.val b r n := by
  unfold Lot.val
  rw [hbb]
  simp only [Bool.false_eq_true, if_false]
  rw [Lot.regs_setVal_other l a b d width signed x ha hb hab hd _ _ hr]

/-- Registers outside those of two groups of agents, one after the other. -/
theorem Lot.others_trans {l m n : Lot} {as bs : List Agent} {d : BitVec 7} {width : Nat} (h1 : l.others m as d width)
    (h2 : m.others n bs d width) : l.others n (as ++ bs) d width := by
  refine ⟨fun w r lane hr hl hne => ?_, fun r hne => ?_⟩
  · rw [h2.1 w r lane hr hl (fun ⟨c, hc, h⟩ => hne ⟨c, by simp [hc], h⟩),
      h1.1 w r lane hr hl (fun ⟨c, hc, h⟩ => hne ⟨c, by simp [hc], h⟩)]
  · rw [h2.2 r (fun ⟨c, hc, h⟩ => hne ⟨c, by simp [hc], h⟩), h1.2 r (fun ⟨c, hc, h⟩ => hne ⟨c, by simp [hc], h⟩)]

/-! ### An instruction that writes one result for each participant -/

/-- A value computed from a lot by each agent of a list depends on that agent's own registers alone: it is the same in every
lot that differs in the registers of other agents only. -/
def Lot.ownRegs (l : Lot) (as : List Agent) (g : Lot → Agent → Nat) : Prop :=
  ∀ m, m = { l with vregs := m.vregs, sregs := m.sregs } → ∀ a ∈ as,
    (a.isBarker = false → ∀ r, r < 128 → m.vreg a.w r a.l = l.vreg a.w r a.l) → (a.isBarker = true → m = l) → g m a = g l a

/-- An operand in place is such a value. -/
theorem Lot.val_own {l m : Lot} {a : Agent} {r : BitVec 7} {n : Nat} (hr : a.isBarker = false → r.toNat + regsOf n ≤ 128)
    (h1 : a.isBarker = false → ∀ r, r < 128 → m.vreg a.w r a.l = l.vreg a.w r a.l) (h2 : a.isBarker = true → m = l) :
    m.val a r n = l.val a r n := by
  cases hb : a.isBarker
  · have key : ∀ k r, r + k ≤ 128 → m.regs a r k = l.regs a r k := by
      intro k
      induction k with
      | zero => intro r _; rfl
      | succ k ih => intro r hr; rw [Lot.regs, Lot.regs, ih (r + 1) (by omega), h1 hb r (by omega)]
    unfold Lot.val
    rw [hb]
    simp only [Bool.false_eq_true, if_false]
    rw [key _ _ (hr hb)]
  · rw [h2 hb]

theorem Lot.foldl_setVal (l : Lot) (as : List Agent) (d : BitVec 7) (width : Nat) (signed : Bool) (g : Lot → Agent → Nat)
    (hw : width < 32 ∨ width = 32 ∨ width = 64 ∨ width = 128) (hn : as.Nodup)
    (hok : ∀ a ∈ as, a.l < 32 ∧ (a.isBarker = false → d.toNat + regsOf width ≤ 128) ∧ (a.isBarker = true → as = [a]))
    (hg : l.ownRegs as g) :
    ∃ l', as.foldl (fun l a => l.setVal a d width signed (g l a)) l = l'
      ∧ l' = { l with vregs := l'.vregs, sregs := l'.sregs }
      ∧ (∀ a ∈ as, l'.holds a d width signed (g l a)) ∧ l.others l' as d width := by
  refine ⟨_, rfl, ?_⟩
  induction as using List.reverseRecOn with
  | nil => exact ⟨rfl, by simp, fun _ _ _ _ _ _ => rfl, fun _ _ => rfl⟩
  | append_singleton as a ih =>
    have hna : a ∉ as := fun h => by
      rw [List.nodup_append] at hn
      exact hn.2.2 a h a (by simp) rfl
    have hnb : ∀ b ∈ as, b.isBarker = false := fun b hb => by
      cases h : b.isBarker
      · rfl
      · have he := (hok b (by simp [hb])).2.2 h
        have hl := congrArg List.length he
        have hp := List.length_pos_of_mem hb
        simp at hl
        simp [hl] at hp
    obtain ⟨hf, hh, ho⟩ := ih (List.Nodup.of_append_left hn)
      (fun b hb => ⟨(hok b (by simp [hb])).1, (hok b (by simp [hb])).2.1, fun h => by rw [hnb b hb] at h; simp at h⟩)
      (fun m hm b hb => hg m hm b (by simp [hb]))
    obtain ⟨hal, had, hab⟩ := hok a (by simp)
    rw [List.foldl_append]
    simp only [List.foldl_cons, List.foldl_nil]
    generalize hm : as.foldl (fun l a => l.setVal a d width signed (g l a)) l = m at hf hh ho ⊢
    have hga : g m a = g l a := by
      refine hg m hf a (by simp) (fun hb r hr => ho.1 a.w r a.l hr hal ?_) (fun hb => ?_)
      · rintro ⟨c, hc, -, h1, h2, -, -⟩
        have hca : c = a := Agent.eq_of h1 h2
        exact hna (hca ▸ hc)
      · have he := congrArg List.length (hab hb)
        have hnil : as = [] := by
          simp at he
          exact he
        subst hnil
        exact hm.symm
    rw [hga]
    refine ⟨?_, fun b hb => ?_, Lot.others_trans ho (Lot.others_setVal m a d width signed _ hal had)⟩
    · refine (Lot.setVal_frame ..).trans ?_
      generalize m.setVal a d width signed (g l a) = x
      rw [hf]
    · rw [List.mem_append, List.mem_singleton] at hb
      rcases hb with hb | rfl
      · have h := hh b hb
        have hbf := hnb b hb
        unfold Lot.holds at h ⊢
        rw [hbf] at h ⊢
        simp only [Bool.false_eq_true, if_false] at h ⊢
        rw [Lot.regs_setVal_other m a b d width signed _ hal (hok b (by simp [hb])).1 (fun h => hna (h ▸ hb)) had _ _
          ((hok b (by simp [hb])).2.1 hbf)]
        exact h
      · exact Lot.holds_setVal m b d width signed _ hw hal had

/-- An instruction that gives each participant one result of a width: where it runs it answers a next state, in which every
destination holds its result and nothing else changed. -/
theorem State.each_wrote {s : State} {v : View} {p : BitVec 3} {bk : Bool} {uses : List Use} {d : BitVec 7} {width : Nat}
    (h : s.runs v p true bk uses) (hu : useW d width ∈ uses) (hw : width < 32 ∨ width = 32 ∨ width = 64 ∨ width = 128)
    (signed : Bool) (g : Lot → Agent → Nat) (hg : v.l.ownRegs v.parts g) :
    ∃ t, s.each bk uses p (fun l a => l.setVal a d width signed (g l a)) = .next t ∧ s.wrote t v d width signed (g v.l) := by
  obtain ⟨hn, hp⟩ := State.runs_parts h
  have hb : ∀ a ∈ v.parts, a.isBarker = true → v.parts = [a] := fun a ha hb => by
    have he := (h.2.1.2 a (hp a ha).1).2 hb
    obtain ⟨-, -, hps⟩ := State.view_eq h.1
    rw [he] at hps
    have hm := (hp a ha).1
    rw [he, List.mem_singleton] at hm
    subst hm
    rw [hps] at ha ⊢
    simp [(List.mem_filter.mp ha).2]
  obtain ⟨l', hl, hf, hh, ho⟩ := Lot.foldl_setVal v.l v.parts d width signed g hw hn (fun a ha => ⟨(hp a ha).2,
    fun hb => Lot.useFault_fits hb (Lot.instrFault_use (h.2.2 a (hp a ha).1) hu), hb a ha⟩) hg
  exact ⟨_, State.each_runs h _, l', by rw [hl], hf, hh, ho, fun _ => rfl⟩

end Sys2Proof.Machine
end

