-- ==== Sys2Proof/Laws/Units.lean ====
section
/-! SUPPORT. Laws of the units outside the cores: one lemma per field per update, what is read after it, and what the way of an
access to its home can answer. -/

namespace Sys2Proof.Machine

/-! ### Fields of the state after an update -/

@[simp] theorem State.setDieLine_agenda (s : State) (die line : Nat) (d : DieLine) : (s.setDieLine die line d).agenda = s.agenda := rfl
@[simp] theorem State.setDieLine_active (s : State) (die line : Nat) (d : DieLine) : (s.setDieLine die line d).active = s.active := rfl
@[simp] theorem State.setDieLine_actBank (s : State) (die line : Nat) (d : DieLine) : (s.setDieLine die line d).actBank = s.actBank := rfl
@[simp] theorem State.setDieLine_nextId (s : State) (die line : Nat) (d : DieLine) : (s.setDieLine die line d).nextId = s.nextId := rfl
@[simp] theorem State.setDieLine_free (s : State) (die line : Nat) (d : DieLine) : (s.setDieLine die line d).free = s.free := rfl
@[simp] theorem State.setDieLine_running (s : State) (die line : Nat) (d : DieLine) : (s.setDieLine die line d).running = s.running := rfl
@[simp] theorem State.setDieLine_cores (s : State) (die line : Nat) (d : DieLine) : (s.setDieLine die line d).cores = s.cores := rfl
@[simp] theorem State.setDieLine_lots (s : State) (die line : Nat) (d : DieLine) : (s.setDieLine die line d).lots = s.lots := rfl
@[simp] theorem State.setDieLine_accs (s : State) (die line : Nat) (d : DieLine) : (s.setDieLine die line d).accs = s.accs := rfl
@[simp] theorem State.setDieLine_fences (s : State) (die line : Nat) (d : DieLine) : (s.setDieLine die line d).fences = s.fences := rfl
@[simp] theorem State.setDieLine_dev (s : State) (die line : Nat) (d : DieLine) : (s.setDieLine die line d).dev = s.dev := rfl
@[simp] theorem State.setDieLine_m (s : State) (die line : Nat) (d : DieLine) : (s.setDieLine die line d).m = { s.m with caches := Tbl.put none s.m.caches (cacheKey die line) (if d.copies.isEmpty then none else some d) } := rfl
@[simp] theorem State.setDieLine_e (s : State) (die line : Nat) (d : DieLine) : (s.setDieLine die line d).e = s.e := rfl
@[simp] theorem State.setDieLine_w (s : State) (die line : Nat) (d : DieLine) : (s.setDieLine die line d).w = s.w := rfl
@[simp] theorem State.setDieLine_p (s : State) (die line : Nat) (d : DieLine) : (s.setDieLine die line d).p = s.p := rfl

@[simp] theorem State.setBoard_agenda (s : State) (n table stack : Nat) (t : PbTable) : (s.setBoard n table stack t).agenda = s.agenda := rfl
@[simp] theorem State.setBoard_active (s : State) (n table stack : Nat) (t : PbTable) : (s.setBoard n table stack t).active = s.active := rfl
@[simp] theorem State.setBoard_actBank (s : State) (n table stack : Nat) (t : PbTable) : (s.setBoard n table stack t).actBank = s.actBank := rfl
@[simp] theorem State.setBoard_nextId (s : State) (n table stack : Nat) (t : PbTable) : (s.setBoard n table stack t).nextId = s.nextId := rfl
@[simp] theorem State.setBoard_free (s : State) (n table stack : Nat) (t : PbTable) : (s.setBoard n table stack t).free = s.free := rfl
@[simp] theorem State.setBoard_running (s : State) (n table stack : Nat) (t : PbTable) : (s.setBoard n table stack t).running = s.running := rfl
@[simp] theorem State.setBoard_cores (s : State) (n table stack : Nat) (t : PbTable) : (s.setBoard n table stack t).cores = s.cores := rfl
@[simp] theorem State.setBoard_lots (s : State) (n table stack : Nat) (t : PbTable) : (s.setBoard n table stack t).lots = s.lots := rfl
@[simp] theorem State.setBoard_accs (s : State) (n table stack : Nat) (t : PbTable) : (s.setBoard n table stack t).accs = s.accs := rfl
@[simp] theorem State.setBoard_fences (s : State) (n table stack : Nat) (t : PbTable) : (s.setBoard n table stack t).fences = s.fences := rfl
@[simp] theorem State.setBoard_dev (s : State) (n table stack : Nat) (t : PbTable) : (s.setBoard n table stack t).dev = s.dev := rfl
@[simp] theorem State.setBoard_m (s : State) (n table stack : Nat) (t : PbTable) : (s.setBoard n table stack t).m = s.m := rfl
@[simp] theorem State.setBoard_e (s : State) (n table stack : Nat) (t : PbTable) : (s.setBoard n table stack t).e = { s.e with boards := Tbl.put PbTable.none s.e.boards (boardPlace n table stack) t } := rfl
@[simp] theorem State.setBoard_w (s : State) (n table stack : Nat) (t : PbTable) : (s.setBoard n table stack t).w = s.w := rfl
@[simp] theorem State.setBoard_p (s : State) (n table stack : Nat) (t : PbTable) : (s.setBoard n table stack t).p = s.p := rfl

@[simp] theorem State.setChannel_agenda (s : State) (ch : Nat) (x : Channel) : (s.setChannel ch x).agenda = s.agenda := rfl
@[simp] theorem State.setChannel_active (s : State) (ch : Nat) (x : Channel) : (s.setChannel ch x).active = s.active := rfl
@[simp] theorem State.setChannel_actBank (s : State) (ch : Nat) (x : Channel) : (s.setChannel ch x).actBank = s.actBank := rfl
@[simp] theorem State.setChannel_nextId (s : State) (ch : Nat) (x : Channel) : (s.setChannel ch x).nextId = s.nextId := rfl
@[simp] theorem State.setChannel_free (s : State) (ch : Nat) (x : Channel) : (s.setChannel ch x).free = s.free := rfl
@[simp] theorem State.setChannel_running (s : State) (ch : Nat) (x : Channel) : (s.setChannel ch x).running = s.running := rfl
@[simp] theorem State.setChannel_cores (s : State) (ch : Nat) (x : Channel) : (s.setChannel ch x).cores = s.cores := rfl
@[simp] theorem State.setChannel_lots (s : State) (ch : Nat) (x : Channel) : (s.setChannel ch x).lots = s.lots := rfl
@[simp] theorem State.setChannel_accs (s : State) (ch : Nat) (x : Channel) : (s.setChannel ch x).accs = s.accs := rfl
@[simp] theorem State.setChannel_fences (s : State) (ch : Nat) (x : Channel) : (s.setChannel ch x).fences = s.fences := rfl
@[simp] theorem State.setChannel_dev (s : State) (ch : Nat) (x : Channel) : (s.setChannel ch x).dev = s.dev := rfl
@[simp] theorem State.setChannel_m (s : State) (ch : Nat) (x : Channel) : (s.setChannel ch x).m = s.m := rfl
@[simp] theorem State.setChannel_e (s : State) (ch : Nat) (x : Channel) : (s.setChannel ch x).e = s.e := rfl
@[simp] theorem State.setChannel_w (s : State) (ch : Nat) (x : Channel) : (s.setChannel ch x).w = s.w := rfl
@[simp] theorem State.setChannel_p (s : State) (ch : Nat) (x : Channel) : (s.setChannel ch x).p = { s.p with channels := Tbl.put Channel.none s.p.channels ch x } := rfl

@[simp] theorem State.setLinkS_agenda (s : State) (link : Nat) (x : LinkS) : (s.setLinkS link x).agenda = s.agenda := rfl
@[simp] theorem State.setLinkS_active (s : State) (link : Nat) (x : LinkS) : (s.setLinkS link x).active = s.active := rfl
@[simp] theorem State.setLinkS_actBank (s : State) (link : Nat) (x : LinkS) : (s.setLinkS link x).actBank = s.actBank := rfl
@[simp] theorem State.setLinkS_nextId (s : State) (link : Nat) (x : LinkS) : (s.setLinkS link x).nextId = s.nextId := rfl
@[simp] theorem State.setLinkS_free (s : State) (link : Nat) (x : LinkS) : (s.setLinkS link x).free = s.free := rfl
@[simp] theorem State.setLinkS_running (s : State) (link : Nat) (x : LinkS) : (s.setLinkS link x).running = s.running := rfl
@[simp] theorem State.setLinkS_cores (s : State) (link : Nat) (x : LinkS) : (s.setLinkS link x).cores = s.cores := rfl
@[simp] theorem State.setLinkS_lots (s : State) (link : Nat) (x : LinkS) : (s.setLinkS link x).lots = s.lots := rfl
@[simp] theorem State.setLinkS_accs (s : State) (link : Nat) (x : LinkS) : (s.setLinkS link x).accs = s.accs := rfl
@[simp] theorem State.setLinkS_fences (s : State) (link : Nat) (x : LinkS) : (s.setLinkS link x).fences = s.fences := rfl
@[simp] theorem State.setLinkS_dev (s : State) (link : Nat) (x : LinkS) : (s.setLinkS link x).dev = s.dev := rfl
@[simp] theorem State.setLinkS_m (s : State) (link : Nat) (x : LinkS) : (s.setLinkS link x).m = s.m := rfl
@[simp] theorem State.setLinkS_e (s : State) (link : Nat) (x : LinkS) : (s.setLinkS link x).e = s.e := rfl
@[simp] theorem State.setLinkS_w (s : State) (link : Nat) (x : LinkS) : (s.setLinkS link x).w = s.w := rfl
@[simp] theorem State.setLinkS_p (s : State) (link : Nat) (x : LinkS) : (s.setLinkS link x).p = { s.p with links := Tbl.put LinkS.none s.p.links link x } := rfl

@[simp] theorem State.setPort_agenda (s : State) (n : Nat) (x : PortS) : (s.setPort n x).agenda = s.agenda := rfl
@[simp] theorem State.setPort_active (s : State) (n : Nat) (x : PortS) : (s.setPort n x).active = s.active := rfl
@[simp] theorem State.setPort_actBank (s : State) (n : Nat) (x : PortS) : (s.setPort n x).actBank = s.actBank := rfl
@[simp] theorem State.setPort_nextId (s : State) (n : Nat) (x : PortS) : (s.setPort n x).nextId = s.nextId := rfl
@[simp] theorem State.setPort_free (s : State) (n : Nat) (x : PortS) : (s.setPort n x).free = s.free := rfl
@[simp] theorem State.setPort_running (s : State) (n : Nat) (x : PortS) : (s.setPort n x).running = s.running := rfl
@[simp] theorem State.setPort_cores (s : State) (n : Nat) (x : PortS) : (s.setPort n x).cores = s.cores := rfl
@[simp] theorem State.setPort_lots (s : State) (n : Nat) (x : PortS) : (s.setPort n x).lots = s.lots := rfl
@[simp] theorem State.setPort_accs (s : State) (n : Nat) (x : PortS) : (s.setPort n x).accs = s.accs := rfl
@[simp] theorem State.setPort_fences (s : State) (n : Nat) (x : PortS) : (s.setPort n x).fences = s.fences := rfl
@[simp] theorem State.setPort_dev (s : State) (n : Nat) (x : PortS) : (s.setPort n x).dev = s.dev := rfl
@[simp] theorem State.setPort_m (s : State) (n : Nat) (x : PortS) : (s.setPort n x).m = s.m := rfl
@[simp] theorem State.setPort_e (s : State) (n : Nat) (x : PortS) : (s.setPort n x).e = s.e := rfl
@[simp] theorem State.setPort_w (s : State) (n : Nat) (x : PortS) : (s.setPort n x).w = s.w := rfl
@[simp] theorem State.setPort_p (s : State) (n : Nat) (x : PortS) : (s.setPort n x).p = { s.p with ports := Tbl.put PortS.none s.p.ports n x } := rfl

@[simp] theorem State.setPacket_agenda (s : State) (x : Packet) : (s.setPacket x).agenda = s.agenda := rfl
@[simp] theorem State.setPacket_active (s : State) (x : Packet) : (s.setPacket x).active = s.active := rfl
@[simp] theorem State.setPacket_actBank (s : State) (x : Packet) : (s.setPacket x).actBank = s.actBank := rfl
@[simp] theorem State.setPacket_nextId (s : State) (x : Packet) : (s.setPacket x).nextId = s.nextId := rfl
@[simp] theorem State.setPacket_free (s : State) (x : Packet) : (s.setPacket x).free = s.free := rfl
@[simp] theorem State.setPacket_running (s : State) (x : Packet) : (s.setPacket x).running = s.running := rfl
@[simp] theorem State.setPacket_cores (s : State) (x : Packet) : (s.setPacket x).cores = s.cores := rfl
@[simp] theorem State.setPacket_lots (s : State) (x : Packet) : (s.setPacket x).lots = s.lots := rfl
@[simp] theorem State.setPacket_accs (s : State) (x : Packet) : (s.setPacket x).accs = s.accs := rfl
@[simp] theorem State.setPacket_fences (s : State) (x : Packet) : (s.setPacket x).fences = s.fences := rfl
@[simp] theorem State.setPacket_dev (s : State) (x : Packet) : (s.setPacket x).dev = s.dev := rfl
@[simp] theorem State.setPacket_m (s : State) (x : Packet) : (s.setPacket x).m = s.m := rfl
@[simp] theorem State.setPacket_e (s : State) (x : Packet) : (s.setPacket x).e = s.e := rfl
@[simp] theorem State.setPacket_w (s : State) (x : Packet) : (s.setPacket x).w = s.w := rfl
@[simp] theorem State.setPacket_p (s : State) (x : Packet) : (s.setPacket x).p = { s.p with packets := s.p.packets.map (fun (y : Packet) => if y.id == x.id then x else y) } := rfl

@[simp] theorem State.setTransfer_agenda (s : State) (t : Transfer) : (s.setTransfer t).agenda = s.agenda := rfl
@[simp] theorem State.setTransfer_active (s : State) (t : Transfer) : (s.setTransfer t).active = s.active := rfl
@[simp] theorem State.setTransfer_actBank (s : State) (t : Transfer) : (s.setTransfer t).actBank = s.actBank := rfl
@[simp] theorem State.setTransfer_nextId (s : State) (t : Transfer) : (s.setTransfer t).nextId = s.nextId := rfl
@[simp] theorem State.setTransfer_free (s : State) (t : Transfer) : (s.setTransfer t).free = s.free := rfl
@[simp] theorem State.setTransfer_running (s : State) (t : Transfer) : (s.setTransfer t).running = s.running := rfl
@[simp] theorem State.setTransfer_cores (s : State) (t : Transfer) : (s.setTransfer t).cores = s.cores := rfl
@[simp] theorem State.setTransfer_lots (s : State) (t : Transfer) : (s.setTransfer t).lots = s.lots := rfl
@[simp] theorem State.setTransfer_accs (s : State) (t : Transfer) : (s.setTransfer t).accs = s.accs := rfl
@[simp] theorem State.setTransfer_fences (s : State) (t : Transfer) : (s.setTransfer t).fences = s.fences := rfl
@[simp] theorem State.setTransfer_dev (s : State) (t : Transfer) : (s.setTransfer t).dev = s.dev := rfl
@[simp] theorem State.setTransfer_m (s : State) (t : Transfer) : (s.setTransfer t).m = s.m := rfl
@[simp] theorem State.setTransfer_e (s : State) (t : Transfer) : (s.setTransfer t).e = s.e := rfl
@[simp] theorem State.setTransfer_w (s : State) (t : Transfer) : (s.setTransfer t).w = s.w := rfl
@[simp] theorem State.setTransfer_p (s : State) (t : Transfer) : (s.setTransfer t).p = { s.p with transfers := s.p.transfers.map (fun (x : Transfer) => if x.who == t.who && x.line == t.line then t else x) } := rfl

@[simp] theorem State.endTransfers_agenda (s : State) (w : Waiter) : (s.endTransfers w).agenda = s.agenda := rfl
@[simp] theorem State.endTransfers_active (s : State) (w : Waiter) : (s.endTransfers w).active = s.active := rfl
@[simp] theorem State.endTransfers_actBank (s : State) (w : Waiter) : (s.endTransfers w).actBank = s.actBank := rfl
@[simp] theorem State.endTransfers_nextId (s : State) (w : Waiter) : (s.endTransfers w).nextId = s.nextId := rfl
@[simp] theorem State.endTransfers_free (s : State) (w : Waiter) : (s.endTransfers w).free = s.free := rfl
@[simp] theorem State.endTransfers_running (s : State) (w : Waiter) : (s.endTransfers w).running = s.running := rfl
@[simp] theorem State.endTransfers_cores (s : State) (w : Waiter) : (s.endTransfers w).cores = s.cores := rfl
@[simp] theorem State.endTransfers_lots (s : State) (w : Waiter) : (s.endTransfers w).lots = s.lots := rfl
@[simp] theorem State.endTransfers_accs (s : State) (w : Waiter) : (s.endTransfers w).accs = s.accs := rfl
@[simp] theorem State.endTransfers_fences (s : State) (w : Waiter) : (s.endTransfers w).fences = s.fences := rfl
@[simp] theorem State.endTransfers_dev (s : State) (w : Waiter) : (s.endTransfers w).dev = s.dev := rfl
@[simp] theorem State.endTransfers_m (s : State) (w : Waiter) : (s.endTransfers w).m = s.m := rfl
@[simp] theorem State.endTransfers_e (s : State) (w : Waiter) : (s.endTransfers w).e = s.e := rfl
@[simp] theorem State.endTransfers_w (s : State) (w : Waiter) : (s.endTransfers w).w = s.w := rfl
@[simp] theorem State.endTransfers_p (s : State) (w : Waiter) : (s.endTransfers w).p = { s.p with transfers := s.p.transfers.filter (fun t => t.who != w) } := rfl

/-! ### What is read after an update -/

theorem State.channel_setChannel (s : State) (k j : Nat) (x : Channel) : (s.setChannel k x).channel j = if j = k then x else s.channel j :=
  Tbl.get_put Channel.none s.p.channels k j x
theorem State.linkS_setLinkS (s : State) (k j : Nat) (x : LinkS) : (s.setLinkS k x).linkS j = if j = k then x else s.linkS j :=
  Tbl.get_put LinkS.none s.p.links k j x
theorem State.port_setPort (s : State) (k j : Nat) (x : PortS) : (s.setPort k x).port j = if j = k then x else s.port j :=
  Tbl.get_put PortS.none s.p.ports k j x

/-- A waiter whose transfers have ended has none. -/
@[simp] theorem State.transfer?_endTransfers (s : State) (w : Waiter) (line : Nat) : (s.endTransfers w).transfer? w line = none := by
  simp [State.transfer?]
  intro t _ h k
  exact absurd k h
/-- The end of one waiter's transfers leaves those of the others. -/
theorem State.transfer?_endTransfers_other (s : State) (w x : Waiter) (line : Nat) (h : x ≠ w) :
    (s.endTransfers w).transfer? x line = s.transfer? x line := by
  simp only [State.transfer?, State.endTransfers_p, List.find?_filter]
  congr 1
  funext t
  by_cases e : t.who = x <;> simp [e, h, Bool.beq_eq_decide_eq]

/-! ### The way of an access (R275, R306, R308, R313, R316) -/

/-- A home that takes an access refuses it for nothing, and over a host port only where one is up. -/
theorem State.homeTakes_ok (s : State) (w : Waiter) (pa : Nat) (ro : Bool) (v : Nat) (h : s.homeTakes w pa ro = .ok v) :
    v = 0 ∧ s.homeRefusal pa ro = none ∧ (region pa = 2 → s.hostPath pa ≠ .waits ∧ s.hostPath pa ≠ .down) := by
  unfold State.homeTakes at h
  split at h
  · cases h
  · split at h
    · cases h
    · split at h
      · cases h
      · split at h
        · cases h; simp_all
        · cases h
/-- Where the way is open, the home takes the access: at once, or after its packets have crossed. -/
theorem State.way_ok (s : State) (w : Waiter) (die pa : Nat) (ro : Bool) (v : Nat) (h : s.way w die pa ro = .ok v) :
    s.homeTakes w pa ro = .ok v := by
  unfold State.way at h
  dsimp only at h
  repeat' split at h
  all_goals first | exact h | cases h

end Sys2Proof.Machine
end

