-- ==== Sys2Proof/Tests/Slice0.lean ====
section
/-! SUPPORT. Tests of the model: words that the spec writes out, ill-formed terms, witnesses of the hypotheses of the
obligations, and single steps. Each decode test takes its words from the examples of the reference files. -/

set_option Elab.async false

namespace Sys2Proof.Tests
open Sys2Proof Sys2Proof.Machine

/-- The words decode to an instruction of n words. -/
def reads (ws : List Word) (i : Instr) (n : Nat) : Bool :=
  match decode ws with
  | .ok r => r.1 == i && r.2 == n
  | .error _ => false

/-- The words are refused for a cause. -/
def refuses (ws : List Word) (e : Illegal) : Bool :=
  match decode ws with
  | .ok _ => false
  | .error x => x == e

/-! ### Decoding: words of the spec (14_ref_a_c.md to 17_ref_s_z.md, 05_encoding.md, 09_tiles.md, 10_banks.md) -/

theorem test_decode_tiles : reads [0xBC118A04] (.accrd 0 3 10 2) 1 ∧ reads [0xBC198A04] (.accwr 0 3 10 2) 1
    ∧ reads [0xBC098000] (.accz 0 3) 1 ∧ reads [0xB802_2180] (.mma ⟨0, .ss, 1, 2, 3, .e4m3, .e4m3⟩) 1
    ∧ reads [0xB826_8490] (.mma ⟨0, .mx, 3, 8, 9, .e4m3, .e2m1⟩) 1 ∧ reads [0xB84A_6380] (.mma ⟨0, .bf16, 5, 6, 7, .e4m3, .e4m3⟩) 1
    ∧ reads [0xBC00_000C] (.mmap 0 6) 1 ∧ reads [0xB430_0005] (.claim 0 5) 1 ∧ reads [0xB438_0005] (.release 0 5) 1 := by
  decide +kernel

theorem test_decode_logic : reads [0x1C03_0814] (.and ⟨0, 3, 4, 5, none⟩) 1
    ∧ reads [0x1C03_0803, 0x0008_00A0, 0xFF] (.and ⟨0, 3, 4, 0, some ⟨.b32, 0, 0, some 0xFF, 0⟩⟩) 3
    ∧ reads [0x1C03_0815] (.or ⟨0, 3, 4, 5, none⟩) 1 ∧ reads [0x1C03_0816] (.xor ⟨0, 3, 4, 5, none⟩) 1
    ∧ reads [0x1C03_0803, 0x0000_00A3] (.not ⟨0, 3, 4, 0, some ⟨.b32, 0, 0, none, 0⟩⟩) 2
    ∧ reads [0x2001_040F, 0x0000_40A0, 0x96] (.lop3 ⟨0, 1, 2, 3, 4, .b32, 0x96⟩) 3
    ∧ reads [0x2C02_0610] (.bfx ⟨0, 2, 3, 4, none⟩) 1 ∧ reads [0x2805_0C00] (.popc ⟨0, 5, 6, 0, none⟩) 1
    ∧ reads [0x2805_0C01] (.clz ⟨0, 5, 6, 0, none⟩) 1 ∧ reads [0x2805_0C02] (.brev ⟨0, 5, 6, 0, none⟩) 1 := by
  decide +kernel

theorem test_decode_integer : reads [0x0404_0C23, 0x0000_0030] (.iadd ⟨0, 4, 6, 8, some ⟨.i64, 0, 0, none, 0⟩⟩) 2
    ∧ reads [0x0403_0803, 0x0008_0020, 0xFFFF_FFFF] (.iadd ⟨0, 3, 4, 0, some ⟨.i32, 0, 0, some 0xFFFFFFFF, 0⟩⟩) 3
    ∧ reads [0x0C03_0817, 0x0000_6021] (.imad4 ⟨0, 3, 4, 5, some ⟨.i32, 0, 6, none, 0⟩⟩) 2
    ∧ reads [0x1429_0C1C] (.icmp ⟨0, false, 5, 1, 6, 7, none⟩) 1 ∧ reads [0x1452_0814] (.icmp ⟨0, true, 2, 2, 4, 5, none⟩) 1
    ∧ reads [0x2403_0816] (.rot ⟨0, 3, 4, 5, none⟩) 1
    ∧ reads [0x2403_0803, 0x0008_0060, 4] (.shl ⟨0, 3, 4, 0, some ⟨.n32, 0, 0, some 4, 0⟩⟩) 3
    ∧ reads [0x2403_0817, 0x0000_0021] (.shr ⟨0, 3, 4, 5, some ⟨.i32, 0, 0, none, 0⟩⟩) 2
    ∧ reads [0x3403_FFFE] (.movi 0 3 0xFFFE) 1 ∧ reads [0x3803_0000, 0x1234_5678] (.ldi 0 3 0x12345678) 2
    ∧ reads [0x3804_0001, 2, 1] (.ldi64 0 4 0x0000000100000002) 3
    ∧ reads [0x1903_0814] (.sel ⟨2, 3, 4, 5, none⟩) 1 := by decide +kernel

theorem test_decode_float : reads [0x4001_040F, 0x0000_00E0] (.fadd ⟨0, 1, 2, 3, some ⟨.f16, 0, 0, none, 0⟩⟩) 2
    ∧ reads [0x4408_122B, 0x0000_B0D1] (.ffma4 ⟨0, 8, 9, 10, some ⟨.f32, 0, 11, none, 0⟩⟩) 2
    ∧ reads [0x4804_0A18] (.fmin ⟨0, 4, 5, 6, none⟩) 1 ∧ reads [0x4804_0A19] (.fmax ⟨0, 4, 5, 6, none⟩) 1
    ∧ reads [0x5002_0602] (.fsqrt ⟨0, 2, 3, 0, none⟩) 1
    ∧ reads [0x5002_0603, 0x0000_02D2] (.fsqrt ⟨0, 2, 3, 0, some ⟨.f32, 1, 0, none, 0⟩⟩) 2
    ∧ reads [0x5002_0600] (.frcp ⟨0, 2, 3, 0, none⟩) 1 ∧ reads [0x5401_040C] (.padd2 ⟨0, 1, 2, 3, none⟩) 1
    ∧ reads [0x4C13_1024] (.fcmp ⟨0, false, 2, 3, 8, 9, none⟩) 1
    ∧ reads [0x4C31_0817, 0x0020_00F0] (.fcmp ⟨0, false, 6, 1, 4, 5, some ⟨.bf16, 0, 0, none, 2⟩⟩) 2
    ∧ reads [0x3C03_0803, 0x0000_D0E0] (.cvt ⟨0, 3, 4, .f16, .f32, .rn⟩) 2 := by decide +kernel

theorem test_decode_lanes : reads [0x6407_0008] (.ballot ⟨0, 7, 0, 2, none⟩) 1 ∧ reads [0x6403_0801] (.matchLanes ⟨0, 3, 4, 0, none⟩) 1
    ∧ reads [0x6401_0002] (.elect ⟨0, 1, 0, 0, none⟩) 1 ∧ reads [0x6807_1000] (.lredAdd ⟨0, 7, 8, 0, none⟩) 1
    ∧ reads [0x6807_1001] (.lredMin ⟨0, 7, 8, 0, none⟩) 1 ∧ reads [0x5803_0815] (.shfl 0 3 4 5 .xor) 1
    ∧ reads [0x5C03_0901] (.shflImm 0 3 4 16 .xor) 1 ∧ reads [0x5C03_0800] (.shflImm 0 3 4 0 .idx) 1
    ∧ reads [0x6032_8000] (.vote 0 .par 2 4) 1 ∧ reads [0x6003_2000] (.vote 0 .all 3 1) 1 := by decide +kernel

theorem test_decode_control : reads [0x7000_0005] (.bra 0 5) 1 ∧ reads [0x7100_0005] (.bra 2 5) 1
    ∧ reads [0x7800_0200] (.brx 0 8) 1 ∧ reads [0x741E_0008] (.call 0 30 8) 1 ∧ reads [0x7810_0780] (.ret 0 30) 1
    ∧ reads [0x7C18_0012] (.bkpt 0 0x12) 1 ∧ reads [0x7C20_0007] (.trap 0 7) 1 ∧ reads [0x7C03_0000] (.exit 0 .pkg) 1
    ∧ reads [0x7C00_0000] (.exit 0 .lot) 1 ∧ reads [0x9009_8400] (.barSync ⟨0, 3, false, 8⟩) 1
    ∧ reads [0x9011_8400] (.barArrive ⟨0, 3, false, 8⟩) 1 ∧ reads [0x6C01_8000] (.kjoin 0 3) 1
    ∧ reads [0x6C19_80C0] (.kset 0 3 12) 1 ∧ reads [0x7C40_9000] (.dqpop 0 9) 1
    ∧ reads [0x9018_0000, 0x02FF_FF00] (.waitc 0 0x02FFFF00) 2 ∧ reads [0xC802_0000] (.racq 0 2) 1 := by decide +kernel

theorem test_decode_memory : reads [0x8802_0804, 0x0000_3660] (.atom ⟨0, 2, 4, 1, .add, .n32, .pkg, .ar, .g, 0, 0⟩) 2
    ∧ reads [0x8C00_0818, 0x0000_06D0] (.red ⟨0, 0, 4, 6, .add, .f32, .pkg, .relaxed, .g, 0, 0⟩) 2
    ∧ reads [0x8014_1095, 0x40] (.ldDisp ⟨0, 20, 8, .v, 0, .b64⟩ (.d32 0x40)) 2
    ∧ reads [0xB008_0830] (.bid 0 8 4 12) 1 ∧ reads [0x9C21_0100] (.peek 0 8 4) 1 ∧ reads [0x9C31_0100] (.recycle 0 8 4) 1
    ∧ reads [0x9C41_0100] (.close 0 8 4) 1 ∧ reads [0x9403_0800] (.cflush ⟨0, .pkg, 4, 0, .g⟩) 1
    ∧ reads [0x9003_4000] (.fence 0 .pkg .rel) 1 ∧ reads [0x7C28_C200] (.monitor 0 .g .pkg 4) 1
    ∧ reads [0x7C30_2060] (.waitm 0 2 3) 1 ∧ reads [0x9809_0628] (.tq 0 9 3 5) 1
    ∧ reads [0xC014_0650, 0xAC10_00E0] (.rsend ⟨0, 20, 3, .b64, 1, 0xAC1000E0⟩) 2
    ∧ reads [0xC409_0600, 0xAC10_00E0] (.rfetch ⟨0, 9, 3, .b32, 0, 0xAC1000E0⟩) 2 := by decide +kernel

theorem test_decode_engines_and_work : reads [0xB400_00C0] (.kick 0 6) 1 ∧ reads [0xB428_2080] (.tbind 0 2 4) 1
    ∧ reads [0x9C10_0180] (.tload 0 6) 1 ∧ reads [0x9C00_0180] (.tqr 0 6) 1 ∧ reads [0xD424_0000] (.cancel 0 .graph) 1
    ∧ reads [0xD410_4100] (.launch 0 2 4) 1 ∧ reads [0xD410_4120] (.launchW 0 2 4) 1 ∧ reads [0xD400_8140] (.swi 0 4 5) 1
    ∧ reads [0xCC03_0040] (.srd 0 3 .lane) 1 ∧ reads [0xCC0A_0A00] (.srd 0 10 .tags) 1
    ∧ reads [0xD007_0C40] (.swr 0 7 .rseed) 1 ∧ reads [0xD431_4000] (.clock 0 10) 1 := by decide +kernel

/-- UOP in [31:28], F in [27:26], G in [25], H in [24], SH in [21:16], ROW in [9:0] (R270). -/
theorem test_decode_booth : decodeMicro 0x00000000 = some (.bend ⟨0, false, false, 0, 0⟩) ∧ decodeMicro 0x10000005 = some (.bkey ⟨0, false, false, 0, 5⟩)
    ∧ decodeMicro 0x3200000A = some (.bcmp ⟨0, true, false, 0, 10⟩) ∧ decodeMicro 0x84030000 = some (.bcnt ⟨1, false, false, 3, 0⟩)
    ∧ decodeMicro 0xA0000000 = none ∧ decodeMicro 0x00000001 = none := by decide +kernel

/-- Encodings that R124 and R125 reserve are refused by name. -/
theorem test_decode_refuses : refuses [0x00000000] .unassigned ∧ refuses [0x7C100001] .reserved
    ∧ refuses [0x9018_0000] .truncated ∧ refuses [] .noWord := by decide +kernel

/-! ### Well-formedness: each check refuses a term -/

theorem test_wf_accepts : (Instr.nop 0).wf = true ∧ (Instr.racq 0 7).wf = true ∧ (Instr.barSync ⟨0, 3, false, 32⟩).wf = true
    ∧ (Instr.iadd ⟨0, 4, 6, 8, some ⟨.i64, 0, 0, none, 0⟩⟩).wf = true := by decide +kernel

theorem test_wf_refuses : (Instr.racq 0 8).wf = false ∧ (Instr.rrel 0 0).wf = false ∧ (Instr.barSync ⟨0, 3, false, 33⟩).wf = false
    ∧ (Instr.kjoin 0 12).wf = false ∧ (Instr.kmov 0 0 13).wf = false ∧ (Instr.vote 0 .all 0 1).wf = false
    ∧ (Instr.st ⟨0, 1, 2, .g, 0, .i8⟩).wf = false ∧ (Instr.ldDisp ⟨0, 1, 2, .l, 0, .b32⟩ (.d64 8)).wf = false
    ∧ (Instr.stDisp ⟨0, 1, 2, .g, 0, .i16⟩ (.d32 8)).wf = false ∧ (Instr.stDisp ⟨0, 1, 2, .l, 0, .b32⟩ (.d64 8)).wf = false
    ∧ (Instr.rsend ⟨0, 20, 3, .i8, 0, 0⟩).wf = false ∧ (Instr.cflush ⟨0, .pkg, 4, 0, .l⟩).wf = false
    ∧ (Instr.cinvDiscard ⟨0, .pkg, 4, 0, .l⟩).wf = false ∧ (Instr.mma ⟨0, .ss, 1, 2, 3, .e5m2, .e4m3⟩).wf = false
    ∧ (Instr.swr 0 7 .lane).wf = false ∧ (Instr.cvt ⟨0, 3, 4, .b32, .f32, .rn⟩).wf = false
    ∧ (Instr.lop3 ⟨0, 1, 2, 3, 4, .f32, 0⟩).wf = false ∧ (Instr.icmp64 ⟨0, false, 6, 1, 2, 4, none⟩).wf = false
    ∧ (Instr.atom ⟨0, 2, 4, 1, .add, .n32, .pkg, .ar, .l, 0, 0⟩).wf = false ∧ (Instr.red ⟨0, 1, 4, 1, .add, .n32, .pkg, .relaxed, .g, 0, 0⟩).wf = false
    ∧ (Instr.iadd ⟨0, 4, 6, 8, some ⟨.f32, 0, 0, none, 0⟩⟩).wf = false ∧ (Instr.bend ⟨0, false, false, 1, 0⟩).wf = false
    ∧ (Instr.bkey ⟨1, false, false, 0, 5⟩).wf = false ∧ (Instr.fcmp ⟨0, true, 2, 3, 8, 9, none⟩).wf = false := by decide +kernel

/-! ### Witnesses: states that meet the hypotheses of the obligations -/

def lane (n : Nat) : Agent := ⟨0, n⟩

/-- A unit of core 0 that runs agents of a lot; unit 4 is the scalar pipeline. -/
def runOn (l : Lot) (as : List Agent) (u : Nat) : State :=
  { ((State.reset.setLot 0 0 l).setIssuer u (some { fetchIssuer ⟨0, 0⟩ [] with agents := as })) with active := u }

def viewOn (l : Lot) (as parts : List Agent) : View := ⟨{ fetchIssuer ⟨0, 0⟩ [] with agents := as }, l, parts⟩

def issuing : Thread := { Thread.none with st := .issuing }

/-- Two threads of warp 0, and the barker. -/
def lot2 : Lot := { fetchLot with nthreads := 2, threads := [(0, issuing), (1, issuing), (1024, issuing)] }
def t2 : State := runOn lot2 [lane 0, lane 1] 0
def v2 : View := viewOn lot2 [lane 0, lane 1] [lane 0, lane 1]
/-- One thread. -/
def t1 : State := runOn fetchLot [lane 0] 0
def v1 : View := viewOn fetchLot [lane 0] [lane 0]
/-- The barker. -/
def tb : State := runOn fetchLot [Agent.barker] 4
def vb : View := viewOn fetchLot [Agent.barker] [Agent.barker]

theorem test_witness_IntegerArithmetic :
    t2.runs v2 0 true true (usesA ⟨0, 127, 126, 125, none⟩ .i32 true true)
    ∧ t2.runs v2 0 true true (usesA ⟨0, 126, 124, 122, some ⟨.i64, 0, 120, none, 0⟩⟩ .i64 true true)
    ∧ tb.runs vb 0 true true (usesA ⟨0, 63, 62, 61, some ⟨.i64, 0, 60, none, 0⟩⟩ .i64 true true) := by
  unfold State.runs View.formed; decide +kernel

theorem test_witness_BitOperations :
    t2.runs v2 0 true true (usesA ⟨0, 127, 126, 125, none⟩ .b32 true false)
    ∧ t2.runs v2 0 true true [useW 126 64, useW 124 64, useW 122 64, useW 120 64] ∧ t2.runs v2 0 true true [use1 127, useW 126 64]
    ∧ (FmtA.ty ⟨0, 1, 2, 3, none⟩ .n32).bits = 32 ∧ t2.runs v2 0 true true (usesA ⟨0, 127, 126, 125, none⟩ .n32 true false)
    ∧ tb.runs vb 0 true true (usesA ⟨0, 63, 62, 61, none⟩ .n32 true false) := by
  unfold State.runs View.formed; decide +kernel

theorem test_witness_ShiftsAndMoves :
    t2.runs v2 0 true true [useW 127 32, useW 126 32, use1 125] ∧ t2.runs v2 0 true true (usesA ⟨0, 127, 126, 125, some ⟨.n32, 0, 124, none, 0⟩⟩ .n32 true true)
    ∧ FmtA.immOf ⟨0, 1, 2, 3, none⟩ = none ∧ t2.runs v2 0 true true [useW 126 64, useW 124 64]
    ∧ FmtA.immOf ⟨0, 1, 2, 0, some ⟨.b32, 0, 0, some 5, 0⟩⟩ = some 5 ∧ t2.runs v2 0 true true [use1 127] ∧ tb.runs vb 0 true true [use2 63] := by
  unfold State.runs View.formed; decide +kernel

theorem test_witness_Comparisons :
    t2.runs v2 0 true true (usesP ⟨0, true, 0, 7, 127, 126, none⟩ .i32) ∧ t2.runs v2 0 true true (usesP ⟨0, true, 0, 7, 126, 124, none⟩ .i64)
    ∧ t2.runs v2 0 true true (usesP ⟨0, false, 7, 7, 127, 126, some ⟨.f32, 0, 0, none, 6⟩⟩ .f32) := by
  unfold State.runs View.formed; decide +kernel

theorem test_witness_FloatArithmetic :
    t2.runs v2 0 true true (usesA ⟨0, 127, 126, 125, some ⟨.f32, 4, 124, none, 0⟩⟩ .f32 true true)
    ∧ FmtA.ty ⟨0, 127, 126, 125, none⟩ .f32 = .f32 ∧ t2.runs v2 0 true true (usesA ⟨0, 127, 126, 125, none⟩ .f32 false false) := by
  unfold State.runs View.formed; decide +kernel

theorem test_witness_ApproximateFunctions : t2.runs v2 0 true true [use1 127, use1 126] := by unfold State.runs View.formed; decide +kernel

/-- NaNs, infinities and zeros of both signs. -/
theorem test_witness_ApproximateFunctions_special :
    fmtF32.dec 0x7FC00000 = .nan false ∧ fmtF32.dec 0xFF800001 = .nan true ∧ fmtF32.dec 0x7F800000 = .inf false
    ∧ fmtF32.dec 0xFF800000 = .inf true ∧ 0x80000000 % 2 ^ 31 = 0 := by decide +kernel

/-- A word stands for a real number. -/
theorem word_isReal {x : Nat} {a : ℝ} (neg : Bool) (m : Nat) (e : Int) (h : fmtF32.dec x = .fin neg m e)
    (ha : a = (if neg then (-1 : ℝ) else 1) * (m : ℝ) * (2 : ℝ) ^ e) : (fmtF32.dec x).isReal a := ⟨neg, m, e, h, ha⟩
/-- Operands of every range of R108: 1, 1/2, 2^127, 2^126, 2^-128, −1, 127 and −149. -/
theorem test_witness_ApproximateFunctions_real :
    ((fmtF32.dec 0x3F800000).isReal 1 ∧ (2 : ℝ) ^ (-128 : Int) < |1| ∧ |(1 : ℝ)| ≤ 2 ^ (126 : Int) ∧ (1 : ℝ) / 2 ≤ 1 ∧ (1 : ℝ) ≤ 2
      ∧ (1 : ℝ) = (2 : ℝ) ^ (0 : Int) ∧ (1 : ℝ) < 128)
    ∧ ((fmtF32.dec 0x3F000000).isReal (1 / 2) ∧ (1 : ℝ) / 2 = ((0 : Int) : ℝ) + 1 / 2)
    ∧ ((fmtF32.dec 0x7F000000).isReal (2 ^ (127 : Int)) ∧ (2 : ℝ) ^ (126 : Int) < |2 ^ (127 : Int)| ∧ (128 : ℝ) ≤ 2 ^ (127 : Int))
    ∧ ((fmtF32.dec 0x7E800000).isReal (2 ^ (126 : Int)) ∧ |(2 : ℝ) ^ (126 : Int)| ≤ 2 ^ (126 : Int))
    ∧ ((fmtF32.dec 0x00200000).isReal (2 ^ (-128 : Int)) ∧ |(2 : ℝ) ^ (-128 : Int)| ≤ 2 ^ (-128 : Int) ∧ (2 : ℝ) ^ (-128 : Int) < 1 / 2)
    ∧ ((fmtF32.dec 0xBF800000).isReal (-1) ∧ (-1 : ℝ) < 0)
    ∧ ((fmtF32.dec 0x42FE0000).isReal 127 ∧ (127 : ℝ) = ((127 : Int) : ℝ))
    ∧ ((fmtF32.dec 0xC3150000).isReal (-149) ∧ (-149 : ℝ) = ((-149 : Int) : ℝ)) := by
  refine ⟨⟨word_isReal false 8388608 (-23) (by decide +kernel) (by norm_num), ?_, ?_, ?_, ?_, ?_, ?_⟩,
    ⟨word_isReal false 8388608 (-24) (by decide +kernel) (by norm_num), ?_⟩,
    ⟨word_isReal false 8388608 104 (by decide +kernel) (by norm_num), ?_, ?_⟩,
    ⟨word_isReal false 8388608 103 (by decide +kernel) (by norm_num), ?_⟩,
    ⟨word_isReal false 2097152 (-149) (by decide +kernel) (by norm_num), ?_, ?_⟩,
    ⟨word_isReal true 8388608 (-23) (by decide +kernel) (by norm_num), ?_⟩,
    ⟨word_isReal false 16646144 (-17) (by decide +kernel) (by norm_num), ?_⟩,
    ⟨word_isReal true 9764864 (-16) (by decide +kernel) (by norm_num), ?_⟩⟩ <;> norm_num [abs_of_pos]

theorem test_witness_PackedAndConversion :
    t2.runs v2 0 true true [use1 127, use1 126, use1 125, use1 124] ∧ t2.runs v2 0 true true [useW 126 64, useW 125 8] := by
  unfold State.runs View.formed; decide +kernel

theorem test_witness_CrossLane : t2.runs v2 0 true false [use1 127, useW 126 64] ∧ (FmtA.ty ⟨0, 1, 2, 3, none⟩ .i32).bits = 32
    ∧ t2.runs v2 0 true false [use1 127, use1 126, use1 125] ∧ t2.runs v2 0 true false [] := by unfold State.runs View.formed; decide +kernel

theorem test_witness_ControlTransfers : t2.runs v2 0 true true [use2 126, use2 124] ∧ (∀ t ∈ v2.parts, (lot2.thr t).shadow = none)
    ∧ (∀ t ∈ v2.parts, (lot2.d.entry.toNat + sextN (lot2.val t 124 64) 64 80) % 2 ^ 80 % 4 = 0) := by
  unfold State.runs View.formed; decide +kernel

def handlerLot : Lot := { fetchLot with threads := [(0, { issuing with shadow := some ⟨[1, 2, 3, 4], 3, 0⟩ }), (1024, issuing)] }
theorem test_witness_ReturnFromHandler :
    (runOn handlerLot [lane 0] 0).alone (viewOn handlerLot [lane 0] [lane 0]) 0 (lane 0) true true [use2 126]
    ∧ (handlerLot.thr (lane 0)).shadow = some ⟨[1, 2, 3, 4], 3, 0⟩
    ∧ (handlerLot.d.entry.toNat + sextN (handlerLot.val (lane 0) 126 64) 64 80) % 2 ^ 80 = 0 := by
  unfold State.alone State.runs View.formed; decide +kernel

theorem test_witness_YieldBreakpointTrap : t2.runs v2 0 true true [] ∧ tb.runs vb 0 true true [] ∧ vb.i.agents = [Agent.barker]
    ∧ (∀ a ∈ v2.i.agents, a.isBarker = false) ∧ (∀ a ∈ v2.parts, (v2.l.thr a).st = .issuing) := by
  unfold State.runs View.formed; decide +kernel

def leavingLot : Lot := { fetchLot with threads := [(0, { Thread.none with st := .exiting .lot }), (1024, { Thread.none with st := .exiting .lot })] }
def busyAcc (id : Nat) (k : AccKind) : Acc :=
  { id := id, op := 1, t := ⟨0, 0, 0, 0⟩, ctx := 0, kind := k, hdr := 0, iw := [], sp := .g, flow := 0, va := 0x200000, size := 4,
    scope := .lot, order := .relaxed, aop := .add, ty := .b32, data := 7, cmp := 0, dst := none, aux := 0, phase := .ready, pa := 0x200000,
    attr := 0, modid := 0, after := [], gates := [], credit := true, delivered := false,
    half := 0, link := 0, back := none, lim := 0 }
/-- Lane 0 is about to leave lane 1 as the only member and the only arrival that is missing nowhere. -/
def lastLot : Lot :=
  { fetchLot with
    nthreads := 2, threads := [(0, issuing), (1, { Thread.none with st := .parked (.kwait 3) }), (1024, issuing)],
    warps := [(0, { Warp.none with pool := 8, members := [(3, 3)], arrived := [(3, 2)] })] }
def lastBar : Lot :=
  { fetchLot with
    nthreads := 2, threads := [(0, issuing), (1, { Thread.none with st := .parked (.bar 3 5) }), (1024, issuing)], bars := [(3, ⟨1, 0, 5⟩)] }
/-- An access that failed its check, in the log of lane 0. -/
def aReplay : Acc := { busyAcc 1 .ld with phase := .replay ⟨0x10, 0, 0, 0x200001, true, 0⟩ }
theorem test_witness_Exit :
    t1.alone v1 0 (lane 0) true (Scope.pkg == .lot) [] ∧ tb.alone vb 0 Agent.barker true (Scope.lot == .lot) []
    ∧ t1.calm 0 ∧ v1.l.waitersPlain ∧ v1.l.ending = false ∧ (v1.l.thr (lane 0)).st = .issuing ∧ (v1.l.thr (lane 0)).shadow = none
    ∧ (v1.l.thr (lane 0)).stop = none
    ∧ (∀ l ∈ [lastLot, lastBar], (runOn l [lane 0] 0).alone (viewOn l [lane 0] [lane 0]) 0 (lane 0) true false []
      ∧ (runOn l [lane 0] 0).calm 0 ∧ l.waitersPlain ∧ l.ending = false)
    ∧ andNot (andNot ((lastLot.warp 0).mem 3) 1) (andNot ((lastLot.warp 0).arr 3) 1) = 0 ∧ lastLot.kwaiters 0 3 = [lane 1]
    ∧ (lastBar.agents.filter (fun x => x ≠ lane 0 ∧ (lastBar.thr x).gone = false)).length ≤ (lastBar.bar 3).arrivals
    ∧ lastBar.barWaiters 3 = [lane 1] := by
  unfold State.alone State.runs View.formed State.calm Lot.waitersPlain Thread.plain; decide +kernel
theorem test_witness_Exit_faults :
    (let l := { fetchLot with threads := [(0, { issuing with stop := some ⟨0x10, 0, 0, 0x200001, true, 0⟩ }), (1024, issuing)] }
     let s := ((runOn l [lane 0] 0).setReg (ctxReg 0 0x20) 0).setReg (ctxReg 0 0x28) 0x40
     s.alone (viewOn l [lane 0] [lane 0]) 0 (lane 0) true false [] ∧ s.calm 0 ∧ l.waitersPlain ∧ l.ending = false
      ∧ (l.thr (lane 0)).mid = 0 ∧ l.phase = .running ∧ s.haltingLot l.launch = none ∧ faultGroup 0x10 ≠ 5 ∧ faultGroup 0x10 ≠ 6
      ∧ s.factAction 0 (faultGroup 0x10) = 0 ∧ s.handlerVA 0 ≠ 0) := by
  unfold State.alone State.runs View.formed State.calm Lot.waitersPlain Thread.plain; decide +kernel
theorem test_witness_Exit_handler :
    (let s := { runOn handlerLot [lane 0] 0 with accs := [aReplay, busyAcc 2 .ld] }
     s.alone (viewOn handlerLot [lane 0] [lane 0]) 0 (lane 0) true false [] ∧ s.calm 0 ∧ handlerLot.waitersPlain ∧ handlerLot.ending = false
      ∧ (s.accs.map (fun x => x.id)).Nodup) := by
  unfold State.alone State.runs View.formed State.calm Lot.waitersPlain Thread.plain; decide +kernel
theorem test_witness_Exit_nested :
    (let l := { fetchLot with threads := [(0, { issuing with shadow := some ⟨[1, 2, 3, 4], 3, 0⟩, stop := some ⟨0x10, 0, 0, 0x200001, true, 0⟩ }), (1024, issuing)] }
     let s := runOn l [lane 0] 0
     s.alone (viewOn l [lane 0] [lane 0]) 0 (lane 0) true false [] ∧ s.calm 0 ∧ l.waitersPlain ∧ l.ending = false ∧ l.phase = .running
      ∧ s.haltingLot l.launch = none ∧ (l.thr (lane 0)).mid = 0 ∧ faultGroup 0x10 ≠ 6) := by
  unfold State.alone State.runs View.formed State.calm Lot.waitersPlain Thread.plain; decide +kernel
theorem test_witness_Exit_completion :
    (let s := State.reset.setLot 0 0 leavingLot
     s.lot? 0 0 = some leavingLot ∧ (leavingLot.thr (lane 0)).st = .exiting .lot ∧ s.laneQuiet ⟨0, 0, 0, 0⟩ .lot = true ∧ (s.core 0).blockQ = []
      ∧ (s.releaseScope 0 0 .lot).1 = true ∧ s.laneQuiet ⟨0, 0, 32, 0⟩ .lot = true
      ∧ ({ s with accs := [busyAcc 1 .st] } : State).laneQuiet ⟨0, 0, 0, 0⟩ .lot = false) := by decide +kernel

/-- A lot whose barrier 3 expects 2 and has the arrival of lane 1, which waits. -/
def barLot : Lot :=
  { fetchLot with
    nthreads := 3, threads := [(0, issuing), (1, { Thread.none with st := .parked (.bar 3 5) }), (1024, issuing)], bars := [(3, ⟨1, 2, 5⟩)] }
theorem test_witness_Barriers :
    (∀ l ∈ [fetchLot, barLot], (runOn l [lane 0] 0).alone (viewOn l [lane 0] [lane 0]) 0 (lane 0) true false [use1 127]
      ∧ (runOn l [lane 0] 0).calm 0 ∧ l.ending = false ∧ (l.thr (lane 0)).st = .issuing ∧ (l.thr (lane 0)).plain ∧ l.waitersPlain)
    ∧ t2.runs v2 0 true false [] ∧ 32 * (8 : BitVec 7).toNat ≤ 1024 ∧ (lot2.bar 3).arrivals + 2 < 256 ∧ lot2.val (lane 0) 127 32 ≤ 1024
    ∧ 2 ≤ (barLot.bar 3).arrivals + 1 ∧ (barLot.bar 3).expected = 2 ∧ lane 0 ∈ barLot.agents ∧ barLot.barWaiters 3 = [lane 1] := by
  unfold State.alone State.runs View.formed State.calm Lot.waitersPlain Thread.plain; decide +kernel

/-- A warp of four threads with mask 3: members 0 to 2, some arrived, lane 1 waiting where `st` says so; mask 5 the same members,
none arrived; mask 4 without members. -/
def maskLot (arr : Word) (st : TState) : Lot :=
  { fetchLot with
    nthreads := 4, threads := [(0, issuing), (1, { Thread.none with st := st }), (1024, issuing)],
    warps := [(0, { Warp.none with pool := 8, members := [(3, 7), (5, 7)], arrived := [(3, arr)] })] }
theorem test_witness_MaskRegisters :
    (let l := maskLot 4 .ready
     let v := viewOn l [lane 0] [lane 0]
     (runOn l [lane 0] 0).runs v 0 true false [use1 127] ∧ v.parts ≠ [] ∧ (∀ a ∈ v.parts, a.w = 0 ∧ (lane 0).l ≤ a.l)
      ∧ andNot ((l.warp 0).mem 3) ((l.warp 0).arr 3 ||| ((l.warp 0).mem 3 &&& (laneMask v.parts).toNat)) ≠ 0
      ∧ (runOn l [lane 0] 0).calm 0 ∧ l.ending = false ∧ l.waitersPlain ∧ (∀ a ∈ v.parts, bit ((l.warp 0).mem 3) a.l = true)
      ∧ (l.thr (lane 0)).plain ∧ lane 0 ∈ l.warpAgents 0
      ∧ andNot (andNot ((l.warp 0).mem 3) (laneMask v.parts).toNat) (andNot ((l.warp 0).arr 3) (laneMask v.parts).toNat) ≠ 0
      ∧ andNot ((l.warp 0).mem 5) ((l.warp 0).arr 5) ≠ 0 ∧ l.kwaiters 0 3 = [] ∧ (3 : BitVec 4) ≠ 5
      ∧ (let l' := l.setVreg 0 127 0 5
        l'.val (lane 0) 127 32 &&& (laneMask ((l'.warpAgents 0).filter (fun x => !(l'.thr x).gone))).toNat ≠ 0)) := by
  unfold State.runs View.formed State.calm Lot.waitersPlain Thread.plain; decide +kernel
theorem test_witness_MaskRegisters_released :
    (let l := maskLot 6 (.parked (.kwait 3))
     let v := viewOn l [lane 0] [lane 0]
     (runOn l [lane 0] 0).runs v 0 true false [use1 127] ∧ (runOn l [lane 0] 0).calm 0 ∧ l.ending = false ∧ l.waitersPlain
        ∧ (l.thr (lane 0)).plain ∧ lane 0 ∈ l.warpAgents 0 ∧ bit ((l.warp 0).mem 3) 0 = true ∧ l.kwaiters 0 3 = [lane 1]
        ∧ andNot ((l.warp 0).mem 3) ((l.warp 0).arr 3 ||| ((l.warp 0).mem 3 &&& (laneMask v.parts).toNat)) = 0
        ∧ (l.warp 0).mem 3 &&& (laneMask v.parts).toNat ≠ 0
        ∧ andNot (andNot ((l.warp 0).mem 3) (laneMask v.parts).toNat) (andNot ((l.warp 0).arr 3) (laneMask v.parts).toNat) = 0
        ∧ andNot ((l.warp 0).mem 4) ((l.warp 0).mem 4 &&& (laneMask (l.kwaiters 0 3)).toNat) = 0
        ∧ (let l' := l.setVreg 0 127 0 2
          let here := (laneMask ((l'.warpAgents 0).filter (fun x => !(l'.thr x).gone))).toNat
          andNot (l'.val (lane 0) 127 32 &&& here) (l'.val (lane 0) 127 32 &&& here &&& (laneMask (l'.kwaiters 0 3)).toNat) = 0)) := by
  unfold State.runs View.formed State.calm Lot.waitersPlain Thread.plain; decide +kernel

theorem test_witness_DecisionQueue :
    (let l := { fetchLot with threads := [(0, { Thread.none with st := .parked (.dq 127) }), (1024, issuing)] }
     (runOn l [Agent.barker] 4).alone (viewOn l [Agent.barker] [Agent.barker]) 0 Agent.barker false true [use1 63] ∧ l.dqFill < 64
      ∧ l.ending = false ∧ l.waitersPlain ∧ lane 0 ∈ l.agents ∧ (l.thr (lane 0)).cursor = l.dqP ∧ l.inRange (lane 0) 127 1 = true)
    ∧ (let l := { fetchLot with dqP := 64 }
       (runOn l [Agent.barker] 4).alone (viewOn l [Agent.barker] [Agent.barker]) 0 Agent.barker false true [use1 63] ∧ l.dqFill = 64
        ∧ (runOn l [Agent.barker] 4).calm 0 ∧ l.ending = false) := by
  unfold State.alone State.runs View.formed State.calm Lot.waitersPlain Thread.plain; decide +kernel
theorem test_witness_DecisionQueue_pop :
    (let l := { fetchLot with dqP := 64, threads := [(0, issuing), (1024, { Thread.none with st := .parked (.dqfull 0) })] }
     (runOn l [lane 0] 0).runs (viewOn l [lane 0] [lane 0]) 0 true false [use1 127] ∧ l.waitersPlain ∧ l.ending = false
        ∧ (l.thr (lane 0)).cursor ≠ l.dqP ∧ (l.thr Agent.barker).st = .parked (.dqfull 0)
        ∧ ∀ a ∈ l.agents, (l.dqP - ((l.thr a).cursor + 1)).toNat < 64)
    ∧ t2.runs v2 0 true false [use1 127] ∧ lot2.waitersPlain ∧ v2.parts ≠ [] ∧ (∀ a ∈ v2.parts, (lot2.thr a).cursor = lot2.dqP)
    ∧ t2.calm 0 ∧ lot2.ending = false := by
  unfold State.runs View.formed State.calm Lot.waitersPlain Thread.plain; decide +kernel

theorem test_witness_CountersAndBlocks :
    t1.alone v1 0 (lane 0) true true [] ∧ t1.calm 0
    ∧ (let l := { fetchLot with warps := [(0, { Warp.none with pool := 6, ld := 255, st := 1 })] }
       (runOn l [lane 0] 0).runs (viewOn l [lane 0] [lane 0]) 0 true true [] ∧ (l.warp 0).ld = 255 ∧ (l.warp 0).st = 1)
    ∧ (let l := { fetchLot with d := { fetchLot.d with base := 1 }, warps := [(0, { Warp.none with pool := 5, reserve := 1 })] }
       (runOn l [lane 0] 0).alone (viewOn l [lane 0] [lane 0]) 0 (lane 0) true false [] ∧ l.d.base + 5 ≤ 5 + 1
        ∧ (runOn l [lane 0] 0).warpOps 0 0 0 = [] ∧ ((runOn l [lane 0] 0).core 0).blockQ = [])
    ∧ (let l := { fetchLot with warps := [(0, { Warp.none with pool := 1, backs := [⟨2, 1, [9]⟩] })] }
       (runOn l [lane 0] 0).alone (viewOn l [lane 0] [lane 0]) 0 (lane 0) true false [] ∧ (l.warp 0).reserve = 0 ∧ 1 + 0 + 7 ≤ 8
        ∧ (l.warp 0).backs = [⟨2, 1, [9]⟩] ∧ (∀ o ∈ [9], o ∉ (runOn l [lane 0] 0).warpOps 0 0 0)) := by
  unfold State.alone State.runs View.formed State.calm; decide +kernel

theorem test_witness_SpecialRegisters :
    t2.runs v2 0 true true [use2 126] ∧ t2.runs v2 0 true false [use1 127] ∧ t2.runs v2 0 true true [use1 127]
    ∧ tb.runs vb 0 true true [use1 63] ∧ SReg.tid ≠ .clock ∧ SReg.tid ≠ .lotdone := by unfold State.runs View.formed; decide +kernel

/-- Page tables of context 0 in DRAM: pages 0 and 1 of 4 GiB lie at themselves, readable, writable and executable (R168 to
R170). -/
def tables : Memory :=
  [(0, 1), (2, 8), (0x80000, 1), (0x80002, 0x10), (0x100000, 1), (0x100002, 0x18), (0x180000, 31), (0x180008, 31), (0x18000C, 1)]

def State.withMem (s : State) (m : Memory) : State := { s with m := { s.m with mem := m } }

theorem test_witness_AccessesIssue :
    t2.runs v2 0 true true [useAddr 124 .g, useW 126 64] ∧ tb.runs vb 0 true true [useAddr 62 .v, useW 63 64]
    ∧ t2.runs v2 0 true true [useAddr 127 .l, useW 126 32]
    ∧ (let f : FmtAt := ⟨0, 2, 4, 6, .cas, .b64, .pkg, .ar, .g, 0, 8⟩
       t2.runs v2 0 true true ([use2 f.a, useW f.b 64] ++ [useW f.d 64] ++ [useW f.c 64]) ∧ f.op = .cas)
    ∧ t2.runs v2 0 true true [use2 126, useW 124 64] ∧ ¬ ((0 : BitVec 7) ≠ 0 ∨ AtomOp.add = .cas) := by
  unfold State.runs View.formed; decide +kernel

theorem test_witness_CellsPlacesAndCacheOpsIssue :
    t2.runs v2 0 true true [use2 126, useCell 124, useCell 120] ∧ t2.runs v2 0 true true [use2 126, use1 127]
    ∧ t2.runs v2 0 true true [use1 127, useW 124 128] ∧ t2.runs v2 0 true true [use2 126] ∧ t2.runs v2 0 true true [use1 127, use1 126]
    ∧ t2.runs v2 0 true true [use1 127] := by unfold State.runs View.formed; decide +kernel

def aKick (k : KickKind) : Kick := ⟨8, k, 0, 255, 1, lane 0, 0, 0, [], []⟩
/-- Line 0x4000 is dirty in the L1 of core 0 for context 0; the booth of its bank runs where `held` says so. -/
def dirtyState (held : Bool) : State :=
  let s := State.reset.setLot 0 0 fetchLot
  let s : State := { s with m := { s.m with caches := [(0x4000, some ⟨0, false, false, false, [⟨.l1 0, 5, 1⟩]⟩)] } }
  if held then s.setBooth (bankOfPa 0x200000) { Booth.none with st := .running } else s
theorem test_witness_Fences :
    (let l := { fetchLot with kicks := [aKick .tbind], threads := [(0, { issuing with obs := [3, 8] }), (1024, issuing)] }
     let s := { runOn l [lane 0] 0 with accs := [busyAcc 1 .ld, busyAcc 2 .st, { busyAcc 3 .st with t := ⟨0, 0, 0, 1⟩ }] }
     s.alone (viewOn l [lane 0] [lane 0]) 0 (lane 0) true true [] ∧ (s.accs.map (fun x => x.id)).Nodup
      ∧ ∀ x ∈ s.accs, ∀ q ∈ l.kicks, x.id ≠ q.id) := by
  unfold State.alone State.runs View.formed; decide +kernel
theorem test_witness_Fences_complete :
    (let f : FenceRec := ⟨4, ⟨0, 0, 0, 0⟩, .rel, .pkg, [1, 8]⟩
     (∀ b ∈ [false, true],
       let s := { dirtyState b with fences := [f] }
       s.fences.find? (fun x => x.id == f.id) = some f ∧ s.lot? 0 0 = some fetchLot ∧ (∀ x ∈ s.accs, x.id ∉ f.covers)
        ∧ (∀ q ∈ fetchLot.kicks, q.id ∉ f.covers) ∧ (s.releaseScope 0 0 .pkg).1 = !b)
      ∧ (∃ x ∈ [busyAcc 1 .st], x.id ∈ f.covers ∧ (dirtyState false).deferred x = false)
      ∧ (State.reset.setLot 0 0 { fetchLot with phase := .halted }).deferred { aReplay with id := 8 } = true ∧ ∃ q ∈ [aKick .tbind], q.id ∈ f.covers) := by decide +kernel

def monLot (m : Option Monitor) (st : TState) : Lot :=
  { fetchLot with threads := [(0, { Thread.none with st := st, mon := m }), (1024, issuing)] }
theorem test_witness_Monitors :
    (let l := (fetchLot.setVreg 0 127 0 (262144 - 4)).setVreg 0 126 0 5
     (runOn l [lane 0] 0).alone (viewOn l [lane 0] [lane 0]) 0 (lane 0) true true [useAddr 127 .l] ∧ l.addr (lane 0) 127 .l 0 % 4 = 0
      ∧ l.addr (lane 0) 127 .l 0 + 4 ≤ l.d.scr * 1024 ∧ (l.thr (lane 0)).st = .issuing ∧ (l.thr (lane 0)).stop = none
      ∧ (runOn l [lane 0] 0).alone (viewOn l [lane 0] [lane 0]) 0 (lane 0) true true [useAddr 126 .l] ∧ l.addr (lane 0) 126 .l 0 % 4 ≠ 0) := by
  unfold State.alone State.runs View.formed; decide +kernel
theorem test_witness_Monitors_range :
    (let l := fetchLot.setVreg 0 127 0 262144
     (runOn l [lane 0] 0).alone (viewOn l [lane 0] [lane 0]) 0 (lane 0) true true [useAddr 127 .l] ∧ l.addr (lane 0) 127 .l 0 % 4 = 0
      ∧ l.d.scr * 1024 < l.addr (lane 0) 127 .l 0 + 4) := by
  unfold State.alone State.runs View.formed; decide +kernel
theorem test_witness_Monitors_global :
    (let l := fetchLot.setVreg 0 126 0 0x200000
       let s := State.withMem (runOn l [lane 0] 0) tables
       s.alone (viewOn l [lane 0] [lane 0]) 0 (lane 0) true true [useAddr 126 .g] ∧ l.addr (lane 0) 126 .g 0 % 4 = 0
        ∧ (s.translate 0 0 0x200000).1 = .ok 0x200000 31 0 true ∧ accFault .ld .g 0x200000 31 = none ∧ region 0x200000 < 8
        ∧ ∀ f ∈ filtersOf 0 (0x200000 / 128), ((s.translate 0 0 0x200000).2.m.filters.filter (fun e => e.filter == f.1)).length < f.2) := by
  unfold State.alone State.runs View.formed; decide +kernel
theorem test_witness_Monitors_wait :
    (∀ m ∈ [none, some ⟨true, 3, .lot, false, false, true⟩, some ⟨true, 3, .lot, true, false, false⟩, some ⟨true, 3, .lot, false, false, false⟩],
      (runOn (monLot m .issuing) [lane 0] 0).alone (viewOn (monLot m .issuing) [lane 0] [lane 0]) 0 (lane 0) true true [use1 127, use1 126]
      ∧ (runOn (monLot m .issuing) [lane 0] 0).calm 0 ∧ (monLot m .issuing).ending = false)
    ∧ (let l := monLot (some ⟨true, 3, .lot, true, false, false⟩) (.parked (.mon 127 (some 5)))
       (State.reset.setLot 0 0 l).lot? 0 0 = some l ∧ l.inRange (lane 0) 127 1 = true ∧ (l.thr (lane 0)).plain ∧ l.ending = false) := by
  unfold State.alone State.runs View.formed State.calm Thread.plain; decide +kernel

theorem test_witness_KicksAndTags :
    v2.elected = some (lane 0) ∧ t2.runs v2 0 true true [use1 127] ∧ v2.l.val (lane 0) 127 32 % 64 = 0
    ∧ v2.l.val (lane 0) 127 32 + 64 ≤ v2.l.d.scr * 1024
    ∧ (let l := lot2.setVreg 0 127 0 (255 + 256 * 1)
       let v := viewOn l [lane 0, lane 1] [lane 0, lane 1]
       (runOn l [lane 0, lane 1] 0).runs v 0 true true [use1 127, use2 124] ∧ v.elected = some (lane 0) ∧ l.val (lane 0) 127 32 / 256 % 256 ≠ 0
        ∧ l.val (lane 0) 127 32 % 256 + l.val (lane 0) 127 32 / 256 % 256 ≤ 256 ∧ l.addr (lane 0) 124 .g 0 % 128 = 0)
    ∧ t1.runs v1 0 true true [use2 126] ∧ t2.runs v2 0 true true [use1 127, use2 124] ∧ t1.calm 0 ∧ v1.l.ending = false
    ∧ (let l := { fetchLot.setVreg 0 126 0 6 with tags := 2 }
       (runOn l [lane 0] 0).runs (viewOn l [lane 0] [lane 0]) 0 true true [use2 126] ∧ (l.tags &&& (6 : Word64)) ≠ 0 ∧ l.tags &&& (6 : Word64) ≠ 6
        ∧ l.val (lane 0) 126 64 = 6) := by
  unfold State.runs View.formed State.calm; decide +kernel

def slotLot : Lot := { fetchLot with slotState := [(2, .claimed), (3, .claimed)] }
/-- A share with the word of `MMA.SS a1, o2, o3` at offset 64. -/
def chainLot : Lot := { (slotLot.setVreg 0 127 0 64) with scratch := [(64, 0x80), (65, 0x21), (66, 0x02), (67, 0xB8)] }
theorem test_witness_TileInstructions :
    (let s := runOn slotLot [lane 0] 0
     let v := viewOn slotLot [lane 0] [lane 0]
     s.runs v 0 true true [] ∧ v.parts ≠ [] ∧ (31 : BitVec 5).toNat < slotLot.d.ops ∧ slotLot.slotSt 31 ≠ .claimed ∧ slotLot.slotSt 3 = .claimed
      ∧ v.elected = some (lane 0) ∧ (15 : BitVec 4).toNat < slotLot.d.acc ∧ slotLot.slotOk 2 = true ∧ slotLot.slotOk 3 = true
      ∧ s.runs v 0 true true [use1 127, use1 126])
    ∧ (let l := (slotLot.setVreg 0 126 0 (2 ^ 32 - 128)).setVreg 0 127 0 0
       let v := viewOn l [lane 0] [lane 0]
       let s := State.withMem (runOn l [lane 0] 0) tables
       s.runs v 0 true true [use2 126] ∧ v.elected = some (lane 0) ∧ l.addr (lane 0) 126 .g 0 = 2 ^ 32 - 128 ∧ quantLen .e4m3 = 4224
        ∧ (s.engCheck 0 0 (2 ^ 32 - 128) true none).1 = .ok (2 ^ 32 - 128) 31 0 true
        ∧ ((s.engCheck 0 0 (2 ^ 32 - 128) true none).2.engCheck 0 0 (2 ^ 32 + 4095) true none).1 = .ok (2 ^ 32 + 4095) 31 0 true)
    ∧ (let s := runOn chainLot [lane 0] 0
       let v := viewOn chainLot [lane 0] [lane 0]
       s.runs v 0 true true [use1 127] ∧ s.accs = [] ∧ chainLot.val (lane 0) 127 32 = 64 ∧ 64 + 64 ≤ chainLot.d.scr * 1024
        ∧ reads [0xB802_2180] (.mma ⟨0, .ss, 1, 2, 3, .e4m3, .e4m3⟩) 1 = true ∧ chainLot.scratchNat 64 8 = 0xB802_2180) := by
  unfold State.runs View.formed; decide +kernel

def aLaunch : Launch :=
  { id := 7, ctx := 0, queue := 0, prio := 1, d := fetchLot.d, parentLevel := some 5, parentLaunch := none, device := false, offered := true,
    next := 0, total := 1, saved := [], reruns := [], removed := [], retired := 0, children := 0, cancelled := false, halted := false,
    diesRun := [], seq := 0 }
def aLevel (id : Nat) (k : CancelLevel) : Level := ⟨id, k, 0, 0, 3, false, 1, some 6, false⟩
def State.withWork (s : State) (w : WorkS) : State := { s with w := w }

/-- A descriptor of one lot of one thread at 0x200000 (R34): GRID 1 × 1 × 1, LOT 1 × 1 × 1, BASE 1, and no dependence. -/
def descMem : Memory :=
  tables ++ [(0x200010, 1), (0x200014, 1), (0x200018, 1), (0x20001C, 1), (0x20001E, 1), (0x200020, 1), (0x200022, 1),
    (0x20002C, 0xFF), (0x20002D, 0xFF), (0x200034, 0xFF), (0x200035, 0xFF), (0x20003C, 0xFF), (0x20003D, 0xFF), (0x200044, 0xFF), (0x200045, 0xFF)]
def oneDesc : Desc := ⟨0x200000, 0, 0, 1, 1, 1, 1, 1, 1, 1, 0, 0, false, 0, 0, [], 0⟩
def askingLot : Lot := { fetchLot with launch := 7, threads := [(0, { Thread.none with st := .parked (.launch 127 9) }), (1024, issuing)] }
def asking (va : VAddr) : ChildReq := ⟨9, ⟨0, 0, 0, 0⟩, [lane 0], 127, 0, va, 7, []⟩
def askState (x : Launch) (va : VAddr) : State :=
  { State.withMem (State.reset.setLot 0 0 askingLot) descMem with w := { WorkS.reset with launches := [x], childReqs := [asking va] } }
theorem test_witness_ChildLaunches :
    (t2.runs v2 0 true true [use1 127, use2 124] ∧ v2.parts = v2.i.agents ∧ v2.elected = some (lane 0) ∧ t2.calm 0 ∧ v2.l.ending = false
      ∧ t1.runs v1 0 true true [use1 127, use2 124] ∧ v1.parts = [lane 0])
    ∧ (∀ s ∈ [askState aLaunch 0x200000, askState aLaunch 0x200040, askState { aLaunch with cancelled := true } 0x200000],
      s.lot? 0 0 = some askingLot ∧ (askingLot.thr (lane 0)).st = .parked (.launch 127 9) ∧ (askingLot.thr (lane 0)).plain
      ∧ askingLot.ending = false)
    ∧ (askState { aLaunch with cancelled := true } 0x200000).beingCancelled 7 = true ∧ (askState aLaunch 0x200000).beingCancelled 7 = false
    ∧ (let s := (askState aLaunch 0x200000).releaseScope 0 0 .pkg
       let r := s.2.readDesc (.child 9) 0 0x200000 none
       s.1 = true ∧ r.1 = .ok oneDesc ∧ r.2.launch? 7 = some aLaunch ∧ Tbl.get 0 r.2.w.device 0 < 4096 ∧ r.2.w.childReqs = [asking 0x200000]
        ∧ r.2.lot? 0 0 = some askingLot ∧ 0 < oneDesc.gx * oneDesc.gy * oneDesc.gz)
    ∧ (let s := (askState aLaunch 0x200040).releaseScope 0 0 .pkg
       let r := s.2.readDesc (.child 9) 0 0x200040 none
       s.1 = true ∧ r.1 = .bad 0x04 ∧ r.2.w.childReqs = [asking 0x200040] ∧ r.2.lot? 0 0 = some askingLot) := by
  unfold State.runs View.formed State.calm Thread.plain; decide +kernel

/-- Two launches: 7, with 3 of 5 lots placed, one to be rerun and one saved, in level 5, and 8, in no level. -/
def partLaunch : Launch :=
  { aLaunch with next := 3, total := 5, reruns := [1], saved := [⟨2, 0x400000, 4096, 1⟩] }
def cancelState (x : Launch) (y : Level) : State :=
  let l := { fetchLot with launch := 7 }
  { runOn l [lane 0] 0 with w := { WorkS.reset with
      launches := [x, { aLaunch with id := 8, parentLevel := none }], levels := [aLevel 5 .job, y] } }
theorem test_witness_Cancels :
    (∀ x ∈ [partLaunch, partLaunch.asCancelled, { partLaunch with parentLevel := none }], ∀ y ∈ [aLevel 6 .graph, { aLevel 6 .graph with cancelled := true }],
      let l := { fetchLot with launch := 7 }
      (cancelState x y).runs (viewOn l [lane 0] [lane 0]) 0 true true [] ∧ (cancelState x y).launch? 7 = some x
      ∧ (cancelState x y).withChildren [7] 2 = [7] ∧ (cancelState x y).level? 6 = some y)
    ∧ (cancelState partLaunch (aLevel 6 .graph)).levelOf .graph (some 5) 3 = some 6
    ∧ (cancelState { partLaunch with parentLevel := none } (aLevel 6 .graph)).levelOf .graph none 3 = none
    ∧ (cancelState partLaunch (aLevel 6 .phase)).levelOf .graph (some 5) 3 = none
    ∧ partLaunch.asCancelled.cancelled = true ∧ (aLevel 6 .graph).cancelled = false := by
  unfold State.runs View.formed; decide +kernel

def anSwi (target : Word) : Swi := ⟨1, ⟨0, 0, 0, 0⟩, 0, 0x200000, 0, 0, 5, target, []⟩
theorem test_witness_InterruptsAndCompletion :
    t2.runs v2 0 true true [use1 127, use1 126]
    ∧ (let s := (State.withWork State.reset { WorkS.reset with swis := [anSwi 63] }).setReg (queueReg 63 0) 1
       s.w.swis = [anSwi 63] ∧ (∀ i ∈ (anSwi 63).after, s.unperformed 0 0 i = false) ∧ (s.releaseScope 0 0 .sys).1 = true ∧ (63 : Word).getLsbD 6 = false ∧ s.regF (queueReg 63 0) 19 8 = 0
        ∧ s.regF (queueReg 63 0) 0 0 = 1)
    ∧ (State.withWork State.reset { WorkS.reset with swis := [anSwi 64] }).w.wakeFifo.length < 256 ∧ (64 : Word).getLsbD 6 = true
    ∧ (State.withWork State.reset { WorkS.reset with swis := [anSwi 0] }).regF (queueReg 0 0) 0 0 = 0
    ∧ (let x := { aLaunch with offered := false, d := { fetchLot.d with deps := [(3, 0), (4, 1)] } }
       let s := State.withWork State.reset { WorkS.reset with launches := [x] }
       s.launch? x.id = some x ∧ x.offered = false ∧ (s.counter x.ctx 4).toNat < 1
        ∧ let s1 := State.withWork State.reset { WorkS.reset with launches := [x], counters := [(4, 1)] }
          ∀ d ∈ x.d.deps, d.2 ≤ (s1.counter x.ctx d.1).toNat)
    ∧ (let x := { aLaunch with retired := 1 }
       let y := { aLevel 5 .job with closed := true, members := 0 }
       let s := State.withWork State.reset { WorkS.reset with launches := [x], levels := [y, aLevel 6 .graph] }
       s.launch? x.id = some x ∧ x.retired = x.total ∧ x.children = 0 ∧ x.parentLevel = some y.id ∧ s.level? y.id = some y
        ∧ aLaunch.retired ≠ aLaunch.total ∧ y.parent = some 6 ∧ 6 ≠ y.id ∧ s.level? 6 = some (aLevel 6 .graph))
    ∧ (let s := (State.withWork State.reset { WorkS.reset with wakeFifo := [⟨0, 0, 0, 0, 0⟩] }).setReg pwrctlReg 0
       s.w.wakeFifo = ⟨0, 0, 0, 0, 0⟩ :: [] ∧ s.regF pwrctlReg 32 32 = 0) := by
  unfold State.runs View.formed; decide +kernel

/-- A full queue of wakes, for the interrupts that are lost. -/
theorem test_witness_InterruptsAndCompletion_full :
    256 ≤ (State.withWork State.reset { WorkS.reset with wakeFifo := List.replicate 256 ⟨0, 0, 0, 0, 0⟩ }).w.wakeFifo.length := by
  show 256 ≤ (List.replicate 256 _).length
  exact Nat.le_of_eq List.length_replicate.symm

def boothState (b : Booth) : State := { State.reset.setBooth 3 b with actBank := 3 }
theorem test_witness_BoothMicroOps :
    (let s := boothState { Booth.none with st := .running, pc := 1022, segCount := 63, base := 262143 }
     (s.booth s.actBank).st = .running ∧ (s.booth s.actBank).refreshing = false ∧ (s.booth s.actBank).segCount < 64
      ∧ (s.booth s.actBank).pc.toNat < 1023 ∧ (s.booth s.actBank).waiting = [] ∧ s.channelBusy s.actBank = false
      ∧ (s.booth s.actBank).base.toNat + (0 : BitVec 10).toNat < 262144 ∧ s.rowPoisoned (rowLoc 3 262143) = false
      ∧ s.bankRetired s.actBank = false) := by decide +kernel

theorem test_witness_BoothRuns :
    (let s := boothState { Booth.none with st := .running, pc := 1023, base := 262143 }
     (s.booth 3).st = .running ∧ (s.booth 3).pc.toNat = 1023 ∧ 262144 ≤ (s.booth 3).base.toNat + (1 : BitVec 10).toNat
      ∧ ({ s with m := { s.m with poison := [(rowLoc 3 262143 / 128, true)] } } : State).rowPoisoned (rowLoc 3 262143) = true
      ∧ s.bankRetired 3 = false)
    ∧ (let s0 := boothState { Booth.none with st := .running, pc := 1023 }
       let s := { s0 with p := { s0.p with retmap := [(0x250 / 8, 1)] } }
       s.bankRetired 3 = true ∧ (s.booth 3).st = .running)
    ∧ (let s := boothState { Booth.none with st := .running, segCount := 64 }
       64 ≤ (s.booth 3).segCount ∧ (s.booth 3).st = .running ∧ (s.booth 3).pc.toNat < 1023 ∧ s.channelBusy 3 = false)
    ∧ (let s := boothState { Booth.none with st := .suspended }
       (s.booth 3).st = .suspended ∧ (s.booth 3).refreshing = false ∧ (s.booth 3).waiting = [] ∧ (s.booth 3).st ≠ .running)
    ∧ ((boothState { Booth.none with refreshing := true }).booth 3).refreshing = true := by decide +kernel

theorem test_witness_AliasCommands :
    (∀ op ∈ [1, 2, 4, 5],
      let c : BankCmd := ⟨op, 0x3C00, 3, 7, 4, 4095⟩
      let s := boothState { Booth.none with queue := [c] }
      (s.booth 3).queue = c :: [] ∧ (s.booth 3).st = .idle ∧ (s.booth 3).refreshing = false ∧ s.channelBusy 3 = false ∧ s.stackHeld (3 / 256) = false
      ∧ s.channelRetired (3 / 256) (3 / 16 % 16) = false ∧ c.size = 4 ∧ c.ctx < 4096
      ∧ s.channelBusy (bankOf (3 / 256) (bits c.data 25 0 * 1024)) = false ∧ s.bankRetired (bankOf (3 / 256) (bits c.data 25 0 * 1024)) = false)
    ∧ (let pa := 2 ^ 51 + 2 ^ 47 * 3
       let a := { busyAcc 1 .ld with pa := pa, size := 8 }
       let s := { State.reset with accs := [a], m := { MemS.reset with frames := [(0, .aliased)] } }
       s.acc? a.id = some a ∧ a.sp ≠ .l ∧ 8 ≤ region a.pa ∧ a.phase = .ready ∧ s.free? a = true
        ∧ s.arrived a = true ∧ s.pathDown a = false ∧ a.back = none
        ∧ s.crossTo a = none ∧ aliasBad a.pa true a.size 0 = false
        ∧ s.frameClass (bits a.pa 40 0) = .aliased ∧ s.channelBusy (bankOfPa a.pa) = false
        ∧ s.channelRetired (bankOfPa a.pa / 256) (bankOfPa a.pa / 16 % 16) = false) := by decide +kernel

/-- A ring at 0x300000 with these words, beside the tables and the descriptor. -/
def ringMem (ws : List Nat) : Memory :=
  descMem ++ (((ws.flatMap (fun w => toBytes w 4)).zipIdx 0x300000).filter (fun e => e.1 != 0)).map (fun e => (e.2, e.1))
/-- READY, with queue 63 enabled at the start of that ring, TAIL 256. -/
def pktState (ws : List Nat) : State :=
  ((((State.withMem State.reset (ringMem ws)).setRegF startstatReg 3 0 7).setReg (queueReg 63 0) 1).setReg (queueReg 63 0x08) 0x300000).setReg
    (queueReg 63 0x18) 256
def readAt (s : State) (p : Pkt) (fs : List Frame) : Prop := s.atPacket 63 p (s.readPkt 63).2 fs
def withQueue (s : State) (x : Queue) : State := s.setQueue 63 x

theorem test_witness_Packets :
    readAt (pktState [0x00000002]) ⟨0, 0, 2, []⟩ [] ∧ readAt (pktState [0x01000003, 0x200000]) ⟨1, 0, 3, [0x200000, 0, 0]⟩ []
    ∧ (let s := pktState [0x01000003, 0x200000]
       let r := (s.readPkt 63).2.readDesc (.cp 3) ((s.readPkt 63).2.qCtx 63) 0x200000 none
       r.1 = .ok oneDesc ∧ (r.2.queue 63).frames = [])
    ∧ readAt (pktState [0x02000006, 0x200000, 0, 0, 0x200010]) ⟨2, 0, 6, [0x200000, 0, 0, 0x200010, 0, 0]⟩ []
    ∧ (let s := (pktState [0x02000006, 0x200000, 0, 0, 0x200010]).readPkt 63
       let g := s.2.gridWords (.cp 3) (s.2.qCtx 63) 0x200010
       g.1 = some [1, 1, 1] ∧ 1 * 1 * 1 ≤ 2 ^ 31
        ∧ (match (g.2.2.readDesc (.cp 3) (g.2.2.qCtx 63) 0x200000 (some (1, 1, 1))).1 with
          | .ok d => decide (0 < d.gx * d.gy * d.gz)
          | _ => false) = true) := by
  unfold readAt State.atPacket; decide +kernel

theorem test_witness_Packets_wakes :
    (let s := withQueue (pktState [0x0A000001]) { Queue.none with lastLaunch := some 7 }
     readAt s ⟨0x0A, 0, 1, [0]⟩ [] ∧ ((s.readPkt 63).2.queue 63).lastLaunch = some 7)
    ∧ (let s := pktState [0x0B000002, 63, 5]
       readAt s ⟨0x0B, 0, 2, [63, 5]⟩ [] ∧ (s.readPkt 63).2.regF (queueReg 63 0) 0 0 = 1)
    ∧ (let s := (pktState [0x0C000001, 6]).setReg (queueReg 63 0x20) 4
       readAt s ⟨0x0C, 0, 1, [6]⟩ [] ∧ (s.readPkt 63).2.regF (queueReg 63 0x20) 31 0 &&& 6 ≠ 0)
    ∧ readAt (pktState [0x0C000001, 6]) ⟨0x0C, 0, 1, [6]⟩ [] ∧ (pktState [0x0C000001, 6]).regF (queueReg 63 0x20) 31 0 &&& 6 = 0 := by
  unfold readAt State.atPacket; decide +kernel

theorem test_witness_PacketControl :
    (∀ v ∈ [0, 1], readAt (pktState [0x03000003, 0x10003, v]) ⟨3, 0, 3, [0x10003, v, 0]⟩ []
      ∧ ((pktState [0x03000003, 0x10003, v]).readPkt 63).2.counter 0 3 = 0)
    ∧ readAt (pktState [0x07000004, 0x10003, 1, 0, 8]) ⟨7, 0, 4, [0x10003, 1, 0, 8]⟩ []
    ∧ readAt (pktState [0x04000003, 0x5010003, 1]) ⟨4, 0, 3, [0x5010003, 1, 0]⟩ []
    ∧ readAt (pktState [0x04200003, 0x5010003, 1]) ⟨4, 2, 3, [0x5010003, 1, 0]⟩ []
    ∧ (let s := pktState [0x04100006, 0, 9, 0, 0x280000]
       readAt s ⟨4, 1, 6, [0, 9, 0, 0x280000, 0, 0]⟩ [] ∧ ((s.readPkt 63).2.signalMem 63 0x280000 9 false).1 = .ok 0
        ∧ ((((s.readPkt 63).2.signalMem 63 0x280000 9 false).2).queue 63).frames = [])
    ∧ (∀ v ∈ [1, 2],
       let s := withQueue (pktState [0x03100006, 0, v, 0, 0x200010]) { Queue.none with blocked := .wait }
       (s.queue 63).blocked = .wait ∧ (s.readPkt 63).1 = .ok ⟨3, 1, 6, [0, v, 0, 0x200010, 0, 0]⟩
        ∧ ((s.readPkt 63).2.cpRead (.cp 3) 0 0x200010 8).1 = .ok 0x100000001 ∧ (((s.readPkt 63).2.cpRead (.cp 3) 0 0x200010 8).2.queue 63).frames = []) := by
  unfold readAt State.atPacket; decide +kernel

theorem test_witness_PacketControl_frames :
    (∀ n ∈ [0, 2], readAt (pktState [0x05000002, n, 8]) ⟨5, 0, 2, [n, 8]⟩ [])
    ∧ (8 : Nat) < (pktState []).ringSize 63
    ∧ (∀ n ∈ [0, 8], readAt (pktState [0x08000004, 0x200000, 0, 0, n]) ⟨8, 0, 4, [0x200000, 0, 0, n]⟩ [])
    ∧ readAt (pktState [0x09100001, 1023]) ⟨9, 1, 1, [1023]⟩ []
    ∧ (let s := { withQueue (pktState [0x09500001, 1023]) { Queue.none with graph := some 6 } with
          w := { (withQueue (pktState []) { Queue.none with graph := some 6 }).w with levels := [aLevel 6 .graph] } }
       readAt s ⟨9, 5, 1, [1023]⟩ [] ∧ ((s.readPkt 63).2.queue 63).graph = some 6 ∧ (s.readPkt 63).2.level? 6 = some (aLevel 6 .graph)
        ∧ (aLevel 6 .graph).members ≠ 0)
    ∧ (∀ n ∈ [1, 2], readAt (withQueue (pktState [0x06000000]) { Queue.none with frames := [.loop 0 4 n] }) ⟨6, 0, 0, []⟩ [.loop 0 4 n])
    ∧ (let s := pktState [0x0D000000]
       s.cpPick 3 = some 63 ∧ (s.queue 63).frames = [] ∧ (s.qWord 63 (s.qPos 63)).1 = .ok 0x0D000000 ∧ 0x0C < bits 0x0D000000 31 24) := by
  unfold readAt State.atPacket; decide +kernel

theorem test_witness_DeviceRegisters :
    (let s := (((State.reset.setReg (queueReg 63 0) 1).setReg (pbsetReg 7) 0x2000).setReg (ctxReg 4095 0x18) 0x10003)
     s.regF (queueReg 63 0) 0 0 = 1 ∧ State.reset.regF (queueReg 63 0) 0 0 = 0 ∧ s.regF (pbsetReg 7) 13 13 = 1
      ∧ State.reset.regF (pbsetReg 7) 13 13 = 0 ∧ s.regF (ctxReg 4095 0x18) 15 0 = 3
      ∧ Tbl.get false ({ s with e := { s.e with pbBusy := [(7, true)] } } : State).e.pbBusy 7 = true) := by decide +kernel

theorem test_witness_DeviceRegisters_access :
    regDef (ctxReg 0 0x04) = none ∧ (State.reset.setReg startstatReg 8).phase = 8 ∧ (1 : Word64).getLsbD 0 = true ∧ RegPart.whole ≠ .upper
    ∧ regReaches .marketMaster (ctxReg 0 0x04) = false := by
  decide +kernel
/-- Registers of the tables that any agent may write, that one may not, that have an effect of their own, and that a read clears. -/
theorem test_witness_DeviceRegisters_table :
    (∀ pa ∈ [queueReg 63 0x20, ctxReg 4095 0x20, ctxReg 0 0x28, xlatReg 0x10, hlctlReg 1 + 8],
      (regDef pa).isSome = true ∧ regReaches .host pa = true ∧ regPlain pa = true)
    ∧ regWritable .host (ctxReg 0 0x28) = true ∧ regWritable .host (routeReg 0 0) = false ∧ (regDef pwrctlReg).isSome = true
    ∧ regPlain (queueReg 0 0x18) = false ∧ regPlain startctlReg = false ∧ regPlain (retmapReg 0) = false
    ∧ ((regDef (ctxReg 0 0x18)).map (fun d => d.rc)) ≠ some [] := by decide +kernel

theorem test_witness_TranslationControl :
    State.reset.m.tlbinv = none ∧ State.reset.m.ctxflush = none ∧ State.reset.m.fcset = none ∧ State.reset.elidedCount < 16384
    ∧ FrameClass.plain.isElided = false ∧ FrameClass.aliased.isElided = false
    ∧ (let s := { State.reset with m := { MemS.reset with tlbinv := some .all, ctxflush := some ⟨4095, true, 0, none⟩, fcset := some (5, .aliased, [31]) } }
       s.m.tlbinv = some .all ∧ (∀ a ∈ s.accs, a.under .all = false) ∧ s.m.ctxflush = some ⟨4095, true, 0, none⟩ ∧ s.m.fcset = some (5, .aliased, [31])
        ∧ [31].filter (fun x => x != 31) = [] ∧ [30, 31].filter (fun x => x != 31) ≠ []) := by decide +kernel
/-- A store of context 0 that its bank holds up, and one that it does not. -/
theorem test_witness_TranslationControl_stores :
    (∀ b ∈ [false, true],
      let s0 := dirtyState b
      let s : State := { s0 with m := { s0.m with tlbinv := some .all } }
      let s1 := (List.range 64).foldl (fun s die => s.releaseCtxs die (fun _ => true)) s
      s.m.tlbinv = some .all ∧ ((List.range 64).any (fun die => s1.releaseLeft die (fun _ => true))) = b)
    ∧ (busyAcc 1 .ld).under .all = true := by decide +kernel
/-- A flush whose one line its bank holds up, and one that ends. -/
theorem test_witness_TranslationControl_flush :
    ∀ b ∈ [false, true],
      let s0 := dirtyState b
      let s : State := { s0 with m := { s0.m with ctxflush := some ⟨0, true, 0, none⟩ } }
      (s.dieLine? 0 0x4000).map (fun d => d.ctx) = some 0 ∧ s.ctxLines 0 = [(0, 0x4000)]
      ∧ (match execCtxflushComplete s with
        | .next t => t.m.ctxflush == if b then some ⟨0, true, 0, some [(0, 0x4000)]⟩ else none
        | _ => false) = true := by decide +kernel

/-- One access of lane 0 of the lot on core 0. -/
def accState (l : Lot) (a : Acc) : State := { State.reset.setLot 0 0 l with accs := [a] }
theorem test_witness_AccessEvents :
    (let a := { busyAcc 1 .ld with phase := .walk, sp := .l, va := 262140 }
     let s := accState fetchLot a
     s.calm 0 ∧ s.lot? 0 0 = some fetchLot ∧ a.va % a.size = 0 ∧ a.va + a.size ≤ fetchLot.d.scr * 1024 ∧ (s.core 0).locks = []
      ∧ (fetchLot.thr (lane 0)).stop = none ∧ (fetchLot.thr (lane 0)).st = .issuing ∧ s.haltingLot fetchLot.launch = none
      ∧ fetchLot.phase = .running ∧ 262141 % a.size ≠ 0 ∧ fetchLot.d.scr * 1024 < 262144 + a.size ∧ s.fences = [] ∧ a.credit = true
      ∧ a.back = none)
    ∧ (let a := { busyAcc 1 .ld with phase := .replied 5, dst := some (127, .b32), lim := 128 }
       a.hasResult = true ∧ a.kind.isCell = false ∧ 127 + regsOf Ty.b32.bits ≤ 128 ∧ { a with lim := 16 }.lim ≤ 127)
    ∧ (∀ h ∈ [0, 1, 2], let a := { busyAcc 1 .st with sp := .l, size := 16, half := h }
       a.phase = .ready ∧ a.size = 16 ∧ a.half = h ∧ (busyAcc 1 .st).size < 16) := by
  unfold State.calm; decide +kernel
theorem test_witness_AccessEvents_home :
    (let a := busyAcc 1 .ld
     let s := accState fetchLot a
     a.phase = .ready ∧ a.sp = .g ∧ region a.pa = 0 ∧ s.hits a = false ∧ s.arrived a = true ∧ s.pathDown a = false ∧ s.crossTo a = none
      ∧ s.bankOpen a.pa (.acc a.id) = true ∧ a.flow = 0 ∧ s.homeRefusal a.pa true = none ∧ s.canFill 0 (a.pa / 128) = true
      ∧ s.dieLine? 0 (a.pa / 128) = none ∧ s.earlyOf 0 (a.pa / 128) = [] ∧ s.elidedAt a.pa = false
      ∧ (s.setBooth (bankOfPa a.pa) { Booth.none with st := .running }).bankOpen a.pa (.acc a.id) = false
      ∧ ({ s with m := { s.m with poison := [(a.pa / 128, true)] } } : State).homeRefusal a.pa true = some 0x30)
    ∧ (let a := { busyAcc 1 .st with flow := 3 }
       let s := accState fetchLot a
       s.hits a = false ∧ s.arrived a = true ∧ s.pathDown a = false ∧ s.crossTo a = none ∧ s.homeRefusal a.pa false = none
        ∧ s.dieLine? 0 (a.pa / 128) = none ∧ s.earlyOf 0 (a.pa / 128) = [] ∧ s.bankOpen a.pa (.acc a.id) = true ∧ a.flow ≠ 0 ∧ a.size < 16
        ∧ s.oneVisit { a with size := 16 } = false
        ∧ ({ s with m := { s.m with frames := [(32, .aliased)] } } : State).oneVisit { a with size := 16 } = true)
    ∧ (let a := { busyAcc 1 .red with phase := .sent, ty := .n32, pa := 2 ^ 49 }
       (accState fetchLot a).crossTo a = none ∧ atomNew a.aop a.ty (ofBytes (((accState fetchLot a).hostClean (hostLineOf a.pa) true).m.mem.readBytes a.pa a.size)) a.data a.cmp = some 7) := by
  decide +kernel

def cellAcc (k : AccKind) : Acc := { busyAcc 1 k with size := 16, data := 2 ^ 127 + 5 }
theorem test_witness_CellEvents :
    (∀ k ∈ [AccKind.bid, .close, .recycle, .peek],
      let a := cellAcc k
      let s := accState fetchLot a
      s.accs = [a] ∧ a.phase = .ready ∧ s.free? a = true ∧ a.kind.isCell = true ∧ a.back = none ∧ s.remoteCell a = false
      ∧ s.arrived a = true ∧ s.pathDown a = false ∧ s.crossTo a = none ∧ s.bankOpen a.pa (.acc a.id) = true ∧ region a.pa = 0 ∧ a.pa % 16 = 0
      ∧ s.homeRefusal a.pa false = none ∧ s.elidedAt a.pa = false ∧ s.dieLine? 0 (a.pa / 128) = none ∧ s.earlyOf 0 (a.pa / 128) = []
      ∧ s.canFill 0 (a.pa / 128) = true)
    ∧ (let a := { cellAcc .peek with dst := some (124, .b128), lim := 128 }
       let d : DieLine := ⟨0, false, true, false, [⟨.l1 0, 0, 0⟩]⟩
       let s0 := accState fetchLot a
       let s : State := { s0 with m := { s0.m with caches := [(a.pa / 128, some d)] } }
       s.hits a = true ∧ s.inL1 0 (a.pa / 128) = true ∧ s.calm 0 ∧ s.lot? 0 0 = some fetchLot ∧ s.dieLine? 0 (a.pa / 128) = some d
        ∧ (laneAgent a.t).isBarker = false ∧ Ty.b128.bits = 128)
    ∧ (let a := { cellAcc .bid with attr := 2 ^ 12, modid := 5 }
       let s := accState fetchLot a
       s.remoteCell a = true ∧ a.phase = .ready ∧ { a with phase := .sent }.phase = .sent ∧ s.circuit 5 = none
        ∧ ((s.setPort 15 { PortS.none with here := some 5 }).setLinkState 17 2).circuit 5 = some 15) := by
  unfold State.calm; decide +kernel

/-- A lot whose kick queue begins with a record of these bytes. -/
def kickLot (k : KickKind) (rec : Tbl Byte) : Lot :=
  { slotLot with kicks := [⟨8, k, 0, 255, 1, lane 0, 0, 0, [], []⟩], scratch := rec }
/-- Tensor 0 of context 0 is a vector of two I8 elements, tensor 1 one of two F32 elements; a tensor of 64 lies in memory (R239). -/
def kickState (l : Lot) : State :=
  let s := State.withMem (State.reset.setLot 0 0 l)
    (tables ++ [(0x280000, 0x80), (0x280001, 1), (0x280004, 64)])
  (({ s with e := { EngS.reset with tensors := [(0, 0x80), (1, 1), (4, 2), (128, 0x8D), (129, 1), (132, 2)] } } : State).setReg (pbsetReg 7) 0x1000)

theorem test_witness_EngineRecords :
    (∀ rec ∈ ([[(0, 1), (1, 63), (2, 10), (8, 16), (13, 1), (17, 2), (0x1D, 3)], [(0, 2), (2, 10), (8, 16), (13, 1), (17, 2), (0x1D, 3), (0x29, 4)],
        [(0, 3), (2, 10), (8, 16), (13, 1), (17, 2), (0x1D, 3), (0x29, 4)], [(0, 4), (6, 3), (13, 1)], [(0, 5), (5, 1), (13, 1)],
        [(0, 6), (5, 1), (13, 1)]] : List (Tbl Byte)),
      let l := kickLot .order rec
      let s := kickState l
      let r := OrderRec.ofBytes (l.recBytes 0)
      s.nextKick 0 = some (0, l, aKick .order) ∧ s.calm 0 ∧ s.recordFault l (l.recBytes 0) r = none ∧ l.bobjFault r.bobj = none
      ∧ (r.tile = true ∨ r.count ≠ 0))
    ∧ (let l := kickLot .order [(1, 63)]
       let s := kickState l
       s.nextKick 0 = some (0, l, aKick .order) ∧ s.calm 0 ∧ s.recordFault l (l.recBytes 0) (OrderRec.ofBytes (l.recBytes 0)) = some (1, 0)
        ∧ l.waitersPlain) := by
  unfold State.calm Lot.waitersPlain Thread.plain; decide +kernel

theorem test_witness_EngineRecords_commands :
    (let l := kickLot .tload [(0, 63), (1, 63), (2, 2), (8, 64)]
     let s := kickState l
     s.nextKick 0 = some (0, l, aKick .tload) ∧ s.calm 0 ∧ (s.pbSet 0).isSome = true ∧ l.bobjFault (recNat (l.recBytes 0) 4 4) = none
      ∧ recNat (l.recBytes 0) 0 1 = 63 ∧ recNat (l.recBytes 0) 1 1 = 63 ∧ recNat (l.recBytes 0) 2 1 = 2 ∧ recNat (l.recBytes 0) 3 1 = 0
      ∧ recNat (l.recBytes 0) 0x12 46 = 0 ∧ recNat (l.recBytes 0) 8 10 % 64 = 0)
    ∧ (let l := kickLot .tqr [(0, 63), (1, 63), (2, 64), (9, 4), (0x19, 4)]
       let s := kickState l
       s.nextKick 0 = some (0, l, aKick .tqr) ∧ s.pbSet 0 = some 7 ∧ s.boardShape 7 63 ≠ 2 ∧ recNat (l.recBytes 0) 2 2 ≤ 64
        ∧ recNat (l.recBytes 0) 0x12 6 = 0 ∧ recNat (l.recBytes 0) 0x22 30 = 0 ∧ recNat (l.recBytes 0) 8 10 % 1024 = 0
        ∧ recNat (l.recBytes 0) 0x18 10 % (if s.boardShape 7 63 = 1 then 2048 else 1024) = 0)
    ∧ (let l := kickLot .tbind []
       let k := { aKick .tbind with off := 0x280000 }
       let l := { l with kicks := [k] }
       let s := kickState l
       s.nextKick 0 = some (0, l, k) ∧ s.calm 0 ∧ k.count ≤ 1 ∧ (s.engRead 0 0 8 0x280000 128 none).1 = .ok (0x80 + 256 + 64 * 2 ^ 32)
        ∧ bit (0x80 + 256 + 64 * 2 ^ 32) 7 = true ∧ (tensorOf (toBytes (0x80 + 256 + 64 * 2 ^ 32) 128)).isSome = true
        ∧ (s.engRead 0 0 8 0x281000 128 none).1 = .ok 0 ∧ bit 0 7 = false) := by
  unfold State.calm; decide +kernel

def anOrder (k : OrderKind) : Order :=
  { id := 9, core := 0, bctx := 0, ctx := 0, kind := k,
    r := ⟨1, 63, 2, 2, false, 0, 0, 0, 0, 0, 200, 0x100, 0x200, 0x300, [], 0⟩, tensor := [], agent := lane 0, started := true, pos := 0,
    image := [], stackSet := [], tileOp := 0, hdr := 0 }
def orderState (l : Lot) (o : Order) : State := { kickState l with e := { EngS.reset with orders := [o] } }
/-- The object of an order with REMAIN 300. -/
def objLot : Lot := { fetchLot with scratch := [(0x100, 44), (0x101, 1)] }
def aTile (k : TileKind) (ph : TilePhase) : TileOp := ⟨4, 4, 0, 0, lane 0, 0, k, ph, [0]⟩

theorem test_witness_OrdersProgress :
    (let o := { anOrder .copy with started := false, tileOp := 4 }
     let s := orderState objLot o
     s.order? 9 = some o ∧ s.lockHeld o = false ∧ s.tileOp? 4 = none ∧ (∀ x ∈ (s.core 0).locks, x.order = o.id → s.rangeClean 0 x = true)
      ∧ (let x := aTile (.accz 15) .waiting
        let s1 := { s with e := { s.e with tileOps := [x] } }
        s1.tileOp? 4 = some x ∧ s1.tileFree x = true ∧ s1.order? 9 = some o ∧ s1.lockHeld o = false))
    ∧ (∀ pos ∈ [0, 128],
      let o := { anOrder .copy with pos := pos }
      let s := orderState objLot o
      s.lot? 0 0 = some objLot ∧ o.pos < o.r.count ∧ objLot.phase = .running ∧ s.tileOp? o.tileOp = none
      ∧ (let n := min (min (128 - (o.r.src + pos) % 128) (128 - (o.r.dst + pos) % 128)) (o.r.count - pos)
        o.r.src + pos + n ≤ objLot.d.scr * 1024 ∧ o.r.dst + pos + n ≤ objLot.d.scr * 1024 ∧ o.r.bobj + 8 ≤ o.r.dst + pos
          ∧ n < objLot.scratchNat o.r.bobj 8 % 2 ^ 48 ∧ (pos = 0 → pos + n ≠ o.r.count) ∧ (pos = 128 → pos + n = o.r.count)))
    ∧ (∀ ss ∈ ([[31], [30, 31]] : List (List Nat)),
      let o := { anOrder (.tload 63 2) with stackSet := ss }
      let s := orderState objLot o
      s.order? 9 = some o ∧ 31 ∈ o.stackSet ∧ s.stackHeld 31 = false ∧ s.stackWay (.acc o.id) 0 31 = .ok 0
        ∧ (s.pbSet 0) = some 7) := by decide +kernel

/-- A destination range whose dirty line waits for its bank. -/
theorem test_witness_OrdersProgress_unclean :
    (let o := { anOrder .copy with started := false }
     let x : Lock := ⟨0, 0, 0, true, 63, 0x100, 128, 9, 0⟩
     let s0 := State.reset.setLot 0 0 fetchLot
     let s1 : State := { s0 with
       e := { EngS.reset with orders := [o] },
       m := { s0.m with mem := tables, caches := [(2, some ⟨0, false, false, false, [⟨.l1 0, 5, 1⟩]⟩)] } }
     let s2 := s1.setBooth (bankOfPa 0x100) { Booth.none with st := .running }
     let s := s2.setCore 0 { s2.core 0 with locks := [x] }
     s.order? 9 = some o ∧ s.lockHeld o = false ∧ x ∈ (s.core 0).locks ∧ x.order = o.id ∧ s.rangeClean 0 x = false) := by decide +kernel

/-- A row of a lookup of table 63 of set 7. -/
def rowOrder : Order := { anOrder (.tqr 63) with r := cmdRec 63 64 0 0x10000 0x40000 }
def rowState : State :=
  let s := orderState objLot rowOrder
  { s with m := { s.m with frames := [(1, .aliased)] } }
theorem test_witness_OrdersProgress_row :
    rowState.order? 9 = some rowOrder ∧ rowOrder.started = true ∧ rowOrder.image = [] ∧ rowOrder.pos < rowOrder.r.count ∧ rowState.pbSet 0 = some 7
    ∧ Tbl.get false rowState.m.poison (boardKey 7 63) = false ∧ Tbl.get false rowState.e.pbBusy 7 = false
    ∧ (∀ y ∈ rowState.e.orders, y.stackSet = [])
    ∧ (let w := rowState.engWalk 0 0 9 0x10000
       let c := w.2.engCheck 0 0 0x10000 false none
       let home := (List.range 8).foldl (fun s i => s.cleanLine 0 (0x10000 / 128 + i)) (c.2.bankServed 0x10000 (.acc 9))
       w.1 = .ok 0 ∧ c.1 = .ok 0x10000 31 0 true ∧ attrELID 31 = false ∧ c.2.frameClass (bits 0x10000 40 0) = .aliased
        ∧ c.2.stackHeld (stackOf (bits 0x10000 40 0)) = false
        ∧ c.2.way (.acc 9) 0 0x10000 true = .ok 0 ∧ (∀ i ∈ List.range 8, c.2.poisoned (0x10000 + 128 * i) = false)
        ∧ (home.engCheck 0 0 0x40000 true none).1 = .ok 0x40000 31 0 true ∧ region 0x40000 ≠ 2) := by
  decide +kernel
theorem test_witness_OrdersProgress_lines :
    (let o := { rowOrder with image := List.replicate 1024 5 }
     let s := orderState objLot o
     s.order? 9 = some o ∧ o.started = true ∧ s.lot? 0 0 = some objLot ∧ (s.engSegment 0 0 9 0x40000 5 none).1 = .ok 0) := by decide +kernel

def aMma : FmtMma := ⟨0, .ss, 1, 2, 3, .e4m3, .e4m3⟩
def tileState (x : TileOp) : State := { State.reset.setLot 0 0 slotLot with e := { EngS.reset with tileOps := [x] } }
theorem test_witness_TileOperationsRun :
    (let x := aTile (.mma aMma) .waiting
     (tileState x).tileOp? 4 = some x ∧ (tileState x).lot? 0 0 = some slotLot ∧ (tileState x).nextMma 0 = some x)
    ∧ (let x := aTile (.accz 15) .waiting
       (tileState x).tileOp? 4 = some x ∧ (tileState x).tileFree x = true)
    ∧ (∀ x ∈ [aTile (.mma aMma) .started, aTile (.mma aMma) .left, aTile (.accz 15) .started, aTile (.accwr 15 [(63, 63, 7)]) .started],
      (tileState x).tileOp? 4 = some x ∧ (tileState x).lot? 0 0 = some slotLot ∧ (tileState x).calm 0
      ∧ ∀ y ∈ (tileState x).e.tileOps, y.group = x.group → y.id = 4)
    ∧ aMma.mode = .ss := by unfold State.calm; decide +kernel

/-- READY, with one launch and nothing else to place. -/
def placeState (x : Launch) : State := State.withWork (State.reset.setRegF startstatReg 3 0 7) { WorkS.reset with launches := [x] }
def endedLot : Lot := { fetchLot with launch := 7, done := 1, barkExited := true, threads := [(0, { Thread.none with st := .exited }), (1024, { Thread.none with st := .exited })] }
theorem test_witness_LotLife :
    (let s := placeState aLaunch
     s.w.preempts = [] ∧ s.coreRetired 1023 = false ∧ s.dieRetired (dieOf 1023) = false ∧ (∀ e ∈ s.lotsOn 1023, e.2.saving = false)
      ∧ s.isReady = true ∧ s.pickLaunch 1023 = some (aLaunch, .unstarted 0) ∧ s.lot? 1023 0 = none ∧ aLaunch.reruns = [] ∧ aLaunch.d.threads ≤ 1024)
    ∧ (let s := (placeState aLaunch).setLot 0 3 endedLot
       s.lot? 0 3 = some endedLot ∧ s.launch? endedLot.launch = some aLaunch ∧ (s.core 0).blockQ = [] ∧ endedLot.phase = .running
        ∧ endedLot.done = endedLot.nthreads ∧ endedLot.barkExited = true ∧ s.engineWork 0 3 endedLot = false ∧ fetchLot.done ≠ fetchLot.nthreads)
    ∧ (let l := { fetchLot with launch := 7 }
       let s0 := (placeState aLaunch).setLot 0 3 l
       let s := { s0 with w := { s0.w with cancels := [(7, 0)] } }
       s.w.cancels = [(7, 0)] ∧ s.lot? 0 3 = some l ∧ s.complete 0 3 l = false ∧ ∀ e ∈ s.lotsOn 0, e.2.launch = 7 → e.2.phase ≠ .halted)
    ∧ (let l := { endedLot with phase := .failing 0x40 }
       let s := State.reset.setLot 0 3 l
       s.lot? 0 3 = some l ∧ l.ended = true ∧ s.engineWork 0 3 l = false ∧ s.lotAccs 0 3 = [])
    ∧ (let s := (State.reset.setLot 0 3 fetchLot).setReg (ctxReg 0 0x20) (2 ^ 32)
       s.regF (ctxReg 0 0x20) 47 32 ≠ 0 ∧ fetchLot.allDebug = false ∧ (s.core 0).halted = false ∧ s.haltingLot fetchLot.launch = none
        ∧ fetchLot.phase = .running ∧ (∀ a ∈ fetchLot.allAgents, (fetchLot.thr a).stop = none)) := by
  decide +kernel
theorem test_witness_LotLife_release :
    (let s := (placeState aLaunch).setLot 0 3 endedLot
     (s.releaseScope 0 0 .pkg).1 = true)
    ∧ (State.reset.setReg (ctxReg 0 0x20) 0x20000000800).factAction 0 5 = 2
    ∧ (State.reset.setReg (ctxReg 0 0x20) (2 ^ 32)).factAction 0 5 ≠ 2 := by decide +kernel


/-! ### Images in host memory: a lot's save area is 400,000 bytes, so its length and its writing are shown by lemmas -/

/-- Registers, poisoned lines and the transfers under way are as before. -/
def sameHost (s t : State) : Prop := t.dev = s.dev ∧ t.m.poison = s.m.poison ∧ t.p = s.p
theorem sameHost.trans' {s t u : State} (h : sameHost s t) (k : sameHost t u) : sameHost s u :=
  ⟨k.1.trans h.1, k.2.1.trans h.2.1, k.2.2.trans h.2.2⟩
theorem setHomeByte_host (s : State) (pa : Nat) (b : Byte) : sameHost s (s.setHomeByte pa b) := by
  unfold State.setHomeByte; repeat' split
  all_goals exact ⟨rfl, rfl, rfl⟩
theorem setHomeBytes_host (bs : List Byte) : ∀ (s : State) (pa : Nat), sameHost s (s.setHomeBytes pa bs) := by
  induction bs with
  | nil => exact fun _ _ => ⟨rfl, rfl, rfl⟩
  | cons b bs ih => exact fun s pa => (setHomeByte_host s pa b).trans' (ih _ _)
theorem hostClean_host (s : State) (k : Nat) (b : Bool) : sameHost s (s.hostClean k b) := by
  unfold State.hostClean; repeat' split
  all_goals exact ⟨rfl, rfl, rfl⟩
theorem hostFill_host (s : State) (pa : Nat) : sameHost s (s.hostFill pa) := by
  have room (h : Nat) : sameHost s (s.hostRoom h) := by
    unfold State.hostRoom; dsimp only
    split
    · exact ⟨rfl, rfl, rfl⟩
    · exact hostClean_host _ _ _
  unfold State.hostFill; dsimp only
  split
  · exact ⟨rfl, rfl, rfl⟩
  · exact room _
theorem homeWrite_host (s : State) (pa n v : Nat) (h : region pa = 2) : sameHost s (s.homeWrite pa n v) := by
  simp only [State.homeWrite, h]
  exact (hostFill_host s pa).trans' (setHomeBytes_host _ _ _)
/-- Both host ports are UP and no line is poisoned. -/
def hostUp (s : State) : Prop := s.portState 0 = 2 ∧ s.portState 1 = 2 ∧ s.m.poison = []
theorem hostUp_of {s t : State} (d : t.dev = s.dev) (p : t.m.poison = s.m.poison) (up : hostUp s) : hostUp t := by
  have r : t.reg = s.reg := funext fun pa => by unfold State.reg; rw [d]
  unfold hostUp State.portState State.regF at *
  rw [r, p]; exact up
theorem ioGate_host (s : State) (w : Waiter) (pa : Nat) (b : Bool) (up : hostUp s) (h : region pa = 2)
    (none : s.transfer? w (pa / 128) = none) : s.ioGate w pa b = .ok 0 := by
  have u : s.hostPath pa = .port (hostUnit pa) := by
    have two : hostUnit pa = 0 ∨ hostUnit pa = 1 := by unfold hostUnit bits; omega
    unfold State.hostPath
    rcases two with e | e <;> simp [e, up.1, up.2.1]
  have p : s.poisoned pa = false := by unfold State.poisoned; rw [up.2.2]; rfl
  have o : s.bankOpen pa w = true := by simp [State.bankOpen, h]
  have c : s.crossing w.die pa = .none := by simp [State.crossing, h, u]
  simp [State.ioGate, State.way, State.homeTakes, State.homeRefusal, State.regionOk, h, u, p, o, c, none]
/-- A range of host memory is taken at once, and the machine is as before. -/
theorem rangeTake_host (s : State) (w : Waiter) (pa n : Nat) (up : hostUp s) (none : s.p.transfers = [])
    (h : ∀ p, pa / 128 * 128 ≤ p → p < pa + n + 128 → region p = 2) : s.rangeTake w pa n = (.ok 0, s) := by
  let mine (ts : List Transfer) : Prop := ∀ t ∈ ts, t.who = w ∧ t.ch = readMark
  let step (r : EngRes × State) : Prop := r.1 = .ok 0 ∧ ∃ ts, mine ts ∧ r.2 = { s with p := { s.p with transfers := ts } }
  have fold (f : EngRes × State → Nat → EngRes × State) (ls : List Nat) (hf : ∀ r p, p ∈ ls → step r → step (f r p)) :
      ∀ r, step r → step (ls.foldl f r) := by
    induction ls with
    | nil => exact fun _ hr => hr
    | cons p ls ih =>
      exact fun r hr => ih (fun r q hq => hf r q (List.mem_cons_of_mem _ hq)) _ (hf r p List.mem_cons_self hr)
  unfold State.rangeTake
  dsimp only
  generalize hr : List.foldl _ ((.ok 0, s) : EngRes × State) _ = r
  have hs : step r := by
    rw [← hr]
    refine fold _ _ ?_ _ ⟨rfl, [], by simp [mine], by rw [← none]⟩
    rintro ⟨r1, r2⟩ p hp ⟨ok, ts, hm, e⟩
    dsimp only at ok e
    subst ok e
    dsimp only
    have hp2 : region p = 2 := by
      obtain ⟨i, hi, rfl⟩ := List.mem_map.mp hp
      have := List.mem_range.mp hi
      exact h _ (by omega) (by omega)
    split
    · exact ⟨rfl, ts, hm, rfl⟩
    · rename_i hn
      have tn : ({ s with p := { s.p with transfers := ts } } : State).transfer? w (p / 128) = .none := by
        rw [Option.eq_none_iff_forall_ne_some]
        intro t ht
        refine hn ?_
        rw [ht]
        simp only [Option.any_some, beq_iff_eq]
        exact (hm t (List.mem_of_find?_eq_some ht)).2
      have g := ioGate_host ({ s with p := { s.p with transfers := ts } } : State) w p true (hostUp_of rfl rfl up) hp2 tn
      rw [g]
      dsimp only
      have served : ({ s with p := { s.p with transfers := ts } } : State).bankServed p w = { s with p := { s.p with transfers := ts } } := by
        simp [State.bankServed, hp2]
      rw [served]
      refine ⟨rfl, ?_⟩
      have hf : mine (ts.filter (fun t => !(t.who == w && t.line == p / 128))) := fun t ht => hm t (List.mem_filter.mp ht).1
      unfold State.addTransfer
      split
      · exact ⟨_, hf, rfl⟩
      · refine ⟨_, ?_, rfl⟩
        intro t ht
        rcases List.mem_append.mp ht with ht | ht
        · exact hf t ht
        · simp only [List.mem_singleton] at ht
          subst ht; exact ⟨rfl, rfl⟩
  obtain ⟨r1, r2⟩ := r
  obtain ⟨ok, ts, hm, e⟩ := hs
  dsimp only at ok e
  subst ok e
  dsimp only
  have f : ts.filter (fun t => t.who != w) = [] := by
    refine List.filter_eq_nil_iff.mpr fun t ht => ?_
    simp [(hm t ht).1]
  simp only [State.endTransfers, f]
  rw [← none]
theorem region_host (pa : Nat) (h : 2 ^ 49 ≤ pa) (h' : pa < 3 * 2 ^ 48) : region pa = 2 := by
  have : pa / 2 ^ 48 = 2 := by omega
  have two : 2 % 2 ^ 4 = 2 := by decide
  exact (congrArg (fun x => x % 2 ^ 4) this).trans two
theorem writeImage_host (w : Waiter) (fuel : Nat) : ∀ (s : State) (pa : Nat) (bs : List Byte), hostUp s → s.p.transfers = [] → 2 ^ 49 ≤ pa →
    pa + bs.length ≤ 3 * 2 ^ 48 → (s.writeImage w pa bs fuel).1 = .done := by
  induction fuel with
  | zero => exact fun _ _ _ _ _ _ _ => rfl
  | succ fuel ih =>
    intro s pa bs hl ht h h'
    cases bs with
    | nil => rfl
    | cons b bs =>
      have r := region_host pa h (by simp at h'; omega)
      have len : pa + min (b :: bs).length (128 - pa % 128) + ((b :: bs).drop (min (b :: bs).length (128 - pa % 128))).length
          ≤ 3 * 2 ^ 48 := by simp only [List.length_drop]; omega
      have served : s.bankServed pa w = s := by simp [State.bankServed, r]
      simp only [State.writeImage, ioGate_host s w pa false hl r (by simp [State.transfer?, ht]), served]
      split
      · exact ih _ _ _ hl ht (by omega) len
      · have same := fun n v => homeWrite_host s pa n v r
        exact ih _ _ _ (hostUp_of (same _ _).1 (same _ _).2.1 hl) ((congrArg LinkPlatS.transfers (same _ _).2.2).trans ht) (by omega) len

theorem sections_length (ps : List (Nat × List Byte)) : ∀ h : List Byte,
    (ps.foldl (fun bs e => padTo e.1 bs ++ e.2) h).length ≤ h.length + (ps.map (fun e => e.1 + e.2.length)).sum := by
  induction ps with
  | nil => exact fun h => Nat.le_refl _
  | cons p ps ih =>
    intro h
    refine Nat.le_trans (ih _) ?_
    simp only [padTo, List.length_append, List.length_replicate, List.map_cons, List.sum_cons]; omega

/-- READY with both host ports UP, one launch of priority 3, a lot of one thread on context 3 of core 1,023, and a save pool
of 2^40 bytes in host memory, where an area's header and its first 256 bytes lie. -/
def oneLot (st : TState) (ph : LotPhase) : Lot :=
  { fetchLot with
    launch := 7, threads := [(0, { Thread.none with st := st })], d := ⟨0, 0, 0, 1, 1, 1, 1, 1, 1, 1, 0, 0, false, 0, 0, [], 0⟩,
    warps := [(0, { Warp.none with pool := 1 })], saving := ph == .running, phase := ph }
def areaLens : List Nat := [1024, 104, 68, 546, 260, 256, 397346, 0, 8, 0, 0]
def areaBytes : List Byte :=
  toBytes 0x4B534156 4 ++ toBytes 1 28 ++ toBytes 1 2 ++ toBytes 1 2 ++ toBytes 1 8 ++ [1, 0, 0, 0] ++ toBytes 1 32
    ++ ((sectionOffsets 256 areaLens).1.zip areaLens).flatMap (fun e => toBytes e.1 4 ++ toBytes e.2 4)
def imageState (l : Lot) : State :=
  let s := (placeState { aLaunch with prio := 3 }).setLot 1023 3 l
  let s := (((s.setReg (hlstatReg 0) 2).setReg (hlstatReg 1) 2).setReg (ctxReg 0 0x38) (BitVec.ofNat 64 (2 ^ 49 + 20))).setReg (dbgReg 1023 0x20) (BitVec.ofNat 64 (2 ^ 49))
  State.withMem s (((areaBytes.zipIdx (2 ^ 49)).filter (fun e => e.1 != 0)).map (fun e => (e.2, e.1)))

theorem sum_map_const {α : Type} (n : Nat) (xs : List α) : (xs.map (fun _ => n)).sum = xs.length * n := by
  induction xs with
  | nil => simp
  | cons x xs ih => simp only [List.map_cons, List.sum_cons, ih, List.length_cons, Nat.succ_mul]; omega
theorem length_toBytes (n : Nat) : ∀ x, (toBytes x n).length = n := by
  induction n with
  | zero => exact fun _ => rfl
  | succ n ih => exact fun x => congrArg (· + 1) (ih (x / 256))
theorem length_slice {α : Type} (d : α) (t : Tbl α) (lo n : Nat) : (Tbl.slice d t lo n).length = n := by simp [Tbl.slice]

theorem slots_length (s : State) (c b : Nat) (l : Lot) (dump : Bool) : ((s.sections c b l dump).getD 6 []).length = 397346 := by
  have h (k : Nat) : (Tbl.slice (0 : Byte) l.slotData (k * 4096) 4096
      ++ (if k < l.d.ops then Tbl.slice (0x7F : Byte) l.slotScale (k * 128) 128 else List.replicate 128 0)).length = 4224 := by
    split <;> simp [length_slice]
  simp only [State.sections, List.getD_cons_succ, List.getD_cons_zero, List.length_append, List.length_map, List.length_range,
    List.length_flatMap, List.length_append, h, length_slice, length_toBytes, sum_map_const] at *

/-- The bytes of an image of the lot: at most 1 MiB. -/
theorem image_le (l : Lot) (dump : Bool)
    (h : (List.range 11).all (fun k => k == 6 || (((imageState l).sections 1023 3 l dump).getD k []).length
      == [1024, 104, 68, 546, 260, 256, 397346, 0, 8, 0, if dump then 768 else 0].getD k 0) = true)
    (hf : l.firstFault = none) (hn : l.nwarps = 1) :
    ((imageState l).saveImage 1023 3 l dump).length ≤ 2 ^ 22 := by
  have e (k : Nat) (hk : k < 11) := (List.all_eq_true.mp h) k (List.mem_range.mpr hk)
  simp only [Bool.or_eq_true, beq_iff_eq] at e
  have lens : ((imageState l).sections 1023 3 l dump).map (fun x => x.length)
      = [1024, 104, 68, 546, 260, 256, 397346, 0, 8, 0, if dump then 768 else 0] := by
    have six := slots_length (imageState l) 1023 3 l dump
    have r : ((imageState l).sections 1023 3 l dump).map (fun x => x.length)
        = (List.range 11).map (fun k => (((imageState l).sections 1023 3 l dump).getD k []).length) := rfl
    rw [r]
    refine List.map_congr_left (g := fun k => [1024, 104, 68, 546, 260, 256, 397346, 0, 8, 0, if dump then 768 else 0].getD k 0) ?_ |>.trans ?_
    · intro k hk
      rcases e k (List.mem_range.mp hk) with rfl | e
      · exact six
      · exact e
    · cases dump <;> decide
  have z (xs : List Nat) (ys : List (List Byte)) : (xs.zip ys).map (fun e => e.1 + e.2.length) = (xs.zip (ys.map (fun x => x.length))).map (fun e => e.1 + e.2) := by
    rw [List.zip_map_right, List.map_map]; rfl
  have n11 : ((imageState l).sections 1023 3 l dump).length = 11 := by
    have := congrArg List.length lens
    simpa using this
  have sums : (((sectionOffsets 256 [1024, 104, 68, 546, 260, 256, 397346, 0, 8, 0, if dump then 768 else 0]).1.zip
      [1024, 104, 68, 546, 260, 256, 397346, 0, 8, 0, if dump then 768 else 0]).map (fun e => e.1 + e.2)).sum ≤ 2 ^ 21 + 2 ^ 20 := by
    cases dump <;> decide +kernel
  unfold State.saveImage
  generalize (imageState l).sections 1023 3 l dump = secs at lens n11 ⊢
  refine Nat.le_trans (sections_length _ _) ?_
  rw [z, lens]
  refine Nat.le_trans (Nat.add_le_add_left sums _) ?_
  simp only [hf, List.length_append, List.length_flatMap, length_toBytes, sum_map_const, List.length_zip, n11, padTo, List.length_map,
    List.length_range, List.length_replicate, List.length_cons, List.length_nil, hn]
  omega

theorem saved_le : ((imageState (oneLot .ready .running)).saveImage 1023 3 (oneLot .ready .running) false).length ≤ 2 ^ 22 :=
  image_le _ _ (by decide +kernel) rfl rfl
theorem dumped_le : ((imageState (oneLot (.parked .debug) .running)).saveImage 1023 3 (oneLot (.parked .debug) .running) true).length ≤ 2 ^ 22 :=
  image_le _ _ (by decide +kernel) rfl rfl
theorem halted_le : ((imageState (oneLot .stopped .halted)).saveImage 1023 3 (oneLot .stopped .halted) true).length ≤ 2 ^ 22 :=
  image_le _ _ (by decide +kernel) rfl rfl
theorem writes (l : Lot) (bs : List Byte) (hl : hostUp (imageState l)) (ht : (imageState l).p.transfers = []) (h : bs.length ≤ 2 ^ 22) :
    ((imageState l).writeImage (.place 1023 3) (2 ^ 49) bs bs.length).1 = .done :=
  writeImage_host _ _ _ _ _ hl ht (Nat.le_refl _) (by omega)
theorem placed (l : Lot) (n : Nat) (h : n ≤ 2 ^ 22)
    (hp : (imageState l).savePool 0 = (2 ^ 49, 2 ^ 40)) (ha : ((imageState l).ctxS 0).areas = []) :
    placeArea ((imageState l).savePool 0).1 ((imageState l).savePool 0).2 n ((imageState l).ctxS 0).areas = some (2 ^ 49) := by
  have f : (2 ^ 49 + n ≤ 2 ^ 49 + 2 ^ 40) := by omega
  simp only [hp, ha, placeArea, List.map_nil, List.filter_cons, List.filter_nil, List.all_nil, f, Nat.le_refl, decide_true, Bool.and_true]
  rfl

/-- Every die but 63 is retired. -/
def oneDie : State := { State.reset with p := { LinkPlatS.reset with retmap := [(48, 0x7FFFFFFFFFFFFFFF)] } }
theorem test_witness_LossAndPreemption :
    State.reset.dieRetired 63 = false ∧ Tbl.get 0 State.reset.p.probes 63 = 0
    ∧ Tbl.get 0 ({ State.reset with p := { LinkPlatS.reset with probes := [(63, 2)] } } : State).p.probes 63 = 2
    ∧ oneDie.w.preempts = [] ∧ 16 ≤ (oneDie.preemptOrder 0).length ∧ (oneDie.preemptOrder 0).length < 17 ∧ (17 : Nat) ≠ 0 := by decide +kernel
theorem test_witness_LossAndPreemption_save :
    (let l := oneLot .ready .running
     let s := imageState l
     s.lot? 1023 3 = some l ∧ l.saving = true ∧ s.deferHeld 1023 3 = s ∧ s.saveReady 1023 3 l = true ∧ s.launch? l.launch = some { aLaunch with prio := 3 }
      ∧ (s.core 1023).blockQ = [])
    ∧ (let s := imageState (oneLot .ready .running)
       let image := s.saveImage 1023 3 (oneLot .ready .running) false
       placeArea (s.savePool 0).1 (s.savePool 0).2 image.length (s.ctxS 0).areas = some (2 ^ 49)
        ∧ (s.writeImage (.place 1023 3) (2 ^ 49) image image.length).1 = .done) :=
  ⟨by decide +kernel, placed _ _ saved_le (by decide +kernel) (by decide +kernel), writes _ _ (by unfold hostUp; decide +kernel) rfl saved_le⟩

theorem test_witness_DebugCommands :
    State.reset.dbgNames 1023 (dbgTarget 24) = false ∧ State.reset.lot? 1023 (dbgTarget 24).lot = none ∧ (dbgTarget 0x18000).set = 3
    ∧ (dbgTarget 24).lot = 3 ∧ (dbgTarget 24).set = 0
    ∧ (let l := oneLot .ready .running
       let s := imageState l
       s.lot? 1023 3 = some l ∧ s.dbgNames 1023 (dbgTarget 24) = true ∧ (l.thr (lane 0)).st = .ready ∧ lane 0 ∈ l.allAgents)
    ∧ (let l := oneLot (.parked .debug) .running
       let s := imageState l
       s.lot? 1023 3 = some l ∧ s.dbgNames 1023 (dbgTarget 24) = true ∧ (l.thr (lane 0)).st = .parked .debug ∧ lane 0 ∈ l.allAgents
        ∧ (l.thr (lane 0)).stop = none ∧ (l.thr (lane 0)).exitAfter = none ∧ (l.thr (lane 0)).waitAfter = none
        ∧ (l.thr (lane 0)).resume = [] ∧ l.ending = false ∧ l.allDebug = true
        ∧ s.regF (dbgReg 1023 0x20) 51 0 = 2 ^ 49)
    ∧ (let l := oneLot .stopped .halted
       let s := imageState l
       s.lot? 1023 3 = some l ∧ s.dbgNames 1023 (dbgTarget 24) = true ∧ l.phase = .halted ∧ s.deferHeld 1023 3 = s ∧ s.drained 1023 3 l = true) := by decide +kernel
theorem test_witness_DebugCommands_images :
    (let s := imageState (oneLot (.parked .debug) .running)
     let image := s.saveImage 1023 3 (oneLot (.parked .debug) .running) true
     (s.writeImage (.place 1023 3) (2 ^ 49) image image.length).1 = .done)
    ∧ (let s := imageState (oneLot .stopped .halted)
       let image := s.saveImage 1023 3 (oneLot .stopped .halted) true
       placeArea (s.savePool 0).1 (s.savePool 0).2 image.length (s.ctxS 0).areas = some (2 ^ 49)
        ∧ (s.writeImage (.place 1023 3) (2 ^ 49) image image.length).1 = .done) :=
  ⟨writes _ _ (by unfold hostUp; decide +kernel) rfl dumped_le, placed _ _ halted_le (by decide +kernel) (by decide +kernel),
    writes _ _ (by unfold hostUp; decide +kernel) rfl halted_le⟩

/-- The area at 2^49 holds an image that may be loaded into the lot in DEBUG. -/
theorem test_witness_DebugCommands_load :
    (let l := oneLot (.parked .debug) .running
     let s := imageState l
     let rd := s.areaReader (2 ^ 49)
     let size := ((List.range 11).map (fun k => (sectionAt rd k).1 + (sectionAt rd k).2)).foldl max 256
     size < 2 ^ 24 ∧ (sectionAt rd 9).2 = 0 ∧ (s.core 1023).blockQ = []
      ∧ (match readLot rd l size s.nextId s.fresh.2.freeVal.1 with
        | some l' => l'.allAgents.all (fun x => !(l'.thr x).st.isParked && (l'.thr x).stop == none)
            && (l'.warps.map (fun e => e.2.blocks)).sum ≤ (s.core 1023).pool
        | none => false) = true) := by decide +kernel
theorem test_witness_DebugCommands_range (n : Nat) (h : n < 2 ^ 24) :
    (imageState (oneLot (.parked .debug) .running)).rangeTake (.place 1023 3) (2 ^ 49) n
      = (.ok 0, imageState (oneLot (.parked .debug) .running)) :=
  rangeTake_host _ _ _ _ (by unfold hostUp; decide +kernel) rfl fun p h1 h2 => region_host p (by omega) (by omega)
/-- A thread in DEBUG outside a handler with an access that awaits its re-issue. -/
theorem test_witness_DebugCommands_again :
    (let l := oneLot (.parked .debug) .running
     (l.thr (lane 0)).shadow = none ∧ ([{ aReplay with t := ⟨1023, 3, 0, 0⟩ }].filter (fun x =>
      x.t == (⟨1023, 3, 0, 0⟩ : LaneId) && x.phase.isReplay)) ≠ []) := by decide +kernel

theorem test_witness_MemoryPlaneRoutes :
    State.reset.wlDown 63 31 true 1 = false ∧ State.reset.pairBusy 63 31 = false ∧ State.reset.routeMode 63 31 = 0
    ∧ (∀ e ∈ ([([(wlKey 63 31 true 0, true)], []), ([(wlKey 63 31 true 0, true), (wlKey 63 31 true 1, true)], []),
        ([(wlKey 63 31 true 0, true), (wlKey 63 31 true 1, true)], [(48, 0x7FFFFFFFFFFFFFFF)])] : List (Tbl Bool × Tbl Word64)),
      ({ State.reset with p := { LinkPlatS.reset with wlLost := e.1, retmap := e.2 } } : State).pairBusy 63 31 = false)
    ∧ (let s := { State.reset with p := { LinkPlatS.reset with wlLost := [(wlKey 63 31 true 0, true), (wlKey 63 31 true 1, true)] } }
       s.wlDown 63 31 true 0 = true ∧ s.wlDown 63 31 true 1 = true ∧ s.relayFor 63 31 = some 62
        ∧ ({ s with p := { s.p with retmap := [(48, 0x7FFFFFFFFFFFFFFF)] } } : State).relayFor 63 31 = none)
    ∧ (let s := { State.reset with p := { LinkPlatS.reset with routeDue := [(63 * 32 + 31, some 7)] } }
       Tbl.get none s.p.routeDue (63 * 32 + 31) = some (6 + 1) ∧ s.pairBusy 63 31 = false)
    ∧ (let a := { busyAcc 1 .ld with t := ⟨1008, 0, 0, 0⟩, back := some 63 }
       let st := stackOf (bits a.pa 40 0)
       ({ State.reset with accs := [a] } : State).pairBusy 63 st = true) := by decide +kernel

def aPacket (received delivered ordered : Bool) (sends : Nat) : Packet :=
  ⟨8, 65, 63, 3, ordered, 0, 1, 4, sends, false, !received, received, delivered, received, false⟩
def packetState (x : Packet) (ph : Phase) : State :=
  { State.reset with accs := [{ busyAcc 1 .ld with phase := ph }], p := { LinkPlatS.reset with packets := [x] } }
/-- The token of channel 0 stands before die 63, whose laser has been lit for 5,992 ns. -/
def tokenState (s : State) : State := { s with p := { s.p with channels := [(0, ⟨[(0, 63)], 0⟩), (63, ⟨[], 5992⟩)] } }
def aTransfer : Transfer := ⟨.acc 9, 2 ^ 41 + 5, 0, 63, 3, 0, 128, none, none, false, none⟩
theorem test_witness_DiePlane :
    (let a := { busyAcc 1 .ld with t := ⟨1023, 0, 0, 0⟩, flow := 3, pa := 2 ^ 48 }
     let s := tokenState { State.reset with accs := [a] }
     (63 + 66 - 0) % 66 = 63 ∧ s.minimal = false ∧ s.p.transfers = [] ∧ s.homeHeld 0 = false ∧ (s.channel 0).tokens = [(0, 63)]
      ∧ (s.channel 63).laser = 5992 ∧ s.sendable a = true ∧ dieOf a.t.core = 63 ∧ s.crossTo a = some 0 ∧ a.size ≤ 2048 ∧ a.back = none
      ∧ a.flow ≠ 0)
    ∧ (let a := { busyAcc 1 .ld with flow := 3, phase := .replied 5, back := some 63 }
       let s := tokenState { State.reset with accs := [a] }
       dieOf a.t.core = 0 ∧ s.replySendable a = true)
    ∧ (let x := { aPacket false false false 1 with ch := 0, due := true }
       let s := tokenState { State.reset with p := { LinkPlatS.reset with packets := [x] } }
       s.accs = [] ∧ s.p.packets = [x] ∧ (s.channel 0).tokens = [(0, 63)] ∧ x.size ≤ 2048)
    ∧ (let x := { aPacket true true false 1 with ch := 63, writer := 0, ackSent := false }
       let s := tokenState { State.reset with p := { LinkPlatS.reset with packets := [x] } }
       s.p.packets = [x] ∧ x.received = true ∧ x.ackSent = false)
    ∧ (∀ y ∈ [aTransfer, { aTransfer with ch := 63, src := 0, reply := true }],
       let s := tokenState { State.reset with p := { LinkPlatS.reset with transfers := [y] } }
       s.accs = [] ∧ s.p.packets = [] ∧ s.p.transfers = [y] ∧ (if y.reply then y.answerable else s.askable y) = true ∧ y.out ≤ 2048 ∧ y.back ≤ 2048)
    ∧ (∀ x ∈ [aPacket false false false 1, aPacket false false true 1, aPacket true false true 1, aPacket true true true 7, aPacket true true true 8],
      (packetState x .ready).p.packets = [x])
    ∧ Tbl.get 0 (packetState (aPacket false false true 1) .ready).p.seqs 7 = 0
    ∧ Tbl.get 0 ({ State.reset with p := { LinkPlatS.reset with seqs := [(7, 5)] } } : State).p.seqs 7 ≠ 0
    ∧ (let x := aPacket true true true 8
       let a := { busyAcc 1 .ld with phase := .granted }
       (packetState x .granted).acc? x.acc = some a ∧ a.phase.pending = true ∧ a.hasResult = true ∧ x.acked = false ∧ x.due = false)
    ∧ State.reset.minimal = false ∧ State.reset.p.plat.retraining.contains (.home 65) = false := by
  decide +kernel

def linkAt (n st : Nat) : State := (State.reset.setRegF startstatReg 3 0 7).setLinkState n st
theorem test_witness_LinkStates :
    (∀ n ∈ [0, 1, 2, 17], ∀ st ∈ [0, 1, 2, 3], (linkAt n st).linkState n = st ∧ (∀ a ∈ (linkAt n st).accs, a.onLink n = false))
    ∧ (linkAt 0 1).phase ≠ 4 ∧ (linkAt 0 1).phase ≠ 5 ∧ (linkAt 0 1).phase ≠ 6
    ∧ (∀ k ∈ [1, 2], let s := (linkAt 17 1).setLinkS 17 ⟨k, 2⟩; s.linkState 17 = 1 ∧ (s.linkS 17).fails = k ∧ (s.linkS 17).target ≤ 2)
    ∧ (let a := { busyAcc 1 .atom with phase := .sent, link := 1, dst := some (127, .b32) }
       a.onLink 0 = true ∧ a.hasResult = true ∧ ∀ st ∈ [2, 3], ({ linkAt 0 st with accs := [a] } : State).linkState 0 = st)
    ∧ (let s0 := linkAt 1 2
       let s : State := { s0 with m := { s0.m with hostLines := [(2 ^ 49 / 64, some ⟨5, true, 0⟩)] } }
       s.m.hostLines.length < 524288 ∧ Tbl.get none s.m.hostLines (2 ^ 49 / 64) = some ⟨5, true, 0⟩
        ∧ (s.hostRehome).hostPath (2 ^ 49) = .port 1) := by
  decide +kernel

def hostState : State :=
  let s := ((State.reset.setRegF startstatReg 3 0 7).setReg (hlstatReg 1) 2)
  { s with m := { s.m with hostLines := [(2 ^ 49 / 64, some ⟨5, true, 0⟩)] } }
theorem test_witness_HostRequests :
    (State.reset.setReg startstatReg 8).minimal = true ∧ hostState.minimal = false
    ∧ Tbl.get none hostState.m.hostLines (hostLineOf (snoopPa 0)) = some ⟨5, true, 0⟩ ∧ hostState.portState 1 = 2 ∧ hostState.isReady = true
    ∧ (let line := (2 ^ 41 - 1) / 64 * 64
       region line = 0 ∧ hostState.bankOpen line (.input line) = true ∧ hostState.hostPath (snoopPa 0) = .port 1
        ∧ (hostState.setBooth (bankOfPa line) { Booth.none with st := .running }).bankOpen line (.input line) = false
        ∧ (∀ x ∈ [0, 1], State.reset.portState x ≠ 2) ∧ State.reset.hostPath (snoopPa 0) = .down ∧ hostState.homeRefusal line true = none ∧ hostState.homeRefusal line false = none
        ∧ hostState.elidedAt line = false
        ∧ (let s : State := { hostState with m := { hostState.m with frames := [(2 ^ 25 - 1, .elided 7)] } }
          s.elidedAt line = true ∧ s.homeRefusal line true = none ∧ (s.homeRefusal line false).isSome = true)
        ∧ (let s : State := { hostState with m := { hostState.m with poison := [(line / 128, true)] } }
          (s.homeRefusal line true).isSome = true))
    ∧ region (2 ^ 48 / 64 * 64) ≠ 0 := by decide +kernel

def portState (x : PortS) : State := State.reset.setPort 15 x
theorem test_witness_SlotFabric :
    (let x : PortS := { PortS.none with
        sched := List.replicate 63 none ++ [some (5, 0)], slot := 63, asked := [30], arriving := [10, -10], applied := 20 }
     let a := { cellAcc .bid with attr := 2 ^ 12, modid := 5 }
     let s := { (portState x).setLinkState 17 2 with accs := [a] }
     s.minimal = false ∧ ((s.port 15).sched.getD (s.port 15).slot none).map (fun e => e.1) = some 5 ∧ s.linkState 17 = 2 ∧ s.free? a = true
      ∧ s.remoteCell a = true ∧ a.phase = .ready ∧ a.kind.isCell = true ∧ s.p.fabric = []
      ∧ (50 + (s.port 15).arriving.getLast?.getD (s.port 15).applied).natAbs ≤ 40
      ∧ 40 < (51 + (s.port 15).arriving.getLast?.getD (s.port 15).applied).natAbs ∧ (s.port 15).asked = 30 :: [])
    ∧ ((portState PortS.none).port 15).sched.getD 0 none = none
    ∧ (portState PortS.none).regF (sfstatReg 15) 17 16 = 0 ∧ ((portState PortS.none).setReg (sfstatReg 15) 0x20000).regF (sfstatReg 15) 17 16 ≥ 2
    ∧ (State.reset.setReg sfctlReg 0x50005).isCrier = true ∧ State.reset.isCrier = false
    ∧ (let s := State.reset.setReg sfctlReg 0x90005
       s.minimal = false ∧ s.regF sfctlReg 33 33 = 0 ∧ 9 ≤ s.regF sfctlReg 31 16 ∧ (s.port 15).guardFrozen = false
        ∧ s.regF sfctlReg 15 0 ≠ s.regF sfctlReg 31 16 ∧ 8 < s.regF sfctlReg 31 16)
    ∧ (∀ c ∈ [none, some 4],
      let s := { State.reset with p := { LinkPlatS.reset with plat := { Platform.none with waiting := true, claimSeen := c } } }
      s.p.plat.waiting = true ∧ s.p.plat.claimSeen = c ∧ 4 < s.regF sfctlReg 15 0)
    ∧ (let s := State.reset.setReg sfctlReg 0x200000000
       s.p.plat.waiting = false ∧ s.regF sfctlReg 33 33 = 1 ∧ s.p.plat.claimSeen = none)
    ∧ (State.reset.setReg sfctlReg 0x100000000).regF sfctlReg 32 32 = 1
    ∧ (portState { PortS.none with received := some [some (1, 2)] }).port 15 = { PortS.none with received := some [some (1, 2)] } := by decide +kernel

def phaseState (n attempt : Nat) : State := State.reset.setReg startstatReg (BitVec.ofNat 64 (n + 16 * attempt))
def goodStep (link : Nat) : StepResult := ⟨true, link, 2, [], [], [], []⟩
theorem test_witness_Start :
    (∀ t ∈ ([-10, 50] : List Int), -10 ≤ t)
    ∧ (∀ n ∈ [3, 4, 5, 6, 8], (phaseState n 1).phase = n ∧ (phaseState n 1).regF startstatReg 5 4 = 1 ∧ (phaseState n 1).lots = [])
    ∧ (phaseState 3 2).regF startstatReg 5 4 = 2 ∧ (phaseState 5 0).someDown = false ∧ (∀ l ∈ List.range 18, (phaseState 5 0).linkState l = 0)
    ∧ ((phaseState 5 0).setLinkState 1 2).linkState 1 = 2
    ∧ 48 ≤ (phaseState 4 0).diesInService ∧ oneDie.diesInService < 48 ∧ oneDie.lots = [] ∧ ((phaseState 6 0).setLinkState 1 1).linkState 1 = 1
    ∧ ((phaseState 6 0).setLinkState 1 1).phase = 6 ∧ (⟨true, 0, [], -20⟩ : BootInfo).romOk = true
    ∧ (let s := ((phaseState 6 0).setLinkState 1 1).setLinkS 1 ⟨2, 2⟩
       s.phase = 6 ∧ 2 ≤ (s.linkS 1).fails ∧ s.linkState 1 = 1 ∧ s.linkState (1 - 1) = 0)
    ∧ (goodStep 1).ok = true ∧ (goodStep 1).faultyDies = [] ∧ (goodStep 1).faultyVaults = [] ∧ (goodStep 1).faultyChannels = []
    ∧ (goodStep 1).lostWl = [] ∧ (phaseState 3 0).p.plat.rollback ≤ (⟨true, 0, [], -20⟩ : BootInfo).version := by decide +kernel

theorem test_witness_PowerAndRetraining :
    (phaseState 7 0).isReady = true ∧ (phaseState 7 0).phase = 7 ∧ (phaseState 7 0).p.plat.standby = false ∧ (phaseState 7 0).minimal = false
    ∧ ((phaseState 7 0).setReg pwrctlReg (2 ^ 32)).regF pwrctlReg 32 32 = 1 ∧ State.reset.regF (clkstatReg 63) 39 24 < 0xFFFF
    ∧ (phaseState 8 0).minimal = true ∧ State.reset.p.plat.retraining = []
    ∧ (∀ x ∈ [Slice.channel 31 15, .wavelength 63 31 true 1, .home 65], State.reset.sliceOk x = true)
    ∧ ({ State.reset with p := { LinkPlatS.reset with plat := { Platform.none with retraining := [.home 65] } } } : State).p.plat.retraining
      = [.home 65] := by decide +kernel
/-- A die with a lot of priority 3 comes before one without a lot. -/
theorem test_witness_PowerAndRetraining_prio :
    (let s := (placeState { aLaunch with prio := 3 }).setLot 1023 3 { fetchLot with launch := 7 }
     s.diePrio 63 = 3 ∧ s.diePrio 0 = 4) := by decide +kernel

theorem ofBytes_toBytes_four (x : Nat) (h : x < 2 ^ 32) : ofBytes (toBytes x 4) = x := by
  simp only [toBytes, ofBytes, BitVec.toNat_ofNat]; omega
/-- A request that offers the extended algorithm of the module's signatures, and one that offers none. -/
theorem test_witness_Attestation_offers :
    (let req : List Byte := List.replicate 28 0 ++ [1, 0, 0, 0] ++ toBytes Config.extAlg.toNat 4
     ∃ i, i < (req.getD 28 0).toNat ∧ ofBytes ((req.drop (32 + 4 * i)).take 4) = Config.extAlg.toNat)
    ∧ ∀ i, i < (([] : List Byte).getD 28 0).toNat → ofBytes ((([] : List Byte).drop (32 + 4 * i)).take 4) ≠ Config.extAlg.toNat :=
  ⟨⟨0, by decide, ofBytes_toBytes_four _ Config.extAlg.isLt⟩, by simp⟩
theorem test_witness_Attestation :
    ∀ x ∈ [SpdmPhase.version, .capabilities, .algorithms],
      ({ State.reset with p := { LinkPlatS.reset with spdm := x } } : State).p.spdm = x := by decide +kernel

def readyLot (g : Nat) : Lot := { fetchLot with gangs := [g], threads := [(0, { Thread.none with st := .ready }), (1024, { Thread.none with st := .ready })] }
/-- A clause of one NOP at 0x200000 (R118, R406). -/
def clauseState : State :=
  let s := State.withMem (State.reset.setLot 0 0 fetchLot) (tables ++ [(0x200000, 1), (0x200003, 0xA2), (0x200006, 0x10), (0x200007, 0x7C)])
  s.setIssuer 0 (some { fetchIssuer ⟨0, 0⟩ [] with hdr := 0x200000, fetched := false, runWords := 23 })
theorem test_witness_Issue :
    (let s := State.reset.setLot 1023 3 (readyLot 3)
     s.issuer? (unitOf 1023 3) = none ∧ (s.core 1023).halted = false ∧ s.gangOwner 1023 3 = some (3, 0, readyLot 3) ∧ (readyLot 3).saving = false
      ∧ (readyLot 3).ending = false ∧ Tbl.get [] (s.core 1023).batches 3 = [] ∧ (readyLot 3).readyOf 0 ≠ []
      ∧ (∀ a ∈ (readyLot 3).readyOf 0, ((readyLot 3).thr a).aged = false ∧ ((readyLot 3).thr a).dbgPend = false)
      ∧ Tbl.get 0 (s.core 1023).slotRR 3 = 0)
    ∧ (let s := State.reset.setLot 1023 0 (readyLot 0)
       s.issuer? (unitOf 1023 4) = none ∧ (s.core 1023).pipeRR % 4 = 0 ∧ s.lot? 1023 0 = some (readyLot 0) ∧ (readyLot 0).d.bk = true
        ∧ ((readyLot 0).thr Agent.barker).st = .ready ∧ ((readyLot 0).thr Agent.barker).dbgPend = false)
    ∧ (let s := State.reset.setLot 1023 0 (readyLot 0)
       s.lot? 1023 0 = some (readyLot 0) ∧ (lane 0).isBarker = false ∧ ((readyLot 0).thr (lane 0)).aged = false
        ∧ ∀ x ∈ (readyLot 0).gangAgents 0, ((readyLot 0).thr x).seq < ((readyLot 0).thr (lane 0)).seq → ((readyLot 0).thr x).aged = true) := by
  decide +kernel
theorem test_witness_Issue_clause :
    clauseState.issuer? 0 = some { fetchIssuer ⟨0, 0⟩ [] with hdr := 0x200000, fetched := false, runWords := 23 }
    ∧ clauseState.unitHeld 0 { fetchIssuer ⟨0, 0⟩ [] with hdr := 0x200000, fetched := false, runWords := 23 } = false
    ∧ clauseState.lot? 0 0 = some fetchLot ∧ (fetchLot.thr (lane 0)).stop = none ∧ (lane 0).isBarker = false
    ∧ (let i := { fetchIssuer ⟨0, 0⟩ [] with hdr := 0x200000, fetched := false, runWords := 23 }
       let f := ({ clauseState with active := 0 } : State).fetchWord 0 0 0x200000
       let g := f.2.fetchWords 0 0 0x200004 1
       f.1 = .ok 0xA2000001 ∧ headerFault 0xA2000001 false = none ∧ 23 + hdrCount 0xA2000001 ≤ 24 ∧ hdrCount 0xA2000001 = 1
        ∧ g.1 = [.ok 0x7C100000] ∧ wordsFault 0xA2000001 g.1 0 16 = none ∧ g.2.lot? 0 0 = some fetchLot
        ∧ g.2.issuer? 0 = some { fetchIssuer ⟨0, 0⟩ [] with hdr := 0x200000, fetched := false, runWords := 23 } ∧ g.2.active = 0
        ∧ (fetchLot.warp 0).admits (clauseNeeds 0xA2000001 [0x7C100000]) (8 - (g.2.unitServed 0 i).logsUsed 0 0 0) = true
        ∧ (g.2.unitServed 0 i).entriesUsed 0 + 1 * (clauseNeeds 0xA2000001 [0x7C100000]).entries ≤ 3072) := by decide +kernel

theorem test_witness_StepRunsDecoded :
    (let s := { State.reset with agenda := [.unit 5119] }.setIssuer 5119 (some (fetchIssuer Agent.barker [0x7C100000]))
     s.agenda = .unit 5119 :: [] ∧ s.issuer? 5119 = some (fetchIssuer Agent.barker [0x7C100000])
      ∧ (fetchIssuer Agent.barker [0x7C100000]).fetched = true ∧ reads [0x7C100000] (.nop 0) 1 = true)
    ∧ (let s := { (boothState { Booth.none with st := .running, pc := 1022, segCount := 63, prog := [(1022, 0x10000005)] }) with agenda := [.booth 3] }
       (s.booth 3).st = .running ∧ (s.booth 3).refreshing = false ∧ (s.booth 3).segCount < 64
        ∧ decodeMicro (Tbl.get 0 (s.booth 3).prog (s.booth 3).pc.toNat) = some (.bkey ⟨0, false, false, 0, 5⟩)) := by decide +kernel

def faultAt (fact : Nat) (l : Lot) : State :=
  ((runOn l [lane 0] 0).setReg (ctxReg 0 0x20) (BitVec.ofNat 64 fact)).setReg (ctxReg 0 0x28) 0x40
theorem test_witness_FaultsTaken :
    (∀ fact ∈ [0, 0x15555],
      let one := { fetchLot with warps := [(0, { Warp.none with pool := 1 })] }
      (∀ l ∈ [fetchLot, one, fetchLot.setVreg 0 126 0 2],
        let s := faultAt fact l
        let v := viewOn l [lane 0] [lane 0]
        s.view 0 = some v ∧ v.formed ∧ v.i.agents = [lane 0] ∧ v.parts = [lane 0] ∧ l.phase = .running ∧ s.haltingLot l.launch = none
        ∧ s.calm 0 ∧ (l.thr (lane 0)).shadow = none ∧ (l.thr (lane 0)).nested = false ∧ (l.thr (lane 0)).stop = none ∧ lane 0 ∈ l.allAgents
        ∧ ∀ x ∈ l.allAgents, x ≠ lane 0 → (l.thr x).stop = none)
      ∧ fetchLot.instrFault (lane 0) true true (usesA ⟨0, 125, 2, 4, some ⟨.i64, 0, 0, none, 0⟩⟩ .i64 true false) = some 1
      ∧ one.instrFault (lane 0) true true (usesA ⟨0, 16, 0, 0, none⟩ .i32 true false) = some 0x20
      ∧ (fetchLot.setVreg 0 126 0 2).instrFault (lane 0) true true [use2 126] = none
      ∧ (fetchLot.d.entry.toNat + sextN ((fetchLot.setVreg 0 126 0 2).val (lane 0) 126 64) 64 80) % 2 ^ 80 % 4 ≠ 0)
    ∧ (∀ c ∈ [1, 0x20, 3], (faultAt 0 fetchLot).factAction 0 (faultGroup c) = 0 ∧ (faultAt 0x15555 fetchLot).factAction 0 (faultGroup c) = 1)
    ∧ (faultAt 0 fetchLot).handlerVA 0 ≠ 0 := by unfold View.formed State.calm; decide +kernel

theorem test_witness_MemoryReadsBack : (2 ^ 41 - 2) % 2 ^ 48 + [1, (2 : Byte)].length ≤ 2 ^ 48 ∧ region (2 ^ 41 - 2) ≠ 2 ∧ State.reset.memWf = true := by
  decide +kernel
/-- A step of the state after reset is a next state, from a memory in its canonical form. -/
theorem test_witness_MemoryStaysCanonical : State.reset.memWf = true ∧ (match step State.reset with | .next _ => true | _ => false) = true := by
  decide +kernel
theorem test_witness_Select : t2.runs v2 0 true true [use1 127, use1 126] := by unfold State.runs View.formed; decide +kernel
theorem test_witness_VaultRegion : (63 : Nat) < 64 ∧ 15 < 16 ∧ 0x5FFFFF < 0x600000 ∧ 0x600000 < 2 ^ 23 := by decide
theorem test_witness_Nop : (1 : BitVec 19) ≠ 0 ∧ t2.view 0 = some v2 ∧ (tb.view 7).isSome = true := by decide +kernel

/-! ### Single steps, with the results that the reference files give -/

/-- One step of a unit whose clause holds these words, with two operands in v3 and v4 (v3:v4 of the examples' a and b). -/
def after (ws : List Word) (a b : Word) : State :=
  let l := (fetchLot.setVreg 0 3 0 a).setVreg 0 4 0 b
  match step { ((State.reset.setLot 0 0 l).setIssuer 0 (some (fetchIssuer ⟨0, 0⟩ ws))) with agenda := [.unit 0] } with
  | .next t => t
  | _ => State.reset
/-- v5 of lane 0, and FSTAT of the warp, after that step. -/
def v5 (ws : List Word) (a b : Word) : Option (Word × BitVec 8) := ((after ws a b).lot? 0 0).map (fun l => (l.vreg 0 5 0, (l.warp 0).fstat))

/-- CLZ and BREV (R350). -/
theorem test_clz_brev : v5 [0x28050601] 0x1000 0 = some (19, 0) ∧ v5 [0x28050602] 1 0 = some (0x80000000, 0) := by decide +kernel
/-- FMIN and FMAX (R379): FMIN(+0, −0), FMAX(NaN, 3.0), FMIN(sNaN, 3.0) with NV. -/
theorem test_fmin_fmax : v5 [0x48050610] 0 0x80000000 = some (0x80000000, 0) ∧ v5 [0x48050611] 0x7FC00000 0x40400000 = some (0x40400000, 0)
    ∧ (v5 [0x48050610] 0x7F800001 0x40400000).map (fun r => r.1) = some 0x40400000
    ∧ (v5 [0x48050610] 0x7F800001 0x40400000).map (fun r => r.2 != 0) = some true := by decide +kernel
/-- The square root of 2 under RN and RU (R380). -/
theorem test_fsqrt : (v5 [0x50050602] 0x40000000 0).map (fun r => r.1) = some 0x3FB504F3
    ∧ (v5 [0x50050603, 0x6D2] 0x40000000 0).map (fun r => r.1) = some 0x3FB504F4 := by decide +kernel
/-- PADD2.BF16 of 1.0, 1.0 and 1.0, 2.0 (R408). -/
theorem test_padd2 : (encode (.padd2 ⟨0, 5, 3, 4, none⟩)).length = 1
    ∧ v5 (encode (.padd2 ⟨0, 5, 3, 4, none⟩)) 0x3F803F80 0x3F804000 = some (0x40004040, 0) := by decide +kernel
/-- IMULH.I32 and IMULH.N32 (R388): −2 times −2³¹. -/
theorem test_imulh : (v5 (encode (.imulh ⟨0, 5, 3, 4, none⟩)) 0xFFFFFFFE 0x80000000).map (fun r => r.1) = some 1
    ∧ (v5 (encode (.imulh ⟨0, 5, 3, 4, some ⟨.n32, 0, 0, none, 0⟩⟩)) 0xFFFFFFFE 0x80000000).map (fun r => r.1) = some 0x7FFFFFFF := by decide +kernel
/-- AND with an immediate (R340), XOR of two registers (R450). -/
theorem test_logic : v5 [0x1C050603, 0x000800A0, 0xFF] 0x12345678 0 = some (0x78, 0)
    ∧ v5 [0x1C050612] 0xFF00FF00 0x0F0F0F0F = some (0xF00FF00F, 0) := by decide +kernel
/-- IABS of the negative bound, and IMIN by sign (R384). -/
theorem test_iabs_imin : (v5 (encode (.iabs ⟨0, 5, 3, 0, none⟩)) 0x80000000 0).map (fun r => r.1) = some 0x80000000
    ∧ (v5 (encode (.imin ⟨0, 5, 3, 4, none⟩)) 0xFFFFFFFF 1).map (fun r => r.1) = some 0xFFFFFFFF
    ∧ (v5 (encode (.imin ⟨0, 5, 3, 4, some ⟨.n32, 0, 0, none, 0⟩⟩)) 0xFFFFFFFF 1).map (fun r => r.1) = some 1 := by decide +kernel
end Sys2Proof.Tests
end

section
/-! SUPPORT. Laws of bit fields: the bits of a field and of a value in which a field was replaced (00_scope.md R10). -/

namespace Sys2Proof

theorem bits_lt (x hi lo : Nat) : bits x hi lo < 2 ^ (hi + 1 - lo) := Nat.mod_lt _ (Nat.two_pow_pos _)

theorem testBit_bits (x hi lo i : Nat) : (bits x hi lo).testBit i = (decide (i < hi + 1 - lo) && x.testBit (lo + i)) := by
  rw [bits, Nat.testBit_mod_two_pow, Nat.testBit_div_two_pow, Nat.add_comm i]

/-- A value is what lies above a field, the field and what lies below it; a replaced field takes the low bits of its new
value. -/
theorem setBits_eq (x hi lo v : Nat) :
    setBits x hi lo v = 2 ^ lo * (2 ^ (hi + 1 - lo) * (x / 2 ^ lo / 2 ^ (hi + 1 - lo)) + v % 2 ^ (hi + 1 - lo)) + x % 2 ^ lo := by
  have hx := Nat.div_add_mod x (2 ^ lo)
  have hf := Nat.div_add_mod (x / 2 ^ lo) (2 ^ (hi + 1 - lo))
  rw [setBits, bits]
  rw [← hf, Nat.mul_add] at hx
  rw [Nat.mul_add, Nat.mul_comm _ (2 ^ lo), Nat.mul_comm (v % _) (2 ^ lo)]
  omega

theorem testBit_setBits (x hi lo v i : Nat) :
    (setBits x hi lo v).testBit i = if lo ≤ i ∧ i ≤ hi then v.testBit (i - lo) else x.testBit i := by
  rw [setBits_eq, Nat.testBit_two_pow_mul_add _ (Nat.mod_lt _ (Nat.two_pow_pos _)), Nat.testBit_mod_two_pow]
  by_cases hlo : i < lo
  · simp [hlo, Nat.not_le.mpr hlo]
  · rw [if_neg hlo, Nat.testBit_two_pow_mul_add _ (Nat.mod_lt _ (Nat.two_pow_pos _)), Nat.testBit_mod_two_pow, Nat.testBit_div_two_pow,
      Nat.testBit_div_two_pow]
    have hsum : i - lo < hi + 1 - lo → lo ≤ i ∧ i ≤ hi := by omega
    split
    · next h => simp [hsum h, h]
    · next h => rw [if_neg (by omega)]; congr 1; omega

theorem setBits_lt {x hi n : Nat} (lo v : Nat) (hx : x < 2 ^ n) (hhi : hi < n) : setBits x hi lo v < 2 ^ n := by
  refine Nat.lt_pow_two_of_testBit _ fun i hi' => ?_
  rw [testBit_setBits, if_neg (by omega)]
  exact Nat.testBit_lt_two_pow (hx.trans_le (Nat.pow_le_pow_right (by omega) hi'))

/-- A field that was replaced reads as its new value. -/
theorem bits_setBits_same (x hi lo v : Nat) : bits (setBits x hi lo v) hi lo = v % 2 ^ (hi + 1 - lo) := by
  refine Nat.eq_of_testBit_eq fun i => ?_
  rw [testBit_bits, testBit_setBits, Nat.testBit_mod_two_pow, Nat.add_sub_cancel_left]
  by_cases h : i < hi + 1 - lo
  · rw [if_pos (by omega)]
  · simp [h]

/-- A field outside the one that was replaced reads as before. -/
theorem bits_setBits_apart (x hi lo v hi' lo' : Nat) (h : hi' < lo ∨ hi < lo') :
    bits (setBits x hi lo v) hi' lo' = bits x hi' lo' := by
  refine Nat.eq_of_testBit_eq fun i => ?_
  rw [testBit_bits, testBit_bits, testBit_setBits]
  by_cases hi : i < hi' + 1 - lo'
  · rw [if_neg (by omega)]
  · simp [hi]

end Sys2Proof

namespace Sys2Proof.Machine

/-! ### Fields of device registers (R6) -/

theorem State.toNat_setRegF (s : State) (pa hi lo v : Nat) (h : hi < 64) :
    ((s.setRegF pa hi lo v).reg pa).toNat = setBits (s.reg pa).toNat hi lo v := by
  rw [State.setRegF, State.reg_setReg, BitVec.toNat_ofNat, Nat.mod_eq_of_lt (setBits_lt _ _ (s.reg pa).isLt h)]

theorem State.regF_lt (s : State) (pa hi lo : Nat) : s.regF pa hi lo < 2 ^ (hi + 1 - lo) := bits_lt _ _ _

theorem State.regF_of_reg {s t : State} {pa : Nat} (h : t.reg pa = s.reg pa) (hi lo : Nat) : t.regF pa hi lo = s.regF pa hi lo :=
  congrArg (fun v => bits (BitVec.toNat v) hi lo) h

/-- A field that was written reads as what was written, cut to the field. -/
theorem State.regF_setRegF_same (s : State) (pa hi lo v : Nat) (h : hi < 64) :
    (s.setRegF pa hi lo v).regF pa hi lo = v % 2 ^ (hi + 1 - lo) := by
  rw [State.regF, State.toNat_setRegF s pa hi lo v h, bits_setBits_same]

/-- A write of a field leaves the other fields of its register. -/
theorem State.regF_setRegF_apart (s : State) (pa hi lo v hi' lo' : Nat) (h : hi < 64) (hd : hi' < lo ∨ hi < lo') :
    (s.setRegF pa hi lo v).regF pa hi' lo' = s.regF pa hi' lo' := by
  rw [State.regF, State.toNat_setRegF s pa hi lo v h, bits_setBits_apart _ _ _ _ _ _ hd, State.regF]

/-- A write of a field leaves every other register. -/
theorem State.regF_setRegF_other (s : State) (pa hi lo v x hi' lo' : Nat) (h : x ≠ pa) :
    (s.setRegF pa hi lo v).regF x hi' lo' = s.regF x hi' lo' :=
  State.regF_of_reg (State.reg_setRegF_other s pa hi lo v x h) _ _

end Sys2Proof.Machine
end

section
/-! The state after reset (00_scope.md R9): what its registers and tables hold. -/

namespace Sys2Proof.Machine

theorem inBlock_isSome_iff (pa base n stride : Nat) : (inBlock pa base n stride).isSome = true ↔ base ≤ pa ∧ pa < base + n * stride := by
  unfold inBlock
  split
  · next h => exact iff_of_true rfl h
  · next h => exact iff_of_false Bool.false_ne_true h

/-- The registers of a block that lie at one offset. -/
theorem inBlock_offset_iff (pa base n off : Nat) :
    ((inBlock pa base n 0x40).isSome && pa % 0x40 == off) = true ↔ (base ≤ pa ∧ pa < base + n * 0x40) ∧ pa % 0x40 = off := by
  rw [Bool.and_eq_true, inBlock_isSome_iff, beq_iff_eq]

theorem or_beq_iff (pa x y : Nat) : (pa == x || pa == y) = true ↔ pa = x ∨ pa = y := by rw [Bool.or_eq_true, beq_iff_eq, beq_iff_eq]

/-! The After reset values by address: QSTAT, FACT, HLCTL, PWRCTL, and 0 at the addresses of no register with another value. -/

theorem regReset_qstat {pa : Nat} (h : 0x3000000100000 ≤ pa ∧ pa < 0x3000000101000) (ho : pa % 0x40 = 0x30) : regReset pa = 1 := by
  unfold regReset
  rw [if_pos ((inBlock_offset_iff _ _ _ _).mpr ⟨by omega, ho⟩)]

theorem regReset_fact {pa : Nat} (h : 0x3000000400000 ≤ pa ∧ pa < 0x3000000440000) (ho : pa % 0x40 = 0x20) : regReset pa = 0x21541 := by
  unfold regReset
  rw [if_neg (mt (inBlock_offset_iff _ _ _ _).mp (by omega)), if_pos ((inBlock_offset_iff _ _ _ _).mpr ⟨by omega, ho⟩)]

theorem regReset_hlctl {pa : Nat} (h : pa = hlctlReg 0 ∨ pa = hlctlReg 1) : regReset pa = 2 := by
  have haddr : pa = 0x3000000720000 ∨ pa = 0x3000000720040 := h
  unfold regReset
  rw [if_neg (mt (inBlock_offset_iff _ _ _ _).mp (by omega)), if_neg (mt (inBlock_offset_iff _ _ _ _).mp (by omega)),
    if_pos ((or_beq_iff _ _ _).mpr h)]

theorem regReset_eq_zero {pa : Nat} (h : ¬ (0x3000000100000 ≤ pa ∧ pa < 0x3000000101000 ∧ pa % 0x40 = 0x30)
    ∧ ¬ (0x3000000400000 ≤ pa ∧ pa < 0x3000000440000 ∧ pa % 0x40 = 0x20) ∧ ¬ (pa = 0x3000000720000 ∨ pa = 0x3000000720040)
    ∧ pa ≠ 0x3000000730400 ∧ pa ≠ 0x3000000800010 ∧ pa ≠ 0x3000000800018 ∧ ¬ (0x3000000800100 ≤ pa ∧ pa < 0x3000000800300)) :
    regReset pa = 0 := by
  obtain ⟨hq, hc, hp, hs, hw, hr, hk⟩ := h
  have hp : ¬ (pa == hlctlReg 0 || pa == hlctlReg 1) = true := mt (or_beq_iff _ _ _).mp hp
  have hs : ¬ (pa == sfctlReg) = true := mt beq_iff_eq.mp hs
  have hw : ¬ (pa == pwrctlReg) = true := mt beq_iff_eq.mp hw
  have hr : ¬ (pa == rtctlReg) = true := mt beq_iff_eq.mp hr
  unfold regReset
  rw [if_neg (mt (inBlock_offset_iff _ _ _ _).mp (by omega)), if_neg (mt (inBlock_offset_iff _ _ _ _).mp (by omega)), if_neg hp, if_neg hs,
    if_neg hw, if_neg hr, if_neg (mt (inBlock_isSome_iff _ _ _ _).mp (by omega))]

theorem regReset_queueReg (q : Nat) (hq : q < 64) : regReset (queueReg q 0) = 0 ∧ regReset (queueReg q 0x30) = 1 := by
  unfold queueReg
  constructor
  · exact regReset_eq_zero (by omega)
  · exact regReset_qstat (by omega) (by omega)

/-- After reset a context reports no fault, has no handler, and takes the actions of FACT (R281). -/
theorem regReset_ctxReg (c : Nat) (hc : c < 4096) :
    regReset (ctxReg c 0) = 0 ∧ regReset (ctxReg c 0x20) = 0x21541 ∧ regReset (ctxReg c 0x28) = 0 := by
  unfold ctxReg
  refine ⟨?_, ?_, ?_⟩
  · exact regReset_eq_zero (by omega)
  · exact regReset_fact (by omega) (by omega)
  · exact regReset_eq_zero (by omega)

/-- PWRCTL after reset: LIMIT below the fuse value of FLOOR, which starts above bit 16 (R323). -/
theorem regReset_pwrctl : ∃ n, regReset pwrctlReg = BitVec.ofNat 64 (14000 + n) ∧ n % 65536 = 0 := by
  have hq := mt (inBlock_offset_iff pwrctlReg 0x3000000100000 64 0x30).mp (by unfold pwrctlReg; omega)
  have hc := mt (inBlock_offset_iff pwrctlReg 0x3000000400000 4096 0x20).mp (by unfold pwrctlReg; omega)
  have hp := mt (or_beq_iff pwrctlReg (hlctlReg 0) (hlctlReg 1)).mp (by unfold pwrctlReg hlctlReg; omega)
  have hs := mt (beq_iff_eq (a := pwrctlReg) (b := sfctlReg)).mp (by unfold pwrctlReg sfctlReg; omega)
  unfold regReset
  rw [if_neg hq, if_neg hc, if_neg hp, if_neg hs, if_pos (beq_self_eq_true _)]
  exact ⟨_, rfl, by omega⟩

/-- LIMIT reads 14,000 W whatever FLOOR the fuses hold. -/
theorem bits_limit {x : Word64} {n : Nat} (hn : n % 65536 = 0) (h : x = BitVec.ofNat 64 (14000 + n)) : bits x.toNat 15 0 = 14000 := by
  rw [h, BitVec.toNat_ofNat, bits, pow_zero, Nat.div_one]
  change (14000 + n) % 2 ^ 64 % 2 ^ 16 = 14000
  omega

@[simp] theorem State.reg_reset (pa : Nat) : State.reset.reg pa = regReset pa := rfl

/-- Settles O55: the registers by their After reset values, everything else by the empty tables of the state. -/
theorem resetState : Obligations.ResetState := by
  unfold Obligations.ResetState
  simp only [State.regF, State.reg_reset]
  obtain ⟨n, hlimit, hn⟩ := regReset_pwrctl
  refine ⟨fun _ _ => rfl, rfl, rfl, fun _ => rfl, regReset_queueReg, regReset_ctxReg, bits_limit hn hlimit, fun p hp => ?_,
    fun _ => rfl, fun _ => rfl, rfl, fun _ => rfl, rfl, fun _ _ => rfl, fun _ => rfl, fun _ => rfl⟩
  have hport : p = 0 ∨ p = 1 := by omega
  exact regReset_hlctl (hport.imp (congrArg hlctlReg) (congrArg hlctlReg))

end Sys2Proof.Machine
end

section
/-! Device registers (R6, R333): a write of the retirement map that reaches memory. -/

namespace Sys2Proof.Machine

/-- A thread that waits in WAITM on a line of vault 0 of die 0, with a fault that fell due in the meantime (R84, R286). -/
def faultyWaiter : Thread :=
  { Thread.none with
    st := .parked (.mon 0 none), mon := some ⟨false, 2 ^ 48 / 128, .pkg, false, false, false⟩, stop := some ⟨0x30, 0, 0, 0, false, 0⟩ }

/-- The waiter alone in a lot, in a context with a fault report queue (R281). -/
def faultyWaiterState : State :=
  (State.reset.setLot 0 0 { fetchLot with threads := [(Agent.key ⟨0, 0⟩, faultyWaiter)] }).setReg (ctxReg 0 0) 0x2001

/-- Retiring die 0 takes the monitor, so the waiter wakes, its lot fails, and the record of its fault is written (R84, R279, R282). -/
theorem retireDie_writes_record :
    (faultyWaiterState.take (exec (.registerWrite .marketMaster (retmapReg (8 * 48)) .whole 1) faultyWaiterState)).m
      ≠ faultyWaiterState.m := by
  decide +kernel

/-- Refutes O32: its last clause says that the Market Master's write of a word of the retirement map leaves memory as it was; the
write that retires a die under a waiting thread with a fault writes that fault's record. -/
theorem not_deviceRegisters : ¬ Obligations.DeviceRegisters := by
  intro h
  obtain ⟨-, -, -, -, -, hctx⟩ := h faultyWaiterState
  obtain ⟨-, -, -, -, -, -, hmap⟩ := hctx .marketMaster 0 1 (by decide)
  obtain ⟨t, ht, -, -, -, hm⟩ := hmap 48 (by decide) rfl
  refine retireDie_writes_record ?_
  rw [ht]
  exact hm

end Sys2Proof.Machine
end

section
/-! Laws of the start (00_scope.md R9; 13_platform.md R324, R325): phases, resets, failed attempts and steps 1 and 2. -/

namespace Sys2Proof.Machine

/-! ### Phases -/

theorem State.phase_setPhase (s : State) (n : Nat) (h : n < 16) : (s.setPhase n).phase = n := by
  rw [State.phase, State.setPhase, State.regF_setRegF_same _ _ _ _ _ (by decide)]
  exact Nat.mod_eq_of_lt h

theorem State.regF_setPhase (s : State) (n hi lo : Nat) (h : 3 < lo) :
    (s.setPhase n).regF startstatReg hi lo = s.regF startstatReg hi lo :=
  State.regF_setRegF_apart _ _ _ _ _ _ _ (by decide) (.inr h)

theorem State.phase_setRegF (s : State) (hi lo v : Nat) (hhi : hi < 64) (h : 3 < lo) :
    (s.setRegF startstatReg hi lo v).phase = s.phase :=
  State.regF_setRegF_apart _ _ _ _ _ _ _ hhi (.inl h)

theorem State.phase_of_reg {s t : State} (h : t.reg startstatReg = s.reg startstatReg) : t.phase = s.phase :=
  State.regF_of_reg h _ _

theorem State.reg_setPhase_other (s : State) (n pa : Nat) (h : pa ≠ startstatReg) : (s.setPhase n).reg pa = s.reg pa :=
  State.reg_setRegF_other _ _ _ _ _ _ h

theorem State.minimal_iff (s : State) : s.minimal = true ↔ s.phase = 8 := beq_iff_eq
theorem State.isReady_iff (s : State) : s.isReady = true ↔ s.phase = 7 := beq_iff_eq

/-- ATTEMPT counts failed starts in two bits (R323). -/
theorem State.attempt_le (s : State) : s.regF startstatReg 5 4 ≤ 3 := Nat.le_of_lt_succ (s.regF_lt _ _ _)

/-! ### Resets -/

theorem State.reg_afterReset_power (s : State) (pa : Nat) : (s.afterReset true).reg pa = regReset pa := rfl

theorem regReset_startstat : regReset startstatReg = 0 := regReset_eq_zero (by unfold startstatReg; omega)

theorem State.regF_afterReset_power (s : State) (hi lo : Nat) : (s.afterReset true).regF startstatReg hi lo = 0 := by
  rw [State.regF, State.reg_afterReset_power, regReset_startstat]
  simp [bits]

/-- After a warm reset the one register that is written is STARTSTAT, with ATTEMPT and REASON (log entry 38). -/
theorem State.dev_afterReset_warm (s : State) : (s.afterReset false).dev = (State.reset.setReg startstatReg
    (BitVec.ofNat 64 (s.regF startstatReg 5 4 * 2 ^ 4 + s.regF startstatReg 15 8 * 2 ^ 8))).dev := rfl

theorem State.reg_afterReset_warm (s : State) (pa : Nat) (h : pa ≠ startstatReg) : (s.afterReset false).reg pa = regReset pa := by
  rw [State.reg_of_dev s.dev_afterReset_warm, State.reg_setReg_other _ _ _ _ h, State.reg_reset]

theorem State.toNat_startstat_afterReset_warm (s : State) : ((s.afterReset false).reg startstatReg).toNat =
    s.regF startstatReg 5 4 * 2 ^ 4 + s.regF startstatReg 15 8 * 2 ^ 8 := by
  have ha := s.attempt_le
  have hr := s.regF_lt startstatReg 15 8
  rw [State.reg_of_dev s.dev_afterReset_warm, State.reg_setReg, BitVec.toNat_ofNat]
  omega

/-- A warm reset keeps ATTEMPT and REASON and clears PHASE (R323). -/
theorem State.startstat_afterReset_warm (s : State) : (s.afterReset false).phase = 0
    ∧ (s.afterReset false).regF startstatReg 5 4 = s.regF startstatReg 5 4
    ∧ (s.afterReset false).regF startstatReg 15 8 = s.regF startstatReg 15 8 := by
  have ha := s.attempt_le
  have hr := s.regF_lt startstatReg 15 8
  unfold State.phase
  generalize hx : s.regF startstatReg 5 4 = x at *
  generalize hy : s.regF startstatReg 15 8 = y at *
  rw [State.regF, State.regF, State.regF, State.toNat_startstat_afterReset_warm, hx, hy]
  unfold bits
  omega

theorem State.memByte_afterReset_warm (s : State) (pa : Nat) : (s.afterReset false).memByte pa = s.memByte pa := rfl

theorem Tbl.get_filter_key {α : Type} (d : α) (t : Tbl α) (p : Nat → Bool) (k : Nat) :
    Tbl.get d (t.filter (fun e => p e.1)) k = if p k then Tbl.get d t k else d := by
  induction t with
  | nil => simp
  | cons e t ih =>
    rw [List.filter_cons]
    by_cases hk : e.1 = k
    · subst hk
      by_cases hp : p e.1 <;> simp [Tbl.get, hp, ih]
    · split <;> simp [Tbl.get, hk, ih]

/-- A power-on keeps host memory alone (R324; log entry 38). -/
theorem State.memByte_afterReset_power (s : State) (pa : Nat) :
    (s.afterReset true).memByte pa = if region pa = 2 then s.memByte pa else Memory.unlisted := by
  refine (Tbl.get_filter_key Memory.unlisted s.m.mem (fun k => region k == 2) pa).trans ?_
  simp only [beq_iff_eq]
  rfl

/-! ### A failed attempt (R325) -/

theorem State.reg_failStart (s : State) (code pa : Nat) (h : pa ≠ startstatReg) : (s.failStart code).reg pa = regReset pa :=
  State.reg_afterReset_warm _ _ h

/-- A start that fails counts an attempt with its reason, and the reset leaves no lot and no access. -/
theorem State.failStart_counts (s : State) (code : Nat) (h : code < 256) : (s.failStart code).phase = 0
    ∧ (s.failStart code).regF startstatReg 15 8 = code
    ∧ (s.failStart code).regF startstatReg 5 4 = min 3 (s.regF startstatReg 5 4 + 1)
    ∧ (s.failStart code).lots = [] ∧ (s.failStart code).accs = [] := by
  unfold State.failStart
  refine ⟨(State.startstat_afterReset_warm _).1, ?_, ?_, rfl, rfl⟩
  · rw [(State.startstat_afterReset_warm _).2.2, State.regF_setRegF_apart _ _ _ _ _ _ _ (by decide) (by decide),
      State.regF_setRegF_same _ _ _ _ _ (by decide)]
    exact Nat.mod_eq_of_lt h
  · rw [(State.startstat_afterReset_warm _).2.1, State.regF_setRegF_same _ _ _ _ _ (by decide),
      State.regF_setRegF_apart _ _ _ _ _ _ _ (by decide) (by decide)]
    exact Nat.mod_eq_of_lt (by omega)

end Sys2Proof.Machine
end

section
/-! Laws of the links (12_links.md R316) and of steps 1 and 2 of the start (13_platform.md R324, R331). -/

namespace Sys2Proof.Machine

/-- What every step of a fold keeps, the fold keeps. -/
theorem foldl_keeps {σ α β : Type} (g : σ → β) (f : σ → α → σ) (hf : ∀ s x, g (f s x) = g s) (xs : List α) (s : σ) :
    g (xs.foldl f s) = g s := by
  induction xs generalizing s with
  | nil => rfl
  | cons x xs ih => rw [List.foldl_cons, ih, hf]

/-! ### The state of a link -/

theorem linkReg_ne_startstat {l : Nat} (h : l < 18) : startstatReg ≠ linkReg l := by
  unfold linkReg hlstatReg sfstatReg startstatReg
  split <;> omega

theorem regReset_linkReg {l : Nat} (h : l < 18) : regReset (linkReg l) = 0 := by
  unfold linkReg hlstatReg sfstatReg
  split <;> exact regReset_eq_zero (by omega)

theorem linkReg_injective {l k : Nat} (hl : l < 18) (hk : k < 18) (h : linkReg l = linkReg k) : l = k := by
  unfold linkReg hlstatReg sfstatReg at h
  split at h <;> split at h <;> omega

theorem State.linkState_of_dev {s t : State} (h : t.dev = s.dev) (l : Nat) : t.linkState l = s.linkState l :=
  State.regF_of_reg (State.reg_of_dev h _) _ _

theorem State.linkState_setLinkState_same (s : State) (l st : Nat) (h : st < 4) : (s.setLinkState l st).linkState l = st :=
  (State.regF_setRegF_same _ _ _ _ _ (by decide)).trans (Nat.mod_eq_of_lt h)

theorem State.linkState_setLinkState_other (s : State) {l k : Nat} (st : Nat) (hl : l < 18) (hk : k < 18) (h : k ≠ l) :
    (s.setLinkState l st).linkState k = s.linkState k :=
  State.regF_setRegF_other _ _ _ _ _ _ _ _ (fun e => h (linkReg_injective hk hl e))

/-- STARTSTAT is no link's register. -/
theorem State.startstat_setLinkState (s : State) {l : Nat} (st : Nat) (hl : l < 18) :
    (s.setLinkState l st).reg startstatReg = s.reg startstatReg :=
  State.reg_setRegF_other _ _ _ _ _ _ (linkReg_ne_startstat hl)

theorem State.linkState_setPhase (s : State) (n : Nat) {l : Nat} (hl : l < 18) : (s.setPhase n).linkState l = s.linkState l :=
  State.regF_of_reg (State.reg_setPhase_other _ _ _ (linkReg_ne_startstat hl).symm) _ _

/-- A failed start leaves every link DOWN. -/
theorem State.linkState_failStart (s : State) (code : Nat) {l : Nat} (hl : l < 18) : (s.failStart code).linkState l = 0 := by
  rw [State.linkState, State.regF, State.reg_failStart _ _ _ (linkReg_ne_startstat hl).symm, regReset_linkReg hl]
  simp [bits]

/-! ### Training begins -/

/-- A link in DOWN goes to TRAINING, and no other link changes. -/
theorem State.linkState_startTraining (s : State) {l k : Nat} (hl : l < 18) (hk : k < 18) :
    (s.startTraining l).linkState k = if k = l ∧ s.linkState l = 0 then 1 else s.linkState k := by
  unfold State.startTraining
  by_cases hdown : s.linkState l = 0
  · rw [if_pos hdown]
    by_cases hkl : k = l
    · subst hkl
      rw [State.linkState_setLinkState_same _ _ _ (by decide), if_pos ⟨rfl, hdown⟩]
    · rw [State.linkState_setLinkState_other _ _ hl hk hkl, if_neg (by simp [hkl])]
      rfl
  · rw [if_neg hdown, if_neg (by simp [hdown])]

/-- The state but for device registers, links and the platform. -/
def State.offPlatform (s : State) : State := { s with dev := [], p := LinkPlatS.reset }

theorem State.startTraining_offPlatform (s : State) (l : Nat) : (s.startTraining l).offPlatform = s.offPlatform := by
  unfold State.startTraining
  split <;> rfl

theorem State.lots_of_offPlatform {s t : State} (h : t.offPlatform = s.offPlatform) : t.lots = s.lots := by injection h
theorem State.accs_of_offPlatform {s t : State} (h : t.offPlatform = s.offPlatform) : t.accs = s.accs := by injection h
theorem State.m_of_offPlatform {s t : State} (h : t.offPlatform = s.offPlatform) : t.m = s.m := by injection h

theorem State.reg_startTraining_other (s : State) {l pa : Nat} (h : pa ≠ linkReg l) : (s.startTraining l).reg pa = s.reg pa := by
  unfold State.startTraining
  split
  · exact State.reg_setRegF_other _ _ _ _ _ _ h
  · rfl

theorem State.startstat_startTraining (s : State) {l : Nat} (hl : l < 18) : (s.startTraining l).reg startstatReg = s.reg startstatReg :=
  State.reg_startTraining_other s (linkReg_ne_startstat hl)

/-- The training of the links below n begins (R324, step 6). -/
def State.trainLinks (s : State) (n : Nat) : State := (List.range n).foldl (fun s l => s.startTraining l) s

theorem State.trainLinks_succ (s : State) (n : Nat) : s.trainLinks (n + 1) = (s.trainLinks n).startTraining n := by
  rw [State.trainLinks, List.range_succ, List.foldl_append]
  rfl

/-- Every link below n that was DOWN is in TRAINING, and the others are as they were. -/
theorem State.linkState_trainLinks (s : State) {n k : Nat} (hn : n ≤ 18) (hk : k < 18) :
    (s.trainLinks n).linkState k = if k < n ∧ s.linkState k = 0 then 1 else s.linkState k := by
  induction n with
  | zero => simp [State.trainLinks]
  | succ n ih =>
    have ih := ih (by omega)
    rw [State.trainLinks_succ, State.linkState_startTraining _ (by omega) hk]
    by_cases hkn : k = n
    · subst hkn
      rw [ih]
      simp
    · rw [if_neg (by simp [hkn]), ih]
      congr 1
      simp only [eq_iff_iff, and_congr_left_iff]
      omega

theorem State.trainLinks_offPlatform (s : State) (n : Nat) : (s.trainLinks n).offPlatform = s.offPlatform :=
  foldl_keeps State.offPlatform _ State.startTraining_offPlatform _ _

theorem State.startstat_trainLinks (s : State) {n : Nat} (hn : n ≤ 18) : (s.trainLinks n).reg startstatReg = s.reg startstatReg := by
  induction n with
  | zero => rfl
  | succ n ih => rw [State.trainLinks_succ, State.startstat_startTraining _ (by omega), ih (by omega)]

/-! ### Steps 1 and 2 -/

/-- The end of step 2: the firmware image is taken (R324, R331). -/
def State.imageTaken (s : State) (b : BootInfo) : State :=
  let t := (s.setPhase 1).setPhase 2
  { t with p := { t.p with plat := { t.p.plat with version := b.version, firmware := b.image } } }

theorem State.setRegF_offPlatform (s : State) (pa hi lo v : Nat) : (s.setRegF pa hi lo v).offPlatform = s.offPlatform := rfl
theorem State.setPhase_offPlatform (s : State) (n : Nat) : (s.setPhase n).offPlatform = s.offPlatform := rfl
theorem State.imageTaken_offPlatform (s : State) (b : BootInfo) : (s.imageTaken b).offPlatform = s.offPlatform := rfl

theorem State.regF_steps (s : State) (hi lo : Nat) (h : 3 < lo) :
    ((s.setPhase 1).setPhase 2).regF startstatReg hi lo = s.regF startstatReg hi lo := by
  rw [State.regF_setPhase _ _ _ _ h, State.regF_setPhase _ _ _ _ h]

theorem State.regF_imageTaken (s : State) (b : BootInfo) (hi lo : Nat) (h : 3 < lo) :
    (s.imageTaken b).regF startstatReg hi lo = s.regF startstatReg hi lo := s.regF_steps hi lo h

theorem State.reg_imageTaken_other (s : State) (b : BootInfo) (pa : Nat) (h : pa ≠ startstatReg) : (s.imageTaken b).reg pa = s.reg pa :=
  (State.reg_setPhase_other (s.setPhase 1) 2 pa h).trans (State.reg_setPhase_other s 1 pa h)

/-- Steps 1 and 2 with a good ROM and a version that is not rolled back. -/
theorem State.beginStart_eq (s : State) (b : BootInfo) (hrom : b.romOk = true) (hver : s.p.plat.rollback ≤ b.version) :
    s.beginStart b =
      if Config.verify b.image = true then
        if (s.imageTaken b).regF startstatReg 5 4 = 3 then (((s.imageTaken b).setPhase 8).startTraining 0).startTraining 1
        else ((s.imageTaken b).setPhase 3).setRegF startstatReg 23 16 (wrapI b.cold 8)
      else ((s.setPhase 1).setPhase 2).failStart 2 := by
  have hver' : ¬ b.version < ((s.setPhase 1).setPhase 2).p.plat.rollback := Nat.not_lt.mpr hver
  unfold State.beginStart State.imageTaken
  cases Config.verify b.image
  · simp only [hrom, Bool.not_true, Bool.not_false, Bool.false_eq_true, if_false, if_true]
  · simp only [hrom, hver', Bool.not_true, Bool.false_eq_true, if_false, if_true]

section
variable {s : State} {b : BootInfo} (hrom : b.romOk = true) (hver : s.p.plat.rollback ≤ b.version)
include hrom hver

/-- An image that does not verify fails the start with reason 0x02. -/
theorem State.beginStart_unverified (hv : ¬ Config.verify b.image = true) : (s.beginStart b).phase = 0
    ∧ (s.beginStart b).regF startstatReg 15 8 = 2
    ∧ (s.beginStart b).regF startstatReg 5 4 = min 3 (s.regF startstatReg 5 4 + 1) ∧ (s.beginStart b).lots = [] := by
  rw [State.beginStart_eq s b hrom hver, if_neg hv]
  obtain ⟨hphase, hreason, hatt, hlots, -⟩ := State.failStart_counts ((s.setPhase 1).setPhase 2) 2 (by decide)
  rw [State.regF_steps _ _ _ (by decide)] at hatt
  exact ⟨hphase, hreason, hatt, hlots⟩

/-- An image that verifies brings step 3, with ATTEMPT and REASON as they were, and nothing else changes but the registers. -/
theorem State.beginStart_warms (hv : Config.verify b.image = true) (hatt : s.regF startstatReg 5 4 ≠ 3) :
    (s.beginStart b).phase = 3
    ∧ (s.beginStart b).regF startstatReg 5 4 = s.regF startstatReg 5 4
    ∧ (s.beginStart b).regF startstatReg 15 8 = s.regF startstatReg 15 8
    ∧ s.beginStart b = { s.imageTaken b with dev := (s.beginStart b).dev } := by
  rw [State.beginStart_eq s b hrom hver, if_pos hv, if_neg (by rwa [State.regF_imageTaken _ _ _ _ (by decide)])]
  refine ⟨?_, ?_, ?_, rfl⟩
  · rw [State.phase_setRegF _ _ _ _ (by decide) (by decide), State.phase_setPhase _ _ (by decide)]
  · rw [State.regF_setRegF_apart _ _ _ _ _ _ _ (by decide) (by decide), State.regF_setPhase _ _ _ _ (by decide),
      State.regF_imageTaken _ _ _ _ (by decide)]
  · rw [State.regF_setRegF_apart _ _ _ _ _ _ _ (by decide) (by decide), State.regF_setPhase _ _ _ _ (by decide),
      State.regF_imageTaken _ _ _ _ (by decide)]

/-- After three failed attempts an image that verifies brings MINIMAL, and the ports of the host link train. -/
theorem State.beginStart_minimal (hv : Config.verify b.image = true) (hatt : s.regF startstatReg 5 4 = 3)
    (hA : s.linkState 0 = 0) (hB : s.linkState 1 = 0) :
    (s.beginStart b).phase = 8 ∧ (s.beginStart b).linkState 0 = 1 ∧ (s.beginStart b).linkState 1 = 1 := by
  rw [State.beginStart_eq s b hrom hver, if_pos hv, if_pos (by rwa [State.regF_imageTaken _ _ _ _ (by decide)])]
  have hlink : ∀ l, l < 18 → ((s.imageTaken b).setPhase 8).linkState l = s.linkState l := fun l hl =>
    (State.linkState_setPhase _ _ hl).trans (State.regF_of_reg (State.reg_imageTaken_other _ _ _ (linkReg_ne_startstat hl).symm) _ _)
  refine ⟨?_, ?_, ?_⟩
  · rw [State.phase_of_reg (State.startstat_startTraining _ (by decide)), State.phase_of_reg (State.startstat_startTraining _ (by decide)),
      State.phase_setPhase _ _ (by decide)]
  · rw [State.linkState_startTraining _ (by decide) (by decide), if_neg (by simp),
      State.linkState_startTraining _ (by decide) (by decide), hlink 0 (by decide), if_pos ⟨rfl, hA⟩]
  · rw [State.linkState_startTraining _ (by decide) (by decide), State.linkState_startTraining _ (by decide) (by decide),
      hlink 1 (by decide), if_pos (by simp [hB])]

/-- Registers that stand at their reset values stay there, but for STARTSTAT, where fewer than three attempts have failed. -/
theorem State.reg_beginStart (hatt : s.regF startstatReg 5 4 ≠ 3) (hreg : ∀ pa, pa ≠ startstatReg → s.reg pa = regReset pa)
    (pa : Nat) (h : pa ≠ startstatReg) : (s.beginStart b).reg pa = regReset pa := by
  rw [State.beginStart_eq s b hrom hver]
  split
  · rw [if_neg (by rwa [State.regF_imageTaken _ _ _ _ (by decide)]), State.reg_setRegF_other _ _ _ _ _ _ h,
      State.reg_setPhase_other _ _ _ h, State.reg_imageTaken_other _ _ _ h, hreg pa h]
  · exact State.reg_failStart _ _ _ h

/-- Where the image verifies, steps 1 and 2 leave lots, accesses and memory. -/
theorem State.beginStart_offPlatform (hv : Config.verify b.image = true) : (s.beginStart b).offPlatform = s.offPlatform := by
  rw [State.beginStart_eq s b hrom hver, if_pos hv]
  split
  · rw [State.startTraining_offPlatform, State.startTraining_offPlatform, State.setPhase_offPlatform, State.imageTaken_offPlatform]
  · rw [State.setRegF_offPlatform, State.setPhase_offPlatform, State.imageTaken_offPlatform]

theorem State.memByte_beginStart (pa : Nat) : (s.beginStart b).memByte pa = s.memByte pa := by
  by_cases hv : Config.verify b.image = true
  · rw [State.memByte, State.m_of_offPlatform (State.beginStart_offPlatform hrom hver hv), State.memByte]
  · rw [State.beginStart_eq s b hrom hver, if_neg hv, State.failStart, State.memByte_afterReset_warm, State.memByte]
    rfl

end

end Sys2Proof.Machine
end

section
/-! Laws of a host port that comes up or is lost in step 6 of the start (12_links.md R316; 13_platform.md R324), and of a step's
end that finds no faulty part. -/

namespace Sys2Proof.Machine

/-! ### The host-line cache -/

/-- The state but for the memory side and the free values. -/
def State.offMemory (s : State) : State := { s with m := MemS.reset, free := 0 }

theorem State.hostClean_offMemory (s : State) (k : Nat) (drop : Bool) : (s.hostClean k drop).offMemory = s.offMemory := by
  unfold State.hostClean
  split
  · rfl
  · dsimp only
    split <;> rfl

theorem State.hostRoom_offMemory (s : State) (half : Nat) : (s.hostRoom half).offMemory = s.offMemory := by
  unfold State.hostRoom
  dsimp only
  split
  · rfl
  · exact State.hostClean_offMemory _ _ _

/-- Host lines that move to the other I/O die change the memory side alone (R22, R23). -/
theorem State.hostRehome_offMemory (s : State) : s.hostRehome.offMemory = s.offMemory := by
  unfold State.hostRehome
  refine foldl_keeps State.offMemory _ (fun s e => ?_) _ _
  split
  · split
    · rfl
    · exact State.hostRoom_offMemory _ _
  · rfl

theorem State.hostRehome_dev (s : State) : s.hostRehome.dev = s.dev := by injection s.hostRehome_offMemory
theorem State.hostRehome_lots (s : State) : s.hostRehome.lots = s.lots := by injection s.hostRehome_offMemory
theorem State.hostRehome_accs (s : State) : s.hostRehome.accs = s.accs := by injection s.hostRehome_offMemory
theorem State.hostRehome_p (s : State) : s.hostRehome.p = s.p := by injection s.hostRehome_offMemory

theorem State.hostRehome_of_no_lines (s : State) (h : s.m.hostLines = []) : s.hostRehome = s := by
  unfold State.hostRehome
  rw [h]
  rfl

/-! ### Accesses that a lost link fails, in a module without lots -/

theorem State.lot?_of_no_lots {s : State} (h : s.lots = []) (c b : Nat) : s.lot? c b = none := by
  rw [State.lot?, h]
  rfl

theorem State.onLot_of_no_lots {s : State} (h : s.lots = []) (c b : Nat) (f : Lot → Lot) : s.onLot c b f = s := by
  rw [State.onLot, State.lot?_of_no_lots h]

theorem State.recheck_of_no_lots {s : State} (h : s.lots = []) (c : Nat) : s.recheck c = s := by
  have hlot : ∀ b, s.recheckLot c b = s := fun b => by rw [State.recheckLot, State.lot?_of_no_lots h]
  simp only [State.recheck, List.range_succ, List.range_zero, List.nil_append, List.foldl_append, List.foldl_cons, List.foldl_nil, hlot]

/-- No access of a module without lots has a warp whose count could fall. -/
theorem State.endAcc_of_no_lots {s : State} (h : s.lots = []) (a : Acc) :
    s.endAcc a = { s with accs := s.accs.filter (fun x => x.id != a.id) } := by
  unfold State.endAcc State.countDown State.onWarp
  have ht : ({ s with accs := s.accs.filter (fun x => x.id != a.id) } : State).lots = [] := h
  dsimp only
  rw [State.onLot_of_no_lots ht, ite_self, State.recheck_of_no_lots ht]

theorem State.recordStop_of_no_lots {s : State} (h : s.lots = []) (a : Acc) (x : Stop) : s.recordStop a x = s := by
  rw [State.recordStop, State.lot?_of_no_lots h]

theorem State.refuseAcc_of_no_lots {s : State} (h : s.lots = []) (a : Acc) (code addr : Nat) :
    (s.refuseAcc a code addr).lots = [] ∧ (s.refuseAcc a code addr).dev = s.dev := by
  unfold State.refuseAcc State.recordAcc
  rw [State.recordStop_of_no_lots h, State.endAcc_of_no_lots h]
  split
  · exact ⟨h, rfl⟩
  · split
    · exact ⟨h, rfl⟩
    · exact ⟨h, rfl⟩

theorem State.lostOnLink_of_no_lots {s : State} (h : s.lots = []) (a : Acc) :
    (s.lostOnLink a).lots = [] ∧ (s.lostOnLink a).dev = s.dev := by
  unfold State.lostOnLink
  dsimp only
  split
  · exact State.refuseAcc_of_no_lots (s := s.freeVal.2) h a _ _
  · split
    · exact State.refuseAcc_of_no_lots (s := { s.freeVal.2 with m := _ }) h a _ _
    · exact State.refuseAcc_of_no_lots (s := s.freeVal.2) h a _ _

theorem State.foldl_lostOnLink_of_no_lots (as : List Acc) {s : State} (h : s.lots = []) :
    (as.foldl (fun s a => s.lostOnLink a) s).lots = [] ∧ (as.foldl (fun s a => s.lostOnLink a) s).dev = s.dev := by
  induction as generalizing s with
  | nil => exact ⟨h, rfl⟩
  | cons a as ih =>
    obtain ⟨hlots, hdev⟩ := State.lostOnLink_of_no_lots h a
    obtain ⟨hlots', hdev'⟩ := ih hlots
    exact ⟨hlots', hdev'.trans hdev⟩

end Sys2Proof.Machine
end

section
/-! The ends of the steps of the start (13_platform.md R324) and the obligation about them. -/

namespace Sys2Proof.Machine

/-! ### Ends of steps that find no faulty part -/

theorem State.loseRetired_of_no_lots {s : State} (h : s.lots = []) : s.loseRetired = s := by
  unfold State.loseRetired State.loseMonitors State.lotList
  rw [h]
  rfl

theorem State.retireFaulty_clean {s : State} {r : StepResult} (hlots : s.lots = []) (hd : r.faultyDies = []) (hv : r.faultyVaults = [])
    (hc : r.faultyChannels = []) : s.retireFaulty r = s := by
  unfold State.retireFaulty
  rw [hd, hv, hc]
  exact State.loseRetired_of_no_lots hlots

theorem State.lockPlanes_clean (s : State) {r : StepResult} (h : r.lostWl = []) : s.lockPlanes r = s := by
  unfold State.lockPlanes
  rw [h]
  rfl

/-! ### READY, and the end of step 6 -/

theorem State.ready_isReady (s : State) : s.ready.isReady = true := by
  rw [State.isReady_iff]
  exact (State.phase_setRegF _ _ _ _ (by decide) (by decide)).trans (State.phase_setPhase _ _ (by decide))

theorem State.ready_attempt (s : State) : s.ready.regF startstatReg 5 4 = 0 := State.regF_setRegF_same _ _ _ _ _ (by decide)

theorem State.checkPorts_up {s : State} (hphase : s.phase = 6) (hup : s.linkState 0 = 2 ∨ s.linkState 1 = 2) :
    s.checkPorts = s.ready := by
  have hup' : s.regF (hlstatReg 0) 1 0 = 2 ∨ s.regF (hlstatReg 1) 1 0 = 2 := hup
  unfold State.checkPorts
  simp [hphase, hup']

theorem State.checkPorts_down {s : State} (hphase : s.phase = 6) (hA : s.linkState 0 = 0) (hB : s.linkState 1 = 0) :
    s.checkPorts = s.failStart 7 := by
  have hA' : s.regF (hlstatReg 0) 1 0 = 0 := hA
  have hB' : s.regF (hlstatReg 1) 1 0 = 0 := hB
  unfold State.checkPorts
  simp [hphase, hA', hB']

theorem State.checkPorts_waits {s : State} (hA : s.linkState 0 ≠ 2) (hB : s.linkState 1 ≠ 2) (h : s.linkState 0 ≠ 0) :
    s.checkPorts = s := by
  have hA' : s.regF (hlstatReg 0) 1 0 ≠ 2 := hA
  have hB' : s.regF (hlstatReg 1) 1 0 ≠ 2 := hB
  have h' : s.regF (hlstatReg 0) 1 0 ≠ 0 := h
  unfold State.checkPorts
  simp [hA', hB', h']

/-- Step 5 ends: every link that is DOWN trains, and a port that was UP already brings READY. -/
def State.endStep5 (s : State) : State := ((s.setPhase 6).trainLinks 18).checkPorts

theorem State.phase_trainLinks_setPhase (s : State) : ((s.setPhase 6).trainLinks 18).phase = 6 := by
  rw [State.phase_of_reg (State.startstat_trainLinks _ (by decide)), State.phase_setPhase _ _ (by decide)]

theorem State.linkState_trainLinks_setPhase (s : State) {l : Nat} (hl : l < 18) :
    ((s.setPhase 6).trainLinks 18).linkState l = if s.linkState l = 0 then 1 else s.linkState l := by
  rw [State.linkState_trainLinks _ (by decide) hl, State.linkState_setPhase _ _ hl]
  simp [hl]

theorem State.endStep5_up {s : State} (hup : s.linkState 0 = 2 ∨ s.linkState 1 = 2) :
    s.endStep5 = ((s.setPhase 6).trainLinks 18).ready := by
  refine State.checkPorts_up s.phase_trainLinks_setPhase ?_
  rw [State.linkState_trainLinks_setPhase _ (by decide), State.linkState_trainLinks_setPhase _ (by decide)]
  rcases hup with h | h
  · left; simp [h]
  · right; simp [h]

theorem State.endStep5_waits {s : State} (hA : s.linkState 0 ≠ 2) (hB : s.linkState 1 ≠ 2) :
    s.endStep5 = (s.setPhase 6).trainLinks 18 := by
  refine State.checkPorts_waits ?_ ?_ ?_
  · rw [State.linkState_trainLinks_setPhase _ (by decide)]; split <;> omega
  · rw [State.linkState_trainLinks_setPhase _ (by decide)]; split <;> omega
  · rw [State.linkState_trainLinks_setPhase _ (by decide)]; split <;> omega

theorem State.ready_offPlatform (s : State) : s.ready.offPlatform = s.offPlatform := rfl

/-- The end of step 5 leaves lots, accesses and memory. -/
theorem State.endStep5_offPlatform (s : State) : s.endStep5.offPlatform = s.offPlatform := by
  by_cases hup : s.linkState 0 = 2 ∨ s.linkState 1 = 2
  · rw [State.endStep5_up hup, State.ready_offPlatform, State.trainLinks_offPlatform, State.setPhase_offPlatform]
  · rw [not_or] at hup
    rw [State.endStep5_waits hup.1 hup.2, State.trainLinks_offPlatform, State.setPhase_offPlatform]

/-- A port that was UP already brings READY, and links that were all DOWN are in TRAINING in step 6. -/
theorem State.endStep5_outcome (s : State) : (s.endStep5.lots = s.lots ∧ s.endStep5.accs = s.accs ∧ s.endStep5.m = s.m)
    ∧ (s.linkState 0 = 2 ∨ s.linkState 1 = 2 → s.endStep5.isReady = true)
    ∧ ((∀ l, l < 18 → s.linkState l = 0) → s.endStep5.phase = 6 ∧ ∀ l, l < 18 → s.endStep5.linkState l = 1) := by
  have hframe := s.endStep5_offPlatform
  refine ⟨⟨State.lots_of_offPlatform hframe, State.accs_of_offPlatform hframe, State.m_of_offPlatform hframe⟩,
    fun hup => ?_, fun hdown => ?_⟩
  · rw [State.endStep5_up hup]
    exact State.ready_isReady _
  · have hA := hdown 0 (by decide)
    have hB := hdown 1 (by decide)
    rw [State.endStep5_waits (by omega) (by omega)]
    refine ⟨s.phase_trainLinks_setPhase, fun l hl => ?_⟩
    rw [State.linkState_trainLinks_setPhase s hl, if_pos (hdown l hl)]

/-! ### A port comes up, or the last one is lost, in step 6 -/

theorem State.port_of_link {s : State} {l st : Nat} (hl : l < 2) (h : s.linkState l = st) : s.linkState 0 = st ∨ s.linkState 1 = st := by
  interval_cases l
  · exact .inl h
  · exact .inr h

/-- A host port that trains well brings READY, and nothing else changes but host lines that move. -/
theorem State.linkTrained_up {s : State} {r : StepResult} (hphase : s.phase = 6) (hl : r.link < 2) (htrain : s.linkState r.link = 1)
    (hok : r.ok = true) : ∃ u : State, s.linkTrained r = u.hostRehome.ready ∧ u.offPlatform = s.offPlatform
      ∧ u.p.plat = s.p.plat := by
  have h18 : r.link < 18 := by omega
  obtain ⟨rate, hrate⟩ : ∃ n, n = min r.rate (min 2 ((s.setLinkState r.link 2).regF (hlctlReg r.link) 1 0)) := ⟨_, rfl⟩
  refine ⟨(s.setLinkState r.link 2).setRegF (linkReg r.link) 3 2 rate, ?_, rfl, rfl⟩
  have hup : ((s.setLinkState r.link 2).setRegF (linkReg r.link) 3 2 rate).hostRehome.linkState r.link = 2 := by
    rw [State.linkState_of_dev (State.hostRehome_dev _), State.linkState, State.regF_setRegF_apart _ _ _ _ _ _ _ (by decide) (by decide)]
    exact State.linkState_setLinkState_same _ _ _ (by decide)
  have hsix : ((s.setLinkState r.link 2).setRegF (linkReg r.link) 3 2 rate).hostRehome.phase = 6 := by
    rw [State.phase_of_reg (State.reg_of_dev (State.hostRehome_dev _) _),
      State.phase_of_reg (State.reg_setRegF_other _ _ _ _ _ _ (linkReg_ne_startstat h18)),
      State.phase_of_reg (State.startstat_setLinkState _ _ h18), hphase]
  rw [← State.checkPorts_up hsix (State.port_of_link hl hup)]
  unfold State.linkTrained
  rw [if_neg (by simp [htrain]; omega), if_pos hok, if_pos hl, hrate]

/-- A link that goes DOWN in a module without lots leaves the registers but its own. -/
theorem State.linkDown_of_no_lots {s : State} (h : s.lots = []) (l : Nat) :
    ∃ u : State, s.linkDown l = u.checkPorts ∧ u.dev = (s.setLinkState l 0).dev := by
  refine ⟨_, rfl, ?_⟩
  rw [State.hostRehome_dev]
  exact (State.foldl_lostOnLink_of_no_lots _ (s := s.setLinkState l 0) h).2

/-- A host port whose third training fails is DOWN; where the other is DOWN too, the start fails with reason 0x07. -/
theorem State.linkTrained_down {s : State} {r : StepResult} (hphase : s.phase = 6) (hlots : s.lots = []) (hl : r.link < 2)
    (htrain : s.linkState r.link = 1) (hfail : r.ok = false) (hthird : 2 ≤ (s.linkS r.link).fails) (hother : s.linkState (1 - r.link) = 0) :
    ∃ u : State, s.linkTrained r = u.failStart 7 ∧ u.regF startstatReg 5 4 = s.regF startstatReg 5 4 := by
  have h18 : r.link < 18 := by omega
  obtain ⟨u, hu, hdev⟩ := State.linkDown_of_no_lots (s := s.setLinkS r.link { s.linkS r.link with fails := (s.linkS r.link).fails + 1 })
    hlots r.link
  have hreg : ∀ pa, u.reg pa = (s.setLinkState r.link 0).reg pa := State.reg_of_dev hdev
  have hown : u.linkState r.link = 0 :=
    (State.regF_of_reg (hreg _) _ _).trans (State.linkState_setLinkState_same _ _ _ (by decide))
  have hrest : u.linkState (1 - r.link) = 0 := by
    refine (State.regF_of_reg (hreg _) _ _).trans ?_
    exact (State.linkState_setLinkState_other _ _ h18 (by omega) (by omega)).trans hother
  have hstart : u.reg startstatReg = s.reg startstatReg := (hreg _).trans (State.startstat_setLinkState _ _ h18)
  have hports : u.linkState 0 = 0 ∧ u.linkState 1 = 0 := by
    have hport : r.link = 0 ∨ r.link = 1 := by omega
    rcases hport with h | h <;> rw [h] at hown hrest
    · exact ⟨hown, hrest⟩
    · exact ⟨hrest, hown⟩
  refine ⟨u, ?_, State.regF_of_reg hstart _ _⟩
  rw [← State.checkPorts_down ((State.phase_of_reg hstart).trans hphase) hports.1 hports.2, ← hu]
  unfold State.linkTrained
  rw [if_neg (by simp [htrain]; omega), if_neg (by simp [hfail])]
  dsimp only
  rw [if_neg (by omega)]

/-- The first host port that comes UP brings READY: ATTEMPT is clear, the rollback fuse follows the version, and without host lines
memory is as it was (R324, R331). -/
theorem State.linkTrained_ready {s : State} {r : StepResult} (hphase : s.phase = 6) (hl : r.link < 2) (htrain : s.linkState r.link = 1)
    (hok : r.ok = true) : ∃ t, Host.Outcome.next (φ := Fault) (ρ := Refusal) (s.linkTrained r) = .next t ∧ t.isReady = true
      ∧ t.lots = s.lots ∧ t.accs = s.accs ∧ (s.m.hostLines = [] → t.m = s.m) ∧ t.regF startstatReg 5 4 = 0
      ∧ t.p.plat.rollback = max s.p.plat.rollback s.p.plat.version := by
  obtain ⟨u, hu, hframe, hplat⟩ := State.linkTrained_up hphase hl htrain hok
  refine ⟨_, congrArg _ hu, State.ready_isReady _, ?_, ?_, fun hlines => ?_, State.ready_attempt _, ?_⟩
  · exact u.hostRehome_lots.trans (State.lots_of_offPlatform hframe)
  · exact u.hostRehome_accs.trans (State.accs_of_offPlatform hframe)
  · have hm := State.m_of_offPlatform hframe
    rw [State.hostRehome_of_no_lines u (by rw [hm, hlines])]
    exact hm
  · rw [← hplat, ← State.hostRehome_p u]
    rfl

/-- The loss of the last port counts an attempt of reason 0x07 (R324). -/
theorem State.linkTrained_failed {s : State} {r : StepResult} (hphase : s.phase = 6) (hlots : s.lots = []) (hl : r.link < 2)
    (htrain : s.linkState r.link = 1) (hfail : r.ok = false) (hthird : 2 ≤ (s.linkS r.link).fails) (hother : s.linkState (1 - r.link) = 0) :
    (s.linkTrained r).phase = 0 ∧ (s.linkTrained r).regF startstatReg 15 8 = 7
      ∧ (s.linkTrained r).regF startstatReg 5 4 = min 3 (s.regF startstatReg 5 4 + 1)
      ∧ (s.linkTrained r).lots = [] ∧ (s.linkTrained r).accs = [] := by
  obtain ⟨u, hu, hatt⟩ := State.linkTrained_down hphase hlots hl htrain hfail hthird hother
  rw [hu, ← hatt]
  exact u.failStart_counts 7 (by decide)

/-! ### The obligation -/

/-- What steps 1 and 2 come to: what follows where the image verifies, and else a failed attempt of reason 0x02 after n others. -/
def State.begun (t : State) (b : BootInfo) (n : Nat) (good : Prop) : Prop :=
  if Config.verify b.image = true then good
  else t.phase = 0 ∧ t.regF startstatReg 15 8 = 2 ∧ t.regF startstatReg 5 4 = min 3 (n + 1) ∧ t.lots = []

section
variable {s : State} {b : BootInfo} (hrom : b.romOk = true) (hver : s.p.plat.rollback ≤ b.version)
include hrom hver

theorem State.beginStart_begun {n : Nat} {good : Prop} (hn : s.regF startstatReg 5 4 = n)
    (hgood : Config.verify b.image = true → good) : (s.beginStart b).begun b n good := by
  unfold State.begun
  split
  · next hv => exact hgood hv
  · next hv => exact hn ▸ State.beginStart_unverified hrom hver hv

/-- After a reset, power-on or warm, an image that verifies stands in a module with no lot, launch, access or running unit, and
with the retirement map that it had. -/
theorem State.beginStart_afterReset (power : Bool) {n : Nat} (hn : (s.afterReset power).regF startstatReg 5 4 = n) (hatt : n ≠ 3) :
    let t := (s.afterReset power).beginStart b
    t.begun b n (t.phase = 3 ∧ (t.lots = [] ∧ t.accs = [] ∧ t.w.launches = [] ∧ t.running = [] ∧ t.p.retmap = s.p.retmap
      ∧ t.p.plat.version = b.version ∧ t.p.plat.firmware = b.image) ∧ t.regF startstatReg 5 4 = n) := by
  refine State.beginStart_begun (s := s.afterReset power) hrom hver hn fun hv => ?_
  obtain ⟨hphase, hkept, -, hframe⟩ := State.beginStart_warms (s := s.afterReset power) hrom hver hv (hn ▸ hatt)
  refine ⟨hphase, ?_, hkept.trans hn⟩
  rw [hframe]
  exact ⟨rfl, rfl, rfl, rfl, rfl, rfl, rfl⟩

/-- The timeout of the warming counts an attempt of reason 0x04, and the start begins again (R325). -/
theorem State.beginStart_failStart (hatt : s.regF startstatReg 5 4 < 2) :
    let t := (s.failStart 4).beginStart b
    t.begun b (s.regF startstatReg 5 4 + 1) (t.phase = 3 ∧ t.regF startstatReg 5 4 = s.regF startstatReg 5 4 + 1
      ∧ t.regF startstatReg 15 8 = 4) := by
  obtain ⟨-, hreason, hcount, -, -⟩ := s.failStart_counts 4 (by decide)
  rw [min_eq_right (by omega)] at hcount
  refine State.beginStart_begun (s := s.failStart 4) hrom hver hcount fun hv => ?_
  obtain ⟨hphase, hkept, hkeptR, -⟩ := State.beginStart_warms (s := s.failStart 4) hrom hver hv (by omega)
  exact ⟨hphase, hkept.trans hcount, hkeptR.trans hreason⟩

/-- The third one brings MINIMAL, with both host ports in TRAINING (R325). -/
theorem State.beginStart_failStart_minimal (hatt : 2 ≤ s.regF startstatReg 5 4) :
    let t := (s.failStart 4).beginStart b
    t.begun b 3 (t.phase = 8 ∧ t.linkState 0 = 1 ∧ t.linkState 1 = 1) := by
  obtain ⟨-, -, hcount, -, -⟩ := s.failStart_counts 4 (by decide)
  rw [min_eq_left (by omega)] at hcount
  exact State.beginStart_begun (s := s.failStart 4) hrom hver hcount fun hv =>
    State.beginStart_minimal (s := s.failStart 4) hrom hver hv hcount (s.linkState_failStart 4 (by decide))
      (s.linkState_failStart 4 (by decide))

/-- RETRY begins the start again with no attempt counted, and lots, accesses and memory stay (R323). -/
theorem State.beginStart_retry :
    let t := ((s.setRegF startstatReg 5 4 0).setPhase 1).beginStart b
    t.begun b 0 (t.phase = 3 ∧ (t.lots = s.lots ∧ t.accs = s.accs ∧ t.m = s.m) ∧ t.regF startstatReg 5 4 = 0) := by
  have hcount : ((s.setRegF startstatReg 5 4 0).setPhase 1).regF startstatReg 5 4 = 0 :=
    (State.regF_setPhase _ _ _ _ (by decide)).trans (State.regF_setRegF_same _ _ _ _ _ (by decide))
  refine State.beginStart_begun (s := (s.setRegF startstatReg 5 4 0).setPhase 1) hrom hver hcount fun hv => ?_
  obtain ⟨hphase, hkept, -, -⟩ := State.beginStart_warms (s := (s.setRegF startstatReg 5 4 0).setPhase 1) hrom hver hv (by omega)
  have hframe := State.beginStart_offPlatform (s := (s.setRegF startstatReg 5 4 0).setPhase 1) hrom hver hv
  rw [State.setPhase_offPlatform, State.setRegF_offPlatform] at hframe
  exact ⟨hphase, ⟨State.lots_of_offPlatform hframe, State.accs_of_offPlatform hframe, State.m_of_offPlatform hframe⟩, hkept.trans hcount⟩

end

/-- RETRY in MINIMAL clears ATTEMPT and begins the start at step 1 (R323). -/
theorem State.retryStart_minimal {s : State} (h : s.phase = 8) : s.retryStart = (s.setRegF startstatReg 5 4 0).setPhase 1 :=
  if_pos (s.minimal_iff.mpr h)

theorem execStartctlRetry_minimal {s : State} (b : BootInfo) (h : s.phase = 8) :
    execStartctlRetry b s = .next (((s.setRegF startstatReg 5 4 0).setPhase 1).beginStart b) := by
  unfold execStartctlRetry
  rw [State.retryStart_minimal h]
  exact congrArg _ (if_pos (State.phase_setPhase _ _ (by decide)))

/-- The warming ends with every part good (R324). -/
theorem execWarmingComplete_clean {s : State} {e : WarmEnd} (hphase : s.phase = 3) (hwarm : ∀ x ∈ e.temps, -10 ≤ x)
    (hok : e.found.ok = true) (hclean : s.retireFaulty e.found = s) :
    execWarmingComplete e s = .next (if s.diesInService < 48 then s.failStart 8 else s.setPhase 4) := by
  unfold execWarmingComplete
  rw [if_neg (by simpa [hphase, hok] using hwarm), hclean]

theorem execWarmingTimeout_three {s : State} (b : BootInfo) (hphase : s.phase = 3) :
    execWarmingTimeout b s = .next ((s.failStart 4).beginStart b) := congrArg Host.Outcome.next (if_pos hphase)

theorem execTrainingComplete_four {s : State} {r : StepResult} (hphase : s.phase = 4) (hclean : s.retireFaulty r = s) :
    execTrainingComplete r s = .next (if r.ok = false then s.failStart 5 else if s.diesInService < 48 then s.failStart 8
      else s.setPhase 5) := by
  unfold execTrainingComplete
  rw [if_pos hphase, hclean]
  simp

theorem execTrainingComplete_five {s : State} {r : StepResult} (hphase : s.phase = 5) (hclean : s.retireFaulty r = s)
    (hlocked : s.lockPlanes r = s) :
    execTrainingComplete r s = .next (if r.ok = false ∨ s.someDown = true then s.failStart 6 else if s.diesInService < 48 then s.failStart 8
      else s.endStep5) := by
  unfold execTrainingComplete
  rw [if_neg (by omega), if_pos hphase, hclean, hlocked]
  simp only [Bool.or_eq_true, Bool.not_eq_true']
  rfl

theorem execTrainingComplete_six {s : State} (r : StepResult) (hphase : s.phase = 6) :
    execTrainingComplete r s = .next (s.linkTrained r) := by
  unfold execTrainingComplete
  rw [if_neg (by omega), if_neg (by omega)]

/-- Settles O47, a clause for each event: the resets by what `beginStart` comes to after them, the ends of the steps by what each
leaves to the next. -/
theorem start : Obligations.Start := by
  intro s b hrom hver attempt begun empty keeps clean failed
  have hclean : ∀ r, clean r → s.lots = [] → s.retireFaulty r = s := fun r ⟨hd, hv, hc, _⟩ hlots =>
    State.retireFaulty_clean hlots hd hv hc
  refine ⟨⟨_, rfl, ?powerRegs, ?powerMem, ?powerBegun⟩, fun hatt => ⟨_, rfl, ?warmRegs, ?warmMem, ?warmBegun⟩,
    ⟨_, rfl, s.regF_afterReset_power 3 0, s.regF_afterReset_power 5 4, rfl, rfl, rfl⟩, fun h3 => ⟨?warmed, ?timeout, ?third⟩,
    fun h8 => ⟨_, execStartctlRetry_minimal b h8, ?retry⟩, fun r hr hlots => ⟨fun h4 => ?four, fun h5 => ?five, fun h6 hl htrain => ?six⟩⟩
  case powerRegs =>
    exact State.reg_beginStart (s := s.afterReset true) hrom hver (by rw [State.regF_afterReset_power]; decide) (fun _ _ => rfl)
  case powerMem =>
    exact fun pa => (State.memByte_beginStart (s := s.afterReset true) hrom hver pa).trans (s.memByte_afterReset_power pa)
  case powerBegun => exact State.beginStart_afterReset hrom hver true (s.regF_afterReset_power 5 4) (by decide)
  case warmRegs =>
    exact State.reg_beginStart (s := s.afterReset false) hrom hver (by rwa [s.startstat_afterReset_warm.2.1]) s.reg_afterReset_warm
  case warmMem => exact State.memByte_beginStart (s := s.afterReset false) hrom hver
  case warmBegun => exact State.beginStart_afterReset hrom hver false s.startstat_afterReset_warm.2.1 hatt
  case warmed =>
    intro e hwarm hok hr hlots
    have hexec := execWarmingComplete_clean h3 hwarm hok (hclean _ hr hlots)
    refine ⟨fun h48 => ⟨s.setPhase 4, ?_, State.phase_setPhase _ _ (by decide), ⟨rfl, rfl, rfl⟩, s.reg_setPhase_other 4⟩,
      fun h48 => ⟨s.failStart 8, ?_, s.failStart_counts 8 (by decide)⟩⟩
    · rwa [if_neg (by omega)] at hexec
    · rwa [if_pos h48] at hexec
  case timeout => exact fun hatt => ⟨_, execWarmingTimeout_three b h3, State.beginStart_failStart hrom hver hatt⟩
  case third => exact fun hatt => ⟨_, execWarmingTimeout_three b h3, State.beginStart_failStart_minimal hrom hver hatt⟩
  case retry => exact State.beginStart_retry hrom hver
  case four =>
    refine ⟨_, execTrainingComplete_four h4 (hclean r hr hlots), ?_⟩
    split
    · exact s.failStart_counts 5 (by decide)
    · split
      · exact s.failStart_counts 8 (by decide)
      · exact ⟨State.phase_setPhase _ _ (by decide), rfl, rfl, rfl⟩
  case five =>
    refine ⟨_, execTrainingComplete_five h5 (hclean r hr hlots) (s.lockPlanes_clean hr.2.2.2), ?_⟩
    split
    · exact s.failStart_counts 6 (by decide)
    · split
      · exact s.failStart_counts 8 (by decide)
      · exact State.endStep5_outcome s
  case six =>
    rw [show exec (.trainingComplete r) s = _ from execTrainingComplete_six r h6]
    exact ⟨fun hok => State.linkTrained_ready h6 hl htrain hok, fun hfail hthird hother =>
      ⟨_, rfl, State.linkTrained_failed h6 hlots hl htrain hfail hthird hother⟩⟩

end Sys2Proof.Machine
end

section
/-! Laws of special registers (02_work.md R33; 17_ref_s_z.md R431 to R433; 14_ref_a_c.md R359). -/
namespace Sys2Proof.Machine

theorem State.onLot_of_lot {s : State} {c b : Nat} {l : Lot} (h : s.lot? c b = some l) (f : Lot → Lot) : s.onLot c b f = s.setLot c b (f l) := by
  unfold State.onLot
  rw [h]

/-- A barker takes part alone. -/
theorem State.runs_barker_alone {s : State} {v : View} {p : BitVec 3} {th bk : Bool} {uses : List Use} (h : s.runs v p th bk uses)
    {a : Agent} (ha : a ∈ v.parts) (hb : a.isBarker = true) : v.parts = [a] := by
  obtain ⟨hview, ⟨-, hformed⟩, -⟩ := h
  obtain ⟨-, -, hparts⟩ := State.view_eq hview
  have hmem : a ∈ v.i.agents ∧ v.l.pred a p.toNat = true := by
    rw [hparts] at ha
    simpa using ha
  have hagents := (hformed a hmem.1).2 hb
  have hbarker : a = Agent.barker := by simpa [hagents] using hmem.1
  rw [hparts, hagents, ← hbarker]
  simp [hmem.2]

/-- Results that do not depend on registers: every participant's destination holds its value, and no other register changes. -/
theorem View.foldl_setVal_const {s : State} {v : View} {p : BitVec 3} {th bk : Bool} {uses : List Use} {d : BitVec 7} {width : Nat}
    (h : s.runs v p th bk uses) (hu : useW d width ∈ uses) (hw : width = 32 ∨ width = 64) (val : Agent → Nat) :
    ∃ l', v.parts.foldl (fun l a => l.setVal a d width false (val a)) v.l = l'
      ∧ l' = { v.l with vregs := l'.vregs, sregs := l'.sregs }
      ∧ (∀ a ∈ v.parts, l'.holds a d width false (val a)) ∧ v.l.others l' v.parts d width := by
  obtain ⟨hnodup, hparts⟩ := State.runs_parts h
  exact Lot.foldl_setVal v.l v.parts d width false (fun _ => val) (by omega) hnodup
    (fun a ha => ⟨(hparts a ha).2, fun hb => Lot.useFault_fits hb (Lot.instrFault_use (h.2.2 a (hparts a ha).1) hu),
      State.runs_barker_alone h ha⟩)
    (fun _ _ _ _ _ _ => rfl)

/-! ### Reading -/

/-- The address of the oldest REPLAY access of a lane, as R431 words it. -/
theorem State.faddrOf_eq (s : State) (t : LaneId) : s.faddrOf t =
    ((s.accs.filter (fun x => x.t == t)).findSome? (fun x => match x.phase with | .replay y => some y.addr | _ => none)).getD 0 := by
  unfold State.faddrOf
  induction s.accs with
  | nil => rfl
  | cons x xs ih =>
    by_cases ht : x.t == t
    · cases hx : x.phase <;> simp_all [Phase.isReplay]
    · simp_all

theorem execSrd_value {s : State} {v : View} {p : BitVec 3} {d : BitVec 7} {g : SReg}
    (h : s.runs v p true (sregBarker g) [if sregWide g then use2 d else use1 d]) (hc : g ≠ .clock) (hl : g ≠ .lotdone) :
    ∃ t, execSrd p d g s = .next t
      ∧ s.wrote t v d (if sregWide g then 64 else 32) false (fun a => s.sregVal v.i.core v.i.bctx v.l a g) := by
  obtain ⟨-, hlot, -⟩ := State.view_eq h.1
  obtain ⟨l', hfold, hframe, hholds, hothers⟩ := View.foldl_setVal_const (d := d) (width := if sregWide g then 64 else 32) h
    (by cases sregWide g <;> simp [useW]) (by split <;> simp) (fun a => s.sregVal v.i.core v.i.bctx v.l a g)
  refine ⟨_, State.instr_runs h _, l', ?_, hframe, hholds, hothers, fun pa => ?_⟩
  · rw [if_neg hl]
    simp only [if_neg hc]
    rw [State.onLot_of_lot hlot, hfold]
  · rw [if_neg hl]
    simp only [if_neg hc]
    rw [State.onLot_of_lot hlot]
    rfl

/-- The cycle count that SRD reads has advanced by a free amount (log entry 4). -/
theorem execSrd_clock {s : State} {v : View} {p : BitVec 3} {d : BitVec 7} (h : s.runs v p true true [use2 d]) :
    ∃ t l' n, execSrd p d .clock s = .next t ∧ t.lot? v.i.core v.i.bctx = some l'
      ∧ (t.core v.i.core).cycles = (s.core v.i.core).cycles + n ∧ ∀ a ∈ v.parts, l'.holds a d 64 false (t.core v.i.core).cycles := by
  obtain ⟨-, hlot, -⟩ := State.view_eq h.1
  let n := s.freeVal.1
  let cycles := (s.core v.i.core).cycles + n
  obtain ⟨l', hfold, -, hholds, -⟩ := View.foldl_setVal_const (d := d) (width := 64) h (by simp [useW]) (by simp) (fun _ => cycles)
  have hcore : (s.tickCycles v.i.core).core v.i.core = { s.core v.i.core with cycles := cycles } := State.core_setCore _ _ _
  have hticked : (s.tickCycles v.i.core).lot? v.i.core v.i.bctx = some v.l := hlot
  refine ⟨(s.tickCycles v.i.core).setLot v.i.core v.i.bctx l', l', n, ?_, State.lot?_setLot .., ?_, ?_⟩
  · refine (State.instr_runs h _).trans ?_
    simp only [reduceCtorEq, if_false, if_true, sregWide]
    rw [State.onLot_of_lot hticked, ← hfold]
    simp only [State.sregVal, hcore]
  · exact congrArg CoreS.cycles hcore
  · intro a ha
    have : (((s.tickCycles v.i.core).setLot v.i.core v.i.bctx l').core v.i.core).cycles = cycles := congrArg CoreS.cycles hcore
    rw [this]
    exact hholds a ha

/-- CLOCK writes the module time, which has advanced by a free amount (R359; log entry 4). -/
theorem execClock_time {s : State} {v : View} {p : BitVec 3} {d : BitVec 7} (h : s.runs v p true true [use2 d]) :
    ∃ t l' n, execClock p d s = .next t ∧ t.lot? v.i.core v.i.bctx = some l' ∧ t.p.ns = s.p.ns + n
      ∧ (∀ a ∈ v.parts, l'.holds a d 64 false t.p.ns) ∧ v.l.others l' v.parts d 64 := by
  obtain ⟨-, hlot, -⟩ := State.view_eq h.1
  let ns := s.p.ns + s.freeVal.1
  obtain ⟨l', hfold, -, hholds, hothers⟩ := View.foldl_setVal_const (d := d) (width := 64) h (by simp [useW]) (by simp) (fun _ => ns)
  refine ⟨s.tickNs.setLot v.i.core v.i.bctx l', l', s.freeVal.1, ?_, State.lot?_setLot .., rfl, hholds, hothers⟩
  refine (State.instr_runs h _).trans ?_
  have hticked : s.tickNs.lot? v.i.core v.i.bctx = some v.l := hlot
  rw [State.onLot_of_lot hticked, ← hfold]
  rfl

/-! ### Threads of a list changed one by one -/

/-- Each agent of a list has its thread changed by itself: every other thread and everything else of the lot is as before. -/
theorem Lot.foldl_setThr (as : List Agent) (f : Lot → Agent → Thread) (g : Agent → Thread → Thread) (l : Lot) (hnodup : as.Nodup)
    (hlane : ∀ a ∈ as, a.l < 32) (hf : ∀ m, m = { l with threads := m.threads } → ∀ a ∈ as, f m a = g a (m.thr a)) :
    as.foldl (fun l a => l.setThr a (f l a)) l = { l with threads := (as.foldl (fun l a => l.setThr a (f l a)) l).threads }
      ∧ ∀ b : Agent, b.l < 32 → (as.foldl (fun l a => l.setThr a (f l a)) l).thr b = if b ∈ as then g b (l.thr b) else l.thr b := by
  induction as using List.reverseRecOn with
  | nil => exact ⟨rfl, fun b _ => by simp⟩
  | append_singleton as a ih =>
    obtain ⟨hframe, hthr⟩ := ih (List.Nodup.of_append_left hnodup) (fun b hb => hlane b (by simp [hb]))
      (fun m hm b hb => hf m hm b (by simp [hb]))
    have hfresh : a ∉ as := fun ha => by
      rw [List.nodup_append] at hnodup
      exact hnodup.2.2 a ha a (by simp) rfl
    simp only [List.foldl_append, List.foldl_cons, List.foldl_nil]
    generalize as.foldl (fun l a => l.setThr a (f l a)) l = m at hframe hthr
    refine ⟨?_, fun b hb => ?_⟩
    · rw [hframe]
      rfl
    · by_cases hba : b = a
      · subst hba
        rw [Lot.thr_setThr, if_pos (by simp), hf m hframe b (by simp), hthr b hb, if_neg hfresh]
      · rw [Lot.thr_setThr_other _ _ _ _ (hlane a (by simp)) hb hba, hthr b hb]
        simp [hba]

/-! ### Writing -/

theorem Lot.val_lt (l : Lot) (a : Agent) (r : BitVec 7) : l.val a r 32 < 2 ^ 32 := by
  unfold Lot.val wrapN
  split
  · exact Nat.mod_lt _ (by decide)
  · exact Nat.mod_lt _ (by decide)

/-- An operand reads the registers alone. -/
theorem Lot.val_of_regs {l m : Lot} (hv : m.vregs = l.vregs) (hs : m.sregs = l.sregs) (a : Agent) (r : BitVec 7) (n : Nat) :
    m.val a r n = l.val a r n := by
  have hvreg : m.vreg = l.vreg := by unfold Lot.vreg; rw [hv]
  have hsreg : m.sreg = l.sreg := by unfold Lot.sreg; rw [hs]
  have hregs : ∀ k x, m.regs a x k = l.regs a x k := by
    intro k
    induction k with
    | zero => exact fun _ => rfl
    | succ k ih => exact fun x => by rw [Lot.regs, Lot.regs, ih, hvreg]
  unfold Lot.val
  rw [hregs, hsreg]

/-- The seed of a lane (R102), with the operand's width spelt out. -/
theorem rngSeed_eq (x : Nat) (hx : x < 2 ^ 32) (a : Agent) : rngSeed x a.rngLane =
    (let n := if a.isBarker then 32 else a.l
     let z := x ^^^ (0x9E3779B9 * (n + 1) % 2 ^ 32)
     if z = 0 then 1 else BitVec.ofNat 32 z) := by
  unfold rngSeed Agent.rngLane wrapN
  rw [Nat.mod_eq_of_lt hx]

theorem execSwr_fstat {s : State} {v : View} {p : BitVec 3} {d : BitVec 7} (h : s.runs v p true true [use1 d]) :
    ∃ t l', execSwr p d .fstat s = .next t ∧ t = s.setLot v.i.core v.i.bctx l' ∧ l' = { v.l with warps := l'.warps }
      ∧ ∀ a, v.parts = [a] → (l'.warp a.w).fstat.toNat = v.l.val a d 32 % 256 := by
  refine ⟨_, _, State.each_runs h _, rfl, ?_, fun a ha => ?_⟩
  · have hframe : ∀ (as : List Agent) (l : Lot), as.foldl (fun l a => l.setWarp a.w { l.warp a.w with fstat := BitVec.ofNat 8 (l.val a d 32) }) l
        = { l with warps := (as.foldl (fun l a => l.setWarp a.w { l.warp a.w with fstat := BitVec.ofNat 8 (l.val a d 32) }) l).warps } := by
      intro as
      induction as with
      | nil => exact fun _ => rfl
      | cons a as ih =>
        intro l
        rw [List.foldl_cons, ih]
        rfl
    exact hframe _ _
  · simp [ha]

theorem execSwr_rseed {s : State} {v : View} {p : BitVec 3} {d : BitVec 7} (h : s.runs v p true true [use1 d]) :
    ∃ t l', execSwr p d .rseed s = .next t ∧ t = s.setLot v.i.core v.i.bctx l' ∧ l' = { v.l with threads := l'.threads }
      ∧ ∀ a ∈ v.parts, (l'.thr a).rng = rngSeed (v.l.val a d 32) a.rngLane := by
  obtain ⟨hnodup, hparts⟩ := State.runs_parts h
  obtain ⟨hframe, hthr⟩ := Lot.foldl_setThr v.parts (fun l a => { l.thr a with rng := rngSeed (l.val a d 32) a.rngLane })
    (fun a t => { t with rng := rngSeed (v.l.val a d 32) a.rngLane }) v.l hnodup (fun a ha => (hparts a ha).2)
    (fun m hm a _ => by
      have hval : m.val a d 32 = v.l.val a d 32 := Lot.val_of_regs (by rw [hm]) (by rw [hm]) a d 32
      rw [hval])
  refine ⟨_, _, State.each_runs h _, rfl, hframe, fun a ha => ?_⟩
  have := hthr a (hparts a ha).2
  rw [if_pos ha] at this
  exact congrArg Thread.rng this

theorem execSwr_dsm {s : State} {v : View} {p : BitVec 3} {d : BitVec 7} (h : s.runs v p true true [use1 d]) :
    execSwr p d .dsm s = .next (s.setLot v.i.core v.i.bctx v.l) := by
  refine (State.each_runs h _).trans ?_
  congr 2
  exact List.foldl_fixed' (fun _ => rfl) _

/-- Settles O17: SRD by the value of the special register, CLOCK and SRD of %clock by the advanced clock, SWR by register. -/
theorem specialRegisters : Obligations.SpecialRegisters := by
  intro s v p d g wide uses failed value
  refine ⟨fun h hc hl => ?_, fun h => ⟨execSrd_clock h, execClock_time h⟩, fun h => ⟨execSwr_fstat h, ?_, execSwr_dsm h⟩⟩
  · have hwide : (if wide then use2 d else use1 d) = if sregWide g then use2 d else use1 d := by cases g <;> simp [wide, sregWide]
    have hwidth : (if wide then 64 else 32) = if sregWide g then 64 else 32 := by cases g <;> simp [wide, sregWide]
    have hbark : (decide (g ≠ .tid) && decide (g ≠ .lane) && decide (g ≠ .warp)) = sregBarker g := by cases g <;> rfl
    simp only [uses, hwide] at h
    rw [hbark] at h
    obtain ⟨t, hexec, hwrote⟩ := execSrd_value h hc hl
    refine ⟨t, hexec, ?_⟩
    have hval : value = fun a => s.sregVal v.i.core v.i.bctx v.l a g := by
      funext a
      have hfail : failed a = s.faddrOf ⟨v.i.core, v.i.bctx, a.w, a.l⟩ := (s.faddrOf_eq _).symm
      have hparam : v.l.d.param.toNat / 2 ^ 64 = v.l.d.param.toNat / 2 ^ 64 % 2 ^ 16 := by
        have := v.l.d.param.isLt
        omega
      cases g with
      | clock => exact absurd rfl hc
      | lotdone => exact absurd rfl hl
      | paramsh => exact hparam
      | _ => simp [value, State.sregVal, hfail, bits, coreInDie, dieOf, State.fact, Nat.mul_comm]
    rw [hwidth, hval]
    exact hwrote
  · obtain ⟨t, l', hexec, ht, hl', hrng⟩ := execSwr_rseed h
    exact ⟨t, l', hexec, ht, hl', fun a ha => (hrng a ha).trans (rngSeed_eq _ (v.l.val_lt a d) a)⟩

end Sys2Proof.Machine
end

section
/-! Laws of fault records (11_faults.md R281 to R283): what writing one changes, and that it is recorded. -/

namespace Sys2Proof.Machine

/-- The state but for what a fault record changes: registers, memory, the booths' queues, the contexts' record numbers and the
messages to the outside. -/
def State.offRecord (s : State) : State :=
  { s with dev := [], m := MemS.reset, e := { s.e with booths := [] }, w := { s.w with ctxs := [] }, p := { s.p with out := [] } }

theorem State.bankServed_offRecord (s : State) (pa : Nat) (w : Waiter) : (s.bankServed pa w).offRecord = s.offRecord := by
  unfold State.bankServed
  split
  · dsimp only
    split <;> rfl
  · rfl

theorem State.bankWait_offRecord (s : State) (pa : Nat) (w : Waiter) : (s.bankWait pa w).offRecord = s.offRecord := by
  unfold State.bankWait
  split
  · dsimp only
    split <;> rfl
  · rfl

theorem State.setHomeBytes_offRecord (s : State) (pa : Nat) (bs : List Byte) : (s.setHomeBytes pa bs).offRecord = s.offRecord := by
  rw [State.setHomeBytes_frame]
  rfl

/-- What the writing of a record comes to: it is dropped and counted, or it stands in memory, with an interrupt where one is
enabled. -/
theorem State.putRec_cases (s : State) (ctx : Nat) (r : FRec) :
    ∃ x : CtxS, x.seq = (s.ctxS ctx).seq + 1 ∧ x.areas = (s.ctxS ctx).areas
      ∧ (s.putRec ctx r = (s.bumpReg (ctxReg ctx 0x18) 15 0 1).setCtxS ctx x
        ∨ ∃ a bs v, s.putRec ctx r = ((s.setHomeBytes a bs).setRegF (ctxReg ctx 0x10) 31 0 v).setCtxS ctx x
          ∨ ∃ m, s.putRec ctx r = (((s.setHomeBytes a bs).setRegF (ctxReg ctx 0x10) 31 0 v).setCtxS ctx x).send m) := by
  unfold State.putRec
  dsimp only
  rcases em (s.regF (ctxReg ctx 0x00) 0 0 = 0
    ∨ (s.regF (ctxReg ctx 0x10) 31 0 + 64) % s.frqSize ctx = s.regF (ctxReg ctx 0x08) 31 0) with h | h
  · exact ⟨{ s.ctxS ctx with seq := (s.ctxS ctx).seq + 1, lost := true }, rfl, rfl, .inl (if_pos h)⟩
  · refine ⟨{ s.ctxS ctx with seq := (s.ctxS ctx).seq + 1, lost := false }, rfl, rfl, .inr ?_⟩
    rw [if_neg h]
    exact (ite_eq_or_eq _ _ _).elim (fun e => ⟨_, _, _, .inr ⟨_, e⟩⟩) (fun e => ⟨_, _, _, .inl e⟩)

theorem State.putRec_offRecord (s : State) (ctx : Nat) (r : FRec) : (s.putRec ctx r).offRecord = s.offRecord := by
  obtain ⟨x, -, -, h | ⟨a, bs, v, h | ⟨m, h⟩⟩⟩ := s.putRec_cases ctx r
  · rw [h]
    rfl
  all_goals
    rw [h]
    exact State.setHomeBytes_offRecord ..

theorem State.recordNow_offRecord (s : State) (ctx : Nat) (r : FRec) : (s.recordNow ctx r).offRecord = s.offRecord :=
  (State.bankServed_offRecord ..).trans (State.putRec_offRecord ..)

theorem State.writeRec_offRecord (s : State) (ctx : Nat) (r : FRec) : (s.writeRec ctx r).offRecord = s.offRecord := by
  unfold State.writeRec
  split
  · exact State.recordNow_offRecord ..
  · exact State.bankWait_offRecord ..

theorem State.active_of_offRecord {s t : State} (h : t.offRecord = s.offRecord) : t.active = s.active := by injection h
theorem State.running_of_offRecord {s t : State} (h : t.offRecord = s.offRecord) : t.running = s.running := by injection h
theorem State.cores_of_offRecord {s t : State} (h : t.offRecord = s.offRecord) : t.cores = s.cores := by injection h
theorem State.lots_of_offRecord {s t : State} (h : t.offRecord = s.offRecord) : t.lots = s.lots := by injection h
theorem State.accs_of_offRecord {s t : State} (h : t.offRecord = s.offRecord) : t.accs = s.accs := by injection h
theorem State.w_of_offRecord {s t : State} (h : t.offRecord = s.offRecord) : t.w = { s.w with ctxs := t.w.ctxs } := by
  have hw : t.offRecord.w = s.offRecord.w := by rw [h]
  calc t.w = { t.offRecord.w with ctxs := t.w.ctxs } := rfl
    _ = { s.w with ctxs := t.w.ctxs } := by rw [hw]; rfl

@[simp] theorem State.writeRec_active (s : State) (ctx : Nat) (r : FRec) : (s.writeRec ctx r).active = s.active :=
  State.active_of_offRecord (s.writeRec_offRecord ctx r)
@[simp] theorem State.writeRec_running (s : State) (ctx : Nat) (r : FRec) : (s.writeRec ctx r).running = s.running :=
  State.running_of_offRecord (s.writeRec_offRecord ctx r)
@[simp] theorem State.writeRec_cores (s : State) (ctx : Nat) (r : FRec) : (s.writeRec ctx r).cores = s.cores :=
  State.cores_of_offRecord (s.writeRec_offRecord ctx r)
@[simp] theorem State.writeRec_lots (s : State) (ctx : Nat) (r : FRec) : (s.writeRec ctx r).lots = s.lots :=
  State.lots_of_offRecord (s.writeRec_offRecord ctx r)
@[simp] theorem State.writeRec_accs (s : State) (ctx : Nat) (r : FRec) : (s.writeRec ctx r).accs = s.accs :=
  State.accs_of_offRecord (s.writeRec_offRecord ctx r)
theorem State.writeRec_w (s : State) (ctx : Nat) (r : FRec) : (s.writeRec ctx r).w = { s.w with ctxs := (s.writeRec ctx r).w.ctxs } :=
  State.w_of_offRecord (s.writeRec_offRecord ctx r)
@[simp] theorem State.writeRec_launches (s : State) (ctx : Nat) (r : FRec) : (s.writeRec ctx r).w.launches = s.w.launches := by
  rw [s.writeRec_w]
@[simp] theorem State.writeRec_levels (s : State) (ctx : Nat) (r : FRec) : (s.writeRec ctx r).w.levels = s.w.levels := by
  rw [s.writeRec_w]
@[simp] theorem State.writeRec_queue (s : State) (ctx : Nat) (r : FRec) (q : Nat) : (s.writeRec ctx r).queue q = s.queue q := by
  unfold State.queue
  rw [s.writeRec_w]
@[simp] theorem State.writeRec_counter (s : State) (ctx : Nat) (r : FRec) (c i : Nat) : (s.writeRec ctx r).counter c i = s.counter c i := by
  unfold State.counter
  rw [s.writeRec_w]
@[simp] theorem State.writeRec_lot? (s : State) (ctx : Nat) (r : FRec) (c b : Nat) : (s.writeRec ctx r).lot? c b = s.lot? c b :=
  State.lot?_of_lots (s.writeRec_lots ctx r) c b
@[simp] theorem State.writeRec_core (s : State) (ctx : Nat) (r : FRec) (c : Nat) : (s.writeRec ctx r).core c = s.core c :=
  State.core_of_cores (s.writeRec_cores ctx r) c
@[simp] theorem State.writeRec_issuer? (s : State) (ctx : Nat) (r : FRec) (u : Nat) : (s.writeRec ctx r).issuer? u = s.issuer? u :=
  State.issuer?_of_running (s.writeRec_running ctx r) u
@[simp] theorem State.writeRec_launch? (s : State) (ctx : Nat) (r : FRec) (i : Nat) : (s.writeRec ctx r).launch? i = s.launch? i := by
  unfold State.launch?
  rw [s.writeRec_launches]
@[simp] theorem State.writeRec_level? (s : State) (ctx : Nat) (r : FRec) (i : Nat) : (s.writeRec ctx r).level? i = s.level? i := by
  unfold State.level?
  rw [s.writeRec_levels]

/-! ### Registers -/

@[simp] theorem State.bankServed_dev (s : State) (pa : Nat) (w : Waiter) : (s.bankServed pa w).dev = s.dev := by
  unfold State.bankServed
  split
  · dsimp only
    split <;> rfl
  · rfl

@[simp] theorem State.bankWait_dev (s : State) (pa : Nat) (w : Waiter) : (s.bankWait pa w).dev = s.dev := by
  unfold State.bankWait
  split
  · dsimp only
    split <;> rfl
  · rfl

@[simp] theorem State.setHomeBytes_dev (s : State) (pa : Nat) (bs : List Byte) : (s.setHomeBytes pa bs).dev = s.dev := by
  rw [State.setHomeBytes_frame]

@[simp] theorem State.reg_setCtxS (s : State) (c : Nat) (x : CtxS) (pa : Nat) : (s.setCtxS c x).reg pa = s.reg pa := rfl
@[simp] theorem State.reg_send (s : State) (x : OutMsg) (pa : Nat) : (s.send x).reg pa = s.reg pa := rfl
theorem State.reg_setHomeBytes (s : State) (a : Nat) (bs : List Byte) (pa : Nat) : (s.setHomeBytes a bs).reg pa = s.reg pa :=
  State.reg_of_dev (s.setHomeBytes_dev a bs) pa

theorem State.reg_putRec (s : State) (ctx : Nat) (r : FRec) {pa : Nat} (htail : pa ≠ ctxReg ctx 0x10) (hdrop : pa ≠ ctxReg ctx 0x18) :
    (s.putRec ctx r).reg pa = s.reg pa := by
  obtain ⟨x, -, -, h | ⟨a, bs, v, h | ⟨m, h⟩⟩⟩ := s.putRec_cases ctx r
  · rw [h]
    exact State.reg_setRegF_other _ _ _ _ _ _ hdrop
  · rw [h, State.reg_setCtxS, State.reg_setRegF_other _ _ _ _ _ _ htail, State.reg_setHomeBytes]
  · rw [h, State.reg_send, State.reg_setCtxS, State.reg_setRegF_other _ _ _ _ _ _ htail, State.reg_setHomeBytes]

/-- A record changes two registers of its context, FRQTAIL and the count of lost records, and no other. -/
theorem State.reg_writeRec (s : State) (ctx : Nat) (r : FRec) {pa : Nat} (htail : pa ≠ ctxReg ctx 0x10) (hdrop : pa ≠ ctxReg ctx 0x18) :
    (s.writeRec ctx r).reg pa = s.reg pa := by
  unfold State.writeRec
  split
  · unfold State.recordNow
    rw [State.reg_of_dev (State.bankServed_dev ..), State.reg_putRec _ _ _ htail hdrop]
  · rw [State.reg_of_dev (State.bankWait_dev ..)]
    rfl

theorem State.reg_writeRec_queueReg (s : State) (ctx : Nat) (r : FRec) {q off : Nat} (hq : q < 64) (hoff : off < 0x40) :
    (s.writeRec ctx r).reg (queueReg q off) = s.reg (queueReg q off) :=
  State.reg_writeRec s ctx r (by unfold ctxReg queueReg; omega) (by unfold ctxReg queueReg; omega)

/-! ### The record is made -/

theorem State.setHomeBytes_recs (s : State) (pa : Nat) (bs : List Byte) : (s.setHomeBytes pa bs).m.recs = s.m.recs := by
  rw [State.setHomeBytes_frame]

theorem State.bankServed_m (s : State) (pa : Nat) (w : Waiter) : (s.bankServed pa w).m = s.m := by
  unfold State.bankServed
  split
  · dsimp only
    split <;> rfl
  · rfl

theorem State.bankServed_w (s : State) (pa : Nat) (w : Waiter) : (s.bankServed pa w).w = s.w := by
  unfold State.bankServed
  split
  · dsimp only
    split <;> rfl
  · rfl

theorem State.bankWait_m (s : State) (pa : Nat) (w : Waiter) : (s.bankWait pa w).m = s.m := by
  unfold State.bankWait
  split
  · dsimp only
    split <;> rfl
  · rfl

theorem State.ctxS_of_w {s t : State} (h : t.w = s.w) (c : Nat) : t.ctxS c = s.ctxS c := by
  unfold State.ctxS
  rw [h]

@[simp] theorem State.ctxS_send (s : State) (x : OutMsg) (c : Nat) : (s.send x).ctxS c = s.ctxS c := rfl

theorem State.putRec_ctxS (s : State) (ctx : Nat) (r : FRec) : ((s.putRec ctx r).ctxS ctx).seq = (s.ctxS ctx).seq + 1
    ∧ ((s.putRec ctx r).ctxS ctx).areas = (s.ctxS ctx).areas ∧ (s.putRec ctx r).m.recs = s.m.recs := by
  obtain ⟨x, hseq, hareas, h | ⟨a, bs, v, h | ⟨m, h⟩⟩⟩ := s.putRec_cases ctx r
  · rw [h, State.ctxS_setCtxS]
    exact ⟨hseq, hareas, rfl⟩
  · rw [h, State.ctxS_setCtxS]
    exact ⟨hseq, hareas, State.setHomeBytes_recs ..⟩
  · rw [h, State.ctxS_send, State.ctxS_setCtxS]
    exact ⟨hseq, hareas, State.setHomeBytes_recs ..⟩

theorem State.ctxS_setCtxS_other (s : State) (c : Nat) (x : CtxS) {d : Nat} (h : d ≠ c) : (s.setCtxS c x).ctxS d = s.ctxS d :=
  Tbl.get_put_other _ _ _ _ _ h

theorem State.ctxS_setHomeBytes (s : State) (pa : Nat) (bs : List Byte) (c : Nat) : (s.setHomeBytes pa bs).ctxS c = s.ctxS c := by
  rw [State.setHomeBytes_frame]
  rfl

@[simp] theorem State.ctxS_setRegF (s : State) (pa hi lo v c : Nat) : (s.setRegF pa hi lo v).ctxS c = s.ctxS c := rfl

/-- A record leaves the other contexts' numbers and areas as they are. -/
theorem State.putRec_ctxS_other (s : State) (ctx : Nat) (r : FRec) {c : Nat} (h : c ≠ ctx) : (s.putRec ctx r).ctxS c = s.ctxS c := by
  obtain ⟨x, -, -, e | ⟨a, bs, v, e | ⟨m, e⟩⟩⟩ := s.putRec_cases ctx r
  · rw [e, State.ctxS_setCtxS_other _ _ _ h]
    rfl
  · rw [e, State.ctxS_setCtxS_other _ _ _ h, State.ctxS_setRegF, State.ctxS_setHomeBytes]
  · rw [e, State.ctxS_send, State.ctxS_setCtxS_other _ _ _ h, State.ctxS_setRegF, State.ctxS_setHomeBytes]

theorem State.bankWait_w (s : State) (pa : Nat) (w : Waiter) : (s.bankWait pa w).w = s.w := by
  unfold State.bankWait
  split
  · dsimp only
    split <;> rfl
  · rfl

/-- A record leaves the save areas in use as they are. -/
@[simp] theorem State.areas_writeRec (s : State) (ctx : Nat) (r : FRec) (c : Nat) :
    ((s.writeRec ctx r).ctxS c).areas = (s.ctxS c).areas := by
  unfold State.writeRec
  split
  · unfold State.recordNow
    rw [State.ctxS_of_w (State.bankServed_w ..)]
    rcases eq_or_ne c ctx with rfl | h
    · exact (s.putRec_ctxS c r).2.1
    · rw [s.putRec_ctxS_other ctx r h]
  · rw [State.ctxS_of_w (State.bankWait_w ..)]
    rfl

/-- A record is written under its context's next number, or waits behind the others. -/
theorem State.writeRec_recorded (s : State) (ctx : Nat) (r : FRec) : s.recorded (s.writeRec ctx r) ctx := by
  unfold State.recorded State.writeRec
  split
  · obtain ⟨hseq, -, hrecs⟩ := s.putRec_ctxS ctx r
    unfold State.recordNow
    rw [State.ctxS_of_w (State.bankServed_w ..), State.bankServed_m]
    exact .inl ⟨hseq, hrecs⟩
  · rw [State.bankWait_m]
    exact .inr ⟨r, rfl⟩

/-- What is recorded stays so in a state with the same record numbers and the same records waiting, from one that had them. -/
theorem State.recorded_of_same {s s' t t' : State} {ctx : Nat} (h : s.recorded t ctx) (hs : (s'.ctxS ctx).seq = (s.ctxS ctx).seq)
    (hsr : s'.m.recs = s.m.recs) (ht : (t'.ctxS ctx).seq = (t.ctxS ctx).seq) (htr : t'.m.recs = t.m.recs) : s'.recorded t' ctx := by
  unfold State.recorded at h ⊢
  rw [hs, hsr, ht, htr]
  exact h

end Sys2Proof.Machine
end

section
/-! Laws of the packets of a command queue (02_work.md R53 to R57): what the event of a packet answers, and how the queue goes on. -/

namespace Sys2Proof.Machine

/-! ### Where a queue stands -/

theorem State.qRuns_of_cpPick {s : State} {cp q : Nat} (h : s.cpPick cp = some q) : s.qRuns q = true := by
  unfold State.cpPick at h
  dsimp only at h
  split at h
  · simp at h
  · have := List.find?_some h
    simp only [Bool.and_eq_true] at this
    exact this.1

theorem State.not_blocked_of_cpPick {s : State} {cp q : Nat} (h : s.cpPick cp = some q) : (s.queue q).blocked = .no := by
  have := State.qRuns_of_cpPick h
  simp only [State.qRuns, Bool.and_eq_true, beq_iff_eq] at this
  exact this.1.2

theorem Queue.buffer_of_no_frames {x : Queue} (h : x.frames = []) : x.buffer = Option.none := by
  unfold Queue.buffer
  rw [h]
  rfl

theorem State.qPos_of_no_frames {s : State} {q : Nat} (h : (s.queue q).frames = []) : s.qPos q = s.qHead q := by
  unfold State.qPos
  rw [Queue.buffer_of_no_frames h]

theorem State.qFits_of_no_frames {s : State} {q : Nat} (h : (s.queue q).frames = []) (n : Nat) (e : Bool) : s.qFits q n e = true := by
  unfold State.qFits State.qBufLeft State.qLoopsLeft
  rw [Queue.buffer_of_no_frames h, h]
  rfl

/-- In the ring HEAD moves on. -/
theorem State.qAdvance_of_no_frames {s : State} {q : Nat} (h : (s.queue q).frames = []) (n fuel : Nat) :
    s.qAdvance q n (fuel + 1) = s.headPast q n := by
  unfold State.qAdvance
  dsimp only
  rw [h]
  rfl

theorem State.qDone_of_no_frames {s : State} {q : Nat} (h : (s.queue q).frames = []) (p : Pkt) : s.qDone q p = s.headPast q p.bytes :=
  State.qAdvance_of_no_frames h p.bytes 4

@[simp] theorem State.queue_setReg (s : State) (pa : Nat) (v : Word64) (q : Nat) : (s.setReg pa v).queue q = s.queue q := rfl
@[simp] theorem State.queue_setRegF (s : State) (pa hi lo v q : Nat) : (s.setRegF pa hi lo v).queue q = s.queue q := rfl
@[simp] theorem State.queue_headPast (s : State) (k n q : Nat) : (s.headPast k n).queue q = s.queue q := rfl
@[simp] theorem State.queue_setCounter (s : State) (c i : Nat) (v : Word64) (q : Nat) : (s.setCounter c i v).queue q = s.queue q := rfl
@[simp] theorem State.queue_send (s : State) (x : OutMsg) (q : Nat) : (s.send x).queue q = s.queue q := rfl
@[simp] theorem State.queue_cpServed (s : State) (k q : Nat) : (s.cpServed k).queue q = s.queue q := rfl
@[simp] theorem State.reg_cpServed (s : State) (k pa : Nat) : (s.cpServed k).reg pa = s.reg pa := rfl
@[simp] theorem State.reg_setQueue (s : State) (k : Nat) (x : Queue) (pa : Nat) : (s.setQueue k x).reg pa = s.reg pa := rfl

theorem State.frames_setBlocked (s : State) (q : Nat) (b : Blocked) : ((s.setBlocked q b).queue q).frames = (s.queue q).frames := by
  unfold State.setBlocked
  rw [State.queue_setQueue]

theorem State.qHead_setQueue (s : State) (k : Nat) (x : Queue) (q : Nat) : (s.setQueue k x).qHead q = s.qHead q := rfl
theorem State.ringSize_setQueue (s : State) (k : Nat) (x : Queue) (q : Nat) : (s.setQueue k x).ringSize q = s.ringSize q := rfl

theorem State.reg_headPast (s : State) (q n : Nat) :
    (s.headPast q n).reg (queueReg q 0x10) = BitVec.ofNat 64 ((s.qHead q + n) % s.ringSize q) := State.reg_setReg ..

/-! ### The event of a packet -/

/-- The packet that a command processor is about to run, by its OP: its effect answers the event. -/
theorem State.packet_at {s t0 : State} {q op : Nat} {p : Pkt} {fs : List Frame} (h : s.atPacket q p t0 fs) (hop : p.op = op)
    (f : Pkt → State → Except State State) :
    s.packet q op f = match f p t0 with
      | .ok t => .next (t.cpServed q)
      | .error t => .next t := by
  obtain ⟨hq, hpick, hread, -⟩ := h
  have hguard : (decide (64 ≤ q) || s.cpPick (q / 16) != some q) = false := by
    rw [hpick]
    simp [hq]
  unfold State.packet
  rw [hguard, hread]
  simp only [Bool.false_eq_true, if_false, hop, bne_self_eq_false] <;> rfl

theorem State.packet_ok {s t0 t : State} {q op : Nat} {p : Pkt} {fs : List Frame} (h : s.atPacket q p t0 fs) (hop : p.op = op)
    {f : Pkt → State → Except State State} (hf : f p t0 = .ok t) : s.packet q op f = .next (t.cpServed q) := by
  rw [State.packet_at h hop, hf]

/-! ### Launches -/

/-- A launch with lots is accepted: it joins the launches under a number of its own, and registers, queues and lots are as before. -/
theorem State.accept_of_lots (s : State) (x : Launch) (h : x.total ≠ 0) :
    ∃ id, (s.accept x).1 = id ∧ { x with id := id, seq := id } ∈ (s.accept x).2.w.launches
      ∧ (s.accept x).2.dev = s.dev ∧ (s.accept x).2.w.queues = s.w.queues ∧ (s.accept x).2.lots = s.lots
      ∧ (s.accept x).2.w.childReqs = s.w.childReqs
      ∧ (s.accept x).2.w.device = (if x.device then Tbl.put 0 s.w.device x.ctx (Tbl.get 0 s.w.device x.ctx + 1) else s.w.device) := by
  unfold State.accept
  dsimp only
  rw [if_neg h]
  exact ⟨_, rfl, by simp, rfl, rfl, rfl, rfl, rfl⟩

theorem State.qHead_of_reg {s t : State} {q : Nat} (h : t.dev = s.dev) : t.qHead q = s.qHead q := by
  unfold State.qHead State.ringSize State.regF
  rw [State.reg_of_dev h, State.reg_of_dev h]

theorem State.ringSize_of_reg {s t : State} {q : Nat} (h : t.dev = s.dev) : t.ringSize q = s.ringSize q := by
  unfold State.ringSize State.regF
  rw [State.reg_of_dev h]

/-- A launch of a queue in its ring is accepted, and HEAD moves behind its packet. -/
theorem State.qLaunch_accepted {t1 : State} {q : Nat} {p : Pkt} {d : Desc} (hframes : (t1.queue q).frames = [])
    (hlots : 0 < d.gx * d.gy * d.gz) :
    ∃ y, y ∈ (((t1.qLaunch q d).qDone q p).cpServed q).w.launches ∧ y.d = d ∧ y.queue = q ∧ y.ctx = t1.regF (queueReg q 0) 19 8
      ∧ y.prio = t1.regF (queueReg q 0) 2 1 ∧ y.parentLevel = (t1.queue q).level ∧ y.offered = false ∧ y.total = d.gx * d.gy * d.gz
      ∧ ((((t1.qLaunch q d).qDone q p).cpServed q).queue q).lastLaunch = some y.id
      ∧ (((t1.qLaunch q d).qDone q p).cpServed q).reg (queueReg q 0x10) = BitVec.ofNat 64 ((t1.qHead q + p.bytes) % t1.ringSize q) := by
  let x := d.launch (t1.qCtx q) q (t1.qPrio q) (t1.queue q).level none false
  obtain ⟨id, hid, hmem, hdev, -⟩ := t1.accept_of_lots x (by show d.gx * d.gy * d.gz ≠ 0; omega)
  have hl : t1.qLaunch q d = (t1.accept x).2.setQueue q { t1.queue q with lastLaunch := some id } := by rw [← hid]; rfl
  have hdone : (t1.qLaunch q d).qDone q p = (t1.qLaunch q d).headPast q p.bytes :=
    State.qDone_of_no_frames (by rw [hl, State.queue_setQueue]; exact hframes) p
  refine ⟨{ x with id := id, seq := id }, ?_, rfl, rfl, rfl, rfl, rfl, rfl, rfl, ?_, ?_⟩
  · rw [hdone, hl]
    exact hmem
  · rw [hdone, State.queue_cpServed, State.queue_headPast, hl, State.queue_setQueue]
  · rw [hdone, State.reg_cpServed, State.reg_headPast, hl, State.qHead_setQueue, State.ringSize_setQueue, State.qHead_of_reg hdev,
      State.ringSize_of_reg hdev]

theorem execPacketLaunch_accepted {s t0 t1 : State} {q va : Nat} {p : Pkt} {d : Desc} (h : s.atPacket q p t0 []) (hop : p.op = 1)
    (hva : p.va 0 = some va)
    (hdesc : t0.readDesc (.cp (q / 16)) (t0.qCtx q) (BitVec.ofNat 80 va) none = (.ok d, t1)) :
    exec (.packetLaunch q) s = .next (((t1.qLaunch q d).qDone q p).cpServed q) := by
  refine State.packet_ok h hop ?_
  simp only [hva, hdesc]

theorem execPacketLaunchind_accepted {s t0 t1 t2 : State} {q va gv x y z : Nat} {r : EngRes} {p : Pkt} {d : Desc}
    (h : s.atPacket q p t0 []) (hop : p.op = 2) (hva : p.va 0 = some va) (hgv : p.va 3 = some gv) (hal : gv % 4 = 0)
    (hgrid : t0.gridWords (.cp (q / 16)) (t0.qCtx q) gv = (some [x, y, z], r, t1)) (hxyz : x * y * z ≤ 2 ^ 31)
    (hdesc : t1.readDesc (.cp (q / 16)) (t1.qCtx q) (BitVec.ofNat 80 va) (some (x, y, z)) = (.ok d, t2)) :
    exec (.packetLaunchind q) s = .next (((t2.qLaunch q d).qDone q p).cpServed q) := by
  refine State.packet_ok h hop ?_
  have hle : ¬ 2 ^ 31 < x * y * z := by omega
  simp [hva, hgv, hal, hgrid, hdesc]
  omega

/-! ### Wake bits -/

theorem State.deliver_queue {s : State} {ctx t : Nat} {v : Word} (ht : t < 64) (hctx : s.regF (queueReg t 0) 19 8 = ctx)
    (hen : s.regF (queueReg t 0) 0 0 = 1) (who : WakeEntry) :
    s.deliver ctx v t who = (true, s.setRegF (queueReg t 0x20) 31 0 (s.regF (queueReg t 0x20) 31 0 ||| v.toNat)) := by
  have hbit : bit t 6 = false := by
    unfold bit
    rw [decide_eq_false_iff_not]
    omega
  have hq : bits t 5 0 = t := by
    unfold bits
    omega
  unfold State.deliver
  simp [hbit, hq, hctx, hen]

theorem State.evalWake_wakes {t0 : State} {q : Nat} {p : Pkt} (hframes : (t0.queue q).frames = [])
    (h : t0.regF (queueReg q 0x20) 31 0 &&& p.w 0 ≠ 0) :
    t0.evalWake q p =
      ((t0.setRegF (queueReg q 0x20) 31 0 (andNot (t0.regF (queueReg q 0x20) 31 0) (p.w 0))).setBlocked q .no).headPast q p.bytes := by
  unfold State.evalWake
  dsimp only
  rw [if_neg h]
  refine State.qDone_of_no_frames ?_ p
  rw [State.frames_setBlocked, State.queue_setRegF]
  exact hframes

theorem execPacketWaitwake_at {s t0 : State} {q : Nat} {p : Pkt} (h : s.atPacket q p t0 []) (hop : p.op = 0x0C) :
    exec (.packetWaitwake q) s = .next ((t0.evalWake q p).cpServed q) := by
  have hblocked := State.not_blocked_of_cpPick h.2.1
  show execPacketWaitwake q s = _
  unfold execPacketWaitwake
  rw [hblocked, if_neg (by decide)]
  exact State.packet_ok h hop rfl

end Sys2Proof.Machine
end

section
/-! Packets that wait, signal, branch, loop, call buffers and mark levels (02_work.md R54, R55, R57 to R59). -/

namespace Sys2Proof.Machine

/-! ### Conditions -/

/-- A comparison by COND (R54): at least, equal, or not equal. -/
def condHolds (c v x : Nat) : Bool :=
  if bits c 17 16 = 0 then decide (v ≤ x) else if bits c 17 16 = 1 then x == v else x != v

/-- The condition word of a packet has no reserved bit set and a known COND. -/
def condWord (c : Nat) : Prop := bits c 15 10 = 0 ∧ bits c 31 18 = 0 ∧ bits c 17 16 ≠ 3

theorem condWord.accepted {c : Nat} (h : condWord c) :
    (bits c 15 10 != 0 || bits c 31 18 != 0 || decide (bits c 17 16 = 3)) = false := by
  obtain ⟨h1, h2, h3⟩ := h
  simp [h1, h2, h3]

/-- The match on COND that the model makes is the comparison by COND. -/
theorem condHolds_eq (c v x : Nat) : (match bits c 17 16 with
    | 0 => CondRes.holds (decide (v ≤ x))
    | 1 => .holds (x == v)
    | _ => .holds (x != v)) = .holds (condHolds c v x) := by
  unfold condHolds
  split
  · next h => rw [if_pos h]
  · next h => rw [if_neg (by omega), if_pos h]
  · next h0 h1 => rw [if_neg h0, if_neg h1]

theorem State.condition_counter {t : State} {q k : Nat} {p : Pkt} (hflags : p.flags = 0) (hc : condWord (p.w 0)) :
    t.condition q p k = (.holds (condHolds (p.w 0) (p.w 1 + p.w 2 * 2 ^ 32) (t.counter (t.qCtx q) (bits (p.w 0) 9 0)).toNat), t) := by
  unfold State.condition
  dsimp only
  rw [if_neg (by rw [hc.accepted]; decide), hflags, if_pos (by decide)]
  exact Prod.ext (condHolds_eq _ _ _) rfl

theorem State.condition_word {t t1 : State} {q k va x : Nat} {p : Pkt} (hflags : p.flags = 1) (hc : condWord (p.w 0))
    (hva : p.va k = some va) (hal : va % 8 = 0) (hread : t.cpRead (.cp (q / 16)) (t.qCtx q) va 8 = (.ok x, t1)) :
    t.condition q p k = (.holds (condHolds (p.w 0) (p.w 1 + p.w 2 * 2 ^ 32) x), t1) := by
  unfold State.condition
  dsimp only
  rw [if_neg (by rw [hc.accepted]; decide), hflags, if_neg (by decide), hva]
  dsimp only
  rw [if_neg (by rw [hal]; decide), hread]
  exact Prod.ext (condHolds_eq _ _ _) rfl

theorem State.evalWait_holds {t t1 : State} {q : Nat} {p : Pkt} (h : t.condition q p 3 = (.holds true, t1))
    (hframes : (t1.queue q).frames = []) : t.evalWait q p = .ok ((t1.setBlocked q .no).headPast q p.bytes) := by
  unfold State.evalWait
  rw [h]
  exact congrArg _ (State.qDone_of_no_frames ((State.frames_setBlocked ..).trans hframes) p)

theorem State.evalWait_blocks {t t1 : State} {q : Nat} {p : Pkt} (h : t.condition q p 3 = (.holds false, t1)) :
    t.evalWait q p = .ok (t1.setBlocked q .wait) := by
  unfold State.evalWait
  rw [h]

/-! ### WAIT, IF and SIGNAL -/

theorem execPacketWait_at {s t0 t : State} {q : Nat} {p : Pkt} (h : s.atPacket q p t0 []) (hop : p.op = 3)
    (hf : t0.evalWait q p = .ok t) : exec (.packetWait q) s = .next (t.cpServed q) := by
  have hblocked := State.not_blocked_of_cpPick h.2.1
  show execPacketWait q s = _
  unfold execPacketWait
  rw [hblocked, if_neg (by decide)]
  exact State.packet_ok h hop hf

theorem execWaitWordReread_at {s t0 t : State} {q : Nat} {p : Pkt} (hq : q < 64) (hblocked : (s.queue q).blocked = .wait)
    (hread : s.readPkt q = (.ok p, t0)) (hop : p.op = 3) (hflags : p.flags = 1) (hf : t0.evalWait q p = .ok t) :
    exec (.waitWordReread q) s =
      .next (if (t.queue q).blocked = .wait then t else t.endTransfers (.cp (q / 16))) := by
  show Host.Outcome.next (s.reWait q true) = _
  have hbit : bit 1 0 = true := by decide
  have hguard : (decide (64 ≤ q) || (s.queue q).blocked != .wait) = false := by rw [hblocked]; simpa using hq
  unfold State.reWait
  rw [if_neg (by rw [hguard]; decide), hread]
  dsimp only
  rw [if_pos (by rw [hop, hflags, hbit]; rfl), hf]

theorem execPacketIf_holds {s t0 : State} {q : Nat} {p : Pkt} (h : s.atPacket q p t0 []) (hop : p.op = 7)
    (hc : t0.condition q p 3 = (.holds true, t0)) : exec (.packetIf q) s = .next ((t0.headPast q p.bytes).cpServed q) := by
  refine State.packet_ok h hop ?_
  simp only [hc]
  exact congrArg _ (State.qDone_of_no_frames h.2.2.2 p)

/-- Outside loops and buffers every skip by words keeps to packet boundaries. -/
theorem execPacketIf_skips {s t0 : State} {q : Nat} {p : Pkt} (h : s.atPacket q p t0 []) (hop : p.op = 7) (hflags : p.flags = 0)
    (hal : p.w 3 % 4 = 0) (hc : t0.condition q p 3 = (.holds false, t0)) :
    exec (.packetIf q) s = .next ((t0.headPast q (p.bytes + p.w 3)).cpServed q) := by
  refine State.packet_ok h hop ?_
  have hbit : bit 0 0 = false := by decide
  simp only [hc, hflags, hbit, Bool.false_eq_true, if_false]
  rw [State.qFits_of_no_frames h.2.2.2, hal, if_neg (by decide)]
  exact congrArg _ (State.qAdvance_of_no_frames h.2.2.2 _ _)

/-- A SIGNAL to a counter sets it or adds to it, and sends its interrupt where the packet asks for one. -/
theorem execPacketSignal_counter {s t0 : State} {q : Nat} {p : Pkt} (h : s.atPacket q p t0 []) (hop : p.op = 4)
    (hflags : p.flags = 0 ∨ p.flags = 2) (hr : bits (p.w 0) 15 10 = 0) (hr' : bits (p.w 0) 23 17 = 0) :
    let v := p.w 1 + p.w 2 * 2 ^ 32
    let t1 := t0.setCounter (t0.qCtx q) (bits (p.w 0) 9 0)
      (if bit (p.w 0) 16 then t0.counter (t0.qCtx q) (bits (p.w 0) 9 0) + BitVec.ofNat 64 v else BitVec.ofNat 64 v)
    exec (.packetSignal q) s =
      .next (((if p.flags = 2 then t1.send (.msix (bits (p.w 0) 31 24)) else t1).headPast q p.bytes).cpServed q) := by
  intro v t1
  have hmem : bit p.flags 0 = false := by rcases hflags with e | e <;> rw [e] <;> decide
  have hmsix : bit p.flags 1 = decide (p.flags = 2) := by rcases hflags with e | e <;> rw [e] <;> decide
  refine State.packet_ok h hop ?_
  simp only [hr, hr', hmem, hmsix, bne_self_eq_false, Bool.or_self, Bool.false_eq_true, if_false, Bool.not_false, if_true,
    decide_eq_true_eq]
  refine congrArg _ (State.qDone_of_no_frames ?_ p)
  split
  · exact h.2.2.2
  · exact h.2.2.2

theorem execPacketSignal_memory {s t0 t1 : State} {q va w : Nat} {p : Pkt} (h : s.atPacket q p t0 []) (hop : p.op = 4)
    (hflags : p.flags = 1) (hr : bits (p.w 0) 15 10 = 0) (hr' : bits (p.w 0) 23 17 = 0) (hva : p.va 3 = some va)
    (hdo : t0.signalMem q va (p.w 1 + p.w 2 * 2 ^ 32) (bit (p.w 0) 16) = (.ok w, t1)) (hframes : (t1.queue q).frames = []) :
    exec (.packetSignal q) s = .next ((t1.headPast q p.bytes).cpServed q) := by
  have hmem : bit 1 0 = true := by decide
  have hmsix : bit 1 1 = false := by decide
  refine State.packet_ok h hop ?_
  simp only [hr, hr', hflags, hmem, hmsix, hva, hdo, bne_self_eq_false, Bool.or_self, Bool.false_eq_true, if_false, Bool.not_true]
  exact congrArg _ (State.qDone_of_no_frames hframes p)

/-! ### Loops and buffers -/

theorem execPacketLoop_opens {s t0 : State} {q : Nat} {p : Pkt} (h : s.atPacket q p t0 []) (hop : p.op = 5) (hlen : p.w 1 ≠ 0)
    (hal : p.w 1 % 4 = 0) (hring : p.w 1 < t0.ringSize q) (hcount : p.w 0 ≠ 0) :
    exec (.packetLoop q) s = .next (((t0.headPast q p.bytes).pushFrame q
      (.loop (t0.qHead q + p.bytes) (t0.qHead q + p.bytes + p.w 1) (p.w 0))).cpServed q) := by
  refine State.packet_ok h hop ?_
  have hfew : ¬ 4 ≤ (t0.queue q).frames.length := by rw [h.2.2.2]; decide
  have hfits : ¬ t0.ringSize q ≤ p.w 1 := by omega
  simp only [hfew, hlen, hal, hfits, hcount, if_false, decide_false, bne_self_eq_false, Bool.and_false, Bool.or_self, Bool.false_eq_true]
  rw [State.qDone_of_no_frames h.2.2.2, State.qPos_of_no_frames h.2.2.2]

theorem execPacketLoop_skips {s t0 : State} {q : Nat} {p : Pkt} (h : s.atPacket q p t0 []) (hop : p.op = 5) (hlen : p.w 1 ≠ 0)
    (hal : p.w 1 % 4 = 0) (hring : p.w 1 < t0.ringSize q) (hcount : p.w 0 = 0) :
    exec (.packetLoop q) s = .next ((t0.headPast q (p.bytes + p.w 1)).cpServed q) := by
  refine State.packet_ok h hop ?_
  have hfew : ¬ 4 ≤ (t0.queue q).frames.length := by rw [h.2.2.2]; decide
  have hfits : ¬ t0.ringSize q ≤ p.w 1 := by omega
  simp only [hfew, hlen, hal, hfits, hcount, if_false, if_true, decide_false, bne_self_eq_false, Bool.and_false, Bool.or_self,
    Bool.false_eq_true, State.qFits_of_no_frames h.2.2.2]
  exact congrArg _ (State.qAdvance_of_no_frames h.2.2.2 _ _)

theorem execPacketCallbuf_empty {s t0 : State} {q va : Nat} {p : Pkt} (h : s.atPacket q p t0 []) (hop : p.op = 8)
    (hva : p.va 0 = some va) (hlen : p.w 3 = 0) : exec (.packetCallbuf q) s = .next ((t0.headPast q p.bytes).cpServed q) := by
  refine State.packet_ok h hop ?_
  have hfew : ¬ 4 ≤ (t0.queue q).frames.length := by rw [h.2.2.2]; decide
  simp only [hva, hfew, hlen, if_false, if_true]
  exact congrArg _ (State.qDone_of_no_frames h.2.2.2 p)

theorem execPacketCallbuf_enters {s t0 : State} {q va : Nat} {p : Pkt} (h : s.atPacket q p t0 []) (hop : p.op = 8)
    (hva : p.va 0 = some va) (hlen : p.w 3 ≠ 0) :
    exec (.packetCallbuf q) s = .next ((t0.pushFrame q (.buf (BitVec.ofNat 80 va) (p.w 3) 0)).cpServed q) := by
  refine State.packet_ok h hop ?_
  have hfew : ¬ 4 ≤ (t0.queue q).frames.length := by rw [h.2.2.2]; decide
  simp only [hva, hfew, hlen, if_false]

theorem execPacketEndloop_leaves {s t0 : State} {q start stop n : Nat} {p : Pkt} (h : s.atPacket q p t0 [.loop start stop n])
    (hop : p.op = 6) (hn : n ≤ 1) :
    exec (.packetEndloop q) s = .next (((t0.setQueue q { t0.queue q with frames := [] }).headPast q p.bytes).cpServed q) := by
  refine State.packet_ok h hop ?_
  simp only [h.2.2.2, hn, if_true]
  exact congrArg _ (State.qDone_of_no_frames (by rw [State.queue_setQueue]) p)

theorem execPacketEndloop_repeats {s t0 : State} {q start stop n : Nat} {p : Pkt} (h : s.atPacket q p t0 [.loop start stop n])
    (hop : p.op = 6) (hn : 1 < n) :
    exec (.packetEndloop q) s = .next (((t0.setReg (queueReg q 0x10) (BitVec.ofNat 64 (start % t0.ringSize q))).setQueue q
      { t0.queue q with frames := [.loop start stop (n - 1)] }).cpServed q) := by
  refine State.packet_ok h hop ?_
  have hnot : ¬ n ≤ 1 := by omega
  simp only [h.2.2.2, hnot, if_false, onBuf]

/-! ### Marks of levels -/

theorem execPacketMark_opens {s t0 : State} {q : Nat} {p : Pkt} (h : s.atPacket q p t0 []) (hop : p.op = 9) (hflags : p.flags = 1)
    (hctr : p.w 0 < 1024) (hgraph : (t0.queue q).graph = none) :
    exec (.packetMark q) s = .next ((((t0.openLevel q .graph (p.w 0)).2.setQueue q { t0.queue q with
      graph := some (t0.openLevel q .graph (p.w 0)).1, lastGraph := some (t0.openLevel q .graph (p.w 0)).1 }).headPast q p.bytes).cpServed q) := by
  refine State.packet_ok h hop ?_
  have hkind : bits 1 1 0 = 1 := by decide
  have hend : bit 1 2 = false := by decide
  have hsmall : ¬ 1023 < p.w 0 := by omega
  simp only [hflags, hkind, hend, hsmall, hgraph, if_false, Option.isSome_none, bne_self_eq_false, Bool.or_self, Bool.false_eq_true,
    one_ne_zero]
  exact congrArg _ (State.qDone_of_no_frames (by rw [State.queue_setQueue]; exact h.2.2.2) p)

theorem execPacketMark_closes {s t0 : State} {q id : Nat} {p : Pkt} (h : s.atPacket q p t0 []) (hop : p.op = 9) (hflags : p.flags = 5)
    (hctr : p.w 0 < 1024) (hgraph : (t0.queue q).graph = some id) :
    exec (.packetMark q) s = .next ((((t0.closeLevel id).setQueue q { t0.queue q with graph := none }).headPast q p.bytes).cpServed q) := by
  refine State.packet_ok h hop ?_
  have hkind : bits 5 1 0 = 1 := by decide
  have hend : bit 5 2 = true := by decide
  have hsmall : ¬ 1023 < p.w 0 := by omega
  simp only [hflags, hkind, hend, hsmall, hgraph, if_false, Option.isSome_some, bne_self_eq_false, Bool.or_self, Bool.false_eq_true,
    one_ne_zero]
  exact congrArg _ (State.qDone_of_no_frames (by rw [State.queue_setQueue]; exact h.2.2.2) p)

/-- A list with one entry replaced by another of the same number. -/
theorem find?_map_replace {α : Type} (key : α → Nat) (x : α) (i : Nat) (xs : List α) :
    (xs.map (fun y => if key y == key x then x else y)).find? (fun y => key y == i) =
      if key x = i then (xs.find? (fun y => key y == i)).map (fun _ => x) else xs.find? (fun y => key y == i) := by
  induction xs with
  | nil => simp
  | cons y xs ih =>
    simp only [List.map_cons, List.find?_cons]
    by_cases hyx : key y = key x
    · by_cases hxi : key x = i
      · simp [hyx, hxi]
      · have hyi : ¬ key y = i := fun h => hxi (hyx.symm.trans h)
        simp only [hyx, beq_self_eq_true, if_true, hxi, beq_iff_eq, beq_eq_false_iff_ne.mpr hxi, if_false] at ih ⊢
        exact ih
    · by_cases hyi : key y = i
      · have hxi : ¬ key x = i := fun h => hyx (hyi.trans h.symm)
        simp [hyi, hxi, beq_eq_false_iff_ne.mpr (Ne.symm hxi)]
      · simp only [beq_eq_false_iff_ne.mpr hyx, beq_eq_false_iff_ne.mpr hyi, Bool.false_eq_true, if_false]
        exact ih

theorem State.level?_setLevel (s : State) (x : Level) (i : Nat) :
    (s.setLevel x).level? i = if x.id = i then (s.level? i).map (fun _ => x) else s.level? i :=
  find?_map_replace Level.id x i s.w.levels

theorem State.level?_id {s : State} {i : Nat} {x : Level} (h : s.level? i = some x) : x.id = i := by
  simpa using List.find?_some h

/-- A level with members that is closed stays until they have completed. -/
theorem State.closeLevel_of_members {t : State} {id : Nat} {y : Level} (h : t.level? id = some y) (hm : y.members ≠ 0) :
    t.closeLevel id = t.setLevel { y with closed := true } := by
  unfold State.closeLevel State.completeLevel
  rw [h]
  simp [hm]

/-! ### An unknown OP -/

theorem packetShape_unknown {op : Nat} (h : 0x0C < op) (flags : Nat) : packetShape op flags = none := by
  obtain ⟨n, rfl⟩ : ∃ n, op = n + 13 := ⟨op - 13, by omega⟩
  rfl

theorem State.readPkt_unknown {s t0 : State} {q h : Nat} (hframes : (s.queue q).frames = []) (hword : s.qWord q (s.qPos q) = (.ok h, t0))
    (hop : 0x0C < bits h 31 24) : s.readPkt q = (.bad none 1, t0) := by
  unfold State.readPkt State.qBufLeft
  rw [Queue.buffer_of_no_frames hframes, hword]
  simp only [Option.map_none, Bool.false_eq_true, if_false, packetShape_unknown hop]

theorem State.qStop_writes (s : State) (q code : Nat) (desc : VAddr) : ∃ (u : State) (r : FRec), s.qStop q code desc = u.writeRec (s.qCtx q) r
    ∧ u.dev = ((s.setRegF (queueReg q 0x30) 15 8 code).setRegF (queueReg q 0x30) 2 2 1).dev ∧ u.m = s.m ∧ u.w.ctxs = s.w.ctxs := by
  have hctx : ((s.setRegF (queueReg q 0x30) 15 8 code).setRegF (queueReg q 0x30) 2 2 1).qCtx q = s.qCtx q := by
    unfold State.qCtx
    rw [State.regF_setRegF_other _ _ _ _ _ _ _ _ (by unfold queueReg; omega),
      State.regF_setRegF_other _ _ _ _ _ _ _ _ (by unfold queueReg; omega)]
  unfold State.qStop
  dsimp only
  rw [hctx]
  exact ⟨_, _, rfl, rfl, rfl, rfl⟩

/-- A queue that stops is HALTED with its error, HEAD on the packet, and a record. -/
theorem State.qStop_halts (s : State) {q : Nat} (hq : q < 64) {code : Nat} (hcode : code < 256) (desc : VAddr) :
    (s.qStop q code desc).regF (queueReg q 0x30) 15 8 = code ∧ (s.qStop q code desc).regF (queueReg q 0x30) 2 2 = 1
      ∧ (s.qStop q code desc).reg (queueReg q 0x10) = s.reg (queueReg q 0x10) ∧ s.recorded (s.qStop q code desc) (s.qCtx q) := by
  obtain ⟨u, r, hr, hdev, hm, hctxs⟩ := s.qStop_writes q code desc
  have hreg : ∀ off, off < 0x40 → (s.qStop q code desc).reg (queueReg q off) =
      ((s.setRegF (queueReg q 0x30) 15 8 code).setRegF (queueReg q 0x30) 2 2 1).reg (queueReg q off) := fun off hoff => by
    rw [hr, State.reg_writeRec_queueReg _ _ _ hq hoff, State.reg_of_dev hdev]
  refine ⟨?_, ?_, ?_, ?_⟩
  · rw [State.regF_of_reg (hreg 0x30 (by decide)), State.regF_setRegF_apart _ _ _ _ _ _ _ (by decide) (by decide),
      State.regF_setRegF_same _ _ _ _ _ (by decide)]
    exact Nat.mod_eq_of_lt hcode
  · rw [State.regF_of_reg (hreg 0x30 (by decide)), State.regF_setRegF_same _ _ _ _ _ (by decide)]
    rfl
  · rw [hreg 0x10 (by decide), State.reg_setRegF_other _ _ _ _ _ _ (by unfold queueReg; omega),
      State.reg_setRegF_other _ _ _ _ _ _ (by unfold queueReg; omega)]
  · rw [hr]
    exact State.recorded_of_same (u.writeRec_recorded _ r) (by unfold State.ctxS; rw [hctxs]) (by rw [hm]) rfl rfl

theorem execPacketUnknownOp_stops {s t0 : State} {q h : Nat} (hq : q < 64) (hpick : s.cpPick (q / 16) = some q)
    (hframes : (s.queue q).frames = []) (hword : s.qWord q (s.qPos q) = (.ok h, t0)) (hop : 0x0C < bits h 31 24) :
    exec (.packetUnknownOp q) s = .next ((t0.qStop q 1 0).cpServed q) := by
  show execPacketUnknownOp q s = _
  have hguard : (decide (64 ≤ q) || s.cpPick (q / 16) != some q) = false := by
    rw [hpick]
    simpa using hq
  unfold execPacketUnknownOp
  rw [if_neg (by rw [hguard]; decide), State.readPkt_unknown hframes hword hop]

/-- Settles O31, a lemma for each kind of packet and outcome. -/
theorem packetControl : Obligations.PacketControl := by
  refine ⟨⟨fun s t0 q p h => ?_, fun s t0 t1 q va x p hq hblocked hread hop hflags => ?_⟩,
    fun s t0 q p h => ?_, fun s t0 q start stop n p h hop => ?_, fun s t0 q w hq hpick hframes hword hop => ?_⟩
  · intro done c v holds counter
    refine ⟨fun hop hf h1 h2 h3 => ?wait, fun hop hf h1 h2 h3 => ?cond, execPacketSignal_counter h,
      fun va w t1 hop hf h1 h2 hva hdo hframes => execPacketSignal_memory h hop hf h1 h2 hva hdo hframes⟩
    case wait =>
      have hc := State.condition_counter (t := t0) (q := q) (k := 3) hf ⟨h1, h2, h3⟩
      refine ⟨fun hcounter => execPacketWait_at h hop (State.evalWait_holds ?_ h.2.2.2),
        fun hcounter => execPacketWait_at h hop (State.evalWait_blocks ?_)⟩ <;>
      exact hc.trans (congrArg (fun b => (CondRes.holds b, t0)) hcounter)
    case cond =>
      have hc := State.condition_counter (t := t0) (q := q) (k := 3) hf ⟨h1, h2, h3⟩
      exact ⟨fun hcounter => execPacketIf_holds h hop (hc.trans (congrArg (fun b => (CondRes.holds b, t0)) hcounter)),
        fun hcounter hal => execPacketIf_skips h hop hf hal (hc.trans (congrArg (fun b => (CondRes.holds b, t0)) hcounter))⟩
  · intro c v h1 h2 h3 hva hal hcp hframes
    have hcond : t0.condition q p 3 = (.holds (decide (v ≤ x)), t1) := by
      rw [State.condition_word hflags ⟨h1, h2, by rw [h3]; decide⟩ hva hal hcp]
      unfold condHolds
      rw [if_pos h3]
    refine ⟨fun hle => ?_, fun hlt => ?_⟩
    · rw [execWaitWordReread_at hq hblocked hread hop hflags (State.evalWait_holds (hcond.trans (by rw [decide_eq_true hle])) hframes)]
      rw [if_neg (by rw [State.queue_headPast]; unfold State.setBlocked; rw [State.queue_setQueue]; simp)]
    · rw [execWaitWordReread_at hq hblocked hread hop hflags (State.evalWait_blocks (hcond.trans (by rw [decide_eq_false (by omega)])))]
      rw [if_pos (by unfold State.setBlocked; rw [State.queue_setQueue])]
  · refine ⟨fun hop hlen hal hring => ⟨execPacketLoop_opens h hop hlen hal hring, execPacketLoop_skips h hop hlen hal hring⟩,
      fun va hop hva => ⟨execPacketCallbuf_empty h hop hva, execPacketCallbuf_enters h hop hva⟩,
      fun hop hf hctr hgraph => ?opens, fun id y hop hf hctr hgraph hlevel hmem => ?closes⟩
    case opens =>
      refine ⟨_, ⟨(t0.openLevel q .graph (p.w 0)).1, .graph, t0.qCtx q, q, p.w 0, false, 0, (t0.queue q).level, false⟩,
        execPacketMark_opens h hop hf hctr hgraph, ?_, rfl, rfl, rfl, rfl, rfl, rfl, ?_, ?_, ?_⟩
      · exact List.mem_append_right _ (List.mem_singleton.mpr rfl)
      · rw [State.queue_cpServed, State.queue_headPast, State.queue_setQueue]
      · rw [State.queue_cpServed, State.queue_headPast, State.queue_setQueue]
      · rw [State.reg_cpServed, State.reg_headPast]
        rfl
    case closes =>
      refine ⟨_, execPacketMark_closes h hop hf hctr hgraph, ?_, ?_, ?_⟩
      · rw [State.closeLevel_of_members hlevel hmem]
        refine (State.level?_setLevel t0 { y with closed := true } id).trans ?_
        rw [if_pos (State.level?_id hlevel), hlevel]
        rfl
      · rw [State.queue_cpServed, State.queue_headPast, State.queue_setQueue]
      · rw [State.reg_cpServed, State.reg_headPast, State.closeLevel_of_members hlevel hmem]
        rfl
  · exact ⟨execPacketEndloop_leaves h hop, execPacketEndloop_repeats h hop⟩
  · obtain ⟨herr, hhalt, hhead, hrec⟩ := t0.qStop_halts hq (code := 1) (by decide) 0
    exact ⟨_, execPacketUnknownOp_stops hq hpick hframes hword hop, herr, hhalt, hhead,
      State.recorded_of_same hrec rfl rfl rfl rfl⟩

end Sys2Proof.Machine
end

section
/-! Laws of cancels (02_work.md R49 to R51; 14_ref_a_c.md R353): how many lots a cancelled launch counts as retired, and what the
cancel of a launch, of a group of launches and of a level leaves. -/

namespace Sys2Proof.Machine

/-! ### The unstarted lots of a launch (R38, R51) -/

/-- How many lots a range names. -/
def rangeSize (r : Nat × Nat) : Nat := r.2 + 1 - r.1

theorem foldl_rangeSize (rs : List (Nat × Nat)) : rs.foldl (fun n r => n + (r.2 + 1 - r.1)) 0 = (rs.map rangeSize).sum := by
  suffices h : ∀ k, rs.foldl (fun n r => n + (r.2 + 1 - r.1)) k = k + (rs.map rangeSize).sum by simpa using h 0
  induction rs with
  | nil => intro k; simp
  | cons r rs ih =>
    intro k
    rw [List.foldl_cons, ih, List.map_cons, List.sum_cons, rangeSize, Nat.add_assoc]

/-- Ranges that rise without a common number keep their size when neighbours are joined. -/
theorem joinRanges_size {rs : List (Nat × Nat)} (hrise : rs.Pairwise (fun r r' => r.2 < r'.1)) (hle : ∀ r ∈ rs, r.1 ≤ r.2) :
    ((joinRanges rs).map rangeSize).sum = (rs.map rangeSize).sum
      ∧ ∀ r more, joinRanges rs = r :: more → r.1 ≤ r.2 ∧ ∃ r' ∈ rs, r'.1 = r.1 := by
  induction rs with
  | nil => exact ⟨rfl, by simp [joinRanges]⟩
  | cons x rest ih =>
    obtain ⟨a, b⟩ := x
    obtain ⟨hfirst, hrest⟩ := List.pairwise_cons.mp hrise
    obtain ⟨hsum, hhead⟩ := ih hrest (fun r hr => hle r (List.mem_cons_of_mem _ hr))
    have hab : a ≤ b := hle (a, b) List.mem_cons_self
    unfold joinRanges
    split
    · next c d more hjoin =>
      obtain ⟨hcd, r', hr', hc⟩ := hhead (c, d) more hjoin
      have hbc : b < c := by
        have := hfirst r' hr'
        omega
      simp only at hcd
      rw [hjoin] at hsum
      simp only [List.map_cons, List.sum_cons, rangeSize] at hsum ⊢
      split
      · refine ⟨?_, fun r m hr => ?_⟩
        · simp only [List.map_cons, List.sum_cons, rangeSize]
          omega
        · obtain ⟨rfl, -⟩ := List.cons.inj hr
          exact ⟨by simp only; omega, (a, b), List.mem_cons_self, rfl⟩
      · refine ⟨?_, fun r m hr => ?_⟩
        · simp only [List.map_cons, List.sum_cons, rangeSize]
          omega
        · obtain ⟨rfl, -⟩ := List.cons.inj hr
          exact ⟨hab, (a, b), List.mem_cons_self, rfl⟩
    · next hjoin =>
      rw [hjoin] at hsum
      simp only [List.map_nil, List.sum_nil, List.map_cons, List.sum_cons] at hsum ⊢
      exact ⟨by omega, fun r m hr => by
        obtain ⟨rfl, -⟩ := List.cons.inj hr
        exact ⟨hab, (a, b), List.mem_cons_self, rfl⟩⟩

/-- A number takes its place in a rising list; one that stands there already stays once. -/
def insertRising (l : List Nat) (r : Nat) : List Nat := (l.filter (fun y => y < r)) ++ [r] ++ l.filter (fun y => r < y)

theorem insertRising_rises {l : List Nat} (h : l.Pairwise (· < ·)) (r : Nat) : (insertRising l r).Pairwise (· < ·) := by
  unfold insertRising
  rw [List.append_assoc]
  refine List.pairwise_append.mpr ⟨h.filter _, ?_, ?_⟩
  · refine List.pairwise_append.mpr ⟨List.pairwise_singleton _ _, h.filter _, ?_⟩
    intro x hx y hy
    rw [List.mem_singleton] at hx
    have := (List.mem_filter.mp hy).2
    simp only [decide_eq_true_eq] at this
    omega
  · intro x hx y hy
    have hxr := (List.mem_filter.mp hx).2
    simp only [decide_eq_true_eq] at hxr
    rcases List.mem_append.mp hy with hy | hy
    · rw [List.mem_singleton] at hy
      omega
    · have := (List.mem_filter.mp hy).2
      simp only [decide_eq_true_eq] at this
      omega

theorem mem_insertRising {l : List Nat} {r y : Nat} : y ∈ insertRising l r ↔ y = r ∨ y ∈ l := by
  unfold insertRising
  simp only [List.mem_append, List.mem_filter, List.mem_singleton, decide_eq_true_eq]
  constructor
  · rintro ((⟨hy, -⟩ | rfl) | ⟨hy, -⟩)
    · exact .inr hy
    · exact .inl rfl
    · exact .inr hy
  · rintro (rfl | hy)
    · exact .inl (.inr rfl)
    · rcases lt_trichotomy y r with h | h | h
      · exact .inl (.inl ⟨hy, h⟩)
      · exact .inl (.inr h)
      · exact .inr ⟨hy, h⟩

theorem foldl_insertRising (rs l : List Nat) (h : l.Pairwise (· < ·)) :
    (rs.foldl insertRising l).Pairwise (· < ·) ∧ ∀ y, y ∈ rs.foldl insertRising l ↔ y ∈ rs ∨ y ∈ l := by
  induction rs generalizing l with
  | nil => exact ⟨h, fun y => by simp⟩
  | cons r rs ih =>
    obtain ⟨hrise, hmem⟩ := ih (insertRising l r) (insertRising_rises h r)
    refine ⟨hrise, fun y => ?_⟩
    rw [List.foldl_cons, hmem, mem_insertRising, List.mem_cons]
    exact ⟨fun h => by tauto, fun h => by tauto⟩

/-- The unstarted lots are those from the next one on and, of the earlier ones, those to be rerun. -/
theorem Launch.unstarted_size (x : Launch) : ((x.unstarted).map rangeSize).sum =
    (x.total - x.next) + ((List.range x.next).filter (fun i => x.reruns.contains i)).length := by
  let re := (x.reruns.filter (fun r => r < x.next)).foldl insertRising []
  obtain ⟨hrise, hmem⟩ := foldl_insertRising (x.reruns.filter (fun r => r < x.next)) [] List.Pairwise.nil
  have hlt : ∀ y ∈ re, y < x.next := fun y hy => by
    have := ((hmem y).mp hy).resolve_right (by simp)
    simpa using (List.mem_filter.mp this).2
  have hlen : re.length = ((List.range x.next).filter (fun i => x.reruns.contains i)).length := by
    refine List.Perm.length_eq ((List.perm_ext_iff_of_nodup ?_ (List.nodup_range.filter _)).mpr fun y => ?_)
    · exact hrise.imp (fun h => by omega)
    · refine (hmem y).trans ?_
      simp only [List.mem_filter, List.mem_range, List.contains_iff_mem, decide_eq_true_eq, List.not_mem_nil, or_false]
      exact And.comm
  have hpairs : (re.map (fun r => (r, r))).Pairwise (fun r r' : Nat × Nat => r.2 < r'.1) :=
    List.pairwise_map.mpr hrise
  have hsize : ((re.map (fun r => (r, r))).map rangeSize).sum = re.length := by
    rw [List.map_map]
    have : rangeSize ∘ (fun r : Nat => (r, r)) = fun _ => 1 := by
      funext r
      simp [rangeSize]
    rw [this]
    simp
  have hun : x.unstarted = joinRanges (re.map (fun r => (r, r)) ++ if x.next < x.total then [(x.next, x.total - 1)] else []) := rfl
  rw [hun]
  split
  · next hnext =>
    rw [(joinRanges_size ?_ ?_).1, List.map_append, List.sum_append, hsize, hlen]
    · simp only [List.map_cons, List.map_nil, List.sum_cons, List.sum_nil, rangeSize]
      omega
    · refine List.pairwise_append.mpr ⟨hpairs, List.pairwise_singleton _ _, fun r hr r' hr' => ?_⟩
      obtain ⟨y, hy, rfl⟩ := List.mem_map.mp hr
      rw [List.mem_singleton] at hr'
      subst hr'
      exact hlt y hy
    · intro r hr
      rcases List.mem_append.mp hr with hr | hr
      · obtain ⟨y, -, rfl⟩ := List.mem_map.mp hr
        exact Nat.le_refl _
      · rw [List.mem_singleton] at hr
        subst hr
        simp only
        omega
  · next hnext =>
    rw [List.append_nil, (joinRanges_size hpairs ?_).1, hsize, hlen]
    · omega
    · intro r hr
      obtain ⟨y, -, rfl⟩ := List.mem_map.mp hr
      exact Nat.le_refl _

/-- How many lots a cancelled launch counts as retired (R51). -/
theorem Launch.asCancelled_retired {x : Launch} (h : x.cancelled = false) :
    x.asCancelled.retired = x.retired + ((x.unstarted.foldl (fun n r => n + (r.2 + 1 - r.1)) 0) + x.saved.length) := by
  rw [foldl_rangeSize, Launch.unstarted_size]
  unfold Launch.asCancelled
  rw [h, if_neg (by decide)]
  simp only
  omega

@[simp] theorem Launch.asCancelled_id (x : Launch) : x.asCancelled.id = x.id := by
  unfold Launch.asCancelled
  split <;> rfl

theorem Launch.asCancelled_cancelled (x : Launch) : x.asCancelled.cancelled = true := by
  unfold Launch.asCancelled
  split
  · next h => exact h
  · rfl

theorem Launch.asCancelled_of_cancelled {x : Launch} (h : x.cancelled = true) : x.asCancelled = x := if_pos h

/-! ### The cancel of one launch -/

theorem State.launch?_id {s : State} {i : Nat} {x : Launch} (h : s.launch? i = some x) : x.id = i := by
  simpa using List.find?_some h

theorem State.launch?_setLaunch (s : State) (x : Launch) (i : Nat) :
    (s.setLaunch x).launch? i = if x.id = i then (s.launch? i).map (fun _ => x) else s.launch? i :=
  find?_map_replace Launch.id x i s.w.launches

theorem State.areas_freeArea (s : State) (ctx area c : Nat) :
    (∀ a ∈ ((s.freeArea ctx area).ctxS c).areas, a ∈ (s.ctxS c).areas) ∧ (c = ctx → ∀ a ∈ ((s.freeArea ctx area).ctxS c).areas, a.1 ≠ area) := by
  unfold State.freeArea
  dsimp only
  rcases eq_or_ne c ctx with rfl | h
  · rw [State.ctxS_setCtxS]
    exact ⟨fun a ha => (List.mem_filter.mp ha).1, fun _ a ha => by simpa using (List.mem_filter.mp ha).2⟩
  · rw [State.ctxS_setCtxS_other _ _ _ h]
    exact ⟨fun a ha => ha, fun e => absurd e h⟩

/-- The records of the saved lots of a cancelled launch are written and their areas released. -/
theorem State.releaseSaved (x : Launch) (saved : List SavedLot) (s : State) :
    ∃ u, saved.foldl (fun s v => (s.freeArea x.ctx v.area).writeRec x.ctx (x.outcome 0xFFFF v.index v.index 0 0 1)) s = u
      ∧ u.offRecord = s.offRecord ∧ (∀ c, ∀ a ∈ (u.ctxS c).areas, a ∈ (s.ctxS c).areas)
      ∧ ∀ y ∈ saved, ∀ a ∈ (u.ctxS x.ctx).areas, a.1 ≠ y.area := by
  induction saved generalizing s with
  | nil => exact ⟨s, rfl, rfl, fun _ _ h => h, by simp⟩
  | cons v saved ih =>
    obtain ⟨u, hu, hoff, hsub, hfreed⟩ := ih ((s.freeArea x.ctx v.area).writeRec x.ctx (x.outcome 0xFFFF v.index v.index 0 0 1))
    refine ⟨u, hu, hoff.trans (State.writeRec_offRecord ..), fun c a ha => ?_, fun y hy a ha => ?_⟩
    · have := hsub c a ha
      rw [State.areas_writeRec] at this
      exact (s.areas_freeArea x.ctx v.area c).1 a this
    · rcases List.mem_cons.mp hy with rfl | hy
      · have := hsub x.ctx a ha
        rw [State.areas_writeRec] at this
        exact (s.areas_freeArea x.ctx y.area x.ctx).2 rfl a this
      · exact hfreed y hy a ha

/-- The cores that hold a lot of a launch. -/
def State.coresOf (s : State) (id : Nat) : List Nat := ((s.lotList.filter (fun e => e.2.2.launch == id)).map (fun e => e.1)).eraseDups

theorem State.mem_coresOf {s : State} {id : Nat} {e : Nat × Nat × Lot} (he : e ∈ s.lotList) (hid : e.2.2.launch = id) :
    e.1 ∈ s.coresOf id := by
  unfold State.coresOf
  rw [List.mem_eraseDups, List.mem_map]
  exact ⟨e, List.mem_filter.mpr ⟨he, by simpa using hid⟩, rfl⟩

theorem State.lotList_of_lots {s t : State} (h : t.lots = s.lots) : t.lotList = s.lotList := by
  unfold State.lotList
  rw [h]

theorem State.cancelLaunch_none {s : State} {id : Nat} (h : s.launch? id = none) : s.cancelLaunch id = s := by
  unfold State.cancelLaunch
  rw [h]

theorem State.cancelLaunch_again {s : State} {id : Nat} {x : Launch} (h : s.launch? id = some x) (hc : x.cancelled = true) :
    s.cancelLaunch id = s := by
  unfold State.cancelLaunch
  rw [h]
  simp only [hc, if_true]

/-- The cancel of a launch that runs: its records and areas first, then its lots count as retired and the cancel sets out. -/
theorem State.cancelLaunch_runs {s : State} {id : Nat} {x : Launch} (h : s.launch? id = some x) (hc : x.cancelled = false) :
    ∃ u : State, u.offRecord = s.offRecord ∧ (∀ c, ∀ a ∈ (u.ctxS c).areas, a ∈ (s.ctxS c).areas)
      ∧ (∀ y ∈ x.saved, ∀ a ∈ (u.ctxS x.ctx).areas, a.1 ≠ y.area)
      ∧ s.cancelLaunch id =
        (let t := (u.setLaunch x.asCancelled).addCounter x.ctx x.d.ctr (x.asCancelled.retired - x.retired)
         { t with w := { t.w with cancels := t.w.cancels ++ (s.coresOf id).map (fun c => (id, c)) } }) := by
  let s1 := x.unstarted.foldl (fun s r => s.writeRec x.ctx (x.outcome 0xFFFF r.1 r.2 32 0 2)) s
  have hs1 : s1.offRecord = s.offRecord := foldl_keeps State.offRecord _ (fun s r => State.writeRec_offRecord ..) _ _
  have hs1a : ∀ c, (s1.ctxS c).areas = (s.ctxS c).areas := fun c =>
    foldl_keeps (fun s => (State.ctxS s c).areas) _ (fun s r => State.areas_writeRec ..) _ _
  obtain ⟨u, hu, hoff, hsub, hfreed⟩ := State.releaseSaved x x.saved s1
  refine ⟨u, hoff.trans hs1, fun c a ha => by rw [← hs1a c]; exact hsub c a ha, hfreed, ?_⟩
  have hn : x.asCancelled.retired - x.retired =
      (x.unstarted.foldl (fun n r => n + (r.2 + 1 - r.1)) 0) + x.saved.length := by
    rw [Launch.asCancelled_retired hc]
    omega
  have hx : x.asCancelled = { x with
      cancelled := true, next := x.total, saved := [], reruns := [],
      retired := x.retired + ((x.unstarted.foldl (fun n r => n + (r.2 + 1 - r.1)) 0) + x.saved.length) } := by
    rw [← Launch.asCancelled_retired hc]
    unfold Launch.asCancelled
    rw [hc, if_neg (by decide)]
  have hlots : ∀ t : State, t.lots = s.lots → ((t.lotList.filter (fun e => e.2.2.launch == id)).map (fun e => e.1)).eraseDups = s.coresOf id :=
    fun t ht => by rw [State.lotList_of_lots ht]; rfl
  unfold State.cancelLaunch
  rw [h]
  simp only [hc, Bool.false_eq_true, if_false]
  rw [hn, hx]
  rw [show x.saved.foldl (fun s v => (s.freeArea x.ctx v.area).writeRec x.ctx (x.outcome 0xFFFF v.index v.index 0 0 1))
    (x.unstarted.foldl (fun s r => s.writeRec x.ctx (x.outcome 0xFFFF r.1 r.2 32 0 2)) s) = u from hu]
  rw [hlots]
  exact (State.lots_of_offRecord (hoff.trans hs1) : u.lots = s.lots)

/-! ### The cancel of several launches -/

/-- What the cancels of some launches leave: those are cancelled, with their areas released and the cancel on its way; other
launches, levels, queues, lots and accesses are as before. -/
structure State.Cancelled (s t : State) (done : List Nat) : Prop where
  launch : ∀ i, t.launch? i = (s.launch? i).map (fun z => if i ∈ done then z.asCancelled else z)
  areas : ∀ c, ∀ a ∈ (t.ctxS c).areas, a ∈ (s.ctxS c).areas
  freed : ∀ i ∈ done, ∀ z, s.launch? i = some z → z.cancelled = false → ∀ y ∈ z.saved, ∀ a ∈ (t.ctxS z.ctx).areas, a.1 ≠ y.area
  sent : ∀ i ∈ done, ∀ z, s.launch? i = some z → z.cancelled = false → ∀ c ∈ s.coresOf i, (i, c) ∈ t.w.cancels
  levels : t.w.levels = s.w.levels
  queues : t.w.queues = s.w.queues
  lots : t.lots = s.lots
  accs : t.accs = s.accs

theorem State.Cancelled.refl (s : State) : s.Cancelled s [] where
  launch i := by simp
  areas _ _ h := h
  freed i h := by simp at h
  sent i h := by simp at h
  levels := rfl
  queues := rfl
  lots := rfl
  accs := rfl

/-- A launch that is gone or cancelled already adds nothing. -/
theorem State.Cancelled.skip {s t : State} {done : List Nat} (h : s.Cancelled t done) {i : Nat}
    (hi : ∀ x, t.launch? i = some x → x.cancelled = true) : s.Cancelled t (done ++ [i]) := by
  have hdone : ∀ z, s.launch? i = some z → z.cancelled = false → i ∈ done := fun z hz hc => by
    by_contra hn
    have := h.launch i
    rw [hz, Option.map_some, if_neg hn] at this
    rw [hi z this] at hc
    simp at hc
  refine ⟨fun j => ?_, h.areas, fun j hj z hz hc => h.freed j ?_ z hz hc, fun j hj z hz hc => h.sent j ?_ z hz hc, h.levels,
    h.queues, h.lots, h.accs⟩
  · rw [h.launch j]
    cases hz : s.launch? j with
    | none => rfl
    | some z =>
      simp only [Option.map_some, List.mem_append, List.mem_singleton, Option.some.injEq]
      by_cases hjd : j ∈ done
      · simp [hjd]
      · by_cases hji : j = i
        · subst hji
          have hzc : z.cancelled = true := by
            by_contra hc
            exact hjd (hdone z hz (by simpa using hc))
          simp [hjd, Launch.asCancelled_of_cancelled hzc]
        · simp [hjd, hji]
  all_goals
    rcases List.mem_append.mp hj with hj | hj
    · exact hj
    · rw [List.mem_singleton] at hj
      subst hj
      exact hdone z hz hc

/-- The cancel of one more launch. -/
theorem State.Cancelled.step {s t : State} {done : List Nat} (h : s.Cancelled t done) (i : Nat) :
    s.Cancelled (t.cancelLaunch i) (done ++ [i]) := by
  cases hx : t.launch? i with
  | none =>
    rw [State.cancelLaunch_none hx]
    exact h.skip (fun x hx' => by rw [hx] at hx'; simp at hx')
  | some x =>
    cases hc : x.cancelled with
    | true =>
      rw [State.cancelLaunch_again hx hc]
      exact h.skip (fun y hy => by
        rw [hx, Option.some.injEq] at hy
        rw [← hy]
        exact hc)
    | false =>
      obtain ⟨u, hoff, hsub, hfreed, heq⟩ := State.cancelLaunch_runs hx hc
      have hsx : s.launch? i = some x := by
        have hl := h.launch i
        rw [hx] at hl
        obtain ⟨z, hz, hzx⟩ := Option.map_eq_some_iff.mp hl.symm
        rw [hz]
        split at hzx
        · rw [← hzx, Launch.asCancelled_cancelled] at hc
          simp at hc
        · rw [hzx]
      have hu : u.w = { t.w with ctxs := u.w.ctxs } := State.w_of_offRecord hoff
      have hul : u.launch? = t.launch? := by
        funext j
        unfold State.launch?
        rw [hu]
      rw [heq]
      refine ⟨fun j => ?_, fun c a ha => h.areas c a (hsub c a ha), fun j hj z hz hzc y hy a ha => ?_, fun j hj z hz hzc c hc' => ?_, ?_,
        ?_, (State.lots_of_offRecord hoff).trans h.lots, (State.accs_of_offRecord hoff).trans h.accs⟩
      · refine (State.launch?_setLaunch u x.asCancelled j).trans ?_
        rw [Launch.asCancelled_id, State.launch?_id hx, hul]
        split
        · next e =>
          subst e
          simp [hx, hsx]
        · next e =>
          rw [h.launch j]
          simp [Ne.symm e]
      · rcases List.mem_append.mp hj with hj | hj
        · exact h.freed j hj z hz hzc y hy a (hsub z.ctx a ha)
        · rw [List.mem_singleton] at hj
          subst hj
          rw [hsx, Option.some.injEq] at hz
          subst hz
          exact hfreed y hy a ha
      · have hcancels : ∀ e ∈ t.w.cancels ++ (t.coresOf i).map (fun c => (i, c)), e ∈ u.w.cancels ++ (t.coresOf i).map (fun c => (i, c)) := by
          rw [hu]
          exact fun e he => he
        refine hcancels _ ?_
        rcases List.mem_append.mp hj with hj | hj
        · exact List.mem_append_left _ (h.sent j hj z hz hzc c hc')
        · rw [List.mem_singleton] at hj
          subst hj
          refine List.mem_append_right _ (List.mem_map.mpr ⟨c, ?_, rfl⟩)
          unfold State.coresOf at hc' ⊢
          rw [State.lotList_of_lots h.lots]
          exact hc'
      · exact (congrArg WorkS.levels hu).trans h.levels
      · exact (congrArg WorkS.queues hu).trans h.queues

theorem State.cancelled_foldl (s : State) (ids : List Nat) : s.Cancelled (ids.foldl (fun s i => s.cancelLaunch i) s) ids := by
  induction ids using List.reverseRecOn with
  | nil => exact State.Cancelled.refl s
  | append_singleton ids i ih =>
    rw [List.foldl_append]
    exact ih.step i

theorem State.cancelled_cancelLaunches (s : State) (ids : List Nat) :
    s.Cancelled (s.cancelLaunches ids) (s.withChildren ids s.w.launches.length) := s.cancelled_foldl _

/-- The cancel as the obligation words it. -/
theorem State.Cancelled.cancels {s t : State} {ids : List Nat} (h : s.Cancelled t (s.withChildren ids s.w.launches.length)) :
    s.cancels t ids := by
  refine ⟨fun z hz => ?_, fun z hz hmem hc => ⟨h.freed z.id hmem z hz hc, fun e he hid => ?_⟩, h.lots, h.accs⟩
  · rw [h.launch z.id, hz]
    rfl
  · exact h.sent z.id hmem z hz hc e.1 (State.mem_coresOf he hid)

@[simp] theorem State.queue_cancelLaunches (s : State) (ids : List Nat) (q : Nat) : (s.cancelLaunches ids).queue q = s.queue q := by
  unfold State.queue
  rw [(s.cancelled_cancelLaunches ids).queues]

/-! ### The instruction CANCEL -/

theorem execCancel_launch {s : State} {v : View} {p : BitVec 3} {k : CancelLevel} {x : Launch} (h : s.runs v p true true [])
    (hx : s.launch? v.l.launch = some x) (hparts : v.parts ≠ []) (hk : k = .launch ∨ s.levelOf k x.parentLevel 3 = none) :
    execCancel p k s = .next (s.cancelLaunches [x.id]) := by
  refine (State.instr_runs h _).trans ?_
  have hne : v.parts.isEmpty = false := by simpa using hparts
  rw [hne, hx, Option.bind_some, State.launch?_id hx]
  simp only [Bool.false_eq_true, if_false]
  rcases hk with rfl | hk
  · split <;> rfl
  · rw [hk]

theorem execCancel_level {s : State} {v : View} {p : BitVec 3} {k : CancelLevel} {x : Launch} {id : Nat} (h : s.runs v p true true [])
    (hx : s.launch? v.l.launch = some x) (hparts : v.parts ≠ []) (hk : k ≠ .launch) (hid : s.levelOf k x.parentLevel 3 = some id) :
    execCancel p k s = .next (s.cancelLevel id) := by
  refine (State.instr_runs h _).trans ?_
  have hne : v.parts.isEmpty = false := by simpa using hparts
  rw [hne, hx, Option.bind_some, hid]
  simp only [Bool.false_eq_true, if_false, hk]

/-- The state with a level and the levels in it marked as cancelled. -/
def State.markLevels (s : State) (id : Nat) : State :=
  { s with w := { s.w with levels := s.w.levels.map (fun (y : Level) => if (s.levelTree id).contains y.id then { y with cancelled := true } else y) } }

theorem State.level?_markLevels {s : State} {id i : Nat} {z : Level} (h : s.level? i = some z) :
    (s.markLevels id).level? i = some (if i ∈ s.levelTree id then { z with cancelled := true } else z) := by
  have hz := State.level?_id h
  have hkey : ((fun x : Level => x.id == i) ∘ fun y => if (s.levelTree id).contains y.id then { y with cancelled := true } else y) =
      fun x => x.id == i := by
    funext y
    simp only [Function.comp]
    split <;> rfl
  unfold State.level? State.markLevels
  simp only
  rw [List.find?_map, hkey]
  unfold State.level? at h
  rw [h, Option.map_some, hz]
  simp

/-- The launches that lie in a level. -/
def State.launchesIn (s : State) (id : Nat) : List Nat :=
  (s.w.launches.filter (fun z => match z.parentLevel with
    | some n => (s.levelTree id).contains n
    | none => false)).map (fun z => z.id)

theorem State.cancelLevel_runs {s : State} {id : Nat} {y : Level} (h : s.level? id = some y) (hc : y.cancelled = false) :
    s.cancelLevel id = (s.markLevels id).cancelLaunches (s.launchesIn id) := by
  unfold State.cancelLevel
  rw [h]
  simp only [hc, Bool.false_eq_true, if_false]
  rfl

theorem State.cancelLevel_again {s : State} {id : Nat} {y : Level} (h : s.level? id = some y) (hc : y.cancelled = true) :
    s.cancelLevel id = s := by
  unfold State.cancelLevel
  rw [h]
  simp only [hc, if_true]

theorem State.withChildren_markLevels (s : State) (id fuel : Nat) (ids : List Nat) :
    (s.markLevels id).withChildren ids fuel = s.withChildren ids fuel := by
  induction fuel generalizing ids with
  | zero => rfl
  | succ fuel ih =>
    unfold State.withChildren
    simp only [ih]
    rfl

/-- The marks of the levels are no part of what the cancel of launches says. -/
theorem State.cancels.of_markLevels {s t : State} {id : Nat} {ids : List Nat} (h : (s.markLevels id).cancels t ids) : s.cancels t ids := by
  unfold State.cancels at h ⊢
  rw [State.withChildren_markLevels] at h
  exact h

/-- The counter of the one launch cancelled counts its lots that never run. -/
theorem State.counter_cancelLaunches {s : State} {x : Launch} (hx : s.launch? x.id = some x)
    (hall : s.withChildren [x.id] s.w.launches.length = [x.id]) :
    (s.cancelLaunches [x.id]).counter x.ctx x.d.ctr = s.counter x.ctx x.d.ctr + BitVec.ofNat 64 (x.asCancelled.retired - x.retired) := by
  unfold State.cancelLaunches
  rw [hall, List.foldl_cons, List.foldl_nil]
  cases hc : x.cancelled with
  | true =>
    rw [State.cancelLaunch_again hx hc, Launch.asCancelled_of_cancelled hc, Nat.sub_self]
    simp
  | false =>
    obtain ⟨u, hoff, -, -, heq⟩ := State.cancelLaunch_runs hx hc
    have hcounter : (u.setLaunch x.asCancelled).counter x.ctx x.d.ctr = s.counter x.ctx x.d.ctr := by
      show u.counter x.ctx x.d.ctr = s.counter x.ctx x.d.ctr
      unfold State.counter
      rw [State.w_of_offRecord hoff]
    rw [heq, ← hcounter]
    exact State.counter_setCounter ..

/-- Settles O25: the launch alone, or its level, by what `Cancelled` says of the launches reached. -/
theorem cancels : Obligations.Cancels := by
  intro s v p k x h hx
  have hid := State.launch?_id hx
  have hxid : s.launch? x.id = some x := by rw [hid]; exact hx
  refine ⟨fun hparts => ?none, fun hparts hk => ?launch, fun hparts hk id y hlevel hy => ⟨fun hc => ?again, fun hc => ?level⟩⟩
  case none =>
    show execCancel p k s = _
    refine (State.instr_runs h _).trans ?_
    rw [hparts]
    rfl
  case launch =>
    intro all
    have hc := s.cancelled_cancelLaunches [x.id]
    refine ⟨⟨_, execCancel_launch h hx hparts hk, hc.cancels, hc.levels, State.counter_cancelLaunches hxid⟩, fun hall => ?_⟩
    refine (execCancel_launch h hx hparts hk).trans (congrArg _ ?_)
    refine (List.foldlRecOn (motive := fun t => t = s) all _ rfl fun t ht i hi => ?_)
    subst ht
    cases hz : t.launch? i with
    | none => exact State.cancelLaunch_none hz
    | some z => exact State.cancelLaunch_again hz (hall i hi z hz)
  case again => exact (execCancel_level h hx hparts hk hlevel).trans (congrArg _ (State.cancelLevel_again hy hc))
  case level =>
    refine ⟨_, execCancel_level h hx hparts hk hlevel, ?_⟩
    rw [State.cancelLevel_runs hy hc]
    have hcl := (s.markLevels id).cancelled_cancelLaunches (s.launchesIn id)
    refine ⟨fun z hz => ?_, hcl.cancels.of_markLevels⟩
    unfold State.level?
    rw [hcl.levels]
    exact State.level?_markLevels hz

end Sys2Proof.Machine
end

section
/-! The packets that launch, cancel and wake (02_work.md R53 to R56, R63; O30). -/

namespace Sys2Proof.Machine

/-- CANCEL of the last launch of the queue (R55). -/
theorem execPacketCancel_launch {s t0 : State} {q id : Nat} {p : Pkt} (h : s.atPacket q p t0 []) (hop : p.op = 0x0A)
    (hw : p.w 0 = 0) (hflags : p.flags = 0) (hid : (t0.queue q).lastLaunch = some id) :
    exec (.packetCancel q) s = .next (((t0.cancelLaunches [id]).headPast q p.bytes).cpServed q) := by
  have hframes := h.2.2.2
  refine State.packet_ok h hop ?_
  simp only [hw, hflags, hid, bne_self_eq_false, Bool.false_eq_true, if_false]
  have hkeeps : ((t0.cancelLaunches [id]).queue q).frames = [] := by
    rw [State.queue_cancelLaunches]
    exact hframes
  exact congrArg Except.ok (State.qDone_of_no_frames hkeeps p)

/-- WAKE of an enabled queue of the same context (R55, R63). -/
theorem execPacketWake_queue {s t0 : State} {q : Nat} {p : Pkt} (h : s.atPacket q p t0 []) (hop : p.op = 0x0B) (hflags : p.flags = 0)
    (ht : p.w 0 < 64) (hctx : t0.regF (queueReg (p.w 0) 0) 19 8 = t0.qCtx q) (hen : t0.regF (queueReg (p.w 0) 0) 0 0 = 1) :
    exec (.packetWake q) s = .next (((t0.setRegF (queueReg (p.w 0) 0x20) 31 0
      (t0.regF (queueReg (p.w 0) 0x20) 31 0 ||| p.w 1 % 2 ^ 32)).headPast q p.bytes).cpServed q) := by
  have hframes := h.2.2.2
  refine State.packet_ok h hop ?_
  have hhigh : (p.w 0 / 64 != 0) = false := by
    rw [Nat.div_eq_of_lt ht]
    rfl
  have hbit : bit p.flags 0 = false := by
    rw [hflags]
    rfl
  simp only [hhigh, hbit, Bool.false_eq_true, if_false, State.deliver_queue ht hctx hen, if_true, BitVec.toNat_ofNat]
  exact congrArg Except.ok (State.qDone_of_no_frames (by rw [State.queue_setRegF]; exact hframes) p)

/-- Settles O30, packet by packet: each in the ring moves HEAD behind itself. -/
theorem packets : Obligations.Packets := by
  intro s t0 q p h
  have hframes : (t0.queue q).frames = [] := h.2.2.2
  refine ⟨fun hop => ?nop, fun va d t1 hop hva hdesc hf hlots => ?launch,
    fun va gv x y z r d t1 t2 hop hva hgv hal hgrid hxyz hdesc hf hlots => ?indirect, fun hop hw hflags id hid => ?cancel,
    fun hop hflags ht hctx hen => ?wake, fun hop => ⟨fun hnow => ?taken, fun hnow => ?blocked⟩⟩
  case nop =>
    show execPacketNop q s = _
    refine State.packet_ok h hop ?_
    exact congrArg Except.ok (State.qDone_of_no_frames hframes p)
  case launch =>
    obtain ⟨y, hy⟩ := State.qLaunch_accepted (p := p) hf hlots
    exact ⟨_, y, execPacketLaunch_accepted h hop hva hdesc, hy⟩
  case indirect =>
    obtain ⟨y', hy⟩ := State.qLaunch_accepted (p := p) hf hlots
    exact ⟨_, y', execPacketLaunchind_accepted h hop hva hgv hal hgrid hxyz hdesc, hy⟩
  case cancel => exact execPacketCancel_launch h hop hw hflags hid
  case wake => exact execPacketWake_queue h hop hflags ht hctx hen
  case taken =>
    have htaken := State.evalWake_wakes hframes hnow
    exact (execPacketWaitwake_at h hop).trans (congrArg Host.Outcome.next (congrArg (fun t => State.cpServed t q) htaken))
  case blocked =>
    have hblocked : t0.evalWake q p = t0.setBlocked q .wake := if_pos hnow
    exact (execPacketWaitwake_at h hop).trans (congrArg Host.Outcome.next (congrArg (fun t => State.cpServed t q) hblocked))

end Sys2Proof.Machine
end

section
/-! Laws of releases (07_ordering.md R180 to R184): lines that go home change memory, transfers, the queues of the banks, free values
and the marks of monitors, and leave everything else as it is. -/

namespace Sys2Proof.Machine

/-! ### A lot but for its monitors -/

/-- A thread without its monitor. -/
def Thread.offMon (t : Thread) : Thread := { t with mon := Option.none }

/-- A lot without the monitors of its threads. -/
def Lot.offMon (l : Lot) : Lot := { l with threads := l.threads.map (fun e => (e.1, e.2.offMon)) }

theorem Tbl.get_map {α β : Type} (f : α → β) (d : α) (t : Tbl α) (k : Nat) :
    Tbl.get (f d) (t.map (fun e => (e.1, f e.2))) k = f (Tbl.get d t k) := by
  induction t with
  | nil => rfl
  | cons e t ih =>
    simp only [List.map_cons, Tbl.get]
    split
    · rfl
    · exact ih

theorem Lot.thr_offMon (l : Lot) (a : Agent) : l.offMon.thr a = (l.thr a).offMon :=
  Tbl.get_map Thread.offMon Thread.none l.threads a.key

/-- Lots alike but for their monitors: everything but the threads is equal, and so are the threads but for the monitors. -/
theorem Lot.of_offMon {l k : Lot} (h : l.offMon = k.offMon) :
    l = { k with threads := l.threads } ∧ ∀ a, (l.thr a).offMon = (k.thr a).offMon := by
  refine ⟨?_, fun a => by rw [← Lot.thr_offMon, ← Lot.thr_offMon, h]⟩
  calc l = { l.offMon with threads := l.threads } := rfl
    _ = { k with threads := l.threads } := by rw [h]; rfl

theorem Thread.of_offMon {t u : Thread} (h : t.offMon = u.offMon) : t = { u with mon := t.mon } := by
  calc t = { t.offMon with mon := t.mon } := rfl
    _ = { u with mon := t.mon } := by rw [h]; rfl

/-! ### The state but for what goes home -/

/-- The state but for memory, free values, transfers, the queues of the banks, messages to the outside and the marks of monitors;
the records that wait stay in view. -/
def State.offHome (s : State) : State :=
  { s with
    m := { MemS.reset with recs := s.m.recs }, free := 0, e := { s.e with booths := [] },
    p := { s.p with transfers := [], out := [] }, lots := s.lots.map (fun e => (e.1, e.2.map Lot.offMon)) }

theorem Lot.offMon_mapThreads (l : Lot) (f : Thread → Thread) (hf : ∀ t, (f t).offMon = t.offMon) :
    Lot.offMon { l with threads := l.threads.map (fun e => (e.1, f e.2)) } = l.offMon := by
  unfold Lot.offMon
  have hmap : (l.threads.map (fun e => (e.1, f e.2))).map (fun e => (e.1, e.2.offMon)) = l.threads.map (fun e => (e.1, e.2.offMon)) := by
    rw [List.map_map]
    exact List.map_congr_left fun e _ => congrArg (Prod.mk e.1) (hf e.2)
  simp only [hmap]

/-- Marks of monitors, lot by lot. -/
theorem State.mapLots_offHome (s : State) (f : Nat → Lot → Lot) (hf : ∀ n l, (f n l).offMon = l.offMon) :
    State.offHome { s with lots := s.lots.map (fun e => (e.1, e.2.map (f e.1))) } = s.offHome := by
  have hmap : (s.lots.map (fun e => (e.1, e.2.map (f e.1)))).map (fun e => (e.1, e.2.map Lot.offMon)) =
      s.lots.map (fun e => (e.1, e.2.map Lot.offMon)) := by
    rw [List.map_map]
    refine List.map_congr_left fun e _ => congrArg (Prod.mk e.1) ?_
    simp only [Option.map_map]
    exact Option.map_congr fun l _ => hf e.1 l
  unfold State.offHome
  simp only [hmap]

/-- A thread whose monitor notes a write to its line. -/
def Thread.noted (line : Nat) (t : Thread) : Thread :=
  match t.mon with
  | some m => if !m.scratch && m.line == line && !m.lost then { t with mon := some { m with pending := true } } else t
  | .none => t

theorem Thread.offMon_noted (line : Nat) (t : Thread) : (t.noted line).offMon = t.offMon := by
  unfold Thread.noted
  split
  · split <;> rfl
  · rfl

theorem State.markMonitors_eq (s : State) (line : Nat) (f : Nat → Bool) :
    s.markMonitors line f = { s with lots := s.lots.map (fun e => (e.1, e.2.map (fun l =>
      if f (e.1 / 4) then { l with threads := l.threads.map (fun te => (te.1, te.2.noted line)) } else l))) } := rfl

theorem State.markMonitors_offHome (s : State) (line : Nat) (f : Nat → Bool) : (s.markMonitors line f).offHome = s.offHome := by
  rw [State.markMonitors_eq]
  refine State.mapLots_offHome s (fun n l =>
    if f (n / 4) then { l with threads := l.threads.map (fun te => (te.1, te.2.noted line)) } else l) (fun n l => ?_)
  split
  · exact Lot.offMon_mapThreads l _ (Thread.offMon_noted line)
  · rfl

theorem State.setDieLine_offHome (s : State) (die line : Nat) (d : DieLine) : (s.setDieLine die line d).offHome = s.offHome := rfl
theorem State.dropMirror_offHome (s : State) (die line : Nat) : (s.dropMirror die line).offHome = s.offHome := rfl
theorem State.endTransfers_offHome (s : State) (w : Waiter) : (s.endTransfers w).offHome = s.offHome := rfl

theorem State.bankServed_offHome (s : State) (pa : Nat) (w : Waiter) : (s.bankServed pa w).offHome = s.offHome := by
  unfold State.bankServed
  split
  · dsimp only
    split <;> rfl
  · rfl

theorem State.bankWait_offHome (s : State) (pa : Nat) (w : Waiter) : (s.bankWait pa w).offHome = s.offHome := by
  unfold State.bankWait
  split
  · dsimp only
    split <;> rfl
  · rfl

theorem State.addTransfer_offHome (s : State) (t : Transfer) : (s.addTransfer t).offHome = s.offHome := by
  unfold State.addTransfer
  split <;> rfl

theorem State.wayWait_offHome (s : State) (w : Waiter) (die pa out back : Nat) : (s.wayWait w die pa out back).offHome = s.offHome := by
  unfold State.wayWait
  dsimp only
  split
  · split
    · exact s.bankWait_offHome ..
    · rfl
  · split
    · split
      · exact s.addTransfer_offHome _
      · rfl
    · split
      · rfl
      · split
        · exact s.addTransfer_offHome _
        · exact s.bankWait_offHome ..

theorem State.setHomeByte_offHome (s : State) (pa : Nat) (b : Byte) : (s.setHomeByte pa b).offHome = s.offHome := by
  rw [State.setHomeByte_frame]
  rfl

theorem State.setHomeBytes_offHome (s : State) (pa : Nat) (bs : List Byte) : (s.setHomeBytes pa bs).offHome = s.offHome := by
  rw [State.setHomeBytes_frame]
  rfl

theorem State.writeHomeLine_offHome (s : State) (w : Waiter) (line data mask : Nat) :
    (s.writeHomeLine w line data mask).offHome = s.offHome := by
  unfold State.writeHomeLine
  split
  · rfl
  · refine (State.markMonitors_offHome ..).trans ((State.bankServed_offHome ..).trans (foldl_keeps State.offHome _ (fun s i => ?_) _ _))
    split
    · exact s.setHomeByte_offHome ..
    · rfl

theorem State.writeBack_offHome (s : State) (die line data mask : Nat) : (s.writeBack die line data mask).offHome = s.offHome := by
  unfold State.writeBack
  split
  · dsimp only
    split
    · exact State.writeHomeLine_offHome ..
    · rfl
  · exact State.writeHomeLine_offHome ..

theorem State.enterDie_offHome (s : State) (e : Early) : (s.enterDie e).offHome = s.offHome := by
  unfold State.enterDie
  dsimp only
  split
  · exact (State.writeBack_offHome ..).trans (State.markMonitors_offHome ..)
  · exact (State.setDieLine_offHome ..).trans (State.markMonitors_offHome ..)

theorem State.settleLine_offHome (s : State) (die line : Nat) : (s.settleLine die line).offHome = s.offHome :=
  foldl_keeps State.offHome _ State.enterDie_offHome _ _

theorem State.cleanLine_offHome (s : State) (die line : Nat) : (s.cleanLine die line).offHome = s.offHome := by
  unfold State.cleanLine
  dsimp only
  split
  · exact s.settleLine_offHome ..
  · exact (State.setDieLine_offHome ..).trans ((State.dropMirror_offHome ..).trans ((State.endTransfers_offHome ..).trans
      ((State.writeBack_offHome ..).trans (s.settleLine_offHome ..))))

theorem State.evictLine_offHome (s : State) (die line : Nat) : (s.evictLine die line).offHome = s.offHome := by
  unfold State.evictLine
  dsimp only
  split
  · exact s.cleanLine_offHome ..
  · exact (State.setDieLine_offHome ..).trans (s.cleanLine_offHome ..)

theorem State.dieRelease_offHome (s : State) (die ctx : Nat) : (s.dieRelease die ctx).offHome = s.offHome := by
  refine foldl_keeps State.offHome _ (fun s line => ?_) _ _
  split
  · exact s.cleanLine_offHome ..
  · exact s.wayWait_offHome ..

theorem State.scopeRelease_offHome (s : State) (core ctx : Nat) (sc : Scope) : (s.scopeRelease core ctx sc).offHome = s.offHome := by
  have hsettle : ∀ es : List Early, (es.foldl (fun s e => s.settleLine (dieOf core) e.line) s).offHome = s.offHome := fun es =>
    foldl_keeps State.offHome _ (fun s e => s.settleLine_offHome ..) _ _
  unfold State.scopeRelease
  split
  · rfl
  · rfl
  · exact hsettle _
  · exact (State.dieRelease_offHome ..).trans (hsettle _)

theorem State.releaseScope_offHome (s : State) (core ctx : Nat) (sc : Scope) : (s.releaseScope core ctx sc).2.offHome = s.offHome :=
  s.scopeRelease_offHome ..

/-! ### What stands outside -/

section
variable {s t : State} (h : t.offHome = s.offHome)
include h

theorem State.cores_of_offHome : t.cores = s.cores := by injection h
theorem State.dev_of_offHome : t.dev = s.dev := by injection h
theorem State.w_of_offHome : t.w = s.w := by injection h
theorem State.recs_of_offHome : t.m.recs = s.m.recs := congrArg (fun x => x.m.recs) h

theorem State.core_of_offHome (c : Nat) : t.core c = s.core c := State.core_of_cores (State.cores_of_offHome h) c

theorem State.launch?_of_offHome (i : Nat) : t.launch? i = s.launch? i := by
  unfold State.launch?
  rw [State.w_of_offHome h]

theorem State.offMon_lot?_of_offHome (c b : Nat) : (t.lot? c b).map Lot.offMon = (s.lot? c b).map Lot.offMon := by
  have hlots : ∀ x : State, (x.lot? c b).map Lot.offMon = Tbl.get none x.offHome.lots (lotKey c b) := fun x =>
    (Tbl.get_map (Option.map Lot.offMon) none x.lots (lotKey c b)).symm
  rw [hlots, hlots, h]

/-- A lot is still there, but for the marks of its monitors. -/
theorem State.lot?_of_offHome {c b : Nat} {l : Lot} (hl : s.lot? c b = some l) : ∃ l', t.lot? c b = some l' ∧ l'.offMon = l.offMon := by
  have := State.offMon_lot?_of_offHome h c b
  rw [hl, Option.map_some] at this
  exact Option.map_eq_some_iff.mp this

end

end Sys2Proof.Machine
end

section
/-! Soft interrupts, dependences, completion and the wake FIFO (02_work.md R47, R56, R58, R63 to R65; 17_ref_s_z.md R437, R438; O26). -/

namespace Sys2Proof.Machine

/-! ### SWI -/

/-- The soft interrupt that a lane sends, of a state that has handed out the number given. -/
def View.swiOf (v : View) (s : State) (a b : BitVec 7) (id : Nat) (t : Agent) : Swi :=
  ⟨id, ⟨v.i.core, v.i.bctx, t.w, t.l⟩, v.l.ctx, v.l.d.va, v.l.index, v.i.hdr, BitVec.ofNat 32 (v.l.val t a 32),
    BitVec.ofNat 32 (v.l.val t b 32), ((s.accs.filter (fun x => x.t == ⟨v.i.core, v.i.bctx, t.w, t.l⟩ && !x.hasResult)).map (fun x => x.id)
      ++ s.pendingOf v.i.core v.i.bctx t).eraseDups⟩

/-- The soft interrupts that some lanes send, in order. -/
def View.swisOf (v : View) (s : State) (a b : BitVec 7) (id : Nat) : List Agent → List Swi
  | [] => []
  | t :: ts => v.swiOf s a b id t :: v.swisOf s a b (id + 1) ts

/-- Soft interrupts join those under way. -/
def State.withSwis (s : State) (n : Nat) (new : List Swi) : State :=
  { s with nextId := s.nextId + n, w := { s.w with swis := s.w.swis ++ new } }

theorem View.foldl_swi (v : View) (s : State) (a b : BitVec 7) (ts : List Agent) (n : Nat) (sent : List Swi) :
    ts.foldl (fun s t =>
      let (id, s) := s.fresh
      let lane : LaneId := ⟨v.i.core, v.i.bctx, t.w, t.l⟩
      let own := (s.accs.filter (fun x => x.t == lane && !x.hasResult)).map (fun x => x.id)
      let after := (own ++ s.pendingOf v.i.core v.i.bctx t).eraseDups
      { s with w := { s.w with swis := s.w.swis ++ [⟨id, lane, v.l.ctx, v.l.d.va, v.l.index, v.i.hdr, BitVec.ofNat 32 (v.l.val t a 32),
        BitVec.ofNat 32 (v.l.val t b 32), after⟩] } }) (s.withSwis n sent)
      = s.withSwis (n + ts.length) (sent ++ v.swisOf s a b (s.nextId + n) ts) := by
  induction ts generalizing n sent with
  | nil => rw [List.foldl_nil, View.swisOf, List.append_nil]; rfl
  | cons t ts ih =>
    have hstep := ih (n + 1) (sent ++ [v.swiOf s a b (s.nextId + n) t])
    rw [List.append_assoc, List.singleton_append] at hstep
    rw [List.foldl_cons, List.length_cons, View.swisOf, Nat.add_comm ts.length 1, ← Nat.add_assoc]
    refine Eq.trans ?_ hstep
    refine congrArg (fun x => List.foldl _ x ts) ?_
    unfold State.withSwis State.fresh View.swiOf
    simp only [List.append_assoc]
    rfl

theorem View.swisOf_values (v : View) (s : State) (a b : BitVec 7) (id : Nat) (ts : List Agent) :
    (v.swisOf s a b id ts).map (fun x => (x.t, x.ctx, x.value.toNat, x.target.toNat)) =
      ts.map (fun x => ((⟨v.i.core, v.i.bctx, x.w, x.l⟩ : LaneId), v.l.ctx, v.l.val x a 32, v.l.val x b 32)) := by
  induction ts generalizing id with
  | nil => rfl
  | cons t ts ih =>
    rw [View.swisOf, List.map_cons, List.map_cons, ih]
    simp only [View.swiOf, BitVec.toNat_ofNat, Nat.mod_eq_of_lt (Lot.val_lt _ _ _)]

theorem View.mem_swisOf {v : View} {s : State} {a b : BitVec 7} {id : Nat} {ts : List Agent} {x : Swi} (h : x ∈ v.swisOf s a b id ts) :
    ∃ i t, x = v.swiOf s a b i t := by
  induction ts generalizing id with
  | nil => simp [View.swisOf] at h
  | cons t ts ih =>
    rcases List.mem_cons.mp h with rfl | h
    · exact ⟨id, t, rfl⟩
    · exact ih h

/-- A soft interrupt waits for the stores of its lane and for what the lane has observed. -/
theorem View.mem_swiOf_after {v : View} {s : State} (hl : s.lot? v.i.core v.i.bctx = some v.l) (a b : BitVec 7) (id : Nat) (t : Agent)
    {y : Acc} (hy : y ∈ s.accs)
    (h : (y.t = ⟨v.i.core, v.i.bctx, t.w, t.l⟩ ∧ y.hasResult = false) ∨ y.id ∈ (v.l.thr t).obs) :
    y.id ∈ (v.swiOf s a b id t).after := by
  unfold View.swiOf State.pendingOf
  rw [hl]
  simp only [List.mem_eraseDups, List.mem_append, List.mem_map, List.mem_filter, Bool.and_eq_true, beq_iff_eq, Bool.not_eq_true',
    Bool.or_eq_true, List.contains_iff_mem]
  rcases h with h | h
  · exact .inl ⟨y, ⟨hy, h⟩, rfl⟩
  · exact .inr (.inl ⟨y, ⟨hy, .inr h⟩, rfl⟩)

theorem execSwi_sends {s : State} {v : View} {p : BitVec 3} {a b : BitVec 7} (h : s.runs v p true true [use1 a, use1 b]) :
    execSwi p a b s = .next (s.withSwis v.parts.length (v.swisOf s a b s.nextId v.parts)) := by
  have hfold := v.foldl_swi s a b v.parts 0 []
  have hs : s.withSwis 0 [] = s := by
    unfold State.withSwis
    rw [List.append_nil]
    rfl
  rw [hs, Nat.zero_add, List.nil_append] at hfold
  exact (State.instr_runs h _).trans (congrArg Host.Outcome.next hfold)

/-! ### Delivery -/

/-- A soft interrupt alone whose lane's writes are performed and released is delivered, or its failure recorded. -/
theorem execSwiDelivery_released {s : State} {x : Swi} (hx : s.w.swis = [x])
    (hafter : ∀ i ∈ x.after, s.unperformed x.t.core x.t.bctx i = false) (hrel : (s.releaseScope x.t.core x.ctx .sys).1 = true) :
    ∃ (u : State) (who : WakeEntry) (r : FRec), u.w = { s.w with swis := [] } ∧ u.dev = s.dev ∧ u.m.recs = s.m.recs ∧ who.ctx = x.ctx ∧ who.value = x.value
      ∧ execSwiDelivery x.id s = .next (if (u.deliver x.ctx x.value x.target.toNat who).1
        then (u.deliver x.ctx x.value x.target.toNat who).2
        else ((u.deliver x.ctx x.value x.target.toNat who).2).writeRec x.ctx r) := by
  have hout := s.releaseScope_offHome x.t.core x.ctx .sys
  have hw : (s.releaseScope x.t.core x.ctx .sys).2.w = s.w := State.w_of_offHome hout
  have hdev := State.dev_of_offHome hout
  have hrecs := State.recs_of_offHome hout
  have hfind : s.w.swis.find? (fun y => y.id == x.id) = some x := by
    rw [hx]
    simp
  have hfirst : (s.w.swis.any (fun y => y.id < x.id && y.t == x.t && y.place == x.place)
      || x.after.any (fun i => s.unperformed x.t.core x.t.bctx i)) = false := by
    rw [hx]
    simpa using hafter
  let u : State := { (s.releaseScope x.t.core x.ctx .sys).2 with w := { s.w with swis := [] } }
  refine ⟨u, ⟨x.ctx, x.value, x.t.core, recWarp (laneAgent x.t), recLanes [laneAgent x.t]⟩,
    { swiRec x.t.core (recWarp (laneAgent x.t)) (recLanes [laneAgent x.t]) x.hdr x.value x.target with
      desc := x.desc, lot := x.lot, lotend := x.lot }, rfl, hdev, hrecs, rfl, rfl, ?_⟩
  have hgone : ({ (s.releaseScope x.t.core x.ctx .sys).2.w with
      swis := (s.releaseScope x.t.core x.ctx .sys).2.w.swis.filter (fun y => y.id != x.id) } : WorkS) = { s.w with swis := [] } := by
    rw [hw, hx]
    simp
  unfold execSwiDelivery
  rw [hfind]
  dsimp only
  rw [hfirst, if_neg (by decide)]
  have hpair : s.releaseScope x.t.core x.ctx .sys = (true, (s.releaseScope x.t.core x.ctx .sys).2) := by rw [← hrel]
  rw [hpair]
  dsimp only
  rw [hgone]

theorem bit_target (w : Word) : bit w.toNat 6 = w.getLsbD 6 := by
  rw [← BitVec.testBit_toNat, Nat.testBit_eq_decide_div_mod_eq]
  rfl

theorem bits_target (n : Nat) : bits n 5 0 = n % 64 := by
  unfold bits
  omega

theorem State.deliver_fifo {u : State} {t : Nat} (ht : bit t 6 = true) (hroom : u.w.wakeFifo.length < 256) (ctx : Nat) (v : Word)
    (who : WakeEntry) : u.deliver ctx v t who = (true, { u with w := { u.w with wakeFifo := u.w.wakeFifo ++ [who] } }) := by
  unfold State.deliver
  rw [if_pos ht, if_neg (by omega)]

theorem State.deliver_fifo_full {u : State} {t : Nat} (ht : bit t 6 = true) (hfull : 256 ≤ u.w.wakeFifo.length) (ctx : Nat) (v : Word)
    (who : WakeEntry) : u.deliver ctx v t who = (false, u) := by
  unfold State.deliver
  rw [if_pos ht, if_pos hfull]

theorem State.deliver_off {u : State} {t : Nat} (ht : bit t 6 = false) (hoff : u.regF (queueReg (t % 64) 0) 0 0 = 0) (ctx : Nat) (v : Word)
    (who : WakeEntry) : u.deliver ctx v t who = (false, u) := by
  unfold State.deliver
  simp only [ht, Bool.false_eq_true, if_false, bits_target, hoff]
  simp

theorem State.deliver_on {u : State} {t ctx : Nat} (ht : bit t 6 = false) (hctx : u.regF (queueReg (t % 64) 0) 19 8 = ctx)
    (hon : u.regF (queueReg (t % 64) 0) 0 0 = 1) (v : Word) (who : WakeEntry) :
    u.deliver ctx v t who = (true, u.setRegF (queueReg (t % 64) 0x20) 31 0 (u.regF (queueReg (t % 64) 0x20) 31 0 ||| v.toNat)) := by
  unfold State.deliver
  simp only [ht, Bool.false_eq_true, if_false, bits_target, hon, hctx]
  simp

/-- A wake register with the bits of a value set. -/
theorem State.regF_wake (u : State) (pa : Nat) (v : Word) :
    (u.setRegF pa 31 0 (u.regF pa 31 0 ||| v.toNat)).regF pa 31 0 = u.regF pa 31 0 ||| v.toNat := by
  rw [State.regF_setRegF_same _ _ _ _ _ (by decide)]
  exact Nat.mod_eq_of_lt (Nat.or_lt_two_pow (u.regF_lt pa 31 0) v.isLt)

theorem State.regF_of_dev {s t : State} (h : t.dev = s.dev) (pa hi lo : Nat) : t.regF pa hi lo = s.regF pa hi lo :=
  State.regF_of_reg (State.reg_of_dev h pa) hi lo

/-! ### Completion -/

/-- A member of a level has completed. -/
theorem State.memberDone_of_level {s : State} {y : Level} (h : s.level? y.id = some y) :
    (s.memberDone (some y.id)).counter y.ctx y.counter = s.counter y.ctx y.counter + 1
      ∧ ((s.memberDone (some y.id)).level? y.id).map (fun z => z.members) = some (y.members - 1)
      ∧ (s.memberDone (some y.id)).w.launches = s.w.launches
      ∧ (∀ i, i ≠ y.id → (s.memberDone (some y.id)).level? i = s.level? i)
      ∧ (s.memberDone (some y.id)).m = s.m ∧ (s.memberDone (some y.id)).lots = s.lots := by
  have hdone : s.memberDone (some y.id) = (s.setLevel { y with members := y.members - 1 }).addCounter y.ctx y.counter 1 := by
    unfold State.memberDone
    rw [Option.bind_some, h]
  have hlevel : ∀ i, (s.memberDone (some y.id)).level? i = if y.id = i then (s.level? i).map (fun _ => { y with members := y.members - 1 })
      else s.level? i := fun i => by
    rw [hdone]
    exact State.level?_setLevel s { y with members := y.members - 1 } i
  refine ⟨?_, ?_, by rw [hdone]; rfl, fun i hi => ?_, by rw [hdone]; rfl, by rw [hdone]; rfl⟩
  · rw [hdone]
    exact State.counter_setCounter ..
  · rw [hlevel, if_pos rfl, h]
    rfl
  · rw [hlevel, if_neg (Ne.symm hi)]

/-- The state without a launch: its parent launch counts one child less, and its context one device launch less. -/
def State.withoutLaunch (s : State) (x : Launch) : State :=
  { s with w := { s.w with
    launches := (s.w.launches.filter (fun (y : Launch) => y.id != x.id)).map (fun (y : Launch) =>
      if some y.id == x.parentLaunch then { y with children := y.children - 1 } else y),
    device := if x.device then Tbl.put 0 s.w.device x.ctx (Tbl.get 0 s.w.device x.ctx - 1) else s.w.device } }

theorem State.completeLaunch_eq (s : State) (x : Launch) : s.completeLaunch x = (s.withoutLaunch x).memberDone x.parentLevel := rfl

theorem State.launch?_withoutLaunch (s : State) (x : Launch) : (s.withoutLaunch x).launch? x.id = none := by
  unfold State.launch? State.withoutLaunch
  simp only [List.find?_eq_none, List.mem_map, List.mem_filter]
  rintro _ ⟨y, ⟨-, hy⟩, rfl⟩
  split <;> simpa using hy

theorem execLaunchCompletion_waits {s : State} {x : Launch} (hx : s.launch? x.id = some x) (h : x.retired ≠ x.total ∨ x.children ≠ 0) :
    execLaunchCompletion x.id s = .next s := by
  have hfin : x.finished = false := by
    unfold Launch.finished
    rw [Bool.and_eq_false_iff]
    exact h.imp (fun h => by simpa using h) (fun h => by simpa using h)
  unfold execLaunchCompletion
  rw [hx]
  simp only [hfin, Bool.false_eq_true, if_false]

/-- The state without a level. -/
def State.withoutLevel (s : State) (x : Level) : State := { s with w := { s.w with levels := s.w.levels.filter (fun y => y.id != x.id) } }

theorem State.level?_withoutLevel (s : State) (x : Level) (i : Nat) :
    (s.withoutLevel x).level? i = if i = x.id then none else s.level? i := by
  unfold State.level? State.withoutLevel
  simp only [List.find?_filter]
  split
  · next h =>
    rw [h]
    simp
  · next h =>
    refine congrArg (fun f => List.find? f s.w.levels) (funext fun y => ?_)
    by_cases hy : y.id = i
    · simp [hy, h]
    · simp [hy]

/-- The three ways in which the delivery of a soft interrupt goes. -/
theorem execSwiDelivery_delivers {s : State} {x : Swi} (hx : s.w.swis = [x])
    (hafter : ∀ i ∈ x.after, s.unperformed x.t.core x.t.bctx i = false) (hrel : (s.releaseScope x.t.core x.ctx .sys).1 = true) :
    let q := x.target.toNat % 64
    (x.target.getLsbD 6 = false → s.regF (queueReg q 0) 19 8 = x.ctx → s.regF (queueReg q 0) 0 0 = 1 →
      ∃ t, execSwiDelivery x.id s = .next t ∧ t.w.swis = []
        ∧ t.regF (queueReg q 0x20) 31 0 = s.regF (queueReg q 0x20) 31 0 ||| x.value.toNat)
    ∧ (x.target.getLsbD 6 = true → s.w.wakeFifo.length < 256 →
      ∃ t e, execSwiDelivery x.id s = .next t ∧ t.w.swis = [] ∧ t.w.wakeFifo = s.w.wakeFifo ++ [e] ∧ e.ctx = x.ctx ∧ e.value = x.value)
    ∧ ((x.target.getLsbD 6 = true ∧ 256 ≤ s.w.wakeFifo.length) ∨ (x.target.getLsbD 6 = false ∧ s.regF (queueReg q 0) 0 0 = 0) →
      ∃ t, execSwiDelivery x.id s = .next t ∧ t.w.swis = [] ∧ t.w.wakeFifo = s.w.wakeFifo ∧ s.recorded t x.ctx) := by
  intro q
  obtain ⟨u, who, r, huw, hdev, hrecs, hctx, hvalue, hexec⟩ := execSwiDelivery_released hx hafter hrel
  have hreg := State.regF_of_dev hdev
  have hfifo : u.w.wakeFifo = s.w.wakeFifo := by rw [huw]
  rw [← bit_target]
  refine ⟨fun ht hc hon => ?queue, fun ht hroom => ?fifo, fun hfail => ?failed⟩
  case queue =>
    rw [State.deliver_on ht ((hreg ..).trans hc) ((hreg ..).trans hon), if_pos rfl] at hexec
    refine ⟨_, hexec, congrArg WorkS.swis huw, ?_⟩
    rw [State.regF_wake, hreg]
  case fifo =>
    rw [State.deliver_fifo ht (by rw [hfifo]; exact hroom), if_pos rfl] at hexec
    exact ⟨_, who, hexec, congrArg WorkS.swis huw, congrArg (· ++ [who]) hfifo, hctx, hvalue⟩
  case failed =>
    have hdeliver : u.deliver x.ctx x.value x.target.toNat who = (false, u) := by
      rcases hfail with ⟨ht, hfull⟩ | ⟨ht, hoff⟩
      · exact State.deliver_fifo_full ht (by rw [hfifo]; exact hfull) ..
      · exact State.deliver_off ht ((hreg ..).trans hoff) ..
    rw [hdeliver, if_neg Bool.false_ne_true] at hexec
    refine ⟨_, hexec, ?_, ?_, State.recorded_of_same (u.writeRec_recorded x.ctx r) ?_ hrecs.symm rfl rfl⟩
    · rw [u.writeRec_w, huw]
    · rw [u.writeRec_w, huw]
    · unfold State.ctxS
      rw [huw]

/-- A launch whose lots and children are done is gone, and its level counts it. -/
theorem execLaunchCompletion_completes {s : State} {x : Launch} {y : Level} (hx : s.launch? x.id = some x) (hretired : x.retired = x.total)
    (hchildren : x.children = 0) (hparent : x.parentLevel = some y.id) (hy : s.level? y.id = some y) :
    ∃ t, execLaunchCompletion x.id s = .next t ∧ t.launch? x.id = none ∧ t.counter y.ctx y.counter = s.counter y.ctx y.counter + 1
      ∧ (t.level? y.id).map (fun z => z.members) = some (y.members - 1) ∧ t.m = s.m ∧ t.lots = s.lots := by
  have hfin : x.finished = true := by
    unfold Launch.finished
    simp [hretired, hchildren]
  obtain ⟨hcounter, hlevel, hlaunches, -, hm, hlots⟩ := State.memberDone_of_level (s := s.withoutLaunch x) hy
  refine ⟨(s.withoutLaunch x).memberDone (some y.id), ?_, ?_, hcounter, hlevel, hm, hlots⟩
  · unfold execLaunchCompletion
    rw [hx]
    simp only [hfin, if_true]
    rw [State.completeLaunch_eq, hparent]
  · unfold State.launch?
    rw [hlaunches]
    exact s.launch?_withoutLaunch x

/-- A closed level without members is gone, and the level around it counts it. -/
theorem execLevelCompletion_completes {s : State} {x y : Level} (hx : s.level? x.id = some x) (hclosed : x.closed = true)
    (hmembers : x.members = 0) (hparent : x.parent = some y.id) (hne : y.id ≠ x.id) (hy : s.level? y.id = some y) :
    ∃ t, execLevelCompletion x.id s = .next t ∧ t.level? x.id = none ∧ t.counter y.ctx y.counter = s.counter y.ctx y.counter + 1
      ∧ (t.level? y.id).map (fun z => z.members) = some (y.members - 1) ∧ t.m = s.m ∧ t.lots = s.lots := by
  have hrest : (s.withoutLevel x).level? y.id = some y := by rw [State.level?_withoutLevel, if_neg hne, hy]
  obtain ⟨hcounter, hlevel, -, hothers, hm, hlots⟩ := State.memberDone_of_level hrest
  refine ⟨(s.withoutLevel x).memberDone (some y.id), ?_, ?_, hcounter, hlevel, hm, hlots⟩
  · unfold execLevelCompletion State.completeLevel
    rw [hx]
    simp only [hclosed, hmembers, beq_self_eq_true, Bool.and_self, if_true, hparent]
    rfl
  · rw [hothers x.id (Ne.symm hne), State.level?_withoutLevel, if_pos rfl]

/-- The oldest entry of the wake FIFO becomes a record. -/
theorem execWakeFifoServe_records {s : State} {e : WakeEntry} {rest : List WakeEntry} (hfifo : s.w.wakeFifo = e :: rest)
    (hpower : s.regF pwrctlReg 32 32 = 0) : ∃ t, execWakeFifoServe s = .next t ∧ t.w.wakeFifo = rest ∧ s.recorded t e.ctx := by
  let u : State := { s with w := { s.w with wakeFifo := rest } }
  have hexec : ∃ r, execWakeFifoServe s = .next (u.writeRec e.ctx r) := by
    unfold execWakeFifoServe
    rw [hpower, hfifo]
    exact ⟨_, rfl⟩
  obtain ⟨r, hexec⟩ := hexec
  exact ⟨_, hexec, congrArg WorkS.wakeFifo (u.writeRec_w e.ctx r),
    State.recorded_of_same (u.writeRec_recorded e.ctx r) rfl rfl rfl rfl⟩

/-- Settles O26, event by event. -/
theorem interruptsAndCompletion : Obligations.InterruptsAndCompletion := by
  refine ⟨⟨fun s v p a b h => ?sends, fun s x hx hafter hrel => execSwiDelivery_delivers hx hafter hrel⟩,
    fun s x hx hoff hdeps => ?offered, fun s x d hx hd hlt => ?waits,
    fun s x y hx hretired hchildren hparent hy => execLaunchCompletion_completes hx hretired hchildren hparent hy,
    fun s x hx hopen => execLaunchCompletion_waits hx hopen,
    fun s x y hx hclosed hmembers hparent hne hy => execLevelCompletion_completes hx hclosed hmembers hparent hne hy,
    fun s e rest hfifo hpower => execWakeFifoServe_records hfifo hpower⟩
  case sends =>
    obtain ⟨-, hl, -⟩ := State.view_eq h.1
    refine ⟨_, _, execSwi_sends h, rfl, rfl, rfl, v.swisOf_values s a b s.nextId v.parts, fun x hx y hy hown => ?_⟩
    obtain ⟨i, t, rfl⟩ := View.mem_swisOf hx
    exact v.mem_swiOf_after hl a b i t hy hown
  case offered =>
    show execLaunchDependencesMet x.id s = _
    unfold execLaunchDependencesMet
    rw [hx]
    have hall : x.d.deps.all (fun d => d.2 ≤ (s.counter x.ctx d.1).toNat) = true := by simpa using hdeps
    simp only [hoff, hall, Bool.not_false, Bool.and_self, if_true]
  case waits =>
    show execLaunchDependencesMet x.id s = _
    unfold execLaunchDependencesMet
    rw [hx]
    have hall : x.d.deps.all (fun d => d.2 ≤ (s.counter x.ctx d.1).toNat) = false := by
      rw [List.all_eq_false]
      exact ⟨d, hd, by simpa using hlt⟩
    simp only [hall, Bool.and_false, Bool.false_eq_true, if_false]

end Sys2Proof.Machine
end

section
/-! Laws of parks and wakes (03_issue.md R67, R73, R75, R82): when the parks that wait for counters stay, when no stop is taken, what
parking the whole of a run leaves, and what waking plain waiters does. -/

namespace Sys2Proof.Machine

/-! ### Resident lots -/

theorem Tbl.mem_of_get {α : Type} (t : Tbl (Option α)) (k : Nat) (x : α) (h : Tbl.get none t k = some x) : (k, some x) ∈ t := by
  induction t with
  | nil => simp [Tbl.get] at h
  | cons e t ih =>
    obtain ⟨j, y⟩ := e
    simp only [Tbl.get] at h
    split at h
    · next hj => exact List.mem_cons.mpr (.inl (by rw [hj, h]))
    · exact List.mem_cons_of_mem _ (ih h)

theorem State.mem_lotList {s : State} {c b : Nat} {l : Lot} (hb : b < 4) (h : s.lot? c b = some l) : (c, b, l) ∈ s.lotList := by
  unfold State.lotList
  refine List.mem_filterMap.mpr ⟨_, Tbl.mem_of_get _ _ _ h, ?_⟩
  simp only [lotKey, Option.map_some, Option.some.injEq, Prod.mk.injEq, and_true]
  omega

theorem Lot.lane_lt {l : Lot} {a : Agent} (h : a ∈ l.allAgents) : a.l < 32 := by
  have hthreads : ∀ x ∈ l.agents, x.l < 32 := fun x hx => by
    obtain ⟨t, -, rfl⟩ := List.mem_map.mp hx
    exact Nat.mod_lt _ (by decide)
  unfold Lot.allAgents at h
  split at h
  · rcases List.mem_append.mp h with h | h
    · exact hthreads a h
    · rw [List.mem_singleton] at h
      rw [h]
      decide
  · exact hthreads a h

/-! ### Parks that wait for counters -/

/-- May the wait of a thread end with its counters, with the entries of its core, or with accesses issued again? -/
def TState.waitEnds (st : TState) (meets : BitVec 32 → Bool) (going : Bool) : Bool :=
  match st with
  | .parked (.clauseStart _) => true
  | .parked (.waitc thr) => meets thr
  | .parked .debug => going
  | _ => false

/-- A thread waits for nothing that holds already: not for the start of a clause, not for counters that have been met, and not in
DEBUG for accesses issued again. -/
def Lot.rests (l : Lot) (a : Agent) : Prop := (l.thr a).st.waitEnds (l.warp a.w).meets (l.thr a).going = false

theorem TState.waitEnds_of_calm {st : TState} {going : Bool} (hcounters : st.waitsForCounters = false) (hgoing : going = false)
    (meets : BitVec 32 → Bool) : st.waitEnds meets going = false := by
  cases st with
  | parked p =>
    cases p
    case clauseStart => exact Bool.noConfusion (hcounters : true = false)
    case waitc => exact Bool.noConfusion (hcounters : true = false)
    case debug => exact hgoing
    all_goals rfl
  | _ => rfl

/-- Every thread of a core rests. -/
def State.still (s : State) (c : Nat) : Prop := ∀ b l, b < 4 → s.lot? c b = some l → ∀ a ∈ l.allAgents, l.rests a

theorem State.still_of_calm {s : State} {c : Nat} (h : s.calm c) : s.still c := by
  intro b l hb hl a ha
  unfold State.calm at h
  rw [List.all_eq_true] at h
  have hlot := h (c, b, l) (State.mem_lotList hb hl)
  simp only [bne_self_eq_false, Bool.false_or, List.all_eq_true] at hlot
  have hthread := hlot a ha
  simp only [Bool.and_eq_true, Bool.not_eq_true'] at hthread
  exact TState.waitEnds_of_calm hthread.1 hthread.2 _

/-- What the check of a waiting thread finds: the start of its clause, its counters, or its accesses issued again. -/
def TState.waitGoes (st : TState) (starts : ClauseNeeds → Bool) (meets : BitVec 32 → Bool) (goes : Bool) : Bool :=
  match st with
  | .parked (.clauseStart n) => starts n
  | .parked (.waitc thr) => meets thr
  | .parked .debug => goes
  | _ => false

/-- Where the wait of a thread cannot end, its check finds nothing to wake. -/
theorem TState.waitGoes_of_waitEnds {st : TState} {meets : BitVec 32 → Bool} {going : Bool} (h : st.waitEnds meets going = false)
    (starts : ClauseNeeds → Bool) (again : Bool) : st.waitGoes starts meets (going && again) = false := by
  cases st with
  | parked p =>
    cases p
    case clauseStart => exact Bool.noConfusion (h : true = false)
    case waitc => exact h
    case debug =>
      have hgoing : going = false := h
      rw [hgoing]
      rfl
    all_goals rfl
  | _ => rfl

theorem State.recheckLot_of_still {s : State} {c b : Nat} (h : s.still c) (hb : b < 4) : s.recheckLot c b = s := by
  unfold State.recheckLot
  split
  · rfl
  · next l hl =>
    dsimp only
    split
    · rfl
    · next a as hgo =>
      have hmem := List.mem_cons_self (a := a) (l := as)
      rw [← hgo] at hmem
      obtain ⟨ha, hgoes⟩ := List.mem_filter.mp hmem
      have hstays := TState.waitGoes_of_waitEnds (h b l hb hl a ha)
        (fun n => (l.warp a.w).admits n (8 - s.logsUsed c b a.w) && decide (s.entriesUsed c + n.entries ≤ 3072))
        ((l.thr a).resume.all (fun i => !s.reissued i))
      exact absurd (hstays.symm.trans hgoes) Bool.false_ne_true

theorem State.recheck_of_still {s : State} {c : Nat} (h : s.still c) : s.recheck c = s := by
  refine List.foldlRecOn (motive := fun t => t = s) (List.range 4) _ rfl fun t ht b hb => ?_
  rw [ht]
  exact State.recheckLot_of_still h (List.mem_range.mp hb)

/-- A core stays still while the threads of one of its lots go on to rest. -/
theorem State.still_setLot {s : State} {c b : Nat} {l : Lot} (h : s.still c) (hl : ∀ a ∈ l.allAgents, l.rests a) : (s.setLot c b l).still c := by
  intro b' l' hb' hl' a ha
  by_cases hbb : b' = b
  · subst hbb
    rw [State.lot?_setLot, Option.some.injEq] at hl'
    subst hl'
    exact hl a ha
  · rw [State.lot?_setLot_other] at hl'
    · exact h b' l' hb' hl' a ha
    · unfold lotKey
      omega

theorem State.still_of_lots {s t : State} {c : Nat} (h : s.still c) (hlots : t.lots = s.lots) : t.still c := by
  intro b l hb hl
  rw [State.lot?_of_lots hlots] at hl
  exact h b l hb hl

/-- Every agent of the run leaves: the run has ended. -/
theorem State.leave_all {s : State} {i : Issuer} (hi : s.issuer? s.active = some i) (h : s.still i.core) {as : List Agent}
    (hall : ∀ a ∈ i.agents, a ∈ as) : s.leave as = s.setIssuer s.active none := by
  have hrest : i.agents.filter (fun a => !as.contains a) = [] := by
    rw [List.filter_eq_nil_iff]
    intro a ha
    simp [hall a ha]
  unfold State.leave
  rw [hi]
  dsimp only
  rw [hrest]
  exact State.recheck_of_still h

/-! ### Stops -/

/-- No stop is taken where every thread has none, or stands in a park. -/
theorem State.takeStops_none {s : State} {c b : Nat} {as : List Agent}
    (h : ∀ l, s.lot? c b = some l → ∀ a ∈ as, s.standsAt c b l a = false ∨ (l.thr a).stop = none) : s.takeStops c b as = s := by
  refine List.foldlRecOn (motive := fun t => t = s) as _ rfl fun t ht a ha => ?_
  rw [ht]
  cases hl : s.lot? c b with
  | none => rfl
  | some l =>
    rcases h l hl a ha with hstands | hstop
    · simp only [hstands]
    · cases hs : s.standsAt c b l a <;> simp only [hs, hstop]

/-- A park other than WAIT holds its thread whatever stop it has to take. -/
theorem State.standsAt_parked {s : State} {c b : Nat} {l : Lot} {a : Agent} {p : Park} (hst : (l.thr a).st = .parked p) (hp : p.waits = false) :
    s.standsAt c b l a = false := by
  unfold State.standsAt
  simp [hst, hp]

/-! ### The whole of a run parks -/

/-- A thread as it parks at a header. -/
def Thread.parkedAt (p : Park) (pc : VAddr) (t : Thread) : Thread :=
  let steps := match p with
    | .clauseStart _ => t.stepping
    | _ => false
  { t with
    st := .parked p, pc := pc, target := Option.none, dbgPend := t.dbgPend || (t.stepping && !steps), stepping := steps,
    via := match p with
      | .clauseStart _ => t.via
      | .dqfull _ => t.via
      | _ => Option.none }

theorem Lot.park_eq (l : Lot) (a : Agent) (p : Park) (pc : VAddr) : l.park a p pc = l.setThr a ((l.thr a).parkedAt p pc) := by
  unfold Lot.park Thread.parkedAt
  cases p <;> rfl

@[simp] theorem Thread.parkedAt_st (p : Park) (pc : VAddr) (t : Thread) : (t.parkedAt p pc).st = .parked p := rfl
@[simp] theorem Thread.parkedAt_pc (p : Park) (pc : VAddr) (t : Thread) : (t.parkedAt p pc).pc = pc := rfl
@[simp] theorem Thread.parkedAt_stop (p : Park) (pc : VAddr) (t : Thread) : (t.parkedAt p pc).stop = t.stop := rfl

/-- May a thread stay in a park, and take no stop there? -/
def Lot.staysIn (l : Lot) (a : Agent) (p : Park) : Prop :=
  match p with
  | .clauseStart _ => False
  | .waitc thr => (l.warp a.w).meets thr = false ∧ (l.thr a).stop = none
  | .debug => False
  | _ => True

theorem Lot.waitEnds_of_staysIn {l : Lot} {a : Agent} {p : Park} (h : l.staysIn a p) (going : Bool) :
    (TState.parked p).waitEnds (l.warp a.w).meets going = false := by
  cases p
  case clauseStart => exact h.elim
  case debug => exact h.elim
  case waitc thr => exact h.1
  all_goals rfl

/-- The agents of a run park together, each in the same park: the run has ended, and their threads wait at the following header. -/
theorem State.parkAll_stays {s : State} {i : Issuer} {l : Lot} {as : List Agent} {p : Park} (hi : s.issuer? s.active = some i)
    (hl : s.lot? i.core i.bctx = some l) (hend : l.ending = false) (hcalm : s.still i.core) (hnodup : as.Nodup)
    (hlane : ∀ a ∈ as, a.l < 32) (hall : ∀ a ∈ i.agents, a ∈ as) (hstays : ∀ a ∈ as, l.staysIn a p) :
    ∃ l', s.parkAll (as.map (fun a => (a, p))) = (s.setLot i.core i.bctx l').setIssuer s.active none
      ∧ l' = { l with threads := l'.threads }
      ∧ ∀ a : Agent, a.l < 32 → l'.thr a = if a ∈ as then (l.thr a).parkedAt p i.next else l.thr a := by
  obtain ⟨hframe, hthr⟩ := Lot.foldl_setThr as (fun l a => (l.thr a).parkedAt p i.next) (fun _ t => t.parkedAt p i.next) l hnodup hlane
    (fun _ _ _ _ => rfl)
  generalize hl' : as.foldl (fun l a => l.setThr a ((l.thr a).parkedAt p i.next)) l = l' at hframe hthr
  refine ⟨l', ?_, hframe, hthr⟩
  have hfold : (as.map (fun a => (a, p))).foldl (fun l e =>
      if l.ending then l.setThr e.1 { l.thr e.1 with st := .stopped, stop := none, target := none } else l.park e.1 e.2 i.next) l = l' := by
    rw [List.foldl_map, ← hl']
    have hkeeps : ∀ bs : List Agent, ∀ m : Lot, m.ending = false → bs.foldl (fun l a =>
        if l.ending then l.setThr a { l.thr a with st := .stopped, stop := none, target := none } else l.park a p i.next) m =
        bs.foldl (fun l a => l.setThr a ((l.thr a).parkedAt p i.next)) m := fun bs => by
      induction bs with
      | nil => exact fun _ _ => rfl
      | cons b bs ih =>
        intro m hm
        rw [List.foldl_cons, List.foldl_cons, hm, if_neg Bool.false_ne_true, Lot.park_eq]
        exact ih _ hm
    exact hkeeps as l hend
  have hrests : ∀ a ∈ l'.allAgents, i.bctx < 4 → l'.rests a := fun a ha hb => by
    have ha' : a ∈ l.allAgents := by rw [hframe] at ha; exact ha
    have hw : l'.warp a.w = l.warp a.w := by rw [hframe]; rfl
    have hold := hcalm _ _ hb hl a ha'
    unfold Lot.rests at hold ⊢
    rw [hthr a (Lot.lane_lt ha'), hw]
    by_cases hin : a ∈ as
    · have hstay := hstays a hin
      rw [if_pos hin, Thread.parkedAt_st]
      exact Lot.waitEnds_of_staysIn hstay _
    · rw [if_neg hin]
      exact hold
  have hstill : (s.setLot i.core i.bctx l').still i.core := by
    by_cases hb : i.bctx < 4
    · exact State.still_setLot hcalm (fun a ha => hrests a ha hb)
    · intro b' m hb' hm
      rw [State.lot?_setLot_other _ _ _ _ _ _ (by unfold lotKey; omega)] at hm
      exact hcalm b' m hb' hm
  have hnames : (as.map (fun a => (a, p))).map (fun e => e.1) = as := by
    rw [List.map_map]
    exact List.map_id as
  unfold State.parkAll
  rw [hi]
  dsimp only
  rw [hl]
  simp only [Option.map_some, Option.getD_some, hend, Bool.false_eq_true, if_false]
  rw [State.onLot_of_lot hl, hfold, hnames, State.leave_all (s := s.setLot i.core i.bctx l') hi hstill hall]
  refine State.takeStops_none fun m hm a ha => ?_
  have hml : m = l' := by
    have : (s.setLot i.core i.bctx l').lot? i.core i.bctx = some m := hm
    rw [State.lot?_setLot, Option.some.injEq] at this
    exact this.symm
  have hst : (m.thr a) = (l.thr a).parkedAt p i.next := by rw [hml, hthr a (hlane a ha), if_pos ha]
  have hstay := hstays a ha
  unfold Lot.staysIn at hstay
  cases p
  case clauseStart => exact hstay.elim
  case debug => exact hstay.elim
  case waitc thr => exact .inr (by rw [hst, Thread.parkedAt_stop]; exact hstay.2)
  all_goals exact .inl (State.standsAt_parked (by rw [hst]; rfl) rfl)

end Sys2Proof.Machine
end

section
/-! WAITC and register blocks (02_work.md R40 to R43; 03_issue.md R87; 16_ref_j_r.md R414, R415; 17_ref_s_z.md R446, R447; O16). -/

namespace Sys2Proof.Machine

/-! ### WAITC -/

/-- The test of WAITC, by the bytes of its thresholds. -/
theorem Warp.meets_eq (x : Warp) (thr : BitVec 32) : x.meets thr =
    ((thr.toNat / 256 ^ 0 % 256 == 255 || decide (x.ld ≤ thr.toNat / 256 ^ 0 % 256))
      && (thr.toNat / 256 ^ 1 % 256 == 255 || decide (x.st ≤ thr.toNat / 256 ^ 1 % 256))
      && (thr.toNat / 256 ^ 2 % 256 == 255 || decide (x.cp ≤ thr.toNat / 256 ^ 2 % 256))
      && (thr.toNat / 256 ^ 3 % 256 == 255 || decide (x.tl ≤ thr.toNat / 256 ^ 3 % 256))) := rfl

theorem execWaitc_met {s : State} {v : View} {p : BitVec 3} {thr : BitVec 32} (h : s.runs v p true true [])
    (hmet : ∀ a ∈ v.parts, (v.l.warp a.w).meets thr = true) : execWaitc p thr s = .next s := by
  refine (State.instr_runs h _).trans ?_
  have hwait : v.parts.filter (fun a => !(v.l.warp a.w).meets thr) = [] := by
    rw [List.filter_eq_nil_iff]
    intro a ha
    simp [hmet a ha]
  rw [hwait]
  rfl

/-- WAITC of one thread whose counters are above its thresholds: it parks at the following header. -/
theorem execWaitc_parks {s : State} {v : View} {p : BitVec 3} {thr : BitVec 32} {a : Agent} (h : s.runs v p true true [])
    (hagents : v.i.agents = [a]) (hparts : v.parts = [a]) (habove : (v.l.warp a.w).meets thr = false) (hcalm : s.calm v.i.core)
    (hend : v.l.ending = false) (hstop : (v.l.thr a).stop = none) :
    ∃ t l', execWaitc p thr s = .next t ∧ t.lot? v.i.core v.i.bctx = some l' ∧ t.issuer? s.active = none
      ∧ (l'.thr a).st = .parked (.waitc thr) ∧ (l'.thr a).pc = v.i.next ∧ l'.warps = v.l.warps ∧ l'.vregs = v.l.vregs := by
  obtain ⟨hi, hl, -⟩ := State.view_eq h.1
  have hlane : a.l < 32 := (h.2.1.2 a (by rw [hagents]; exact List.mem_singleton.mpr rfl)).1
  obtain ⟨l', hpark, hframe, hthr⟩ := State.parkAll_stays (as := [a]) (p := .waitc thr) hi hl hend (State.still_of_calm hcalm)
    (List.nodup_singleton a) (by simpa using hlane) (by simp [hagents]) (by simpa using ⟨habove, hstop⟩)
  have hwait : v.parts.filter (fun a => !(v.l.warp a.w).meets thr) = [a] := by
    rw [hparts]
    simp [habove]
  have ha : l'.thr a = (v.l.thr a).parkedAt (.waitc thr) v.i.next := by rw [hthr a hlane, if_pos (List.mem_singleton.mpr rfl)]
  refine ⟨(s.setLot v.i.core v.i.bctx l').setIssuer s.active none, l', ?_, State.lot?_setLot .., State.issuer?_setIssuer .., ?_, ?_, ?_, ?_⟩
  · refine (State.instr_runs h _).trans ?_
    rw [hwait]
    exact congrArg Host.Outcome.next hpark
  · rw [ha]
    rfl
  · rw [ha]
    rfl
  · rw [hframe]
  · rw [hframe]

/-! ### Blocks of one warp -/

/-- A block instruction of one thread acts for its home warp alone. -/
theorem State.blockOp_alone {s : State} {v : View} {p : BitVec 3} {a : Agent} (h : s.alone v p a true false []) (ha : a.w < 32)
    (f : View → Nat → List Agent → State → State) : s.blockOp p f = .next (f v a.w [a] s) := by
  obtain ⟨hruns, -, hparts⟩ := h
  refine (State.instr_runs hruns _).trans (congrArg Host.Outcome.next ?_)
  have hothers : ∀ w, w ≠ a.w → v.parts.filter (fun x => x.w == w) = [] := fun w hw => by
    rw [hparts]
    simp [Ne.symm hw]
  have hown : v.parts.filter (fun x => x.w == a.w) = [a] := by
    rw [hparts]
    simp
  have hskip : ∀ ws : List Nat, (∀ w ∈ ws, w ≠ a.w) → ∀ t : State, ws.foldl (fun s w =>
      let as := v.parts.filter (fun x => x.w == w)
      if as.isEmpty then s else f v w as s) t = t := fun ws hws t => by
    refine List.foldlRecOn (motive := fun u => u = t) ws _ rfl fun u hu w hw => ?_
    dsimp only
    rw [hu, hothers w (hws w hw)]
    rfl
  have hrange : List.range 32 = List.range a.w ++ a.w :: (List.range' (a.w + 1) (31 - a.w)) := by
    have hsum : 32 = a.w + (31 - a.w + 1) := by omega
    rw [List.range_eq_range', List.range_eq_range', ← List.range'_succ]
    nth_rw 1 [hsum]
    rw [← List.range'_append_1, Nat.zero_add]
  rw [hrange, List.foldl_append, hskip (List.range a.w) (fun w hw => by have := List.mem_range.mp hw; omega), List.foldl_cons,
    hskip (List.range' (a.w + 1) (31 - a.w)) (fun w hw => by have := List.mem_range'_1.mp hw; omega)]
  dsimp only
  rw [hown]
  rfl

/-- A queue without requests has nobody to serve. -/
theorem State.returnBlocks_no_queue {s : State} {c : Nat} (h : (s.core c).blockQ = []) (pool reserve : Nat) :
    s.returnBlocks c pool reserve =
      s.setCore c { s.core c with pool := (s.core c).pool + pool, reserve := (s.core c).reserve + reserve } := by
  unfold State.returnBlocks State.serveQueue
  dsimp only
  rw [State.core_setCore, h]
  rfl

theorem Tbl.get_filter {α : Type} (d : α) (t : Tbl α) (f : Nat → Bool) (k : Nat) :
    Tbl.get d (t.filter (fun e => f e.1)) k = if f k then Tbl.get d t k else d := by
  induction t with
  | nil => simp [Tbl.get]
  | cons e t ih =>
    obtain ⟨j, y⟩ := e
    by_cases hj : j = k
    · subst hj
      cases hf : f j
      · rw [List.filter_cons, if_neg (by simp [hf]), ih, hf]
        rfl
      · rw [List.filter_cons, if_pos hf]
        simp [Tbl.get]
    · rw [List.filter_cons]
      split
      · simp only [Tbl.get, if_neg hj]
        exact ih
      · rw [ih]
        simp only [Tbl.get, if_neg hj]

/-- Registers of blocks that a warp takes read zero, and its others keep their values (R41). -/
theorem Lot.vreg_clearBlocks (l : Lot) (w b n r lane : Nat) (hlane : lane < 32) :
    (l.clearBlocks w b n).vreg w r lane = if 16 * b ≤ r ∧ r < 16 * (b + n) then 0 else l.vreg w r lane := by
  refine (Tbl.get_filter (0 : Word) l.vregs (fun k => !((128 * w + 16 * b) * 32 ≤ k && k < (128 * w + 16 * (b + n)) * 32)) _).trans ?_
  by_cases hin : 16 * b ≤ r ∧ r < 16 * (b + n)
  · rw [if_pos hin, if_neg]
    simp only [Bool.not_eq_true', Bool.and_eq_false_iff, decide_eq_false_iff_not]
    omega
  · rw [if_neg hin, if_pos]
    · rfl
    · simp only [Bool.not_eq_true', Bool.and_eq_false_iff, decide_eq_false_iff_not]
      omega

/-! ### RACQ, RREL and the return of blocks -/

/-- RACQ of a warp without reserve blocks, while no request waits: the pool gives the blocks (R41). -/
theorem execRacq_pool {s : State} {v : View} {p : BitVec 3} {n : BitVec 4} {a : Agent} (h : s.alone v p a true false []) (ha : a.w < 32)
    (hroom : (v.l.warp a.w).pool + (v.l.warp a.w).reserve + n.toNat ≤ 8) (hreserve : (v.l.warp a.w).reserve = 0)
    (hqueue : (s.core v.i.core).blockQ = []) (hpool : n.toNat ≤ (s.core v.i.core).pool) :
    execRacq p n s = .next ((s.setCore v.i.core { s.core v.i.core with pool := (s.core v.i.core).pool - n.toNat }).setLot v.i.core v.i.bctx
      ((v.l.clearBlocks a.w (v.l.warp a.w).blocks n.toNat).setWarp a.w { v.l.warp a.w with pool := (v.l.warp a.w).pool + n.toNat })) := by
  obtain ⟨-, hl, -⟩ := State.view_eq h.1.1
  have hblocks : ¬ 8 < (v.l.warp a.w).blocks + n.toNat := by
    unfold Warp.blocks
    omega
  have hsource : (s.core v.i.core).source (v.l.warp a.w) n.toNat = .pool := by
    unfold CoreS.source
    simp [hreserve, hqueue, hpool]
  refine (State.blockOp_alone h ha _).trans (congrArg Host.Outcome.next ?_)
  unfold State.racq1
  rw [hl]
  dsimp only
  rw [if_neg hblocks, hsource]
  dsimp only
  exact State.onLot_of_lot (s := s.setCore v.i.core { s.core v.i.core with pool := (s.core v.i.core).pool - n.toNat }) hl _

/-- RREL of a warp with nothing outstanding: its blocks go back at once, reserve blocks first (R42, R415). -/
theorem execRrel_returns {s : State} {v : View} {p : BitVec 3} {n : BitVec 4} {a : Agent} (h : s.alone v p a true false []) (ha : a.w < 32)
    (hbase : v.l.d.base + n.toNat ≤ (v.l.warp a.w).pool + (v.l.warp a.w).reserve) (hqueue : (s.core v.i.core).blockQ = [])
    (hops : s.warpOps v.i.core v.i.bctx a.w = []) :
    let x := v.l.warp a.w
    let k := s.core v.i.core
    let r := min n.toNat x.reserve
    ∃ lim, execRrel p n s = .next (((s.releaseRegs v.i.core v.i.bctx a.w lim).setLot v.i.core v.i.bctx
      (v.l.setWarp a.w { x with reserve := x.reserve - r, pool := x.pool - (n.toNat - r) })).setCore v.i.core
        { k with pool := k.pool + (n.toNat - r), reserve := k.reserve + r }) := by
  intro x k r
  obtain ⟨-, hl, -⟩ := State.view_eq h.1.1
  have hblocks : ¬ x.blocks < v.l.d.base + n.toNat := Nat.not_lt.mpr hbase
  refine ⟨16 * Warp.blocks { x with reserve := x.reserve - r, pool := x.pool - (n.toNat - r) }, (State.blockOp_alone h ha _).trans (congrArg Host.Outcome.next ?_)⟩
  unfold State.rrel1
  rw [hl]
  dsimp only
  rw [if_neg hblocks, hops]
  exact State.returnBlocks_no_queue (s := (s.releaseRegs v.i.core v.i.bctx a.w _).setLot v.i.core v.i.bctx _) hqueue _ _

/-- BLOCK_RETURN of blocks whose operations have ended (R415). -/
theorem execBlockReturn_returns {s : State} {c b w : Nat} {l : Lot} {y : Back} (hl : s.lot? c b = some l) (hbacks : (l.warp w).backs = [y])
    (hqueue : (s.core c).blockQ = []) (hops : ∀ o ∈ y.ops, o ∉ s.warpOps c b w) :
    execBlockReturn c b w s = .next ((s.setLot c b (l.setWarp w { l.warp w with backs := [] })).setCore c
      { s.core c with pool := (s.core c).pool + y.pool, reserve := (s.core c).reserve + y.reserve }) := by
  have hended : y.ops.any (fun o => (s.warpOps c b w).contains o) = false := by
    rw [List.any_eq_false]
    intro o ho
    simpa using hops o ho
  have hdue : (l.warp w).backs.filter (fun k => !k.ops.any (fun o => (s.warpOps c b w).contains o)) = [y] := by
    rw [hbacks, List.filter_cons, if_pos (by rw [hended]; rfl)]
    rfl
  have hleft : (l.warp w).backs.filter (fun k => k.ops.any (fun o => (s.warpOps c b w).contains o)) = [] := by
    rw [hbacks, List.filter_cons, if_neg (by rw [hended]; decide)]
    rfl
  unfold execBlockReturn
  rw [hl]
  dsimp only
  rw [hdue, hleft]
  exact congrArg Host.Outcome.next
    (State.returnBlocks_no_queue (s := s.setLot c b (l.setWarp w { l.warp w with backs := [] })) hqueue y.pool y.reserve)

/-- Settles O16, instruction by instruction. -/
theorem countersAndBlocks : Obligations.CountersAndBlocks := by
  refine ⟨fun s v p thr => ?waitc, fun s v p n a => ?blocks, fun s c b w l y hl hbacks hqueue hops => ?back⟩
  case waitc =>
    intro under ok h
    have hok : ∀ a, ok a = (v.l.warp a.w).meets thr := fun a => ((v.l.warp a.w).meets_eq thr).symm
    refine ⟨fun hmet => execWaitc_met h (fun a ha => (hok a).symm.trans (hmet a ha)),
      fun a hagents hparts habove hcalm hend hstop => ?_⟩
    exact execWaitc_parks h hagents hparts ((hok a).symm.trans habove) hcalm hend hstop
  case blocks =>
    intro x k h ha
    refine ⟨fun hroom hreserve hqueue hpool => ?_, fun hbase hqueue hops => ?_⟩
    · refine ⟨_, _, execRacq_pool h ha hroom hreserve hqueue hpool, State.lot?_setLot .., Lot.warp_setWarp .., State.core_setCore ..,
        fun r lane hlo hhi hlane => ?_, fun r lane hr hlane => ?_⟩
      · rw [Lot.vreg_setWarp, Lot.vreg_clearBlocks _ _ _ _ _ _ hlane]
        exact if_pos ⟨hlo, hhi⟩
      · rw [Lot.vreg_setWarp, Lot.vreg_clearBlocks _ _ _ _ _ _ hlane]
        exact if_neg (fun hin => absurd hin.1 (Nat.not_le.mpr hr))
    · obtain ⟨lim, hexec⟩ := execRrel_returns h ha hbase hqueue hops
      exact ⟨_, _, hexec, State.lot?_setLot .., Lot.warp_setWarp .., State.core_setCore .., rfl⟩
  case back =>
    exact ⟨_, _, execBlockReturn_returns hl hbacks hqueue hops, State.lot?_setLot .., Lot.warp_setWarp .., State.core_setCore ..⟩

end Sys2Proof.Machine
end

section
/-! Laws of waking plain waiters (03_issue.md R75): they stand READY where they waited, and nothing else changes. -/

namespace Sys2Proof.Machine

/-! ### A lot put twice in its place -/

theorem Tbl.del_ins {α : Type} (t : Tbl α) (k : Nat) (v : α) : Tbl.del (Tbl.ins t k v) k = Tbl.del t k := by
  induction t with
  | nil => simp [Tbl.ins, Tbl.del]
  | cons e t ih =>
    obtain ⟨j, y⟩ := e
    unfold Tbl.ins
    split
    · simp [Tbl.del]
    · unfold Tbl.del at ih ⊢
      rw [List.filter_cons, List.filter_cons, ih]

theorem Tbl.del_del {α : Type} (t : Tbl α) (k : Nat) : Tbl.del (Tbl.del t k) k = Tbl.del t k := by
  unfold Tbl.del
  rw [List.filter_filter]
  simp

theorem Tbl.put_put {α : Type} [DecidableEq α] (d : α) (t : Tbl α) (k : Nat) (u v : α) :
    Tbl.put d (Tbl.put d t k u) k v = Tbl.put d t k v := by
  have hdel : Tbl.del (Tbl.put d t k u) k = Tbl.del t k := by
    unfold Tbl.put
    split
    · exact Tbl.del_del t k
    · rw [Tbl.del_ins, Tbl.del_del]
  have hput : ∀ x : Tbl α, Tbl.put d x k v = if v = d then Tbl.del x k else Tbl.ins (Tbl.del x k) k v := fun _ => rfl
  rw [hput, hput, hdel]

@[simp] theorem State.setLot_setLot (s : State) (c b : Nat) (l m : Lot) : (s.setLot c b l).setLot c b m = s.setLot c b m := by
  unfold State.setLot
  rw [Tbl.put_put]

/-! ### Waking -/

/-- A thread as it wakes to be READY. -/
def Thread.awake (n : Nat) (t : Thread) : Thread := { t with st := .ready, seq := n, aged := false, resume := [], going := false }

theorem Lot.toReady_plain {l : Lot} {a : Agent} (hend : l.ending = false) (h : (l.thr a).plain) (n : Nat) :
    l.toReady a n = l.setThr a ((l.thr a).awake n) := by
  unfold Lot.toReady
  rw [hend, if_neg Bool.false_ne_true]
  generalize l.thr a = t at h ⊢
  cases t with
  | mk st pc target mid kept preds cursor rng mon stop shadow =>
    obtain ⟨rfl, rfl, -, rfl, rfl⟩ := h
    cases shadow <;> rfl

theorem Thread.tookDebug_ready {t : Thread} (h : t.st = .ready) : t.tookDebug = t := by
  unfold Thread.tookDebug
  simp only [h]

theorem State.setLot_same_threads {s : State} {c b : Nat} {l : Lot} (hl : s.lot? c b = some l) {as : List Agent} (hnodup : as.Nodup)
    (hlane : ∀ a ∈ as, a.l < 32) (hready : ∀ a ∈ as, (l.thr a).st = .ready) :
    ∃ l', s.tookDebugStops c b as = s.setLot c b l' ∧ l' = { l with threads := l'.threads } ∧ ∀ a : Agent, a.l < 32 → l'.thr a = l.thr a := by
  unfold State.tookDebugStops
  rw [State.onLot_of_lot hl]
  by_cases hfact : s.fact l.ctx 16 16 = 1
  · rw [if_pos hfact]
    obtain ⟨hframe, hthr⟩ := Lot.foldl_setThr as (fun l a => (l.thr a).tookDebug) (fun _ t => t.tookDebug) l hnodup hlane (fun _ _ _ _ => rfl)
    refine ⟨_, rfl, hframe, fun a ha => ?_⟩
    rw [hthr a ha]
    split
    · next hin => exact Thread.tookDebug_ready (hready a hin)
    · rfl
  · rw [if_neg hfact]
    exact ⟨l, rfl, rfl, fun _ _ => rfl⟩

/-- Plain waiters wake: they are READY where they stood, and everything else is as before. -/
theorem State.wakeAll_plain {s : State} {c b : Nat} {l : Lot} (hl : s.lot? c b = some l) (hend : l.ending = false) {as : List Agent}
    (hnodup : as.Nodup) (hlane : ∀ a ∈ as, a.l < 32) (hplain : ∀ a ∈ as, (l.thr a).plain) :
    ∃ l', s.wakeAll c b as = State.setLot { s with nextId := s.nextId + 1 } c b l' ∧ l' = { l with threads := l'.threads }
      ∧ ∀ a : Agent, a.l < 32 → l'.thr a = if a ∈ as then (l.thr a).awake s.nextId else l.thr a := by
  let s1 : State := { s with nextId := s.nextId + 1 }
  have hl1 : s1.lot? c b = some l := hl
  have hended : as.filter (fun a => l.ending || (l.thr a).dbgPend) = [] := by
    rw [List.filter_eq_nil_iff]
    intro a ha
    simp [hend, (hplain a ha).2.1]
  have hreport : s1.reportStops c b [] = s1 := by
    unfold State.reportStops
    rw [hl1]
    rfl
  obtain ⟨hframe1, hthr1⟩ := Lot.foldl_setThr as (fun l a => (l.thr a).awake s.nextId) (fun _ t => t.awake s.nextId) l hnodup hlane
    (fun _ _ _ _ => rfl)
  have hfold : as.foldl (fun l a => l.toReady a s.nextId) l = as.foldl (fun l a => l.setThr a ((l.thr a).awake s.nextId)) l := by
    suffices h : ∀ bs : List Agent, bs.Nodup → (∀ a ∈ bs, a.l < 32) → ∀ m : Lot, m.ending = false → (∀ a ∈ bs, (m.thr a).plain) →
        bs.foldl (fun l a => l.toReady a s.nextId) m = bs.foldl (fun l a => l.setThr a ((l.thr a).awake s.nextId)) m from
      h as hnodup hlane l hend hplain
    intro bs
    induction bs with
    | nil => exact fun _ _ _ _ _ => rfl
    | cons x bs ih =>
      intro hnd hln m hm hpl
      obtain ⟨hfresh, hnd'⟩ := List.nodup_cons.mp hnd
      rw [List.foldl_cons, List.foldl_cons, Lot.toReady_plain hm (hpl x List.mem_cons_self)]
      refine ih hnd' (fun a ha => hln a (List.mem_cons_of_mem _ ha)) _ hm (fun a ha => ?_)
      rw [Lot.thr_setThr_other _ _ _ _ (hln x List.mem_cons_self) (hln a (List.mem_cons_of_mem _ ha))
        (fun e => hfresh (e ▸ ha))]
      exact hpl a (List.mem_cons_of_mem _ ha)
  generalize hl' : as.foldl (fun l a => l.setThr a ((l.thr a).awake s.nextId)) l = l1 at hframe1 hthr1 hfold
  have hready : ∀ a ∈ as, (l1.thr a).st = .ready := fun a ha => by
    rw [hthr1 a (hlane a ha), if_pos ha]
    rfl
  obtain ⟨l', hdebug, hframe2, hthr2⟩ := State.setLot_same_threads (s := s1.setLot c b l1) (State.lot?_setLot ..) hnodup hlane hready
  have hthr : ∀ a : Agent, a.l < 32 → l'.thr a = if a ∈ as then (l.thr a).awake s.nextId else l.thr a := fun a ha => by
    rw [hthr2 a ha, hthr1 a ha]
  refine ⟨l', ?_, ?_, hthr⟩
  · unfold State.wakeAll State.fresh
    dsimp only
    rw [State.lot?_of_lots (s := s) (t := s1) rfl, hl]
    dsimp only
    rw [hended, hreport, State.onLot_of_lot hl1, hfold, hdebug, State.setLot_setLot]
    refine State.takeStops_none fun m hm a ha => .inr ?_
    rw [State.lot?_setLot, Option.some.injEq] at hm
    rw [← hm, hthr a (hlane a ha), if_pos ha]
    exact (hplain a ha).1
  · rw [hframe2, hframe1]

end Sys2Proof.Machine
end

section
/-! Launches from the device (02_work.md R60 to R62; 16_ref_j_r.md R391, R392; O24). -/

namespace Sys2Proof.Machine

/-! ### LAUNCH and LAUNCH.W -/

/-- A descriptor's address is sign-extended (R130). -/
theorem Lot.descVa_eq (l : Lot) (a : Agent) (r : BitVec 7) : l.descVa a r = (BitVec.ofNat 64 (l.val a r 64)).signExtend 80 := by
  unfold Lot.descVa
  generalize l.val a r 64 = n
  have hsext : sextI n 64 = (BitVec.ofNat 64 n).toInt := by
    unfold sextI
    rw [BitVec.toInt_ofNat', Int.bmod_def]
    split <;> split <;> omega
  refine BitVec.eq_of_toInt_eq ?_
  unfold sextN wrapI
  rw [hsext, BitVec.toInt_signExtend_of_le (by decide), BitVec.toInt_ofNat', Int.toNat_of_nonneg (Int.emod_nonneg _ (by decide))]
  have hlo := (BitVec.ofNat 64 n).le_toInt
  have hhi := (BitVec.ofNat 64 n).toInt_lt
  rw [Int.bmod_def]
  omega

/-- What a child request waits for: the writes that its lanes have made or observed (R184, R241). -/
def State.childAfter (s : State) (v : View) (lanes : List Agent) : List Nat :=
  (lanes.flatMap (fun b => s.pendingOf v.i.core v.i.bctx b)).eraseDups

theorem State.mem_childAfter {s : State} {v : View} (hl : s.lot? v.i.core v.i.bctx = some v.l) (lanes : List Agent) (i : Nat) :
    i ∈ s.childAfter v lanes ↔
      (∃ x ∈ s.accs, x.id = i ∧ ∃ b ∈ lanes, (x.t = ⟨v.i.core, v.i.bctx, b.w, b.l⟩ ∧ x.kind.onlyReads = false) ∨ i ∈ (v.l.thr b).obs)
      ∨ ∃ k ∈ v.l.kicks, k.id = i ∧ k.kind = .tbind ∧ ∃ b ∈ lanes, k.agent.w = b.w ∨ i ∈ (v.l.thr b).obs := by
  have hlane : ∀ b, i ∈ s.pendingOf v.i.core v.i.bctx b ↔
      (∃ x ∈ s.accs, x.id = i ∧ ((x.t = ⟨v.i.core, v.i.bctx, b.w, b.l⟩ ∧ x.kind.onlyReads = false) ∨ i ∈ (v.l.thr b).obs))
      ∨ ∃ k ∈ v.l.kicks, k.id = i ∧ k.kind = .tbind ∧ (k.agent.w = b.w ∨ i ∈ (v.l.thr b).obs) := fun b => by
    unfold State.pendingOf
    rw [hl]
    simp only [List.mem_append, List.mem_map, List.mem_filter, Bool.and_eq_true, beq_iff_eq, Bool.not_eq_true', Bool.or_eq_true,
      List.contains_iff_mem]
    constructor
    · rintro (⟨x, ⟨hx, h⟩, rfl⟩ | ⟨k, ⟨hk, hkind, h⟩, rfl⟩)
      · exact .inl ⟨x, hx, rfl, h⟩
      · exact .inr ⟨k, hk, rfl, hkind, h⟩
    · rintro (⟨x, hx, rfl, h⟩ | ⟨k, hk, rfl, hkind, h⟩)
      · exact .inl ⟨x, ⟨hx, h⟩, rfl⟩
      · exact .inr ⟨k, ⟨hk, hkind, h⟩, rfl⟩
  unfold State.childAfter
  simp only [List.mem_eraseDups, List.mem_flatMap, hlane]
  constructor
  · rintro ⟨b, hb, ⟨x, hx, hid, h⟩ | ⟨k, hk, hid, hkind, h⟩⟩
    · exact .inl ⟨x, hx, hid, b, hb, h⟩
    · exact .inr ⟨k, hk, hid, hkind, b, hb, h⟩
  · rintro (⟨x, hx, hid, b, hb, h⟩ | ⟨k, hk, hid, hkind, b, hb, h⟩)
    · exact ⟨b, hb, .inl ⟨x, hx, hid, h⟩⟩
    · exact ⟨b, hb, .inr ⟨k, hk, hid, hkind, h⟩⟩

/-- The lanes of a run ask for one child and park for its answer. -/
theorem State.launchChild_asks {s : State} {v : View} {p : BitVec 3} {uses : List Use} (h : s.runs v p true true uses)
    (hcalm : s.calm v.i.core) (hend : v.l.ending = false) (d : BitVec 7) (a : Agent) (va : VAddr) :
    ∃ id l', (s.launchChild v d a va v.i.agents).w = { s.w with childReqs := s.w.childReqs ++
        [⟨id, ⟨v.i.core, v.i.bctx, a.w, a.l⟩, v.i.agents, d.toNat, v.l.ctx, va, v.l.launch, s.childAfter v v.i.agents⟩] }
      ∧ (s.launchChild v d a va v.i.agents).lot? v.i.core v.i.bctx = some l' ∧ (s.launchChild v d a va v.i.agents).issuer? s.active = none
      ∧ l'.vregs = v.l.vregs
      ∧ ∀ b ∈ v.i.agents, (l'.thr b).st = .parked (.launch d.toNat id) ∧ (l'.thr b).pc = v.i.next := by
  obtain ⟨hi, hl, -⟩ := State.view_eq h.1
  obtain ⟨hnodup, hlanes⟩ := h.2.1
  let asked : State := { s with nextId := s.nextId + 1, w := { s.w with childReqs := s.w.childReqs ++
    [⟨s.nextId, ⟨v.i.core, v.i.bctx, a.w, a.l⟩, v.i.agents, d.toNat, v.l.ctx, va, v.l.launch, s.childAfter v v.i.agents⟩] } }
  obtain ⟨l', hpark, hframe, hthr⟩ := State.parkAll_stays (s := asked) (p := .launch d.toNat s.nextId) hi hl hend
    (State.still_of_lots (State.still_of_calm hcalm) rfl) hnodup (fun b hb => (hlanes b hb).1) (fun b hb => hb) (fun _ _ => trivial)
  have hchild : s.launchChild v d a va v.i.agents = (asked.setLot v.i.core v.i.bctx l').setIssuer s.active none := by
    unfold State.launchChild State.fresh
    dsimp only
    rw [hend, if_neg Bool.false_ne_true]
    exact hpark
  refine ⟨s.nextId, l', by rw [hchild]; rfl, by rw [hchild]; exact State.lot?_setLot .., by rw [hchild]; exact State.issuer?_setIssuer ..,
    by rw [hframe], fun b hb => ?_⟩
  rw [hthr b (hlanes b hb).1, if_pos hb]
  exact ⟨rfl, rfl⟩

/-! ### The answer to a child request -/

/-- A child request alone, and the one plain lane that waits for its answer. -/
structure State.asksAlone (s : State) (r : ChildReq) (l : Lot) (a : Agent) : Prop where
  req : s.w.childReqs = [r]
  lot : s.lot? r.t.core r.t.bctx = some l
  lanes : r.lanes = [a]
  lane : a.l < 32
  thread : a.isBarker = false
  dest : r.d < 128
  parked : (l.thr a).st = .parked (.launch r.d r.id)
  plain : (l.thr a).plain
  live : l.ending = false

/-- The lane of a child request has its status word and is READY; the request is gone. -/
def State.childAnswered (t : State) (r : ChildReq) (a : Agent) (word : Nat) : Prop :=
  t.w.childReqs = [] ∧ ∃ l', t.lot? r.t.core r.t.bctx = some l' ∧ l'.vreg a.w r.d a.l = BitVec.ofNat 32 word ∧ (l'.thr a).st = .ready

theorem State.asksAlone.childResult {s : State} {r : ChildReq} {l : Lot} {a : Agent} (h : s.asksAlone r l a) (word : Nat) :
    ∃ l', s.childResult r word =
        State.setLot { s with nextId := s.nextId + 1, w := { s.w with childReqs := [] } } r.t.core r.t.bctx l'
      ∧ (s.childResult r word).childAnswered r a word := by
  let u : State := { s with w := { s.w with childReqs := [] } }
  let m := l.setVal a (BitVec.ofNat 7 r.d) 32 false word
  have hend : m.ending = false := by
    unfold m
    rw [Lot.setVal_frame]
    exact h.live
  obtain ⟨l', hwake, hframe, hthr⟩ := State.wakeAll_plain (s := u.setLot r.t.core r.t.bctx m) (State.lot?_setLot ..) hend
    (List.nodup_singleton a) (by simpa using h.lane) (by simpa [m] using h.plain)
  have hwaits : r.lanes.filter (fun x => (l.thr x).st == .parked (.launch r.d r.id)) = [a] := by
    rw [h.lanes]
    simp [h.parked]
  have hreq : ({ s.w with childReqs := s.w.childReqs.filter (fun x => x.id != r.id) } : WorkS) = { s.w with childReqs := [] } := by
    rw [h.req]
    simp
  have hresult : s.childResult r word = State.setLot { u with nextId := s.nextId + 1 } r.t.core r.t.bctx l' := by
    unfold State.childResult
    dsimp only
    rw [hreq, State.lot?_of_lots (s := s) (t := u) rfl, h.lot]
    dsimp only
    rw [hwaits]
    refine hwake.trans ?_
    exact State.setLot_setLot { u with nextId := s.nextId + 1 } r.t.core r.t.bctx m l'
  refine ⟨l', hresult, by rw [hresult]; rfl, l', by rw [hresult]; exact State.lot?_setLot .., ?_, ?_⟩
  · have hd : (BitVec.ofNat 7 r.d).toNat = r.d := by
      rw [BitVec.toNat_ofNat]
      exact Nat.mod_eq_of_lt h.dest
    rw [hframe]
    show m.vreg a.w r.d a.l = _
    unfold m Lot.setVal
    rw [h.thread, hd, if_neg Bool.false_ne_true, if_neg (by decide)]
    exact Lot.vreg_setVreg ..
  · rw [hthr a h.lane, if_pos (List.mem_singleton.mpr rfl)]
    rfl

/-- The event of a child request that waits alone: it is cancelled with its launch, or it goes on behind its release. -/
theorem execChildLaunchAccept_cancelled {s : State} {r : ChildReq} {l : Lot} {a : Agent} (h : s.asksAlone r l a)
    (hcancel : s.beingCancelled r.parent = true) : execChildLaunchAccept r.id s = .next (s.childResult r 2) := by
  unfold execChildLaunchAccept
  have hfind : s.w.childReqs.find? (fun x => x.id == r.id) = some r := by
    rw [h.req]
    simp
  have hwaits : r.lanes.all (fun x => (l.thr x).st != .parked (.launch r.d r.id)) = false := by
    rw [h.lanes]
    simp [h.parked]
  rw [hfind]
  dsimp only
  rw [h.lot]
  dsimp only
  rw [hwaits, hcancel, if_neg Bool.false_ne_true, if_pos rfl]

/-- What a child request does once its writes are released: its descriptor is read, and it is accepted, refused or waits. -/
def State.readChild (s : State) (r : ChildReq) (l : Lot) : Out :=
  match s.readDesc (.child r.id) r.ctx r.va none with
  | (.wait, s) => .next s
  | (.bad code, s) =>
    let rec' : FRec := { lotRec r.t.core l 6 code with
      desc := r.va, warp := recWarp (laneAgent r.t), lanes := recLanes r.lanes, outcome := 4 }
    .next (((s.endTransfers (.child r.id)).writeRec r.ctx rec').childResult r (1 + 256 * code))
  | (.ok d, s') =>
    if 4096 ≤ Tbl.get 0 s'.w.device r.ctx then .next s
    else match s'.launch? r.parent with
    | none => .next s'
    | some x => .next (((s'.endTransfers (.child r.id)).accept (d.launch r.ctx x.queue x.prio x.parentLevel (some x.id) true)).2.childResult r 0)

theorem execChildLaunchAccept_released {s s0 : State} {r : ChildReq} {l : Lot} {a : Agent} (h : s.asksAlone r l a)
    (hcancel : s.beingCancelled r.parent = false) (hafter : ∀ i ∈ r.after, s.unperformed r.t.core r.t.bctx i = false)
    (hrel : s.releaseScope r.t.core r.ctx .pkg = (true, s0)) : execChildLaunchAccept r.id s = s0.readChild r l := by
  have hfind : s.w.childReqs.find? (fun x => x.id == r.id) = some r := by
    rw [h.req]
    simp
  have hwaits : r.lanes.all (fun x => (l.thr x).st != .parked (.launch r.d r.id)) = false := by
    rw [h.lanes]
    simp [h.parked]
  have hfirst : (s.w.childReqs.any (fun x => x.id < r.id && x.t.core == r.t.core && x.t.bctx == r.t.bctx && !s.beingCancelled x.parent)
      || r.after.any (fun i => s.unperformed r.t.core r.t.bctx i)) = false := by
    rw [h.req]
    simpa using hafter
  unfold execChildLaunchAccept
  rw [hfind]
  dsimp only
  rw [h.lot]
  dsimp only
  rw [hwaits, hcancel, if_neg Bool.false_ne_true, if_neg Bool.false_ne_true, hfirst, if_neg Bool.false_ne_true, hrel]
  rfl

/-- The child of a good descriptor is accepted below the limit, as a device launch of its parent. -/
theorem State.readChild_accepted {s0 s' : State} {r : ChildReq} {l : Lot} {a : Agent} {d : Desc} {x : Launch} (h : s'.asksAlone r l a)
    (hread : s0.readDesc (.child r.id) r.ctx r.va none = (.ok d, s')) (hx : s'.launch? r.parent = some x)
    (hlimit : Tbl.get 0 s'.w.device r.ctx < 4096) (hlots : 0 < d.gx * d.gy * d.gz) :
    ∃ t y, s0.readChild r l = .next t ∧ t.childAnswered r a 0 ∧ y ∈ t.w.launches ∧ y.d = d ∧ y.device = true
      ∧ y.parentLaunch = some x.id ∧ y.queue = x.queue ∧ y.prio = x.prio ∧ y.total = d.gx * d.gy * d.gz
      ∧ Tbl.get 0 t.w.device r.ctx = Tbl.get 0 s'.w.device r.ctx + 1 := by
  let y := d.launch r.ctx x.queue x.prio x.parentLevel (some x.id) true
  obtain ⟨id, -, hmem, -, -, hkeptLots, hkeptReqs, hdevice⟩ :=
    (s'.endTransfers (.child r.id)).accept_of_lots y (Nat.ne_of_gt hlots)
  let u := ((s'.endTransfers (.child r.id)).accept y).2
  have hasks : u.asksAlone r l a :=
    ⟨hkeptReqs.trans h.req, (State.lot?_of_lots hkeptLots ..).trans h.lot, h.lanes, h.lane, h.thread, h.dest, h.parked, h.plain, h.live⟩
  obtain ⟨l', heq, hgot⟩ := hasks.childResult 0
  refine ⟨u.childResult r 0, { y with id := id, seq := id }, ?_, hgot, ?_, rfl, rfl, rfl, rfl, rfl, rfl, ?_⟩
  · unfold State.readChild
    rw [hread]
    dsimp only
    rw [if_neg (Nat.not_le.mpr hlimit), hx]
  · rw [heq]
    exact hmem
  · rw [heq]
    refine (congrArg (fun t => Tbl.get 0 t r.ctx) hdevice).trans ?_
    exact Tbl.get_put_same 0 s'.w.device r.ctx (Tbl.get 0 s'.w.device r.ctx + 1)

/-- The child of a bad descriptor is refused with its code and a record. -/
theorem State.readChild_refused {s0 s' : State} {r : ChildReq} {l : Lot} {a : Agent} {code : Nat} (h : s'.asksAlone r l a)
    (hread : s0.readDesc (.child r.id) r.ctx r.va none = (.bad code, s')) :
    ∃ t, s0.readChild r l = .next t ∧ t.childAnswered r a (1 + 256 * code) ∧ t.w.launches = s'.w.launches ∧ s'.recorded t r.ctx := by
  let u := s'.endTransfers (.child r.id)
  have hexec : ∃ y, s0.readChild r l = .next ((u.writeRec r.ctx y).childResult r (1 + 256 * code)) := by
    unfold State.readChild
    rw [hread]
    exact ⟨_, rfl⟩
  obtain ⟨y, hexec⟩ := hexec
  have hasks : (u.writeRec r.ctx y).asksAlone r l a :=
    ⟨by rw [u.writeRec_w]; exact h.req, (u.writeRec_lot? ..).trans h.lot, h.lanes, h.lane, h.thread, h.dest, h.parked, h.plain, h.live⟩
  obtain ⟨l', heq, hgot⟩ := hasks.childResult (1 + 256 * code)
  refine ⟨_, hexec, hgot, ?_, ?_⟩
  · rw [heq]
    exact u.writeRec_launches ..
  · rw [heq]
    exact State.recorded_of_same (u.writeRec_recorded r.ctx y) rfl rfl rfl rfl

/-- Settles O24: what the lanes ask for, and what the request's event answers. -/
theorem childLaunches : Obligations.ChildLaunches := by
  refine ⟨fun s v p d a t0 h hall helected hcalm hend => ?asks, fun s r l a hreq hl hlanes hlane hthread hd hst hplain hend => ?answers⟩
  case asks =>
    obtain ⟨-, hl, -⟩ := State.view_eq h.1
    intro asked
    have hasks : asked (s.launchChild v d t0 (v.l.descVa t0 a) v.i.agents) v.i.agents := by
      obtain ⟨id, l', hw, hlot, hissuer, hvregs, hparks⟩ := State.launchChild_asks h hcalm hend d t0 (v.l.descVa t0 a)
      refine ⟨id, s.childAfter v v.i.agents, l', ?_, s.mem_childAfter hl v.i.agents, hlot, hissuer, hvregs, hparks⟩
      rw [hw, Lot.descVa_eq]
    refine ⟨⟨s.launchChild v d t0 (v.l.descVa t0 a) v.i.agents, ?_, by rw [hall]; exact hasks⟩,
      fun hone => ⟨s.launchChild v d t0 (v.l.descVa t0 a) v.i.agents, ?_, by rw [← hone, hall]; exact hasks⟩⟩
    · show execLaunchW p d a s = _
      refine (State.instr_runs h _).trans (congrArg Host.Outcome.next ?_)
      unfold View.elected at helected
      rw [← hall]
      revert helected
      cases hp : v.parts with
      | nil => exact fun helected => nomatch helected
      | cons b rest =>
        intro helected
        rw [Option.some.injEq] at helected
        rw [← helected]
    · show execLaunch p d a s = _
      refine (State.instr_runs h _).trans (congrArg Host.Outcome.next ?_)
      rw [← hall, hone]
      rfl
  case answers =>
    have hasks : s.asksAlone r l a := ⟨hreq, hl, hlanes, hlane, hthread, hd, hst, hplain, hend⟩
    intro got
    refine ⟨fun hcancel => ?_, fun s0 s' hcancel hafter hrel => ⟨fun d x hread hx hlimit hreq' hl' hlots => ?_, fun code hread hreq' hl' => ?_⟩⟩
    · obtain ⟨l', heq, hgot⟩ := hasks.childResult 2
      exact ⟨_, execChildLaunchAccept_cancelled hasks hcancel, hgot, by rw [heq]; rfl⟩
    · obtain ⟨t, y, hexec, h⟩ := State.readChild_accepted ⟨hreq', hl', hlanes, hlane, hthread, hd, hst, hplain, hend⟩ hread hx hlimit hlots
      exact ⟨t, y, (execChildLaunchAccept_released hasks hcancel hafter hrel).trans hexec, h⟩
    · obtain ⟨t, hexec, h⟩ := State.readChild_refused ⟨hreq', hl', hlanes, hlane, hthread, hd, hst, hplain, hend⟩ hread
      exact ⟨t, (execChildLaunchAccept_released hasks hcancel hafter hrel).trans hexec, h⟩

end Sys2Proof.Machine
end

section
/-! Laws of releases within a lot (03_issue.md R81, R82; 14_ref_a_c.md R344; 15_ref_d_i.md R370): what the masks, barriers and the decision
queue do to the waiters of a lot when a thread leaves it. -/

namespace Sys2Proof.Machine

/-! ### A change at one lot -/

/-- A state differs from another in one lot, in fences and in the numbers handed out. -/
structure State.OnPlace (s t : State) (c b : Nat) : Prop where
  frame : t = { s with nextId := t.nextId, lots := t.lots, fences := t.fences }
  others : ∀ c' b', lotKey c' b' ≠ lotKey c b → t.lot? c' b' = s.lot? c' b'
  halting : ∀ launch, s.haltingLot launch = none → t.haltingLot launch = none

theorem State.OnPlace.refl (s : State) (c b : Nat) : s.OnPlace s c b := ⟨rfl, fun _ _ _ => rfl, fun _ h => h⟩

theorem State.OnPlace.trans {s t u : State} {c b : Nat} (h : s.OnPlace t c b) (k : t.OnPlace u c b) : s.OnPlace u c b where
  frame := by rw [k.frame, h.frame]
  others c' b' hne := (k.others c' b' hne).trans (h.others c' b' hne)
  halting launch hnone := k.halting launch (h.halting launch hnone)

theorem Tbl.mem_put {α : Type} [DecidableEq α] {d : α} {t : Tbl α} {k : Nat} {v : α} {e : Nat × α} (h : e ∈ Tbl.put d t k v) :
    e = (k, v) ∨ e ∈ t := by
  have hdel : e ∈ Tbl.del t k → e ∈ t := fun h => (List.mem_filter.mp h).1
  have hins : ∀ u : Tbl α, e ∈ Tbl.ins u k v → e = (k, v) ∨ e ∈ u := fun u => by
    induction u with
    | nil => exact fun h => .inl (List.mem_singleton.mp h)
    | cons x u ih =>
      obtain ⟨j, y⟩ := x
      intro h
      unfold Tbl.ins at h
      split at h
      · rcases List.mem_cons.mp h with h | h
        · exact .inl h
        · exact .inr h
      · rcases List.mem_cons.mp h with h | h
        · exact .inr (List.mem_cons.mpr (.inl h))
        · exact (ih h).imp id (fun h => List.mem_cons_of_mem _ h)
  unfold Tbl.put at h
  split at h
  · exact .inr (hdel h)
  · exact (hins _ h).imp id hdel

theorem State.haltingLot_eq_none {s : State} {launch : Nat} :
    s.haltingLot launch = none ↔ ∀ k l, (k, some l) ∈ s.lots → ¬(l.launch = launch ∧ l.phase = .halted) := by
  unfold State.haltingLot State.lotList
  simp only [List.find?_eq_none, List.mem_filterMap, Bool.and_eq_true, beq_iff_eq]
  constructor
  · intro h k l hl
    exact h _ ⟨(k, some l), hl, rfl⟩
  · rintro h e ⟨⟨k, x⟩, hx, he⟩
    obtain ⟨l, rfl, rfl⟩ := Option.map_eq_some_iff.mp he
    exact h k l hx

/-- A lot replaced by one of the same launch and phase. -/
theorem State.onPlace_setLot {s : State} {c b : Nat} {l l' : Lot} (hl : s.lot? c b = some l) (hlaunch : l'.launch = l.launch)
    (hphase : l'.phase = l.phase) : s.OnPlace (s.setLot c b l') c b where
  frame := rfl
  others c' b' hne := State.lot?_setLot_other _ _ _ _ _ _ hne
  halting launch hnone := by
    rw [State.haltingLot_eq_none] at hnone ⊢
    intro k m hm
    have hput : (k, some m) ∈ Tbl.put none s.lots (lotKey c b) (some l') := hm
    rcases Tbl.mem_put hput with h | h
    · obtain ⟨-, h⟩ := Prod.mk.inj h
      rw [Option.some.injEq] at h
      rw [h, hlaunch, hphase]
      exact hnone _ l (Tbl.mem_of_get _ _ _ hl)
    · exact hnone k m h

theorem State.onPlace_of_lots {s t : State} (hframe : t = { s with nextId := t.nextId, fences := t.fences }) (c b : Nat) : s.OnPlace t c b where
  frame := by rw [hframe]
  others c' b' _ := by rw [hframe]; rfl
  halting launch hnone := by rw [hframe]; exact hnone

/-! ### A lot whose plain waiters may have woken -/

/-- A thread as it was, or woken from a plain wait. -/
def Thread.roused (t u : Thread) : Prop := u = t ∨ (t.st.isParked = true ∧ t.plain ∧ ∃ n os, u = { t.awake n with obs := os })

theorem Thread.roused.trans {t u v : Thread} (h : t.roused u) (k : u.roused v) : t.roused v := by
  rcases h with rfl | ⟨hst, hplain, n, os, rfl⟩
  · exact k
  · rcases k with rfl | ⟨hst', -⟩
    · exact .inr ⟨hst, hplain, n, os, rfl⟩
    · exact Bool.noConfusion (hst' : false = true)

/-- A lot but for threads that have woken from plain waits, and for its masks and barriers. -/
structure Lot.Stirred (l l' : Lot) : Prop where
  rest : l' = { l with threads := l'.threads, warps := l'.warps, bars := l'.bars }
  thr : ∀ x : Agent, x.l < 32 → (l.thr x).roused (l'.thr x)

theorem Lot.Stirred.refl (l : Lot) : l.Stirred l := ⟨rfl, fun _ _ => .inl rfl⟩

theorem Lot.Stirred.trans {l m n : Lot} (h : l.Stirred m) (k : m.Stirred n) : l.Stirred n where
  rest := by rw [k.rest, h.rest]
  thr x hx := (h.thr x hx).trans (k.thr x hx)

theorem Lot.Stirred.ending {l m : Lot} (h : l.Stirred m) : m.ending = l.ending := by
  rw [h.rest]
  rfl

theorem Lot.Stirred.agents {l m : Lot} (h : l.Stirred m) : m.agents = l.agents := by
  rw [h.rest]
  rfl

theorem Lot.Stirred.allAgents {l m : Lot} (h : l.Stirred m) : m.allAgents = l.allAgents := by
  rw [h.rest]
  rfl

theorem Lot.barker_lane_lt : (Agent.barker).l < 32 := by decide

theorem Lot.waiter_lane_lt {l : Lot} {x : Agent} (h : x ∈ Agent.barker :: l.allAgents) : x.l < 32 := by
  rcases List.mem_cons.mp h with rfl | h
  · exact Lot.barker_lane_lt
  · exact Lot.lane_lt h

theorem Lot.Stirred.waitersPlain {l m : Lot} (h : l.Stirred m) (hl : l.waitersPlain) : m.waitersPlain := by
  intro x hx hst
  rw [h.allAgents] at hx
  rcases h.thr x (Lot.waiter_lane_lt hx) with e | ⟨-, -, n, os, e⟩
  · rw [e] at hst ⊢
    exact hl x hx hst
  · rw [e] at hst
    exact Bool.noConfusion (hst : false = true)

/-- A waiter that has woken stays so. -/
theorem Lot.woken.mono {l m n : Lot} {x : Agent} (h : l.woken m x) (k : m.Stirred n) (hx : x.l < 32) : l.woken n x := by
  obtain ⟨hst, hpc⟩ := h
  rcases k.thr x hx with e | ⟨hparked, -⟩
  · exact ⟨by rw [e]; exact hst, by rw [e]; exact hpc⟩
  · rw [hst] at hparked
    exact Bool.noConfusion (hparked : false = true)

/-- A waiter either has woken by now or waits as before. -/
theorem Lot.Stirred.woken_or {l m : Lot} (h : l.Stirred m) {x : Agent} (hx : x.l < 32) : l.woken m x ∨ m.thr x = l.thr x := by
  rcases h.thr x hx with e | ⟨-, -, n, os, e⟩
  · exact .inr e
  · exact .inl ⟨by rw [e]; rfl, by rw [e]; rfl⟩

/-- Whether a thread has left the lot is no matter of its waking. -/
theorem Thread.roused.gone {t u : Thread} (h : t.roused u) : u.gone = t.gone := by
  rcases h with rfl | ⟨hst, hplain, n, os, rfl⟩
  · rfl
  · obtain ⟨-, -, -, hexit, -⟩ := hplain
    unfold Thread.gone
    cases hp : t.st <;> rw [hp] at hst <;> simp_all [TState.isParked, TState.gone, Thread.awake]

theorem Lot.Stirred.present {l m : Lot} (h : l.Stirred m) : m.present = l.present := by
  unfold Lot.present
  rw [h.agents]
  refine congrArg List.length (List.filter_congr fun x hx => ?_)
  have hlane : x.l < 32 := by
    obtain ⟨t, -, rfl⟩ := List.mem_map.mp hx
    exact Nat.mod_lt _ (by decide)
  rw [(h.thr x hlane).gone]

/-! ### Waiters acquire and wake -/

theorem State.foldl_acquires (c b : Nat) (held : List Nat) (as : List Agent) (t : State) :
    ∃ n fs, as.foldl (fun s a =>
      let (id, s) := s.fresh
      { s with fences := s.fences ++ [⟨id, ⟨c, b, a.w, a.l⟩, .acq, .lot, held⟩] }) t = { t with nextId := n, fences := fs } := by
  induction as generalizing t with
  | nil => exact ⟨_, _, rfl⟩
  | cons a as ih => exact ih { t with nextId := t.nextId + 1, fences := t.fences ++ [⟨t.nextId, ⟨c, b, a.w, a.l⟩, .acq, .lot, held⟩] }

/-- The waiters that acquire have observed more; no lot but theirs changes. -/
theorem State.acquireFrom_onPlace {s : State} {c b : Nat} {l : Lot} (hl : s.lot? c b = some l) {ws : List Agent} (hnodup : ws.Nodup)
    (hlane : ∀ a ∈ ws, a.l < 32) (src : Agent → Bool) :
    ∃ l', s.OnPlace (s.acquireFrom c b ws src) c b ∧ (s.acquireFrom c b ws src).lot? c b = some l' ∧ l' = { l with threads := l'.threads }
      ∧ ∀ x : Agent, x.l < 32 → ∃ os, l'.thr x = if x ∈ ws then { l.thr x with obs := os } else l.thr x := by
  unfold State.acquireFrom
  rw [hl]
  dsimp only
  split
  · exact ⟨l, State.OnPlace.refl s c b, hl, rfl, fun x _ => ⟨(l.thr x).obs, by split <;> rfl⟩⟩
  · rw [State.onLot_of_lot hl]
    generalize ((l.allAgents.filter src).flatMap (fun a => s.pendingOf c b a)).eraseDups = ids
    obtain ⟨hframe, hthr⟩ := Lot.foldl_setThr ws
      (fun m a => { m.thr a with obs := ((m.thr a).obs.filter (fun i => s.unperformed c b i) ++ ids).eraseDups })
      (fun _ t => { t with obs := (t.obs.filter (fun i => s.unperformed c b i) ++ ids).eraseDups }) l hnodup hlane (fun _ _ _ _ => rfl)
    generalize ws.foldl (fun m a => m.setThr a
      { m.thr a with obs := ((m.thr a).obs.filter (fun i => s.unperformed c b i) ++ ids).eraseDups }) l = l' at hframe hthr ⊢
    have hplace : s.OnPlace (s.setLot c b l') c b := State.onPlace_setLot hl (by rw [hframe]) (by rw [hframe])
    split
    · exact ⟨l', hplace, State.lot?_setLot .., hframe, fun x hx => ⟨_, hthr x hx⟩⟩
    · obtain ⟨n, fs, hfences⟩ := State.foldl_acquires c b
        (((s.setLot c b l').accs.filter (fun x => ids.contains x.id && x.kind != .rsend)).map (fun x => x.id)) ws (s.setLot c b l')
      refine ⟨l', (congrArg (fun u => s.OnPlace u c b) hfences).mpr (hplace.trans (State.onPlace_of_lots rfl c b)),
        (congrArg (fun u : State => u.lot? c b) hfences).trans (State.lot?_setLot ..), hframe, fun x hx => ⟨_, hthr x hx⟩⟩

theorem State.wakeAll_onPlace {s : State} {c b : Nat} {l : Lot} (hl : s.lot? c b = some l) (hend : l.ending = false) {ws : List Agent}
    (hnodup : ws.Nodup) (hlane : ∀ a ∈ ws, a.l < 32) (hplain : ∀ a ∈ ws, (l.thr a).plain) :
    ∃ l' n, s.OnPlace (s.wakeAll c b ws) c b ∧ (s.wakeAll c b ws).lot? c b = some l' ∧ l' = { l with threads := l'.threads }
      ∧ ∀ a : Agent, a.l < 32 → l'.thr a = if a ∈ ws then (l.thr a).awake n else l.thr a := by
  obtain ⟨l', hwake, hframe, hthr⟩ := State.wakeAll_plain hl hend hnodup hlane hplain
  have hplace : s.OnPlace (State.setLot { s with nextId := s.nextId + 1 } c b l') c b :=
    (State.onPlace_of_lots (t := { s with nextId := s.nextId + 1 }) rfl c b).trans
      (State.onPlace_setLot (l := l) hl (by rw [hframe]) (by rw [hframe]))
  exact ⟨l', s.nextId, by rw [hwake]; exact hplace, by rw [hwake]; exact State.lot?_setLot .., hframe, hthr⟩

/-- Waiters of a lot that acquire, and wake as its masks or barriers change. -/
theorem State.rouse {s : State} {c b : Nat} {l : Lot} (hl : s.lot? c b = some l) (hend : l.ending = false) (hplain : l.waitersPlain)
    {ws : List Agent} (hnodup : ws.Nodup) (hws : ∀ x ∈ ws, x ∈ Agent.barker :: l.allAgents ∧ (l.thr x).st.isParked = true)
    (src : Agent → Bool) {g : Lot → Lot} {W : Tbl Warp} {B : Tbl Barrier}
    (hg : ∀ m, m = { l with threads := m.threads } → g m = { m with warps := W, bars := B }) :
    ∃ l', s.OnPlace (((s.acquireFrom c b ws src).onLot c b g).wakeAll c b ws) c b
      ∧ (((s.acquireFrom c b ws src).onLot c b g).wakeAll c b ws).lot? c b = some l' ∧ l.Stirred l' ∧ l'.warps = W ∧ l'.bars = B
      ∧ ∀ x ∈ ws, l.woken l' x := by
  have hlane : ∀ x ∈ ws, x.l < 32 := fun x hx => Lot.waiter_lane_lt (hws x hx).1
  obtain ⟨l1, hplace1, hl1, hframe1, hthr1⟩ := State.acquireFrom_onPlace hl hnodup hlane src
  have hgl : g l1 = { l1 with warps := W, bars := B } := hg l1 hframe1
  have hon : (s.acquireFrom c b ws src).onLot c b g = (s.acquireFrom c b ws src).setLot c b (g l1) := State.onLot_of_lot hl1 g
  have hthrG : ∀ x, (g l1).thr x = l1.thr x := fun x => by
    rw [hgl]
    rfl
  have hplainG : ∀ x ∈ ws, ((g l1).thr x).plain := fun x hx => by
    obtain ⟨os, hos⟩ := hthr1 x (hlane x hx)
    rw [hthrG, hos, if_pos hx]
    exact hplain x (hws x hx).1 (hws x hx).2
  have hendG : (g l1).ending = false := by
    rw [hgl, hframe1]
    exact hend
  obtain ⟨l', n, hplace2, hl', hframe2, hthr2⟩ := State.wakeAll_onPlace (s := (s.acquireFrom c b ws src).setLot c b (g l1))
    (State.lot?_setLot ..) hendG hnodup hlane hplainG
  have hplaceG := State.onPlace_setLot (l' := g l1) hl1 (by rw [hgl]) (by rw [hgl])
  have hthr : ∀ x : Agent, x.l < 32 → ∃ os, l'.thr x = if x ∈ ws then { (l.thr x).awake n with obs := os } else l.thr x := fun x hx => by
    obtain ⟨os, hos⟩ := hthr1 x hx
    refine ⟨os, ?_⟩
    rw [hthr2 x hx, hthrG, hos]
    split <;> rfl
  rw [hon]
  refine ⟨l', hplace1.trans (hplaceG.trans hplace2), hl', ⟨?_, fun x hx => ?_⟩, ?_, ?_, fun x hx => ?_⟩
  · rw [hframe2, hgl, hframe1]
  · obtain ⟨os, hos⟩ := hthr x hx
    rw [hos]
    split
    · next hin => exact .inr ⟨(hws x hin).2, hplain x (hws x hin).1 (hws x hin).2, n, os, rfl⟩
    · exact .inl rfl
  · rw [hframe2, hgl]
  · rw [hframe2, hgl]
  · obtain ⟨os, hos⟩ := hthr x (hlane x hx)
    rw [if_pos hx] at hos
    exact ⟨by rw [hos]; rfl, by rw [hos]; rfl⟩

/-! ### Masks -/

theorem Lot.mem_agents {l : Lot} {w i : Nat} (hi : i < 32) (h : w * 32 + i < l.nthreads) : (⟨w, i⟩ : Agent) ∈ l.agents := by
  refine List.mem_map.mpr ⟨w * 32 + i, List.mem_range.mpr h, ?_⟩
  have hw : (w * 32 + i) / 32 = w := by omega
  have hi' : (w * 32 + i) % 32 = i := by omega
  rw [hw, hi']

theorem Lot.agents_sub {l : Lot} {x : Agent} (h : x ∈ l.agents) : x ∈ Agent.barker :: l.allAgents := by
  refine List.mem_cons_of_mem _ ?_
  unfold Lot.allAgents
  split
  · exact List.mem_append_left _ h
  · exact h

theorem Lot.agents_nodup (l : Lot) : l.agents.Nodup := by
  refine List.Nodup.map_on (fun x _ y _ h => ?_) List.nodup_range
  obtain ⟨hw, hl⟩ := Agent.mk.inj h
  omega

theorem Lot.kwaiters_nodup (l : Lot) (w k : Nat) : (l.kwaiters w k).Nodup := by
  refine List.Nodup.filter _ (List.Nodup.map (fun x y h => ?_) (List.nodup_range.filter _))
  exact (Agent.mk.inj h).2

theorem Lot.mem_kwaiters {l : Lot} {w k : Nat} {x : Agent} :
    x ∈ l.kwaiters w k ↔ x.w = w ∧ x.l < 32 ∧ w * 32 + x.l < l.nthreads ∧ (l.thr x).st = .parked (.kwait k) := by
  unfold Lot.kwaiters Lot.lanesOf
  simp only [List.mem_filter, List.mem_map, List.mem_range, decide_eq_true_eq, beq_iff_eq]
  constructor
  · rintro ⟨⟨i, ⟨hi, hn⟩, rfl⟩, hst⟩
    exact ⟨rfl, hi, hn, hst⟩
  · rintro ⟨rfl, hi, hn, hst⟩
    exact ⟨⟨x.l, ⟨hi, hn⟩, rfl⟩, hst⟩

theorem Lot.kwaiter_waits {l : Lot} {w k : Nat} {x : Agent} (h : x ∈ l.kwaiters w k) :
    x ∈ Agent.barker :: l.allAgents ∧ (l.thr x).st.isParked = true := by
  obtain ⟨rfl, hi, hn, hst⟩ := Lot.mem_kwaiters.mp h
  exact ⟨Lot.agents_sub (Lot.mem_agents hi hn), by rw [hst]; rfl⟩

@[simp] theorem Warp.mem_setArr (x : Warp) (k v j : Nat) : (x.setArr k v).mem j = x.mem j := rfl

theorem Warp.arr_setArr_other (x : Warp) (k v : Nat) {j : Nat} (h : j ≠ k) : (x.setArr k v).arr j = x.arr j :=
  congrArg BitVec.toNat (Tbl.get_put_other (0 : Word) x.arrived k j (BitVec.ofNat 32 v) h)

theorem Warp.arr_setArr_zero (x : Warp) (k : Nat) : (x.setArr k 0).arr k = 0 :=
  congrArg BitVec.toNat (Tbl.get_put_same (0 : Word) x.arrived k (BitVec.ofNat 32 0))

/-- One mask: where its release condition holds, its waiters wake and none has arrived. -/
theorem State.maskRelease_stirs {s : State} {c b : Nat} {l : Lot} (hl : s.lot? c b = some l) (hend : l.ending = false)
    (hplain : l.waitersPlain) (w k : Nat) :
    ∃ l', s.OnPlace (s.maskRelease c b w k) c b ∧ (s.maskRelease c b w k).lot? c b = some l' ∧ l.Stirred l' ∧ l'.bars = l.bars
      ∧ (∀ j, (l'.warp w).mem j = (l.warp w).mem j) ∧ (∀ j, j ≠ k → (l'.warp w).arr j = (l.warp w).arr j)
      ∧ ((l'.warp w).arr k = (l.warp w).arr k ∨ (l'.warp w).arr k = 0)
      ∧ ((l.warp w).released k = true → ∀ x ∈ l.kwaiters w k, l.woken l' x) := by
  unfold State.maskRelease
  rw [hl]
  dsimp only
  split
  · obtain ⟨l', hplace, hl', hstirred, hwarps, hbars, hwoken⟩ := State.rouse hl hend hplain (l.kwaiters_nodup w k)
      (fun x hx => Lot.kwaiter_waits hx) (fun a => a.w == w) (g := fun m => m.setWarp w ((m.warp w).setArr k 0))
      (W := (l.setWarp w ((l.warp w).setArr k 0)).warps) (B := l.bars) (fun m hm => by rw [hm]; rfl)
    have hwarp : l'.warp w = (l.warp w).setArr k 0 := by
      show Tbl.get Warp.none l'.warps w = _
      rw [hwarps]
      exact Lot.warp_setWarp ..
    refine ⟨l', hplace, hl', hstirred, hbars, fun j => by rw [hwarp]; rfl, fun j hj => ?_, .inr ?_, fun _ => hwoken⟩
    · rw [hwarp, Warp.arr_setArr_other _ _ _ hj]
    · rw [hwarp, Warp.arr_setArr_zero]
  · next hrel =>
    exact ⟨l, State.OnPlace.refl s c b, hl, Lot.Stirred.refl l, rfl, fun _ => rfl, fun _ _ => rfl, .inl rfl, fun h => absurd h hrel⟩

/-- A waiter of a mask keeps waiting until it wakes. -/
theorem Lot.Stirred.kwaiter {l m : Lot} (h : l.Stirred m) {w k : Nat} {x : Agent} (hx : x ∈ l.kwaiters w k) :
    l.woken m x ∨ (x ∈ m.kwaiters w k ∧ m.thr x = l.thr x) := by
  obtain ⟨hw, hi, hn, hst⟩ := Lot.mem_kwaiters.mp hx
  refine (h.woken_or hi).imp id (fun e => ⟨Lot.mem_kwaiters.mpr ⟨hw, hi, ?_, by rw [e]; exact hst⟩, e⟩)
  rw [h.rest]
  exact hn

/-- Masks one after another: each whose release condition held wakes its waiters. -/
theorem State.maskReleases_stir {c b : Nat} (w : Nat) (ks : List Nat) : ∀ {s : State} {l : Lot}, ks.Nodup → s.lot? c b = some l →
    l.ending = false → l.waitersPlain →
    ∃ l', s.OnPlace (ks.foldl (fun s k => s.maskRelease c b w k) s) c b
      ∧ (ks.foldl (fun s k => s.maskRelease c b w k) s).lot? c b = some l' ∧ l.Stirred l' ∧ l'.bars = l.bars
      ∧ (∀ j, (l'.warp w).mem j = (l.warp w).mem j) ∧ (∀ j, (l'.warp w).arr j = (l.warp w).arr j ∨ (l'.warp w).arr j = 0)
      ∧ ∀ k ∈ ks, (l.warp w).released k = true → ∀ x ∈ l.kwaiters w k, l.woken l' x := by
  induction ks with
  | nil =>
    intro s l _ hl _ _
    exact ⟨l, State.OnPlace.refl s c b, hl, Lot.Stirred.refl l, rfl, fun _ => rfl, fun _ => .inl rfl, by simp⟩
  | cons k ks ih =>
    intro s l hnodup hl hend hplain
    obtain ⟨hfresh, hnodup'⟩ := List.nodup_cons.mp hnodup
    obtain ⟨m, hplace1, hm, hstir1, hbars1, hmem1, harr1, harrk, hwoken1⟩ := State.maskRelease_stirs hl hend hplain w k
    obtain ⟨l', hplace2, hl', hstir2, hbars2, hmem2, harr2, hwoken2⟩ := ih hnodup' hm (hstir1.ending.trans hend) (hstir1.waitersPlain hplain)
    refine ⟨l', hplace1.trans hplace2, hl', hstir1.trans hstir2, hbars2.trans hbars1, fun j => (hmem2 j).trans (hmem1 j), fun j => ?_,
      fun j hj hrel x hx => ?_⟩
    · rcases harr2 j with e | e
      · rw [e]
        by_cases hjk : j = k
        · rw [hjk]
          exact harrk
        · exact .inl (harr1 j hjk)
      · exact .inr e
    · have hlane : x.l < 32 := (Lot.mem_kwaiters.mp hx).2.1
      rcases List.mem_cons.mp hj with rfl | hj
      · exact (hwoken1 hrel x hx).mono hstir2 hlane
      · rcases hstir1.kwaiter hx with h | ⟨hx', e⟩
        · exact h.mono hstir2 hlane
        · have hjk : j ≠ k := fun e => hfresh (e ▸ hj)
          have hrel' : (m.warp w).released j = true := by
            unfold Warp.released at hrel ⊢
            rw [hmem1, harr1 j hjk]
            exact hrel
          obtain ⟨hst, hpc⟩ := hwoken2 j hj hrel' x hx'
          exact ⟨hst, by rw [hpc, e]⟩

/-! ### Barriers -/

/-- Does a barrier release: have as many arrived as it expects, or as are present (R344)? -/
def Lot.barMet (l : Lot) (k : Nat) : Prop :=
  0 < (l.bar k).arrivals ∧ (if (l.bar k).expected ≠ 0 then (l.bar k).expected else l.present) ≤ (l.bar k).arrivals

theorem Lot.barMet_iff (l : Lot) (k : Nat) : l.barMet k ↔ (decide (0 < (l.bar k).arrivals)
    && decide ((if (l.bar k).expected != 0 then (l.bar k).expected else l.present) ≤ (l.bar k).arrivals)) = true := by
  unfold Lot.barMet
  rw [Bool.and_eq_true, decide_eq_true_eq, decide_eq_true_eq]
  by_cases h : (l.bar k).expected = 0 <;> simp [h]

theorem Lot.barWaiter_waits {l : Lot} {k : Nat} {x : Agent} (h : x ∈ l.barWaiters k) :
    x ∈ Agent.barker :: l.allAgents ∧ (l.thr x).st.isParked = true := by
  obtain ⟨hx, hst⟩ := List.mem_filter.mp h
  rw [beq_iff_eq] at hst
  exact ⟨Lot.agents_sub hx, by rw [hst]; rfl⟩

/-- One barrier: where it releases, its waiters wake. -/
theorem State.checkBarrier_stirs {s : State} {c b : Nat} {l : Lot} (hl : s.lot? c b = some l) (hend : l.ending = false)
    (hplain : l.waitersPlain) (k : Nat) :
    ∃ l', s.OnPlace (s.checkBarrier c b k) c b ∧ (s.checkBarrier c b k).lot? c b = some l' ∧ l.Stirred l' ∧ l'.warps = l.warps
      ∧ (∀ j, j ≠ k → l'.bar j = l.bar j) ∧ (l.barMet k → ∀ x ∈ l.barWaiters k, l.woken l' x) := by
  unfold State.checkBarrier
  rw [hl]
  dsimp only
  by_cases hmet : l.barMet k
  · rw [if_pos (l.barMet_iff k |>.mp hmet)]
    obtain ⟨l', hplace, hl', hstirred, hwarps, hbars, hwoken⟩ := State.rouse hl hend hplain (ws := l.barWaiters k)
      (l.agents_nodup.filter _) (fun x hx => Lot.barWaiter_waits hx) (fun a => !a.isBarker)
      (g := fun m => m.setBar k { l.bar k with gen := (l.bar k).gen + 1, arrivals := 0 })
      (W := l.warps) (B := (l.setBar k { l.bar k with gen := (l.bar k).gen + 1, arrivals := 0 }).bars) (fun m hm => by rw [hm]; rfl)
    refine ⟨l', hplace, hl', hstirred, hwarps, fun j hj => ?_, fun _ => hwoken⟩
    show Tbl.get Barrier.none l'.bars j = _
    rw [hbars]
    exact Tbl.get_put_other _ _ _ _ _ hj
  · rw [if_neg (fun h => hmet (l.barMet_iff k |>.mpr h))]
    exact ⟨l, State.OnPlace.refl s c b, hl, Lot.Stirred.refl l, rfl, fun _ _ => rfl, fun h => absurd h hmet⟩

/-- A waiter of a barrier keeps waiting until it wakes. -/
theorem Lot.Stirred.barWaiter {l m : Lot} (h : l.Stirred m) {k : Nat} (hbar : m.bar k = l.bar k) {x : Agent} (hx : x ∈ l.barWaiters k) :
    l.woken m x ∨ (x ∈ m.barWaiters k ∧ m.thr x = l.thr x) := by
  obtain ⟨hin, hst⟩ := List.mem_filter.mp hx
  refine (h.woken_or (Lot.waiter_lane_lt (Lot.agents_sub hin))).imp id (fun e => ⟨List.mem_filter.mpr ⟨by rw [h.agents]; exact hin, ?_⟩, e⟩)
  rw [hbar, e]
  exact hst

theorem Lot.Stirred.barMet {l m : Lot} (h : l.Stirred m) {k : Nat} (hbar : m.bar k = l.bar k) (hmet : l.barMet k) : m.barMet k := by
  unfold Lot.barMet at hmet ⊢
  rw [hbar, h.present]
  exact hmet

/-- Barriers one after another: each that was met wakes its waiters. -/
theorem State.checkBarriers_stir {c b : Nat} (ks : List Nat) : ∀ {s : State} {l : Lot}, ks.Nodup → s.lot? c b = some l →
    l.ending = false → l.waitersPlain →
    ∃ l', s.OnPlace (ks.foldl (fun s k => s.checkBarrier c b k) s) c b
      ∧ (ks.foldl (fun s k => s.checkBarrier c b k) s).lot? c b = some l' ∧ l.Stirred l' ∧ l'.warps = l.warps
      ∧ ∀ k ∈ ks, l.barMet k → ∀ x ∈ l.barWaiters k, l.woken l' x := by
  induction ks with
  | nil =>
    intro s l _ hl _ _
    exact ⟨l, State.OnPlace.refl s c b, hl, Lot.Stirred.refl l, rfl, by simp⟩
  | cons k ks ih =>
    intro s l hnodup hl hend hplain
    obtain ⟨hfresh, hnodup'⟩ := List.nodup_cons.mp hnodup
    obtain ⟨m, hplace1, hm, hstir1, hwarps1, hbar1, hwoken1⟩ := State.checkBarrier_stirs hl hend hplain k
    obtain ⟨l', hplace2, hl', hstir2, hwarps2, hwoken2⟩ := ih hnodup' hm (hstir1.ending.trans hend) (hstir1.waitersPlain hplain)
    refine ⟨l', hplace1.trans hplace2, hl', hstir1.trans hstir2, hwarps2.trans hwarps1, fun j hj hmet x hx => ?_⟩
    have hlane : x.l < 32 := Lot.waiter_lane_lt (Lot.barWaiter_waits hx).1
    rcases List.mem_cons.mp hj with rfl | hj
    · exact (hwoken1 hmet x hx).mono hstir2 hlane
    · have hbar : m.bar j = l.bar j := hbar1 j (fun e => hfresh (e ▸ hj))
      rcases hstir1.barWaiter hbar hx with h | ⟨hx', e⟩
      · exact h.mono hstir2 hlane
      · obtain ⟨hst, hpc⟩ := hwoken2 j hj (hstir1.barMet hbar hmet) x hx'
        exact ⟨hst, by rw [hpc, e]⟩

/-! ### The decision queue -/

/-- The barker that waits for room in the decision queue may wake. -/
theorem State.dqRoom_stirs {s : State} {c b : Nat} {l : Lot} (hl : s.lot? c b = some l) (hend : l.ending = false)
    (hplain : l.waitersPlain) :
    ∃ l', s.OnPlace (s.dqRoom c b) c b ∧ (s.dqRoom c b).lot? c b = some l' ∧ l.Stirred l' ∧ l'.warps = l.warps := by
  have hsame : ∃ l', s.OnPlace s c b ∧ s.lot? c b = some l' ∧ l.Stirred l' ∧ l'.warps = l.warps :=
    ⟨l, State.OnPlace.refl s c b, hl, Lot.Stirred.refl l, rfl⟩
  unfold State.dqRoom
  rw [hl]
  dsimp only
  split
  · next n hst =>
    split
    · have hparked : (l.thr Agent.barker).st.isParked = true := by
        rw [hst]
        rfl
      have hbarker := hplain Agent.barker List.mem_cons_self hparked
      obtain ⟨l', n, hplace, hl', hframe, hthr⟩ := State.wakeAll_onPlace hl hend (List.nodup_singleton Agent.barker)
        (by simpa using Lot.barker_lane_lt) (by simpa using hbarker)
      refine ⟨l', hplace, hl', ⟨by rw [hframe], fun x hx => ?_⟩, by rw [hframe]⟩
      rw [hthr x hx]
      split
      · next hin =>
        rw [List.mem_singleton] at hin
        rw [hin]
        exact .inr ⟨hparked, hbarker, n, (l.thr Agent.barker).obs, rfl⟩
      · exact .inl rfl
    · exact hsame
  · exact hsame

end Sys2Proof.Machine
end

section
/-! Laws of leaving a lot (15_ref_d_i.md R369, R370): the masks that an exiting thread leaves, and the waiters that its leaving wakes. -/

namespace Sys2Proof.Machine

/-! ### Masks without a lane -/

theorem andNot_two_pow (x i : Nat) : andNot x (2 ^ i) = setBits x i i 0 := by
  unfold andNot setBits bits
  have hand : x &&& 2 ^ i = x / 2 ^ i % 2 * 2 ^ i := by
    rw [Nat.and_two_pow, Nat.toNat_testBit]
  rw [hand, Nat.add_sub_cancel_left]
  simp

theorem bit_setBits_zero (x i : Nat) : bit (setBits x i i 0) i = false := by
  have h : bits (setBits x i i 0) i i = 0 := by
    rw [bits_setBits_same]
    simp
  unfold bits at h
  unfold bit
  rw [Nat.add_sub_cancel_left, Nat.pow_one] at h
  rw [h]
  rfl

theorem Warp.mem_lt (x : Warp) (k : Nat) : x.mem k < 2 ^ 32 := BitVec.isLt _
theorem Warp.arr_lt (x : Warp) (k : Nat) : x.arr k < 2 ^ 32 := BitVec.isLt _

theorem Warp.mem_setMem (x : Warp) (k v : Nat) (hv : v < 2 ^ 32) (j : Nat) : (x.setMem k v).mem j = if j = k then v else x.mem j := by
  unfold Warp.mem Warp.setMem
  simp only
  rw [Tbl.get_put]
  split
  · rw [BitVec.toNat_ofNat]
    exact Nat.mod_eq_of_lt hv
  · rfl

theorem Warp.arr_setArr (x : Warp) (k v : Nat) (hv : v < 2 ^ 32) (j : Nat) : (x.setArr k v).arr j = if j = k then v else x.arr j := by
  unfold Warp.arr Warp.setArr
  simp only
  rw [Tbl.get_put]
  split
  · rw [BitVec.toNat_ofNat]
    exact Nat.mod_eq_of_lt hv
  · rfl

theorem Warp.mem_leaveMask (x : Warp) (k : Nat) {lane : Nat} (hlane : lane < 32) (j : Nat) :
    (x.leaveMask k lane).mem j = if j = k then setBits (x.mem k) lane lane 0 else x.mem j :=
  Warp.mem_setMem x k _ (setBits_lt _ _ (x.mem_lt k) hlane) j

theorem Warp.arr_leaveMask (x : Warp) (k : Nat) {lane : Nat} (hlane : lane < 32) (j : Nat) :
    (x.leaveMask k lane).arr j = if j = k then setBits (x.arr k) lane lane 0 else x.arr j :=
  Warp.arr_setArr (x.setMem k _) k _ (setBits_lt _ _ (x.arr_lt k) hlane) j

/-- A lane leaves several masks. -/
theorem Warp.leaveMasks {lane : Nat} (hlane : lane < 32) (ks : List Nat) : ∀ x : Warp, ks.Nodup →
    (∀ j, (ks.foldl (fun x k => x.leaveMask k lane) x).mem j = if j ∈ ks then andNot (x.mem j) (2 ^ lane) else x.mem j)
    ∧ ∀ j, (ks.foldl (fun x k => x.leaveMask k lane) x).arr j = if j ∈ ks then andNot (x.arr j) (2 ^ lane) else x.arr j := by
  induction ks with
  | nil => exact fun x _ => ⟨fun j => by simp, fun j => by simp⟩
  | cons k ks ih =>
    intro x hnodup
    obtain ⟨hfresh, hnodup'⟩ := List.nodup_cons.mp hnodup
    obtain ⟨hmem, harr⟩ := ih (x.leaveMask k lane) hnodup'
    refine ⟨fun j => ?_, fun j => ?_⟩
    · rw [List.foldl_cons, hmem, Warp.mem_leaveMask _ _ hlane]
      by_cases hj : j = k
      · subst hj
        rw [if_neg hfresh, if_pos rfl, if_pos List.mem_cons_self, andNot_two_pow]
      · simp [hj]
    · rw [List.foldl_cons, harr, Warp.arr_leaveMask _ _ hlane]
      by_cases hj : j = k
      · subst hj
        rw [if_neg hfresh, if_pos rfl, if_pos List.mem_cons_self, andNot_two_pow]
      · simp [hj]

/-! ### The first step of an EXIT -/

/-- A thread as its EXIT begins. -/
def Thread.exits (t : Thread) (sc : Scope) (next : VAddr) (nested : Bool) : Thread :=
  { t with
    st := .exiting sc, pc := next, exitAfter := Option.none, waitAfter := Option.none, mon := Option.none, nested := nested,
    shadow := Option.none, target := Option.none, stepping := false, dbgPend := false }

/-- An agent leaves its lot. -/
def State.exitsFrom (s : State) (c b : Nat) (sc : Scope) (next : VAddr) (a : Agent) (nested : Lot → Bool) : State :=
  let s := s.onLot c b (fun l => l.setThr a ((l.thr a).exits sc next (nested l)))
  if a.isBarker then s
  else
    let s := s.onWarp c b a.w (fun x => (List.range 12).foldl (fun x k => x.leaveMask k a.l) x)
    let s := (List.range 12).foldl (fun s k => s.maskRelease c b a.w k) s
    let s := (List.range 16).foldl (fun s k => s.checkBarrier c b k) s
    s.dqRoom c b

theorem State.exitOne_eq {s : State} {c b : Nat} {l : Lot} (hl : s.lot? c b = some l) (sc : Scope) (next : VAddr) (a : Agent) :
    s.exitOne c b sc next a = (if (l.thr a).shadow.isSome then s.discardReplays c b a else s).exitsFrom c b sc next a
      (fun m => (l.thr a).shadow.isSome && (m.thr a).nests) := by
  unfold State.exitOne
  rw [hl]
  rfl

/-- The waiters that the leaving of a thread lets go: those of its warp's masks that all members left have reached, and those of the
barriers that as many have reached as stay. -/
def Lot.letsGo (l l' : Lot) (a : Agent) : Prop :=
  (∀ k, k < 12 → bit ((l'.warp a.w).mem k) a.l = false ∧ bit ((l'.warp a.w).arr k) a.l = false)
  ∧ (∀ k, k < 12 → andNot (andNot ((l.warp a.w).mem k) (2 ^ a.l)) (andNot ((l.warp a.w).arr k) (2 ^ a.l)) = 0 →
    ∀ x ∈ l.kwaiters a.w k, l.woken l' x)
  ∧ ∀ b, b < 16 → 0 < (l.bar b).arrivals →
    (if (l.bar b).expected ≠ 0 then (l.bar b).expected
      else (l.agents.filter (fun x => x ≠ a ∧ (l.thr x).gone = false)).length) ≤ (l.bar b).arrivals →
    ∀ x ∈ l.barWaiters b, l.woken l' x

/-- The lot whose thread has begun its EXIT and has left its masks. -/
def Lot.without (l : Lot) (a : Agent) (t : Thread) : Lot :=
  (l.setThr a t).setWarp a.w ((List.range 12).foldl (fun x k => x.leaveMask k a.l) (l.warp a.w))

section
variable {l : Lot} {a : Agent} {t : Thread} (ha : a.l < 32)
include ha

theorem Lot.thr_without {x : Agent} (hx : x.l < 32) : (l.without a t).thr x = if x = a then t else l.thr x := by
  unfold Lot.without
  rw [Lot.thr_setWarp]
  split
  · next h => rw [h, Lot.thr_setThr]
  · next h => exact Lot.thr_setThr_other _ _ _ _ ha hx h

theorem Lot.waitersPlain_without (hplain : l.waitersPlain) (ht : t.st.isParked = false) : (l.without a t).waitersPlain := by
  intro x hx hst
  rw [Lot.thr_without ha (Lot.waiter_lane_lt hx)] at hst ⊢
  split at hst
  · rw [ht] at hst
    exact Bool.noConfusion hst
  · next h =>
    rw [if_neg h]
    exact hplain x hx hst

theorem Lot.mem_without {k : Nat} (hk : k < 12) : ((l.without a t).warp a.w).mem k = andNot ((l.warp a.w).mem k) (2 ^ a.l) := by
  unfold Lot.without
  rw [Lot.warp_setWarp, (Warp.leaveMasks ha _ _ List.nodup_range).1, if_pos (List.mem_range.mpr hk)]

theorem Lot.arr_without {k : Nat} (hk : k < 12) : ((l.without a t).warp a.w).arr k = andNot ((l.warp a.w).arr k) (2 ^ a.l) := by
  unfold Lot.without
  rw [Lot.warp_setWarp, (Warp.leaveMasks ha _ _ List.nodup_range).2, if_pos (List.mem_range.mpr hk)]

theorem Lot.kwaiters_without (hst : (l.thr a).st.isParked = false) {w k : Nat} {x : Agent} (hx : x ∈ l.kwaiters w k) :
    x ∈ (l.without a t).kwaiters w k ∧ (l.without a t).thr x = l.thr x := by
  obtain ⟨hw, hi, hn, hpark⟩ := Lot.mem_kwaiters.mp hx
  have hne : x ≠ a := fun e => by
    rw [e] at hpark
    rw [hpark] at hst
    exact Bool.noConfusion (hst : true = false)
  have hthr := Lot.thr_without (l := l) (t := t) ha hi
  rw [if_neg hne] at hthr
  exact ⟨Lot.mem_kwaiters.mpr ⟨hw, hi, hn, by rw [hthr]; exact hpark⟩, hthr⟩

theorem Lot.barWaiters_without (hst : (l.thr a).st.isParked = false) {k : Nat} {x : Agent} (hx : x ∈ l.barWaiters k) :
    x ∈ (l.without a t).barWaiters k ∧ (l.without a t).thr x = l.thr x := by
  obtain ⟨hin, hpark⟩ := List.mem_filter.mp hx
  rw [beq_iff_eq] at hpark
  have hne : x ≠ a := fun e => by
    rw [e] at hpark
    rw [hpark] at hst
    exact Bool.noConfusion (hst : true = false)
  have hthr := Lot.thr_without (l := l) (t := t) ha (Lot.waiter_lane_lt (Lot.agents_sub hin))
  rw [if_neg hne] at hthr
  exact ⟨List.mem_filter.mpr ⟨hin, by rw [hthr]; exact beq_iff_eq.mpr hpark⟩, hthr⟩

/-- Those present without the thread that has left. -/
theorem Lot.present_without (ht : t.gone = true) :
    (l.without a t).present = (l.agents.filter (fun x => x ≠ a ∧ (l.thr x).gone = false)).length := by
  have hagents : (l.without a t).agents = l.agents := rfl
  unfold Lot.present
  rw [hagents]
  refine congrArg List.length (List.filter_congr fun x hx => ?_)
  rw [Lot.thr_without ha (Lot.waiter_lane_lt (Lot.agents_sub hx))]
  by_cases h : x = a
  · simp [h, ht]
  · rw [if_neg h, Bool.eq_iff_iff]
    simp [h]

end

/-- The leaving of an agent: its thread waits in its EXIT, and the waiters that it lets go wake. -/
theorem State.exitsFrom_leaves {s : State} {c b : Nat} {l : Lot} {a : Agent} (hl : s.lot? c b = some l) (hend : l.ending = false)
    (hplain : l.waitersPlain) (hst : (l.thr a).st = .issuing) (ha : a.l < 32) (sc : Scope) (next : VAddr) (nested : Lot → Bool) :
    ∃ l', s.OnPlace (s.exitsFrom c b sc next a nested) c b ∧ (s.exitsFrom c b sc next a nested).lot? c b = some l'
      ∧ l' = { l with threads := l'.threads, warps := l'.warps, bars := l'.bars }
      ∧ l'.thr a = (l.thr a).exits sc next (nested l) ∧ (a.isBarker = false → l.letsGo l' a) := by
  generalize ht : (l.thr a).exits sc next (nested l) = t
  have hparked : (l.thr a).st.isParked = false := by
    rw [hst]
    rfl
  have htst : t.st = .exiting sc := by
    rw [← ht]
    rfl
  unfold State.exitsFrom
  dsimp only
  rw [State.onLot_of_lot hl, ht]
  have hplace1 : s.OnPlace (s.setLot c b (l.setThr a t)) c b := State.onPlace_setLot hl rfl rfl
  split
  · next hbarker =>
    exact ⟨l.setThr a t, hplace1, State.lot?_setLot .., rfl, Lot.thr_setThr .., fun h => absurd hbarker (by rw [h]; decide)⟩
  · have hwarps : (s.setLot c b (l.setThr a t)).onWarp c b a.w (fun x => (List.range 12).foldl (fun x k => x.leaveMask k a.l) x)
        = s.setLot c b (l.without a t) := by
      unfold State.onWarp
      rw [State.onLot_of_lot (State.lot?_setLot ..), State.setLot_setLot]
      rfl
    rw [hwarps]
    have hplace2 : s.OnPlace (s.setLot c b (l.without a t)) c b := State.onPlace_setLot hl rfl rfl
    have hplain2 : (l.without a t).waitersPlain := Lot.waitersPlain_without ha hplain (by rw [htst]; rfl)
    obtain ⟨m1, hp1, hm1, hs1, hbars1, hmem1, harr1, hwoken1⟩ := State.maskReleases_stir a.w (List.range 12)
      (s := s.setLot c b (l.without a t)) List.nodup_range (State.lot?_setLot ..) hend hplain2
    obtain ⟨m2, hp2, hm2, hs2, hwarps2, hwoken2⟩ := State.checkBarriers_stir (List.range 16) List.nodup_range hm1 (hs1.ending.trans hend)
      (hs1.waitersPlain hplain2)
    obtain ⟨m3, hp3, hm3, hs3, hwarps3⟩ := State.dqRoom_stirs hm2 ((hs2.ending.trans hs1.ending).trans hend)
      (hs2.waitersPlain (hs1.waitersPlain hplain2))
    have hstir := (hs1.trans hs2).trans hs3
    have hwarp3 : ∀ w, m3.warp w = m1.warp w := fun w => by
      show Tbl.get Warp.none m3.warps w = Tbl.get Warp.none m1.warps w
      rw [hwarps3, hwarps2]
    refine ⟨m3, hplace2.trans (hp1.trans (hp2.trans hp3)), hm3, by rw [hstir.rest]; rfl, ?_, fun _ => ⟨fun k hk => ⟨?_, ?_⟩,
      fun k hk hrel x hx => ?_, fun k hk harrived hneed x hx => ?_⟩⟩
    · have hat : (l.without a t).thr a = t := by rw [Lot.thr_without ha ha, if_pos rfl]
      rcases hstir.thr a ha with e | ⟨hp, -⟩
      · rw [e, hat]
      · rw [hat, htst] at hp
        exact Bool.noConfusion (hp : false = true)
    · rw [hwarp3, hmem1, Lot.mem_without ha hk, andNot_two_pow]
      exact bit_setBits_zero _ _
    · rw [hwarp3]
      rcases harr1 k with e | e
      · rw [e, Lot.arr_without ha hk, andNot_two_pow]
        exact bit_setBits_zero _ _
      · rw [e]
        unfold bit
        simp
    · obtain ⟨hx', e⟩ := Lot.kwaiters_without (t := t) ha hparked hx
      have hrel' : ((l.without a t).warp a.w).released k = true := by
        unfold Warp.released
        rw [Lot.mem_without ha hk, Lot.arr_without ha hk, hrel]
        rfl
      obtain ⟨hst', hpc⟩ := (hwoken1 k (List.mem_range.mpr hk) hrel' x hx').mono (hs2.trans hs3) (Lot.mem_kwaiters.mp hx).2.1
      exact ⟨hst', by rw [hpc, e]⟩
    · obtain ⟨hx', e⟩ := Lot.barWaiters_without (t := t) ha hparked hx
      have hgone : t.gone = true := by
        unfold Thread.gone
        rw [htst]
        rfl
      have hbar1 : m1.bar k = (l.without a t).bar k := by
        show Tbl.get Barrier.none m1.bars k = _
        rw [hbars1]
        rfl
      have hmet : (l.without a t).barMet k := ⟨harrived, by rw [Lot.present_without ha hgone]; exact hneed⟩
      have hlane := Lot.waiter_lane_lt (Lot.barWaiter_waits hx).1
      rcases hs1.barWaiter hbar1 hx' with hw | ⟨hx1, e1⟩
      · obtain ⟨hst', hpc⟩ := hw.mono (hs2.trans hs3) hlane
        exact ⟨hst', by rw [hpc, e]⟩
      · obtain ⟨hst', hpc⟩ := (hwoken2 k (List.mem_range.mpr hk) (hs1.barMet hbar1 hmet) x hx1).mono hs3 hlane
        exact ⟨hst', by rw [hpc, e1, e]⟩

end Sys2Proof.Machine
end

section
/-! EXIT and its completion (02_work.md R45; 11_faults.md R285, R287; 15_ref_d_i.md R368 to R370; O12). -/

namespace Sys2Proof.Machine

/-! ### Accesses that end on a calm core -/

/-- No thread of a lot waits for counters, or in DEBUG for accesses issued again. -/
def Lot.calm (l : Lot) : Prop := ∀ a ∈ l.allAgents, (l.thr a).st.waitsForCounters = false ∧ (l.thr a).going = false

/-- Every lot of a core is calm. -/
def State.calmOn (s : State) (c : Nat) : Prop := ∀ b l, b < 4 → s.lot? c b = some l → l.calm

theorem State.calmOn_of_calm {s : State} {c : Nat} (h : s.calm c) : s.calmOn c := by
  intro b l hb hl a ha
  unfold State.calm at h
  rw [List.all_eq_true] at h
  have hlot := h (c, b, l) (State.mem_lotList hb hl)
  simp only [bne_self_eq_false, Bool.false_or, List.all_eq_true] at hlot
  have hthread := hlot a ha
  simp only [Bool.and_eq_true, Bool.not_eq_true'] at hthread
  exact hthread

theorem State.still_of_calmOn {s : State} {c : Nat} (h : s.calmOn c) : s.still c := fun b l hb hl a ha =>
  TState.waitEnds_of_calm (h b l hb hl a ha).1 (h b l hb hl a ha).2 _

theorem State.calmOn_setLot {s : State} {c b : Nat} {l l' : Lot} (h : s.calmOn c) (hl : s.lot? c b = some l)
    (hsame : l'.allAgents = l.allAgents ∧ l'.threads = l.threads) : (s.setLot c b l').calmOn c := by
  intro b' m hb' hm
  by_cases hbb : b' = b
  · subst hbb
    rw [State.lot?_setLot, Option.some.injEq] at hm
    subst hm
    intro a ha
    have hthr : l'.thr a = l.thr a := congrArg (fun t => Tbl.get Thread.none t a.key) hsame.2
    rw [hthr]
    exact h b' l hb' hl a (hsame.1 ▸ ha)
  · rw [State.lot?_setLot_other] at hm
    · exact h b' m hb' hm
    · unfold lotKey
      omega

/-- The state without an access. -/
def State.withoutAcc (s : State) (id : Nat) : State := { s with accs := s.accs.filter (fun x => x.id != id) }

theorem State.endAcc_cases (s : State) (x : Acc) : s.endAcc x = (s.withoutAcc x.id).recheck x.t.core
    ∨ ∃ n, s.endAcc x = ((s.withoutAcc x.id).countDown x.t.core x.t.bctx x.t.w n).recheck x.t.core := by
  unfold State.endAcc
  dsimp only
  split
  · exact .inl rfl
  · exact .inr ⟨_, rfl⟩

/-- An access that ends on a calm core leaves the list, and may lower a counter of its warp. -/
theorem State.endAcc_calm {s : State} {l : Lot} (x : Acc) (hl : s.lot? x.t.core x.t.bctx = some l) (hcalm : s.calmOn x.t.core) :
    ∃ W, (s.endAcc x).calmOn x.t.core ∧ (s.withoutAcc x.id).OnPlace (s.endAcc x) x.t.core x.t.bctx
      ∧ (s.endAcc x).lot? x.t.core x.t.bctx = some { l with warps := W } := by
  have hl0 : (s.withoutAcc x.id).lot? x.t.core x.t.bctx = some l := hl
  have hsame : (s.withoutAcc x.id).calmOn x.t.core := hcalm
  rcases s.endAcc_cases x with h | ⟨n, h⟩
  · rw [h, State.recheck_of_still (State.still_of_calmOn hsame)]
    exact ⟨l.warps, hsame, State.OnPlace.refl (s.withoutAcc x.id) _ _, hl⟩
  · have hdown : (s.withoutAcc x.id).countDown x.t.core x.t.bctx x.t.w n =
        (s.withoutAcc x.id).setLot x.t.core x.t.bctx (l.setWarp x.t.w ((l.warp x.t.w).drop n)) := State.onLot_of_lot hl0 _
    have hcalm' := State.calmOn_setLot (l' := l.setWarp x.t.w ((l.warp x.t.w).drop n)) hsame hl0 ⟨rfl, rfl⟩
    rw [h, hdown, State.recheck_of_still (State.still_of_calmOn hcalm')]
    exact ⟨_, hcalm', State.onPlace_setLot hl0 rfl rfl, State.lot?_setLot ..⟩

/-- Accesses of one lane end one after another. -/
theorem State.endAccs_calm {c b : Nat} (xs : List Acc) : ∀ {s : State} {l : Lot}, s.lot? c b = some l → s.calmOn c →
    (∀ x ∈ xs, x.t.core = c ∧ x.t.bctx = b) →
    ∃ W, State.OnPlace { s with accs := s.accs.filter (fun y => xs.all (fun x => y.id != x.id)) } (xs.foldl (fun s x => s.endAcc x) s) c b
      ∧ (xs.foldl (fun s x => s.endAcc x) s).lot? c b = some { l with warps := W } := by
  induction xs with
  | nil =>
    intro s l hl _ _
    have hall : s.accs.filter (fun y => ([] : List Acc).all (fun x => y.id != x.id)) = s.accs := List.filter_eq_self.mpr (fun _ _ => rfl)
    rw [hall]
    exact ⟨l.warps, State.OnPlace.refl s c b, hl⟩
  | cons x xs ih =>
    intro s l hl hcalm hxs
    obtain ⟨hc, hb⟩ := hxs x List.mem_cons_self
    subst hc hb
    obtain ⟨W, hcalm', hplace, hl'⟩ := State.endAcc_calm x hl hcalm
    obtain ⟨W', hplace', hl''⟩ := ih hl' hcalm' (fun y hy => hxs y (List.mem_cons_of_mem _ hy))
    refine ⟨W', ?_, hl''⟩
    have haccs : (s.endAcc x).accs = s.accs.filter (fun y => y.id != x.id) := by
      rw [hplace.frame]
      rfl
    rw [haccs, List.filter_filter] at hplace'
    have hstep : State.OnPlace { s with accs := s.accs.filter (fun y => (x :: xs).all (fun z => y.id != z.id)) }
        { s.endAcc x with accs := s.accs.filter (fun y => (xs.all fun z => y.id != z.id) && y.id != x.id) } x.t.core x.t.bctx := by
      have hfilter : s.accs.filter (fun y => (x :: xs).all (fun z => y.id != z.id)) =
          s.accs.filter (fun y => (xs.all fun z => y.id != z.id) && y.id != x.id) :=
        List.filter_congr (fun y _ => by rw [List.all_cons, Bool.and_comm])
      rw [hfilter]
      exact ⟨by rw [hplace.frame]; rfl, hplace.others, hplace.halting⟩
    exact hstep.trans hplace'

/-- The accesses that a thread discards as it exits from its handler are those of its lane with REPLAY. -/
theorem State.discardReplays_calm {s : State} {c b : Nat} {l : Lot} {a : Agent} (hl : s.lot? c b = some l) (hcalm : s.calmOn c) :
    ∃ A W, State.OnPlace { s with accs := A } (s.discardReplays c b a) c b
      ∧ (s.discardReplays c b a).lot? c b = some { l with warps := W }
      ∧ ((s.accs.map (fun x => x.id)).Nodup → A = s.accs.filter (fun x => !(x.t == ⟨c, b, a.w, a.l⟩ && x.phase.isReplay))) := by
  obtain ⟨W, hplace, hl'⟩ := State.endAccs_calm (s.accs.filter (fun x => x.t == ⟨c, b, a.w, a.l⟩ && x.phase.isReplay)) hl hcalm
    (fun x hx => by
      have ht := (List.mem_filter.mp hx).2
      rw [Bool.and_eq_true, beq_iff_eq] at ht
      rw [ht.1]
      exact ⟨rfl, rfl⟩)
  refine ⟨_, W, hplace, hl', fun hnodup => List.filter_congr fun y hy => ?_⟩
  rw [Bool.eq_iff_iff, List.all_eq_true, Bool.not_eq_true']
  constructor
  · intro h
    by_contra hreplay
    have := h y (List.mem_filter.mpr ⟨hy, by simpa using hreplay⟩)
    simp at this
  · intro h x hx
    obtain ⟨hin, hreplay⟩ := List.mem_filter.mp hx
    rw [bne_iff_ne]
    intro hid
    have hxy := List.inj_on_of_nodup_map hnodup hy hin hid
    rw [hxy, hreplay] at h
    exact Bool.noConfusion h

/-! ### EXIT -/

/-- What the first step of an EXIT leaves of its lot. -/
structure State.ExitLeaves (s t : State) (c b : Nat) (l l' : Lot) (a : Agent) (sc : Scope) (next : VAddr) (A : List Acc) : Prop where
  place : State.OnPlace { s with accs := A } t c b
  lot : t.lot? c b = some l'
  rest : l' = { l with threads := l'.threads, warps := l'.warps, bars := l'.bars }
  thr : l'.thr a = (l.thr a).exits sc next ((l.thr a).shadow.isSome && (l.thr a).nests)
  masks : a.isBarker = false → ∀ k, k < 12 → bit ((l'.warp a.w).mem k) a.l = false ∧ bit ((l'.warp a.w).arr k) a.l = false
  outside : (l.thr a).shadow = none → A = s.accs ∧ (a.isBarker = false → l.letsGo l' a)
  inside : (l.thr a).shadow.isSome = true → (s.accs.map (fun x => x.id)).Nodup →
    A = s.accs.filter (fun x => !(x.t == ⟨c, b, a.w, a.l⟩ && x.phase.isReplay))

theorem State.exitOne_leaves {s : State} {c b : Nat} {l : Lot} {a : Agent} (hl : s.lot? c b = some l) (hcalm : s.calmOn c)
    (hend : l.ending = false) (hplain : l.waitersPlain) (hst : (l.thr a).st = .issuing) (ha : a.l < 32) (sc : Scope) (next : VAddr) :
    ∃ A l', s.ExitLeaves (s.exitOne c b sc next a) c b l l' a sc next A := by
  rw [State.exitOne_eq hl]
  by_cases hshadow : (l.thr a).shadow.isSome = true
  · rw [if_pos hshadow]
    obtain ⟨A, W, hplace, hl1, haccs⟩ := State.discardReplays_calm (a := a) hl hcalm
    obtain ⟨l', hplace', hl', hrest, hthr, hgoes⟩ := State.exitsFrom_leaves (l := { l with warps := W }) hl1 hend hplain hst ha sc next
      (fun m => (l.thr a).shadow.isSome && (m.thr a).nests)
    exact ⟨A, l', hplace.trans hplace', hl', hrest, hthr, fun hb => (hgoes hb).1,
      fun hnone => absurd hshadow (by rw [hnone]; exact Bool.false_ne_true), fun _ => haccs⟩
  · rw [if_neg hshadow]
    obtain ⟨l', hplace', hl', hrest, hthr, hgoes⟩ := State.exitsFrom_leaves hl hend hplain hst ha sc next
      (fun m => (l.thr a).shadow.isSome && (m.thr a).nests)
    exact ⟨s.accs, l', hplace', hl', hrest, hthr, fun hb => (hgoes hb).1, fun _ => ⟨rfl, hgoes⟩, fun hsome => absurd hsome hshadow⟩

/-- EXIT of an agent alone: its run ends, it leaves its lot, and takes the fault that it still has to take. -/
theorem execExit_alone {s : State} {v : View} {p : BitVec 3} {sc : Scope} {a : Agent} (h : s.alone v p a true (sc == .lot) [])
    (hcalm : s.calm v.i.core) : execExit p sc s =
      .next (((s.setIssuer s.active none).exitOne v.i.core v.i.bctx sc v.i.next a).exitStops v.i.core v.i.bctx [a]) := by
  obtain ⟨hruns, hagents, hparts⟩ := h
  obtain ⟨hi, -, -⟩ := State.view_eq hruns.1
  refine (State.instr_runs hruns _).trans (congrArg Host.Outcome.next ?_)
  dsimp only
  rw [hparts, State.leave_all hi (State.still_of_calm hcalm) (by simp [hagents])]
  rfl

theorem State.exitStops_none {s : State} {c b : Nat} {l : Lot} {a : Agent} (hl : s.lot? c b = some l) (hstop : (l.thr a).stop = none) :
    s.exitStops c b [a] = s := by
  have hdue : [a].filter (fun a => (l.thr a).stop.isSome) = [] := by simp [hstop]
  unfold State.exitStops
  rw [hl]
  dsimp only
  rw [hdue]
  rfl

/-- A thread that comes out of the wait of its EXIT for a fault. -/
def Thread.unexits (t : Thread) (sc : Scope) (n : Nat) : Thread := { t with st := .ready, seq := n, aged := false, exitAfter := some sc }

theorem State.exitStops_due {s : State} {c b : Nat} {l : Lot} {a : Agent} {sc : Scope} (hl : s.lot? c b = some l)
    (hstop : (l.thr a).stop.isSome = true) (hst : (l.thr a).st = .exiting sc) :
    s.exitStops c b [a] = (State.setLot { s with nextId := s.nextId + 1 } c b
      (l.setThr a ((l.thr a).unexits sc s.nextId))).takeStops c b [a] := by
  have hdue : [a].filter (fun a => (l.thr a).stop.isSome) = [a] := by simp [hstop]
  have hun : l.unexit a s.nextId = l.setThr a ((l.thr a).unexits sc s.nextId) := by
    unfold Lot.unexit
    dsimp only
    rw [hst]
    rfl
  unfold State.exitStops State.fresh
  rw [hl]
  dsimp only
  rw [hdue, ← hun]
  have hl' : State.lot? { s with nextId := s.nextId + 1 } c b = some l := hl
  rw [State.onLot_of_lot hl']
  rfl

/-- What taking a stop means for its thread: it stops where its lot now fails, and waits in DEBUG where it is halted. -/
def Lot.stopTaken (l : Lot) (a : Agent) : Lot :=
  match l.phase with
  | .failing _ => l.setThr a { l.thr a with stop := none, st := .stopped }
  | .halted => l.setThr a { (l.thr a).toStop with st := .parked .debug }
  | _ => l

theorem Lot.stopTaken_running {l : Lot} (h : l.phase = .running) (a : Agent) : l.stopTaken a = l := by
  unfold Lot.stopTaken
  rw [h]

theorem Lot.stopTaken_failing {l : Lot} {code : Nat} (h : l.phase = .failing code) (a : Agent) :
    l.stopTaken a = l.setThr a { l.thr a with stop := none, st := .stopped } := by
  unfold Lot.stopTaken
  rw [h]

/-- A thread that stands READY at a header takes the stop that it has. -/
theorem State.takeStops_one {s : State} {c b : Nat} {l : Lot} {a : Agent} {x : Stop} (hl : s.lot? c b = some l)
    (hmid : (l.thr a).mid = 0) (hst : (l.thr a).st = .ready) (hstop : (l.thr a).stop = some x) (hhalt : s.haltingLot l.launch = none) :
    s.takeStops c b [a] = (((s.setLot c b (l.setThr a { l.thr a with stop := none })).takeFault c b a [a] x).onLot c b (fun l' =>
      match l'.phase with
      | .failing _ => l'.setThr a { l'.thr a with stop := none, st := .stopped }
      | .halted => l'.setThr a { (l'.thr a).toStop with st := .parked .debug }
      | _ => l')) := by
  have hstands : s.standsAt c b l a = true := by
    unfold State.standsAt
    rw [hmid, hst]
    rfl
  have hmates : s.stopMates c b l [a] a x = [a] := by
    unfold State.stopMates
    simp [hstop]
  have htoStop : (l.thr a).toStop = { l.thr a with stop := none } := by
    unfold Thread.toStop
    generalize l.thr a = t at hst
    cases t
    simp only at hst
    subst hst
    rfl
  unfold State.takeStops
  rw [List.foldl_cons, List.foldl_nil, hl]
  simp only [hstands, hstop, hmates, hhalt, Option.isSome_none, Bool.false_and, Bool.false_eq_true, if_false, List.foldl_cons,
    List.foldl_nil, htoStop] <;> rfl

/-- A fault outside a handler, of a group whose action is the handler: the thread enters it (R280, R287). -/
theorem State.takeFault_handler {s : State} {c b : Nat} {l : Lot} {a : Agent} {x : Stop} (hl : s.lot? c b = some l)
    (hphase : l.phase = .running) (hhalt : s.haltingLot l.launch = none) (hshadow : (l.thr a).shadow = none)
    (hnested : (l.thr a).nested = false) (h5 : faultGroup x.code ≠ 5) (h6 : faultGroup x.code ≠ 6)
    (hact : s.factAction l.ctx (faultGroup x.code) = 0) (hva : s.handlerVA l.ctx ≠ 0) :
    s.takeFault c b a [a] x =
      State.setLot { s with nextId := s.nextId + 1 } c b (l.enterHandler a x (s.handlerVA l.ctx) s.nextId) := by
  unfold State.takeFault
  rw [hl]
  have hhandler : (faultGroup x.code != 5 && s.handlerVA l.ctx != 0) = true :=
    (Bool.and_eq_true _ _).mpr ⟨bne_iff_ne.mpr h5, bne_iff_ne.mpr hva⟩
  simp only [hphase, h6, hhalt, hshadow, hnested, hact, decide_false, Bool.false_and, Bool.false_eq_true, if_false,
    Option.isSome_none, Bool.or_self, decide_true, Bool.true_and]
  rw [if_pos hhandler]
  rfl

/-- A fault of a handler, other than a debug event, fails the lot (R287, R288). -/
theorem State.takeFault_nested {s : State} {c b : Nat} {l : Lot} {a : Agent} {x : Stop} (hl : s.lot? c b = some l)
    (hphase : l.phase = .running) (hhalt : s.haltingLot l.launch = none) (hnested : (l.thr a).nested = true) (h6 : faultGroup x.code ≠ 6) :
    ∃ r, s.takeFault c b a [a] x = (s.writeRec l.ctx r).failLot c b x.code [a] := by
  refine ⟨stopRec c l a (recLanes [a]) x 1 4, ?_⟩
  unfold State.takeFault
  rw [hl]
  have h6' : (faultGroup x.code != 6) = true := by simpa using h6
  simp only [hphase, h6, hhalt, hnested, h6', decide_false, Bool.false_and, Bool.false_eq_true, if_false, Option.isSome_none,
    Bool.or_true, Bool.and_self, if_true]

theorem Lot.thr_enterHandler (l : Lot) (a : Agent) (x : Stop) (fhva : VAddr) (n : Nat) :
    ∃ sh, sh.resume = (l.thr a).pc ∧ (l.enterHandler a x fhva n).thr a = { l.thr a with
      shadow := some sh, pc := fhva, stop := none, nested := false, stepping := false, st := .ready, seq := n, aged := false,
      mid := 0, via := none } := by
  unfold Lot.enterHandler
  dsimp only
  split
  · simp only [Lot.thr_setSreg, Lot.thr_setThr]
    exact ⟨_, rfl, rfl⟩
  · simp only [Lot.thr_setVreg, Lot.thr_setThr]
    exact ⟨_, rfl, rfl⟩

/-! ### A lot that fails -/

/-- A lot is there and meets a property, and the running formed warps are those given. -/
def State.lotMeets (s : State) (c b : Nat) (Q : Lot → Prop) (running : Tbl (Option Issuer)) : Prop :=
  (∃ l, s.lot? c b = some l ∧ Q l) ∧ s.running = running

/-- A property of a lot that neither its threads nor its count of faults bear on. -/
def Lot.offThreads (Q : Lot → Prop) : Prop := (∀ l a t, Q l → Q (l.setThr a t)) ∧ ∀ l n, Q l → Q { l with nfault := n }

theorem Lot.offThreads_phase (ph : LotPhase) : Lot.offThreads (fun l => l.phase = ph) := ⟨fun _ _ _ h => h, fun _ _ h => h⟩

section
variable {s : State} {c b : Nat} {Q : Lot → Prop} {r : Tbl (Option Issuer)}

theorem State.lotMeets.onLot (h : s.lotMeets c b Q r) (c' b' : Nat) {f : Lot → Lot} (hf : ∀ l, Q l → Q (f l)) :
    (s.onLot c' b' f).lotMeets c b Q r := by
  obtain ⟨⟨l, hl, hq⟩, hr⟩ := h
  unfold State.onLot
  split
  · next m hm =>
    refine ⟨?_, hr⟩
    by_cases hkey : lotKey c b = lotKey c' b'
    · have hsame : s.lot? c b = s.lot? c' b' := congrArg (Tbl.get none s.lots) hkey
      rw [hl, hm, Option.some.injEq] at hsame
      refine ⟨f m, ?_, hf m (hsame ▸ hq)⟩
      exact (congrArg (Tbl.get none (s.setLot c' b' (f m)).lots) hkey).trans (State.lot?_setLot ..)
    · exact ⟨l, (State.lot?_setLot_other _ _ _ _ _ _ hkey).trans hl, hq⟩
  · exact ⟨⟨l, hl, hq⟩, hr⟩

theorem State.lotMeets.onLot_gives {P : Lot → Prop} (h : s.lotMeets c b P r) {f : Lot → Lot} (hf : ∀ l, Q (f l)) :
    (s.onLot c b f).lotMeets c b Q r := by
  obtain ⟨⟨l, hl, -⟩, hr⟩ := h
  rw [State.onLot_of_lot hl]
  exact ⟨⟨_, State.lot?_setLot .., hf l⟩, hr⟩

theorem State.lotMeets.of_lots {t : State} (h : s.lotMeets c b Q r) (hlots : t.lots = s.lots) (hrun : t.running = s.running) :
    t.lotMeets c b Q r := by
  obtain ⟨⟨l, hl, hq⟩, hr⟩ := h
  exact ⟨⟨l, (State.lot?_of_lots hlots c b).trans hl, hq⟩, hrun.trans hr⟩

theorem State.lotMeets.writeRec (h : s.lotMeets c b Q r) (ctx : Nat) (x : FRec) : (s.writeRec ctx x).lotMeets c b Q r :=
  h.of_lots (s.writeRec_lots ctx x) (s.writeRec_running ctx x)

theorem State.lotMeets.countHalted (hQ : Lot.offThreads Q) (h : s.lotMeets c b Q r) (launch : Nat) : (s.countHalted launch).lotMeets c b Q r := by
  unfold State.countHalted
  split
  · exact h.onLot _ _ (fun l => hQ.2 l _)
  · exact h

theorem State.lotMeets.reportStops (hQ : Lot.offThreads Q) (h : s.lotMeets c b Q r) (c' b' : Nat) (as : List Agent) :
    (s.reportStops c' b' as).lotMeets c b Q r := by
  unfold State.reportStops
  split
  · exact h
  · dsimp only
    refine List.foldlRecOn (motive := fun t => State.lotMeets t c b Q r) as _ h fun t ht a _ => ?_
    split
    · exact ht
    · have hdrop := ht.onLot c' b' (f := fun l => l.setThr a { l.thr a with stop := none }) (fun l => hQ.1 l _ _)
      split
      · exact hdrop
      · split
        · exact hdrop.writeRec _ _
        · split
          · exact (hdrop.writeRec _ _).countHalted hQ _
          · exact hdrop.onLot _ _ (fun l => hQ.1 l _ _)

end

theorem Lot.stopAll_phase (l : Lot) : l.stopAll.phase = l.phase := by
  refine foldl_keeps Lot.phase _ (fun m a => ?_) _ _
  dsimp only
  split <;> rfl

/-- A lot that fails is there, failing, and its run is as before. -/
theorem State.failLot_fails {s : State} {c b : Nat} {l : Lot} (hl : s.lot? c b = some l) (code : Nat) (covered : List Agent) :
    (s.failLot c b code covered).lotMeets c b (fun k => k.phase = .failing code) s.running := by
  have hthere : s.lotMeets c b (fun _ => True) s.running := ⟨⟨l, hl, trivial⟩, rfl⟩
  have hfails : (s.onLot c b (fun l => { l with phase := .failing code })).lotMeets c b (fun k => k.phase = .failing code) s.running :=
    hthere.onLot_gives (fun _ => rfl)
  exact (hfails.reportStops (Lot.offThreads_phase _) c b _).onLot c b (fun k hk => k.stopAll_phase.trans hk)

/-! ### The four ways of an EXIT -/

section
variable {s t : State} {c b : Nat} {l l' : Lot} {a : Agent} {sc : Scope} {next : VAddr} {A : List Acc}
  (h : s.ExitLeaves t c b l l' a sc next A)
include h

theorem State.ExitLeaves.running : t.running = s.running := by rw [h.place.frame]
theorem State.ExitLeaves.accs : t.accs = A := by rw [h.place.frame]
theorem State.ExitLeaves.dev : t.dev = s.dev := by rw [h.place.frame]
theorem State.ExitLeaves.m : t.m = s.m := by rw [h.place.frame]

/-- A thread that exits with a fault comes out of the wait of its EXIT, and stands at the header to take it. -/
theorem State.ExitLeaves.stands {x : Stop} (hstop : (l.thr a).stop = some x) (hmid : (l.thr a).mid = 0)
    (hhalt : s.haltingLot l.launch = none) :
    ∃ (u : State) (l2 : Lot), t.exitStops c b [a] = (u.takeFault c b a [a] x).onLot c b (fun m => m.stopTaken a)
      ∧ u.lot? c b = some l2 ∧ l2.phase = l.phase ∧ l2.ctx = l.ctx ∧ u.haltingLot l2.launch = none
      ∧ u.running = s.running ∧ u.dev = s.dev ∧ u.accs = A ∧ (l2.thr a).pc = next ∧ (l2.thr a).exitAfter = some sc
      ∧ (l2.thr a).shadow = none ∧ (l2.thr a).nested = ((l.thr a).shadow.isSome && (l.thr a).nests) := by
  have hstop' : (l'.thr a).stop = some x := by rw [h.thr]; exact hstop
  have hexiting : (l'.thr a).st = .exiting sc := by rw [h.thr]; rfl
  let t1 : State := { t with nextId := t.nextId + 1 }
  let l1 := l'.setThr a ((l'.thr a).unexits sc t.nextId)
  have hl1 : t1.lot? c b = some l' := h.lot
  have hthr1 : l1.thr a = (l'.thr a).unexits sc t.nextId := Lot.thr_setThr ..
  have hlaunch : l1.launch = l.launch := by
    show l'.launch = _
    rw [h.rest]
  have hhalt1 : (t1.setLot c b l1).haltingLot l1.launch = none := by
    rw [hlaunch]
    refine (State.onPlace_setLot (s := t1) (l' := l1) hl1 rfl rfl).halting _ ?_
    exact h.place.halting _ hhalt
  have hl2 : (t1.setLot c b l1).lot? c b = some l1 := State.lot?_setLot ..
  have htake := State.takeStops_one hl2 (by rw [hthr1, h.thr]; exact hmid) (by rw [hthr1]; rfl) (by rw [hthr1]; exact hstop') hhalt1
  let l2 := l1.setThr a { l1.thr a with stop := none }
  have hthr2 : l2.thr a = { l1.thr a with stop := none } := Lot.thr_setThr ..
  refine ⟨(t1.setLot c b l1).setLot c b l2, l2, ?_, State.lot?_setLot .., ?_, ?_, ?_, h.running, h.dev, h.accs, ?_, ?_, ?_, ?_⟩
  · exact (State.exitStops_due h.lot (by rw [hstop']; rfl) hexiting).trans htake
  · show l'.phase = _
    rw [h.rest]
  · show l'.ctx = _
    rw [h.rest]
  · exact (State.onPlace_setLot (s := t1.setLot c b l1) (l' := l2) hl2 rfl rfl).halting _ hhalt1
  all_goals
    rw [hthr2, hthr1, h.thr]
    rfl

end

theorem State.factAction_of_dev {s t : State} (h : t.dev = s.dev) (ctx g : Nat) : t.factAction ctx g = s.factAction ctx g := by
  unfold State.factAction State.fact State.regF
  rw [State.reg_of_dev h]

theorem State.handlerVA_of_dev {s t : State} (h : t.dev = s.dev) (ctx : Nat) : t.handlerVA ctx = s.handlerVA ctx := by
  unfold State.handlerVA State.regF
  rw [State.reg_of_dev h, State.reg_of_dev h]

@[simp] theorem Lot.phase_enterHandler (l : Lot) (a : Agent) (x : Stop) (fhva : VAddr) (n : Nat) :
    (l.enterHandler a x fhva n).phase = l.phase := by
  unfold Lot.enterHandler
  dsimp only
  split <;> rfl

/-- The thread enters its handler behind which its EXIT waits. -/
theorem State.ExitLeaves.entersHandler {s t : State} {c b : Nat} {l l' : Lot} {a : Agent} {sc : Scope} {next : VAddr} {A : List Acc}
    (h : s.ExitLeaves t c b l l' a sc next A) {x : Stop} (hstop : (l.thr a).stop = some x) (hmid : (l.thr a).mid = 0)
    (hshadow : (l.thr a).shadow = none) (hphase : l.phase = .running) (hhalt : s.haltingLot l.launch = none)
    (h5 : faultGroup x.code ≠ 5) (h6 : faultGroup x.code ≠ 6) (hact : s.factAction l.ctx (faultGroup x.code) = 0)
    (hva : s.handlerVA l.ctx ≠ 0) :
    ∃ l3, (t.exitStops c b [a]).lot? c b = some l3 ∧ (t.exitStops c b [a]).running = s.running ∧ (t.exitStops c b [a]).accs = A
      ∧ (l3.thr a).st = .ready ∧ (l3.thr a).pc = s.handlerVA l.ctx ∧ (l3.thr a).exitAfter = some sc
      ∧ (l3.thr a).shadow.map (fun y => y.resume) = some next := by
  obtain ⟨u, l2, heq, hl2, hphase2, hctx2, hhalt2, hrunning, hdev, haccs, hpc, hexit, hshadow2, hnested⟩ := h.stands hstop hmid hhalt
  have hnested' : (l2.thr a).nested = false := by
    rw [hnested, hshadow]
    rfl
  have hact' : u.factAction l2.ctx (faultGroup x.code) = 0 := by rw [State.factAction_of_dev hdev, hctx2]; exact hact
  have hva' : u.handlerVA l2.ctx = s.handlerVA l.ctx := by rw [State.handlerVA_of_dev hdev, hctx2]
  have hrunning2 : l2.phase = .running := hphase2.trans hphase
  have htakes := State.takeFault_handler hl2 hrunning2 hhalt2 hshadow2 hnested' h5 h6 hact' (by rw [hva']; exact hva)
  let l3 := l2.enterHandler a x (u.handlerVA l2.ctx) u.nextId
  have hphase3 : l3.phase = .running := (Lot.phase_enterHandler ..).trans hrunning2
  have hdone : t.exitStops c b [a] = State.setLot { u with nextId := u.nextId + 1 } c b l3 := by
    rw [heq, htakes, State.onLot_of_lot (State.lot?_setLot ..), State.setLot_setLot]
    exact congrArg (State.setLot { u with nextId := u.nextId + 1 } c b) (Lot.stopTaken_running hphase3 a)
  obtain ⟨sh, hresume, hthr⟩ := l2.thr_enterHandler a x (u.handlerVA l2.ctx) u.nextId
  refine ⟨l3, by rw [hdone]; exact State.lot?_setLot .., by rw [hdone]; exact hrunning, by rw [hdone]; exact haccs, ?_, ?_, ?_, ?_⟩
  · rw [hthr]
  · rw [hthr]
    exact hva'
  · rw [hthr]
    exact hexit
  · rw [hthr]
    exact congrArg some (hresume.trans hpc)

/-- A fault noted in a handler fails the lot. -/
theorem State.ExitLeaves.fails {s t : State} {c b : Nat} {l l' : Lot} {a : Agent} {sc : Scope} {next : VAddr} {A : List Acc}
    (h : s.ExitLeaves t c b l l' a sc next A) {x : Stop} (hstop : (l.thr a).stop = some x) (hmid : (l.thr a).mid = 0)
    (hshadow : (l.thr a).shadow.isSome = true) (hphase : l.phase = .running) (hhalt : s.haltingLot l.launch = none)
    (h6 : faultGroup x.code ≠ 6) :
    ∃ l3, (t.exitStops c b [a]).lot? c b = some l3 ∧ (t.exitStops c b [a]).running = s.running
      ∧ l3.phase = .failing x.code ∧ (l3.thr a).st = .stopped := by
  obtain ⟨u, l2, heq, hl2, hphase2, -, hhalt2, hrunning, -, -, -, -, -, hnested⟩ := h.stands hstop hmid hhalt
  have hnested' : (l2.thr a).nested = true := by
    rw [hnested, hshadow]
    unfold Thread.nests
    rw [hstop]
    simpa using h6
  obtain ⟨r, htakes⟩ := State.takeFault_nested hl2 (hphase2.trans hphase) hhalt2 hnested' h6
  obtain ⟨⟨m, hm, hphase3⟩, hrun⟩ := State.failLot_fails (s := u.writeRec l2.ctx r) (l := l2) (by rw [State.writeRec_lot?]; exact hl2)
    x.code [a]
  have hdone : t.exitStops c b [a] = ((u.writeRec l2.ctx r).failLot c b x.code [a]).setLot c b
      (m.setThr a { m.thr a with stop := none, st := .stopped }) := by
    rw [heq, htakes, State.onLot_of_lot hm, Lot.stopTaken_failing hphase3]
  refine ⟨m.setThr a { m.thr a with stop := none, st := .stopped }, by rw [hdone]; exact State.lot?_setLot .., ?_, hphase3, ?_⟩
  · rw [hdone]
    exact hrun.trans ((State.writeRec_running ..).trans hrunning)
  · rw [Lot.thr_setThr]

/-! ### The completion of an EXIT -/

theorem State.freeWarp_keeps {s : State} {c b : Nat} {l : Lot} (hl : s.lot? c b = some l) (hqueue : (s.core c).blockQ = []) (w : Nat) :
    ∃ l', (s.freeWarp c b w).lot? c b = some l' ∧ l' = { l with warps := l'.warps } := by
  unfold State.freeWarp
  rw [hl]
  dsimp only
  split
  · rw [State.returnBlocks_no_queue (s := s.setLot c b _) hqueue]
    exact ⟨_, State.lot?_setLot .., rfl⟩
  · exact ⟨l, hl, rfl⟩

/-- A lane with nothing outstanding whose release is complete has exited (R45, R369). -/
theorem execExitCompletion_exits {s : State} {t : LaneId} {l : Lot} {sc : Scope} (hl : s.lot? t.core t.bctx = some l)
    (hst : (l.thr (laneAgent t)).st = .exiting sc) (hquiet : s.laneQuiet t sc = true)
    (hrel : (s.releaseScope t.core l.ctx sc).1 = true) (hqueue : (s.core t.core).blockQ = []) :
    ∃ u l', execExitCompletion t s = .next u ∧ u.lot? t.core t.bctx = some l' ∧ (l'.thr (laneAgent t)).st = .exited
      ∧ (if (laneAgent t).isBarker then l'.barkExited = true ∧ l'.done = l.done
         else l'.done = l.done + 1 ∧ l'.barkExited = l.barkExited)
      ∧ l'.vregs = l.vregs ∧ l'.sregs = l.sregs := by
  have hout := s.releaseScope_offHome t.core l.ctx sc
  obtain ⟨m, hm, hoff⟩ := State.lot?_of_offHome hout hl
  obtain ⟨hrest, -⟩ := Lot.of_offMon hoff
  have hpair : s.releaseScope t.core l.ctx sc = (true, (s.releaseScope t.core l.ctx sc).2) := by rw [← hrel]
  have hexec : execExitCompletion t s = .next (let u := (s.releaseScope t.core l.ctx sc).2.onLot t.core t.bctx (fun l =>
        let l := l.setThr (laneAgent t) { l.thr (laneAgent t) with st := .exited }
        if (laneAgent t).isBarker then { l with barkExited := true } else { l with done := l.done + 1 })
      if (laneAgent t).isBarker then u else u.freeWarp t.core t.bctx (laneAgent t).w) := by
    unfold execExitCompletion
    rw [hl]
    dsimp only
    rw [hst]
    dsimp only
    rw [hquiet, hpair]
    rfl
  rw [State.onLot_of_lot hm] at hexec
  dsimp only at hexec
  by_cases hbarker : (laneAgent t).isBarker = true
  · simp only [hbarker, if_true] at hexec ⊢
    refine ⟨_, _, hexec, State.lot?_setLot .., ?_, ⟨rfl, ?_⟩, ?_, ?_⟩
    · exact congrArg Thread.st (Lot.thr_setThr m (laneAgent t) { m.thr (laneAgent t) with st := .exited })
    all_goals rw [hrest]; rfl
  · simp only [hbarker] at hexec ⊢
    obtain ⟨l', hl', hframe⟩ := State.freeWarp_keeps (State.lot?_setLot ..) (by
      show ((s.releaseScope t.core l.ctx sc).2.core t.core).blockQ = []
      rw [State.core_of_offHome hout]
      exact hqueue) (laneAgent t).w
    refine ⟨_, l', hexec, hl', ?_, ⟨?_, ?_⟩, ?_, ?_⟩
    · rw [hframe]
      exact congrArg Thread.st (Lot.thr_setThr m (laneAgent t) { m.thr (laneAgent t) with st := .exited })
    all_goals rw [hframe, hrest]; rfl

/-- A thread that exits without a fault noted. -/
theorem Thread.exits_quiet {t : Thread} (h : t.stop = Option.none) (sc : Scope) (next : VAddr) : t.exits sc next (t.shadow.isSome && t.nests) =
    { t with
      st := .exiting sc, pc := next, exitAfter := Option.none, waitAfter := Option.none, mon := Option.none, stop := Option.none,
      nested := false, shadow := Option.none, target := Option.none, stepping := false, dbgPend := false } := by
  have hnests : t.nests = false := by
    unfold Thread.nests
    rw [h]
  unfold Thread.exits
  rw [hnests, Bool.and_false, ← h]

/-- Settles O12: the four ways of an EXIT by `exitOne_leaves`, and its completion. -/
theorem exit : Obligations.Exit := by
  refine ⟨fun s v p sc a h hcalm hplain hend hst => ?exits, fun s t l sc hl hst ht => ⟨fun hquiet hrel hqueue =>
    execExitCompletion_exits hl hst hquiet hrel hqueue, fun hbusy => ?busy⟩⟩
  case busy =>
    show execExitCompletion t s = _
    unfold execExitCompletion
    rw [hl]
    dsimp only
    rw [hst]
    dsimp only
    rw [hbusy]
    rfl
  case exits =>
    intro lane left
    obtain ⟨-, hl, -⟩ := State.view_eq h.1.1
    have ha : a.l < 32 := (h.1.2.1.2 a (by rw [h.2.1]; exact List.mem_singleton.mpr rfl)).1
    let s0 := s.setIssuer s.active none
    have hl0 : s0.lot? v.i.core v.i.bctx = some v.l := hl
    have hcalm0 : s0.calmOn v.i.core := State.calmOn_of_calm hcalm
    obtain ⟨A, l', hx⟩ := State.exitOne_leaves hl0 hcalm0 hend hplain hst ha sc v.i.next
    have hexec : exec (.exit p sc) s = .next ((s0.exitOne v.i.core v.i.bctx sc v.i.next a).exitStops v.i.core v.i.bctx [a]) :=
      execExit_alone h hcalm
    have hended : ∀ t : State, t.running = s0.running → t.issuer? s.active = none := fun t ht => by
      rw [State.issuer?_of_running ht]
      exact State.issuer?_setIssuer ..
    have hquiet : (v.l.thr a).stop = none →
        (s0.exitOne v.i.core v.i.bctx sc v.i.next a).exitStops v.i.core v.i.bctx [a] = s0.exitOne v.i.core v.i.bctx sc v.i.next a ∧ left l' := by
      intro hstop
      refine ⟨State.exitStops_none hx.lot (by rw [hx.thr]; exact hstop), ?_, hx.masks, ?_, ?_⟩
      · rw [hx.thr]
        exact Thread.exits_quiet hstop sc v.i.next
      all_goals rw [hx.rest]
    refine ⟨fun hshadow hstop => ?_, fun x hshadow hstop hmid hphase hhalt h5 h6 hact hva => ?_, fun hshadow hstop hnodup => ?_,
      fun x hshadow hstop hmid hphase hhalt h6 => ?_⟩
    · obtain ⟨hsame, hleft⟩ := hquiet hstop
      obtain ⟨haccs, hgoes⟩ := hx.outside hshadow
      refine ⟨_, l', hexec, by rw [hsame]; exact hx.lot, hended _ (by rw [hsame]; exact hx.running), hleft, fun hb => (hgoes hb).2, ?_,
        fun pa => ?_⟩
      · rw [hsame]
        exact hx.accs.trans haccs
      · rw [hsame]
        exact congrArg (fun m => m.mem.read pa) hx.m
    · obtain ⟨l3, hl3, hrunning, haccs, hready, hpc, hexit, hresume⟩ := hx.entersHandler hstop hmid hshadow hphase hhalt h5 h6 hact hva
      exact ⟨_, l3, hexec, hl3, hended _ hrunning, hready, hpc, hexit, hresume, haccs.trans (hx.outside hshadow).1⟩
    · obtain ⟨hsame, hleft⟩ := hquiet hstop
      exact ⟨_, l', hexec, by rw [hsame]; exact hx.lot, hended _ (by rw [hsame]; exact hx.running), hleft,
        by rw [hsame]; exact hx.accs.trans (hx.inside hshadow hnodup)⟩
    · obtain ⟨l3, hl3, hrunning, hphase3, hstopped⟩ := hx.fails hstop hmid hshadow hphase hhalt h6
      exact ⟨_, l3, hexec, hl3, hended _ hrunning, hphase3, hstopped⟩

end Sys2Proof.Machine
end

section
/-! Laws of placement (02_work.md R36 to R39): what an acquire of a die leaves unchanged, and the threads and warps of a lot that starts. -/

namespace Sys2Proof.Machine

/-! ### An acquire of a die -/

theorem State.keepMirror_offHome (s : State) (die line : Nat) (mask : BitVec 128) : (s.keepMirror die line mask).offHome = s.offHome := rfl

theorem State.discardCopies_offHome (s : State) (die line : Nat) (sel : Holder → Bool) :
    (s.discardCopies die line sel).2.offHome = s.offHome := by
  unfold State.discardCopies
  split
  · rfl
  · exact (State.keepMirror_offHome ..).trans (State.setDieLine_offHome ..)

theorem State.refreshLine_offHome (s : State) (die line : Nat) : (s.refreshLine die line).offHome = s.offHome := by
  unfold State.refreshLine
  split
  · rfl
  · exact State.setDieLine_offHome ..

theorem State.dieAcquire_offHome (s : State) (die ctx : Nat) : (s.dieAcquire die ctx).offHome = s.offHome := by
  refine foldl_keeps State.offHome _ (fun s line => ?_) _ _
  dsimp only
  split
  · split
    · exact (State.discardCopies_offHome ..).trans (s.settleLine_offHome ..)
    · exact (State.refreshLine_offHome ..).trans (s.settleLine_offHome ..)
  · exact s.settleLine_offHome ..

theorem State.scopeAcquire_offHome (s : State) (die ctx : Nat) (sc : Scope) : (s.scopeAcquire die ctx sc).offHome = s.offHome := by
  unfold State.scopeAcquire
  split
  · exact s.dieAcquire_offHome ..
  · rfl

theorem State.placeAcquire_offHome (s : State) (x : Launch) (c : Nat) (always : Bool) : (s.placeAcquire x c always).offHome = s.offHome := by
  unfold State.placeAcquire
  split
  · exact s.scopeAcquire_offHome ..
  · rfl

/-! ### A lot that starts -/

/-- The generator of a lane at the start of its lot holds the seed of that lane, which is not zero (R102). -/
theorem rngStart_lane (n : Nat) : rngStart (n % 32) = BitVec.ofNat 32 (0x9E3779B9 * (n % 32 + 1)) := by
  have hlanes : ∀ i, i < 32 → rngStart i = BitVec.ofNat 32 (0x9E3779B9 * (i + 1)) := by decide
  exact hlanes _ (Nat.mod_lt _ (by decide))

theorem Lot.lane_lt_of_mem_agents {l : Lot} {a : Agent} (h : a ∈ l.agents) : a.l < 32 := by
  obtain ⟨n, -, rfl⟩ := List.mem_map.mp h
  exact Nat.mod_lt _ (by decide)

theorem Lot.foldl_setWarp (f : Nat → Warp) (n : Nat) (l : Lot) :
    (List.range n).foldl (fun l w => l.setWarp w (f w)) l =
        { l with warps := ((List.range n).foldl (fun l w => l.setWarp w (f w)) l).warps }
      ∧ ∀ w, w < n → ((List.range n).foldl (fun l w => l.setWarp w (f w)) l).warp w = f w := by
  induction n with
  | zero => exact ⟨rfl, by simp⟩
  | succ n ih =>
    obtain ⟨hframe, hwarp⟩ := ih
    simp only [List.range_succ, List.foldl_append, List.foldl_cons, List.foldl_nil]
    generalize (List.range n).foldl (fun l w => l.setWarp w (f w)) l = m at hframe hwarp
    refine ⟨by rw [hframe]; rfl, fun w hw => ?_⟩
    rcases Nat.lt_succ_iff_lt_or_eq.mp hw with h | rfl
    · rw [Lot.warp_setWarp_other _ _ _ _ (by omega)]
      exact hwarp w h
    · exact Lot.warp_setWarp ..

/-- A lot as it stands at its start, before its threads and warps are set up. -/
def lotShell (x : Launch) (index : Nat) (gangs : List Nat) : Lot :=
  { ctx := x.ctx, launch := x.id, index := index, d := x.d, nthreads := x.d.threads, nwarps := x.d.warps, threads := [], warps := [],
    vregs := [], sregs := [], scratch := [], slotData := [], slotScale := [], slotState := [], acc := [], accInt := [], tags := 0,
    bars := [], dq := [], dqP := 0, kicks := [], done := 0, barkExited := false, phase := .running, firstFault := none,
    firstSeq := 0, nfault := 0, captured := [], saving := false, gangs := gangs }

/-- A new thread, READY at the entry with its seed (R37, R102). -/
def Launch.newThread (x : Launch) (seqNo lane : Nat) : Thread :=
  { Thread.none with st := .ready, pc := x.d.entry, rng := rngStart lane, seq := seqNo }

/-- The barker of a lot that starts: READY at ENTRY + BARK, or absent (R37). -/
def Launch.newBarker (x : Launch) (seqNo : Nat) : Thread :=
  { Thread.none with
    st := if x.d.bk then .ready else .absent, pc := if x.d.bk then x.d.entry + BitVec.ofNat 80 x.d.bark else 0, rng := rngStart 32, seq := seqNo }

/-- The shell of a lot with its new threads. -/
def seatedLot (x : Launch) (index : Nat) (gangs : List Nat) (seqNo : Nat) : Lot :=
  (lotShell x index gangs).agents.foldl (fun l a => l.setThr a (x.newThread seqNo a.l)) (lotShell x index gangs)

theorem seatedLot_threads (x : Launch) (index : Nat) (gangs : List Nat) (seqNo : Nat) :
    seatedLot x index gangs seqNo = { lotShell x index gangs with threads := (seatedLot x index gangs seqNo).threads }
      ∧ ∀ n, n < x.d.threads → (seatedLot x index gangs seqNo).thr ⟨n / 32, n % 32⟩ = x.newThread seqNo (n % 32) := by
  obtain ⟨hframe, hthr⟩ := Lot.foldl_setThr (lotShell x index gangs).agents (fun _ a => x.newThread seqNo a.l)
    (fun a _ => x.newThread seqNo a.l) (lotShell x index gangs) (Lot.agents_nodup _)
    (fun a ha => Lot.lane_lt_of_mem_agents ha) (fun _ _ _ _ => rfl)
  refine ⟨hframe, fun n hn => ?_⟩
  have hmem : (⟨n / 32, n % 32⟩ : Agent) ∈ (lotShell x index gangs).agents := List.mem_map.mpr ⟨n, List.mem_range.mpr hn, rfl⟩
  exact (hthr _ (Nat.mod_lt _ (by decide))).trans (if_pos hmem)

theorem startLot_stages (x : Launch) (index : Nat) (gangs : List Nat) (seqNo : Nat) :
    startLot x index gangs seqNo = (List.range x.d.warps).foldl (fun l w => l.setWarp w { Warp.none with pool := x.d.base })
      ((seatedLot x index gangs seqNo).setThr Agent.barker (x.newBarker seqNo)) := rfl

/-- A started lot is its shell with new threads, and the BASE blocks of each warp. -/
theorem startLot_eq (x : Launch) (index : Nat) (gangs : List Nat) (seqNo : Nat) (h : x.d.threads ≤ 1024) :
    (∃ threads warps, startLot x index gangs seqNo = { lotShell x index gangs with threads := threads, warps := warps })
      ∧ (∀ n, n < x.d.threads → (startLot x index gangs seqNo).thr ⟨n / 32, n % 32⟩ = x.newThread seqNo (n % 32))
      ∧ ∀ w, w < x.d.warps → (startLot x index gangs seqNo).warp w = { Warp.none with pool := x.d.base } := by
  obtain ⟨hseated, hthr⟩ := seatedLot_threads x index gangs seqNo
  obtain ⟨hframe, hwarp⟩ := Lot.foldl_setWarp (fun _ => { Warp.none with pool := x.d.base }) x.d.warps
    ((seatedLot x index gangs seqNo).setThr Agent.barker (x.newBarker seqNo))
  rw [← startLot_stages] at hframe hwarp
  refine ⟨?_, fun n hn => ?_, hwarp⟩
  · generalize (seatedLot x index gangs seqNo).threads = threads at hseated
    rw [hseated] at hframe
    exact ⟨_, _, hframe⟩
  · have hne : (⟨n / 32, n % 32⟩ : Agent) ≠ Agent.barker := fun e => by
      simp only [Agent.barker, Agent.mk.injEq] at e
      omega
    rw [hframe]
    exact (Lot.thr_setThr_other _ _ _ _ (by decide) (Nat.mod_lt _ (by decide)) hne).trans (hthr n hn)

end Sys2Proof.Machine
end

section
/-! The life of a lot (02_work.md R36 to R46, R49; 11_faults.md R280, R288, R289): its placement, its retirement, the cancel that
reaches it, its failure and the watchdog. -/

namespace Sys2Proof.Machine

/-! ### Placement -/

theorem State.rejoin_of_no_preempts {s : State} (h : s.w.preempts = []) : s.rejoin = s := by
  unfold State.rejoin
  dsimp only
  rw [h]
  rfl

theorem State.settlePreempts_of_no_preempts {s : State} (h : s.w.preempts = []) : s.settlePreempts = s := by
  unfold State.settlePreempts State.servePreempts
  rw [State.rejoin_of_no_preempts h, h]
  rfl

/-- A core serves one of the launches. -/
theorem State.pickLaunch_mem {s : State} {c : Nat} {x : Launch} {n : NextLot} (h : s.pickLaunch c = some (x, n)) : x ∈ s.w.launches := by
  have hbest : ∀ (f : Launch × NextLot → Launch × NextLot → Bool) (ys : List (Launch × NextLot)) (m : Launch × NextLot),
      ys.foldl (fun m y => if f m y then y else m) m = m ∨ ys.foldl (fun m y => if f m y then y else m) m ∈ ys := by
    intro f ys
    induction ys with
    | nil => exact fun m => .inl rfl
    | cons y ys ih =>
      intro m
      rw [List.foldl_cons]
      rcases ih (if f m y then y else m) with h | h
      · rw [h]
        split
        · exact .inr (by simp)
        · exact .inl rfl
      · exact .inr (List.mem_cons_of_mem _ h)
  unfold State.pickLaunch at h
  dsimp only at h
  split at h
  · exact absurd h (by simp)
  · next a rest hcand =>
    have hmem : (x, n) ∈ a :: rest := by
      rw [← Option.some.inj h]
      rcases hbest (fun m y => y.1.prio < m.1.prio || (y.1.prio == m.1.prio && y.1.seq < m.1.seq)) rest a with e | e
      · exact List.mem_cons.mpr (.inl e)
      · exact List.mem_cons_of_mem _ e
    rw [← hcand, List.mem_filterMap] at hmem
    obtain ⟨y, hy, hsome⟩ := hmem
    split at hsome
    · exact absurd hsome (by simp)
    · obtain ⟨k, -, hk⟩ := Option.bind_eq_some_iff.mp hsome
      split at hk
      · rw [← (Prod.mk.inj (Option.some.inj hk)).1]
        exact hy
      · exact absurd hk (by simp)

theorem State.launch?_of_mem {s : State} {x : Launch} (h : x ∈ s.w.launches) : (s.launch? x.id).isSome := by
  unfold State.launch?
  rw [List.find?_isSome]
  exact ⟨x, h, beq_self_eq_true _⟩

/-- The first place of an empty core takes the lowest unstarted lot of a launch, and the launch goes on to its next one. -/
theorem State.placeLot_first {s : State} {c i : Nat} {x : Launch} (hfree : s.lot? c 0 = none) (hx : x ∈ s.w.launches) (hreruns : x.reruns = []) :
    ∃ gangs seqNo, ((s.placeLot c x (.unstarted i)).lot? c 0 = some (startLot x i gangs seqNo))
      ∧ ((s.placeLot c x (.unstarted i)).core c).pool = (s.core c).pool - x.d.base * x.d.warps
      ∧ ((s.placeLot c x (.unstarted i)).launch? x.id).map (fun y => y.next) = some (x.next + 1) := by
  have hplace : (List.range 4).find? (fun b => (s.lot? c b).isNone) = some 0 := by
    rw [show List.range 4 = [0, 1, 2, 3] from rfl, List.find?_cons, hfree]
    rfl
  have hno : x.reruns.contains i = false := by
    rw [hreruns]
    rfl
  unfold State.placeLot
  rw [hplace]
  dsimp only
  rw [hno, if_neg Bool.false_ne_true]
  generalize hu : State.placeAcquire _ x c false = u
  have hoff : u.offHome = s.freeVal.2.fresh.2.offHome := by
    rw [← hu]
    exact State.placeAcquire_offHome ..
  refine ⟨_, _, State.lot?_setLot .., ?_, ?_⟩
  · refine (congrArg CoreS.pool (State.core_setCore ..)).trans ?_
    exact congrArg (fun k : CoreS => k.pool - x.d.base * x.d.warps) (State.core_of_offHome hoff c)
  · refine (congrArg (Option.map _) (State.launch?_setLaunch ..)).trans ?_
    have hthere : (u.launch? x.id).isSome := by
      rw [State.launch?_of_offHome hoff]
      exact State.launch?_of_mem (s := s) hx
    obtain ⟨y, hy⟩ := Option.isSome_iff_exists.mp hthere
    rw [if_pos rfl, hy]
    rfl

theorem execLotPlacement_starts {s : State} {c i : Nat} {x : Launch} (hpre : s.w.preempts = []) (hc : c < 1024)
    (hcore : s.coreRetired c = false) (hdie : s.dieRetired (dieOf c) = false) (hsaving : ∀ e ∈ s.lotsOn c, e.2.saving = false)
    (hready : s.isReady = true) (hpick : s.pickLaunch c = some (x, .unstarted i)) :
    execLotPlacement c s = .next (s.placeLot c x (.unstarted i)) := by
  have hany : (s.lotsOn c).any (fun e => e.2.saving) = false :=
    List.any_eq_false.mpr fun e he => by simp [hsaving e he]
  unfold execLotPlacement
  dsimp only
  rw [State.rejoin_of_no_preempts hpre, hcore, hdie, hany, hready, hpick, if_neg (by simp [hc])]

/-! ### Retirement -/

/-- A lot that leaves a core where no request for blocks waits changes nothing of the work. -/
theorem State.removeLot_leaves {s : State} {c b : Nat} (hq : (s.core c).blockQ = []) :
    (s.removeLot c b).lot? c b = none ∧ (s.removeLot c b).w = s.w := by
  unfold State.removeLot
  split
  · next h => exact ⟨h, rfl⟩
  · dsimp only
    rw [State.returnBlocks_no_queue]
    · exact ⟨State.lot?_dropLot .., rfl⟩
    · refine (congrArg CoreS.blockQ (State.core_setCore ..)).trans ?_
      show List.filter _ (s.core c).blockQ = []
      rw [hq]
      rfl

/-- A lot that has retired is counted in its launch and in the launch's counter, and in nothing else of its context. -/
theorem State.countRetired_counts {s : State} {i : Nat} {x : Launch} (h : s.launch? i = some x) :
    (s.countRetired i).launch? i = some { x with retired := x.retired + 1 }
      ∧ (s.countRetired i).counter x.ctx x.d.ctr = s.counter x.ctx x.d.ctr + 1
      ∧ (∀ c, (s.countRetired i).ctxS c = s.ctxS c) ∧ (s.countRetired i).lots = s.lots ∧ (s.countRetired i).w.preempts = s.w.preempts := by
  unfold State.countRetired
  rw [h]
  refine ⟨?_, State.counter_setCounter .., fun _ => rfl, rfl, rfl⟩
  refine (State.launch?_setLaunch ..).trans ?_
  rw [if_pos (State.launch?_id h), h]
  rfl

/-- A running lot whose release is complete retires: it is gone, and it is counted. -/
theorem State.retire_running {s : State} {c b : Nat} {l : Lot} {x : Launch} (hx : s.launch? l.launch = some x)
    (hq : (s.core c).blockQ = []) (hpre : s.w.preempts = []) (hphase : l.phase = .running) (hrel : (s.releaseScope c l.ctx .pkg).1 = true) :
    (s.retire c b l).lot? c b = none ∧ (s.retire c b l).launch? l.launch = some { x with retired := x.retired + 1 }
      ∧ (s.retire c b l).counter x.ctx x.d.ctr = s.counter x.ctx x.d.ctr + 1 ∧ ∀ ctx, (s.retire c b l).ctxS ctx = s.ctxS ctx := by
  have hoff : (s.releaseScope c l.ctx .pkg).2.offHome = s.offHome := s.releaseScope_offHome ..
  have hu : s.releaseScope c l.ctx .pkg = (true, (s.releaseScope c l.ctx .pkg).2) := Prod.ext hrel rfl
  generalize (s.releaseScope c l.ctx .pkg).2 = u at hoff hu
  obtain ⟨hgone, hw⟩ := State.removeLot_leaves (s := u) (c := c) (b := b) (by rw [State.core_of_offHome hoff]; exact hq)
  rw [State.w_of_offHome hoff] at hw
  have hlaunch : (u.removeLot c b).launch? l.launch = some x := by
    unfold State.launch?
    rw [hw]
    exact hx
  obtain ⟨hcount, hctr, hctx, hlots, hpres⟩ := State.countRetired_counts hlaunch
  have hret : s.retire c b l = (u.removeLot c b).countRetired l.launch := by
    unfold State.retire
    rw [hu]
    dsimp only
    rw [hphase, if_neg (by decide), State.settlePreempts_of_no_preempts]
    rw [hpres, hw]
    exact hpre
  rw [hret]
  refine ⟨(State.lot?_of_lots hlots c b).trans hgone, hcount, hctr.trans ?_, fun ctx => (hctx ctx).trans (State.ctxS_of_w hw ctx)⟩
  unfold State.counter
  rw [hw]

theorem execLotRetirement_running {s : State} {c b : Nat} {l : Lot} (hl : s.lot? c b = some l) (hphase : l.phase = .running) :
    execLotRetirement c b s = .next (if s.complete c b l then s.retire c b l else s) := by
  unfold execLotRetirement
  rw [hl]
  dsimp only
  rw [hphase]

theorem State.complete_iff {s : State} {c b : Nat} {l : Lot} :
    s.complete c b l = true ↔ l.done = l.nthreads ∧ (l.d.bk = true → l.barkExited = true) ∧ s.engineWork c b l = false := by
  unfold State.complete
  cases l.d.bk <;> cases s.engineWork c b l <;> simp

/-! ### Cancels -/

/-- A thread that a stop of its lot reaches (R49, R76). -/
def Thread.halted (t : Thread) : Thread := if t.st.atBoundary then { t with st := .stopped, stop := Option.none } else t

theorem Thread.halted_halted (t : Thread) : t.halted.halted = t.halted := by
  unfold Thread.halted
  split <;> rfl

/-- A lot whose stop reaches one thread. -/
def Lot.stopOne (l : Lot) (a : Agent) : Lot := if (l.thr a).st.atBoundary then l.setThr a { l.thr a with st := .stopped, stop := none } else l

theorem Lot.stopOne_frame (l : Lot) (a : Agent) : l.stopOne a = { l with threads := (l.stopOne a).threads } := by
  unfold Lot.stopOne
  split <;> rfl

theorem Lot.thr_stopOne (l : Lot) {a b : Agent} (ha : a.l < 32) (hb : b.l < 32) :
    (l.stopOne a).thr b = if b = a then (l.thr b).halted else l.thr b := by
  unfold Lot.stopOne Thread.halted
  by_cases hba : b = a
  · subst hba
    rw [if_pos rfl]
    split
    · exact Lot.thr_setThr ..
    · rfl
  · rw [if_neg hba]
    split
    · exact Lot.thr_setThr_other _ _ _ _ ha hb hba
    · rfl

theorem Lot.foldl_stopOne (as : List Agent) (hlane : ∀ a ∈ as, a.l < 32) (l : Lot) :
    as.foldl Lot.stopOne l = { l with threads := (as.foldl Lot.stopOne l).threads }
      ∧ ∀ b : Agent, b.l < 32 → (as.foldl Lot.stopOne l).thr b = if b ∈ as then (l.thr b).halted else l.thr b := by
  induction as generalizing l with
  | nil => exact ⟨rfl, fun b _ => by simp⟩
  | cons a as ih =>
    obtain ⟨hframe, hthr⟩ := ih (fun x hx => hlane x (List.mem_cons_of_mem _ hx)) (l.stopOne a)
    rw [List.foldl_cons]
    refine ⟨hframe.trans ?_, fun b hb => ?_⟩
    · rw [Lot.stopOne_frame l a]
    · rw [hthr b hb, Lot.thr_stopOne l (hlane a (by simp)) hb]
      by_cases hba : b = a
      · subst hba
        simp [Thread.halted_halted]
      · simp [hba]

/-- A lot that stops is as before but for its threads, and those at a boundary are stopped. -/
theorem Lot.stopAll_stops (l : Lot) : l.stopAll = { l with threads := l.stopAll.threads }
    ∧ ∀ a ∈ l.allAgents, l.stopAll.thr a = (l.thr a).halted := by
  obtain ⟨hframe, hthr⟩ := Lot.foldl_stopOne l.allAgents (fun a ha => Lot.lane_lt ha) l
  exact ⟨hframe, fun a ha => (hthr a (Lot.lane_lt ha)).trans (if_pos ha)⟩

theorem Thread.halted_st {t : Thread} (h : t.st.atBoundary = true) : t.halted.st = .stopped := by
  unfold Thread.halted
  rw [if_pos h]

/-- What a cancel of one lot leaves as it is: the other lots, the cancels under way and the work of the engines. -/
def State.sameBut (s t : State) (c : Nat) (b : Nat) : Prop :=
  (∀ d, lotKey c d ≠ lotKey c b → t.lot? c d = s.lot? c d) ∧ t.w.cancels = s.w.cancels ∧ t.e = s.e

theorem State.cancelLot_others (s : State) (c b : Nat) (l : Lot) : s.sameBut (s.cancelLot c b l) c b := by
  have hrefl : s.sameBut s c b := ⟨fun _ _ => rfl, rfl, rfl⟩
  unfold State.cancelLot
  split
  · split
    · exact hrefl
    · unfold State.onLot
      split
      · exact ⟨fun d hd => State.lot?_setLot_other _ _ _ _ _ _ hd, rfl, rfl⟩
      · exact ⟨fun d _ => rfl, rfl, rfl⟩
  · exact hrefl

/-- A running lot that is not complete is cancelled: its threads at a boundary stop. -/
theorem State.cancelLot_stops {s : State} {c b : Nat} {l : Lot} (hl : s.lot? c b = some l) (hphase : l.phase = .running)
    (hwork : s.complete c b l = false) : ∃ l', (s.cancelLot c b l).lot? c b = some l' ∧ l'.phase = .cancelling
      ∧ ∀ a ∈ l.allAgents, (l.thr a).st.atBoundary = true → (l'.thr a).st = .stopped := by
  refine ⟨{ l.stopAll with phase := .cancelling, saving := false }, ?_, rfl, fun a ha hst => ?_⟩
  · unfold State.cancelLot
    rw [hphase, hwork, State.onLot_of_lot hl]
    exact State.lot?_setLot ..
  · exact (congrArg Thread.st (l.stopAll_stops.2 a ha)).trans (Thread.halted_st hst)

theorem State.cancelLots_others (c b : Nat) (es : List (Nat × Lot)) (hne : ∀ e ∈ es, e.1 ≠ b) (s : State) :
    let t := es.foldl (fun s e => s.cancelLot c e.1 e.2) s
    t.lot? c b = s.lot? c b ∧ t.w.cancels = s.w.cancels ∧ t.e = s.e := by
  induction es generalizing s with
  | nil => exact ⟨rfl, rfl, rfl⟩
  | cons e es ih =>
    obtain ⟨hlots, hcancels, hwork⟩ := ih (fun x hx => hne x (List.mem_cons_of_mem _ hx)) (s.cancelLot c e.1 e.2)
    obtain ⟨hlots', hcancels', hwork'⟩ := s.cancelLot_others c e.1 e.2
    refine ⟨hlots.trans (hlots' b fun h => ?_), hcancels.trans hcancels', hwork.trans hwork'⟩
    exact hne e (by simp) (Nat.add_left_cancel h).symm

theorem State.mem_lotsOn {s : State} {c b : Nat} {l : Lot} (hb : b < 4) (hl : s.lot? c b = some l) : (b, l) ∈ s.lotsOn c :=
  List.mem_filterMap.mpr ⟨b, List.mem_range.mpr hb, by rw [hl]; rfl⟩

/-- Each lot of a core has its own place. -/
theorem State.lotsOn_places (s : State) (c : Nat) : (s.lotsOn c).Pairwise (fun x y => x.1 ≠ y.1) := by
  refine List.Pairwise.filterMap _ (fun a a' hne x hx y hy => ?_) (List.nodup_range (n := 4))
  obtain ⟨_, -, rfl⟩ := Option.map_eq_some_iff.mp hx
  obtain ⟨_, -, rfl⟩ := Option.map_eq_some_iff.mp hy
  exact hne

theorem State.complete_of_engines {s t : State} (h : t.e = s.e) (c b : Nat) (l : Lot) : t.complete c b l = s.complete c b l := by
  unfold State.complete State.engineWork
  rw [h]

/-- A cancel that reaches its core stops the running lots of its launch there. -/
theorem execCancelReachesCore_stops {s : State} {c b id : Nat} {l : Lot} (hcancels : s.w.cancels = [(id, c)]) (hb : b < 4)
    (hl : s.lot? c b = some l) (hid : l.launch = id) (hphase : l.phase = .running) (hwork : s.complete c b l = false)
    (hdump : ∀ e ∈ s.lotsOn c, e.2.launch = id → e.2.phase ≠ .halted) :
    ∃ t l', execCancelReachesCore c s = .next t ∧ t.w.cancels = [] ∧ t.lot? c b = some l' ∧ l'.phase = .cancelling
      ∧ ∀ a ∈ l.allAgents, (l.thr a).st.atBoundary = true → (l'.thr a).st = .stopped := by
  have hfind : s.w.cancels.find? (fun e => e.2 == c) = some (id, c) := by simp [hcancels]
  have hnone : s.w.cancels.filter (fun x => x != (id, c)) = [] := by simp [hcancels]
  have hany : ((s.lotsOn c).filter (fun x => x.2.launch == id)).any (fun x => x.2.phase == .halted) = false := by
    refine List.any_eq_false.mpr fun e he => ?_
    obtain ⟨hmem, hlaunch⟩ := List.mem_filter.mp he
    simpa using hdump e hmem (by simpa using hlaunch)
  have hmem : (b, l) ∈ (s.lotsOn c).filter (fun x => x.2.launch == id) :=
    List.mem_filter.mpr ⟨State.mem_lotsOn hb hl, by simp [hid]⟩
  have hplaces := (s.lotsOn_places c).filter (fun x => x.2.launch == id)
  let s0 : State := { s with w := { s.w with cancels := [] } }
  obtain ⟨pre, post, hsplit⟩ := List.append_of_mem hmem
  rw [hsplit, List.pairwise_append, List.pairwise_cons] at hplaces
  obtain ⟨-, ⟨hpost, -⟩, hpre⟩ := hplaces
  obtain ⟨hlots1, hcancels1, hwork1⟩ := State.cancelLots_others c b pre (fun e he => hpre e he (b, l) (by simp)) s0
  let s1 := pre.foldl (fun s e => s.cancelLot c e.1 e.2) s0
  obtain ⟨l', hl', hcancelling, hstopped⟩ := State.cancelLot_stops (s := s1) (hlots1.trans hl) hphase
    ((State.complete_of_engines hwork1 c b l).trans hwork)
  obtain ⟨-, hcancels2, -⟩ := s1.cancelLot_others c b l
  obtain ⟨hlots3, hcancels3, -⟩ := State.cancelLots_others c b post (fun e he => (hpost e he).symm) (s1.cancelLot c b l)
  refine ⟨_, l', ?_, hcancels3.trans (hcancels2.trans hcancels1), hlots3.trans hl', hcancelling, hstopped⟩
  unfold execCancelReachesCore
  rw [hfind]
  dsimp only
  rw [hany, if_neg Bool.false_ne_true, hnone, hsplit, List.foldl_append, List.foldl_cons]

/-! ### The end FAILED, and the watchdog -/

theorem execLotFailDrainEnd_drains {s : State} {c b code : Nat} {l : Lot} (hl : s.lot? c b = some l) (hphase : l.phase = .failing code)
    (hend : l.ended = true) (hwork : s.engineWork c b l = false) (haccs : s.lotAccs c b = []) :
    execLotFailDrainEnd c b s =
      .next ((s.writeRec l.ctx { lotRec c l 2 code with flags := 16, outcome := 3 }).setLot c b { l with phase := .draining }) := by
  unfold execLotFailDrainEnd
  rw [hl]
  dsimp only
  rw [hphase]
  dsimp only
  rw [hend, hwork, haccs]
  refine congrArg Host.Outcome.next (State.onLot_of_lot ?_ _)
  rw [State.writeRec_lot?]
  exact hl

theorem State.reportStops_none {s : State} {c b : Nat} {l : Lot} (hl : s.lot? c b = some l) {as : List Agent}
    (hstop : ∀ a ∈ as, (l.thr a).stop = none) : s.reportStops c b as = s := by
  unfold State.reportStops
  rw [hl]
  dsimp only
  refine List.foldlRecOn (motive := fun t => t = s) as _ rfl fun t ht a ha => ?_
  rw [hstop a ha]
  exact ht

/-- A lot without noted faults fails: it is there, its threads at a boundary stopped, and nothing is recorded beside. -/
theorem State.failLot_no_stops {s : State} {c b : Nat} {l : Lot} (hl : s.lot? c b = some l) (hstop : ∀ a ∈ l.allAgents, (l.thr a).stop = none)
    (code : Nat) (covered : List Agent) :
    s.failLot c b code covered = (s.setLot c b (Lot.stopAll { l with phase := .failing code })).withdraw c b := by
  obtain ⟨k, hk⟩ : ∃ k : Lot, k = { l with phase := .failing code } := ⟨_, rfl⟩
  have hthere : (s.setLot c b k).lot? c b = some k := State.lot?_setLot ..
  have hnone : ∀ p : Agent → Bool, ∀ a ∈ k.allAgents.filter p, (k.thr a).stop = none := fun p a ha => by
    rw [hk] at ha ⊢
    exact hstop a (List.mem_filter.mp ha).1
  unfold State.failLot
  rw [State.onLot_of_lot hl, ← hk]
  dsimp only
  rw [hthere]
  dsimp only
  rw [State.reportStops_none hthere (hnone _), State.onLot_of_lot hthere, State.setLot_setLot]

/-- A state that differs from another in device registers and in the free values it has taken. -/
def State.regsOf (t s : State) : Prop := ∃ dev free, t = { s with dev := dev, free := free }

theorem State.regsOf.setReg {s t : State} (h : t.regsOf s) (pa : Nat) (v : Word64) : (t.setReg pa v).regsOf s := by
  obtain ⟨dev, free, rfl⟩ := h
  exact ⟨_, free, rfl⟩

theorem State.regsOf.setRegF {s t : State} (h : t.regsOf s) (pa hi lo v : Nat) : (t.setRegF pa hi lo v).regsOf s := h.setReg ..

/-- The registers of the last stop are device registers; its fields of a barker take a free value. -/
theorem State.setDbgStop_regs (s : State) (c b : Nat) (a : Agent) (event : Nat) (pc : VAddr) : (s.setDbgStop c b a event pc).regsOf s := by
  unfold State.setDbgStop
  split
  next v u h =>
    have hu : u.regsOf s := by
      split at h <;> exact (Prod.mk.inj h).2 ▸ ⟨_, _, rfl⟩
    exact (((((hu.setRegF ..).setRegF ..).setRegF ..).setRegF ..).setReg ..).setReg ..

/-- A lot whose launch is halted for it is there and is the one to be dumped. -/
theorem State.haltLaunch_halts {s : State} {c b : Nat} {l : Lot} (hl : s.lot? c b = some l) (a : Agent) (launch : Nat) (r : FRec)
    (seqNo : Nat) (covered : List Agent) :
    (s.haltLaunch c b a launch r seqNo covered).lotMeets c b (fun k => k.phase = .halted ∧ k.firstFault = some r) s.running := by
  have hthere : s.lotMeets c b (fun _ => True) s.running := ⟨⟨l, hl, trivial⟩, rfl⟩
  have hmarked : State.lotMeets (match s.launch? launch with
      | some x => s.setLaunch { x with halted := true }
      | none => s) c b (fun _ => True) s.running := by
    split
    · exact hthere.of_lots rfl rfl
    · exact hthere
  unfold State.haltLaunch
  refine List.foldlRecOn (motive := fun t => State.lotMeets t c b _ s.running) _ _ ?_ (fun t ht e _ => ?_)
  · refine State.lotMeets.onLot_gives (P := fun _ => True) ?_ (fun _ => ⟨rfl, rfl⟩)
    refine List.foldlRecOn (motive := fun t => State.lotMeets t c b (fun _ => True) s.running) _ _ ?_ (fun t ht e _ => ?_)
    · split
      · next k _ =>
        obtain ⟨dev, free, hframe⟩ := State.setDbgStop_regs _ c b a 0 (k.thr a).pc
        rw [hframe]
        exact hmarked.of_lots rfl rfl
      · exact hmarked
    · split
      · exact ht.onLot _ _ (fun _ _ => trivial)
      · exact ht
  · split
    · exact ht.reportStops ⟨fun _ _ _ h => h, fun _ _ h => h⟩ _ _ _
    · exact ht

/-! ### The obligation -/

section
variable {s : State} {c b : Nat} {l : Lot} (hl : s.lot? c b = some l) (hphase : l.phase = .running)
  (hfact : s.regF (ctxReg l.ctx 0x20) 47 32 ≠ 0) (hdebug : l.allDebug = false) (hhalted : (s.core c).halted = false)
  (hdump : s.haltingLot l.launch = none)
include hl hphase hfact hdebug hhalted hdump

/-- A running lot whose watchdog runs out fails, or has its launch halted where group 5 selects a dump (R280, R289). -/
theorem execWatchdogExpiry_expires : execWatchdogExpiry c b s = .next (if s.factAction l.ctx 5 = 2
    then (s.writeRec l.ctx (lotRec c l 1 0x40)).haltLaunch c b Agent.barker l.launch
      { lotRec c l 1 0x40 with flags := if (s.ctxS l.ctx).lost then 8 else 0 } (s.ctxS l.ctx).seq.toNat []
    else (s.writeRec l.ctx (lotRec c l 1 0x40)).failLot c b 0x40 []) := by
  have hlimit : ¬ s.fact l.ctx 47 32 = 0 := hfact
  unfold execWatchdogExpiry
  rw [hl]
  dsimp only
  rw [hphase, hdebug, hhalted, hdump, if_neg (by simp [hlimit])]
  split <;> rfl

end

/-- Settles O39: each of the eight transitions of a lot by its own rule. -/
theorem lotLife : Obligations.LotLife := by
  unfold Obligations.LotLife
  refine ⟨fun s c i x hpre hc hcore hdie hsaving hready hpick hfree hreruns hthreads => ?_,
    fun s c b l x hl hx hq hpre hphase => ⟨fun hdone hbk hwork hrel => ?_, fun hnot => ?_⟩,
    fun s c b id l hcancels hb hl hid hphase hwork hdump => execCancelReachesCore_stops hcancels hb hl hid hphase hwork hdump,
    fun s c b l hl => ⟨fun code hphase hend hwork haccs => ?_, fun hphase hfact hdebug hhalted hdump =>
      ⟨fun hact hstop => ?_, fun hact => ?_⟩⟩⟩
  · obtain ⟨gangs, seqNo, hlot, hpool, hnext⟩ := State.placeLot_first (i := i) hfree (State.pickLaunch_mem hpick) hreruns
    obtain ⟨⟨threads, warps, hshell⟩, hthr, hwarp⟩ := startLot_eq x i gangs seqNo hthreads
    refine ⟨_, _, execLotPlacement_starts hpre hc hcore hdie hsaving hready hpick, hlot, ?_⟩
    refine ⟨?_, ?_, ?_, ?_, ?_, ?_, ?_, ?_, ?_, fun n hn => ?_, fun w hw => ?_, hpool, hnext⟩
    iterate 7 rw [hshell]; rfl
    · rw [hshell]
      exact fun _ _ _ => rfl
    · rw [hshell]
      exact fun _ => rfl
    · rw [hthr n hn, Launch.newThread, rngStart_lane]
    · rw [hwarp w hw]
      exact ⟨rfl, rfl⟩
  · obtain ⟨hgone, hcount, hctr, hctx⟩ := State.retire_running (b := b) hx hq hpre hphase hrel
    refine ⟨_, ?_, hgone, hcount, hctr, congrArg CtxS.seq (hctx _)⟩
    rw [show exec (.lotRetirement c b) s = _ from execLotRetirement_running hl hphase, if_pos (State.complete_iff.mpr ⟨hdone, hbk, hwork⟩)]
  · have hopen : ¬ s.complete c b l = true := fun h => by
      obtain ⟨hdone, hbk, hwork⟩ := State.complete_iff.mp h
      rcases hnot with h | ⟨h, hexit⟩ | h
      · exact h hdone
      · exact absurd (hbk h) (by simp [hexit])
      · exact absurd h (by simp [hwork])
    rw [show exec (.lotRetirement c b) s = _ from execLotRetirement_running hl hphase, if_neg hopen]
  · refine ⟨_, _, execLotFailDrainEnd_drains hl hphase hend hwork haccs, State.lot?_setLot .., rfl, ?_⟩
    exact State.recorded_of_same (s.writeRec_recorded ..) rfl rfl rfl rfl
  · have hkeep : (s.writeRec l.ctx (lotRec c l 1 0x40)).lot? c b = some l := (State.writeRec_lot? ..).trans hl
    obtain ⟨hframe, hstopped⟩ := Lot.stopAll_stops { l with phase := .failing 0x40 }
    refine ⟨_, Lot.stopAll { l with phase := .failing 0x40 },
      (execWatchdogExpiry_expires hl hphase hfact hdebug hhalted hdump).trans (congrArg Host.Outcome.next (if_neg hact)), ?_⟩
    rw [State.failLot_no_stops hkeep hstop]
    refine ⟨State.lot?_setLot .., by rw [hframe], fun a ha hst => ?_, ?_⟩
    · exact (congrArg Thread.st (hstopped a ha)).trans (Thread.halted_st hst)
    · exact State.recorded_of_same (s.writeRec_recorded ..) rfl rfl rfl rfl
  · have hkeep : (s.writeRec l.ctx (lotRec c l 1 0x40)).lot? c b = some l := (State.writeRec_lot? ..).trans hl
    obtain ⟨⟨l', hl', hhalt, hfirst⟩, -⟩ := State.haltLaunch_halts hkeep Agent.barker l.launch
      { lotRec c l 1 0x40 with flags := if (s.ctxS l.ctx).lost then 8 else 0 } (s.ctxS l.ctx).seq.toNat []
    refine ⟨_, l', (execWatchdogExpiry_expires hl hphase hfact hdebug hhalted hdump).trans (congrArg Host.Outcome.next (if_pos hact)),
      hl', hhalt, ?_⟩
    rw [hfirst]
    rfl

end Sys2Proof.Machine
end

section
/-! Laws of lots that are gone (11_faults.md R286 to R296): nothing that stops, fails, halts or wakes a thread puts a lot in an empty
place, brings a retired unit back, or finds a lost die again. -/

namespace Sys2Proof.Machine

/-- An empty place stays empty, and the map of the retired units and the lost dies are as before. -/
structure State.Sheds (s t : State) : Prop where
  gone : ∀ c b, s.lot? c b = none → t.lot? c b = none
  retmap : t.p.retmap = s.p.retmap
  lost : t.p.lost = s.p.lost

namespace State.Sheds

theorem refl (s : State) : s.Sheds s := ⟨fun _ _ h => h, rfl, rfl⟩

theorem trans {s t u : State} (h : s.Sheds t) (k : t.Sheds u) : s.Sheds u :=
  ⟨fun c b hn => k.gone c b (h.gone c b hn), k.retmap.trans h.retmap, k.lost.trans h.lost⟩

theorem of_lots {s t : State} (hlots : t.lots = s.lots) (hret : t.p.retmap = s.p.retmap) (hlost : t.p.lost = s.p.lost) : s.Sheds t :=
  ⟨fun c b h => (State.lot?_of_lots hlots c b).trans h, hret, hlost⟩

theorem foldl {α : Type} {f : State → α → State} (hf : ∀ (s : State) (x : α), s.Sheds (f s x)) (xs : List α) (s : State) : s.Sheds (xs.foldl f s) :=
  List.foldlRecOn (motive := fun t => s.Sheds t) xs f (refl s) fun (t : State) (ht : s.Sheds t) x _ => ht.trans (hf t x)

/-- A lot that is there may change. -/
theorem setLot {s : State} {c b : Nat} {l : Lot} (hl : s.lot? c b = some l) (m : Lot) : s.Sheds (s.setLot c b m) := by
  refine ⟨fun d e hn => ?_, rfl, rfl⟩
  by_cases hkey : lotKey d e = lotKey c b
  · have hsame : s.lot? d e = s.lot? c b := congrArg (Tbl.get none s.lots) hkey
    rw [hn, hl] at hsame
    exact absurd hsame (by simp)
  · exact (State.lot?_setLot_other _ _ _ _ _ _ hkey).trans hn

theorem onLot (s : State) (c b : Nat) (f : Lot → Lot) : s.Sheds (s.onLot c b f) := by
  unfold State.onLot
  split
  · next l hl => exact setLot hl _
  · exact refl s

theorem writeRec (s : State) (ctx : Nat) (r : FRec) : s.Sheds (s.writeRec ctx r) := by
  have h := s.writeRec_offRecord ctx r
  exact of_lots (s.writeRec_lots ctx r) (congrArg (fun u : State => u.p.retmap) h :) (congrArg (fun u : State => u.p.lost) h :)

theorem of_offHome {s t : State} (h : t.offHome = s.offHome) : s.Sheds t := by
  refine ⟨fun c b hn => ?_, (congrArg (fun u : State => u.p.retmap) h :), (congrArg (fun u : State => u.p.lost) h :)⟩
  have hlot := State.offMon_lot?_of_offHome h c b
  rw [hn] at hlot
  simpa using hlot

/-! ### Faults -/

theorem setDbgStop (s : State) (c b : Nat) (a : Agent) (event : Nat) (pc : VAddr) : s.Sheds (s.setDbgStop c b a event pc) := by
  obtain ⟨dev, free, hframe⟩ := s.setDbgStop_regs c b a event pc
  rw [hframe]
  exact of_lots rfl rfl rfl

theorem tookDebugStops (s : State) (c b : Nat) (as : List Agent) : s.Sheds (s.tookDebugStops c b as) := onLot ..

theorem tookAll (s : State) (c b : Nat) : s.Sheds (s.tookAll c b) := by
  unfold State.tookAll
  split
  · exact tookDebugStops ..
  · exact refl s

theorem debugStopCore (s : State) (c : Nat) : s.Sheds (s.debugStopCore c) :=
  (foldl (fun _ _ => onLot ..) _ s).trans (of_lots rfl rfl rfl)

theorem debugStop (s : State) (c b : Nat) (a : Agent) (event dsm : Nat) : s.Sheds (s.debugStop c b a event dsm) := by
  unfold State.debugStop
  split
  · exact refl s
  · next l hl =>
    have hmark := setDbgStop s c b a event (l.thr a).pc
    have hthere : (s.setDbgStop c b a event (l.thr a).pc).lot? c b = some l := by
      obtain ⟨dev, free, hframe⟩ := s.setDbgStop_regs c b a event (l.thr a).pc
      rw [hframe]
      exact hl
    refine hmark.trans ?_
    split
    · exact setLot hthere _
    · exact (setLot hthere _).trans (tookAll ..)
    · exact (setLot hthere _).trans (tookAll ..)
    · exact (debugStopCore ..).trans (foldl (fun _ _ => tookAll ..) _ _)

theorem countHalted (s : State) (launch : Nat) : s.Sheds (s.countHalted launch) := by
  unfold State.countHalted
  split
  · exact onLot ..
  · exact refl s

theorem reportStops (s : State) (c b : Nat) (as : List Agent) : s.Sheds (s.reportStops c b as) := by
  unfold State.reportStops
  split
  · exact refl s
  · refine foldl (fun t a => ?_) as s
    split
    · exact refl t
    · have hdrop := onLot t c b (fun l => l.setThr a { l.thr a with stop := none })
      dsimp only
      split
      · exact hdrop
      · split
        · exact hdrop.trans (writeRec ..)
        · split
          · exact (hdrop.trans (writeRec ..)).trans (countHalted ..)
          · exact hdrop.trans (onLot ..)

theorem withdraw (s : State) (c b : Nat) : s.Sheds (s.withdraw c b) := of_lots rfl rfl rfl

theorem failLot (s : State) (c b code : Nat) (covered : List Agent) : s.Sheds (s.failLot c b code covered) :=
  (((onLot ..).trans (reportStops ..)).trans (onLot ..)).trans (withdraw ..)

theorem haltLaunch (s : State) (c b : Nat) (a : Agent) (launch : Nat) (r : FRec) (seqNo : Nat) (covered : List Agent) :
    s.Sheds (s.haltLaunch c b a launch r seqNo covered) := by
  have hmarked : s.Sheds (match s.launch? launch with
      | some x => s.setLaunch { x with halted := true }
      | none => s) := by
    split
    · exact of_lots rfl rfl rfl
    · exact refl s
  unfold State.haltLaunch
  refine Sheds.trans ?_ (foldl (fun t e => ?_) _ _)
  · refine Sheds.trans ?_ (onLot ..)
    refine Sheds.trans ?_ (foldl (fun t e => ?_) _ _)
    · split
      · exact hmarked.trans (setDbgStop ..)
      · exact hmarked
    · split
      · exact onLot ..
      · exact refl t
  · split
    · exact reportStops ..
    · exact refl t

theorem takeFault (s : State) (c b : Nat) (a : Agent) (mates : List Agent) (x : Stop) : s.Sheds (s.takeFault c b a mates x) := by
  unfold State.takeFault
  split
  · exact refl s
  · next l hl =>
    dsimp only
    split
    · exact setLot hl _
    · exact (setLot hl _).trans (writeRec ..)
    · exact (setLot hl _).trans (writeRec ..)
    · split
      · exact debugStop ..
      · split
        · exact ((onLot ..).trans (countHalted ..)).trans (writeRec ..)
        · split
          · exact (writeRec ..).trans (failLot ..)
          · split
            · exact Sheds.trans (t := s.fresh.2) (of_lots rfl rfl rfl) (setLot (s := s.fresh.2) hl _)
            · split
              · exact (writeRec ..).trans (haltLaunch ..)
              · exact (writeRec ..).trans (failLot ..)

theorem takeStops (s : State) (c b : Nat) (as : List Agent) : s.Sheds (s.takeStops c b as) := by
  refine foldl (fun t a => ?_) as s
  split
  · exact refl t
  · next l hl =>
    split
    · exact ((setLot hl _).trans (takeFault ..)).trans (onLot ..)
    · exact refl t

/-! ### Wakes and blocks -/

theorem wakeAll (s : State) (c b : Nat) (as : List Agent) : s.Sheds (s.wakeAll c b as) :=
  Sheds.trans (t := s.fresh.2) (of_lots rfl rfl rfl) ((((reportStops ..).trans (onLot ..)).trans (tookDebugStops ..)).trans (takeStops ..))

theorem loseMonitors (s : State) (sel : Nat → Nat → Bool) : s.Sheds (s.loseMonitors sel) := by
  refine foldl (fun t e => foldl (fun u a => ?_) _ t) _ s
  split
  · next m _ =>
    have hmark := onLot u e.1 e.2.1 (fun l => l.setThr a { l.thr a with mon := some { m with lost := true } })
    split
    · dsimp only
      split
      · split
        · exact hmark
        · exact hmark.trans ((onLot ..).trans (wakeAll ..))
      · exact hmark
    · exact refl u
  · exact refl u

theorem refuseBlocks (s : State) (c : Nat) (r : BlockReq) : s.Sheds (s.refuseBlocks c r) := (onLot ..).trans (wakeAll ..)

theorem serveBlocks (c fuel : Nat) (s : State) : s.Sheds (s.serveBlocks c fuel) := by
  induction fuel generalizing s with
  | zero => exact refl s
  | succ fuel ih =>
    unfold State.serveBlocks
    dsimp only
    split
    · exact refl s
    · next r rest _ =>
      have hnext : s.Sheds (s.setCore c { s.core c with blockQ := rest }) := of_lots rfl rfl rfl
      have hgiven : s.Sheds (s.setCore c { s.core c with pool := (s.core c).pool - r.n, blockQ := rest }) := of_lots rfl rfl rfl
      refine iteInduction (motive := fun t => s.Sheds t) (fun _ => ?_) (fun _ => ?_)
      · exact (hnext.trans (refuseBlocks _ c r)).trans (ih _)
      · split
        · exact (hgiven.trans ((onLot ..).trans (wakeAll ..))).trans (ih _)
        · exact refl s

theorem returnBlocks (s : State) (c pool reserve : Nat) : s.Sheds (s.returnBlocks c pool reserve) :=
  Sheds.trans (t := s.setCore c { s.core c with pool := (s.core c).pool + pool, reserve := (s.core c).reserve + reserve })
    (of_lots rfl rfl rfl) (serveBlocks ..)

theorem dropLot (s : State) (c b : Nat) : s.Sheds (s.dropLot c b) := by
  refine ⟨fun d e hn => ?_, rfl, rfl⟩
  by_cases hkey : lotKey d e = lotKey c b
  · exact (congrArg (Tbl.get none (s.dropLot c b).lots) hkey).trans (State.lot?_dropLot ..)
  · exact (State.lot?_dropLot_other _ _ _ _ _ hkey).trans hn

/-- A lot that leaves its core is gone. -/
theorem removeLot (s : State) (c b : Nat) : s.Sheds (s.removeLot c b) ∧ (s.removeLot c b).lot? c b = none := by
  unfold State.removeLot
  split
  · next h => exact ⟨refl s, h⟩
  · dsimp only
    generalize hu : State.setCore _ c _ = u
    have hleft : s.Sheds u := hu ▸ of_lots rfl rfl rfl
    exact ⟨(hleft.trans (dropLot ..)).trans (returnBlocks ..), (returnBlocks ..).gone c b (State.lot?_dropLot ..)⟩

theorem countRetired (s : State) (launch : Nat) : s.Sheds (s.countRetired launch) := by
  unfold State.countRetired
  split
  · exact refl s
  · exact of_lots rfl rfl rfl

/-! ### Pre-emption -/

theorem rejoin (s : State) : s.Sheds s.rejoin := by
  unfold State.rejoin
  dsimp only
  split
  · exact refl s
  · exact of_lots rfl rfl rfl

theorem vacate (s : State) (c : Nat) : s.Sheds (s.vacate c) := foldl (fun _ _ => onLot ..) _ s

theorem servePreempts (s : State) : s.Sheds s.servePreempts := by
  refine foldl (fun t p => ?_) _ s
  split
  · exact refl t
  · dsimp only
    split
    · exact refl t
    · refine Sheds.trans ?_ (foldl (fun _ _ => vacate ..) _ _)
      exact of_lots rfl rfl rfl

theorem settlePreempts (s : State) : s.Sheds s.settlePreempts := (rejoin s).trans (servePreempts _)

end State.Sheds

end Sys2Proof.Machine
end

section
/-! Loss of a core die (11_faults.md R292): the die is retired, and the lots that it held are gone. -/

namespace Sys2Proof.Machine

/-! ### The retirement map -/

theorem bit_setBits_one (x i j : Nat) : bit (setBits x i i 1) j = (decide (j = i) || bit x j) := by
  have htest : ∀ y k, bit y k = y.testBit k := fun y k => by rw [bit, Nat.testBit_eq_decide_div_mod_eq]
  rw [htest, htest, testBit_setBits]
  rcases eq_or_ne j i with rfl | h
  · simp
  · rw [if_neg (by omega), decide_eq_false h, Bool.false_or]

/-- A bit of the retirement map that is set stays set. -/
theorem State.retBit_setRetBit {s : State} {off i : Nat} (o j : Nat) (h : s.retBit off i = true) : (s.setRetBit o j).retBit off i = true := by
  unfold State.retBit at h ⊢
  unfold State.setRetBit
  dsimp only
  rw [Tbl.get_put]
  split
  · next hk =>
    rw [← hk, BitVec.toNat_ofNat, Nat.mod_eq_of_lt (setBits_lt _ _ (BitVec.isLt _) (by omega)), bit_setBits_one, h, Bool.or_true]
  · exact h

theorem State.retBit_setRetBit_same (s : State) (off i : Nat) : (s.setRetBit off i).retBit off i = true := by
  unfold State.retBit State.setRetBit
  dsimp only
  rw [Tbl.get_put_same, BitVec.toNat_ofNat, Nat.mod_eq_of_lt (setBits_lt _ _ (BitVec.isLt _) (by omega)), bit_setBits_one]
  simp

/-- Counting a change of the map leaves the dies of the map as they are. -/
theorem State.dieRetired_bumpRetGen (s : State) {d : Nat} (h : d < 64) : s.bumpRetGen.dieRetired d = s.dieRetired d := by
  unfold State.dieRetired State.retBit State.bumpRetGen
  dsimp only
  rw [Tbl.get_put_other _ _ _ _ _ (by omega)]

/-- A die is retired, and the lots are those given. -/
def State.dieOut (t : State) (d : Nat) (lots : Tbl (Option Lot)) : Prop := t.dieRetired d = true ∧ t.lots = lots

theorem State.dieOut.setRetBit {t : State} {d : Nat} {lots : Tbl (Option Lot)} (h : t.dieOut d lots) (off i : Nat) :
    (t.setRetBit off i).dieOut d lots := ⟨State.retBit_setRetBit off i h.1, h.2⟩

theorem State.dieOut.foldl {α : Type} {t : State} {d : Nat} {lots : Tbl (Option Lot)} (h : t.dieOut d lots) {f : State → α → State}
    (hf : ∀ u x, State.dieOut u d lots → (f u x).dieOut d lots) (xs : List α) : (xs.foldl f t).dieOut d lots :=
  List.foldlRecOn (motive := fun u : State => u.dieOut d lots) xs f h fun u hu x _ => hf u x hu

/-- A die that is retired is so in the map, and no lot moves. -/
theorem State.retireDie_retires (s : State) {d : Nat} (h : d < 64) : (s.retireDie d).dieOut d s.lots := by
  have hdie : (s.setRetBit 0x180 d).dieOut d s.lots := ⟨State.retBit_setRetBit_same .., rfl⟩
  have hcores := hdie.foldl (f := fun s c =>
    ((s.setRetBit 0x000 (16 * d + c)).setRetBit 0x080 (16 * d + c)).setRetBit 0x100 (16 * d + c))
    (fun u c hu => ((hu.setRetBit ..).setRetBit ..).setRetBit ..) (List.range 16)
  have hlinks := hcores.foldl (f := fun s k => s.setRetBit 0x190 (24 * d + k)) (fun u k hu => hu.setRetBit ..) (List.range 24)
  unfold State.retireDie
  dsimp only
  generalize List.foldl _ _ (List.range 24) = u at hlinks
  exact ⟨(u.dieRetired_bumpRetGen h).trans hlinks.1, hlinks.2⟩

/-! ### What goes home from a lost die -/

theorem State.flushMirror_offHome (s : State) (die : Nat) : (s.flushMirror die).2.offHome = s.offHome := by
  have hwrites : ∀ ms : List MirrorLine, (ms.foldl (fun s x => s.writeHomeLine (.line die x.line) x.line x.data.toNat x.mask.toNat) s).offHome = s.offHome :=
    fun ms => foldl_keeps State.offHome _ (fun s x => s.writeHomeLine_offHome ..) _ _
  exact Eq.trans rfl (hwrites _)

theorem State.loseCaches_offHome (s : State) (die : Nat) : (s.loseCaches die).offHome = s.offHome := by
  unfold State.loseCaches
  refine (foldl_keeps State.offHome _ (fun t line => ?_) _ _).trans (foldl_keeps State.offHome _ State.enterDie_offHome _ _)
  split
  · rfl
  · exact (State.setDieLine_offHome ..).trans ((State.writeHomeLine_offHome ..).trans rfl)

/-! ### Lots that are lost -/

/-- A lot that is lost with its die is gone. -/
theorem State.loseLot_sheds (s : State) (e : Nat × Nat × Lot) : s.Sheds (s.loseLot e) ∧ (s.loseLot e).lot? e.1 e.2.1 = none := by
  unfold State.loseLot
  dsimp only
  generalize hu : (if e.2.2.phase = .draining then s else s.writeRec e.2.2.ctx _) = u
  have hrecord : s.Sheds u := by
    rw [← hu]
    split
    · exact State.Sheds.refl s
    · exact State.Sheds.writeRec ..
  generalize hv : State.mk _ _ _ _ _ _ _ _ _ _ _ _ _ _ _ = v
  have hleft : s.Sheds v := hrecord.trans (hv ▸ State.Sheds.of_lots rfl rfl rfl)
  obtain ⟨hremove, hgone⟩ := State.Sheds.removeLot v e.1 e.2.1
  have hcases : ∀ w, (v.removeLot e.1 e.2.1).Sheds w → s.Sheds w ∧ w.lot? e.1 e.2.1 = none := fun w hw =>
    ⟨(hleft.trans hremove).trans hw, hw.gone _ _ hgone⟩
  refine iteInduction (motive := fun w : State => s.Sheds w ∧ w.lot? e.1 e.2.1 = none) (fun _ => ?_) (fun _ => ?_)
  · split
    · exact hcases _ (State.Sheds.of_lots rfl rfl rfl)
    · exact hcases _ (State.Sheds.refl _)
  · exact hcases _ (State.Sheds.countRetired ..)

theorem State.loseLots_sheds (es : List (Nat × Nat × Lot)) (s : State) :
    s.Sheds (es.foldl (fun s e => s.loseLot e) s) ∧ ∀ e ∈ es, (es.foldl (fun s e => s.loseLot e) s).lot? e.1 e.2.1 = none := by
  induction es generalizing s with
  | nil => exact ⟨State.Sheds.refl s, by simp⟩
  | cons e es ih =>
    obtain ⟨hsheds, hgone⟩ := ih (s.loseLot e)
    obtain ⟨hfirst, hout⟩ := s.loseLot_sheds e
    refine ⟨hfirst.trans hsheds, fun x hx => ?_⟩
    rcases List.mem_cons.mp hx with rfl | h
    · exact hsheds.gone _ _ hout
    · exact hgone x h

/-- A die is lost: it is retired, and no lot is left on its cores. -/
def State.dieGone (t : State) (die : Nat) : Prop :=
  t.dieRetired die = true ∧ Tbl.get false t.p.lost die = true ∧ ∀ c b, dieOf c = die → b < 4 → t.lot? c b = none

theorem State.loseDie_gone {s : State} {die : Nat} (hdie : die < 64) (hin : s.dieRetired die = false) : (s.loseDie die).dieGone die := by
  unfold State.loseDie
  rw [hin, if_neg (by simp; omega)]
  dsimp only
  generalize hu : (s.flushMirror die).2.loseCaches die = u
  have hhome : s.Sheds u := State.Sheds.of_offHome (hu ▸ (State.loseCaches_offHome ..).trans (State.flushMirror_offHome ..))
  obtain ⟨hretired, hlots⟩ := u.retireDie_retires hdie
  generalize u.retireDie die = r at hretired hlots
  generalize hv : State.mk _ _ _ _ _ _ _ _ _ _ _ _ _ _ _ = v
  have hvlots : v.lots = u.lots := by rw [← hv]; exact hlots
  have hvret : v.dieRetired die = true := by rw [← hv]; exact hretired
  have hvlost : Tbl.get false v.p.lost die = true := by rw [← hv]; exact Tbl.get_put_same false r.p.lost die true
  generalize hw : State.loseMonitors _ _ = w
  have hvw : v.Sheds w := hw ▸ (State.Sheds.foldl (fun _ _ => State.Sheds.writeRec ..) _ v).trans (State.Sheds.loseMonitors ..)
  obtain ⟨hlose, hgone⟩ := State.loseLots_sheds (s.lotList.filter (fun e => dieOf e.1 == die)) w
  have hend := (hvw.trans hlose).trans (State.Sheds.settlePreempts _)
  refine ⟨?_, by rw [hend.lost]; exact hvlost, fun c b hc hb => ?_⟩
  · unfold State.dieRetired State.retBit at hvret ⊢
    rw [hend.retmap]
    exact hvret
  · cases hl : s.lot? c b with
    | none => exact hend.gone c b ((State.lot?_of_lots hvlots c b).trans (hhome.gone c b hl))
    | some l =>
      refine (State.Sheds.settlePreempts _).gone c b (hgone (c, b, l) ?_)
      exact List.mem_filter.mpr ⟨State.mem_lotList hb hl, by simp [hc]⟩

end Sys2Proof.Machine
end

section
/-! Pre-emption and saves (02_work.md R49; 11_faults.md R293, R294): the cores that a request takes, and the lot that goes to its
save area. -/

namespace Sys2Proof.Machine

/-! ### The cores of a request -/

theorem State.vacate_frame (s : State) (c : Nat) : s.vacate c = { s with lots := (s.vacate c).lots } := by
  refine List.foldlRecOn (motive := fun t : State => t = { s with lots := t.lots }) _ _ rfl fun t ht b _ => ?_
  unfold State.onLot
  split
  · rw [ht]
    rfl
  · exact ht

theorem State.vacates_frame (s : State) (cs : List Nat) :
    cs.foldl (fun s c => s.vacate c) s = { s with lots := (cs.foldl (fun s c => s.vacate c) s).lots } := by
  refine List.foldlRecOn (motive := fun t : State => t = { s with lots := t.lots }) _ _ rfl fun t ht c _ => ?_
  rw [t.vacate_frame c, ht]

/-- A lot that is to be saved. -/
def Lot.toSave (l : Lot) : Lot := { l with saving := true }

theorem State.lot?_onLot_toSave (s : State) (c b c' b' : Nat) :
    (s.onLot c' b' Lot.toSave).lot? c b = if lotKey c b = lotKey c' b' then (s.lot? c b).map Lot.toSave else s.lot? c b := by
  unfold State.onLot
  split
  · next l hl =>
    split
    · next hkey =>
      have hsame : ∀ u : State, u.lot? c b = u.lot? c' b' := fun u => congrArg (Tbl.get none u.lots) hkey
      rw [hsame, hsame, hl]
      exact State.lot?_setLot ..
    · next hkey => exact State.lot?_setLot_other _ _ _ _ _ _ hkey
  · next hl =>
    split
    · next hkey =>
      rw [show s.lot? c b = s.lot? c' b' from congrArg (Tbl.get none s.lots) hkey, hl]
      rfl
    · rfl

/-- Steps of which each marks a lot to be saved or leaves it mark it where one of them does. -/
theorem State.lot?_foldl_toSave {α : Type} {c b : Nat} {f : State → α → State} {p : α → Bool}
    (hf : ∀ (s : State) x, (f s x).lot? c b = if p x then (s.lot? c b).map Lot.toSave else s.lot? c b) (xs : List α) (s : State) :
    (xs.foldl f s).lot? c b = if xs.any p then (s.lot? c b).map Lot.toSave else s.lot? c b := by
  induction xs generalizing s with
  | nil => rfl
  | cons x xs ih =>
    rw [List.foldl_cons, ih, hf, List.any_cons]
    cases p x <;> cases xs.any p <;> cases s.lot? c b <;> rfl

/-- The lots of the cores that a request takes are to be saved. -/
theorem State.lot?_vacates {s : State} {c b : Nat} {l : Lot} {cs : List Nat} (hc : c ∈ cs) (hb : b < 4) (hl : s.lot? c b = some l) :
    (cs.foldl (fun s c => s.vacate c) s).lot? c b = some l.toSave := by
  have hcore : ∀ (s : State) (c' : Nat), (s.vacate c').lot? c b =
      if (List.range 4).any (fun b' => decide (lotKey c b = lotKey c' b')) then (s.lot? c b).map Lot.toSave else s.lot? c b :=
    fun s c' => State.lot?_foldl_toSave (f := fun s b' => s.onLot c' b' Lot.toSave)
      (fun s b' => by simpa using s.lot?_onLot_toSave c b c' b') (List.range 4) s
  rw [State.lot?_foldl_toSave hcore cs s, if_pos, hl]
  · rfl
  · refine List.any_eq_true.mpr ⟨c, hc, List.any_eq_true.mpr ⟨b, List.mem_range.mpr hb, decide_eq_true rfl⟩⟩

/-- A request that waits alone takes its cores when enough qualify, and goes on waiting else (R293). -/
theorem State.servePreempts_one {s : State} {p : Preempt} (h : s.w.preempts = [p]) (hn : p.n ≠ 0) :
    let cores := s.preemptOrder (s.regF (queueReg p.queue 0) 2 1)
    s.servePreempts = if cores.length < p.n then s
      else (cores.take p.n).foldl (fun s c => s.vacate c)
        { s with w := { s.w with preempts := [{ p with n := 0, cores := p.cores ++ cores.take p.n }] } } := by
  intro cores
  unfold State.servePreempts
  rw [h, List.foldl_cons, List.foldl_nil, if_neg hn]
  dsimp only
  rw [h, List.map_cons, List.map_nil, if_pos (beq_self_eq_true p)]

/-! ### The save of a lot -/

theorem State.deferHeld_frame (s : State) (c b : Nat) : s.deferHeld c b = { s with accs := (s.deferHeld c b).accs } := by
  refine List.foldlRecOn (motive := fun t : State => t = { s with accs := t.accs }) s.accs _ rfl fun t ht a _ => ?_
  dsimp only
  split
  · rw [ht]
    rfl
  · exact ht

theorem State.hostRoom_offHome (s : State) (half : Nat) : (s.hostRoom half).offHome = s.offHome := by
  unfold State.hostRoom State.hostClean
  dsimp only
  split
  · rfl
  · split
    · rfl
    · split <;> rfl

theorem State.hostFill_offHome (s : State) (pa : Nat) : (s.hostFill pa).offHome = s.offHome := by
  unfold State.hostFill
  dsimp only
  split
  · rfl
  · exact Eq.trans rfl (s.hostRoom_offHome _)

theorem State.homeWrite_offHome (s : State) (pa n v : Nat) : (s.homeWrite pa n v).offHome = s.offHome := by
  unfold State.homeWrite
  dsimp only
  refine (State.markMonitors_offHome ..).trans ((State.setHomeBytes_offHome ..).trans ?_)
  split
  · exact s.evictLine_offHome ..
  · split
    · exact s.hostFill_offHome _
    · rfl

theorem State.writeImage_offHome (w : Waiter) (fuel : Nat) (s : State) (pa : Nat) (bs : List Byte) :
    (s.writeImage w pa bs fuel).2.offHome = s.offHome := by
  induction fuel generalizing s pa bs with
  | zero => rfl
  | succ fuel ih =>
    unfold State.writeImage
    split
    · rfl
    · dsimp only
      split
      · rfl
      · split
        · exact ih ..
        · exact s.wayWait_offHome ..
      · split
        · exact ih ..
        · exact (ih ..).trans ((State.homeWrite_offHome ..).trans (State.bankServed_offHome ..))

theorem State.servePreempts_work (s : State) : s.servePreempts.w.launches = s.w.launches ∧ s.servePreempts.w.ctxs = s.w.ctxs := by
  refine List.foldlRecOn (motive := fun t : State => t.w.launches = s.w.launches ∧ t.w.ctxs = s.w.ctxs) s.w.preempts _ ⟨rfl, rfl⟩
    fun t ht p _ => ?_
  split
  · exact ht
  · dsimp only
    split
    · exact ht
    · rw [State.vacates_frame]
      exact ht

/-- A launch to whose set of cores some come back. -/
def Launch.rejoined (back : List Nat) (x : Launch) : Launch := { x with removed := x.removed.filter (fun c => !back.contains c) }

/-- Cores that rejoin their sets leave the contexts and the saved lots of the launches as they are. -/
theorem State.settlePreempts_work {s : State} {i : Nat} {x : Launch} (h : s.launch? i = some x) :
    (∃ y, s.settlePreempts.launch? i = some y ∧ y.saved = x.saved) ∧ ∀ ctx, s.settlePreempts.ctxS ctx = s.ctxS ctx := by
  have hrejoin : (∃ y, s.rejoin.launch? i = some y ∧ y.saved = x.saved) ∧ s.rejoin.w.ctxs = s.w.ctxs := by
    unfold State.rejoin
    dsimp only
    generalize List.flatMap _ s.w.preempts = back
    split
    · exact ⟨⟨x, h, rfl⟩, rfl⟩
    · refine ⟨⟨x.rejoined back, ?_, rfl⟩, rfl⟩
      exact (List.find?_map ..).trans (congrArg (Option.map (Launch.rejoined back)) h)
  obtain ⟨⟨y, hy, hsaved⟩, hctxs⟩ := hrejoin
  obtain ⟨hlaunches, hctxs'⟩ := s.rejoin.servePreempts_work
  refine ⟨⟨y, ?_, hsaved⟩, fun ctx => congrArg (Tbl.get CtxS.none · ctx) (hctxs'.trans hctxs)⟩
  exact (congrArg (List.find? _) hlaunches).trans hy

/-- A launch one of whose lots has been saved from a core (R294). -/
def Launch.savedFrom (x : Launch) (c : Nat) (v : SavedLot) : Launch :=
  { x with saved := x.saved ++ [v], removed := if x.removed.contains c then x.removed else x.removed ++ [c] }

/-- The state when the image of a lot has been written to its area, before the lot leaves its core (R294). -/
def State.recordSave (t : State) (c b : Nat) (l : Lot) (x : Launch) (areas : List (Nat × Nat)) (v : SavedLot) : State :=
  let t := (t.setCtxS l.ctx { t.ctxS l.ctx with areas := areas }).setLaunch (x.savedFrom c v)
  let t := { t with w := { t.w with childReqs := t.w.childReqs.map (fun (r : ChildReq) =>
    if r.t.core == c && r.t.bctx == b then { r with t := ⟨4096, 0, r.t.w, r.t.l⟩ } else r) } }
  t.endTransfers (.place c b)

/-- A lot that is ready for its save: the state whose held accesses are deferred, the lot's image and the place of its area. -/
structure State.savesAt (s held : State) (c b : Nat) (l : Lot) (x : Launch) (image : List Byte) (pa : Nat) : Prop where
  lot : s.lot? c b = some l
  saving : l.saving = true
  defers : s.deferHeld c b = held
  ready : held.saveReady c b l = true
  launch : s.launch? l.launch = some x
  writes : held.saveImage c b l false = image
  place : placeArea (s.savePool l.ctx).1 (s.savePool l.ctx).2 image.length (s.ctxS l.ctx).areas = some pa

section
variable {s held s0 t0 : State} {c b pa : Nat} {l : Lot} {x : Launch} {image : List Byte} (h : s.savesAt held c b l x image pa)
include h

theorem State.savesAt.frame : held = { s with accs := held.accs } := by
  rw [← h.defers]
  exact s.deferHeld_frame c b

theorem State.savesAt.launchHeld : held.launch? l.launch = some x := by
  rw [h.frame]
  exact h.launch

theorem State.savesAt.ctxHeld : held.ctxS l.ctx = s.ctxS l.ctx := by
  rw [h.frame]
  rfl

theorem State.savesAt.poolHeld : held.savePool l.ctx = s.savePool l.ctx := by
  have hdev : held.dev = s.dev := by
    rw [h.frame]
  unfold State.savePool
  rw [State.regF_of_dev hdev, State.regF_of_dev hdev]

theorem State.savesAt.not_held : ¬ (!l.saving || !held.saveReady c b l) = true := by
  rw [h.saving, h.ready]
  decide

/-- A lot of a cancelled launch gets its release, and is then cancelled instead of saved (R49; log entry 31). -/
theorem execLotSave_cancelled (hcancel : x.cancelled = true) (hrel : (held.releaseScope c l.ctx .pkg).2 = s0) :
    execLotSave c b s = .next (s0.cancelLot c b l) := by
  have hplace := h.place
  unfold execLotSave
  split
  · next hnone => exact absurd (h.lot.symm.trans hnone) (by simp)
  · next l' hl' =>
    obtain rfl := Option.some.inj (hl'.symm.trans h.lot)
    rw [if_pos h.saving, h.defers]
    refine (if_neg h.not_held).trans ?_
    rw [h.writes, h.poolHeld, h.ctxHeld, h.launchHeld]
    generalize s.savePool l'.ctx = pool at hplace ⊢
    generalize held.releaseScope c l'.ctx .pkg = released at hrel ⊢
    obtain ⟨base, size⟩ := pool
    obtain ⟨done, u⟩ := released
    dsimp -zeta only at hplace hrel ⊢
    extract_lets bytes cs
    rw [show placeArea base size bytes.length cs.areas = some pa from hplace]
    exact (if_pos hcancel).trans (by rw [hrel])

/-- Once its release is complete and its image is written, a lot leaves its core (R294). -/
theorem execLotSave_done (hcancel : x.cancelled = false) (hrel : held.releaseScope c l.ctx .pkg = (true, s0))
    (hwrite : s0.writeImage (.place c b) pa image image.length = (.done, t0)) :
    execLotSave c b s = .next ((t0.recordSave c b l x ((s.ctxS l.ctx).areas ++ [(pa, image.length)])
      ⟨l.index, pa, image.length, (l.warps.map (fun e => e.2.blocks)).sum⟩).removeLot c b).settlePreempts := by
  have hplace := h.place
  unfold execLotSave
  split
  · next hnone => exact absurd (h.lot.symm.trans hnone) (by simp)
  · next l' hl' =>
    obtain rfl := Option.some.inj (hl'.symm.trans h.lot)
    rw [if_pos h.saving, h.defers]
    refine (if_neg h.not_held).trans ?_
    rw [h.writes, h.poolHeld, h.ctxHeld, h.launchHeld, hrel]
    generalize s.savePool l'.ctx = pool at hplace ⊢
    obtain ⟨base, size⟩ := pool
    dsimp -zeta only at hplace ⊢
    extract_lets bytes cs
    rw [show placeArea base size bytes.length cs.areas = some pa from hplace]
    refine (if_neg (Bool.eq_false_iff.mp hcancel)).trans ((if_neg (by decide)).trans ?_)
    rw [show s0.writeImage (.place c b) pa bytes bytes.length = (.done, t0) from hwrite]
    rfl

/-- After its save a lot is gone, its area is in use, and its launch has it among the saved lots. -/
theorem State.recordSave_ends (hoff : t0.offHome = held.offHome) (hq : (s.core c).blockQ = []) (areas : List (Nat × Nat)) (v : SavedLot) :
    let t := ((t0.recordSave c b l x areas v).removeLot c b).settlePreempts
    t.lot? c b = none ∧ (∃ y, t.launch? l.launch = some y ∧ y.saved = x.saved ++ [v]) ∧ (t.ctxS l.ctx).areas = areas := by
  have hcore : (t0.recordSave c b l x areas v).core c = s.core c := by
    refine (State.core_of_offHome hoff c).trans ?_
    rw [h.frame]
    rfl
  obtain ⟨hgone, hwork⟩ := State.removeLot_leaves (s := t0.recordSave c b l x areas v) (c := c) (b := b) (by rw [hcore]; exact hq)
  generalize (t0.recordSave c b l x areas v).removeLot c b = u at hgone hwork
  have hlaunch : u.launch? l.launch = some (x.savedFrom c v) := by
    unfold State.launch?
    rw [hwork]
    refine (State.launch?_setLaunch (t0.setCtxS l.ctx { t0.ctxS l.ctx with areas := areas }) (x.savedFrom c v) l.launch).trans ?_
    have hbefore : (t0.setCtxS l.ctx { t0.ctxS l.ctx with areas := areas }).launch? l.launch = some x :=
      (State.launch?_of_offHome hoff l.launch).trans h.launchHeld
    have hid : (x.savedFrom c v).id = l.launch := (State.launch?_id h.launch :)
    rw [if_pos hid, hbefore]
    rfl
  have hareas : (u.ctxS l.ctx).areas = areas := by
    unfold State.ctxS
    rw [hwork]
    exact congrArg CtxS.areas (State.ctxS_setCtxS t0 l.ctx { t0.ctxS l.ctx with areas := areas })
  obtain ⟨hsaved, hctx⟩ := State.settlePreempts_work hlaunch
  exact ⟨(State.Sheds.settlePreempts _).gone c b hgone, hsaved, by rw [hctx]; exact hareas⟩

/-- A lot that is cancelled instead of saved is there, cancelling. -/
theorem State.savesAt.cancels (hoff : s0.offHome = held.offHome) : ∃ l', (s0.cancelLot c b l).lot? c b = some l' ∧ l'.phase = .cancelling := by
  have hthere : held.lot? c b = some l := by
    rw [h.frame]
    exact h.lot
  obtain ⟨k, hk, -⟩ := State.lot?_of_offHome hoff hthere
  have hready := h.ready
  unfold State.saveReady at hready
  simp only [Bool.and_eq_true, beq_iff_eq, Bool.not_eq_true'] at hready
  obtain ⟨⟨⟨⟨⟨-, hphase⟩, -⟩, -⟩, hopen⟩, -⟩ := hready
  have hwork : s0.complete c b l = false := by
    unfold State.complete State.engineWork at hopen ⊢
    rw [show s0.e.orders = held.e.orders from (congrArg (fun u : State => u.e.orders) hoff :),
      show s0.e.tileOps = held.e.tileOps from (congrArg (fun u : State => u.e.tileOps) hoff :)]
    exact hopen
  refine ⟨{ k.stopAll with phase := .cancelling, saving := false }, ?_, rfl⟩
  unfold State.cancelLot
  rw [hphase, hwork, State.onLot_of_lot hk]
  exact State.lot?_setLot ..

end

/-! ### The obligation -/

theorem execDieProbe_answered (s : State) (die : Nat) :
    execDieProbe die true s = .next { s with p := { s.p with probes := Tbl.put 0 s.p.probes die 0 } } := rfl

theorem execDieProbe_missed (s : State) (die : Nat) : execDieProbe die false s =
    .next (if 3 ≤ Tbl.get 0 s.p.probes die + 1 then
      State.loseDie { s with p := { s.p with probes := Tbl.put 0 s.p.probes die (Tbl.get 0 s.p.probes die + 1) } } die
    else { s with p := { s.p with probes := Tbl.put 0 s.p.probes die (Tbl.get 0 s.p.probes die + 1) } }) := rfl

/-- Settles O40: the loss of a die by what leaves its cores, the request by the cores it takes, the save by what it records. -/
theorem lossAndPreemption : Obligations.LossAndPreemption := by
  unfold Obligations.LossAndPreemption
  refine ⟨fun s die hdie hin => ⟨execDieProbe_answered s die, fun hfew => ?_, fun hmany => ?_, rfl, ?_⟩, fun s q n hn hpre => ?_,
    fun s s0 t0 c b pa l x hl hsaving hready hx hq hplace => ?_⟩
  · exact (execDieProbe_missed s die).trans (congrArg Host.Outcome.next (if_neg (by omega)))
  · exact ⟨_, (execDieProbe_missed s die).trans (congrArg Host.Outcome.next (if_pos (by omega))), State.loseDie_gone hdie hin⟩
  · exact ⟨_, rfl, State.loseDie_gone hdie hin⟩
  · have hreq : exec (.preemptRequest q n) s = .next (State.servePreempts { s with w := { s.w with preempts := [⟨q, n, []⟩] } }) := by
      show execPreemptRequest q n s = _
      unfold execPreemptRequest
      rw [if_neg hn, hpre]
      rfl
    rw [hreq, State.servePreempts_one rfl hn]
    refine ⟨fun hfew => congrArg Host.Outcome.next (if_pos hfew), fun henough =>
      ⟨_, congrArg Host.Outcome.next (if_neg (by exact Nat.not_lt.mpr henough)), ?_, ?_⟩⟩
    · rw [State.vacates_frame]
      rfl
    · intro c hc b l hb hl
      exact State.lot?_vacates hc hb hl
  · have h : s.savesAt (s.deferHeld c b) c b l x ((s.deferHeld c b).saveImage c b l false) pa := ⟨hl, hsaving, rfl, hready, hx, rfl, hplace⟩
    refine ⟨fun hcancel hrel hwrite => ?_, fun hcancel => ?_⟩
    · have hhome : s0.offHome = (s.deferHeld c b).offHome := by
        have := (s.deferHeld c b).releaseScope_offHome c l.ctx .pkg
        rwa [hrel] at this
      have himage : t0.offHome = s0.offHome := by
        have := State.writeImage_offHome (.place c b) ((s.deferHeld c b).saveImage c b l false).length s0 pa
          ((s.deferHeld c b).saveImage c b l false)
        rwa [hwrite] at this
      obtain ⟨hgone, ⟨y, hy, hsaved⟩, hareas⟩ := State.recordSave_ends h (himage.trans hhome) hq
        ((s.ctxS l.ctx).areas ++ [(pa, ((s.deferHeld c b).saveImage c b l false).length)])
        ⟨l.index, pa, ((s.deferHeld c b).saveImage c b l false).length, (l.warps.map (fun e => e.2.blocks)).sum⟩
      exact ⟨_, y, execLotSave_done h hcancel hrel hwrite, hgone, hy, hsaved, by rw [hareas]; simp⟩
    · obtain ⟨l', hl', hphase⟩ := h.cancels (State.releaseScope_offHome _ c l.ctx .pkg)
      exact ⟨_, l', execLotSave_cancelled h hcancel rfl, hl', hphase⟩

end Sys2Proof.Machine
end

section
/-! A step takes the move that heads the schedule (03_issue.md R73, R80; 05_encoding.md R119; 10_banks.md R271; O51). -/

namespace Sys2Proof.Machine

theorem step_of_agenda {s : State} {m : Move} {rest : List Move} (h : s.agenda = m :: rest) :
    step s = State.doMove { s with agenda := rest } m := by
  unfold step
  rw [h]

/-- A unit that holds words which decode runs their instruction. -/
theorem State.unitMove_run {s : State} {u n : Nat} {i : Issuer} {x : Instr} (hi : s.issuer? u = some i) (hfetched : i.fetched = true)
    (hdecode : decode i.words = .ok (x, n)) : s.unitMove u = .run x n := by
  unfold State.unitMove
  rw [hi]
  dsimp only
  rw [hfetched]
  cases hwords : i.words with
  | nil => rw [hwords] at hdecode; cases hdecode
  | cons w ws =>
    rw [hwords] at hdecode
    simp only [Bool.not_true, Bool.false_eq_true, if_false, hdecode]

/-- A running booth at a micro-op, inside its segment, runs it. -/
theorem State.boothMove_run {s : State} {k : Nat} {x : Instr} (hrun : (s.booth k).st = .running) (hrefresh : (s.booth k).refreshing = false)
    (hcount : (s.booth k).segCount < 64) (hdecode : decodeMicro (Tbl.get 0 (s.booth k).prog (s.booth k).pc.toNat) = some x) :
    s.boothMove k = .run x := by
  unfold State.boothMove
  dsimp only
  rw [if_neg (by omega), hrun, hrefresh, hdecode]
  rfl

theorem State.consume_eq {s : State} {i : Issuer} (hi : s.issuer? s.active = some i) (n : Nat) :
    s.consume n = s.setIssuer s.active (some { i with words := i.words.drop n, index := i.index + n }) := by
  unfold State.consume
  rw [hi]

/-- Settles O51: a step is the move that heads the schedule, and the move of a unit or booth is what its words decode to. -/
theorem stepRunsDecoded : Obligations.StepRunsDecoded := by
  unfold Obligations.StepRunsDecoded
  refine ⟨fun s u n rest i x hagenda hi hfetched hdecode => ?_, fun s k rest x hagenda hrun hrefresh hcount hdecode => ?_,
    fun s x rest hagenda => step_of_agenda hagenda⟩
  · rw [step_of_agenda hagenda]
    show State.unitStep _ u = _
    unfold State.unitStep
    dsimp only
    rw [State.unitMove_run (s := { s with agenda := rest, active := u }) hi hfetched hdecode]
    dsimp only
    rw [State.consume_eq (s := { s with agenda := rest, active := u }) hi]
    rfl
  · rw [step_of_agenda hagenda]
    show State.boothStep _ k = _
    unfold State.boothStep
    dsimp only
    rw [State.boothMove_run (s := { s with agenda := rest, actBank := k, active := 5120 + k }) hrun hrefresh hcount hdecode]

end Sys2Proof.Machine
end

section
/-! Laws of the instructions that act once for each home warp (03_issue.md R83): the warps one after another are the participants one
after another, each with a value computed from the lot before the instruction. -/

namespace Sys2Proof.Machine

/-! ### The participants warp by warp -/

theorem nodup_eraseDups {α : Type} [DecidableEq α] (xs : List α) : xs.eraseDups.Nodup := by
  induction hn : xs.length using Nat.strong_induction_on generalizing xs with
  | _ n ih =>
    cases xs with
    | nil => exact List.nodup_nil
    | cons x xs =>
      rw [List.eraseDups_cons, List.nodup_cons]
      refine ⟨by simp, ih _ ?_ _ rfl⟩
      have := List.length_filter_le (fun b => !b == x) xs
      simp only [List.length_cons] at hn
      omega

theorem mem_ofWarp {as : List Agent} {w : Nat} {a : Agent} (h : a ∈ as.filter (fun a => a.w == w)) : a.w = w :=
  beq_iff_eq.mp (List.mem_filter.mp h).2

/-- The agents of a list, warp by warp. -/
def byWarp (as : List Agent) (ws : List Nat) : List Agent := ws.flatMap (fun w => as.filter (fun a => a.w == w))

theorem mem_byWarp {as : List Agent} {ws : List Nat} {a : Agent} : a ∈ byWarp as ws ↔ a ∈ as ∧ a.w ∈ ws := by
  simp [byWarp, and_comm]

theorem byWarp_nodup {as : List Agent} (has : as.Nodup) {ws : List Nat} (hws : ws.Nodup) : (byWarp as ws).Nodup := by
  refine List.nodup_flatMap.mpr ⟨fun w _ => has.filter _, hws.imp fun {v w} hne => ?_⟩
  rintro a hv hw
  simp only [List.mem_filter, beq_iff_eq] at hv hw
  exact hne (hv.2.symm.trans hw.2)

theorem mem_byWarp_all {as : List Agent} {a : Agent} : a ∈ byWarp as ((as.map (fun a => a.w)).eraseDups) ↔ a ∈ as := by
  rw [mem_byWarp]
  exact ⟨fun h => h.1, fun h => ⟨h, by simp only [List.mem_eraseDups]; exact List.mem_map_of_mem h⟩⟩

/-- Where the writes for other warps leave what the values of a warp are computed from (`R`), the warps in turn, each on the lot that the
one before has left, do what the participants in turn do with the values of the first lot. -/
theorem Lot.foldl_byWarp {β : Type} (as : List Agent) (put : Lot → Agent → β → Lot) (g : Lot → List Agent → Agent → β)
    (R : Nat → Lot → Prop) (l : Lot) (hl : ∀ w, R w l) (hput : ∀ w m a x, a ∈ as → a.w ≠ w → R w m → R w (put m a x))
    (hg : ∀ m, ∀ a ∈ as, R a.w m → g m (as.filter (fun x => x.w == a.w)) a = g l (as.filter (fun x => x.w == a.w)) a)
    (ws : List Nat) (hws : ws.Nodup) :
    ws.foldl (fun m w => (as.filter (fun a => a.w == w)).foldl (fun k a => put k a (g m (as.filter (fun a => a.w == w)) a)) m) l
      = (byWarp as ws).foldl (fun k a => put k a (g l (as.filter (fun x => x.w == a.w)) a)) l := by
  have hkeeps : ∀ (bs : List Agent) (val : Agent → β) w m, (∀ b ∈ bs, b ∈ as ∧ b.w ≠ w) → R w m →
      R w (bs.foldl (fun k a => put k a (val a)) m) := fun bs val w m hbs hm =>
    List.foldlRecOn (motive := R w) bs _ hm fun k hk b hb => hput w k b _ (hbs b hb).1 (hbs b hb).2 hk
  induction ws using List.reverseRecOn with
  | nil => rfl
  | append_singleton ws w ih =>
    obtain ⟨hws', -, hfresh⟩ := List.nodup_append.mp hws
    rw [List.foldl_append, ih hws']
    simp only [List.foldl_cons, List.foldl_nil, byWarp, List.flatMap_append, List.flatMap_cons, List.flatMap_nil, List.append_nil,
      List.foldl_append]
    have hw : R w ((byWarp as ws).foldl (fun k a => put k a (g l (as.filter (fun x => x.w == a.w)) a)) l) := by
      refine hkeeps _ _ w l (fun b hb => ?_) (hl w)
      obtain ⟨hb, hbw⟩ := mem_byWarp.mp hb
      exact ⟨hb, hfresh b.w hbw w (List.mem_singleton.mpr rfl)⟩
    refine List.foldl_ext _ _ _ fun k a ha => ?_
    simp only [List.mem_filter, beq_iff_eq] at ha
    obtain ⟨ha, rfl⟩ := ha
    exact congrArg (put k a) (hg _ a ha hw)

/-! ### Results warp by warp -/

/-- A lot with the registers of a warp, and all but registers, as another has them. -/
def Lot.sameWarp (l : Lot) (w : Nat) (m : Lot) : Prop :=
  m = { l with vregs := m.vregs, sregs := m.sregs } ∧ ∀ r lane, r < 128 → lane < 32 → m.vreg w r lane = l.vreg w r lane

theorem Lot.sameWarp.val {l m : Lot} {w : Nat} (h : l.sameWarp w m) {a : Agent} (haw : a.w = w) (ha : a.l < 32)
    (hb : a.isBarker = false) {r : BitVec 7} {n : Nat} (hr : r.toNat + regsOf n ≤ 128) : m.val a r n = l.val a r n :=
  Lot.val_own (fun _ => hr) (fun _ x hx => by rw [haw]; exact h.2 x a.l hx ha) (fun h => by rw [h] at hb; cases hb)

theorem Lot.sameWarp.pred {l m : Lot} {w : Nat} (h : l.sameWarp w m) (a : Agent) (p : Nat) : m.pred a p = l.pred a p := by
  rw [h.1]
  rfl

/-- The agents of an instruction without a barker form are threads, and their operands are in place. -/
theorem State.runs_threads {s : State} {v : View} {p : BitVec 3} {uses : List Use} (h : s.runs v p true false uses) :
    ∀ a ∈ v.parts, a.l < 32 ∧ a.isBarker = false ∧ ∀ r n, useW r n ∈ uses → r.toNat + Machine.regsOf n ≤ 128 := by
  intro a ha
  obtain ⟨hin, hlane⟩ := (State.runs_parts h).2 a ha
  have hthread : a.isBarker = false := by
    have hfault := h.2.2 a hin
    cases hb : a.isBarker
    · rfl
    · simp [Lot.instrFault, hb] at hfault
  exact ⟨hlane, hthread, fun r n hu => Lot.useFault_fits hthread (Lot.instrFault_use (h.2.2 a hin) hu)⟩

/-- An instruction that gives the participants of each home warp their results, computed from the registers of that warp: every
destination holds its result, and nothing else changed. -/
theorem State.eachWarp_wrote {s : State} {v : View} {p : BitVec 3} {uses : List Use} {d : BitVec 7} (h : s.runs v p true false uses)
    (hu : useW d 32 ∈ uses) (g : Lot → List Agent → Agent → Nat) {f : Lot → Nat → List Agent → Lot}
    (hf : ∀ l w as, (∀ a ∈ as, a.w = w) → f l w as = as.foldl (fun m a => m.setVal a d 32 false (g l as a)) l)
    (hg : ∀ m, ∀ a ∈ v.parts, v.l.sameWarp a.w m → g m (v.mates a) a = g v.l (v.mates a) a) :
    ∃ t, s.eachWarp uses p f = .next t ∧ s.wrote t v d 32 false (fun a => g v.l (v.mates a) a) := by
  have hthreads := State.runs_threads h
  have hflat := Lot.foldl_byWarp v.parts (fun m a x => m.setVal a d 32 false x) g (fun w m => v.l.sameWarp w m) v.l
    (fun w => ⟨rfl, fun _ _ _ _ => rfl⟩) (fun w m a x ha hw hm => ?_) hg _ (nodup_eraseDups (v.parts.map (fun a => a.w)))
  · obtain ⟨l', hl', hframe, hholds, hothers⟩ := Lot.foldl_setVal v.l (byWarp v.parts ((v.parts.map (fun a => a.w)).eraseDups)) d 32 false
      (fun _ a => g v.l (v.mates a) a) (by omega) (byWarp_nodup (State.runs_parts h).1 (nodup_eraseDups _)) (fun a ha => by
        obtain ⟨hlane, hthread, hfits⟩ := hthreads a (mem_byWarp_all.mp ha)
        exact ⟨hlane, fun _ => hfits d 32 hu, fun hb => by rw [hthread] at hb; cases hb⟩) (fun _ _ _ _ _ _ => rfl)
    refine ⟨_, State.eachWarp_runs h f, l', ?_, hframe, fun a ha => hholds a (mem_byWarp_all.mpr ha), ?_, fun _ => rfl⟩
    · simp only [hf _ _ _ (fun a => mem_ofWarp)]
      rw [hflat, ← hl']
      rfl
    · simpa only [Lot.others, mem_byWarp_all] using hothers
  · obtain ⟨hlane, -, hfits⟩ := hthreads a ha
    refine ⟨?_, fun r lane hr hln => ?_⟩
    · rw [Lot.setVal_frame, hm.1]
    · rw [(Lot.others_setVal m a d 32 false x hlane (fun _ => hfits d 32 hu)).1 w r lane hr hln, hm.2 r lane hr hln]
      rintro ⟨b, hb, -, hbw, -⟩
      rw [List.mem_singleton] at hb
      exact hw (hb ▸ hbw)

/-! ### Predicates warp by warp -/

/-- A thread with a predicate set to a value. -/
def Thread.withPred (t : Thread) (q : Nat) (x : Bool) : Thread := { t with preds := BitVec.ofNat 8 (setBits t.preds.toNat q q x.toNat) }

theorem Lot.setPred_eq (l : Lot) (a : Agent) (q : Nat) (x : Bool) : l.setPred a q x = l.setThr a ((l.thr a).withPred q x) := rfl

theorem Thread.getLsbD_withPred (t : Thread) (q : BitVec 3) (x : Bool) (k : BitVec 3) :
    (t.withPred q.toNat x).preds.getLsbD k.toNat = if q = k then x else t.preds.getLsbD k.toNat := by
  have hq := q.isLt
  have hk := k.isLt
  have hset : (setBits t.preds.toNat q.toNat q.toNat x.toNat).testBit k.toNat = if q = k then x else t.preds.toNat.testBit k.toNat := by
    rw [testBit_setBits]
    by_cases hqk : q = k
    · subst hqk
      cases x <;> simp
    · have hne : q.toNat ≠ k.toNat := fun e => hqk (BitVec.eq_of_toNat_eq e)
      rw [if_neg (by omega), if_neg hqk]
  show (BitVec.ofNat 8 _).getLsbD k.toNat = _
  rw [BitVec.getLsbD_ofNat, hset, decide_eq_true (by omega), Bool.true_and]
  rfl

/-- An instruction that sets one predicate of the participants of each home warp, by the predicates of that warp. -/
theorem State.eachWarp_compared {s : State} {v : View} {p : BitVec 3} {uses : List Use} {q : BitVec 3} (h : s.runs v p true false uses)
    (g : Lot → List Agent → Agent → Bool) {f : Lot → Nat → List Agent → Lot}
    (hf : ∀ l w as, (∀ a ∈ as, a.w = w) → f l w as = as.foldl (fun m a => m.setPred a q.toNat (g l as a)) l)
    (hg : ∀ m, ∀ a ∈ v.parts, (∀ b, b.l < 32 → b.w = a.w → m.thr b = v.l.thr b) → g m (v.mates a) a = g v.l (v.mates a) a) :
    ∃ t, s.eachWarp uses p f = .next t ∧ s.compared t v q 0 (fun a => g v.l (v.mates a) a) (fun _ => 0) := by
  obtain ⟨hnodup, hparts⟩ := State.runs_parts h
  have hflat := Lot.foldl_byWarp v.parts (fun m a x => m.setPred a q.toNat x) g
    (fun w m => ∀ b : Agent, b.l < 32 → b.w = w → m.thr b = v.l.thr b) v.l (fun _ _ _ _ => rfl)
    (fun w m a x ha hw hm b hb hbw => by
      rw [Lot.setPred_eq, Lot.thr_setThr_other _ _ _ _ (hparts a ha).2 hb (fun e => hw (e ▸ hbw))]
      exact hm b hb hbw)
    hg _ (nodup_eraseDups (v.parts.map (fun a => a.w)))
  obtain ⟨hframe, hthr⟩ := Lot.foldl_setThr (byWarp v.parts ((v.parts.map (fun a => a.w)).eraseDups))
    (fun m a => (m.thr a).withPred q.toNat (g v.l (v.mates a) a)) (fun a t => t.withPred q.toNat (g v.l (v.mates a) a)) v.l
    (byWarp_nodup hnodup (nodup_eraseDups _)) (fun a ha => (hparts a (mem_byWarp_all.mp ha)).2) (fun _ _ _ _ => rfl)
  generalize hl' : (byWarp v.parts ((v.parts.map (fun a => a.w)).eraseDups)).foldl
    (fun m a => m.setThr a ((m.thr a).withPred q.toNat (g v.l (v.mates a) a))) v.l = l' at hframe hthr
  simp only [mem_byWarp_all] at hthr
  refine ⟨_, State.eachWarp_runs h f, l', ?_, ?_, fun a ha => ⟨?_, fun k => ?_⟩, fun w => ?_, fun _ => rfl⟩
  · simp only [hf _ _ _ (fun a => mem_ofWarp)]
    rw [hflat, ← hl']
    rfl
  · rw [hframe]
  · rw [hthr a ha]
    split <;> rfl
  · unfold Lot.pred
    rw [hthr a ha]
    by_cases hk : k = 0
    · subst hk; simp
    · have hk' : (0 : BitVec 3) ≠ k := Ne.symm hk
      simp only [hk', and_false, if_false]
      by_cases hin : a ∈ v.parts
      · by_cases hqk : q = k
        · have hk0 : k.toNat ≠ 0 := fun e => hk (BitVec.eq_of_toNat_eq e)
          rw [if_pos hin, if_pos ⟨hin, hk, hqk⟩, Thread.getLsbD_withPred, if_pos hqk]
          simp [hk0]
        · rw [if_pos hin, if_neg (fun e => hqk e.2.2), Thread.getLsbD_withPred, if_neg hqk]
      · rw [if_neg hin, if_neg (fun e => hin e.1)]
  · have hzero : (v.parts.filter (fun a => a.w == w)).foldl (fun m _ => m ||| 0) 0 = 0 := List.foldl_fixed' (fun _ => rfl) _
    rw [hzero, hframe]
    simp only [BitVec.or_zero]
    rfl

end Sys2Proof.Machine
end

section
/-! Cross-lane instructions (03_issue.md R83; 14_ref_a_c.md R342; 15_ref_d_i.md R367; 16_ref_j_r.md R398, R399; 17_ref_s_z.md R429, R430, R445;
O8). -/

namespace Sys2Proof.Machine

/-! ### Masks of lanes -/

theorem foldl_sumBits_lt (f : Nat → Bool) (n : Nat) :
    (List.range n).foldl (fun r i => r + (if f i then 2 ^ i else 0)) 0 < 2 ^ n := by
  induction n with
  | zero => exact Nat.one_pos
  | succ n ih =>
    rw [List.range_succ, List.foldl_append]
    simp only [List.foldl_cons, List.foldl_nil]
    rw [Nat.pow_succ]
    split <;> omega

theorem sumBits_lt (n : Nat) (f : Nat → Bool) : sumBits n f < 2 ^ n := foldl_sumBits_lt f n

/-- The mask of the agents of a list that meet a condition. -/
theorem toNat_laneMask_filter (as : List Agent) (q : Agent → Bool) :
    (laneMask (as.filter q)).toNat = sumBits 32 (fun i => as.any (fun z => z.l == i && q z)) := by
  have hany : (fun i => (as.filter q).any (fun a => a.l == i)) = fun i => as.any (fun z => z.l == i && q z) := by
    funext i
    rw [List.any_filter]
    congr 1
    funext z
    exact Bool.and_comm _ _
  unfold laneMask
  rw [hany, BitVec.toNat_ofNat, Nat.mod_eq_of_lt (sumBits_lt 32 _)]

/-! ### Reductions -/

/-- An operation over a list of values, from the first one on. -/
def reduceVals (op : Nat → Nat → Nat) : List Nat → Nat
  | [] => 0
  | x :: xs => xs.foldl op x

/-- What an LRED gives: its operation over the operands of a list of agents. -/
def Lot.reduced (l : Lot) (r : BitVec 7) (op : Nat → Nat → Nat) (as : List Agent) : Nat := reduceVals op (as.map (fun a => l.val a r 32))

/-- From a start that changes nothing, the operation over all operands is that from the first one on. -/
theorem Lot.reduced_of_start {l : Lot} {r : BitVec 7} {op : Nat → Nat → Nat} {start : Nat} (hstart : ∀ x, x < 2 ^ 32 → op start x = x)
    {as : List Agent} (hne : as ≠ []) : l.reduced r op as = as.foldl (fun m z => op m (l.val z r 32)) start := by
  cases as with
  | nil => exact absurd rfl hne
  | cons a as =>
    rw [List.foldl_cons, hstart _ (l.val_lt a r)]
    exact List.foldl_map

/-- A value already among those that an associative, commutative and idempotent operation takes in changes nothing. -/
theorem foldl_absorbs {op : Nat → Nat → Nat} (hassoc : ∀ x y z, op (op x y) z = op x (op y z)) (hcomm : ∀ x y, op x y = op y x)
    (hidem : ∀ x, op x x = x) {y : Nat} {xs : List Nat} (hy : y ∈ xs) (x : Nat) : xs.foldl op (op y x) = xs.foldl op x := by
  induction xs generalizing x with
  | nil => cases hy
  | cons z zs ih =>
    rw [List.foldl_cons, List.foldl_cons]
    rcases List.mem_cons.mp hy with rfl | hy
    · rw [hcomm (op y x) y, ← hassoc, hidem, hcomm y x]
    · rw [hassoc, ih hy]

/-- An idempotent operation over all operands may start from any of them. -/
theorem Lot.reduced_of_idem {l : Lot} {r : BitVec 7} {op : Nat → Nat → Nat} (hassoc : ∀ x y z, op (op x y) z = op x (op y z))
    (hcomm : ∀ x y, op x y = op y x) (hidem : ∀ x, op x x = x) {as : List Agent} {a : Agent} (ha : a ∈ as) :
    l.reduced r op as = as.foldl (fun m z => op m (l.val z r 32)) (l.val a r 32) := by
  have hfold : as.foldl (fun m z => op m (l.val z r 32)) (l.val a r 32) = (as.map (fun z => l.val z r 32)).foldl op (l.val a r 32) :=
    List.foldl_map.symm
  have hmem : l.val a r 32 ∈ as.map (fun z => l.val z r 32) := List.mem_map_of_mem ha
  rw [hfold]
  unfold Lot.reduced
  cases hvals : as.map (fun z => l.val z r 32) with
  | nil => rw [hvals] at hmem; cases hmem
  | cons x xs =>
    rw [hvals] at hmem
    rw [List.foldl_cons]
    rcases List.mem_cons.mp hmem with hx | hx
    · rw [hx, hidem]
      rfl
    · exact (foldl_absorbs hassoc hcomm hidem hx x).symm

/-- The step of a search for the least value of a key. -/
def leastBy {α : Type} (key : α → Int) (m z : α) : α := if key z < key m then z else m

theorem foldl_leastBy {α : Type} (key : α → Int) (xs : List α) (x : α) :
    xs.foldl (leastBy key) x ∈ x :: xs ∧ ∀ z ∈ x :: xs, key (xs.foldl (leastBy key) x) ≤ key z := by
  induction xs generalizing x with
  | nil => simp
  | cons y ys ih =>
    obtain ⟨hmem, hle⟩ := ih (leastBy key x y)
    have hcases : leastBy key x y = x ∧ key x ≤ key y ∨ leastBy key x y = y ∧ key y ≤ key x := by
      unfold leastBy
      split
      · next h => exact .inr ⟨rfl, h.le⟩
      · next h => exact .inl ⟨rfl, not_lt.mp h⟩
    rw [List.foldl_cons]
    rcases hcases with ⟨e, hxy⟩ | ⟨e, hyx⟩
    · rw [e] at hmem hle ⊢
      have hx := hle x List.mem_cons_self
      refine ⟨?_, fun z hz => ?_⟩
      · rcases List.mem_cons.mp hmem with h | h
        · rw [h]; exact List.mem_cons_self
        · exact List.mem_cons_of_mem _ (List.mem_cons_of_mem _ h)
      · rcases List.mem_cons.mp hz with rfl | hz
        · exact hx
        · rcases List.mem_cons.mp hz with rfl | hz
          · omega
          · exact hle z (List.mem_cons_of_mem _ hz)
    · rw [e] at hmem hle ⊢
      have hy := hle y List.mem_cons_self
      refine ⟨List.mem_cons_of_mem _ hmem, fun z hz => ?_⟩
      rcases List.mem_cons.mp hz with rfl | hz
      · omega
      · exact hle z hz

/-- Where the key tells the operands apart, the least of them is found from any of them on. -/
theorem Lot.reduced_least {l : Lot} {r : BitVec 7} {key : Nat → Int} (hkey : ∀ x y, x < 2 ^ 32 → y < 2 ^ 32 → key x = key y → x = y)
    {as : List Agent} {a : Agent} (ha : a ∈ as) :
    l.reduced r (leastBy key) as = as.foldl (fun m z => leastBy key m (l.val z r 32)) (l.val a r 32) := by
  have hfold : as.foldl (fun m z => leastBy key m (l.val z r 32)) (l.val a r 32)
      = (as.map (fun z => l.val z r 32)).foldl (leastBy key) (l.val a r 32) := List.foldl_map.symm
  have hmem : l.val a r 32 ∈ as.map (fun z => l.val z r 32) := List.mem_map_of_mem ha
  have hsmall : ∀ x ∈ as.map (fun z => l.val z r 32), x < 2 ^ 32 := fun x hx => by
    obtain ⟨z, -, rfl⟩ := List.mem_map.mp hx
    exact l.val_lt z r
  rw [hfold]
  unfold Lot.reduced
  cases hvals : as.map (fun z => l.val z r 32) with
  | nil => rw [hvals] at hmem; cases hmem
  | cons x xs =>
    rw [hvals] at hmem hsmall
    show xs.foldl (leastBy key) x = _
    obtain ⟨hin, hleast⟩ := foldl_leastBy key xs x
    obtain ⟨hin', hleast'⟩ := foldl_leastBy key (x :: xs) (l.val a r 32)
    have hin'' : (x :: xs).foldl (leastBy key) (l.val a r 32) ∈ x :: xs := by
      rcases List.mem_cons.mp hin' with h | h
      · rw [h]; exact hmem
      · exact h
    exact hkey _ _ (hsmall _ hin) (hsmall _ hin'') (le_antisymm (hleast _ hin'') (hleast' _ (List.mem_cons_of_mem _ hin)))

theorem Ty.toInt_injective {ty : Ty} (hty : ty.bits = 32) (x y : Nat) (hx : x < 2 ^ 32) (hy : y < 2 ^ 32)
    (h : Ty.toInt ty x = Ty.toInt ty y) : x = y := by
  unfold Ty.toInt sextI wrapN at h
  rw [hty, Nat.mod_eq_of_lt hx, Nat.mod_eq_of_lt hy] at h
  split at h
  · split at h <;> split at h <;> omega
  · omega

theorem minTy_eq (ty : Ty) : minTy ty = leastBy (Ty.toInt ty) := by
  funext m z
  unfold minTy leastBy
  by_cases h : Ty.toInt ty z < Ty.toInt ty m
  · rw [if_pos h, if_neg (by omega)]
  · rw [if_neg h, if_pos (by omega)]

theorem maxTy_eq (ty : Ty) : maxTy ty = leastBy (fun x => -Ty.toInt ty x) := by
  funext m z
  unfold maxTy leastBy
  by_cases h : Ty.toInt ty m < Ty.toInt ty z
  · rw [if_neg (not_le.mpr h), if_pos (neg_lt_neg h)]
  · rw [if_pos (not_lt.mp h), if_neg (fun e => h (neg_lt_neg_iff.mp e))]

/-- An LRED writes the reduction of the warp's operands to each participant. -/
theorem State.lred_wrote {s : State} {v : View} {f : FmtA} (h : s.runs v f.p true false [use1 f.d, use1 f.a]) (op : Ty → Nat → Nat → Nat) :
    ∃ t, s.lred f op = .next t ∧ s.wrote t v f.d 32 false (fun a => v.l.reduced f.a (op (f.ty .i32)) (v.mates a)) := by
  refine State.eachWarp_wrote (f := fun l _ as => match as.map (fun a => l.val a f.a 32) with
    | [] => l
    | x :: xs => as.foldl (fun l a => l.setVal a f.d 32 false (xs.foldl (op (f.ty .i32)) x)) l)
    h List.mem_cons_self (fun l as _ => l.reduced f.a (op (f.ty .i32)) as) (fun l w as _ => ?_) (fun m a _ hm => ?_)
  · cases as <;> rfl
  · have hthreads := State.runs_threads h
    have hvals : (v.mates a).map (fun x => m.val x f.a 32) = (v.mates a).map (fun x => v.l.val x f.a 32) :=
      List.map_congr_left fun x hx => by
        simp only [View.mates, List.mem_filter, beq_iff_eq] at hx
        obtain ⟨hlane, hthread, hfits⟩ := hthreads x hx.1
        exact hm.val hx.2 hlane hthread (hfits f.a 32 (List.mem_cons_of_mem _ List.mem_cons_self))
    exact congrArg (reduceVals (op (f.ty .i32))) hvals

theorem State.wrote_congr {s t : State} {v : View} {d : BitVec 7} {width : Nat} {signed : Bool} {x y : Agent → Nat}
    (hxy : ∀ a ∈ v.parts, x a = y a) (h : s.wrote t v d width signed x) : s.wrote t v d width signed y := by
  obtain ⟨l', ht, hframe, hholds, hothers, hmem⟩ := h
  exact ⟨l', ht, hframe, fun a ha => hxy a ha ▸ hholds a ha, hothers, hmem⟩

theorem State.compared_congr {s t : State} {v : View} {pd pc : BitVec 3} {x y : Agent → Bool} {fl : Agent → Nat}
    (hxy : ∀ a ∈ v.parts, x a = y a) (h : s.compared t v pd pc x fl) : s.compared t v pd pc y fl := by
  obtain ⟨l', ht, hframe, hthr, hrest⟩ := h
  refine ⟨l', ht, hframe, fun a ha => ⟨(hthr a ha).1, fun q => ?_⟩, hrest⟩
  rw [(hthr a ha).2 q]
  by_cases hin : a ∈ v.parts
  · rw [hxy a hin]
  · simp [hin]

theorem View.mem_mates {v : View} {a : Agent} (ha : a ∈ v.parts) : a ∈ v.mates a := List.mem_filter.mpr ⟨ha, beq_self_eq_true _⟩

/-- An LRED computes what its reduction is over the participants of the warp. -/
theorem State.lred_computes {i : Instr} {f : FmtA} {op : Ty → Nat → Nat → Nat} {val : View → Agent → Nat}
    (hexec : ∀ s, exec i s = s.lred f op) (hval : ∀ v, ∀ a ∈ v.parts, v.l.reduced f.a (op (f.ty .i32)) (v.mates a) = val v a) :
    i.computes f.p false [use1 f.d, use1 f.a] f.d 32 false val := by
  intro s v h
  obtain ⟨t, ht, hwrote⟩ := State.lred_wrote h op
  exact ⟨t, (hexec s).trans ht, State.wrote_congr (hval v) hwrote⟩

/-! ### BALLOT, MATCH and SHFL -/

theorem execBallot_computes (f : FmtA) : (Instr.ballot f).computes f.p false [use1 f.d] f.d 32 false
    (fun v a => sumBits 32 (fun i => (v.mates a).any (fun z => z.l == i && v.l.pred z f.b.toNat))) := by
  intro s v h
  obtain ⟨t, ht, hwrote⟩ := State.eachWarp_wrote h List.mem_cons_self
    (fun l as _ => (laneMask (as.filter (fun a => l.pred a f.b.toNat))).toNat) (fun _ _ _ _ => rfl) (fun m a _ hm => by
      simp only [hm.pred])
  exact ⟨t, ht, State.wrote_congr (fun a _ => toNat_laneMask_filter _ _) hwrote⟩

theorem execMatchLanes_computes (f : FmtA) :
    (Instr.matchLanes f).computes f.p false [use1 f.d, useW f.a (f.ty .b32).bits] f.d 32 false (fun v a =>
      sumBits 32 (fun i => (v.mates a).any (fun z => z.l == i && v.l.val z f.a (f.ty .b32).bits == v.l.val a f.a (f.ty .b32).bits))) := by
  intro s v h
  have hthreads := State.runs_threads h
  obtain ⟨t, ht, hwrote⟩ := State.eachWarp_wrote h List.mem_cons_self
    (fun l as a => (laneMask (as.filter (fun x => l.val x f.a (f.ty .b32).bits == l.val a f.a (f.ty .b32).bits))).toNat)
    (fun _ _ _ _ => rfl) (fun m a ha hm => by
      have hval : ∀ x ∈ v.parts, x.w = a.w → m.val x f.a (f.ty .b32).bits = v.l.val x f.a (f.ty .b32).bits := fun x hx hxw => by
        obtain ⟨hlane, hthread, hfits⟩ := hthreads x hx
        exact hm.val hxw hlane hthread (hfits f.a _ (List.mem_cons_of_mem _ List.mem_cons_self))
      have hfilter : (v.mates a).filter (fun x => m.val x f.a (f.ty .b32).bits == m.val a f.a (f.ty .b32).bits)
          = (v.mates a).filter (fun x => v.l.val x f.a (f.ty .b32).bits == v.l.val a f.a (f.ty .b32).bits) :=
        List.filter_congr fun x hx => by
          simp only [View.mates, List.mem_filter, beq_iff_eq] at hx
          rw [hval x hx.1 hx.2, hval a ha rfl]
      rw [hfilter])
  exact ⟨t, ht, State.wrote_congr (fun a _ => toNat_laneMask_filter _ _) hwrote⟩

/-- The source lane, written as R430 does. -/
theorem shflSource_eq (m : ShflMode) (l k : Nat) : shflSource m l k = (match m with
    | .idx => k % 32
    | .xor => l ^^^ (k % 32)
    | .up => (((l : Int) - k) % 32).toNat
    | .dn => (l + k) % 32) := by
  unfold shflSource
  cases m
  case up => show (l + 32 - k % 32) % 32 = (((l : Int) - k) % 32).toNat; omega
  case dn => show (l + k % 32) % 32 = (l + k) % 32; omega
  all_goals rfl

/-- SHFL gives each participant the operand of its source lane, where that takes part, and else its own. -/
theorem State.shuffle_wrote {s : State} {v : View} {p : BitVec 3} {uses : List Use} {d a : BitVec 7} (h : s.runs v p true false uses)
    (hd : useW d 32 ∈ uses) (ha : useW a 32 ∈ uses) (m : ShflMode) (b : Lot → Agent → Nat)
    (hb : ∀ k, ∀ x ∈ v.parts, v.l.sameWarp x.w k → b k x = b v.l x) :
    ∃ t, s.shuffle p uses d a m b = .next t ∧ s.wrote t v d 32 false (fun x =>
      if (⟨x.w, shflSource m x.l (b v.l x)⟩ : Agent) ∈ v.parts then v.l.val ⟨x.w, shflSource m x.l (b v.l x)⟩ a 32 else v.l.val x a 32) := by
  have hthreads := State.runs_threads h
  have hval : ∀ k, ∀ y ∈ v.parts, ∀ x, v.l.sameWarp x k → y.w = x → k.val y a 32 = v.l.val y a 32 := fun k y hy x hk hyx => by
    obtain ⟨hlane, hthread, hfits⟩ := hthreads y hy
    exact hk.val hyx hlane hthread (hfits a 32 ha)
  have hmates : ∀ x (j : Nat), (v.mates x).contains (⟨x.w, j⟩ : Agent) = decide ((⟨x.w, j⟩ : Agent) ∈ v.parts) := fun x j => by
    simp [View.mates, List.contains_eq_mem]
  obtain ⟨t, ht, hwrote⟩ := State.eachWarp_wrote h hd
    (f := fun l0 w as => as.foldl (fun l x => l.setVal x d 32 false (if as.contains (⟨w, shflSource m x.l (b l0 x)⟩ : Agent)
      then l0.val ⟨w, shflSource m x.l (b l0 x)⟩ a 32 else l0.val x a 32)) l0)
    (fun l as x => if as.contains (⟨x.w, shflSource m x.l (b l x)⟩ : Agent)
      then l.val ⟨x.w, shflSource m x.l (b l x)⟩ a 32 else l.val x a 32)
    (fun l w as has => List.foldl_ext _ _ _ fun m x hx => by rw [has x hx]) (fun k x hx hk => by
      rw [hb k x hx hk, hval k x hx _ hk rfl, hmates]
      by_cases hj : (⟨x.w, shflSource m x.l (b v.l x)⟩ : Agent) ∈ v.parts
      · rw [hval k _ hj _ hk rfl]
      · simp [hj])
  exact ⟨t, ht, State.wrote_congr (fun x _ => by rw [hmates]; simp only [decide_eq_true_eq]) hwrote⟩

theorem execShfl_computes (p : BitVec 3) (d a b : BitVec 7) (m : ShflMode) :
    (Instr.shfl p d a b m).computes p false [use1 d, use1 a, use1 b] d 32 false (fun v x =>
      if (⟨x.w, shflSource m x.l (v.l.val x b 32)⟩ : Agent) ∈ v.parts then v.l.val ⟨x.w, shflSource m x.l (v.l.val x b 32)⟩ a 32
      else v.l.val x a 32) := fun s v h =>
  State.shuffle_wrote h (by simp [useW]) (by simp [useW]) m (fun l x => l.val x b 32) fun k x hx hk => by
    obtain ⟨hlane, hthread, hfits⟩ := State.runs_threads h x hx
    exact hk.val rfl hlane hthread (hfits b 32 (by simp [useW]))

theorem execShflImm_computes (p : BitVec 3) (d a : BitVec 7) (imm : BitVec 5) (m : ShflMode) :
    (Instr.shflImm p d a imm m).computes p false [use1 d, use1 a] d 32 false (fun v x =>
      if (⟨x.w, shflSource m x.l imm.toNat⟩ : Agent) ∈ v.parts then v.l.val ⟨x.w, shflSource m x.l imm.toNat⟩ a 32
      else v.l.val x a 32) := fun s v h =>
  State.shuffle_wrote h (by simp [useW]) (by simp [useW]) m (fun _ _ => imm.toNat) fun _ _ _ _ => rfl

/-! ### ELECT and VOTE -/

theorem Lot.pred_of_thr {l m : Lot} {a : Agent} (h : m.thr a = l.thr a) (q : Nat) : m.pred a q = l.pred a q := by
  unfold Lot.pred
  rw [h]

/-- An agent has the lowest home lane of a list when its lane is no higher than any. -/
theorem foldl_min_lane (as : List Agent) (n : Nat) : ∀ {x : Nat}, x ≤ as.foldl (fun m a => min m a.l) n ↔ x ≤ n ∧ ∀ a ∈ as, x ≤ a.l := by
  induction as generalizing n with
  | nil => simp
  | cons a as ih =>
    intro x
    rw [List.foldl_cons, ih]
    simp only [le_min_iff, List.mem_cons, forall_eq_or_imp, and_assoc]

theorem execElect_compares {f : FmtA} {s : State} {v : View} (h : s.runs v f.p true false []) :
    ∃ t, execElect f s = .next t ∧ s.compared t v (f.d.setWidth 3) 0 (fun a => (v.mates a).all (fun z => a.l ≤ z.l)) (fun _ => 0) := by
  have hq : (f.d.setWidth 3).toNat = f.d.toNat % 8 := by simp [BitVec.toNat_setWidth]
  obtain ⟨t, ht, hcomp⟩ := State.eachWarp_compared (q := f.d.setWidth 3) h
    (fun _ as a => a.l == as.foldl (fun m a => min m a.l) 32) (f := fun l _ as =>
      as.foldl (fun l a => l.setPred a (f.d.toNat % 8) (a.l == as.foldl (fun m a => min m a.l) 32)) l)
    (fun _ _ _ _ => by rw [hq]) (fun _ _ _ _ => rfl)
  refine ⟨t, ht, State.compared_congr (fun a ha => ?_) hcomp⟩
  have hle : ∀ x, x ≤ (v.mates a).foldl (fun m a => min m a.l) 32 ↔ x ≤ 32 ∧ ∀ z ∈ v.mates a, x ≤ z.l := fun x => foldl_min_lane _ _
  have hlane := ((State.runs_parts h).2 a ha).2
  have hself : (v.mates a).foldl (fun m a => min m a.l) 32 ≤ a.l := ((hle _).mp le_rfl).2 a (View.mem_mates ha)
  rw [Bool.eq_iff_iff, beq_iff_eq, List.all_eq_true]
  simp only [decide_eq_true_eq]
  constructor
  · intro e
    exact ((hle a.l).mp e.le).2
  · intro hall
    exact le_antisymm ((hle a.l).mpr ⟨by omega, hall⟩) hself

/-- What a VOTE finds among agents of which some hold the predicate. -/
def voteFinds (m : VoteMode) (yes all : Nat) : Bool :=
  match m with
  | .all => yes == all
  | .any => 0 < yes
  | .same => yes == all || yes == 0
  | .par => yes % 2 == 1

theorem execVote_compares {p : BitVec 3} {m : VoteMode} {pd ps : BitVec 3} {s : State} {v : View} (h : s.runs v p true false []) :
    ∃ t, execVote p m pd ps s = .next t ∧ s.compared t v pd 0
      (fun a => voteFinds m ((v.mates a).countP (fun z => v.l.pred z ps.toNat)) (v.mates a).length) (fun _ => 0) := by
  obtain ⟨t, ht, hcomp⟩ := State.eachWarp_compared (q := pd) h
    (fun l as _ => voteFinds m (as.countP (fun z => l.pred z ps.toNat)) as.length) (f := fun l _ as =>
      let yes := as.filter (fun a => l.pred a ps.toNat)
      let found := match m with
        | .all => yes.length == as.length
        | .any => yes.length != 0
        | .same => yes.length == as.length || yes.length == 0
        | .par => yes.length % 2 == 1
      as.foldl (fun l a => l.setPred a pd.toNat found) l)
    (fun l w as _ => by
      have hany : ∀ n : Nat, (n != 0) = decide (0 < n) := fun n => by cases n <;> simp
      dsimp only
      rw [List.countP_eq_length_filter, hany]
      cases m <;> rfl)
    (fun k a _ hk => by
      have hcount : (v.mates a).countP (fun z => k.pred z ps.toNat) = (v.mates a).countP (fun z => v.l.pred z ps.toNat) :=
        List.countP_congr fun z hz => by
          simp only [View.mates, List.mem_filter, beq_iff_eq] at hz
          rw [Lot.pred_of_thr (hk z ((State.runs_parts h).2 z hz.1).2 hz.2)]
      rw [hcount])
  exact ⟨t, ht, hcomp⟩

/-- Settles O8: each instruction by the results or predicates that its warps take, the reductions by what their operation is. -/
theorem crossLane : Obligations.CrossLane := by
  unfold Obligations.CrossLane
  refine ⟨⟨fun f => ?_, fun p d a b imm m => ?_⟩, fun f s v h => execElect_compares h, fun p m pd ps s v h => ?_⟩
  · refine ⟨execBallot_computes f, execMatchLanes_computes f, ?_, fun hty => ⟨?_, ?_⟩, ?_, ?_, ?_⟩
    · exact State.lred_computes (op := fun _ x y => wrapN (x + y) 32) (fun _ => rfl) fun v a ha =>
        Lot.reduced_of_start (fun x hx => by unfold wrapN; omega) (List.ne_nil_of_mem (View.mem_mates ha))
    · exact State.lred_computes (op := minTy) (fun _ => rfl) fun v a ha => by
        rw [minTy_eq]
        exact Lot.reduced_least (fun x y hx hy => Ty.toInt_injective hty x y hx hy) (View.mem_mates ha)
    · exact State.lred_computes (op := maxTy) (fun _ => rfl) fun v a ha => by
        rw [maxTy_eq]
        refine (Lot.reduced_least (fun x y hx hy e => Ty.toInt_injective hty x y hx hy (neg_injective e)) (View.mem_mates ha)).trans ?_
        exact List.foldl_ext _ _ _ fun m z _ => by simp only [leastBy, neg_lt_neg_iff]
    · exact State.lred_computes (op := fun _ x y => x &&& y) (fun _ => rfl) fun v a ha =>
        Lot.reduced_of_idem Nat.and_assoc Nat.and_comm Nat.and_self (View.mem_mates ha)
    · exact State.lred_computes (op := fun _ x y => x ||| y) (fun _ => rfl) fun v a ha =>
        Lot.reduced_of_start (fun x _ => Nat.zero_or x) (List.ne_nil_of_mem (View.mem_mates ha))
    · exact State.lred_computes (op := fun _ x y => x ^^^ y) (fun _ => rfl) fun v a ha =>
        Lot.reduced_of_start (fun x _ => Nat.zero_xor x) (List.ne_nil_of_mem (View.mem_mates ha))
  · intro src take
    have hsrc : ∀ l k, shflSource m l k = src l k := fun l k => shflSource_eq m l k
    exact ⟨by simpa only [hsrc] using execShfl_computes p d a b m, by simpa only [hsrc] using execShflImm_computes p d a imm m⟩
  · obtain ⟨t, ht, hcomp⟩ := execVote_compares (m := m) (pd := pd) (ps := ps) h
    exact ⟨t, ht, State.compared_congr (fun a _ => by cases m <;> rfl) hcomp⟩

end Sys2Proof.Machine
end

section
/-! Laws of issue (03_issue.md R85; 05_encoding.md R130): the address of a memory operand, what each request leaves in the list of accesses,
the counters that rise, and the frame in which a memory instruction sends one access for each participant. -/

namespace Sys2Proof.Machine

/-! ### Addresses -/

theorem sextI_eq_toInt (x n : Nat) (hn : 0 < n) : sextI x n = (BitVec.ofNat n x).toInt := by
  obtain ⟨n, rfl⟩ := Nat.exists_eq_add_of_lt hn
  have hp : 2 ^ (0 + n + 1) = 2 * 2 ^ n := by rw [Nat.zero_add, pow_succ, Nat.mul_comm]
  unfold sextI
  rw [BitVec.toInt_eq_toNat_cond, BitVec.toNat_ofNat, show 0 + n + 1 - 1 = n by omega]
  by_cases h : x % 2 ^ (0 + n + 1) < 2 ^ n
  · rw [if_pos h, if_pos (by omega)]
  · rw [if_neg h, if_neg (by omega)]
    push_cast
    rfl

theorem sextN_eq_signExtend (x n m : Nat) (hn : 0 < n) : sextN x n m = ((BitVec.ofNat n x).signExtend m).toNat := by
  unfold sextN wrapI
  rw [sextI_eq_toInt x n hn, BitVec.signExtend, BitVec.toNat_ofInt]
  push_cast
  rfl

/-- A displacement as a 64-bit number stands for the address of R130 with the signed displacement of the same residue. -/
theorem View.addr_eq_dataAddr (v : View) (a : Agent) (r : BitVec 7) (sp : Space) {n : Nat} {disp : Int}
    (h : (n : Int) % 2 ^ 64 = disp % 2 ^ 64) : v.l.addr a r sp n = v.dataAddr a r sp disp := by
  unfold Lot.addr View.dataAddr wrapN
  by_cases hsp : sp = .l
  · rw [if_pos (beq_iff_eq.mpr hsp), if_pos hsp]
    omega
  · rw [if_neg (by simpa using hsp), if_neg hsp, sextN_eq_signExtend _ _ _ (by decide)]
    refine congrArg (fun x => (BitVec.signExtend 80 (BitVec.ofNat 64 x)).toNat) ?_
    omega

theorem toInt_mod_two_pow {n : Nat} (d : BitVec n) : (d.toNat : Int) % 2 ^ n = d.toInt % 2 ^ n := by
  rw [BitVec.toInt_eq_toNat_bmod]
  exact (Int.bmod_emod ..).symm

theorem dispVal_d32 (d : BitVec 32) : ((dispVal (some (.d32 d)) : Nat) : Int) % 2 ^ 64 = d.toInt % 2 ^ 64 := by
  have h : sextN d.toNat 32 64 = (d.toInt % 2 ^ 64).toNat := by
    unfold sextN wrapI
    rw [sextI_eq_toInt _ _ (by decide), BitVec.ofNat_toNat, BitVec.setWidth_eq]
  show ((sextN d.toNat 32 64 : Nat) : Int) % 2 ^ 64 = _
  rw [h]
  omega

theorem dispVal_d64 (d : BitVec 64) : ((dispVal (some (.d64 d)) : Nat) : Int) % 2 ^ 64 = d.toInt % 2 ^ 64 := toInt_mod_two_pow d

/-! ### Requests -/

/-- The fences and the access of one request (R180, R187, R224). -/
def State.sendReq (s : State) (v : View) (proto : Acc) (r : Req) : State :=
  let t : LaneId := ⟨v.i.core, v.i.bctx, r.t.w, r.t.l⟩
  let cell := proto.kind == .bid || proto.kind == .recycle || proto.kind == .close
  let s := if cell || proto.order == .rel || proto.order == .ar then s.startFence t .rel (if cell then .pkg else proto.scope) else s
  let s := s.issueOne proto r
  if cell || proto.order == .acq || proto.order == .ar then s.startFence t .acq (if cell then .pkg else proto.scope) else s

theorem State.issueAll_eq (s : State) (v : View) (proto : Acc) (reqs : List Req) :
    s.issueAll v proto reqs =
      let s := (reqs.foldl (fun s r => s.sendReq v proto r) s).useReserve ((reqs.map (fun r => r.va / 128)).eraseDups).length
      if proto.kind.uncounted then s
      else s.countUp v.i.core v.i.bctx (if proto.hasResult then 0 else 1) (reqs.map (fun r => r.t)) := rfl

/-- What the access of a request carries. -/
def Req.sent (proto : Acc) (r : Req) : Sent :=
  ⟨⟨proto.t.core, proto.t.bctx, r.t.w, r.t.l⟩, proto.kind, proto.sp, r.va, proto.size, r.data, r.cmp, proto.dst, proto.phase⟩

/-- A state with other accesses, fences and a later fresh identifier. -/
def State.withSent (s : State) (n : Nat) (fs : List FenceRec) (xs : List Acc) : State := { s with nextId := n, fences := fs, accs := xs }

theorem State.startFence_eq (s : State) (t : LaneId) (k : FenceKind) (sc : Scope) :
    ∃ n fs, s.startFence t k sc = s.withSent n fs s.accs := ⟨_, _, rfl⟩

theorem State.startFence_if_eq (s : State) (q : Bool) (t : LaneId) (k : FenceKind) (sc : Scope) :
    ∃ n fs, (if q then s.startFence t k sc else s) = s.withSent n fs s.accs := by
  cases q
  · exact ⟨s.nextId, s.fences, rfl⟩
  · exact s.startFence_eq t k sc

theorem State.issueOne_eq (s : State) (proto : Acc) (r : Req) :
    ∃ n a, s.issueOne proto r = s.withSent n s.fences (s.accs ++ [a]) ∧ a.sent = r.sent proto := ⟨_, _, rfl, rfl⟩

theorem State.sendReq_eq (s : State) (v : View) (proto : Acc) (r : Req) :
    ∃ n fs a, s.sendReq v proto r = s.withSent n fs (s.accs ++ [a]) ∧ a.sent = r.sent proto := by
  unfold State.sendReq
  dsimp only
  obtain ⟨n₁, fs₁, h₁⟩ := s.startFence_if_eq (proto.kind == .bid || proto.kind == .recycle || proto.kind == .close || proto.order == .rel
    || proto.order == .ar) ⟨v.i.core, v.i.bctx, r.t.w, r.t.l⟩ .rel
    (if proto.kind == .bid || proto.kind == .recycle || proto.kind == .close then .pkg else proto.scope)
  rw [h₁]
  obtain ⟨n₂, a, h₂, ha⟩ := (s.withSent n₁ fs₁ s.accs).issueOne_eq proto r
  rw [h₂]
  obtain ⟨n₃, fs₃, h₃⟩ := ((s.withSent n₁ fs₁ s.accs).withSent n₂ fs₁ (s.accs ++ [a])).startFence_if_eq
    (proto.kind == .bid || proto.kind == .recycle || proto.kind == .close || proto.order == .acq || proto.order == .ar)
    ⟨v.i.core, v.i.bctx, r.t.w, r.t.l⟩ .acq
    (if proto.kind == .bid || proto.kind == .recycle || proto.kind == .close then .pkg else proto.scope)
  exact ⟨n₃, fs₃, a, h₃, ha⟩

theorem State.foldl_sendReq (s : State) (v : View) (proto : Acc) (reqs : List Req) :
    ∃ n fs new, reqs.foldl (fun s r => s.sendReq v proto r) s = s.withSent n fs (s.accs ++ new)
      ∧ new.map Acc.sent = reqs.map (Req.sent proto) := by
  induction reqs generalizing s with
  | nil => exact ⟨s.nextId, s.fences, [], by simp [State.withSent], rfl⟩
  | cons r reqs ih =>
    obtain ⟨n₁, fs₁, a, h₁, ha⟩ := s.sendReq_eq v proto r
    obtain ⟨n₂, fs₂, new, h₂, hnew⟩ := ih (s.withSent n₁ fs₁ (s.accs ++ [a]))
    refine ⟨n₂, fs₂, a :: new, ?_, by rw [List.map_cons, List.map_cons, ha, hnew]⟩
    rw [List.foldl_cons, h₁, h₂]
    simp [State.withSent]

theorem State.useReserve_eq (s : State) (n : Nat) : s.useReserve n = { s with running := (s.useReserve n).running } := by
  unfold State.useReserve
  split <;> rfl

/-! ### Counters (R85) -/

/-- Raising a counter of the warps of a list, none twice, changes the warps of the lot alone. -/
theorem State.foldl_bump {s : State} {c b : Nat} {l : Lot} (hl : s.lot? c b = some l) (cls : Nat) {ws : List Nat} (hws : ws.Nodup) :
    ∃ l', (ws.foldl (fun s w => s.onWarp c b w (fun x => x.bump cls)) s).lot? c b = some l' ∧ l' = { l with warps := l'.warps }
      ∧ (∀ w, l'.warp w = if w ∈ ws then (l.warp w).bump cls else l.warp w)
      ∧ ws.foldl (fun s w => s.onWarp c b w (fun x => x.bump cls)) s
        = { s with lots := (ws.foldl (fun s w => s.onWarp c b w (fun x => x.bump cls)) s).lots } := by
  induction ws generalizing s l with
  | nil => exact ⟨l, hl, rfl, fun w => by simp, rfl⟩
  | cons w ws ih =>
    obtain ⟨hw, hws⟩ := List.nodup_cons.mp hws
    have hs : s.onWarp c b w (fun x => x.bump cls) = s.setLot c b (l.setWarp w ((l.warp w).bump cls)) := State.onLot_of_lot hl _
    obtain ⟨l', hl', he, hwarp, hk⟩ := ih (State.lot?_setLot s c b (l.setWarp w ((l.warp w).bump cls))) hws
    rw [List.foldl_cons, hs]
    refine ⟨l', hl', he.trans rfl, fun x => ?_, hk⟩
    rw [hwarp x]
    by_cases hx : x = w
    · subst hx; simp [hw]
    · rw [Lot.warp_setWarp_other _ _ _ _ hx]; simp [hx]

/-- A counter of the home warps of a list of agents rises once for each, and nothing else changes (R85). -/
theorem State.countUp_counts {s : State} {c b : Nat} {l : Lot} (hl : s.lot? c b = some l) (cls : Nat) (as : List Agent) :
    ∃ l', (s.countUp c b cls as).lot? c b = some l' ∧ l' = { l with warps := l'.warps }
      ∧ (∀ w, l'.warp w = if w ∈ as.map (fun a => a.w) then (l.warp w).bump cls else l.warp w)
      ∧ s.countUp c b cls as = { s with lots := (s.countUp c b cls as).lots } := by
  obtain ⟨l', hl', he, hwarp, hk⟩ := State.foldl_bump hl cls (nodup_eraseDups (as.map (fun a => a.w)))
  exact ⟨l', hl', he, fun w => by rw [hwarp w]; simp only [List.mem_eraseDups], hk⟩

/-! ### The frame of a memory instruction -/

/-- The accesses of an instruction enter the list behind those before them, and its counter rises once for each home warp. -/
theorem State.issueAll_issued {s : State} {v : View} (hl : s.lot? v.i.core v.i.bctx = some v.l) (proto : Acc) (req : Agent → Req)
    (hreq : ∀ a, (req a).t = a) :
    s.issued (s.issueAll v proto (v.parts.map req)) v (if proto.kind.uncounted then none else some (if proto.hasResult then 0 else 1))
      (fun a => (req a).sent proto) := by
  rw [State.issueAll_eq]
  obtain ⟨n, fs, new, hsent, hnew⟩ := s.foldl_sendReq v proto (v.parts.map req)
  have hnew : new.map Acc.sent = v.parts.map (fun a => (req a).sent proto) := by rw [hnew, List.map_map]; rfl
  have hws : (v.parts.map req).map (fun r => r.t) = v.parts := by
    rw [List.map_map]; exact (List.map_congr_left fun a _ => hreq a).trans (List.map_id _)
  rw [hsent, hws]
  obtain ⟨u, hu⟩ : ∃ u, u = (s.withSent n fs (s.accs ++ new)).useReserve (((v.parts.map req).map (fun r => r.va / 128)).eraseDups).length :=
    ⟨_, rfl⟩
  dsimp only
  rw [← hu]
  rw [State.useReserve_eq] at hu
  have hlots : u.lots = s.lots := (congrArg State.lots hu).trans rfl
  have haccs : u.accs = s.accs ++ new := (congrArg State.accs hu).trans rfl
  have hm : u.m = s.m := (congrArg State.m hu).trans rfl
  have hul : u.lot? v.i.core v.i.bctx = some v.l := (State.lot?_of_lots hlots _ _).trans hl
  by_cases hk : proto.kind.uncounted = true
  · rw [if_pos hk, if_pos hk]
    exact ⟨⟨new, haccs, hnew⟩, ⟨v.l, hul, rfl, fun _ => rfl⟩, hm⟩
  · rw [if_neg hk, if_neg hk]
    obtain ⟨l', hl', he, hwarp, hcount⟩ := State.countUp_counts hul (if proto.hasResult then 0 else 1) v.parts
    exact ⟨⟨new, (congrArg State.accs hcount).trans haccs, hnew⟩, ⟨l', hl', he, hwarp⟩, (congrArg State.m hcount).trans hm⟩

theorem State.issued_congr {s t : State} {v : View} {cls cls' : Option Nat} {f g : Agent → Sent} (h : s.issued t v cls f) (hcls : cls = cls')
    (hfg : ∀ a ∈ v.parts, f a = g a) : s.issued t v cls' g := by
  subst hcls
  obtain ⟨⟨new, hacc, hnew⟩, hrest⟩ := h
  exact ⟨⟨new, hacc, hnew.trans (List.map_congr_left hfg)⟩, hrest⟩

/-- A memory instruction sends one access for each participant. -/
theorem State.memOp_issued {s : State} {v : View} {p : BitVec 3} {uses : List Use} (h : s.runs v p true true uses) (i : Instr)
    (req : Lot → Agent → Req) (hreq : ∀ l a, (req l a).t = a) {cls : Option Nat} {sent : Agent → Sent}
    (hcls : (if (protoFor v s.nextId i).kind.uncounted then none else some (if (protoFor v s.nextId i).hasResult then 0 else 1)) = cls)
    (hsent : ∀ a, (req v.l a).sent (protoFor v s.nextId i) = sent a) :
    ∃ t, s.memOp uses p i req = .next t ∧ s.issued t v cls sent := by
  obtain ⟨-, hl, -⟩ := State.view_eq h.1
  refine ⟨_, State.instr_runs h _, ?_⟩
  exact State.issued_congr (State.issueAll_issued (s := s.fresh.2) hl (protoFor v s.nextId i) (req v.l) (hreq v.l)) hcls (fun a _ => hsent a)

end Sys2Proof.Machine
end

section
/-! The memory instructions send what their entries say (O18), and so do the cell, place and cache instructions (O19). -/

namespace Sys2Proof.Machine

/-! ### LD, ST, ATOM and RED -/

/-- A load, with or without a displacement, sends its reads. -/
theorem State.load_issued {s : State} {v : View} {f : FmtM3} (h : s.runs v f.p true true [useAddr f.a f.sp, useW f.d (szTy f.sz).bits])
    (d : Option Disp) (i : Instr) (hi : ∀ op, protoFor v op i = protoAcc v op .ld (encode i) f.sp (if f.sp == .l then 0 else f.flow.toNat)
      ((szTy f.sz).bits / 8) (some (f.d.toNat, szTy f.sz))) {disp : Int} (hd : (dispVal d : Int) % 2 ^ 64 = disp % 2 ^ 64) :
    ∃ t, s.load f d i = .next t ∧ s.issued t v (some 0) (fun a =>
      ⟨⟨v.i.core, v.i.bctx, a.w, a.l⟩, .ld, f.sp, v.dataAddr a f.a f.sp disp, (szTy f.sz).bits / 8, 0, 0, some (f.d.toNat, szTy f.sz), .walk⟩) := by
  refine State.memOp_issued h i _ (fun _ _ => rfl) (by rw [hi]; rfl) (fun a => ?_)
  rw [hi, ← View.addr_eq_dataAddr v a f.a f.sp hd]
  rfl

/-- A store, with or without a displacement, sends its writes. -/
theorem State.store_issued {s : State} {v : View} {f : FmtM3} (h : s.runs v f.p true true [useAddr f.a f.sp, useW f.d (szTy f.sz).bits])
    (d : Option Disp) (i : Instr) (hi : ∀ op, protoFor v op i = protoAcc v op .st (encode i) f.sp (if f.sp == .l then 0 else f.flow.toNat)
      ((szTy f.sz).bits / 8) none) {disp : Int} (hd : (dispVal d : Int) % 2 ^ 64 = disp % 2 ^ 64) :
    ∃ t, s.store f d i = .next t ∧ s.issued t v (some 1) (fun a =>
      ⟨⟨v.i.core, v.i.bctx, a.w, a.l⟩, .st, f.sp, v.dataAddr a f.a f.sp disp, (szTy f.sz).bits / 8,
        v.l.val a f.d (szTy f.sz).bits, 0, none, .walk⟩) := by
  refine State.memOp_issued h i _ (fun _ _ => rfl) (by rw [hi]; rfl) (fun a => ?_)
  rw [hi, ← View.addr_eq_dataAddr v a f.a f.sp hd]
  rfl

theorem atomResult_iff (f : FmtAt) : atomResult f = true ↔ f.d ≠ 0 ∨ f.op = .cas := by simp [atomResult]

/-- The request of an atomic: the comparand is C under CAS alone. -/
def Req.atomic (f : FmtAt) (l : Lot) (a : Agent) : Req :=
  ⟨a, l.addr a f.a f.sp 0, l.val a f.b f.ty.bits, if f.op == .cas then l.val a f.c f.ty.bits else 0⟩

theorem Req.sent_atomic (v : View) (f : FmtAt) (a : Agent) (proto : Acc) (ht : proto.t = ⟨v.i.core, v.i.bctx, 0, 0⟩) (hsp : proto.sp = f.sp)
    (hsize : proto.size = f.ty.bits / 8) (hphase : proto.phase = .walk) :
    (Req.atomic f v.l a).sent proto
      = ⟨⟨v.i.core, v.i.bctx, a.w, a.l⟩, proto.kind, f.sp, v.l.addr a f.a f.sp 0, f.ty.bits / 8, v.l.val a f.b f.ty.bits,
          if f.op = .cas then v.l.val a f.c f.ty.bits else 0, proto.dst, .walk⟩ := by
  simp only [Req.sent, Req.atomic, ht, hsp, hsize, hphase, beq_iff_eq]

/-- ATOM has a result where D is not v0 or the operation is CAS, and then counts in LD. -/
theorem execAtom_issued {s : State} {v : View} {f : FmtAt} (r : Bool) (hr : atomResult f = r)
    (h : s.runs v f.p true true ([use2 f.a, useW f.b f.ty.bits] ++ (if r then [useW f.d f.ty.bits] else [])
      ++ (if f.op == .cas then [useW f.c f.ty.bits] else []))) :
    ∃ t, execAtom f s = .next t ∧ s.issued t v (some (if r then 0 else 1)) (fun a =>
      ⟨⟨v.i.core, v.i.bctx, a.w, a.l⟩, .atom, f.sp, v.l.addr a f.a f.sp 0, f.ty.bits / 8, v.l.val a f.b f.ty.bits,
        if f.op = .cas then v.l.val a f.c f.ty.bits else 0, if r then some (f.d.toNat, rawTy f.ty.bits) else none, .walk⟩) := by
  subst hr
  refine State.memOp_issued h (.atom f) (Req.atomic f) (fun _ _ => rfl) ?_ (fun a => Req.sent_atomic v f a (protoFor v s.nextId (.atom f)) rfl rfl rfl rfl)
  show some (if (if atomResult f then some (f.d.toNat, rawTy f.ty.bits) else none).isSome then 0 else 1) = _
  cases atomResult f <;> rfl

theorem execRed_issued {s : State} {v : View} {f : FmtAt} (h : s.runs v f.p true true ([use2 f.a, useW f.b f.ty.bits] ++ []
      ++ (if f.op == .cas then [useW f.c f.ty.bits] else []))) :
    ∃ t, execRed f s = .next t ∧ s.issued t v (some 1) (fun a =>
      ⟨⟨v.i.core, v.i.bctx, a.w, a.l⟩, .red, f.sp, v.l.addr a f.a f.sp 0, f.ty.bits / 8, v.l.val a f.b f.ty.bits,
        if f.op = .cas then v.l.val a f.c f.ty.bits else 0, none, .walk⟩) :=
  State.memOp_issued h (.red f) (Req.atomic f) (fun _ _ => rfl) rfl
    (fun a => Req.sent_atomic v f a (protoFor v s.nextId (.red f)) rfl rfl rfl rfl)

/-- Settles O18: each memory instruction runs in one frame, which sends the requests of its participants in order and raises one
counter once for each home warp. -/
theorem accessesIssue : Obligations.AccessesIssue := by
  refine ⟨fun s v f => ?_, fun s v f => ?_⟩
  · intro n uses lane ld st h
    exact ⟨State.load_issued h none (.ld f) (fun _ => rfl) rfl,
      fun d => State.load_issued h _ (.ldDisp f (.d32 d)) (fun _ => rfl) (dispVal_d32 d),
      fun d => State.load_issued h _ (.ldDisp f (.d64 d)) (fun _ => rfl) (dispVal_d64 d),
      State.store_issued h none (.st f) (fun _ => rfl) rfl,
      fun d => State.store_issued h _ (.stDisp f (.d32 d)) (fun _ => rfl) (dispVal_d32 d),
      fun d => State.store_issued h _ (.stDisp f (.d64 d)) (fun _ => rfl) (dispVal_d64 d)⟩
  · intro n result uses sent
    refine ⟨fun h => ⟨fun hr => ?_, fun hr => ?_⟩, fun h => execRed_issued h⟩
    · have hr := (atomResult_iff f).mpr hr
      rw [hr] at h
      exact execAtom_issued true hr h
    · have hr := Bool.eq_false_iff.mpr (fun hf => hr ((atomResult_iff f).mp hf))
      rw [hr] at h
      exact execAtom_issued false hr h

/-! ### Cells, places, cache operations, TQ and `%lotdone` -/

/-- A request at the address of a register, without data. -/
def Req.at (r : BitVec 7) (sp : Space) (l : Lot) (a : Agent) : Req := ⟨a, l.addr a r sp 0, 0, 0⟩

/-- A word of a bid quad, as the statement of BID writes it. -/
theorem Lot.bidWord_eq (l : Lot) (a : Agent) (r : BitVec 7) (i : Nat) :
    l.bidWord a r i = if a.isBarker then (l.sreg (r.toNat + i)).toNat % 2 ^ 32 else (l.vreg a.w (r.toNat + i) a.l).toNat := by
  unfold Lot.bidWord
  rw [BitVec.toNat_setWidth]

/-- SRD of %lotdone sends one read of 4 bytes for each participant. -/
theorem execSrd_lotdone_issued {s : State} {v : View} {p : BitVec 3} {d : BitVec 7} (h : s.runs v p true true [use1 d]) :
    ∃ t, execSrd p d .lotdone s = .next t ∧ s.issued t v (some 0) (fun x =>
      ⟨⟨v.i.core, v.i.bctx, x.w, x.l⟩, .lotdone, .g, 0, 4, 0, 0, some (d.toNat, .b32), .walk⟩) := by
  obtain ⟨-, hl, -⟩ := State.view_eq h.1
  refine ⟨s.fresh.2.issueAll v (protoAcc v s.nextId .lotdone (encode (.srd p d .lotdone)) .g 0 4 (some (d.toNat, .b32)))
    (v.parts.map (fun a => ⟨a, 0, 0, 0⟩)), State.instr_runs h _, ?_⟩
  exact State.issueAll_issued (s := s.fresh.2) hl (protoAcc v s.nextId .lotdone (encode (.srd p d .lotdone)) .g 0 4 (some (d.toNat, .b32)))
    (fun a => ⟨a, 0, 0, 0⟩) (fun _ => rfl)

/-- Settles O19: the same frame, with the kind, size, data and destination that each instruction gives its requests. -/
theorem cellsPlacesAndCacheOpsIssue : Obligations.CellsPlacesAndCacheOpsIssue := by
  refine ⟨fun s v p d a b => ?_, fun s v => ?_⟩
  · intro sent word
    refine ⟨fun h => State.memOp_issued h (.bid p d a b) (fun l t => ⟨t, l.addr t a .g 0, l.bidQuad t b, 0⟩) (fun _ _ => rfl) rfl fun x => ?_,
      fun h => State.memOp_issued h (.peek p d a) (Req.at a .g) (fun _ _ => rfl) rfl fun _ => rfl,
      fun h => ⟨State.memOp_issued h (.recycle p d a) (Req.at a .g) (fun _ _ => rfl) rfl fun _ => rfl,
        State.memOp_issued h (.close p d a) (Req.at a .g) (fun _ _ => rfl) rfl fun _ => rfl⟩⟩
    simp only [Req.sent, Lot.bidQuad, Lot.bidWord_eq]
    rfl
  · intro lane
    refine ⟨fun f h => ⟨State.memOp_issued h (.rsend f) (fun l a => ⟨a, l.val a f.a 32, l.val a f.d (szTy f.sz).bits, 0⟩) (fun _ _ => rfl) rfl fun _ => rfl,
        State.memOp_issued h (.rfetch f) (fun l a => ⟨a, l.val a f.a 32, 0, 0⟩) (fun _ _ => rfl) rfl fun _ => rfl⟩, fun f => ?_,
      fun p d a table => ⟨fun h => State.memOp_issued h (.tq p d a table) (fun l t => ⟨t, l.val t a 32, 0, 0⟩) (fun _ _ => rfl) rfl fun _ => rfl,
        execSrd_lotdone_issued⟩⟩
    intro sent
    exact ⟨fun h => ⟨State.memOp_issued h (.cflush f) (Req.at f.a f.sp) (fun _ _ => rfl) rfl fun _ => rfl,
        State.memOp_issued h (.cinv f) (Req.at f.a f.sp) (fun _ _ => rfl) rfl fun _ => rfl,
        State.memOp_issued h (.cdisc f) (Req.at f.a f.sp) (fun _ _ => rfl) rfl fun _ => rfl,
        State.memOp_issued h (.cpref f) (Req.at f.a f.sp) (fun _ _ => rfl) rfl fun _ => rfl⟩,
      fun h => State.memOp_issued h (.cinvDiscard f) (Req.at f.a f.sp) (fun _ _ => rfl) rfl fun _ => rfl⟩

end Sys2Proof.Machine
end

section
/-! Laws of part of a run that parks, and of waiters that wake while everything else stays (03_issue.md R67, R73, R75, R81, R82). -/

namespace Sys2Proof.Machine

/-! ### Rest -/

/-- A park that ends by another agent's act alone, and holds its thread whatever stop it has to take. -/
def Park.holds (p : Park) : Bool :=
  match p with
  | .clauseStart _ | .waitc _ | .debug => false
  | _ => true

theorem Lot.rests_of_holds {l : Lot} {a : Agent} {p : Park} (hst : (l.thr a).st = .parked p) (hp : p.holds = true) : l.rests a := by
  unfold Lot.rests
  rw [hst]
  cases p with
  | clauseStart | waitc | debug => exact absurd hp Bool.false_ne_true
  | _ => rfl

theorem Lot.rests_congr {l m : Lot} {a : Agent} (hthr : m.thr a = l.thr a) (hmeets : (m.warp a.w).meets = (l.warp a.w).meets)
    (h : l.rests a) : m.rests a := by
  unfold Lot.rests at h ⊢
  rw [hthr, hmeets]
  exact h

/-- A core stays still where one of its lots alone changes, and its threads go on to rest. -/
theorem State.still_of_others {s t : State} {c b : Nat} {l l' : Lot} (h : s.still c) (hl : s.lot? c b = some l) (hl' : t.lot? c b = some l')
    (hothers : ∀ c' b', lotKey c' b' ≠ lotKey c b → t.lot? c' b' = s.lot? c' b')
    (hrests : ∀ a ∈ l'.allAgents, a ∈ l.allAgents ∧ (l.rests a → l'.rests a)) : t.still c := by
  intro b' m hb' hm a ha
  by_cases hbb : b' = b
  · subst hbb
    rw [hl', Option.some.injEq] at hm
    subst hm
    obtain ⟨hin, hrest⟩ := hrests a ha
    exact hrest (h b' l hb' hl a hin)
  · rw [hothers c b' (by unfold lotKey; omega)] at hm
    exact h b' m hb' hm a ha

/-! ### Part of a run parks -/

/-- Agents leave a run on a still core: only the run changes, and it ends where none is left. -/
theorem State.leave_still {s : State} {i : Issuer} (hi : s.issuer? s.active = some i) (h : s.still i.core) (as : List Agent) :
    ∃ r, s.leave as = s.setIssuer s.active r ∧ ((∀ a ∈ i.agents, a ∈ as) → r = none) := by
  by_cases hall : ∀ a ∈ i.agents, a ∈ as
  · exact ⟨none, State.leave_all hi h hall, fun _ => rfl⟩
  · refine ⟨some { i with agents := i.agents.filter (fun a => !as.contains a) }, ?_, fun h => absurd h hall⟩
    unfold State.leave
    rw [hi]
    refine if_neg fun hempty => hall fun a ha => ?_
    have := List.filter_eq_nil_iff.mp (List.isEmpty_iff.mp hempty) a ha
    simpa using this

theorem Lot.foldl_park {l : Lot} (hend : l.ending = false) (as : List Agent) (p : Park) (pc : VAddr) :
    (as.map (fun a => (a, p))).foldl (fun l e =>
      if l.ending then l.setThr e.1 { l.thr e.1 with st := .stopped, stop := none, target := none } else l.park e.1 e.2 pc) l
      = as.foldl (fun l a => l.setThr a ((l.thr a).parkedAt p pc)) l := by
  rw [List.foldl_map]
  induction as generalizing l with
  | nil => rfl
  | cons a as ih =>
    rw [List.foldl_cons, List.foldl_cons, hend, if_neg Bool.false_ne_true, Lot.park_eq]
    exact ih hend

/-- Agents of a run park in one park at the following header; the run goes on without them. -/
theorem State.parkAll_holds {s : State} {i : Issuer} {l : Lot} {as : List Agent} {p : Park} (hi : s.issuer? s.active = some i)
    (hl : s.lot? i.core i.bctx = some l) (hend : l.ending = false) (hstill : s.still i.core) (hnodup : as.Nodup)
    (hlane : ∀ a ∈ as, a.l < 32) (hp : p.holds = true) :
    ∃ l' r, s.parkAll (as.map (fun a => (a, p))) = (s.setLot i.core i.bctx l').setIssuer s.active r ∧ l' = { l with threads := l'.threads }
      ∧ ∀ a : Agent, a.l < 32 → l'.thr a = if a ∈ as then (l.thr a).parkedAt p i.next else l.thr a := by
  obtain ⟨hframe, hthr⟩ := Lot.foldl_setThr as (fun l a => (l.thr a).parkedAt p i.next) (fun _ t => t.parkedAt p i.next) l hnodup hlane
    (fun _ _ _ _ => rfl)
  generalize hl' : as.foldl (fun l a => l.setThr a ((l.thr a).parkedAt p i.next)) l = l' at hframe hthr
  have hallAgents : l'.allAgents = l.allAgents := by rw [hframe]; rfl
  have hwarp : ∀ w, l'.warp w = l.warp w := fun w => by rw [hframe]; rfl
  have hstill' : (s.setLot i.core i.bctx l').still i.core := by
    refine State.still_of_others hstill hl (State.lot?_setLot ..) (fun _ _ h => State.lot?_setLot_other _ _ _ _ _ _ h) fun a ha => ?_
    rw [hallAgents] at ha
    refine ⟨ha, fun hrest => ?_⟩
    have hat := hthr a (Lot.lane_lt ha)
    by_cases hin : a ∈ as
    · rw [if_pos hin] at hat
      exact Lot.rests_of_holds (by rw [hat]; rfl) hp
    · rw [if_neg hin] at hat
      exact Lot.rests_congr hat (by rw [hwarp]) hrest
  obtain ⟨r, hleave, -⟩ := State.leave_still (s := s.setLot i.core i.bctx l') hi hstill' as
  refine ⟨l', r, ?_, hframe, hthr⟩
  have hnames : (as.map (fun a => (a, p))).map (fun e => e.1) = as := by rw [List.map_map]; exact List.map_id as
  unfold State.parkAll
  rw [hi]
  dsimp only
  rw [hl]
  simp only [Option.map_some, Option.getD_some, hend, Bool.false_eq_true, if_false]
  rw [State.onLot_of_lot hl, Lot.foldl_park hend, hl', hnames, hleave]
  refine State.takeStops_none fun m hm a ha => .inl ?_
  have hm : (s.setLot i.core i.bctx l').lot? i.core i.bctx = some m := hm
  rw [State.lot?_setLot, Option.some.injEq] at hm
  rw [← hm]
  refine State.standsAt_parked (p := p) (by rw [hthr a (hlane a ha), if_pos ha]; rfl) ?_
  cases p with
  | clauseStart | waitc | debug => exact absurd hp Bool.false_ne_true
  | _ => rfl

/-! ### The barker that waits for room -/

/-- Room in the decision queue concerns the barker that waits for it alone. -/
theorem State.dqRoom_barker {s : State} {c b : Nat} {l : Lot} (hl : s.lot? c b = some l) (hend : l.ending = false)
    (hplain : (l.thr Agent.barker).st.isParked = true → (l.thr Agent.barker).plain) :
    ∃ l', s.OnPlace (s.dqRoom c b) c b ∧ (s.dqRoom c b).lot? c b = some l' ∧ l' = { l with threads := l'.threads }
      ∧ (∀ x : Agent, x.l < 32 → x ≠ Agent.barker → l'.thr x = l.thr x)
      ∧ ∀ n, (l.thr Agent.barker).st = .parked (.dqfull n) → l.dqFill < 64 → (l'.thr Agent.barker).st = .ready := by
  unfold State.dqRoom
  rw [hl]
  dsimp only
  split
  · next n hst =>
    split
    · obtain ⟨l', n, hplace, hl', hframe, hthr⟩ := State.wakeAll_onPlace hl hend (List.nodup_singleton Agent.barker)
        (by simpa using Lot.barker_lane_lt) (by simpa using hplain (by rw [hst]; rfl))
      refine ⟨l', hplace, hl', hframe, fun x hx hne => ?_, fun _ _ _ => ?_⟩
      · rw [hthr x hx, if_neg (by simpa using hne)]
      · rw [hthr _ Lot.barker_lane_lt, if_pos (List.mem_singleton.mpr rfl)]
        rfl
    · next hfull =>
      exact ⟨l, State.OnPlace.refl s c b, hl, rfl, fun _ _ _ => rfl, fun _ _ h => absurd h hfull⟩
  · next hst =>
    exact ⟨l, State.OnPlace.refl s c b, hl, rfl, fun _ _ _ => rfl, fun n h => absurd h (hst n)⟩

end Sys2Proof.Machine
end

section
/-! The decision queue between the barker and the threads (03_issue.md R81; 15_ref_d_i.md R364 to R366; O15). -/

namespace Sys2Proof.Machine

/-! ### DQPUSH -/

/-- The destination of an agent that waits for an entry of the queue. -/
def Lot.dqDst (l : Lot) (i : BitVec 16) (a : Agent) : Option Nat :=
  match (l.thr a).st with
  | .parked (.dq d) => if (l.thr a).cursor = i then some d else none
  | _ => none

/-- An agent that waits for an entry receives it. -/
def Lot.dqGive (dst : Agent → Option Nat) (v : Word) (l : Lot) (a : Agent) : Lot :=
  match dst a with
  | some d => (if l.inRange a d 1 then l.setVreg a.w d a.l v else l).setThr a { l.thr a with cursor := (l.thr a).cursor + 1 }
  | none => l

/-- The queue with an entry more. -/
def Lot.dqPut (l : Lot) (v : Word) : Lot := { l with dq := Tbl.put 0 l.dq (l.dqP.toNat % 64) v, dqP := l.dqP + 1 }

theorem State.dqPush_eq {s : State} {c b : Nat} {l : Lot} (hl : s.lot? c b = some l) (v : Word) :
    s.dqPush c b v =
      let ws := l.agents.filter (fun a => (l.dqDst l.dqP a).isSome)
      ((s.setLot c b (ws.foldl (Lot.dqGive (l.dqDst l.dqP) v) (l.dqPut v))).acquireFrom c b ws (fun a => a.isBarker)).wakeAll c b ws := by
  unfold State.dqPush
  rw [hl]
  rfl

theorem Lot.dqDst_eq_some {l : Lot} {i : BitVec 16} {a : Agent} {d : Nat} :
    l.dqDst i a = some d ↔ (l.thr a).st = .parked (.dq d) ∧ (l.thr a).cursor = i := by
  unfold Lot.dqDst
  split
  · next e hst =>
    rw [hst]
    by_cases hc : (l.thr a).cursor = i <;> simp [hc]
  · next hst =>
    exact ⟨fun h => by simp at h, fun h => absurd h.1 (hst d)⟩

theorem Lot.vreg_setVreg_keeps (l : Lot) (w r i w' r' i' : Nat) (v : Word) (h : l.vreg w r i = v) : (l.setVreg w' r' i' v).vreg w r i = v := by
  unfold Lot.vreg Lot.setVreg
  rw [Tbl.get_put]
  split
  · rfl
  · exact h

/-- The agents of a list receive an entry, one after another. -/
theorem Lot.foldl_dqGive (dst : Agent → Option Nat) (v : Word) (l : Lot) (as : List Agent) (hnodup : as.Nodup)
    (hlane : ∀ a ∈ as, a.l < 32) (hdst : ∀ a ∈ as, (dst a).isSome = true) :
    let m := as.foldl (Lot.dqGive dst v) l
    m = { l with vregs := m.vregs, threads := m.threads }
      ∧ (∀ x : Agent, x.l < 32 → m.thr x = if x ∈ as then { l.thr x with cursor := (l.thr x).cursor + 1 } else l.thr x)
      ∧ ∀ a ∈ as, ∀ d, dst a = some d → l.inRange a d 1 = true → m.vreg a.w d a.l = v := by
  induction as using List.reverseRecOn with
  | nil => exact ⟨rfl, fun _ _ => by simp, by simp⟩
  | append_singleton as a ih =>
    obtain ⟨hframe, hthr, hreg⟩ := ih (List.Nodup.of_append_left hnodup) (fun b hb => hlane b (by simp [hb])) (fun b hb => hdst b (by simp [hb]))
    have hfresh : a ∉ as := fun ha => by
      rw [List.nodup_append] at hnodup
      exact hnodup.2.2 a ha a (by simp) rfl
    have hal := hlane a (by simp)
    obtain ⟨d, hd⟩ := Option.isSome_iff_exists.mp (hdst a (by simp))
    simp only [List.foldl_append, List.foldl_cons, List.foldl_nil]
    generalize as.foldl (Lot.dqGive dst v) l = m at hframe hthr hreg
    have hrange : ∀ x e, m.inRange x e 1 = l.inRange x e 1 := fun x e => by rw [hframe]; rfl
    have hstep : Lot.dqGive dst v m a = (if l.inRange a d 1 then m.setVreg a.w d a.l v else m).setThr a
        { l.thr a with cursor := (l.thr a).cursor + 1 } := by
      unfold Lot.dqGive
      rw [hd, ← hrange, hthr a hal, if_neg hfresh]
    rw [hstep]
    refine ⟨?_, fun x hx => ?_, fun b hb e he hin => ?_⟩
    · rw [hframe]
      split <;> rfl
    · by_cases hxa : x = a
      · subst hxa
        rw [Lot.thr_setThr, if_pos (by simp)]
      · rw [Lot.thr_setThr_other _ _ _ _ hal hx hxa]
        have : (if l.inRange a d 1 then m.setVreg a.w d a.l v else m).thr x = m.thr x := by split <;> rfl
        rw [this, hthr x hx]
        simp [hxa]
    · show (if l.inRange a d 1 then m.setVreg a.w d a.l v else m).vreg b.w e b.l = v
      rcases List.mem_append.mp hb with hb | hb
      · have := hreg b hb e he hin
        split
        · exact Lot.vreg_setVreg_keeps _ _ _ _ _ _ _ _ this
        · exact this
      · rw [List.mem_singleton] at hb
        subst hb
        rw [hd, Option.some.injEq] at he
        subst he
        rw [if_pos hin, Lot.vreg_setVreg]

/-- A push into a queue with room: the entry is written, and every thread that waits for it receives it and wakes. -/
theorem State.dqPush_gives {s : State} {c b : Nat} {l : Lot} (hl : s.lot? c b = some l) (hend : l.ending = false) (hplain : l.waitersPlain)
    (v : Word) :
    ∃ l', s.OnPlace (s.dqPush c b v) c b ∧ (s.dqPush c b v).lot? c b = some l' ∧ l'.dqP = l.dqP + 1
      ∧ l'.dq = Tbl.put 0 l.dq (l.dqP.toNat % 64) v
      ∧ (∀ a ∈ l.agents, ∀ d, l.dqDst l.dqP a = some d →
        l.woken l' a ∧ (l'.thr a).cursor = l.dqP + 1 ∧ (l.inRange a d 1 = true → l'.vreg a.w d a.l = v))
      ∧ ∀ a : Agent, a.l < 32 → l.dqDst l.dqP a = none → l'.thr a = l.thr a := by
  rw [State.dqPush_eq hl]
  dsimp only
  generalize hws : l.agents.filter (fun a => (l.dqDst l.dqP a).isSome) = ws
  have hmem : ∀ a, a ∈ ws ↔ a ∈ l.agents ∧ (l.dqDst l.dqP a).isSome = true := fun a => by rw [← hws, List.mem_filter]
  have hnodup : ws.Nodup := by rw [← hws]; exact l.agents_nodup.filter _
  have hlane : ∀ a ∈ ws, a.l < 32 := fun a ha => Lot.waiter_lane_lt (Lot.agents_sub ((hmem a).mp ha).1)
  have hwaits : ∀ a ∈ ws, (l.thr a).plain := fun a ha => by
    obtain ⟨hin, hdst⟩ := (hmem a).mp ha
    obtain ⟨d, hd⟩ := Option.isSome_iff_exists.mp hdst
    exact hplain a (Lot.agents_sub hin) (by rw [(Lot.dqDst_eq_some.mp hd).1]; rfl)
  obtain ⟨hframe1, hthr1, hreg1⟩ := Lot.foldl_dqGive (l.dqDst l.dqP) v (l.dqPut v) ws hnodup hlane (fun a ha => ((hmem a).mp ha).2)
  generalize ws.foldl (Lot.dqGive (l.dqDst l.dqP) v) (l.dqPut v) = l1 at hframe1 hthr1 hreg1
  have hplace1 : s.OnPlace (s.setLot c b l1) c b := State.onPlace_setLot hl (by rw [hframe1]; rfl) (by rw [hframe1]; rfl)
  obtain ⟨l2, hplace2, hl2, hframe2, hthr2⟩ := State.acquireFrom_onPlace (s := s.setLot c b l1) (State.lot?_setLot ..) hnodup hlane
    (fun a => a.isBarker)
  have hend2 : l2.ending = false := by rw [hframe2, hframe1]; exact hend
  have hthr2' : ∀ x : Agent, x.l < 32 →
      ∃ os, l2.thr x = if x ∈ ws then { l.thr x with cursor := (l.thr x).cursor + 1, obs := os } else l.thr x := fun x hx => by
    obtain ⟨os, hos⟩ := hthr2 x hx
    refine ⟨os, ?_⟩
    rw [hos, hthr1 x hx]
    split <;> rfl
  obtain ⟨l', n, hplace3, hl', hframe3, hthr3⟩ := State.wakeAll_onPlace hl2 hend2 hnodup hlane (fun a ha => by
    obtain ⟨os, hos⟩ := hthr2' a (hlane a ha)
    rw [hos, if_pos ha]
    exact hwaits a ha)
  refine ⟨l', hplace1.trans (hplace2.trans hplace3), hl', by rw [hframe3, hframe2, hframe1]; rfl, by rw [hframe3, hframe2, hframe1]; rfl,
    fun a ha d hd => ?_, fun a ha hd => ?_⟩
  · have hin : a ∈ ws := (hmem a).mpr ⟨ha, by rw [hd]; rfl⟩
    obtain ⟨os, hos⟩ := hthr2' a (hlane a hin)
    have hat := hthr3 a (hlane a hin)
    rw [if_pos hin, hos, if_pos hin] at hat
    have hcursor := (Lot.dqDst_eq_some.mp hd).2
    refine ⟨⟨by rw [hat]; rfl, by rw [hat]; rfl⟩, by rw [hat, ← hcursor]; rfl, fun hrange => ?_⟩
    have := hreg1 a hin d hd hrange
    rw [hframe3, hframe2]
    exact this
  · have hout : a ∉ ws := fun h => by
      have := ((hmem a).mp h).2
      rw [hd] at this
      exact Bool.false_ne_true this
    obtain ⟨os, hos⟩ := hthr2' a ha
    rw [hthr3 a ha, if_neg hout, hos, if_neg hout]

/-! ### DQPOP -/

/-- A participant reads the entry at its cursor and advances it. -/
def Lot.dqTake (r : BitVec 7) (l : Lot) (a : Agent) : Lot :=
  (l.setVreg a.w r.toNat a.l (l.dqEntry (l.thr a).cursor)).setThr a { l.thr a with cursor := (l.thr a).cursor + 1 }

theorem Lot.foldl_dqTake (r : BitVec 7) (l : Lot) (as : List Agent) (hnodup : as.Nodup) (hlane : ∀ a ∈ as, a.l < 32) :
    let m := as.foldl (Lot.dqTake r) l
    m = { l with vregs := m.vregs, threads := m.threads }
      ∧ (∀ x : Agent, x.l < 32 → m.thr x = if x ∈ as then { l.thr x with cursor := (l.thr x).cursor + 1 } else l.thr x)
      ∧ ∀ w x i, x < 128 → i < 32 →
        m.vreg w x i = if x = r.toNat ∧ (⟨w, i⟩ : Agent) ∈ as then l.dqEntry (l.thr ⟨w, i⟩).cursor else l.vreg w x i := by
  induction as using List.reverseRecOn with
  | nil => exact ⟨rfl, fun _ _ => by simp, fun _ _ _ _ _ => by simp⟩
  | append_singleton as a ih =>
    obtain ⟨hframe, hthr, hreg⟩ := ih (List.Nodup.of_append_left hnodup) (fun b hb => hlane b (by simp [hb]))
    have hfresh : a ∉ as := fun ha => by
      rw [List.nodup_append] at hnodup
      exact hnodup.2.2 a ha a (by simp) rfl
    have hal := hlane a (by simp)
    simp only [List.foldl_append, List.foldl_cons, List.foldl_nil]
    generalize as.foldl (Lot.dqTake r) l = m at hframe hthr hreg
    have hat : m.thr a = l.thr a := by rw [hthr a hal, if_neg hfresh]
    have hentry : m.dqEntry (m.thr a).cursor = l.dqEntry (l.thr a).cursor := by rw [hat, hframe]; rfl
    unfold Lot.dqTake
    rw [hentry, hat]
    refine ⟨by rw [hframe]; rfl, fun x hx => ?_, fun w x i hx hi => ?_⟩
    · by_cases hxa : x = a
      · subst hxa
        rw [Lot.thr_setThr, if_pos (by simp)]
      · rw [Lot.thr_setThr_other _ _ _ _ hal hx hxa]
        exact (hthr x hx).trans (by simp [hxa])
    · show (m.setVreg a.w r.toNat a.l (l.dqEntry (l.thr a).cursor)).vreg w x i = _
      by_cases hkey : w = a.w ∧ x = r.toNat ∧ i = a.l
      · obtain ⟨rfl, rfl, rfl⟩ := hkey
        rw [Lot.vreg_setVreg, if_pos ⟨rfl, by simp⟩]
      · rw [Lot.vreg_setVreg_other m a.w r.toNat a.l w x i _ r.isLt hx hal hi (by tauto), hreg w x i hx hi]
        have hne : x = r.toNat → (⟨w, i⟩ : Agent) ≠ a := fun hxr e => hkey ⟨congrArg Agent.w e, hxr, congrArg Agent.l e⟩
        by_cases hxr : x = r.toNat
        · simp [hxr, hne hxr]
        · simp [hxr]

end Sys2Proof.Machine
end

section
/-! DQPUSH and DQPOP (03_issue.md R81; 15_ref_d_i.md R364 to R366; O15). -/

namespace Sys2Proof.Machine

/-- A barker takes no part in an instruction that has no barker form. -/
theorem State.runs_threads_only {s : State} {v : View} {p : BitVec 3} {uses : List Use} (h : s.runs v p true false uses) :
    Agent.barker ∉ v.parts := fun hb => by
  have := h.2.2 _ ((State.runs_parts h).2 _ hb).1
  unfold Lot.instrFault at this
  exact absurd this (by simp [Agent.isBarker, Agent.barker])

theorem State.OnPlace.accs {s t : State} {c b : Nat} (h : s.OnPlace t c b) : t.accs = s.accs := by rw [h.frame]
theorem State.OnPlace.m {s t : State} {c b : Nat} (h : s.OnPlace t c b) : t.m = s.m := by rw [h.frame]

section
variable {s : State} {v : View} {p : BitVec 3} {r : BitVec 7}

theorem execDqpush_room (h : s.alone v p Agent.barker false true [use1 r]) (hfill : v.l.dqFill < 64) :
    execDqpush p r s = .next (s.dqPush v.i.core v.i.bctx ((v.l.sreg r.toNat).setWidth 32)) := by
  obtain ⟨hruns, -, hparts⟩ := h
  refine (State.instr_runs hruns _).trans ?_
  rw [hparts, if_neg (by simp), if_neg (by omega)]

/-- The barker as a full queue parks it at its instruction. -/
def Lot.dqFullPark (l : Lot) (i : Issuer) : Lot :=
  (l.setThr Agent.barker ((l.thr Agent.barker).parkedAt (.dqfull i.index) i.hdr)).setThr Agent.barker
    { (l.thr Agent.barker).parkedAt (.dqfull i.index) i.hdr with mid := i.index, kept := i.reserved }

theorem execDqpush_full (h : s.alone v p Agent.barker false true [use1 r]) (hfill : v.l.dqFill = 64) (hcalm : s.calm v.i.core)
    (hend : v.l.ending = false) :
    execDqpush p r s = .next ((s.setLot v.i.core v.i.bctx (v.l.dqFullPark v.i)).setIssuer s.active none) := by
  obtain ⟨hruns, hagents, hparts⟩ := h
  obtain ⟨hi, hl, -⟩ := State.view_eq hruns.1
  refine (State.instr_runs hruns _).trans ?_
  rw [hparts, if_neg (by simp), if_pos hfill]
  dsimp only
  rw [hend, if_neg Bool.false_ne_true, State.onLot_of_lot hl, hend, if_neg Bool.false_ne_true, Lot.park_eq, Lot.thr_setThr]
  have hthr : (v.l.dqFullPark v.i).thr Agent.barker
      = { (v.l.thr Agent.barker).parkedAt (.dqfull v.i.index) v.i.hdr with mid := v.i.index, kept := v.i.reserved } := Lot.thr_setThr ..
  have hstill : (s.setLot v.i.core v.i.bctx (v.l.dqFullPark v.i)).still v.i.core := by
    refine State.still_of_others (State.still_of_calm hcalm) hl (State.lot?_setLot ..)
      (fun _ _ hne => State.lot?_setLot_other _ _ _ _ _ _ hne) fun a ha => ⟨ha, fun hrest => ?_⟩
    by_cases hab : a = Agent.barker
    · rw [hab]
      exact Lot.rests_of_holds (p := .dqfull v.i.index) (by rw [hthr]; rfl) rfl
    · have hat : (v.l.dqFullPark v.i).thr a = v.l.thr a := by
        unfold Lot.dqFullPark
        rw [Lot.thr_setThr_other _ _ _ _ Lot.barker_lane_lt (Lot.lane_lt ha) hab,
          Lot.thr_setThr_other _ _ _ _ Lot.barker_lane_lt (Lot.lane_lt ha) hab]
      exact Lot.rests_congr hat rfl hrest
  exact congrArg Host.Outcome.next (State.leave_all (s := s.setLot v.i.core v.i.bctx (v.l.dqFullPark v.i)) hi hstill (by simp [hagents]))

/-- DQPOP of participants that all find an entry. -/
theorem execDqpop_takes (h : s.runs v p true false [use1 r]) (hparts : ∀ a ∈ v.parts, (v.l.thr a).cursor ≠ v.l.dqP) :
    execDqpop p r s = .next (((s.setLot v.i.core v.i.bctx (v.parts.foldl (Lot.dqTake r) v.l)).acquireFrom v.i.core v.i.bctx v.parts
      (fun a => a.isBarker)).dqRoom v.i.core v.i.bctx) := by
  obtain ⟨-, hl, -⟩ := State.view_eq h.1
  have hgot : v.parts.filter (fun a => (v.l.thr a).cursor != v.l.dqP) = v.parts :=
    List.filter_eq_self.mpr fun a ha => by simpa using hparts a ha
  have hnone : v.parts.filter (fun a => (v.l.thr a).cursor == v.l.dqP) = [] :=
    List.filter_eq_nil_iff.mpr fun a ha => by simpa using hparts a ha
  refine (State.instr_runs h _).trans ?_
  simp only [hgot, hnone, List.isEmpty_nil, if_true]
  rw [State.onLot_of_lot hl]
  rfl

/-- DQPOP of participants that all find none. -/
theorem execDqpop_waits (h : s.runs v p true false [use1 r]) (hne : v.parts ≠ []) (hparts : ∀ a ∈ v.parts, (v.l.thr a).cursor = v.l.dqP) :
    execDqpop p r s = .next ((((s.setLot v.i.core v.i.bctx v.l).acquireFrom v.i.core v.i.bctx [] (fun a => a.isBarker)).parkAll
      (v.parts.map (fun a => (a, .dq r.toNat)))).dqRoom v.i.core v.i.bctx) := by
  obtain ⟨-, hl, -⟩ := State.view_eq h.1
  have hgot : v.parts.filter (fun a => (v.l.thr a).cursor != v.l.dqP) = [] :=
    List.filter_eq_nil_iff.mpr fun a ha => by simpa using hparts a ha
  have hnone : v.parts.filter (fun a => (v.l.thr a).cursor == v.l.dqP) = v.parts :=
    List.filter_eq_self.mpr fun a ha => by simpa using hparts a ha
  refine (State.instr_runs h _).trans ?_
  have hempty : v.parts.isEmpty = false := by simpa using hne
  simp only [hgot, hnone, hempty, Bool.false_eq_true, if_false]
  rw [State.onLot_of_lot hl]
  rfl

end

theorem Lot.dqFill_lt {l : Lot} (h : ∀ a ∈ l.agents, (l.thr a).gone = false → (l.dqP - (l.thr a).cursor).toNat < 64) : l.dqFill < 64 := by
  refine List.foldlRecOn (motive := fun n => n < 64) _ _ (by decide) fun n hn a ha => ?_
  obtain ⟨hin, hgone⟩ := List.mem_filter.mp ha
  have := h a hin (by simpa using hgone)
  omega

/-- Participants that find an entry read it and advance; a barker that waits for room goes on where they have made it. -/
theorem execDqpop_reads {s : State} {v : View} {p : BitVec 3} {r : BitVec 7} (h : s.runs v p true false [use1 r])
    (hplain : v.l.waitersPlain) (hend : v.l.ending = false) (hparts : ∀ a ∈ v.parts, (v.l.thr a).cursor ≠ v.l.dqP) :
    ∃ t l', execDqpop p r s = .next t ∧ t.lot? v.i.core v.i.bctx = some l'
      ∧ (∀ a ∈ v.parts, l'.vreg a.w r.toNat a.l = v.l.dqEntry (v.l.thr a).cursor
        ∧ l'.thr a = { v.l.thr a with cursor := (v.l.thr a).cursor + 1, obs := (l'.thr a).obs })
      ∧ v.l.others l' v.parts r 32 ∧ l'.dq = v.l.dq ∧ l'.dqP = v.l.dqP
      ∧ (∀ n, (v.l.thr Agent.barker).st = .parked (.dqfull n) →
        (∀ a ∈ v.l.agents, (v.l.thr a).gone = false →
          (v.l.dqP - (if a ∈ v.parts then (v.l.thr a).cursor + 1 else (v.l.thr a).cursor)).toNat < 64) →
        (l'.thr Agent.barker).st = .ready)
      ∧ t.accs = s.accs ∧ t.m = s.m := by
  obtain ⟨hnodup, hin⟩ := State.runs_parts h
  obtain ⟨-, hl, -⟩ := State.view_eq h.1
  have hlane : ∀ a ∈ v.parts, a.l < 32 := fun a ha => (hin a ha).2
  have hbarker := State.runs_threads_only h
  obtain ⟨hframe1, hthr1, hreg1⟩ := Lot.foldl_dqTake r v.l v.parts hnodup hlane
  have hexec := execDqpop_takes h hparts
  generalize v.parts.foldl (Lot.dqTake r) v.l = l1 at hframe1 hthr1 hreg1 hexec
  have hplace1 : s.OnPlace (s.setLot v.i.core v.i.bctx l1) v.i.core v.i.bctx :=
    State.onPlace_setLot hl (by rw [hframe1]) (by rw [hframe1])
  obtain ⟨l2, hplace2, hl2, hframe2, hthr2⟩ := State.acquireFrom_onPlace (s := s.setLot v.i.core v.i.bctx l1) (State.lot?_setLot ..) hnodup
    hlane (fun a => a.isBarker)
  have hthr2' : ∀ x : Agent, x.l < 32 →
      ∃ os, l2.thr x = if x ∈ v.parts then { v.l.thr x with cursor := (v.l.thr x).cursor + 1, obs := os } else v.l.thr x := fun x hx => by
    obtain ⟨os, hos⟩ := hthr2 x hx
    refine ⟨os, ?_⟩
    rw [hos, hthr1 x hx]
    split <;> rfl
  have hbark2 : l2.thr Agent.barker = v.l.thr Agent.barker := by
    obtain ⟨os, hos⟩ := hthr2' _ Lot.barker_lane_lt
    rw [hos, if_neg hbarker]
  obtain ⟨l', hplace3, hl', hframe3, hthr3, hroom⟩ := State.dqRoom_barker hl2 (by rw [hframe2, hframe1]; exact hend)
    (by rw [hbark2]; exact hplain _ List.mem_cons_self)
  have hvreg : ∀ w x i, l'.vreg w x i = l1.vreg w x i := fun w x i => by rw [hframe3, hframe2]; rfl
  refine ⟨_, l', hexec, hl', fun a ha => ⟨?_, ?_⟩, ⟨fun w x lane hx hlane hout => ?_, fun x _ => by rw [hframe3, hframe2, hframe1]; rfl⟩,
    by rw [hframe3, hframe2, hframe1], by rw [hframe3, hframe2, hframe1], fun n hst hfill => ?_,
    (hplace1.trans (hplace2.trans hplace3)).accs, (hplace1.trans (hplace2.trans hplace3)).m⟩
  · rw [hvreg, hreg1 _ _ _ r.isLt (hlane a ha), if_pos ⟨rfl, ha⟩]
  · obtain ⟨os, hos⟩ := hthr2' a (hlane a ha)
    rw [if_pos ha] at hos
    have hat := (hthr3 a (hlane a ha) (fun e => hbarker (e ▸ ha))).trans hos
    rw [hat]
  · rw [hvreg, hreg1 _ _ _ hx hlane, if_neg]
    rintro ⟨rfl, hmem⟩
    refine hout ⟨_, hmem, Bool.eq_false_iff.mpr fun hb => hbarker ?_, rfl, rfl, le_refl _, by simp [Machine.regsOf]⟩
    have := State.runs_barker_alone h hmem hb
    have hform := (h.2.1.2 _ (hin _ hmem).1).2 hb
    have hmem' := (hin _ hmem).1
    rw [hform, List.mem_singleton] at hmem'
    exact hmem' ▸ hmem
  · refine hroom n (by rw [hbark2]; exact hst) (Lot.dqFill_lt fun a ha hgone => ?_)
    have ha' : a ∈ v.l.agents := by rw [hframe2, hframe1] at ha; exact ha
    obtain ⟨os, hos⟩ := hthr2' a (Lot.waiter_lane_lt (Lot.agents_sub ha'))
    have hgone' : (v.l.thr a).gone = false := by
      rw [hos] at hgone
      split at hgone <;> exact hgone
    have := hfill a ha' hgone'
    have hP : l2.dqP = v.l.dqP := by rw [hframe2, hframe1]
    rw [hos, hP]
    split at this <;> simpa [*] using this

/-- Participants that find no entry park for it. -/
theorem execDqpop_parks {s : State} {v : View} {p : BitVec 3} {r : BitVec 7} (h : s.runs v p true false [use1 r])
    (hplain : v.l.waitersPlain) (hend : v.l.ending = false) (hcalm : s.calm v.i.core) (hne : v.parts ≠ [])
    (hparts : ∀ a ∈ v.parts, (v.l.thr a).cursor = v.l.dqP) :
    ∃ t l', execDqpop p r s = .next t ∧ t.lot? v.i.core v.i.bctx = some l'
      ∧ (∀ a ∈ v.parts, (l'.thr a).st = .parked (.dq r.toNat) ∧ (l'.thr a).pc = v.i.next ∧ (l'.thr a).cursor = v.l.dqP)
      ∧ l'.vregs = v.l.vregs ∧ l'.dq = v.l.dq ∧ l'.dqP = v.l.dqP ∧ t.accs = s.accs ∧ t.m = s.m := by
  obtain ⟨hnodup, hin⟩ := State.runs_parts h
  obtain ⟨hi, hl, -⟩ := State.view_eq h.1
  have hlane : ∀ a ∈ v.parts, a.l < 32 := fun a ha => (hin a ha).2
  have hbarker := State.runs_threads_only h
  have hexec := execDqpop_waits h hne hparts
  obtain ⟨l1, hplace1, hl1, hframe1, hthr1⟩ := State.acquireFrom_onPlace (s := s.setLot v.i.core v.i.bctx v.l) (State.lot?_setLot ..)
    List.nodup_nil (by simp) (fun a => a.isBarker)
  have hplace1' := (State.onPlace_setLot (l' := v.l) hl rfl rfl).trans hplace1
  generalize (s.setLot v.i.core v.i.bctx v.l).acquireFrom v.i.core v.i.bctx [] (fun a => a.isBarker) = u at hplace1' hl1 hexec
  have hthr1' : ∀ x : Agent, x.l < 32 → l1.thr x = v.l.thr x := fun x hx => by
    obtain ⟨os, hos⟩ := hthr1 x hx
    simpa using hos
  have hactive : u.active = s.active := by rw [hplace1'.frame]
  have hui : u.issuer? u.active = some v.i := by
    rw [hactive, State.issuer?_of_running (by rw [hplace1'.frame])]
    exact hi
  have hstill : u.still v.i.core := by
    refine State.still_of_others (State.still_of_calm hcalm) hl hl1 hplace1'.others fun a ha => ?_
    have ha' : a ∈ v.l.allAgents := by rw [hframe1] at ha; exact ha
    exact ⟨ha', Lot.rests_congr (hthr1' a (Lot.lane_lt ha')) (by rw [hframe1]; rfl)⟩
  obtain ⟨l2, run, hpark, hframe2, hthr2⟩ := State.parkAll_holds (p := .dq r.toNat) hui hl1 (by rw [hframe1]; exact hend) hstill hnodup
    hlane rfl
  rw [hpark] at hexec
  have hbark2 : l2.thr Agent.barker = v.l.thr Agent.barker := by
    rw [hthr2 _ Lot.barker_lane_lt, if_neg hbarker, hthr1' _ Lot.barker_lane_lt]
  have hl2 : ((u.setLot v.i.core v.i.bctx l2).setIssuer u.active run).lot? v.i.core v.i.bctx = some l2 := State.lot?_setLot ..
  obtain ⟨l', hplace3, hl', hframe3, hthr3, -⟩ := State.dqRoom_barker hl2 (by rw [hframe2, hframe1]; exact hend)
    (by rw [hbark2]; exact hplain _ List.mem_cons_self)
  refine ⟨_, l', hexec, hl', fun a ha => ?_, by rw [hframe3, hframe2, hframe1], by rw [hframe3, hframe2, hframe1],
    by rw [hframe3, hframe2, hframe1], hplace3.accs.trans hplace1'.accs, hplace3.m.trans hplace1'.m⟩
  have hat : l'.thr a = (v.l.thr a).parkedAt (.dq r.toNat) v.i.next := by
    rw [hthr3 a (hlane a ha) (fun e => hbarker (e ▸ ha)), hthr2 a (hlane a ha), if_pos ha, hthr1' a (hlane a ha)]
  exact ⟨by rw [hat]; rfl, by rw [hat]; rfl, by rw [hat]; exact hparts a ha⟩

/-- Settles O15: a push is one write of the queue and one wake of those that wait for it, a pop one read of each participant, and room
in the queue concerns the barker alone. -/
theorem decisionQueue : Obligations.DecisionQueue := by
  intro s v p r P
  refine ⟨fun h hfill hend hplain => ?_, fun h hfill hcalm hend => ?_, execDqpop_reads, execDqpop_parks⟩
  · intro value
    obtain ⟨-, hl, -⟩ := State.view_eq h.1.1
    obtain ⟨l', hplace, hl', hP, hdq, hgiven, hkept⟩ := State.dqPush_gives hl hend hplain value
    refine ⟨_, l', execDqpush_room h hfill, hl', hP, ?_, fun i hi => ?_, fun a ha d hst hcursor => ?_, fun a ha hwaits => ?_, hplace.accs,
      hplace.m⟩
    · unfold Lot.dqEntry
      rw [hdq, Tbl.get_put_same]
    · unfold Lot.dqEntry
      rw [hdq, Tbl.get_put_other _ _ _ _ _ hi]
    · obtain ⟨hwoken, hcursor', hreg⟩ := hgiven a ha d (Lot.dqDst_eq_some.mpr ⟨hst, hcursor⟩)
      exact ⟨hwoken, hcursor', fun _ => hreg⟩
    · refine hkept a ha (Option.eq_none_iff_forall_ne_some.mpr fun d hd => ?_)
      obtain ⟨hst, hcursor⟩ := Lot.dqDst_eq_some.mp hd
      exact hwaits.elim (fun h => h d hst) (fun h => h hcursor)
  · have hthr : ((v.l.dqFullPark v.i).thr Agent.barker) = _ := Lot.thr_setThr ..
    exact ⟨_, v.l.dqFullPark v.i, execDqpush_full h hfill hcalm hend, State.lot?_setLot .., State.issuer?_setIssuer .., by rw [hthr]; rfl,
      by rw [hthr]; rfl, rfl, rfl, rfl, rfl⟩

end Sys2Proof.Machine
end

section
/-! Laws of the mask registers (03_issue.md R82, R83; 16_ref_j_r.md R388, R389): the bits of a list of lanes, and the release of a mask with
everything else as it was. -/

namespace Sys2Proof.Machine

/-! ### Lane masks -/

theorem bit_eq_testBit (x i : Nat) : bit x i = x.testBit i := by
  unfold bit
  rw [Nat.testBit_eq_decide_div_mod_eq]

theorem testBit_sumBits (n : Nat) (f : Nat → Bool) (i : Nat) : (sumBits n f).testBit i = (decide (i < n) && f i) := by
  induction n with
  | zero => simp [sumBits]
  | succ n ih =>
    have hstep : sumBits (n + 1) f = sumBits n f + (if f n then 2 ^ n else 0) := by
      unfold sumBits
      rw [List.range_succ, List.foldl_append]
      rfl
    rw [hstep]
    rcases Nat.lt_trichotomy i n with hi | rfl | hi
    · have hsame : (sumBits n f + (if f n then 2 ^ n else 0)).testBit i = (sumBits n f).testBit i := by
        split
        · rw [Nat.add_comm, Nat.testBit_two_pow_add_gt hi]
        · rfl
      rw [hsame, ih]
      simp [hi, Nat.lt_succ_of_lt hi]
    · have hout : (sumBits i f).testBit i = false := by rw [ih]; simp
      split
      · next h => rw [Nat.add_comm, Nat.testBit_two_pow_add_eq, hout]; simp [h]
      · next h => rw [Nat.add_zero, hout]; simp [h]
    · have hlt := sumBits_lt (n + 1) f
      rw [hstep] at hlt
      rw [Nat.testBit_lt_two_pow (hlt.trans_le (Nat.pow_le_pow_right (by omega) hi))]
      simp [Nat.not_lt.mpr hi]

theorem testBit_laneMask (as : List Agent) (i : Nat) :
    (laneMask as).toNat.testBit i = (decide (i < 32) && as.any (fun a => a.l == i)) := by
  unfold laneMask
  rw [BitVec.toNat_ofNat, Nat.mod_eq_of_lt (sumBits_lt 32 _), testBit_sumBits]

theorem and_mod_two (x y : Nat) : (x &&& y) % 2 = x % 2 * (y % 2) := by
  have h := Nat.and_mod_two_pow (a := x) (b := y) (n := 1)
  rw [Nat.pow_one] at h
  rw [h]
  rcases Nat.mod_two_eq_zero_or_one x with hx | hx <;> rcases Nat.mod_two_eq_zero_or_one y with hy | hy <;> rw [hx, hy] <;> rfl

theorem testBit_andNot (x y i : Nat) : (andNot x y).testBit i = (x.testBit i && !y.testBit i) := by
  unfold andNot
  induction i generalizing x y with
  | zero =>
    have hle : x &&& y ≤ x := Nat.and_le_left
    have hmod := and_mod_two x y
    simp only [Nat.testBit_zero]
    rcases Nat.mod_two_eq_zero_or_one y with hy | hy
    · rw [hy] at hmod
      have : (x - (x &&& y)) % 2 = x % 2 := by omega
      simp [this, hy]
    · rw [hy] at hmod
      have : (x - (x &&& y)) % 2 = 0 := by omega
      simp [this, hy]
  | succ i ih =>
    have hle : x &&& y ≤ x := Nat.and_le_left
    have hdiv : (x &&& y) / 2 = x / 2 &&& y / 2 := Nat.and_div_two
    have hmod : (x &&& y) % 2 ≤ x % 2 := by
      rw [and_mod_two]
      rcases Nat.mod_two_eq_zero_or_one y with hy | hy <;> rw [hy] <;> omega
    rw [Nat.testBit_succ, Nat.testBit_succ, Nat.testBit_succ, ← ih, ← hdiv]
    congr 1
    omega

theorem testBit_laneMask_append (as : List Agent) {a : Agent} (ha : a.l < 32) (i : Nat) :
    (laneMask (as ++ [a])).toNat.testBit i = ((laneMask as).toNat.testBit i || decide (i = a.l)) := by
  rw [testBit_laneMask, testBit_laneMask, List.any_append]
  by_cases hi : i = a.l
  · subst hi
    simp [ha]
  · have hne : (a.l == i) = false := beq_eq_false_iff_ne.mpr (Ne.symm hi)
    simp [hi, hne]

theorem laneMask_lt (as : List Agent) : (laneMask as).toNat < 2 ^ 32 := BitVec.isLt _

theorem bit_eq_zero_of_laneMask {as : List Agent} {x : Nat} (hlane : ∀ a ∈ as, a.l < 32) :
    x &&& (laneMask as).toNat = 0 ↔ ∀ a ∈ as, bit x a.l = false := by
  constructor
  · intro h a ha
    have hbit := congrArg (fun n => n.testBit a.l) h
    simp only [Nat.testBit_and, testBit_laneMask, Nat.zero_testBit] at hbit
    rw [bit_eq_testBit]
    have hany : as.any (fun y => y.l == a.l) = true := List.any_eq_true.mpr ⟨a, ha, beq_self_eq_true _⟩
    simpa [hlane a ha, hany] using hbit
  · intro h
    refine Nat.eq_of_testBit_eq fun i => ?_
    rw [Nat.testBit_and, testBit_laneMask, Nat.zero_testBit]
    by_cases hany : as.any (fun y => y.l == i) = true
    · obtain ⟨a, ha, he⟩ := List.any_eq_true.mp hany
      rw [← beq_iff_eq.mp he, ← bit_eq_testBit, h a ha, Bool.false_and]
    · rw [Bool.eq_false_iff.mpr hany, Bool.and_false, Bool.and_false]

/-! ### One mask of a warp changes -/

/-- A warp but for the two parts of one mask. -/
structure Warp.MaskAt (x y : Warp) (k m r : Nat) : Prop where
  rest : y = { x with members := y.members, arrived := y.arrived }
  mem : y.mem k = m
  arr : y.arr k = r
  others : ∀ j, j ≠ k → y.mem j = x.mem j ∧ y.arr j = x.arr j

@[simp] theorem Warp.arr_setMem (x : Warp) (k v j : Nat) : (x.setMem k v).arr j = x.arr j := rfl

theorem Warp.MaskAt.setArr {x y : Warp} {k m r : Nat} (h : x.MaskAt y k m r) {v : Nat} (hv : v < 2 ^ 32) : x.MaskAt (y.setArr k v) k m v where
  rest := by
    unfold Warp.setArr
    rw [h.rest]
  mem := h.mem
  arr := by rw [Warp.arr_setArr _ _ _ hv, if_pos rfl]
  others j hj := by rw [Warp.mem_setArr, Warp.arr_setArr _ _ _ hv, if_neg hj]; exact h.others j hj

theorem Warp.MaskAt.setMem {x y : Warp} {k m r : Nat} (h : x.MaskAt y k m r) {v : Nat} (hv : v < 2 ^ 32) : x.MaskAt (y.setMem k v) k v r where
  rest := by
    unfold Warp.setMem
    rw [h.rest]
  mem := by rw [Warp.mem_setMem _ _ _ hv, if_pos rfl]
  arr := h.arr
  others j hj := by rw [Warp.arr_setMem, Warp.mem_setMem _ _ _ hv, if_neg hj]; exact h.others j hj

theorem Warp.MaskAt.refl (x : Warp) (k : Nat) : x.MaskAt x k (x.mem k) (x.arr k) := ⟨rfl, rfl, rfl, fun _ _ => ⟨rfl, rfl⟩⟩

/-- The lanes of a list join a mask: those that are members have arrived. -/
theorem Warp.foldl_join (x : Warp) (k : Nat) (as : List Agent) (hlane : ∀ a ∈ as, a.l < 32) :
    x.MaskAt (as.foldl (fun x a => x.join k a.l) x) k (x.mem k) (x.arr k ||| (x.mem k &&& (laneMask as).toNat)) := by
  have hbits : ∀ bs : List Agent, (∀ a ∈ bs, a.l < 32) → ∃ r, x.MaskAt (bs.foldl (fun x a => x.join k a.l) x) k (x.mem k) r
      ∧ ∀ i, r.testBit i = (x.arr k ||| (x.mem k &&& (laneMask bs).toNat)).testBit i := by
    intro bs
    induction bs using List.reverseRecOn with
    | nil => exact fun _ => ⟨_, Warp.MaskAt.refl x k, fun i => by simp [testBit_laneMask]⟩
    | append_singleton bs a ih =>
      intro hbs
      obtain ⟨r, hmask, hr⟩ := ih (fun b hb => hbs b (by simp [hb]))
      have ha := hbs a (by simp)
      rw [List.foldl_append, List.foldl_cons, List.foldl_nil]
      generalize bs.foldl (fun x a => x.join k a.l) x = y at hmask
      unfold Warp.join
      rw [hmask.mem, hmask.arr]
      have hr32 : r < 2 ^ 32 := hmask.arr ▸ y.arr_lt k
      by_cases hbit : bit (x.mem k) a.l = true
      · rw [if_pos hbit]
        refine ⟨_, hmask.setArr (setBits_lt _ _ hr32 ha), fun i => ?_⟩
        rw [bit_eq_testBit] at hbit
        rw [testBit_setBits, hr]
        by_cases hi : i = a.l
        · subst hi
          simp [testBit_laneMask_append, ha, hbit]
        · rw [if_neg (by omega)]
          simp [testBit_laneMask_append, ha, hi]
      · rw [if_neg hbit]
        refine ⟨r, hmask, fun i => ?_⟩
        rw [bit_eq_testBit] at hbit
        rw [hr]
        by_cases hi : i = a.l
        · subst hi
          simp [Bool.eq_false_iff.mpr hbit]
        · simp [testBit_laneMask_append, ha, hi]
  obtain ⟨r, hmask, hr⟩ := hbits as hlane
  rwa [Nat.eq_of_testBit_eq hr] at hmask

/-- The lanes of a list leave a mask. -/
theorem Warp.foldl_leaveMask (x : Warp) (k : Nat) (as : List Agent) (hlane : ∀ a ∈ as, a.l < 32) :
    x.MaskAt (as.foldl (fun x a => x.leaveMask k a.l) x) k (andNot (x.mem k) (laneMask as).toNat) (andNot (x.arr k) (laneMask as).toNat) := by
  have hbits : ∀ bs : List Agent, (∀ a ∈ bs, a.l < 32) → ∃ m r, x.MaskAt (bs.foldl (fun x a => x.leaveMask k a.l) x) k m r
      ∧ (∀ i, m.testBit i = (andNot (x.mem k) (laneMask bs).toNat).testBit i)
      ∧ ∀ i, r.testBit i = (andNot (x.arr k) (laneMask bs).toNat).testBit i := by
    intro bs
    induction bs using List.reverseRecOn with
    | nil => exact fun _ => ⟨_, _, Warp.MaskAt.refl x k, fun i => by simp [testBit_andNot, testBit_laneMask],
        fun i => by simp [testBit_andNot, testBit_laneMask]⟩
    | append_singleton bs a ih =>
      intro hbs
      obtain ⟨m, r, hmask, hm, hr⟩ := ih (fun b hb => hbs b (by simp [hb]))
      have ha := hbs a (by simp)
      rw [List.foldl_append, List.foldl_cons, List.foldl_nil]
      generalize bs.foldl (fun x a => x.leaveMask k a.l) x = y at hmask
      unfold Warp.leaveMask
      rw [hmask.mem, hmask.arr]
      have hm32 : m < 2 ^ 32 := hmask.mem ▸ y.mem_lt k
      have hr32 : r < 2 ^ 32 := hmask.arr ▸ y.arr_lt k
      have hclear : ∀ z i, (setBits z a.l a.l 0).testBit i = (z.testBit i && !decide (i = a.l)) := fun z i => by
        rw [testBit_setBits]
        by_cases hi : i = a.l
        · subst hi; simp
        · rw [if_neg (by omega)]; simp [hi]
      have hmore : ∀ z i, ((andNot z (laneMask bs).toNat).testBit i && !decide (i = a.l))
          = (andNot z (laneMask (bs ++ [a])).toNat).testBit i := fun z i => by
        rw [testBit_andNot, testBit_andNot, testBit_laneMask_append _ ha, Bool.not_or, Bool.and_assoc]
      refine ⟨_, _, (hmask.setMem (setBits_lt _ _ hm32 ha)).setArr (setBits_lt _ _ hr32 ha), fun i => ?_, fun i => ?_⟩
      · rw [hclear, hm, hmore]
      · rw [hclear, hr, hmore]
  obtain ⟨m, r, hmask, hm, hr⟩ := hbits as hlane
  rwa [Nat.eq_of_testBit_eq hm, Nat.eq_of_testBit_eq hr] at hmask

end Sys2Proof.Machine
end

section
/-! KJOIN, KLEAVE, KWAIT, KSET, KGET and KMOV (03_issue.md R82; 16_ref_j_r.md R388, R389; O14), for the participants of one warp. -/

namespace Sys2Proof.Machine

/-! ### The release of a mask -/

@[simp] theorem Lot.kwaiters_setWarp (l : Lot) (w k u : Nat) (x : Warp) : (l.setWarp u x).kwaiters w k = l.kwaiters w k := rfl

@[simp] theorem Lot.setWarp_setWarp (l : Lot) (w : Nat) (x y : Warp) : (l.setWarp w x).setWarp w y = l.setWarp w y := by
  unfold Lot.setWarp
  rw [Tbl.put_put]

/-- Where a mask is released, its waiters wake, none has arrived, and everything else is as before. -/
theorem State.maskRelease_wakes {s : State} {c b w k : Nat} {l : Lot} (hl : s.lot? c b = some l) (hend : l.ending = false)
    (hplain : ∀ y ∈ l.kwaiters w k, (l.thr y).plain) (hrel : (l.warp w).released k = true) :
    ∃ l', s.OnPlace (s.maskRelease c b w k) c b ∧ (s.maskRelease c b w k).lot? c b = some l'
      ∧ l' = { l.setWarp w ((l.warp w).setArr k 0) with threads := l'.threads }
      ∧ ∀ x : Agent, x.l < 32 → ∃ n os, l'.thr x = if x ∈ l.kwaiters w k then { (l.thr x).awake n with obs := os } else l.thr x := by
  have hlane : ∀ x ∈ l.kwaiters w k, x.l < 32 := fun x hx => (Lot.mem_kwaiters.mp hx).2.1
  unfold State.maskRelease
  rw [hl]
  dsimp only
  rw [if_pos hrel]
  obtain ⟨l1, hplace1, hl1, hframe1, hthr1⟩ := State.acquireFrom_onPlace hl (l.kwaiters_nodup w k) hlane (fun a => a.w == w)
  have hwarp1 : l1.warp w = l.warp w := by rw [hframe1]; rfl
  have hon : (s.acquireFrom c b (l.kwaiters w k) (fun a => a.w == w)).onWarp c b w (fun x => x.setArr k 0)
      = (s.acquireFrom c b (l.kwaiters w k) (fun a => a.w == w)).setLot c b (l1.setWarp w ((l.warp w).setArr k 0)) := by
    unfold State.onWarp
    rw [State.onLot_of_lot hl1, hwarp1]
  rw [hon]
  have hplace2 := hplace1.trans (State.onPlace_setLot (l' := l1.setWarp w ((l.warp w).setArr k 0)) hl1 rfl rfl)
  obtain ⟨l', n, hplace3, hl', hframe3, hthr3⟩ := State.wakeAll_onPlace (State.lot?_setLot _ c b (l1.setWarp w ((l.warp w).setArr k 0)))
    (by rw [hframe1]; exact hend) (l.kwaiters_nodup w k) hlane (fun x hx => by
      obtain ⟨os, hos⟩ := hthr1 x (hlane x hx)
      rw [Lot.thr_setWarp, hos, if_pos hx]
      exact hplain x hx)
  refine ⟨l', hplace2.trans hplace3, hl', by rw [hframe3, hframe1]; rfl, fun x hx => ?_⟩
  obtain ⟨os, hos⟩ := hthr1 x hx
  refine ⟨n, os, ?_⟩
  rw [hthr3 x hx, Lot.thr_setWarp, hos]
  split <;> rfl

theorem State.maskRelease_holds {s : State} {c b w k : Nat} {l : Lot} (hl : s.lot? c b = some l) (hrel : (l.warp w).released k = false) :
    s.maskRelease c b w k = s := by
  unfold State.maskRelease
  rw [hl]
  dsimp only
  rw [hrel, if_neg Bool.false_ne_true]

theorem Warp.MaskAt.released {x y : Warp} {k m r : Nat} (h : x.MaskAt y k m r) : y.released k = true ↔ andNot m r = 0 := by
  unfold Warp.released
  rw [h.mem, h.arr, beq_iff_eq]

/-- What a mask of a warp becomes after an instruction that gives it members and arrivals, as the statement of the mask registers
says it (R82, R389). -/
def View.maskBecomes (v : View) (s : State) (w k : Nat) (out : Out) (m r : Nat) : Prop :=
  (andNot m r ≠ 0 → ∃ t l', out = .next t ∧ t = s.setLot v.i.core v.i.bctx l' ∧ l' = { v.l with warps := l'.warps }
    ∧ (∀ u, u ≠ w → l'.warp u = v.l.warp u) ∧ (l'.warp w).mem k = m ∧ (l'.warp w).arr k = r
    ∧ ∀ j, j ≠ k → (l'.warp w).mem j = (v.l.warp w).mem j ∧ (l'.warp w).arr j = (v.l.warp w).arr j)
  ∧ (andNot m r = 0 → v.l.ending = false → v.l.waitersPlain →
    ∃ t l', out = .next t ∧ t.lot? v.i.core v.i.bctx = some l' ∧ (l'.warp w).mem k = m ∧ (l'.warp w).arr k = 0
      ∧ (∀ y ∈ v.l.kwaiters w k, v.l.woken l' y)
      ∧ (∀ y : Agent, y.l < 32 → y ∉ v.l.kwaiters w k → l'.thr y = v.l.thr y)
      ∧ (∀ j, j ≠ k → (l'.warp w).mem j = (v.l.warp w).mem j ∧ (l'.warp w).arr j = (v.l.warp w).arr j)
      ∧ l'.vregs = v.l.vregs ∧ t.accs = s.accs ∧ t.m = s.m)

/-- A change of one mask, and the check of its release. -/
theorem View.maskBecomes_of_release {s : State} {v : View} (hl : s.lot? v.i.core v.i.bctx = some v.l) {w k m r : Nat} {y : Warp}
    (hmask : (v.l.warp w).MaskAt y k m r) :
    v.maskBecomes s w k (.next ((s.setLot v.i.core v.i.bctx (v.l.setWarp w y)).maskRelease v.i.core v.i.bctx w k)) m r := by
  have hwarp : (v.l.setWarp w y).warp w = y := Lot.warp_setWarp ..
  refine ⟨fun hne => ?_, fun hzero hend hplain => ?_⟩
  · have hrel : ((v.l.setWarp w y).warp w).released k = false := by
      rw [hwarp, Bool.eq_false_iff]
      exact fun h => hne (hmask.released.mp h)
    refine ⟨_, v.l.setWarp w y, by rw [State.maskRelease_holds (State.lot?_setLot ..) hrel], rfl, rfl,
      fun u hu => Lot.warp_setWarp_other _ _ _ _ hu, ?_⟩
    rw [hwarp]
    exact ⟨hmask.mem, hmask.arr, hmask.others⟩
  · obtain ⟨l', hplace, hl', hframe, hthr⟩ := State.maskRelease_wakes (w := w) (k := k)
      (State.lot?_setLot s v.i.core v.i.bctx (v.l.setWarp w y)) hend
      (fun x hx => hplain x (Lot.kwaiter_waits hx).1 (Lot.kwaiter_waits hx).2) (by rw [hwarp]; exact hmask.released.mpr hzero)
    have hplace' := (State.onPlace_setLot (l' := v.l.setWarp w y) hl rfl rfl).trans hplace
    have hwarp' : l'.warp w = y.setArr k 0 := by
      rw [hframe, hwarp]
      exact Lot.warp_setWarp ..
    have hmask' := hmask.setArr (v := 0) (by decide)
    refine ⟨_, l', rfl, hl', by rw [hwarp', hmask'.mem], by rw [hwarp', hmask'.arr], fun x hx => ?_, fun x hx hout => ?_,
      fun j hj => by rw [hwarp']; exact hmask'.others j hj, by rw [hframe]; rfl, hplace'.accs, hplace'.m⟩
    · obtain ⟨n, os, hos⟩ := hthr x (Lot.mem_kwaiters.mp hx).2.1
      rw [Lot.kwaiters_setWarp, if_pos hx] at hos
      exact ⟨by rw [hos]; rfl, by rw [hos]; rfl⟩
    · obtain ⟨n, os, hos⟩ := hthr x hx
      rw [Lot.kwaiters_setWarp, if_neg hout] at hos
      exact hos

/-! ### Mask instructions -/

theorem eraseDups_of_same {ws : List Nat} {w : Nat} (hne : ws ≠ []) (h : ∀ x ∈ ws, x = w) : ws.eraseDups = [w] := by
  cases ws with
  | nil => exact absurd rfl hne
  | cons x xs =>
    have hx : x = w := h x List.mem_cons_self
    have hrest : xs.filter (fun b => !b == x) = [] := List.filter_eq_nil_iff.mpr fun y hy => by
      simp [h y (List.mem_cons_of_mem _ hy), hx]
    rw [List.eraseDups_cons, hrest, hx]
    rfl

section
variable {s : State} {v : View} {p : BitVec 3} {uses : List Use} {w : Nat} (hne : v.parts ≠ []) (hw : ∀ a ∈ v.parts, a.w = w)
include hne hw

/-- A mask instruction of the participants of one warp acts once. -/
theorem State.maskOp_warp (h : s.runs v p true false uses) (f : View → Nat → List Agent → State → State) :
    s.maskOp uses p f = .next (f v w v.parts s) := by
  have hws : (v.parts.map (fun a => a.w)).eraseDups = [w] := eraseDups_of_same (by simpa using hne) (by simpa using hw)
  have hparts : v.parts.filter (fun a => a.w == w) = v.parts := List.filter_eq_self.mpr fun a ha => by simpa using hw a ha
  refine (State.instr_runs h _).trans ?_
  rw [hws, List.foldl_cons, List.foldl_nil, hparts]

theorem execKjoin_becomes (h : s.runs v p true false []) (k : BitVec 4) :
    v.maskBecomes s w k.toNat (execKjoin p k s) ((v.l.warp w).mem k.toNat)
      ((v.l.warp w).arr k.toNat ||| ((v.l.warp w).mem k.toNat &&& (laneMask v.parts).toNat)) := by
  obtain ⟨-, hl, -⟩ := State.view_eq h.1
  have hexec := State.maskOp_warp hne hw h (fun v w as s => (s.onWarp v.i.core v.i.bctx w
    (fun x => as.foldl (fun x a => x.join k.toNat a.l) x)).maskRelease v.i.core v.i.bctx w k.toNat)
  unfold State.onWarp at hexec
  rw [State.onLot_of_lot hl] at hexec
  rw [show execKjoin p k s = _ from hexec]
  exact View.maskBecomes_of_release hl (Warp.foldl_join _ _ _ fun a ha => ((State.runs_parts h).2 a ha).2)

theorem execKleave_becomes (h : s.runs v p true false []) (k : BitVec 4) :
    v.maskBecomes s w k.toNat (execKleave p k s) (andNot ((v.l.warp w).mem k.toNat) (laneMask v.parts).toNat)
      (andNot ((v.l.warp w).arr k.toNat) (laneMask v.parts).toNat) := by
  obtain ⟨-, hl, -⟩ := State.view_eq h.1
  have hexec := State.maskOp_warp hne hw h (fun v w as s => (s.onWarp v.i.core v.i.bctx w
    (fun x => as.foldl (fun x a => x.leaveMask k.toNat a.l) x)).maskRelease v.i.core v.i.bctx w k.toNat)
  unfold State.onWarp at hexec
  rw [State.onLot_of_lot hl] at hexec
  rw [show execKleave p k s = _ from hexec]
  exact View.maskBecomes_of_release hl (Warp.foldl_leaveMask _ _ _ fun a ha => ((State.runs_parts h).2 a ha).2)

end

/-- A mask that is written anew, the lanes already parked on it counting as arrived. -/
theorem Lot.rearm_setWarp (l : Lot) (w k : Nat) {y : Warp} {m r : Nat} (hmask : (l.warp w).MaskAt y k m r) :
    ∃ z, (l.setWarp w y).rearm w k = l.setWarp w z ∧ (l.warp w).MaskAt z k m
      (if (laneMask (l.kwaiters w k)).toNat = 0 then r else m &&& (laneMask (l.kwaiters w k)).toNat) := by
  unfold Lot.rearm
  dsimp only
  rw [Lot.kwaiters_setWarp, Lot.warp_setWarp, Lot.setWarp_setWarp, hmask.mem]
  split
  · exact ⟨y, rfl, hmask⟩
  · exact ⟨_, rfl, hmask.setArr (Nat.and_lt_two_pow _ (laneMask_lt _))⟩

section
variable {s : State} {v : View} {p : BitVec 3} {w : Nat} (hne : v.parts ≠ []) (hw : ∀ a ∈ v.parts, a.w = w)
include hne hw

theorem execKmov_becomes (h : s.runs v p true false []) {k k' : BitVec 4} (hk : k ≠ k') :
    v.maskBecomes s w k.toNat (execKmov p k k' s) ((v.l.warp w).mem k'.toNat)
      (if (laneMask (v.l.kwaiters w k.toNat)).toNat = 0 then (v.l.warp w).arr k'.toNat
        else (v.l.warp w).mem k'.toNat &&& (laneMask (v.l.kwaiters w k.toNat)).toNat) := by
  obtain ⟨-, hl, -⟩ := State.view_eq h.1
  have hexec : execKmov p k k' s = _ := State.maskOp_warp hne hw h _
  rw [hexec, if_neg hk, State.onLot_of_lot hl]
  obtain ⟨z, hz, hmask⟩ := v.l.rearm_setWarp w k.toNat
    (((Warp.MaskAt.refl (v.l.warp w) k.toNat).setMem (v := (v.l.warp w).mem k'.toNat) (Warp.mem_lt _ _)).setArr
      (v := (v.l.warp w).arr k'.toNat) (Warp.arr_lt _ _))
  rw [hz]
  exact View.maskBecomes_of_release hl hmask

theorem execKmov_same (h : s.runs v p true false []) (k : BitVec 4) : execKmov p k k s = .next s := by
  refine (State.maskOp_warp hne hw h _).trans ?_
  rw [if_pos rfl]

omit hne in
/-- The participant of the lowest home lane. -/
theorem lowest_eq {a : Agent} (ha : a ∈ v.parts) (hmin : ∀ y ∈ v.parts, a.l ≤ y.l) {b : Agent} {bs : List Agent} (hcons : v.parts = b :: bs) :
    bs.foldl (fun (m : Agent) x => if x.l < m.l then x else m) b = a := by
  have hleast : (fun (m : Agent) x => if x.l < m.l then x else m) = leastBy (fun x : Agent => (x.l : Int)) := by
    funext m x
    simp only [leastBy, Int.ofNat_lt]
  obtain ⟨hin, hall⟩ := foldl_leastBy (fun x : Agent => (x.l : Int)) bs b
  rw [← hleast, ← hcons] at hin hall
  have hle := hall a ha
  exact Agent.eq_of ((hw _ hin).trans (hw a ha).symm) (le_antisymm (by omega) (hmin _ hin))

theorem execKset_becomes {k : BitVec 4} {r : BitVec 7} (h : s.runs v p true false [use1 r]) {a : Agent} (ha : a ∈ v.parts)
    (hmin : ∀ y ∈ v.parts, a.l ≤ y.l) :
    let m := v.l.val a r 32 &&& (laneMask ((v.l.warpAgents w).filter (fun y => !(v.l.thr y).gone))).toNat
    v.maskBecomes s w k.toNat (execKset p k r s) m (m &&& (laneMask (v.l.kwaiters w k.toNat)).toNat) := by
  intro m
  obtain ⟨-, hl, -⟩ := State.view_eq h.1
  have hexec : execKset p k r s = _ := State.maskOp_warp hne hw h _
  obtain ⟨b, bs, hcons⟩ := List.exists_cons_of_ne_nil hne
  have hlow := lowest_eq hw ha hmin hcons
  rw [hexec, hcons]
  dsimp only
  rw [hlow, State.onLot_of_lot hl]
  obtain ⟨z, hz, hmask⟩ := v.l.rearm_setWarp w k.toNat
    (((Warp.MaskAt.refl (v.l.warp w) k.toNat).setMem (v := m) (Nat.and_lt_two_pow _ (laneMask_lt _))).setArr (v := 0) (by decide))
  rw [hz]
  have harr : (if (laneMask (v.l.kwaiters w k.toNat)).toNat = 0 then 0 else m &&& (laneMask (v.l.kwaiters w k.toNat)).toNat)
      = m &&& (laneMask (v.l.kwaiters w k.toNat)).toNat := by
    split
    · next hzero => rw [hzero, Nat.and_zero]
    · rfl
  rw [harr] at hmask
  exact View.maskBecomes_of_release hl hmask

theorem execKget_wrote {k : BitVec 4} {r : BitVec 7} (h : s.runs v p true false [use1 r]) :
    ∃ t, execKget p k r s = .next t ∧ s.wrote t v r 32 false (fun _ => (v.l.warp w).mem k.toNat) := by
  obtain ⟨-, hl, -⟩ := State.view_eq h.1
  obtain ⟨l', hfold, hframe, hholds, hothers⟩ := View.foldl_setVal_const (d := r) (width := 32) h (by simp [useW]) (.inl rfl)
    (fun _ => (v.l.warp w).mem k.toNat)
  refine ⟨s.setLot v.i.core v.i.bctx l', ?_, l', rfl, hframe, hholds, hothers, fun _ => rfl⟩
  refine (State.maskOp_warp hne hw h _).trans ?_
  rw [State.onLot_of_lot hl, hfold]

end

/-! ### KWAIT -/

theorem Thread.parkedAt_plain {t : Thread} (h : t.plain) (p : Park) (pc : VAddr) (hp : p.holds = true) : (t.parkedAt p pc).plain := by
  obtain ⟨hstop, hdbg, hstep, hexit, hwait⟩ := h
  refine ⟨hstop, ?_, ?_, hexit, hwait⟩
  · show (t.dbgPend || (t.stepping && _)) = false
    rw [hdbg, hstep]
    rfl
  · cases p with
    | clauseStart | waitc | debug => exact absurd hp Bool.false_ne_true
    | _ => rfl

theorem Lot.mem_warpAgents {l : Lot} {w : Nat} {a : Agent} : a ∈ l.warpAgents w ↔ a.w = w ∧ a.l < 32 ∧ w * 32 + a.l < l.nthreads := by
  unfold Lot.warpAgents Lot.lanesOf
  simp only [List.mem_map, List.mem_filter, List.mem_range, decide_eq_true_eq]
  constructor
  · rintro ⟨i, ⟨hi, hn⟩, rfl⟩
    exact ⟨rfl, hi, hn⟩
  · rintro ⟨rfl, hi, hn⟩
    exact ⟨a.l, ⟨hi, hn⟩, rfl⟩

/-- The participants that are members of a mask. -/
def View.members (v : View) (w k : Nat) : List Agent := v.parts.filter (fun a => bit ((v.l.warp w).mem k) a.l)

theorem View.mem_members {v : View} {w k : Nat} {a : Agent} : a ∈ v.members w k ↔ a ∈ v.parts ∧ bit ((v.l.warp w).mem k) a.l = true :=
  List.mem_filter

section
variable {s : State} {v : View} {p : BitVec 3} {w : Nat} (hne : v.parts ≠ []) (hw : ∀ a ∈ v.parts, a.w = w) (h : s.runs v p true false [])
  (hcalm : s.calm v.i.core) (hend : v.l.ending = false)
include hne hw h hcalm hend

/-- KWAIT lets the members among the participants arrive, and parks them. -/
theorem execKwait_parks (k : BitVec 4) :
    let mem := (v.l.warp w).mem k.toNat
    let arr := (v.l.warp w).arr k.toNat ||| (mem &&& (laneMask v.parts).toNat)
    ∃ u l1 y, (execKwait p k s = .next u ∧ v.members w k.toNat = [] ∨ execKwait p k s = .next (u.maskRelease v.i.core v.i.bctx w k.toNat))
      ∧ u.lot? v.i.core v.i.bctx = some l1 ∧ u.m = s.m ∧ (v.l.warp w).MaskAt y k.toNat mem arr
      ∧ l1 = { v.l.setWarp w y with threads := l1.threads }
      ∧ ∀ a : Agent, a.l < 32 → l1.thr a = if a ∈ v.members w k.toNat then (v.l.thr a).parkedAt (.kwait k.toNat) v.i.next else v.l.thr a := by
  intro mem arr
  obtain ⟨hi, hl, -⟩ := State.view_eq h.1
  obtain ⟨hnodup, hin⟩ := State.runs_parts h
  have hlane : ∀ a ∈ v.members w k.toNat, a.l < 32 := fun a ha => (hin a (List.mem_filter.mp ha).1).2
  have hmask : (v.l.warp w).MaskAt ((v.members w k.toNat).foldl (fun x a => x.join k.toNat a.l) (v.l.warp w)) k.toNat mem arr := by
    have hjoin := Warp.foldl_join (v.l.warp w) k.toNat (v.members w k.toNat) hlane
    have hand : mem &&& (laneMask (v.members w k.toNat)).toNat = mem &&& (laneMask v.parts).toNat := by
      refine Nat.eq_of_testBit_eq fun i => ?_
      rw [Nat.testBit_and, Nat.testBit_and, testBit_laneMask, testBit_laneMask]
      cases hbit : mem.testBit i with
      | false => rfl
      | true =>
        have hany : (v.members w k.toNat).any (fun a => a.l == i) = v.parts.any (fun a => a.l == i) := by
          unfold View.members
          rw [List.any_filter]
          refine congrArg (List.any v.parts) (funext fun a => ?_)
          cases ha : a.l == i with
          | false => rw [Bool.and_false]
          | true =>
            rw [bit_eq_testBit, beq_iff_eq.mp ha, Bool.and_true]
            exact hbit
        rw [hany]
    rwa [hand] at hjoin
  generalize hy : (v.members w k.toNat).foldl (fun x a => x.join k.toNat a.l) (v.l.warp w) = y at hmask
  have hexec : execKwait p k s = _ := State.maskOp_warp hne hw h _
  have hmembers : v.parts.filter (fun a => bit ((v.l.warp w).mem k.toNat) a.l) = v.members w k.toNat := rfl
  dsimp only at hexec
  rw [hmembers] at hexec
  unfold State.onWarp at hexec
  rw [State.onLot_of_lot hl] at hexec
  dsimp only at hexec
  rw [hy] at hexec
  by_cases hempty : v.members w k.toNat = []
  · rw [hempty, List.isEmpty_nil, if_pos rfl] at hexec
    refine ⟨s.setLot v.i.core v.i.bctx (v.l.setWarp w y), v.l.setWarp w y, y, .inl ⟨hexec, hempty⟩, State.lot?_setLot .., rfl, hmask, rfl,
      fun a _ => ?_⟩
    rw [hempty, if_neg List.not_mem_nil]
    rfl
  · have hrest := hmask.rest
    have hstill : (s.setLot v.i.core v.i.bctx (v.l.setWarp w y)).still v.i.core := by
      refine State.still_of_others (State.still_of_calm hcalm) hl (State.lot?_setLot ..)
        (fun _ _ hkey => State.lot?_setLot_other _ _ _ _ _ _ hkey) fun a ha => ⟨ha, Lot.rests_congr rfl ?_⟩
      by_cases haw : a.w = w
      · rw [haw, Lot.warp_setWarp, hrest]
        rfl
      · rw [Lot.warp_setWarp_other _ _ _ _ haw]
    obtain ⟨l1, run, hpark, hframe, hthr⟩ := State.parkAll_holds (s := s.setLot v.i.core v.i.bctx (v.l.setWarp w y)) (p := .kwait k.toNat) hi
      (State.lot?_setLot ..) hend hstill (as := v.members w k.toNat) (hnodup.filter _) hlane rfl
    rw [if_neg (by simpa using hempty), hpark, State.setLot_setLot] at hexec
    exact ⟨(s.setLot v.i.core v.i.bctx l1).setIssuer s.active run, l1, y, .inr hexec, State.lot?_setLot .., rfl, hmask, hframe, hthr⟩

theorem execKwait_holds (k : BitVec 4)
    (hrel : andNot ((v.l.warp w).mem k.toNat)
      ((v.l.warp w).arr k.toNat ||| ((v.l.warp w).mem k.toNat &&& (laneMask v.parts).toNat)) ≠ 0) :
    ∃ t l', execKwait p k s = .next t ∧ t.lot? v.i.core v.i.bctx = some l' ∧ (l'.warp w).mem k.toNat = (v.l.warp w).mem k.toNat
      ∧ (l'.warp w).arr k.toNat = (v.l.warp w).arr k.toNat ||| ((v.l.warp w).mem k.toNat &&& (laneMask v.parts).toNat)
      ∧ (∀ a ∈ v.parts, bit ((v.l.warp w).mem k.toNat) a.l = true →
        (l'.thr a).st = .parked (.kwait k.toNat) ∧ (l'.thr a).pc = v.i.next)
      ∧ (∀ y : Agent, y.l < 32 → y ∉ v.parts ∨ bit ((v.l.warp w).mem k.toNat) y.l = false → l'.thr y = v.l.thr y)
      ∧ l'.vregs = v.l.vregs ∧ t.m = s.m := by
  obtain ⟨u, l1, y, hexec, hl1, hm, hmask, hframe, hthr⟩ := execKwait_parks hne hw h hcalm hend k
  have hwarp : l1.warp w = y := by
    rw [hframe]
    exact Lot.warp_setWarp ..
  have hu : execKwait p k s = .next u := by
    refine hexec.elim (fun h => h.1) fun h => h.trans ?_
    rw [State.maskRelease_holds hl1]
    rw [hwarp, Bool.eq_false_iff]
    exact fun h => hrel (hmask.released.mp h)
  refine ⟨u, l1, hu, hl1, by rw [hwarp, hmask.mem], by rw [hwarp, hmask.arr], fun a ha hbit => ?_, fun x hx hout => ?_,
    by rw [hframe]; rfl, hm⟩
  · have hat := hthr a ((State.runs_parts h).2 a ha).2
    rw [if_pos (View.mem_members.mpr ⟨ha, hbit⟩)] at hat
    exact ⟨by rw [hat]; rfl, by rw [hat]; rfl⟩
  · rw [hthr x hx, if_neg]
    intro hmem
    obtain ⟨hin, hbit⟩ := View.mem_members.mp hmem
    exact hout.elim (fun h => h hin) (fun h => absurd (h.symm.trans hbit) Bool.false_ne_true)

theorem execKwait_releases (hwait : v.l.waitersPlain)
    (hparts : ∀ a ∈ v.parts, (v.l.thr a).plain ∧ (v.l.thr a).st = .issuing ∧ a ∈ v.l.warpAgents w) (k : BitVec 4)
    (hrel : andNot ((v.l.warp w).mem k.toNat)
      ((v.l.warp w).arr k.toNat ||| ((v.l.warp w).mem k.toNat &&& (laneMask v.parts).toNat)) = 0)
    (hsome : (v.l.warp w).mem k.toNat &&& (laneMask v.parts).toNat ≠ 0) :
    ∃ t l', execKwait p k s = .next t ∧ t.lot? v.i.core v.i.bctx = some l' ∧ (l'.warp w).mem k.toNat = (v.l.warp w).mem k.toNat
      ∧ (l'.warp w).arr k.toNat = 0
      ∧ (∀ a ∈ v.parts, bit ((v.l.warp w).mem k.toNat) a.l = true → (l'.thr a).st = .ready ∧ (l'.thr a).pc = v.i.next)
      ∧ (∀ y ∈ v.l.kwaiters w k.toNat, v.l.woken l' y) ∧ l'.vregs = v.l.vregs ∧ t.m = s.m := by
  obtain ⟨u, l1, y, hexec, hl1, hm, hmask, hframe, hthr⟩ := execKwait_parks hne hw h hcalm hend k
  have hlane : ∀ a ∈ v.parts, a.l < 32 := fun a ha => ((State.runs_parts h).2 a ha).2
  have hwarp : l1.warp w = y := by
    rw [hframe]
    exact Lot.warp_setWarp ..
  have hu : execKwait p k s = .next (u.maskRelease v.i.core v.i.bctx w k.toNat) := by
    refine hexec.elim (fun h => absurd ((bit_eq_zero_of_laneMask hlane).mpr fun a ha => ?_) hsome) id
    exact Bool.eq_false_iff.mpr fun hbit => (List.eq_nil_iff_forall_not_mem.mp h.2) a (View.mem_members.mpr ⟨ha, hbit⟩)
  have hplain1 : ∀ x ∈ l1.kwaiters w k.toNat, (l1.thr x).plain := fun x hx => by
    obtain ⟨hxw, hx32, hn, hst⟩ := Lot.mem_kwaiters.mp hx
    have hat := hthr x hx32
    by_cases hmem : x ∈ v.members w k.toNat
    · rw [hat, if_pos hmem]
      exact Thread.parkedAt_plain (hparts x (View.mem_members.mp hmem).1).1 _ _ rfl
    · rw [if_neg hmem] at hat
      rw [hat] at hst ⊢
      have hn' : w * 32 + x.l < v.l.nthreads := by rw [hframe] at hn; exact hn
      exact hwait x (Lot.kwaiter_waits (Lot.mem_kwaiters.mpr ⟨hxw, hx32, hn', hst⟩)).1 (by rw [hst]; rfl)
  obtain ⟨l', hplace, hl', hframe', hthr'⟩ := State.maskRelease_wakes (w := w) (k := k.toNat) hl1 (by rw [hframe]; exact hend) hplain1
    (by rw [hwarp]; exact hmask.released.mpr hrel)
  have hwarp' : l'.warp w = y.setArr k.toNat 0 := by
    rw [hframe', hwarp]
    exact Lot.warp_setWarp ..
  have hwakes : ∀ x : Agent, x ∈ l1.kwaiters w k.toNat → (l'.thr x).st = .ready ∧ (l'.thr x).pc = (l1.thr x).pc := fun x hx => by
    obtain ⟨n, os, hos⟩ := hthr' x (Lot.mem_kwaiters.mp hx).2.1
    rw [if_pos hx] at hos
    exact ⟨by rw [hos]; rfl, by rw [hos]; rfl⟩
  have hmask' := hmask.setArr (v := 0) (by decide)
  have hnth : l1.nthreads = v.l.nthreads := by rw [hframe]; rfl
  refine ⟨_, l', hu, hl', by rw [hwarp', hmask'.mem], by rw [hwarp', hmask'.arr], fun a ha hbit => ?_, fun x hx => ?_,
    by rw [hframe', hframe]; rfl, hplace.m.trans hm⟩
  · have hat := hthr a (hlane a ha)
    rw [if_pos (View.mem_members.mpr ⟨ha, hbit⟩)] at hat
    obtain ⟨haw, ha32, hn⟩ := Lot.mem_warpAgents.mp (hparts a ha).2.2
    obtain ⟨hst, hpc⟩ := hwakes a (Lot.mem_kwaiters.mpr ⟨haw, ha32, by rw [hnth]; exact hn, by rw [hat]; rfl⟩)
    exact ⟨hst, by rw [hpc, hat]; rfl⟩
  · obtain ⟨hxw, hx32, hn, hst⟩ := Lot.mem_kwaiters.mp hx
    have hat := hthr x hx32
    rw [if_neg fun hmem => by
      rw [(hparts x (View.mem_members.mp hmem).1).2.1] at hst
      exact TState.noConfusion hst] at hat
    obtain ⟨hst', hpc⟩ := hwakes x (Lot.mem_kwaiters.mpr ⟨hxw, hx32, by rw [hnth]; exact hn, by rw [hat]; exact hst⟩)
    exact ⟨hst', by rw [hpc, hat]⟩

end

/-- Settles O14: every mask instruction of one warp writes one mask and checks its release; KWAIT parks its members in between. -/
theorem maskRegisters : Obligations.MaskRegisters := by
  intro s v p k w hne hw x lanes mem arr parked becomes
  refine ⟨fun h => ⟨execKjoin_becomes hne hw h k, execKleave_becomes hne hw h k, fun k' hk => execKmov_becomes hne hw h hk,
    execKmov_same hne hw h k, fun hcalm hend hwait hparts =>
      ⟨execKwait_holds hne hw h hcalm hend k, execKwait_releases hne hw h hcalm hend hwait hparts k⟩⟩, ?_⟩
  exact fun r h => ⟨fun a ha hmin => execKset_becomes hne hw h ha hmin, execKget_wrote hne hw h⟩

end Sys2Proof.Machine
end

section
/-! Laws of translations (06_memory.md R167 to R175): a walk touches memory, TLBs and free values, and nothing else of the state. -/

namespace Sys2Proof.Machine

/-- The state but for memory, free values and what cores hold. -/
def State.offWalk (s : State) : State := { s with m := MemS.reset, free := 0, cores := [] }

theorem State.hostFill_offWalk (s : State) (pa : Nat) : (s.hostFill pa).offWalk = s.offWalk := by
  have hclean : ∀ (t : State) k drop, (t.hostClean k drop).offWalk = t.offWalk := fun t k drop => by
    unfold State.hostClean
    split
    · rfl
    · dsimp only
      split <;> rfl
  have hroom : ∀ (t : State) half, (t.hostRoom half).offWalk = t.offWalk := fun t half => by
    unfold State.hostRoom
    dsimp only
    split
    · rfl
    · exact (hclean _ _ _).trans rfl
  unfold State.hostFill
  dsimp only
  split
  · rfl
  · exact Eq.trans rfl (hroom _ _)

theorem State.walkCacheAdd_offWalk (s : State) (die : Nat) (e : WalkEntry) : (s.walkCacheAdd die e).offWalk = s.offWalk := by
  unfold State.walkCacheAdd
  dsimp only
  split <;> rfl

theorem State.walkCached_offWalk (s : State) (die ctx va : Nat) : (s.walkCached die ctx va).2.offWalk = s.offWalk := by
  have hfills : ∀ (rs : List (Nat × Nat × Option Nat)) (t : State),
      (rs.foldl (fun s r => if region r.2.1 = 2 then s.hostFill r.2.1 else s) t).offWalk = t.offWalk := fun rs t =>
    foldl_keeps State.offWalk _ (fun s r => by
      split
      · exact s.hostFill_offWalk _
      · rfl) rs t
  have hadds : ∀ (rs : List (Nat × Nat × Option Nat)) (t : State), (rs.foldl (fun s r => match r.2.2 with
      | some x => s.walkCacheAdd die ⟨ctx, r.1, va / 2 ^ (16 * r.1), x⟩
      | none => s) t).offWalk = t.offWalk := fun rs t =>
    foldl_keeps State.offWalk _ (fun s r => by
      split
      · exact s.walkCacheAdd_offWalk _ _
      · rfl) rs t
  unfold State.walkCached
  dsimp only
  refine (hadds _ _).trans ((hfills _ _).trans ?_)
  split <;> split <;> rfl

theorem State.walkInstall_offWalk (s : State) (c ctx va : Nat) : (s.walkInstall c ctx va).2.offWalk = s.offWalk := by
  have hcached := s.walkCached_offWalk (dieOf c) ctx va
  unfold State.walkInstall
  split
  · next pa attr modid big t ht =>
    rw [ht] at hcached
    rw [← hcached]
    unfold State.tlbInstall
    dsimp only
    split <;> rfl
  · exact hcached

/-- A translation changes memory, TLBs and free values alone. -/
theorem State.translate_offWalk (s : State) (c ctx va : Nat) : (s.translate c ctx va).2.offWalk = s.offWalk := by
  unfold State.translate
  split
  · rfl
  · split
    · rfl
    · split
      · split
        · rfl
        · dsimp only
          split
          · rfl
          · exact (State.walkInstall_offWalk _ _ _ _).trans rfl
      · exact s.walkInstall_offWalk c ctx va

section
variable {s t : State} (h : t.offWalk = s.offWalk)
include h

theorem State.lots_of_offWalk : t.lots = s.lots := (congrArg State.lots h).trans rfl
theorem State.running_of_offWalk : t.running = s.running := (congrArg State.running h).trans rfl
theorem State.accs_of_offWalk : t.accs = s.accs := (congrArg State.accs h).trans rfl
theorem State.dev_of_offWalk : t.dev = s.dev := (congrArg State.dev h).trans rfl

end

/-! ### Monitor filters (R84) -/

/-- A filter with room takes in a line: no monitor is lost, and no other filter has more entries. -/
theorem State.armFilter_room {s : State} {core line : Nat} {f : Nat × Nat}
    (h : (s.m.filters.filter (fun e => e.filter == f.1)).length < f.2) :
    ∃ fl, s.armFilter core line f = { s with m := { s.m with filters := fl } }
      ∧ ∀ g, g ≠ f.1 → (fl.filter (fun e => e.filter == g)).length ≤ (s.m.filters.filter (fun e => e.filter == g)).length := by
  have hlive : ∀ g, ((s.m.filters.filter (fun e => s.watched e.core e.line)).filter (fun e => e.filter == g)).length
      ≤ (s.m.filters.filter (fun e => e.filter == g)).length := fun g => by
    rw [List.filter_comm]
    exact List.length_filter_le _ _
  unfold State.armFilter
  dsimp only
  split
  · exact ⟨_, rfl, fun g _ => hlive g⟩
  · rw [if_pos (Nat.lt_of_le_of_lt (hlive f.1) h)]
    refine ⟨_, rfl, fun g hg => ?_⟩
    have hnew : ([⟨f.1, line, core⟩] : List FilterEntry).filter (fun e => e.filter == g) = [] := by simp [Ne.symm hg]
    rw [List.filter_append, hnew, List.append_nil]
    exact hlive g

theorem State.foldl_armFilter {core line : Nat} (fs : List (Nat × Nat)) : ∀ {s : State}, (fs.map (fun f => f.1)).Nodup →
    (∀ f ∈ fs, (s.m.filters.filter (fun e => e.filter == f.1)).length < f.2) →
    ∃ fl, fs.foldl (fun s f => s.armFilter core line f) s = { s with m := { s.m with filters := fl } } := by
  induction fs with
  | nil => exact fun _ _ => ⟨_, rfl⟩
  | cons f fs ih =>
    intro s hnodup hroom
    obtain ⟨hfresh, hnodup'⟩ := List.nodup_cons.mp hnodup
    obtain ⟨fl, hstep, hothers⟩ := State.armFilter_room (core := core) (line := line) (hroom f List.mem_cons_self)
    obtain ⟨fl', hrest⟩ := ih (s := { s with m := { s.m with filters := fl } }) hnodup' fun g hg =>
      Nat.lt_of_le_of_lt (hothers g.1 fun e => hfresh (List.mem_map.mpr ⟨g, hg, e⟩)) (hroom g (List.mem_cons_of_mem _ hg))
    exact ⟨fl', by rw [List.foldl_cons, hstep, hrest]⟩

theorem stackOf_lt (x : Nat) : stackOf x < 32 := by
  have h5 : ∀ hi lo, hi + 1 - lo ≤ 5 → bits x hi lo < 2 ^ 5 := fun hi lo h =>
    (bits_lt x hi lo).trans_le (Nat.pow_le_pow_right (by decide) h)
  unfold stackOf
  repeat' apply Nat.xor_lt_two_pow (n := 5)
  all_goals exact h5 _ _ (by decide)

theorem filtersOf_nodup (core line : Nat) : ((filtersOf core line).map (fun f => f.1)).Nodup := by
  unfold filtersOf
  split
  · have := stackOf_lt (bits (line * 128) 40 0)
    simp
    omega
  · simp
  · simp

end Sys2Proof.Machine
end

section
/-! MONITOR, WAITM and what ends it (03_issue.md R84; 16_ref_j_r.md R402, R403; 17_ref_s_z.md R448, R449; O21). -/

namespace Sys2Proof.Machine

/-! ### MONITOR -/

/-- The lot after a step has the thread given, and its vector registers as before. -/
def State.leaves (t : State) (v : View) (a : Agent) (x : Thread) : Prop :=
  ∃ l', t.lot? v.i.core v.i.bctx = some l' ∧ l'.thr a = x ∧ l'.vregs = v.l.vregs

theorem Lot.noteStop_issuing {l : Lot} {a : Agent} (hst : (l.thr a).st = .issuing) (hstop : (l.thr a).stop = none) (x : Stop) :
    l.noteStop a x = l.setThr a { l.thr a with stop := some x } := by
  unfold Lot.noteStop
  simp only [hst, hstop]

/-- A monitor that cannot be armed leaves its fault for the next header. -/
theorem State.monitor_fails {s : State} {v : View} {a : Agent} (hl : s.lot? v.i.core v.i.bctx = some v.l)
    (hst : (v.l.thr a).st = .issuing) (hstop : (v.l.thr a).stop = none) (x : Stop) :
    (s.onLot v.i.core v.i.bctx (fun l => (l.setThr a { l.thr a with mon := none }).noteStop a x)).leaves v a
      { v.l.thr a with mon := none, stop := some x } := by
  rw [State.onLot_of_lot hl]
  refine ⟨_, State.lot?_setLot .., ?_, ?_⟩
  · rw [Lot.noteStop_issuing (by rw [Lot.thr_setThr]; exact hst) (by rw [Lot.thr_setThr]; exact hstop), Lot.thr_setThr, Lot.thr_setThr]
  · rw [Lot.noteStop_issuing (by rw [Lot.thr_setThr]; exact hst) (by rw [Lot.thr_setThr]; exact hstop)]
    rfl

theorem State.monitor_arms {s : State} {v : View} {a : Agent} (hl : s.lot? v.i.core v.i.bctx = some v.l) (m : Monitor) :
    (s.onLot v.i.core v.i.bctx (fun l => l.setThr a { l.thr a with mon := some m })).leaves v a { v.l.thr a with mon := some m } := by
  rw [State.onLot_of_lot hl]
  exact ⟨_, State.lot?_setLot .., Lot.thr_setThr .., rfl⟩

section
variable {s : State} {v : View} {p : BitVec 3} {sp : Space} {sc : Scope} {r : BitVec 7} {a : Agent}
  (h : s.alone v p a true true [useAddr r sp])
include h

theorem execMonitor_alone : execMonitor p sp sc r s = .next (s.monitor1 v sp sc (v.l.addr a r sp 0) a) := by
  obtain ⟨hruns, -, hparts⟩ := h
  refine (State.instr_runs hruns _).trans ?_
  rw [hparts]
  rfl

theorem execMonitor_scratch (hsp : sp = .l) (hal : v.l.addr a r sp 0 % 4 = 0) (hin : v.l.addr a r sp 0 + 4 ≤ v.l.d.scr * 1024) :
    ∃ t, execMonitor p sp sc r s = .next t
      ∧ t.leaves v a { v.l.thr a with mon := some ⟨true, v.l.addr a r sp 0 / 128, sc, false, false, false⟩ } := by
  obtain ⟨-, hl, -⟩ := State.view_eq h.1.1
  refine ⟨_, execMonitor_alone h, ?_⟩
  unfold State.monitor1
  rw [if_neg (by simpa using hal), if_pos (beq_iff_eq.mpr hsp), if_neg (by omega)]
  exact State.monitor_arms hl _

theorem execMonitor_misaligned (hst : (v.l.thr a).st = .issuing) (hstop : (v.l.thr a).stop = none) (hal : v.l.addr a r sp 0 % 4 ≠ 0) :
    ∃ t, execMonitor p sp sc r s = .next t
      ∧ t.leaves v a { v.l.thr a with mon := none, stop := some ⟨0x10, 1, 0, v.l.addr a r sp 0, false, v.i.hdr⟩ } := by
  obtain ⟨-, hl, -⟩ := State.view_eq h.1.1
  refine ⟨_, execMonitor_alone h, ?_⟩
  unfold State.monitor1
  rw [if_pos (by simpa using hal)]
  exact State.monitor_fails hl hst hstop _

theorem execMonitor_outside (hst : (v.l.thr a).st = .issuing) (hstop : (v.l.thr a).stop = none) (hsp : sp = .l)
    (hal : v.l.addr a r sp 0 % 4 = 0) (hout : v.l.d.scr * 1024 < v.l.addr a r sp 0 + 4) :
    ∃ t, execMonitor p sp sc r s = .next t
      ∧ t.leaves v a { v.l.thr a with mon := none, stop := some ⟨0x11, 0, 0, v.l.addr a r sp 0, false, v.i.hdr⟩ } := by
  obtain ⟨-, hl, -⟩ := State.view_eq h.1.1
  refine ⟨_, execMonitor_alone h, ?_⟩
  unfold State.monitor1
  rw [if_neg (by simpa using hal), if_pos (beq_iff_eq.mpr hsp), if_pos hout]
  exact State.monitor_fails hl hst hstop _

theorem execMonitor_global {pa attr modid : Nat} {big : Bool} {s' : State} (hsp : sp ≠ .l) (hal : v.l.addr a r sp 0 % 4 = 0)
    (htrans : s.translate v.i.core v.l.ctx (v.l.addr a r sp 0) = (.ok pa attr modid big, s')) (hfault : accFault .ld sp pa attr = none)
    (hreg : region pa < 8)
    (hroom : ∀ f ∈ filtersOf v.i.core (pa / 128), (s'.m.filters.filter (fun e => e.filter == f.1)).length < f.2) :
    ∃ t, execMonitor p sp sc r s = .next t ∧ t.leaves v a { v.l.thr a with mon := some ⟨false, pa / 128, sc, false, false, false⟩ } := by
  obtain ⟨-, hl, -⟩ := State.view_eq h.1.1
  have hoff := s.translate_offWalk v.i.core v.l.ctx (v.l.addr a r sp 0)
  rw [htrans] at hoff
  have hl' : s'.lot? v.i.core v.i.bctx = some v.l := (State.lot?_of_lots (State.lots_of_offWalk hoff) _ _).trans hl
  refine ⟨_, execMonitor_alone h, ?_⟩
  unfold State.monitor1
  rw [if_neg (by simpa using hal), if_neg (by simpa using hsp), htrans]
  dsimp only
  rw [hfault]
  dsimp only
  rw [if_neg (by omega)]
  obtain ⟨fl, hfilters⟩ := State.foldl_armFilter (core := v.i.core) (line := pa / 128) (filtersOf v.i.core (pa / 128))
    (s := s'.onLot v.i.core v.i.bctx (fun l => l.setThr a { l.thr a with mon := some ⟨false, pa / 128, sc, false, false, false⟩ }))
    (filtersOf_nodup _ _) (by rw [State.onLot_of_lot hl']; exact hroom)
  rw [hfilters]
  exact State.monitor_arms hl' _

end

/-! ### WAITM -/

/-- The status of a WAITM by the monitor's state: a write seen, no live monitor, a timeout of 0, or a wait (R449). -/
theorem waitmNow_eq (t : Thread) (n : Nat) : waitmNow t n = match t.mon with
    | none => some 2
    | some m => if m.pending || m.written then some 0 else if m.lost then some 2 else if n = 0 then some 1 else none := by
  unfold waitmNow Thread.wroteMon
  cases t.mon <;> rfl

section
variable {s : State} {v : View} {p : BitVec 3} {d r : BitVec 7} {a : Agent} (h : s.alone v p a true true [use1 d, use1 r])
include h

theorem execWaitm_now {st : Nat} (hnow : waitmNow (v.l.thr a) (v.l.val a r 32) = some st) :
    ∃ t l', execWaitm p d r s = .next t ∧ t.lot? v.i.core v.i.bctx = some l' ∧ l'.holds a d 32 false st ∧ v.l.others l' [a] d 32
      ∧ (l'.thr a).st = (v.l.thr a).st := by
  obtain ⟨hruns, -, hparts⟩ := h
  obtain ⟨-, hl, -⟩ := State.view_eq hruns.1
  have ha : a ∈ v.parts := by rw [hparts]; exact List.mem_singleton.mpr rfl
  obtain ⟨hin, hlane⟩ := (State.runs_parts hruns).2 a ha
  have hfits : a.isBarker = false → d.toNat + Machine.regsOf 32 ≤ 128 := fun hb =>
    Lot.useFault_fits (width := 32) hb (Lot.instrFault_use (hruns.2.2 a hin) (by simp [useW]))
  refine ⟨s.setLot v.i.core v.i.bctx ((v.l.setVal a d 32 false st).setThr a ((v.l.setVal a d 32 false st).thr a).tookWrites), _, ?_,
    State.lot?_setLot .., ?_, ?_, ?_⟩
  · refine (State.instr_runs hruns _).trans ?_
    simp only [hparts, List.foldl_cons, List.foldl_nil, hnow]
    rw [State.onLot_of_lot hl]
    simp [hnow]
  · exact Lot.holds_setVal v.l a d 32 false st (by decide) hlane hfits
  · exact Lot.others_setVal v.l a d 32 false st hlane hfits
  · rw [Lot.thr_setThr, Lot.thr_setVal]
    rfl

theorem execWaitm_parks (hnow : waitmNow (v.l.thr a) (v.l.val a r 32) = none) (hcalm : s.calm v.i.core) (hend : v.l.ending = false) :
    ∃ t l', execWaitm p d r s = .next t ∧ t.lot? v.i.core v.i.bctx = some l' ∧ t.issuer? s.active = none
      ∧ (l'.thr a).st = .parked (.mon d.toNat (if v.l.val a r 32 = 2 ^ 32 - 1 then none else some (v.l.val a r 32)))
      ∧ (l'.thr a).pc = v.i.next := by
  obtain ⟨hruns, hagents, hparts⟩ := h
  obtain ⟨hi, hl, -⟩ := State.view_eq hruns.1
  have ha : a ∈ v.parts := by rw [hparts]; exact List.mem_singleton.mpr rfl
  have hlane := ((State.runs_parts hruns).2 a ha).2
  have hstill : (s.setLot v.i.core v.i.bctx v.l).still v.i.core :=
    State.still_of_others (State.still_of_calm hcalm) hl (State.lot?_setLot ..)
      (fun _ _ hne => State.lot?_setLot_other _ _ _ _ _ _ hne) fun x hx => ⟨hx, id⟩
  obtain ⟨l', hpark, -, hthr⟩ := State.parkAll_stays (s := s.setLot v.i.core v.i.bctx v.l) (as := [a])
    (p := .mon d.toNat (if v.l.val a r 32 = 0xFFFFFFFF then none else some (v.l.val a r 32))) hi (State.lot?_setLot ..) hend hstill
    (List.nodup_singleton a) (by simpa using hlane) (by simp [hagents]) (fun _ _ => trivial)
  have hat := hthr a hlane
  rw [if_pos (List.mem_singleton.mpr rfl)] at hat
  refine ⟨((s.setLot v.i.core v.i.bctx v.l).setLot v.i.core v.i.bctx l').setIssuer s.active none, l', ?_, State.lot?_setLot ..,
    State.issuer?_setIssuer .., by rw [hat]; rfl, by rw [hat]; rfl⟩
  refine (State.instr_runs hruns _).trans ?_
  simp only [hparts, List.foldl_cons, List.foldl_nil, hnow]
  rw [State.onLot_of_lot hl]
  simp only [hnow, List.filter_cons, Option.isNone_none, if_true, List.filter_nil, List.map_cons, List.map_nil, List.isEmpty_cons,
    Bool.false_eq_true, if_false]
  exact congrArg Host.Outcome.next hpark

end

/-! ### What ends a WAITM -/

/-- The wake of a thread that waits for its monitor: its status is written, and the writes before are forgotten. -/
theorem State.wakeMon_wakes {s : State} {t : LaneId} {l : Lot} {m : Monitor} {d : Nat} (hl : s.lot? t.core t.bctx = some l) (ht : t.l < 32)
    (hd : d < 128) (hin : l.inRange (laneAgent t) d 1 = true) (hmon : (l.thr (laneAgent t)).mon = some m)
    (hplain : (l.thr (laneAgent t)).plain) (hend : l.ending = false) (status : Nat) :
    ∃ l', (s.wakeMon t.core t.bctx (laneAgent t) d status).lot? t.core t.bctx = some l'
      ∧ l'.holds (laneAgent t) (BitVec.ofNat 7 d) 32 false status ∧ (l'.thr (laneAgent t)).st = .ready
      ∧ (l'.thr (laneAgent t)).mon = some { m with pending := false, written := false } := by
  let a := laneAgent t
  let m1 := l.setVal a (BitVec.ofNat 7 d) 32 false status
  let l1 := m1.setThr a (m1.thr a).tookWrites
  have hthr1 : l1.thr a = (l.thr a).tookWrites := by rw [Lot.thr_setThr, Lot.thr_setVal]
  have hend1 : l1.ending = false := by
    have hphase : l1.phase = l.phase := by
      show (l.setVal a (BitVec.ofNat 7 d) 32 false status).phase = l.phase
      rw [Lot.setVal_frame]
    unfold Lot.ending at hend ⊢
    rw [hphase]
    exact hend
  obtain ⟨l', n, -, hl', hframe, hthr⟩ := State.wakeAll_onPlace (State.lot?_setLot s t.core t.bctx l1) hend1 (List.nodup_singleton a)
    (fun x hx => by rw [List.mem_singleton.mp hx]; exact ht) (fun x hx => by rw [List.mem_singleton.mp hx, hthr1]; exact hplain)
  have hat := hthr a ht
  rw [if_pos (List.mem_singleton.mpr rfl), hthr1] at hat
  refine ⟨l', ?_, ?_, by rw [hat]; rfl, by rw [hat]; exact congrArg (Option.map _) hmon⟩
  · unfold State.wakeMon State.wake
    rw [State.onLot_of_lot hl, if_pos hin]
    exact hl'
  · have hholds := Lot.holds_setVal l a (BitVec.ofNat 7 d) 32 false status (by decide) ht fun _ => by
      rw [BitVec.toNat_ofNat, Nat.mod_eq_of_lt (by omega)]
      exact hd
    rw [hframe]
    exact hholds

/-- Settles O21: MONITOR by its checks, WAITM by the status that the monitor's state gives, and the two ends of its wait by one wake. -/
theorem monitors : Obligations.Monitors := by
  refine ⟨fun s v p sp sc r a => ?_, fun s v p d r a => ?_, fun s t l m d lim => ?_⟩
  · intro va next h
    exact ⟨execMonitor_scratch h, execMonitor_misaligned h, execMonitor_outside h,
      fun pa attr modid big s' => execMonitor_global h⟩
  · intro n atOnce h
    refine ⟨fun hmon => execWaitm_now h (by rw [waitmNow_eq, hmon]), fun m => ⟨fun hlost hpend hwrit hmon => ?_, fun hseen hmon => ?_,
      fun hlost hpend hwrit hn hmon => ?_, fun hlost hpend hwrit hn hmon => ?_⟩⟩
    · exact execWaitm_now h (by rw [waitmNow_eq, hmon]; simp [hlost, hpend, hwrit])
    · exact execWaitm_now h (by rw [waitmNow_eq, hmon]; simp only [Bool.or_eq_true, hseen, if_true])
    · exact execWaitm_now h (by rw [waitmNow_eq, hmon]; simp [hlost, hpend, hwrit, show v.l.val a r 32 = 0 from hn])
    · exact execWaitm_parks h (by rw [waitmNow_eq, hmon]; simp [hlost, hpend, hwrit, show v.l.val a r 32 ≠ 0 from hn])
  · intro a hl ht hd hin hmon hplain hend hst
    refine ⟨fun hpend => ?_, fun hlim => ?_⟩
    · obtain ⟨l', hl', hrest⟩ := State.wakeMon_wakes hl ht hd hin hmon hplain hend 0
      refine ⟨_, l', ?_, hl', hrest⟩
      show execMonitorReport t s = _
      unfold execMonitorReport
      simp only [hl, show (l.thr (laneAgent t)).mon = some m from hmon, show (l.thr (laneAgent t)).st = .parked (.mon d lim) from hst, hpend]
      rfl
    · obtain ⟨x, rfl⟩ := Option.isSome_iff_exists.mp hlim
      obtain ⟨l', hl', hrest⟩ := State.wakeMon_wakes hl ht hd hin hmon hplain hend (if m.pending || m.written then 0 else 1)
      refine ⟨_, l', ?_, hl', hrest⟩
      show execWaitmTimeout t s = _
      have hwrote : (l.thr (laneAgent t)).wroteMon = (m.pending || m.written) := by
        unfold Thread.wroteMon
        rw [show (l.thr (laneAgent t)).mon = some m from hmon]
      unfold execWaitmTimeout
      simp only [hl, show (l.thr (laneAgent t)).st = .parked (.mon d (some x)) from hst, hwrote]

end Sys2Proof.Machine
end

section
/-! Kicks, table commands and tags (03_issue.md R85; 07_ordering.md R195; 09_tiles.md R233, R234, R237, R241; 10_banks.md R264;
17_ref_s_z.md R439 to R442; O22). -/

namespace Sys2Proof.Machine

/-! ### Warp-scalar instructions -/

/-- The elected agent is the participant of the lowest home lane. -/
theorem View.elected_lowest {v : View} {a : Agent} (h : v.elected = some a) : a ∈ v.parts ∧ ∀ x ∈ v.parts, a.l ≤ x.l := by
  unfold View.elected at h
  cases hparts : v.parts with
  | nil => simp [hparts] at h
  | cons b bs =>
    have hleast : (fun (m : Agent) x => if x.l < m.l then x else m) = leastBy (fun x : Agent => (x.l : Int)) := by
      funext m x
      simp only [leastBy, Int.ofNat_lt]
    obtain ⟨hin, hall⟩ := foldl_leastBy (fun x : Agent => (x.l : Int)) bs b
    rw [hparts] at h
    simp only [Option.some.injEq] at h
    rw [← hleast, h] at hin hall
    exact ⟨hin, fun x hx => Int.ofNat_le.mp (hall x hx)⟩

/-- A warp-scalar instruction that runs acts through the elected agent. -/
theorem State.scalarOp_runs {s : State} {v : View} {p : BitVec 3} {uses : List Use} (h : s.runs v p true true uses) {a : Agent}
    (ha : v.elected = some a) (f : View → Agent → State → State) : s.scalarOp uses p f = .next (f v a s) := by
  have hin := ((State.runs_parts h).2 a (View.elected_lowest ha).1).1
  unfold State.scalarOp
  rw [h.1]
  dsimp only
  rw [ha]
  dsimp only
  rw [h.2.2 a hin]

/-! ### Kicks -/

/-- What a kick waits for: the writes that its warp has made or observed, and the acquires of its warp (R184, R195). -/
theorem State.mem_pendingOf {s : State} {c b : Nat} {l : Lot} (hl : s.lot? c b = some l) {y : Agent} {x : Acc} (hx : x ∈ s.accs)
    (h : (x.t = ⟨c, b, y.w, y.l⟩ ∧ x.kind.onlyReads = false) ∨ x.id ∈ (l.thr y).obs) : x.id ∈ s.pendingOf c b y := by
  unfold State.pendingOf
  rw [hl]
  refine List.mem_append_left _ (List.mem_map_of_mem (List.mem_filter.mpr ⟨hx, ?_⟩))
  rcases h with ⟨ht, hk⟩ | hobs
  · simp [ht, hk]
  · simp [hobs]

theorem State.mem_kickAfter_of_pending {s : State} {c b w i : Nat} {l : Lot} {y : Agent} (hy : y ∈ l.crew w) (hi : i ∈ s.pendingOf c b y) :
    i ∈ s.kickAfter c b l w := by
  refine List.mem_append_left _ ?_
  rw [List.mem_eraseDups]
  exact List.mem_flatMap.mpr ⟨y, hy, hi⟩

theorem State.mem_kickAfter_of_fence {s : State} {c b w : Nat} {l : Lot} {f : FenceRec} (hf : f ∈ s.fences) (hc : f.t.core = c)
    (hb : f.t.bctx = b) (hw : f.t.w = w) (hk : f.kind ≠ .rel) : f.id ∈ s.kickAfter c b l w := by
  refine List.mem_append_right _ (List.mem_map_of_mem (List.mem_filter.mpr ⟨hf, ?_⟩))
  simp [hc, hb, hw, hk]

/-- A kick has entered its lot's queue, behind what it releases, and counts in CP of every active warp (R85, R195, R233). -/
def State.enteredKick (s t : State) (v : View) (a : Agent) (kind : KickKind) (off first count : Nat) : Prop :=
  ∃ l' id after, t = { s with nextId := t.nextId, lots := t.lots } ∧ t.lot? v.i.core v.i.bctx = some l'
    ∧ l' = { v.l with kicks := v.l.kicks ++ [⟨id, kind, off, first, count, a, v.i.hdr, 1, after, v.warps⟩], warps := l'.warps }
    ∧ (∀ w, l'.warp w = if w ∈ v.warps then { v.l.warp w with cp := (v.l.warp w).cp + 1 } else v.l.warp w)
    ∧ (∀ y ∈ v.l.crew a.w, (∀ x ∈ s.accs, x.t = ⟨v.i.core, v.i.bctx, y.w, y.l⟩ → x.kind.onlyReads = false → x.id ∈ after)
      ∧ ∀ x ∈ s.accs, x.id ∈ (v.l.thr y).obs → x.id ∈ after)
    ∧ ∀ f ∈ s.fences, f.t.core = v.i.core → f.t.bctx = v.i.bctx → f.t.w = a.w → f.kind ≠ .rel → f.id ∈ after

theorem State.enterKick_enters {s : State} {v : View} (hl : s.lot? v.i.core v.i.bctx = some v.l) (a : Agent) (kind : KickKind)
    (off first count : Nat) : s.enteredKick (s.enterKick v a kind off first count) v a kind off first count := by
  have hl1 : s.fresh.2.lot? v.i.core v.i.bctx = some v.l := hl
  let k : Kick := ⟨s.nextId, kind, off, first, count, a, v.i.hdr, 1, s.fresh.2.kickAfter v.i.core v.i.bctx v.l a.w, v.warps⟩
  obtain ⟨l', hl', hframe, hwarp, hstate⟩ := State.foldl_bump
    (State.lot?_setLot s.fresh.2 v.i.core v.i.bctx { v.l with kicks := v.l.kicks ++ [k] }) 2 (nodup_eraseDups (v.i.agents.map (fun a => a.w)))
  have hexec : s.enterKick v a kind off first count
      = v.warps.foldl (fun s w => s.onWarp v.i.core v.i.bctx w (fun x => x.bump 2))
        (s.fresh.2.setLot v.i.core v.i.bctx { v.l with kicks := v.l.kicks ++ [k] }) := by
    show v.warps.foldl _ (s.fresh.2.onLot v.i.core v.i.bctx (fun l => { l with kicks := l.kicks ++ [k] })) = _
    rw [State.onLot_of_lot hl1]
  unfold State.enteredKick
  rw [hexec]
  refine ⟨l', s.nextId, s.fresh.2.kickAfter v.i.core v.i.bctx v.l a.w, ?_, hl', hframe, hwarp, fun y hy => ⟨fun x hx ht hk => ?_,
    fun x hx hobs => ?_⟩, fun f hf hc hb hw hk => State.mem_kickAfter_of_fence hf hc hb hw hk⟩
  · unfold View.warps
    rw [hstate]
    rfl
  · exact State.mem_kickAfter_of_pending hy (State.mem_pendingOf hl1 hx (.inl ⟨ht, hk⟩))
  · exact State.mem_kickAfter_of_pending hy (State.mem_pendingOf hl1 hx (.inr hobs))

section
variable {s : State} {v : View} {p : BitVec 3} {r b : BitVec 7} {a : Agent} (ha : v.elected = some a)
include ha

theorem State.kickRecord_enters (h : s.runs v p true true [use1 r]) (hal : v.l.val a r 32 % 64 = 0)
    (hin : v.l.val a r 32 + 64 ≤ v.l.d.scr * 1024) (kind : KickKind) :
    ∃ t, s.kickRecord p r kind = .next t ∧ s.enteredKick t v a kind (v.l.val a r 32) 0 0 := by
  obtain ⟨-, hl, -⟩ := State.view_eq h.1
  refine ⟨_, (State.scalarOp_runs h ha _).trans ?_, State.enterKick_enters hl a kind (v.l.val a r 32) 0 0⟩
  dsimp only
  rw [if_neg (by simpa using hal), if_neg (by omega)]

theorem execTbind_enters (h : s.runs v p true true [use1 b, use2 r]) (hcount : v.l.val a b 32 / 256 % 256 ≠ 0)
    (hfits : v.l.val a b 32 % 256 + v.l.val a b 32 / 256 % 256 ≤ 256) (hal : v.l.addr a r .g 0 % 128 = 0) :
    ∃ t, execTbind p b r s = .next t
      ∧ s.enteredKick t v a .tbind (v.l.addr a r .g 0) (v.l.val a b 32 % 256) (v.l.val a b 32 / 256 % 256) := by
  obtain ⟨-, hl, -⟩ := State.view_eq h.1
  have hlow : bits (v.l.val a b 32) 7 0 = v.l.val a b 32 % 256 := by simp [bits]
  have hhigh : bits (v.l.val a b 32) 15 8 = v.l.val a b 32 / 256 % 256 := by simp [bits]
  refine ⟨_, (State.scalarOp_runs h ha _).trans ?_,
    State.enterKick_enters hl a .tbind (v.l.addr a r .g 0) (v.l.val a b 32 % 256) (v.l.val a b 32 / 256 % 256)⟩
  dsimp only
  rw [hlow, hhigh, if_neg hcount, if_neg (by omega), if_neg (by simpa using hal)]

end

/-! ### Tags -/

/-- The tags of a mask as a thread names it. -/
def Lot.tagMask (l : Lot) (r : BitVec 7) (a : Agent) : Word64 := BitVec.ofNat 64 (l.val a r 64)

section
variable {s : State} {v : View} {p : BitVec 3} {r : BitVec 7} (h : s.runs v p true true [use2 r]) (all : Bool)
include h

theorem State.tagWait_goes (hholds : ∀ a ∈ v.parts, v.l.tagMask r a = 0 ∨ tagMet v.l.tags all (v.l.tagMask r a) = true) :
    s.tagWait p r all = .next s := by
  have hparks : v.parts.filter (fun a => v.l.tagMask r a != 0 && !tagMet v.l.tags all (v.l.tagMask r a)) = [] :=
    List.filter_eq_nil_iff.mpr fun a ha => by rcases hholds a ha with h | h <;> simp [h]
  refine (State.instr_runs h _).trans ?_
  unfold Lot.tagMask at hparks
  simp only [hparks, List.map_nil, List.isEmpty_nil, if_true]

theorem State.tagWait_parks {a : Agent} (hagents : v.i.agents = [a]) (hparts : v.parts = [a]) (hmask : v.l.tagMask r a ≠ 0)
    (hmet : tagMet v.l.tags all (v.l.tagMask r a) = false) (hcalm : s.calm v.i.core) (hend : v.l.ending = false) :
    ∃ t l', s.tagWait p r all = .next t ∧ t.lot? v.i.core v.i.bctx = some l' ∧ t.issuer? s.active = none
      ∧ (l'.thr a).st = .parked (.tag all (v.l.tagMask r a)) ∧ (l'.thr a).pc = v.i.next ∧ l'.tags = v.l.tags := by
  obtain ⟨hi, hl, -⟩ := State.view_eq h.1
  have hlane := ((State.runs_parts h).2 a (by rw [hparts]; exact List.mem_singleton.mpr rfl)).2
  obtain ⟨l', hpark, hframe, hthr⟩ := State.parkAll_stays (as := [a]) (p := .tag all (v.l.tagMask r a)) hi hl hend
    (State.still_of_calm hcalm) (List.nodup_singleton a) (by simpa using hlane) (by simp [hagents]) (fun _ _ => trivial)
  have hat := hthr a hlane
  rw [if_pos (List.mem_singleton.mpr rfl)] at hat
  refine ⟨(s.setLot v.i.core v.i.bctx l').setIssuer s.active none, l', ?_, State.lot?_setLot .., State.issuer?_setIssuer ..,
    by rw [hat]; rfl, by rw [hat]; rfl, by rw [hframe]⟩
  refine (State.instr_runs h _).trans ?_
  have hparks : v.parts.filter (fun a => v.l.tagMask r a != 0 && !tagMet v.l.tags all (v.l.tagMask r a)) = [a] := by
    rw [hparts, List.filter_cons, if_pos (by simp only [bne_iff_ne.mpr hmask, hmet]; rfl), List.filter_nil]
  unfold Lot.tagMask at hparks
  simp only [hparks, List.map_cons, List.map_nil, List.isEmpty_cons, Bool.false_eq_true, if_false]
  exact congrArg Host.Outcome.next hpark

/-- TCLR clears the tags that a participant names. -/
theorem execTclr_clears : ∃ t l', execTclr p r s = .next t ∧ t = s.setLot v.i.core v.i.bctx l' ∧ l' = { v.l with tags := l'.tags }
    ∧ ∀ i, i < 64 → l'.tags.getLsbD i = (v.l.tags.getLsbD i && v.parts.all (fun a => !(v.l.tagMask r a).getLsbD i)) := by
  have hfold : ∀ (as : List Agent) (tags : Word64),
      let l' := as.foldl (fun l t => { l with tags := l.tags &&& ~~~(BitVec.ofNat 64 (l.val t r 64)) }) { v.l with tags := tags }
      l' = { v.l with tags := l'.tags } ∧ ∀ i, i < 64 →
        l'.tags.getLsbD i = (tags.getLsbD i && as.all (fun a => !(v.l.tagMask r a).getLsbD i)) := fun as => by
    induction as with
    | nil => exact fun tags => ⟨rfl, fun i _ => (Bool.and_true _).symm⟩
    | cons a as ih =>
      intro tags
      obtain ⟨hframe, hbits⟩ := ih (tags &&& ~~~(v.l.tagMask r a))
      refine ⟨hframe, fun i hi => (hbits i hi).trans ?_⟩
      rw [BitVec.getLsbD_and, BitVec.getLsbD_not, List.all_cons, Bool.and_assoc]
      simp [hi]
  obtain ⟨hframe, hbits⟩ := hfold v.parts v.l.tags
  exact ⟨_, _, State.each_runs h _, rfl, hframe, hbits⟩

end

/-- TFFR finds the lowest tag that is set under its mask. -/
theorem execTffr_computes (p : BitVec 3) (d r : BitVec 7) : (Instr.tffr p d r).computes p true [use1 d, use2 r] d 32 false (fun v a =>
    ((List.range 64).find? (fun i => v.l.tags.getLsbD i && bit (v.l.val a r 64) i)).getD 64) := by
  intro s v h
  obtain ⟨t, hexec, hwrote⟩ := State.each_wrote (d := d) (width := 32) h (by simp [useW]) (by decide) false
    (fun l a => lowestSet (l.tags.toNat &&& l.val a r 64) 64) (fun m hm a ha hregs hbark => by
      have hval : m.val a r 64 = v.l.val a r 64 := Lot.val_own (fun hb =>
        Lot.useFault_fits (width := 64) hb (Lot.instrFault_use (h.2.2 a ((State.runs_parts h).2 a ha).1) (by simp [useW]))) hregs hbark
      dsimp only
      rw [hval, hm])
  refine ⟨t, hexec, State.wrote_congr (fun a _ => ?_) hwrote⟩
  unfold lowestSet
  refine congrArg (fun q => ((List.range 64).find? q).getD 64) (funext fun i => ?_)
  rw [bit_eq_testBit, bit_eq_testBit, Nat.testBit_and]
  rfl

/-- Settles O22: a kick is one entry of its lot's queue, behind what its warp has made, observed or acquires; a tag wait parks where its
condition fails. -/
theorem kicksAndTags : Obligations.KicksAndTags := by
  refine ⟨fun s v p r b a => ?_, fun s v p d r => ?_⟩
  · intro entered off ha
    obtain ⟨hin, hleast⟩ := View.elected_lowest ha
    refine ⟨hin, hleast, fun h hal hin => ⟨State.kickRecord_enters ha h hal hin .order, State.kickRecord_enters ha h hal hin .tload,
      State.kickRecord_enters ha h hal hin .tqr⟩, ?_⟩
    exact fun h hcount hfits hal => execTbind_enters ha h hcount hfits hal
  · intro mask wait
    have hany : ∀ m : Word64, tagMet v.l.tags false m = true ↔ m = 0 ∨ v.l.tags &&& m ≠ 0 := fun m => by simp [tagMet]
    have hall : ∀ m : Word64, tagMet v.l.tags true m = true ↔ v.l.tags &&& m = m := fun m => by simp [tagMet]
    refine ⟨fun h => ⟨⟨fun hholds => ?_, fun a hagents hparts hnot hcalm hend => ?_⟩, ⟨fun hholds => ?_, fun a hagents hparts hnot hcalm hend => ?_⟩,
      execTclr_clears h⟩, execTffr_computes p d r⟩
    · exact State.tagWait_goes h false fun a ha => .inr ((hany _).mpr (hholds a ha))
    · exact State.tagWait_parks h false hagents hparts (fun hzero => hnot (.inl hzero))
        (Bool.eq_false_iff.mpr fun hmet => hnot ((hany _).mp hmet)) hcalm hend
    · exact State.tagWait_goes h true fun a ha => .inr ((hall _).mpr (hholds a ha))
    · exact State.tagWait_parks h true hagents hparts (fun hzero => hnot (show v.l.tags &&& mask a = mask a by
        rw [show mask a = 0#64 from hzero, BitVec.and_zero]))
        (Bool.eq_false_iff.mpr fun hmet => hnot ((hall _).mp hmet)) hcalm hend

end Sys2Proof.Machine
end

section
/-!
O50 fails on a state whose table of lots lists the same place twice: CLAUSE_START writes the lot of the run back, even where no
agent of the run has a stop to take, and writing a place drops its second entry, while O50 has every field but `running`
unchanged.
-/
namespace Sys2Proof.Machine

/-- A unit whose run of one thread is about to fetch the clause at 0x200000. -/
def waitingIssuer : Issuer := { fetchIssuer ⟨0, 0⟩ [] with hdr := 0x200000, fetched := false, runWords := 23 }

/-- Page tables that map the page of 0x200000, and a clause of one NOP there. -/
def nopClause : Memory :=
  [(0, 1), (2, 8), (0x80000, 1), (0x80002, 0x10), (0x100000, 1), (0x100002, 0x18), (0x180000, 31), (0x180008, 31), (0x18000C, 1),
    (0x200000, 1), (0x200003, 0xA2), (0x200006, 0x10), (0x200007, 0x7C)]

/-- The unit waits before the clause, and its lot is listed twice. -/
def twiceListed : State :=
  { State.reset with
    running := [(0, some waitingIssuer)], lots := [(0, some fetchLot), (0, some fetchLot)],
    m := { State.reset.m with mem := nopClause } }

/-- The header of the clause of `twiceListed`, and the state that reading it leaves. -/
def twiceHeader : Fetched × State :=
  ({ twiceListed with active := 0 } : State).fetchWord waitingIssuer.core fetchLot.ctx waitingIssuer.hdr.toNat

/-- The words of the clause of `twiceListed`, and the state that reading them leaves. -/
def twiceWords : List Fetched × State :=
  twiceHeader.2.fetchWords waitingIssuer.core fetchLot.ctx ((waitingIssuer.hdr.toNat + 4) % 2 ^ 80) (hdrCount 0xA2000001)

theorem twiceListed_waits :
    twiceListed.issuer? 0 = some waitingIssuer ∧ waitingIssuer.fetched = false ∧ twiceListed.unitHeld 0 waitingIssuer = false
    ∧ twiceListed.lot? 0 0 = some fetchLot ∧ waitingIssuer.agents ≠ []
    ∧ ∀ a ∈ waitingIssuer.agents, (fetchLot.thr a).stop = none ∧ a.isBarker = false := by decide +kernel

theorem twiceHeader_word : twiceHeader.1 = .ok 0xA2000001 := by decide +kernel

theorem pair_of_fst {α β : Type} {p : α × β} {a : α} (h : p.1 = a) : p = (a, p.2) := Prod.ext h rfl

theorem twiceWords_fetched :
    twiceWords.1 = [.ok 0x7C100000] ∧ wordsFault 0xA2000001 [.ok 0x7C100000] 0 16 = none ∧ twiceWords.2.lot? 0 0 = some fetchLot
    ∧ twiceWords.2.issuer? 0 = some waitingIssuer ∧ twiceWords.2.active = 0 := by decide +kernel

/-- The start condition of R86 holds for the clause. -/
theorem twiceWords_startable :
    (∀ a ∈ waitingIssuer.agents, (fetchLot.warp a.w).admits (clauseNeeds 0xA2000001 [0x7C100000])
        (8 - (twiceWords.2.unitServed 0 waitingIssuer).logsUsed 0 0 a.w) = true)
    ∧ (twiceWords.2.unitServed 0 waitingIssuer).entriesUsed 0
        + waitingIssuer.agents.length * (clauseNeeds 0xA2000001 [0x7C100000]).entries ≤ 3072 := by decide +kernel

theorem twiceWords_lists_two : (twiceWords.2.unitServed 0 waitingIssuer).lots.length = 2 := by decide +kernel

/-- CLAUSE_START lists the lot once. -/
theorem clauseStart_lists_one : ({ twiceListed with active := 0 } : State).clauseStart.lots.length = 1 := by decide +kernel

theorem eq_of_exec_clauseStart {u : Nat} {s t : State} (h : exec (.clauseStart u) s = .next t) :
    t = ({ s with active := u } : State).clauseStart := by
  injection h with heq
  exact heq.symm

/-- Refutes O50: in `twiceListed` CLAUSE_START writes the lot of the run back and so drops the second entry of its place, so
that the table of lots changes too. -/
theorem not_issue : ¬ Obligations.Issue := by
  unfold Obligations.Issue
  rintro ⟨-, -, clause, -⟩
  obtain ⟨hi, hf, hheld, hl, hne, hstops⟩ := twiceListed_waits
  obtain ⟨hwords, hfault, hl2, hi2, hact⟩ := twiceWords_fetched
  obtain ⟨hstart, hentries⟩ := twiceWords_startable
  obtain ⟨t, hrun, hsame, -⟩ := clause twiceListed twiceHeader.2 twiceWords.2 0 waitingIssuer fetchLot 0xA2000001 [.ok 0x7C100000]
    hi hf hheld hl hne hstops (pair_of_fst twiceHeader_word) (by decide +kernel) (by decide +kernel) (pair_of_fst hwords) hfault hl2 hi2 hact
    hstart hentries
  have ht : t = ({ twiceListed with active := 0 } : State).clauseStart := eq_of_exec_clauseStart hrun
  have hone : t.lots.length = 1 := ht ▸ clauseStart_lists_one
  have htwo : t.lots.length = 2 := by rw [hsame]; exact twiceWords_lists_two
  omega

end Sys2Proof.Machine
end

section
/-!
O34 fails on an access whose place names a context beyond the four of a core: the lot at context 4 of core 0 is the one at
context 0 of core 1, of which `calm` of core 0 says nothing. PAGE_WALK looks again at the threads of that lot, and one that
waits for counters goes on, while O34 has nothing but the phase of the access changed.
-/
namespace Sys2Proof.Machine

/-- A lot of one thread that waits in WAITC for counters that are zero. -/
def waitingLot : Lot := { fetchLot with threads := [(0, { Thread.none with st := .parked (.waitc 0) })] }

/-- A load of an aligned scratchpad word, before its checks, at context 4 of core 0. -/
def strayAcc : Acc :=
  { id := 1, op := 1, t := ⟨0, 4, 0, 0⟩, ctx := 0, kind := .ld, hdr := 0, iw := [], sp := .l, flow := 0, va := 0, size := 4,
    scope := .lot, order := .relaxed, aop := .add, ty := .b32, data := 0, cmp := 0, dst := none, aux := 0, phase := .walk,
    pa := 0, attr := 0, modid := 0, after := [], gates := [], credit := true, delivered := false, half := 0, link := 0,
    back := none, lim := 0 }

/-- The load is the only access, and the waiting lot stands where its place points. -/
def strayState : State := { State.reset with accs := [strayAcc], lots := [(4, some waitingLot)] }

theorem strayState_alone : strayState.accs = [strayAcc] ∧ strayState.fences = [] ∧ strayState.calm 0
    ∧ strayState.lot? 0 4 = some waitingLot := by unfold State.calm; decide +kernel

/-- The load passes its checks: no lock, no stop of its thread, and its word in the share. -/
theorem strayState_walks : (strayState.core 0).locks = [] ∧ (waitingLot.thr (laneAgent strayAcc.t)).stop = none
    ∧ strayAcc.va + strayAcc.size ≤ waitingLot.d.scr * 1024 := by decide +kernel

/-- The state of the thread of the waiting lot, where the lot is there. -/
def strayThread (s : State) : Option TState := (s.lot? 0 4).map (fun l => (l.thr ⟨0, 0⟩).st)

/-- The outcome of the PAGE_WALK has the thread READY. -/
theorem pageWalk_strayState :
    (match exec (.pageWalk 1) strayState with | .next t => strayThread t | _ => none) = some .ready := by decide +kernel

theorem strayThread_setAcc (s : State) (a : Acc) : strayThread (s.setAcc a) = strayThread s := rfl

theorem strayThread_strayState : strayThread strayState = some (.parked (.waitc 0)) := by decide +kernel

/-- Refutes O34: in `strayState` PAGE_WALK of the aligned load lets the thread of the lot go on from its WAITC. -/
theorem not_accessEvents : ¬ Obligations.AccessEvents := by
  unfold Obligations.AccessEvents
  intro h
  obtain ⟨haccs, hfences, hcalm, hlot⟩ := strayState_alone
  obtain ⟨hlocks, hstop, hshare⟩ := strayState_walks
  obtain ⟨walk, -⟩ := h strayState strayAcc waitingLot haccs hfences rfl rfl rfl hcalm hlot (by decide)
  obtain ⟨passes, -⟩ := walk rfl (.inl rfl) rfl hlocks hstop
  have hrun : exec (.pageWalk 1) strayState = .next (strayState.setAcc { strayAcc with phase := .ready }) := passes (by decide) hshare
  have hready := pageWalk_strayState
  rw [hrun] at hready
  have hsame : strayThread strayState = some .ready := hready
  rw [strayThread_strayState] at hsame
  exact absurd hsame (by decide)

end Sys2Proof.Machine
end

section
/-! Laws of the matrix array: ranges of a table, the elements of tiles, and the sums of a sign-select MMA (R110, R249). -/
namespace Sys2Proof.Machine

/-! ### Ranges of a table -/

theorem Tbl.get_append_of_absent_left {α : Type} {d : α} {t u : Tbl α} {k : Nat} (h : ∀ e ∈ t, e.1 ≠ k) :
    Tbl.get d (t ++ u) k = Tbl.get d u k := by
  induction t with
  | nil => rfl
  | cons e t ih =>
    rw [List.cons_append, Tbl.get, if_neg (h e List.mem_cons_self)]
    exact ih fun e' he' => h e' (List.mem_cons_of_mem _ he')

theorem Tbl.get_append_of_absent_right {α : Type} {d : α} {t u : Tbl α} {k : Nat} (h : ∀ e ∈ u, e.1 ≠ k) :
    Tbl.get d (t ++ u) k = Tbl.get d t k := by
  induction t with
  | nil => exact Tbl.get_of_absent d u k h
  | cons e t ih => rw [List.cons_append, Tbl.get, Tbl.get, ih]

theorem Tbl.slice_eq_map {α : Type} (d : α) (t : Tbl α) (lo n : Nat) :
    Tbl.slice d t lo n = (List.range n).map (fun i => Tbl.get d t (lo + i)) := by
  refine List.map_congr_left fun i hi => ?_
  have hin : (decide (lo ≤ lo + i) && decide (lo + i < lo + n)) = true := by simpa using hi
  exact (Tbl.get_filter_key d t (fun k => decide (lo ≤ k) && decide (k < lo + n)) (lo + i)).trans (if_pos hin)

/-- Entries of the keys from `lo` on, of which the default is not listed. -/
def Tbl.listed {α : Type} [DecidableEq α] (d : α) (lo : Nat) (f : Nat → α) (n : Nat) : Tbl α :=
  (List.range n).filterMap (fun i => if f i = d then none else some (lo + i, f i))

theorem Tbl.key_of_mem_listed {α : Type} [DecidableEq α] {d : α} {lo n : Nat} {f : Nat → α} {e : Nat × α}
    (h : e ∈ Tbl.listed d lo f n) : lo ≤ e.1 ∧ e.1 < lo + n := by
  obtain ⟨i, hi, he⟩ := List.mem_filterMap.mp h
  rw [List.mem_range] at hi
  split at he
  · cases he
  · cases he
    exact ⟨Nat.le_add_right _ _, Nat.add_lt_add_left hi lo⟩

theorem Tbl.get_listed {α : Type} [DecidableEq α] (d : α) (lo : Nat) (f : Nat → α) {n i : Nat} (hi : i < n) :
    Tbl.get d (Tbl.listed d lo f n) (lo + i) = f i := by
  induction n with
  | zero => omega
  | succ n ih =>
    have hsplit : Tbl.listed d lo f (n + 1) = Tbl.listed d lo f n ++ (if f n = d then [] else [(lo + n, f n)]) := by
      unfold Tbl.listed
      rw [List.range_succ, List.filterMap_append]
      by_cases hd : f n = d <;> simp [hd]
    rw [hsplit]
    by_cases hin : i = n
    · subst hin
      rw [Tbl.get_append_of_absent_left fun e he => (Tbl.key_of_mem_listed he).2.ne]
      by_cases hd : f i = d <;> simp [hd, Tbl.get]
    · rw [Tbl.get_append_of_absent_right, ih (by omega)]
      intro e he
      split at he
      · cases he
      · rw [List.mem_singleton.mp he]
        dsimp only
        omega

theorem Tbl.get_putRange {α : Type} [DecidableEq α] (d : α) (t : Tbl α) (lo n k : Nat) (f : Nat → α) :
    Tbl.get d (Tbl.putRange d t lo n f) k = if lo ≤ k ∧ k < lo + n then f (k - lo) else Tbl.get d t k := by
  have hput : Tbl.putRange d t lo n f =
      t.filter (fun e => decide (e.1 < lo)) ++ Tbl.listed d lo f n ++ t.filter (fun e => decide (lo + n ≤ e.1)) := rfl
  have hlow (e) (he : e ∈ t.filter (fun e => decide (e.1 < lo))) : e.1 < lo := of_decide_eq_true (List.mem_filter.mp he).2
  have hhigh (e) (he : e ∈ t.filter (fun e => decide (lo + n ≤ e.1))) : lo + n ≤ e.1 := of_decide_eq_true (List.mem_filter.mp he).2
  have hmid (e) (he : e ∈ Tbl.listed d lo f n) : lo ≤ e.1 ∧ e.1 < lo + n := Tbl.key_of_mem_listed he
  rw [hput]
  by_cases hk : k < lo
  · rw [List.append_assoc, Tbl.get_append_of_absent_right, if_neg (by omega)]
    · exact (Tbl.get_filter_key d t (fun j => decide (j < lo)) k).trans (if_pos (decide_eq_true hk))
    · intro e he
      rcases List.mem_append.mp he with h | h
      · have := hmid e h
        omega
      · have := hhigh e h
        omega
  · by_cases hk' : k < lo + n
    · obtain ⟨i, rfl⟩ := Nat.exists_eq_add_of_le (Nat.le_of_not_lt hk)
      rw [Tbl.get_append_of_absent_right fun e he => by have := hhigh e he; omega,
        Tbl.get_append_of_absent_left fun e he => by have := hlow e he; omega, Tbl.get_listed d lo f (by omega),
        if_pos (by omega), Nat.add_sub_cancel_left]
    · rw [Tbl.get_append_of_absent_left, if_neg (by omega)]
      · exact (Tbl.get_filter_key d t (fun j => decide (lo + n ≤ j)) k).trans (if_pos (decide_eq_true (by omega)))
      · intro e he
        rcases List.mem_append.mp he with h | h
        · have := hlow e h
          omega
        · have := hmid e h
          omega

/-! ### Rows of tiles -/

theorem getElem?_flatten_of_length {α : Type} {n : Nat} {xss : List (List α)} (h : ∀ xs ∈ xss, xs.length = n) {r c : Nat} (hc : c < n) :
    xss.flatten[r * n + c]? = xss[r]?.bind (fun xs => xs[c]?) := by
  induction xss generalizing r with
  | nil => simp
  | cons xs xss ih =>
    have hlen : xs.length = n := h xs List.mem_cons_self
    cases r with
    | zero => simp [List.getElem?_append_left (hlen ▸ hc)]
    | succ r =>
      have hpos : (r + 1) * n + c = xs.length + (r * n + c) := by rw [hlen]; ring
      rw [List.flatten_cons, hpos, List.getElem?_append_right (Nat.le_add_right _ _), Nat.add_sub_cancel_left, List.getElem?_cons_succ]
      exact ih fun ys hys => h ys (List.mem_cons_of_mem _ hys)

/-- The values of a table of `n` rows of `m` columns, row after row. -/
theorem getElem?_flatten_map_range {α : Type} (n m : Nat) (g : Nat → Nat → α) {r c : Nat} (hr : r < n) (hc : c < m) :
    ((List.range n).map (fun r => (List.range m).map (g r))).flatten[r * m + c]? = some (g r c) := by
  rw [getElem?_flatten_of_length (n := m) _ hc]
  · simp [hr, hc]
  · intro xs hxs
    obtain ⟨i, -, rfl⟩ := List.mem_map.mp hxs
    simp

theorem Lot.accRow_eq_map (l : Lot) (n r : Nat) : l.accRow n r = (List.range 64).map (fun c => (l.accAt n r c).toNat) := by
  unfold Lot.accRow
  rw [Tbl.slice_eq_map, List.map_map]
  rfl

/-- A row of a slot holds as many elements as its format has columns, each below the range of its bits. -/
theorem Lot.length_slotRow (l : Lot) (k : Nat) (f : TileFmt) (r : Nat) : (l.slotRow k f r).length = f.cols := by
  simp [Lot.slotRow, rowElems]

theorem Lot.slotRow_lt (l : Lot) (k : Nat) (f : TileFmt) (r : Nat) (hf : 0 < f.bits) : ∀ x ∈ l.slotRow k f r, x < 2 ^ f.bits := by
  intro x hx
  obtain ⟨i, -, rfl⟩ := List.mem_map.mp hx
  refine (bits_lt _ _ _).trans_le (Nat.pow_le_pow_right (by decide) ?_)
  omega

theorem eq_map_getD {α : Type} (xs : List α) (d : α) : xs = (List.range xs.length).map (fun k => xs.getD k d) := by
  refine List.ext_getElem (by simp) fun i h _ => ?_
  simp [List.getD_eq_getElem?_getD, h]

/-! ### Sign-select sums (R110) -/

theorem signDot_fst_foldl (ps : List (Int × (Int × Nat))) (s : Int × Nat) :
    (ps.foldl (fun s p => (s.1 + p.1 * p.2.1, s.2 ||| p.2.2)) s).1 = s.1 + (ps.map (fun p => p.1 * p.2.1)).sum := by
  induction ps generalizing s with
  | nil => simp
  | cons p ps ih =>
    rw [List.foldl_cons, ih, List.map_cons, List.sum_cons]
    ring

/-- The sum of a sign-select MMA over elements given by their places. -/
theorem signDot_map_range (n : Nat) (a : Nat → Int) (b : Nat → Int × Nat) :
    (signDot ((List.range n).map a) ((List.range n).map b)).1 = ((List.range n).map (fun k => a k * (b k).1)).sum := by
  unfold signDot
  rw [signDot_fst_foldl, List.zip_map', List.map_map, zero_add]
  rfl

/-- The sign that a T2 code selects; a code that names none selects nothing (R110). -/
def t2Sign (x : Nat) : Int :=
  match x with
  | 1 => 1
  | 3 => -1
  | _ => 0

theorem t2Val_fst {x : Nat} (hx : x < 4) : (t2Val x).1 = t2Sign x := by
  interval_cases x <;> rfl

/-- Element (r, c) of a sign-select MMA: its raw value and its flags. -/
def Lot.ssElem (l : Lot) (f : FmtMma) (r c : Nat) : Nat × Nat :=
  let dot := signDot ((l.slotRow f.oa.toNat .i8 r).map (fun x => sextI x 8)) ((l.slotRow f.ob.toNat .t2 c).map t2Val)
  (wrapI (sextI (l.accAt f.acc.toNat r c).toNat 32 + dot.1) 32, dot.2)

/-- The elements of a sign-select MMA, row after row. -/
def Lot.ssElems (l : Lot) (f : FmtMma) : List (Nat × Nat) :=
  ((List.range 64).map (fun r => (List.range 64).map (fun c => l.ssElem f r c))).flatten

theorem Lot.applyMma_ss (l : Lot) (f : FmtMma) (hss : f.mode = .ss) : l.applyMma f =
    ({ l with
      acc := Tbl.putRange 0 l.acc (f.acc.toNat * 4096) 4096 (fun i => BitVec.ofNat 32 (((l.ssElems f).map (fun e => e.1)).toArray.getD i 0)),
      accInt := Tbl.put false l.accInt f.acc.toNat true }, (l.ssElems f).foldl (fun a e => a ||| e.2) 0) := by
  have hrows : ((((List.range 64).map (fun r => l.accRow f.acc.toNat r)).zip
        (((List.range 64).map (fun r => l.slotRow f.oa.toNat .i8 r)).map (fun r => r.map (fun x => sextI x 8)))).map (fun p =>
          (p.1.zip (((List.range 64).map (fun r => l.slotRow f.ob.toNat .t2 r)).map (fun r => r.map t2Val))).map (fun q =>
            (wrapI (sextI q.1 32 + (signDot p.2 q.2).1) 32, (signDot p.2 q.2).2)))).flatten = l.ssElems f := by
    simp only [Lot.accRow_eq_map, List.map_map, List.zip_map']
    rfl
  unfold Lot.applyMma
  rw [hss]
  dsimp only
  rw [← hrows]
  rfl

theorem Lot.ssElem_sum (l : Lot) (f : FmtMma) (r c : Nat) :
    let a (k : Nat) : Int := sextI ((l.slotRow f.oa.toNat .i8 r).getD k 0) 8
    let b (k : Nat) : Int := t2Sign ((l.slotRow f.ob.toNat .t2 c).getD k 0)
    BitVec.ofNat 32 (l.ssElem f r c).1 =
      BitVec.ofInt 32 ((l.accAt f.acc.toNat r c).toInt + ((List.range 64).map (fun k => a k * b k)).sum) := by
  intro a b
  have hdot : (signDot ((l.slotRow f.oa.toNat .i8 r).map (fun x => sextI x 8)) ((l.slotRow f.ob.toNat .t2 c).map t2Val)).1 =
      ((List.range 64).map (fun k => a k * b k)).sum := by
    have hx := eq_map_getD (l.slotRow f.oa.toNat .i8 r) 0
    have hy := eq_map_getD (l.slotRow f.ob.toNat .t2 c) 0
    rw [Lot.length_slotRow] at hx hy
    rw [hx, hy, List.map_map, List.map_map]
    refine (signDot_map_range 64 _ _).trans (congrArg List.sum (List.map_congr_left fun k hk => ?_))
    have hlt : (l.slotRow f.ob.toNat .t2 c).getD k 0 < 2 ^ TileFmt.bits .t2 := by
      have hk' : k < (l.slotRow f.ob.toNat .t2 c).length := by rw [Lot.length_slotRow]; exact List.mem_range.mp hk
      rw [List.getD_eq_getElem _ _ hk']
      exact Lot.slotRow_lt _ _ _ _ (by decide) _ (List.getElem_mem _)
    exact congrArg (a k * ·) (t2Val_fst hlt)
  have hacc : sextI (l.accAt f.acc.toNat r c).toNat 32 = (l.accAt f.acc.toNat r c).toInt := by
    rw [sextI_eq_toInt _ _ (by decide), BitVec.ofNat_toNat, BitVec.setWidth_eq]
  unfold Lot.ssElem wrapI
  dsimp only
  rw [hdot, hacc]
  exact BitVec.eq_of_toNat_eq (by rw [BitVec.toNat_ofNat, BitVec.toNat_ofInt]; omega)

/-- The sums of a sign-select MMA (R110, R249). -/
theorem Lot.accAt_applyMma_ss (l : Lot) (f : FmtMma) (hss : f.mode = .ss) {r c : Nat} (hr : r < 64) (hc : c < 64) :
    (l.applyMma f).1.accAt f.acc.toNat r c = BitVec.ofNat 32 (l.ssElem f r c).1 := by
  have hplace : f.acc.toNat * 4096 + r * 64 + c - f.acc.toNat * 4096 = r * 64 + c := by omega
  have helem : (l.ssElems f)[r * 64 + c]? = some (l.ssElem f r c) := getElem?_flatten_map_range 64 64 _ hr hc
  rw [Lot.applyMma_ss l f hss]
  refine (Tbl.get_putRange ..).trans ?_
  rw [if_pos (by omega), hplace]
  simp [Array.getD_eq_getD_getElem?, helem]

end Sys2Proof.Machine
end

section
/-! The events of tile operations: their start, the array, and their end (R85, R251 to R253; O38). -/
namespace Sys2Proof.Machine

/-! ### Start -/

theorem State.id_of_tileOp? {s : State} {id : Nat} {x : TileOp} (h : s.tileOp? id = some x) : x.id = id :=
  beq_iff_eq.mp (List.find?_some (p := fun y : TileOp => y.id == id) h)

theorem execTileOpStart_mma {s : State} {id : Nat} {x : TileOp} {f : FmtMma} (h : s.tileOp? id = some x) (hkind : x.kind = .mma f)
    (hphase : x.phase = .waiting) (hnext : s.nextMma x.core = some x) : exec (.tileOpStart id) s =
      .next ((s.setCore x.core { s.core x.core with arrayRR := (x.bctx + 1) % 4 }).setTileOp { x with phase := .started }) := by
  change execTileOpStart id s = _
  unfold execTileOpStart
  simp only [h, hphase, hkind, hnext, State.id_of_tileOp? h, bne_self_eq_false, Bool.false_eq_true, if_false, if_true]

theorem execTileOpStart_accz {s : State} {id n : Nat} {x : TileOp} (h : s.tileOp? id = some x) (hkind : x.kind = .accz n)
    (hphase : x.phase = .waiting) (hfree : s.tileFree x = true) :
    exec (.tileOpStart id) s = .next (s.setTileOp { x with phase := .started }) := by
  change execTileOpStart id s = _
  unfold execTileOpStart
  simp only [h, hphase, hkind, hfree, bne_self_eq_false, Bool.false_eq_true, if_false, if_true]

/-! ### The array -/

/-- The lot after a sign-select MMA has left the array. -/
theorem execArrayLeave_mma {s : State} {id : Nat} {x : TileOp} {l : Lot} {f : FmtMma} (h : s.tileOp? id = some x)
    (hl : s.lot? x.core x.bctx = some l) (hkind : x.kind = .mma f) (hphase : x.phase = .started) : exec (.arrayLeave id) s =
      .next ((s.setLot x.core x.bctx ((l.applyMma f).1.orFlags x.agent.w (l.applyMma f).2)).setTileOp { x with phase := .left }) := by
  change execArrayLeave id s = _
  unfold execArrayLeave
  simp only [h, hphase, hkind, State.onLot_of_lot hl]

/-! ### The end of an operation -/

/-- TL falls in each warp of a list. -/
def Lot.lowerTl (l : Lot) (ws : List Nat) : Lot := ws.foldl (fun l w => l.setWarp w ((l.warp w).drop 3)) l

theorem Lot.lowerTl_frame (l : Lot) (ws : List Nat) : l.lowerTl ws = { l with warps := (l.lowerTl ws).warps } := by
  induction ws generalizing l with
  | nil => rfl
  | cons w ws ih => exact ih (l.setWarp w ((l.warp w).drop 3))

theorem State.countDowns_calm {c b : Nat} (ws : List Nat) : ∀ {s : State} {l : Lot}, s.lot? c b = some l → s.calmOn c →
    (ws.foldl (fun s w => s.countDown c b w 3) s).calmOn c ∧ s.OnPlace (ws.foldl (fun s w => s.countDown c b w 3) s) c b
      ∧ (ws.foldl (fun s w => s.countDown c b w 3) s).lot? c b = some (l.lowerTl ws) := by
  induction ws with
  | nil => exact fun hl hcalm => ⟨hcalm, State.OnPlace.refl _ _ _, hl⟩
  | cons w ws ih =>
    intro s l hl hcalm
    have hdown : s.countDown c b w 3 = s.setLot c b (l.setWarp w ((l.warp w).drop 3)) := State.onLot_of_lot hl _
    have hcalm' : (s.setLot c b (l.setWarp w ((l.warp w).drop 3))).calmOn c := State.calmOn_setLot hcalm hl ⟨rfl, rfl⟩
    rw [List.foldl_cons, hdown]
    obtain ⟨hcalms, hplace, hlot⟩ := ih (State.lot?_setLot ..) hcalm'
    exact ⟨hcalms, State.OnPlace.trans (State.onPlace_setLot (l' := l.setWarp w ((l.warp w).drop 3)) hl rfl rfl) hplace, hlot⟩

/-- What the end of an operation on a calm core leaves of its lot. -/
structure State.TileEnds (s t : State) (x : TileOp) (l l' : Lot) : Prop where
  lot : t.lot? x.core x.bctx = some l'
  frame : l' = { l with warps := l'.warps, slotState := l'.slotState }
  tileOps : t.e.tileOps = s.e.tileOps.filter (fun y => y.id != x.id)
  mem : t.m = s.m
  tl : ∀ w, x.warps = [w] → (∀ y ∈ s.e.tileOps, y.group = x.group → y.id = x.id) → (l'.warp w).tl = (l.warp w).tl - 1

/-- The state without a tile operation. -/
def State.withoutTile (s : State) (id : Nat) : State := { s with e := { s.e with tileOps := s.e.tileOps.filter (fun y => y.id != id) } }

/-- The counters after an operation has left the tile order: TL of its warps falls with the last of its group. -/
def State.tileCounted (s : State) (x : TileOp) : State :=
  if (s.withoutTile x.id).e.tileOps.any (fun y => y.group == x.group) then s.withoutTile x.id
  else x.warps.foldl (fun s w => s.countDown x.core x.bctx w 3) (s.withoutTile x.id)

theorem State.endTile_eq (s : State) (x : TileOp) :
    s.endTile x = ((s.tileCounted x).freeSlots x.core x.bctx).recheck x.core := rfl

theorem State.tileCounted_calm {s : State} {x : TileOp} {l : Lot} (hl : s.lot? x.core x.bctx = some l) (hcalm : s.calmOn x.core) :
    ∃ l1, (s.tileCounted x).calmOn x.core ∧ (s.withoutTile x.id).OnPlace (s.tileCounted x) x.core x.bctx
      ∧ (s.tileCounted x).lot? x.core x.bctx = some l1 ∧ l1 = { l with warps := l1.warps }
      ∧ ∀ w, x.warps = [w] → (∀ y ∈ s.e.tileOps, y.group = x.group → y.id = x.id) → (l1.warp w).tl = (l.warp w).tl - 1 := by
  unfold State.tileCounted
  split
  · next hmore =>
    refine ⟨l, hcalm, State.OnPlace.refl _ _ _, hl, rfl, fun w _ halone => ?_⟩
    obtain ⟨y, hy, hgroup⟩ := List.any_eq_true.mp hmore
    obtain ⟨hin, hne⟩ := List.mem_filter.mp hy
    exact absurd (halone y hin (beq_iff_eq.mp hgroup)) (bne_iff_ne.mp hne)
  · obtain ⟨hcalm', hplace, hlot⟩ := State.countDowns_calm (s := s.withoutTile x.id) x.warps hl hcalm
    refine ⟨_, hcalm', hplace, hlot, Lot.lowerTl_frame l x.warps, fun w hw _ => ?_⟩
    rw [hw]
    exact congrArg Warp.tl (Lot.warp_setWarp l w ((l.warp w).drop 3))

theorem State.endTile_calm {s : State} {x : TileOp} {l : Lot} (hl : s.lot? x.core x.bctx = some l) (hcalm : s.calmOn x.core) :
    ∃ l', s.TileEnds (s.endTile x) x l l' := by
  obtain ⟨l1, hcalm1, hplace, hl1, hframe, htl⟩ := State.tileCounted_calm hl hcalm
  let used (k : Nat) : Bool := (s.tileCounted x).e.tileOps.any (fun y => y.core == x.core && y.bctx == x.bctx && y.kind.reads.contains k)
  let l' : Lot := { l1 with slotState := l1.slotState.filter (fun e => !(e.2 == .releasing && !used e.1)) }
  have hfree : (s.tileCounted x).freeSlots x.core x.bctx = (s.tileCounted x).setLot x.core x.bctx l' := State.onLot_of_lot hl1 _
  have hend : s.endTile x = (s.tileCounted x).setLot x.core x.bctx l' := by
    rw [State.endTile_eq, hfree]
    exact State.recheck_of_still (State.still_of_calmOn (State.calmOn_setLot hcalm1 hl1 ⟨rfl, rfl⟩))
  have hcounted := hplace.frame
  refine ⟨l', ?_, ?_, ?_, ?_, htl⟩
  · rw [hend]
    exact State.lot?_setLot ..
  · change { l1 with slotState := l'.slotState } = { l with warps := l1.warps, slotState := l'.slotState }
    rw [hframe]
  · rw [hend]
    exact congrArg (fun t => t.e.tileOps) hcounted
  · rw [hend]
    exact congrArg (fun t => t.m) hcounted

/-- An operation ends whose results change its lot alone, neither a thread nor a warp, nor a register of it. -/
theorem State.endTile_setLot {s : State} {x : TileOp} {l : Lot} (l1 : Lot) (hl : s.lot? x.core x.bctx = some l) (hcalm : s.calmOn x.core)
    (hframe : l1 = { l with acc := l1.acc }) : ∃ l', s.TileEnds ((s.setLot x.core x.bctx l1).endTile x) x l1 l' := by
  obtain ⟨l', h⟩ := State.endTile_calm (s := s.setLot x.core x.bctx l1) (x := x) (State.lot?_setLot ..)
    (State.calmOn_setLot hcalm hl ⟨by rw [hframe]; rfl, by rw [hframe]⟩)
  exact ⟨l', h.lot, h.frame, h.tileOps, h.mem, h.tl⟩

/-- Settles O38. The array's sums come from `Lot.ssElem_sum`, and what the end of an operation leaves from `State.endTile_calm`. -/
theorem tileOperationsRun : Obligations.TileOperationsRun := by
  unfold Obligations.TileOperationsRun
  intro s id x l hop hl
  have hid := State.id_of_tileOp? hop
  refine ⟨fun f hkind hphase hnext => ?_, fun n hkind hphase hfree => execTileOpStart_accz hop hkind hphase hfree,
    fun f hkind hphase hss => ?_, fun hcalm => ?_⟩
  · exact ⟨_, execTileOpStart_mma hop hkind hphase hnext, rfl, State.core_setCore .., rfl⟩
  · refine ⟨_, _, execArrayLeave_mma hop hl hkind hphase, rfl, State.lot?_setLot .., fun r c hr hc => ?_, ?_, ?_, ?_⟩
    · exact (Lot.accAt_applyMma_ss l f hss hr hc).trans (Lot.ssElem_sum l f r c)
    · rw [Lot.applyMma_ss l f hss]
      exact Tbl.get_put_same false l.accInt f.acc.toNat true
    · rw [Lot.applyMma_ss l f hss]
      rfl
    · rw [Lot.applyMma_ss l f hss]
      rfl
  · intro ends
    have hcalm' := State.calmOn_of_calm hcalm
    /- Where the operation's results are `l1`, its end gives `ends` of what holds of the accumulators of `l1`. -/
    have hends : ∀ (P : Lot → Prop) (l1 : Lot) (t : State), exec (.tileOpComplete id) s = .next t → l1 = { l with acc := l1.acc } →
        (∃ l', s.TileEnds t x l1 l') → (∀ l', l'.acc = l1.acc → P l') → ends P := by
      intro P l1 t hexec hl1 hend hP
      obtain ⟨l', h⟩ := hend
      refine ⟨t, l', hexec, h.lot, hP l' (by rw [h.frame]), by rw [h.frame, hl1], by rw [h.tileOps, hid], fun w hw halone => ?_,
        fun pa => by rw [State.memByte, State.memByte, h.mem]⟩
      rw [h.tl w hw (hid ▸ halone), hl1]
      rfl
    refine ⟨fun f hkind hphase => ?_, fun n hkind hphase => ?_, fun n r c v hkind hphase => ?_⟩
    · refine hends _ l (s.endTile x) ?_ rfl (State.endTile_calm hl hcalm') fun l' h => h
      change execTileOpComplete id s = _
      simp only [execTileOpComplete, hop, hl, hkind, hphase]
    · refine hends _ { l with acc := Tbl.putRange 0 l.acc (n * 4096) 4096 (fun _ => 0) } _ ?_ rfl
        (State.endTile_setLot _ hl hcalm' rfl) fun l' h k => ?_
      · change execTileOpComplete id s = _
        simp only [execTileOpComplete, State.performTile, hop, hl, hkind, hphase, if_true]
      · rw [h]
        exact Tbl.get_putRange ..
    · refine hends _ (l.setAccAt n r c v) _ ?_ rfl (State.endTile_setLot _ hl hcalm' rfl) fun l' h k => ?_
      · change execTileOpComplete id s = _
        simp only [execTileOpComplete, State.performTile, hop, hl, hkind, hphase, if_true, List.foldl_cons, List.foldl_nil]
      · rw [h]
        exact Tbl.get_put ..

end Sys2Proof.Machine
end

section
/-! The frame of the float, packed, conversion and compare instructions (04_numbers.md R101, R114; 15_ref_d_i.md R371): what a lot is
after each participant has advanced its generator, written its result and set its flags. -/

namespace Sys2Proof.Machine

/-! ### Generator steps (R101) -/

theorem rngNext_lt (x : Nat) : rngNext x < 2 ^ 32 := Nat.mod_lt _ (by decide)

/-- A thread after n roundings under a mode. -/
def Thread.afterDraws (t : Thread) (rnd n : Nat) : Thread :=
  if rnd = 4 then { t with rng := BitVec.ofNat 32 (rngAfter t.rng.toNat n) } else t

/-- A lot after n roundings of an agent under a mode. -/
def Lot.afterDraws (l : Lot) (a : Agent) (rnd : Nat) : Nat → Lot
  | 0 => l
  | n + 1 => ((l.afterDraws a rnd n).draw a rnd).2

theorem rngAfter_lt (x : BitVec 32) : ∀ n, rngAfter x.toNat n < 2 ^ 32
  | 0 => x.isLt
  | _ + 1 => rngNext_lt _

theorem Lot.thr_afterDraws (l : Lot) (a : Agent) (rnd : Nat) : ∀ n, (l.afterDraws a rnd n).thr a = (l.thr a).afterDraws rnd n
  | 0 => by simp [Lot.afterDraws, Thread.afterDraws, rngAfter]
  | n + 1 => by
    have ih := Lot.thr_afterDraws l a rnd n
    unfold Thread.afterDraws at ih ⊢
    unfold Lot.afterDraws Lot.draw
    split
    · next h =>
      rw [if_pos h] at ih
      simp only [Lot.rngStep, Lot.thr_setThr, ih, BitVec.toNat_ofNat, Nat.mod_eq_of_lt (rngAfter_lt _ _), rngAfter]
    · next h =>
      rw [if_neg h] at ih
      exact ih

/-- The random number of the next rounding. -/
theorem Lot.draw_afterDraws (l : Lot) (a : Agent) (rnd n : Nat) :
    (l.afterDraws a rnd n).draw a rnd = (l.drawn a rnd n, l.afterDraws a rnd (n + 1)) := by
  refine Prod.ext ?_ rfl
  have hthr := Lot.thr_afterDraws l a rnd n
  unfold Thread.afterDraws at hthr
  unfold Lot.draw Lot.drawn
  split
  · next h =>
    rw [if_pos h] at hthr
    simp only [Lot.rngStep, hthr, BitVec.toNat_ofNat, Nat.mod_eq_of_lt (rngAfter_lt _ _), rngAfter]
  · rfl

/-- Roundings change the generator of their agent alone. -/
theorem Lot.afterDraws_frame (l : Lot) (a : Agent) (rnd : Nat) (ha : a.l < 32) : ∀ n,
    l.afterDraws a rnd n = { l with threads := (l.afterDraws a rnd n).threads }
      ∧ ∀ b : Agent, b.l < 32 → b ≠ a → (l.afterDraws a rnd n).thr b = l.thr b
  | 0 => ⟨rfl, fun _ _ _ => rfl⟩
  | n + 1 => by
    obtain ⟨hframe, hother⟩ := Lot.afterDraws_frame l a rnd ha n
    unfold Lot.afterDraws Lot.draw
    split
    · refine ⟨?_, fun b hb hne => ?_⟩
      · simp only [Lot.rngStep]
        rw [hframe]
        rfl
      · exact (Lot.thr_setThr_other _ _ _ _ ha hb hne).trans (hother b hb hne)
    · exact ⟨hframe, hother⟩

theorem Lot.drawn_of_thr {l m : Lot} {a : Agent} (h : m.thr a = l.thr a) (rnd n : Nat) : m.drawn a rnd n = l.drawn a rnd n := by
  unfold Lot.drawn
  rw [h]

/-! ### Flags (R114) -/

/-- The flags of the agents of a list in one warp. -/
def flagsOf (fl : Agent → Nat) (as : List Agent) (w : Nat) : BitVec 8 :=
  BitVec.ofNat 8 ((as.filter (fun a => a.w == w)).foldl (fun m a => m ||| fl a) 0)

theorem flagsOf_append (fl : Agent → Nat) (as : List Agent) (a : Agent) (w : Nat) :
    flagsOf fl (as ++ [a]) w = flagsOf fl as w ||| if a.w = w then BitVec.ofNat 8 (fl a) else 0 := by
  unfold flagsOf
  rw [List.filter_append, List.foldl_append]
  by_cases h : a.w = w
  · rw [if_pos h, List.filter_cons_of_pos (by simpa using h)]
    exact BitVec.ofNat_or
  · rw [if_neg h, List.filter_cons_of_neg (by simpa using h)]
    exact (BitVec.or_zero).symm

theorem flagsOf_singleton (fl : Agent → Nat) (a : Agent) (w : Nat) :
    flagsOf fl [a] w = if a.w = w then BitVec.ofNat 8 (fl a) else 0 := by
  rw [← List.nil_append [a], flagsOf_append]
  exact BitVec.zero_or

/-- The flags of the agents of a list have been set, and the threads of the list replaced; every other warp and thread and the rest of
each warp are as before. -/
def Lot.flagged (l m : Lot) (as : List Agent) (fl : Agent → Nat) (thr : Agent → Thread) : Prop :=
  (∀ w, m.warp w = { l.warp w with fstat := (l.warp w).fstat ||| flagsOf fl as w })
  ∧ ∀ a : Agent, a.l < 32 → m.thr a = if a ∈ as then thr a else l.thr a

theorem Lot.flagged_nil (l : Lot) (fl : Agent → Nat) (thr : Agent → Thread) : l.flagged l [] fl thr :=
  ⟨fun w => by simp [flagsOf], fun a _ => by simp⟩

theorem Lot.flagged_append {l m n : Lot} {as : List Agent} {a : Agent} {fl : Agent → Nat} {thr : Agent → Thread}
    (h : l.flagged m as fl thr) (h' : m.flagged n [a] fl thr) : l.flagged n (as ++ [a]) fl thr := by
  refine ⟨fun w => ?_, fun b hb => ?_⟩
  · rw [h'.1, h.1, flagsOf_append, flagsOf_singleton, BitVec.or_assoc]
  · rw [h'.2 b hb, h.2 b hb]
    by_cases hba : b = a
    · simp [hba]
    · simp [hba]

/-- Setting the flags of one agent. -/
theorem Lot.flagged_orFlags {l m : Lot} {a : Agent} {fl : Agent → Nat} {thr : Agent → Thread} (hw : ∀ w, m.warp w = l.warp w)
    (ha : m.thr a = thr a) (ho : ∀ b : Agent, b.l < 32 → b ≠ a → m.thr b = l.thr b) : l.flagged (m.orFlags a.w (fl a)) [a] fl thr := by
  refine ⟨fun w => ?_, fun b hb => ?_⟩
  · rw [flagsOf_singleton]
    unfold Lot.orFlags
    by_cases h : a.w = w
    · subst h
      rw [Lot.warp_setWarp, if_pos rfl, hw]
    · rw [Lot.warp_setWarp_other _ _ _ _ (Ne.symm h), if_neg h, hw]
      exact congrArg (fun f => { l.warp w with fstat := f }) BitVec.or_zero.symm
  · refine (Lot.thr_setWarp ..).trans ?_
    by_cases h : b = a
    · simp [h, ha]
    · simp [h, ho b hb h]

/-! ### Results with flags, one participant after the other -/

/-- The operands that an instruction uses read the same for an agent. -/
def Lot.reads (l m : Lot) (a : Agent) (uses : List Use) : Prop := ∀ r n, useW r n ∈ uses → m.val a r n = l.val a r n

/-- The results of the agents of a list stand in their destinations, and no other register changed. -/
def Lot.wroteRegs (l m : Lot) (as : List Agent) (d : BitVec 7) (width : Nat) (signed : Bool) (val : Agent → Nat) : Prop :=
  (∀ a ∈ as, m.holds a d width signed (val a)) ∧ l.others m as d width

theorem Lot.holds_of_others {m n : Lot} {a b : Agent} {d : BitVec 7} {width : Nat} {signed : Bool} {x : Nat} (h : m.others n [a] d width)
    (hne : b ≠ a) (hb : b.l < 32) (hthread : b.isBarker = false) (hfits : d.toNat + regsOf width ≤ 128)
    (hholds : m.holds b d width signed x) : n.holds b d width signed x := by
  have hregs : ∀ k r, r + k ≤ 128 → n.regs b r k = m.regs b r k := by
    intro k
    induction k with
    | zero => exact fun _ _ => rfl
    | succ k ih =>
      intro r hr
      rw [Lot.regs, Lot.regs, ih (r + 1) (by omega), h.1 b.w r b.l (by omega) hb]
      rintro ⟨c, hc, -, hw, hl, -⟩
      rw [List.mem_singleton] at hc
      exact hne (Agent.eq_of (hc ▸ hw).symm (hc ▸ hl).symm)
  unfold Lot.holds at hholds ⊢
  rw [hthread] at hholds ⊢
  rw [if_neg Bool.false_ne_true] at hholds ⊢
  rw [hregs _ _ hfits]
  exact hholds

theorem Lot.holds_of_regs {l m : Lot} (hv : m.vregs = l.vregs) (hs : m.sregs = l.sregs) {a : Agent} {d : BitVec 7} {width : Nat}
    {signed : Bool} {x : Nat} (h : l.holds a d width signed x) : m.holds a d width signed x := by
  have hvreg : m.vreg = l.vreg := by unfold Lot.vreg; rw [hv]
  have hsreg : m.sreg = l.sreg := by unfold Lot.sreg; rw [hs]
  have hregs : ∀ k r, m.regs a r k = l.regs a r k := by
    intro k
    induction k with
    | zero => exact fun _ => rfl
    | succ k ih => exact fun r => by rw [Lot.regs, Lot.regs, ih, hvreg]
  unfold Lot.holds at h ⊢
  rw [hregs, hsreg]
  exact h

/-- One participant's turn: its roundings, its result and its flags. -/
def Lot.turn (l : Lot) (a : Agent) (d : BitVec 7) (width : Nat) (signed : Bool) (rnd draws : Nat) (r : Nat × Nat) : Lot :=
  ((l.afterDraws a rnd draws).setVal a d width signed r.1).orFlags a.w r.2

/-- The lot after the turns of a list of agents: their results, flags and generators, and nothing else. -/
structure Lot.Gave (l m : Lot) (as : List Agent) (d : BitVec 7) (width : Nat) (signed : Bool) (rnd draws : Nat) (res : Agent → Nat × Nat) :
    Prop where
  frame : m = { l with vregs := m.vregs, sregs := m.sregs, warps := m.warps, threads := m.threads }
  holds : ∀ a ∈ as, m.holds a d width signed (res a).1
  others : l.others m as d width
  flagged : l.flagged m as (fun a => (res a).2) (fun a => (l.thr a).afterDraws rnd draws)

theorem Lot.gave_turn (l : Lot) (a : Agent) (d : BitVec 7) (width : Nat) (signed : Bool) (rnd draws : Nat) (res : Agent → Nat × Nat)
    (hw : width < 32 ∨ width = 32 ∨ width = 64 ∨ width = 128) (ha : a.l < 32) (hr : a.isBarker = false → d.toNat + regsOf width ≤ 128) :
    l.Gave (l.turn a d width signed rnd draws (res a)) [a] d width signed rnd draws res := by
  obtain ⟨hframe, hother⟩ := Lot.afterDraws_frame l a rnd ha draws
  have hset := Lot.others_setVal (l.afterDraws a rnd draws) a d width signed (res a).1 ha hr
  have hvreg : (l.afterDraws a rnd draws).vreg = l.vreg := by rw [hframe]; rfl
  have hsreg : (l.afterDraws a rnd draws).sreg = l.sreg := by rw [hframe]; rfl
  constructor
  · unfold Lot.turn Lot.orFlags
    rw [Lot.setVal_frame, hframe]
    rfl
  · intro b hb
    rw [List.mem_singleton.mp hb]
    exact Lot.holds_of_regs (Lot.orFlags_vregs ..) (Lot.orFlags_sregs ..) (Lot.holds_setVal _ a d width signed _ hw ha hr)
  · exact ⟨fun w r lane hr hl hne => (hset.1 w r lane hr hl hne).trans (by rw [hvreg]),
      fun r hne => (hset.2 r hne).trans (by rw [hsreg])⟩
  · exact Lot.flagged_orFlags (fl := fun a => (res a).2) (fun w => by rw [Lot.warp_setVal, hframe]; rfl)
      (by rw [Lot.thr_setVal, Lot.thr_afterDraws]) fun b hb hne => (Lot.thr_setVal ..).trans (hother b hb hne)

/-- The turns of all participants, each computed from the lot that the one before has left, give the results of the lot before them all,
where a result rests on the operands of its own agent and on its generator. -/
theorem Lot.foldl_turn (l : Lot) (as : List Agent) (d : BitVec 7) (width : Nat) (signed : Bool) (rnd draws : Nat) (uses : List Use)
    (r : Lot → Agent → Nat × Nat) (hw : width < 32 ∨ width = 32 ∨ width = 64 ∨ width = 128) (hnodup : as.Nodup)
    (hok : ∀ a ∈ as, a.l < 32 ∧ (a.isBarker = false → d.toNat + regsOf width ≤ 128
      ∧ ∀ x n, useW x n ∈ uses → x.toNat + regsOf n ≤ 128) ∧ (a.isBarker = true → as = [a]))
    (hr : ∀ m, ∀ a ∈ as, l.reads m a uses → m.thr a = l.thr a → r m a = r l a) :
    l.Gave (as.foldl (fun m a => m.turn a d width signed rnd draws (r m a)) l) as d width signed rnd draws (r l) := by
  induction as using List.reverseRecOn with
  | nil => exact ⟨rfl, by simp, ⟨fun _ _ _ _ _ _ => rfl, fun _ _ => rfl⟩, Lot.flagged_nil ..⟩
  | append_singleton as a ih =>
    have hfresh : a ∉ as := fun ha => by
      rw [List.nodup_append] at hnodup
      exact hnodup.2.2 a ha a (by simp) rfl
    have hthread : ∀ b ∈ as, ∀ c ∈ as ++ [a], c.isBarker = false := fun b hb c hc => by
      cases h : c.isBarker
      · rfl
      · have hlen := congrArg List.length ((hok c hc).2.2 h)
        have hpos := List.length_pos_of_mem hb
        rw [List.length_append, List.length_singleton, List.length_singleton] at hlen
        omega
    obtain ⟨hframe, hholds, hothers, hflagged⟩ := ih hnodup.of_append_left
      (fun b hb => ⟨(hok b (by simp [hb])).1, (hok b (by simp [hb])).2.1, fun h => by rw [hthread b hb b (by simp [hb])] at h; cases h⟩)
      (fun m b hb => hr m b (by simp [hb]))
    obtain ⟨hal, hfits, -⟩ := hok a (by simp)
    simp only [List.foldl_append, List.foldl_cons, List.foldl_nil]
    generalize hm : as.foldl (fun m a => m.turn a d width signed rnd draws (r m a)) l = m at hframe hholds hothers hflagged
    have hthr : m.thr a = l.thr a := by rw [hflagged.2 a hal, if_neg hfresh]
    have hreads : l.reads m a uses := fun x n hu => by
      rcases as.eq_nil_or_concat with rfl | ⟨cs, c, rfl⟩
      · rw [← hm]; rfl
      · have hab := hthread c (by simp) a (by simp)
        refine Lot.val_own (fun hb => (hfits hb).2 x n hu) (fun _ k hk => hothers.1 a.w k a.l hk hal ?_) (fun hb => by rw [hab] at hb; cases hb)
        rintro ⟨b, hb, -, hw, hl, -⟩
        exact hfresh (Agent.eq_of hw hl ▸ hb)
    rw [hr m a (by simp) hreads hthr]
    obtain ⟨hframe', hholds', hothers', hflagged'⟩ := Lot.gave_turn m a d width signed rnd draws (r l) hw hal fun hb => (hfits hb).1
    refine ⟨?_, fun b hb => ?_, Lot.others_trans hothers hothers', Lot.flagged_append hflagged ⟨hflagged'.1, fun b hb => ?_⟩⟩
    · rw [hframe', hframe]
    · rcases List.mem_append.mp hb with hb | hb
      · obtain ⟨hbl, hbfits, -⟩ := hok b (by simp [hb])
        have hbt := hthread b hb b (by simp [hb])
        exact Lot.holds_of_others hothers' (fun h => hfresh (h ▸ hb)) hbl hbt (hbfits hbt).1 (hholds b hb)
      · exact hholds' b hb
    · rw [hflagged'.2 b hb]
      by_cases hba : b = a
      · rw [hba]
        simp [hthr]
      · simp [hba]

/-- A participant's operands are in place. -/
theorem State.runs_fits {s : State} {v : View} {p : BitVec 3} {th bk : Bool} {uses : List Use} (h : s.runs v p th bk uses) {a : Agent}
    (ha : a ∈ v.parts) (hb : a.isBarker = false) {r : BitVec 7} {n : Nat} (hu : useW r n ∈ uses) : r.toNat + Machine.regsOf n ≤ 128 :=
  Lot.useFault_fits hb (Lot.instrFault_use (h.2.2 a ((State.runs_parts h).2 a ha).1) hu)

/-- An instruction in which each participant takes its turn. -/
theorem State.each_gives {s : State} {v : View} {p : BitVec 3} {uses : List Use} {d : BitVec 7} {width rnd draws : Nat} {signed : Bool}
    (h : s.runs v p true true uses) (hu : useW d width ∈ uses) (hw : width < 32 ∨ width = 32 ∨ width = 64 ∨ width = 128)
    (r : Lot → Agent → Nat × Nat) (hr : ∀ m, ∀ a ∈ v.parts, v.l.reads m a uses → m.thr a = v.l.thr a → r m a = r v.l a) :
    ∃ l', s.each true uses p (fun l a => l.turn a d width signed rnd draws (r l a)) = .next (s.setLot v.i.core v.i.bctx l')
      ∧ v.l.Gave l' v.parts d width signed rnd draws (r v.l) :=
  ⟨_, State.each_runs h _, Lot.foldl_turn v.l v.parts d width signed rnd draws uses r hw (State.runs_parts h).1
    (fun _ ha => ⟨((State.runs_parts h).2 _ ha).2, fun hb => ⟨State.runs_fits h ha hb hu, fun _ _ => State.runs_fits h ha hb⟩,
      State.runs_barker_alone h ha⟩) hr⟩

theorem Ty.bits_cases (ty : Ty) : ty.bits < 32 ∨ ty.bits = 32 ∨ ty.bits = 64 ∨ ty.bits = 128 := by cases ty <;> decide

/-- The generators after the turns: those of the participants have advanced under RS. -/
theorem Lot.Gave.thr {l m : Lot} {as : List Agent} {d : BitVec 7} {width rnd draws : Nat} {signed : Bool} {res : Agent → Nat × Nat}
    (h : l.Gave m as d width signed rnd draws res) {draws' : Nat} (hdraws : rnd = 4 → draws' = draws) {a : Agent} (ha : a.l < 32) :
    m.thr a = if a ∈ as ∧ rnd = 4 then { l.thr a with rng := BitVec.ofNat 32 (rngAfter (l.thr a).rng.toNat draws') } else l.thr a := by
  rw [h.flagged.2 a ha]
  unfold Thread.afterDraws
  by_cases hin : a ∈ as <;> by_cases hrs : rnd = 4
  · simp [hin, hrs, hdraws hrs]
  all_goals simp [hin, hrs]

/-- An instruction in which each participant takes its turn computes its results, with their flags and generator steps. -/
theorem Instr.computesFloat_of_each {i : Instr} {p : BitVec 3} {uses : List Use} {d : BitVec 7} {width rnd draws draws' : Nat}
    (r : Lot → Agent → Nat × Nat)
    (hexec : ∀ s, exec i s = s.each true uses p (fun l a => l.turn a d width false rnd draws (r l a)))
    (hu : useW d width ∈ uses) (hw : width < 32 ∨ width = 32 ∨ width = 64 ∨ width = 128)
    (hr : ∀ l m a, l.reads m a uses → m.thr a = l.thr a → r m a = r l a) (hdraws : rnd = 4 → draws' = draws) :
    i.computesFloat p uses d width rnd draws' r := by
  intro s v h
  obtain ⟨l', heach, hgave⟩ := State.each_gives (signed := false) (rnd := rnd) (draws := draws) h hu hw r fun m a _ => hr v.l m a
  exact ⟨_, (hexec s).trans heach, l', rfl, hgave.frame, hgave.holds, hgave.others, hgave.flagged.1, fun _ => hgave.thr hdraws,
    fun _ => rfl⟩

end Sys2Proof.Machine
end

section
/-! Float arithmetic (04_numbers.md R99 to R101, R106, R107; 15_ref_d_i.md R371, R372, R377 to R380; O5). -/

namespace Sys2Proof.Machine

/-! ### Operands -/

theorem useW_d_mem_usesA (f : FmtA) (ty : Ty) (b c : Bool) : useW f.d ty.bits ∈ usesA f ty b c := by simp [usesA]

theorem useW_a_mem_usesA (f : FmtA) (ty : Ty) (b c : Bool) : useW f.a ty.bits ∈ usesA f ty b c := by simp [usesA]

theorem useW_c_mem_usesA (f : FmtA) (ty : Ty) (b : Bool) : useW f.cReg ty.bits ∈ usesA f ty b true := by simp [usesA]

theorem useW_b_mem_usesA {f : FmtA} (h : f.immOf = none) (ty : Ty) (c : Bool) : useW f.b ty.bits ∈ usesA f ty true c := by
  simp [usesA, h]

theorem Lot.reads.bVal {l m : Lot} {a : Agent} {f : FmtA} {ty : Ty} {c : Bool} (h : l.reads m a (usesA f ty true c)) :
    m.bVal a f ty = l.bVal a f ty := by
  unfold Lot.bVal
  cases himm : f.immOf with
  | some w => rfl
  | none => exact h _ _ (useW_b_mem_usesA himm ty c)

theorem Lot.reads.realB {l m : Lot} {a : Agent} {f : FmtA} {ty : Ty} {c : Bool} (h : l.reads m a (usesA f ty true c)) :
    m.realB a f ty = l.realB a f ty := congrArg (fmtOf ty).dec h.bVal

theorem Lot.reads.real {l m : Lot} {a : Agent} {r : BitVec 7} {ty : Ty} {uses : List Use} (h : l.reads m a uses)
    (hu : useW r ty.bits ∈ uses) : m.real a r ty = l.real a r ty := congrArg (fmtOf ty).dec (h _ _ hu)

/-! ### Instructions with one rounding -/

/-- An instruction with a rounded result rounds its exact value once, with one generator step under RS (R101, R106). -/
theorem State.float_computes {i : Instr} {f : FmtA} {uses : List Use} (op : Ty → Bool → Lot → Agent → FVal)
    (hexec : ∀ s, exec i s = s.float f uses op) (hu : useW f.d (f.ty .f32).bits ∈ uses)
    (hop : ∀ l m a, l.reads m a uses → op (f.ty .f32) (f.rnd == 2) m a = op (f.ty .f32) (f.rnd == 2) l a) :
    i.computesFloat f.p uses f.d (f.ty .f32).bits f.rnd (if f.rnd = 4 then 1 else 0)
      (fun l a => (fmtOf (f.ty .f32)).round f.rnd (l.drawn a f.rnd 0) (op (f.ty .f32) (f.rnd == 2) l a)) := by
  refine Instr.computesFloat_of_each (draws := 1) _ (fun s => (hexec s).trans ?_) hu (Ty.bits_cases _)
    (fun l m a hreads hthr => by rw [hop l m a hreads, Lot.drawn_of_thr hthr]) (fun h => if_pos h)
  refine congrArg (s.each true uses f.p) (funext fun l => funext fun a => ?_)
  dsimp only
  rw [show l.draw a f.rnd = (l.drawn a f.rnd 0, l.afterDraws a f.rnd 1) from Lot.draw_afterDraws l a f.rnd 0]
  rfl

/-- FMIN and FMAX: a number beats a NaN, and of two numbers `takesB` decides (R107, R379). -/
theorem FFmt.minMax_eq (f : FFmt) {wantMax : Bool} {takesB : FVal → FVal → Bool}
    (h : ∀ x y, (if wantMax then FVal.ltz x y else FVal.ltz y x) = takesB x y) (a b : Nat) : f.minMax wantMax a b =
    (if (f.dec a).isNan && (f.dec b).isNan then f.nanEnc else if (f.dec a).isNan then b else if (f.dec b).isNan then a
      else if takesB (f.dec a) (f.dec b) then b else a,
     if (f.dec a).isSig || (f.dec b).isSig then flagNV else 0) := by
  unfold FFmt.minMax flagIf
  rw [← h]
  dsimp only
  cases wantMax <;> split_ifs <;> rfl

theorem State.floatMinMax_computes {i : Instr} {f : FmtA} {wantMax : Bool} {takesB : FVal → FVal → Bool}
    (hexec : ∀ s, exec i s = s.floatMinMax f wantMax) (h : ∀ x y, (if wantMax then FVal.ltz x y else FVal.ltz y x) = takesB x y) :
    i.computesFloat f.p (usesA f (f.ty .f32) true false) f.d (f.ty .f32).bits 0 0 (fun l a =>
      let x := l.real a f.a (f.ty .f32)
      let y := l.realB a f (f.ty .f32)
      (if x.isNan && y.isNan then (fmtOf (f.ty .f32)).nanEnc else if x.isNan then l.bVal a f (f.ty .f32)
        else if y.isNan then l.val a f.a (f.ty .f32).bits
        else if takesB x y then l.bVal a f (f.ty .f32) else l.val a f.a (f.ty .f32).bits,
       if x.isSig || y.isSig then flagNV else 0)) := by
  refine Instr.computesFloat_of_each (draws := 0) _ (fun s => (hexec s).trans ?_) (useW_d_mem_usesA ..) (Ty.bits_cases _)
    (fun l m a hreads _ => ?_) (fun _ => rfl)
  · exact congrArg (s.each true _ f.p) (funext fun l => funext fun a => congrArg (l.setFloat a f.d _) (FFmt.minMax_eq _ h _ _))
  · simp only [hreads _ _ (useW_a_mem_usesA ..), hreads.bVal, hreads.realB, hreads.real (useW_a_mem_usesA ..)]

/-- Settles O5: each operation is one rounding of its exact value, and the minimum and maximum choose between their operands. -/
theorem floatArithmetic : Obligations.FloatArithmetic := by
  unfold Obligations.FloatArithmetic
  refine ⟨fun f => ⟨?_, ?_, ?_, ?_, ?_, fun hty => ?_⟩, fun f => ⟨?_, ?_⟩⟩
  · exact State.float_computes (fun ty rd l a => FVal.add rd (l.real a f.a ty) (l.realB a f ty)) (fun _ => rfl) (useW_d_mem_usesA ..)
      fun l m a h => by rw [h.real (useW_a_mem_usesA ..), h.realB]
  · exact State.float_computes (fun ty rd l a => FVal.add rd (l.real a f.a ty) (l.realB a f ty).negate) (fun _ => rfl)
      (useW_d_mem_usesA ..) fun l m a h => by rw [h.real (useW_a_mem_usesA ..), h.realB]
  · exact State.float_computes (fun ty _ l a => FVal.mul (l.real a f.a ty) (l.realB a f ty)) (fun _ => rfl) (useW_d_mem_usesA ..)
      fun l m a h => by rw [h.real (useW_a_mem_usesA ..), h.realB]
  · exact State.float_computes (fun ty rd l a => FVal.fma rd (l.real a f.a ty) (l.realB a f ty) (l.real a f.d ty)) (fun _ => rfl)
      (useW_d_mem_usesA ..) fun l m a h => by rw [h.real (useW_a_mem_usesA ..), h.realB, h.real (useW_d_mem_usesA ..)]
  · exact State.float_computes (fun ty rd l a => FVal.fma rd (l.real a f.a ty) (l.realB a f ty) (l.real a f.cReg ty)) (fun _ => rfl)
      (useW_d_mem_usesA ..) fun l m a h => by rw [h.real (useW_a_mem_usesA ..), h.realB, h.real (useW_c_mem_usesA ..)]
  · have hd : useW f.d (f.ty .f32).bits ∈ usesA f .f32 false false := by
      rw [hty]
      exact useW_d_mem_usesA ..
    have h := State.float_computes (i := .fsqrt f) (f := f) (fun _ _ l a => (l.real a f.a .f32).sqrt) (fun _ => rfl) hd
      fun l m a h => by rw [h.real (useW_a_mem_usesA ..)]
    rw [hty] at h ⊢
    exact h
  · exact State.floatMinMax_computes (wantMax := false) (takesB := fun x y => FVal.ltz y x) (fun _ => rfl) fun _ _ => rfl
  · exact State.floatMinMax_computes (wantMax := true) (takesB := FVal.ltz) (fun _ => rfl) fun _ _ => rfl

end Sys2Proof.Machine
end

section
/-! Comparisons (04_numbers.md R107; 15_ref_d_i.md R373, R374, R384, R385; O4). -/

namespace Sys2Proof.Machine

/-! ### The predicates of a comparison -/

/-- A thread with PD set to a result and PC, where it is not p0, to its complement (R385). -/
def Thread.withCmp (t : Thread) (pd pc : BitVec 3) (x : Bool) : Thread :=
  if pc = 0 then t.withPred pd.toNat x else (t.withPred pd.toNat x).withPred pc.toNat (!x)

theorem Thread.withCmp_frame (t : Thread) (pd pc : BitVec 3) (x : Bool) :
    t.withCmp pd pc x = { t with preds := (t.withCmp pd pc x).preds } := by
  unfold Thread.withCmp
  split <;> rfl

theorem Thread.getLsbD_withCmp (t : Thread) (pd pc : BitVec 3) (x : Bool) {q : BitVec 3} (hq : q ≠ 0) :
    (t.withCmp pd pc x).preds.getLsbD q.toNat = if pc = q then !x else if pd = q then x else t.preds.getLsbD q.toNat := by
  unfold Thread.withCmp
  split
  · next h => rw [Thread.getLsbD_withPred, if_neg (fun e : pc = q => hq (e.symm.trans h))]
  · rw [Thread.getLsbD_withPred, Thread.getLsbD_withPred]

theorem Lot.pred_eq (l : Lot) (a : Agent) {q : BitVec 3} (hq : q ≠ 0) : l.pred a q.toNat = (l.thr a).preds.getLsbD q.toNat := by
  have hq' : q.toNat ≠ 0 := fun e => hq (BitVec.eq_of_toNat_eq e)
  simp [Lot.pred, hq']

theorem Lot.thr_setCmp (l : Lot) (a : Agent) (f : FmtP) (x : Bool) : (l.setCmp a f x).thr a = (l.thr a).withCmp f.pd (FmtP_pc f) x := by
  unfold Lot.setCmp Thread.withCmp FmtP_pc
  rw [Lot.setPred_eq]
  cases f.m with
  | none => simp
  | some m =>
    dsimp only
    split
    · exact Lot.thr_setThr ..
    · rw [Lot.setPred_eq, Lot.thr_setThr, Lot.thr_setThr]

/-- A comparison changes the predicates of its agent alone. -/
theorem Lot.setCmp_frame (l : Lot) {a : Agent} (f : FmtP) (x : Bool) (ha : a.l < 32) :
    l.setCmp a f x = { l with threads := (l.setCmp a f x).threads }
      ∧ ∀ b : Agent, b.l < 32 → b ≠ a → (l.setCmp a f x).thr b = l.thr b := by
  unfold Lot.setCmp
  rw [Lot.setPred_eq]
  cases f.m with
  | none => exact ⟨rfl, fun b hb hne => Lot.thr_setThr_other _ _ _ _ ha hb hne⟩
  | some m =>
    by_cases h : m.pc = 0
    · simp only [h, if_true]
      exact ⟨rfl, fun b hb hne => Lot.thr_setThr_other _ _ _ _ ha hb hne⟩
    · simp only [h, if_false, Lot.setPred_eq]
      exact ⟨rfl, fun b hb hne => (Lot.thr_setThr_other _ _ _ _ ha hb hne).trans (Lot.thr_setThr_other _ _ _ _ ha hb hne)⟩

/-! ### Comparisons of the participants, one after the other -/

/-- One participant's turn of a comparison whose flags have been set. -/
theorem Lot.flagged_setCmp {l m : Lot} {a : Agent} {fl : Agent → Nat} (f : FmtP) (x : Bool) (ha : a.l < 32)
    (hw : ∀ w, m.warp w = { l.warp w with fstat := (l.warp w).fstat ||| flagsOf fl [a] w }) (ht : ∀ b, m.thr b = l.thr b)
    {thr : Agent → Thread} (hthr : thr a = (l.thr a).withCmp f.pd (FmtP_pc f) x) : l.flagged (m.setCmp a f x) [a] fl thr := by
  obtain ⟨hframe, hother⟩ := Lot.setCmp_frame m f x ha
  refine ⟨fun w => ?_, fun b hb => ?_⟩
  · rw [hframe]
    exact hw w
  · by_cases hba : b = a
    · rw [hba, if_pos (List.mem_singleton_self a), Lot.thr_setCmp, ht, hthr]
    · rw [hother b hb hba, ht, if_neg (by simpa using hba)]

/-- An instruction in which each participant sets its predicates and flags, by the operands before it. -/
theorem State.each_compared {s : State} {v : View} {f : FmtP} {uses : List Use} (h : s.runs v f.p true true uses)
    (g : Lot → Agent → Lot) (res : Lot → Agent → Bool) (fl : Lot → Agent → Nat)
    (hframe : ∀ l a, a.l < 32 → g l a = { l with warps := (g l a).warps, threads := (g l a).threads })
    (hg : ∀ l a, a.l < 32 → ∀ fl' thr, fl' a = fl l a → thr a = (l.thr a).withCmp f.pd (FmtP_pc f) (res l a) → l.flagged (g l a) [a] fl' thr)
    (hres : ∀ l m a, m.vregs = l.vregs → m.sregs = l.sregs → res m a = res l a ∧ fl m a = fl l a) :
    ∃ t, s.each true uses f.p g = .next t ∧ s.compared t v f.pd (FmtP_pc f) (res v.l) (fl v.l) := by
  have hfold : ∀ as : List Agent, as.Nodup → (∀ a ∈ as, a.l < 32) →
      as.foldl g v.l = { v.l with warps := (as.foldl g v.l).warps, threads := (as.foldl g v.l).threads }
        ∧ v.l.flagged (as.foldl g v.l) as (fl v.l) (fun a => (v.l.thr a).withCmp f.pd (FmtP_pc f) (res v.l a)) := by
    intro as
    induction as using List.reverseRecOn with
    | nil => exact fun _ _ => ⟨rfl, Lot.flagged_nil ..⟩
    | append_singleton as a ih =>
      intro hnodup hlane
      obtain ⟨hf, hflagged⟩ := ih hnodup.of_append_left fun b hb => hlane b (by simp [hb])
      have hfresh : a ∉ as := fun ha => (List.nodup_append.mp hnodup).2.2 a ha a (by simp) rfl
      have hal := hlane a (by simp)
      simp only [List.foldl_append, List.foldl_cons, List.foldl_nil]
      generalize as.foldl g v.l = m at hf hflagged
      obtain ⟨hr, hfl⟩ := hres v.l m a (by rw [hf]) (by rw [hf])
      refine ⟨?_, Lot.flagged_append hflagged (hg m a hal _ _ hfl.symm ?_)⟩
      · rw [hframe m a hal, hf]
      · rw [hr, hflagged.2 a hal, if_neg hfresh]
  obtain ⟨hnodup, hparts⟩ := State.runs_parts h
  obtain ⟨hf, hwarp, hthr⟩ := hfold v.parts hnodup fun a ha => (hparts a ha).2
  refine ⟨_, State.each_runs h g, _, rfl, hf, fun a ha => ⟨?_, fun q => ?_⟩, hwarp, fun _ => rfl⟩
  · rw [hthr a ha]
    split
    · exact Thread.withCmp_frame ..
    · rfl
  · by_cases hq : q = 0
    · simp [hq, Lot.pred]
    · rw [Lot.pred_eq _ _ hq, Lot.pred_eq _ _ hq, hthr a ha]
      by_cases hin : a ∈ v.parts
      · rw [if_pos hin, Thread.getLsbD_withCmp _ _ _ _ hq]
        simp only [hin, hq, true_and, ne_eq, not_false_eq_true]
      · simp [hin]

theorem Lot.bValP_of_regs {l m : Lot} (hv : m.vregs = l.vregs) (hs : m.sregs = l.sregs) (a : Agent) (f : FmtP) (ty : Ty) :
    m.bValP a f ty = l.bValP a f ty := by
  unfold Lot.bValP
  rw [Lot.val_of_regs hv hs]

theorem State.cmpInt_compares {s : State} {v : View} {f : FmtP} {ty : Ty} (h : s.runs v f.p true true (usesP f ty)) :
    ∃ t, s.cmpInt f ty = .next t ∧ s.compared t v f.pd (FmtP_pc f)
      (fun a => ccInt f.cc.toNat (Ty.toInt ty (v.l.val a f.a ty.bits)) (Ty.toInt ty (v.l.bValP a f ty))) (fun _ => 0) := by
  refine State.each_compared h _ (fun l a => ccInt f.cc.toNat (Ty.toInt ty (l.val a f.a ty.bits)) (Ty.toInt ty (l.bValP a f ty)))
    (fun _ _ => 0) (fun l a ha => ?_) (fun l a ha fl thr hfl hthr => ?_) fun l m a hv hs => ⟨?_, rfl⟩
  · rw [(Lot.setCmp_frame l f _ ha).1]
  · refine Lot.flagged_setCmp f _ ha (fun w => ?_) (fun _ => rfl) hthr
    simp [flagsOf_singleton, hfl]
  · rw [Lot.val_of_regs hv hs, Lot.bValP_of_regs hv hs]

/-- The relation of FCMP as R374 and R107 word it: false on a NaN but for NE and UN. -/
theorem ccFloat_eq (cc : Nat) (x y : FVal) : ccFloat cc x y =
    (let un := x.isNan || y.isNan
     match cc with
      | 0 => !un && FVal.eqv x y | 1 => un || !FVal.eqv x y
      | 2 => !un && FVal.lt x y | 3 => !un && (FVal.lt x y || FVal.eqv x y)
      | 4 => !un && FVal.lt y x | 5 => !un && (FVal.lt y x || FVal.eqv x y)
      | 6 => un | _ => !un) := by
  unfold ccFloat
  dsimp only
  cases x.isNan || y.isNan
  · rcases cc with _ | _ | _ | _ | _ | _ | _ | cc <;> rfl
  · rcases cc with _ | _ | _ | _ | _ | _ | _ | cc <;> rfl

theorem cmpFlags_eq (cc : Nat) (x y : FVal) :
    cmpFlags cc x y = if x.isSig ∨ y.isSig ∨ ((x.isNan ∨ y.isNan) ∧ 2 ≤ cc ∧ cc ≤ 5) then 1 else 0 := by
  unfold cmpFlags flagIf flagNV
  simp only [Bool.or_eq_true, Bool.and_eq_true, decide_eq_true_eq, or_assoc]

theorem execFcmp_compares {s : State} {v : View} {f : FmtP} {ty : Ty} (hty : (match f.m with | some m => m.ty | none => Ty.f32) = ty)
    (h : s.runs v f.p true true (usesP f ty)) :
    ∃ t, execFcmp f s = .next t ∧ s.compared t v f.pd (FmtP_pc f)
      (fun a => ccFloat f.cc.toNat ((fmtOf ty).dec (v.l.val a f.a ty.bits)) ((fmtOf ty).dec (v.l.bValP a f ty)))
      (fun a => cmpFlags f.cc.toNat ((fmtOf ty).dec (v.l.val a f.a ty.bits)) ((fmtOf ty).dec (v.l.bValP a f ty))) := by
  subst hty
  generalize hty : (match f.m with | some m => m.ty | none => Ty.f32) = ty at h ⊢
  let x (l : Lot) (a : Agent) := (fmtOf ty).dec (l.val a f.a ty.bits)
  let y (l : Lot) (a : Agent) := (fmtOf ty).dec (l.bValP a f ty)
  have hexec : execFcmp f s = s.each true (usesP f ty) f.p (fun l a =>
      (l.orFlags a.w (cmpFlags f.cc.toNat (x l a) (y l a))).setCmp a f (ccFloat f.cc.toNat (x l a) (y l a))) := by
    subst hty
    rfl
  rw [hexec]
  refine State.each_compared h _ (fun l a => ccFloat f.cc.toNat (x l a) (y l a)) (fun l a => cmpFlags f.cc.toNat (x l a) (y l a))
    (fun l a ha => ?_) (fun l a ha fl thr hfl hthr => ?_) fun l m a hv hs => ?_
  · rw [(Lot.setCmp_frame _ f _ ha).1]
    rfl
  · refine Lot.flagged_setCmp (l := l) (m := l.orFlags a.w (cmpFlags f.cc.toNat (x l a) (y l a))) f _ ha ?_ (fun _ => rfl) hthr
    rw [← hfl]
    exact (Lot.flagged_orFlags (thr := l.thr) (fun _ => rfl) rfl fun _ _ _ => rfl).1
  · have hx : x m a = x l a := by simp only [x, Lot.val_of_regs hv hs]
    have hy : y m a = y l a := by simp only [y, Lot.bValP_of_regs hv hs]
    rw [hx, hy]
    exact ⟨rfl, rfl⟩

/-- Settles O4: each comparison sets the predicates of its participants in turn, by the relation of its condition code. -/
theorem comparisons : Obligations.Comparisons := by
  unfold Obligations.Comparisons
  refine ⟨fun f s v => ⟨fun h => State.cmpInt_compares h, fun h => State.cmpInt_compares h⟩, ?_⟩
  intro f s v ty x y h
  obtain ⟨t, ht, hcomp⟩ := execFcmp_compares rfl h
  simp only [ccFloat_eq, cmpFlags_eq] at hcomp
  exact ⟨t, ht, hcomp⟩

end Sys2Proof.Machine
end

section
/-! F32 values in the order of their encodings (04_numbers.md R94, R99, R100): the magnitude of an encoding, and between which two
magnitudes a rounding chooses. -/

namespace Sys2Proof.Machine

/-! ### A value at the place of a unit -/

theorem zpow_two_eq_natCast {a b : Int} (h : b ≤ a) : (2 : ℝ) ^ a = ((2 ^ (a - b).toNat : Nat) : ℝ) * (2 : ℝ) ^ b := by
  rw [Nat.cast_pow, Nat.cast_ofNat, ← zpow_natCast, ← zpow_add₀ (by norm_num)]
  congr 1
  omega

/-- A value is its integer part and its remainder at the place of a unit. -/
theorem scaleTo_eq (m : Nat) (e q : Int) : let x := scaleTo m e q
    x.2.1 < x.2.2 ∧ (m : ℝ) * 2 ^ e = (x.1 + (x.2.1 : ℝ) / x.2.2) * 2 ^ q := by
  unfold scaleTo
  split
  · next h =>
    refine ⟨Nat.one_pos, ?_⟩
    rw [zpow_two_eq_natCast h]
    push_cast
    ring
  · next h =>
    refine ⟨Nat.mod_lt _ (Nat.two_pow_pos _), ?_⟩
    have hd : ((2 ^ (q - e).toNat : Nat) : ℝ) ≠ 0 := by positivity
    have hm : (m : ℝ) = (2 ^ (q - e).toNat : Nat) * (m / 2 ^ (q - e).toNat : Nat) + (m % 2 ^ (q - e).toNat : Nat) := by
      exact_mod_cast (Nat.div_add_mod m _).symm
    rw [zpow_two_eq_natCast (not_le.mp h).le]
    dsimp only
    field_simp
    rw [hm]
    ring

theorem scaleTo_bounds (m : Nat) (e q : Int) : let x := scaleTo m e q
    (x.1 : ℝ) * 2 ^ q ≤ m * 2 ^ e ∧ (m : ℝ) * 2 ^ e < (x.1 + 1 : Nat) * 2 ^ q ∧ ((m : ℝ) * 2 ^ e = x.1 * 2 ^ q ↔ x.2.1 = 0) := by
  obtain ⟨hlt, heq⟩ := scaleTo_eq m e q
  intro x
  have hd : (0 : ℝ) < x.2.2 := by exact_mod_cast (Nat.zero_le _).trans_lt hlt
  have hfrac : (x.2.1 : ℝ) / x.2.2 < 1 := (div_lt_one hd).mpr (by exact_mod_cast hlt)
  have hq : (0 : ℝ) < 2 ^ q := by positivity
  rw [heq]
  refine ⟨by gcongr; exact le_add_of_nonneg_right (by positivity), by push_cast; gcongr, ?_⟩
  rw [mul_left_inj' hq.ne', add_eq_left, div_eq_zero_iff, or_iff_left hd.ne', Nat.cast_eq_zero]

/-- Powers of two and the leading bit. -/
theorem leadExp_bounds {m : Nat} (hm : m ≠ 0) (e : Int) :
    (2 : ℝ) ^ leadExp m e ≤ m * 2 ^ e ∧ (m : ℝ) * 2 ^ e < 2 ^ (leadExp m e + 1) := by
  have hlo : ((2 ^ Nat.log2 m : Nat) : ℝ) ≤ m := by exact_mod_cast Nat.log2_self_le hm
  have hhi : (m : ℝ) < (2 ^ (Nat.log2 m + 1) : Nat) := by exact_mod_cast Nat.lt_log2_self
  unfold leadExp flog2
  constructor
  · rw [zpow_add₀ (by norm_num), zpow_natCast]
    push_cast at hlo
    gcongr
  · rw [add_right_comm, zpow_add₀ (by norm_num)]
    push_cast at hhi
    gcongr
    exact_mod_cast hhi

/-! ### Magnitudes of F32 (R94) -/

/-- The magnitude of an F32 encoding without its sign, in units of the smallest subnormal. -/
def f32Units (n : Nat) : Nat := if n < 2 ^ 23 then n else (2 ^ 23 + n % 2 ^ 23) * 2 ^ (n / 2 ^ 23 - 1)

/-- A magnitude by the place q of its unit above the smallest subnormal and the multiple k of that unit. -/
theorem f32Units_eq {q k : Nat} (hk : k ≤ 2 ^ 24) (h : q = 0 ∨ 2 ^ 23 ≤ k) : f32Units (q * 2 ^ 23 + k) = k * 2 ^ q := by
  unfold f32Units
  by_cases hsub : k < 2 ^ 23
  · rw [if_pos (by omega)]
    simp [show q = 0 by omega]
  · rw [if_neg (by omega)]
    by_cases hcarry : k = 2 ^ 24
    · have hdiv : (q * 2 ^ 23 + k) / 2 ^ 23 - 1 = q + 1 := by omega
      have hmod : (q * 2 ^ 23 + k) % 2 ^ 23 = 0 := by omega
      rw [hdiv, hmod, hcarry, pow_succ]
      ring
    · have hdiv : (q * 2 ^ 23 + k) / 2 ^ 23 - 1 = q := by omega
      have hmod : 2 ^ 23 + (q * 2 ^ 23 + k) % 2 ^ 23 = k := by omega
      rw [hdiv, hmod]

theorem f32Units_lt_succ (n : Nat) : f32Units n < f32Units (n + 1) := by
  obtain ⟨q, k, hk, h, rfl⟩ : ∃ q k, k < 2 ^ 24 ∧ (q = 0 ∨ 2 ^ 23 ≤ k) ∧ n = q * 2 ^ 23 + k := by
    by_cases hn : n < 2 ^ 23
    · exact ⟨0, n, by omega, .inl rfl, by omega⟩
    · exact ⟨n / 2 ^ 23 - 1, 2 ^ 23 + n % 2 ^ 23, by omega, .inr (by omega), by omega⟩
  rw [Nat.add_assoc, f32Units_eq hk.le h, f32Units_eq hk (h.imp id fun h => h.trans k.le_succ)]
  exact Nat.mul_lt_mul_of_pos_right k.lt_succ_self (Nat.two_pow_pos q)

theorem f32Units_strictMono : StrictMono f32Units := strictMono_nat_of_lt_succ f32Units_lt_succ

/-- The magnitude of an F32 encoding without its sign; past the largest finite one, as if the exponent range went on. -/
noncomputable def f32Mag (n : Nat) : ℝ := f32Units n * 2 ^ (-149 : Int)

theorem f32Mag_strictMono : StrictMono f32Mag := fun _ _ h => by
  unfold f32Mag
  have := f32Units_strictMono h
  gcongr

theorem f32Mag_nonneg (n : Nat) : 0 ≤ f32Mag n := by unfold f32Mag; positivity

@[simp] theorem f32Mag_zero : f32Mag 0 = 0 := by simp [f32Mag, f32Units]

theorem f32Mag_eq {q : Int} {k : Nat} (hq : -149 ≤ q) (hk : k ≤ 2 ^ 24) (h : q = -149 ∨ 2 ^ 23 ≤ k) :
    f32Mag ((q + 149).toNat * 2 ^ 23 + k) = k * 2 ^ q := by
  unfold f32Mag
  rw [f32Units_eq hk (h.imp (by omega) id), zpow_two_eq_natCast hq, show (q - -149).toNat = (q + 149).toNat by omega]
  push_cast
  ring

/-! ### Reading an encoding (R94, R95) -/

theorem fmtF32_fields (neg : Bool) {n : Nat} (h : n < 2 ^ 31) :
    fmtF32.fields (fmtF32.signEnc neg n) = (neg, n / 2 ^ 23, n % 2 ^ 23) := by
  change (bit (fmtF32.signEnc neg n) 31, bits (fmtF32.signEnc neg n) 30 23, bits (fmtF32.signEnc neg n) 22 0) = _
  unfold bit bits FFmt.signEnc fmtF32
  cases neg
  · simp only [Bool.false_eq_true, if_false, Prod.mk.injEq, decide_eq_false_iff_not]
    omega
  · simp only [if_true, Prod.mk.injEq, decide_eq_true_eq]
    omega

theorem fmtF32_dec (neg : Bool) {n : Nat} (h : n < 2 ^ 31) : fmtF32.dec (fmtF32.signEnc neg n) =
    if n / 2 ^ 23 = 255 then if n % 2 ^ 23 = 0 then .inf neg else .nan (!bit (n % 2 ^ 23) 22)
    else if n / 2 ^ 23 = 0 then .fin neg (n % 2 ^ 23) (-149) else .fin neg (2 ^ 23 + n % 2 ^ 23) ((n / 2 ^ 23 : Nat) - 150) := by
  unfold FFmt.dec
  rw [fmtF32_fields neg h]
  have hexp : ((n / 2 ^ 23 : Nat) : Int) - (127 : Nat) - (23 : Nat) = (n / 2 ^ 23 : Nat) - 150 := by omega
  exact congrArg (fun e => if n / 2 ^ 23 = 255 then if n % 2 ^ 23 = 0 then FVal.inf neg else .nan (!bit (n % 2 ^ 23) 22)
    else if n / 2 ^ 23 = 0 then .fin neg (n % 2 ^ 23) (-149) else .fin neg (2 ^ 23 + n % 2 ^ 23) e) hexp

/-- The encodings below that of infinity are finite. -/
theorem fmtF32_dec_finite (neg : Bool) {n : Nat} (h : n < 0x7F800000) :
    ∃ m e, fmtF32.dec (fmtF32.signEnc neg n) = .fin neg m e ∧ m < 2 ^ 24 ∧ -149 ≤ e ∧ (m : ℝ) * 2 ^ e = f32Mag n := by
  rw [fmtF32_dec neg (by omega), if_neg (by omega)]
  split
  · next h0 =>
    refine ⟨_, _, rfl, by omega, le_rfl, ?_⟩
    rw [← f32Mag_eq (q := -149) le_rfl (by omega) (.inl rfl)]
    congr 1
    omega
  · next h0 =>
    refine ⟨_, _, rfl, by omega, by omega, ?_⟩
    rw [← f32Mag_eq (by omega) (by omega) (.inr (by omega))]
    congr 1
    omega

theorem fmtF32_dec_isReal (neg : Bool) {n : Nat} (h : n < 0x7F800000) :
    (fmtF32.dec (fmtF32.signEnc neg n)).isReal ((if neg then -1 else 1) * f32Mag n) := by
  obtain ⟨m, e, hdec, -, -, hmag⟩ := fmtF32_dec_finite neg h
  exact ⟨neg, m, e, hdec, by rw [← hmag, mul_assoc]⟩

/-! ### Rounding (R99, R100) -/

/-- The place of the last mantissa bit of a value, no lower than the smallest subnormal. -/
theorem ulpExp_ge (le : Int) : -149 ≤ ulpExp le := le_max_right _ _

/-- The magnitude encoding at or below m × 2^e, and that of the value cut at its unit. -/
def f32Below (m : Nat) (e : Int) : Nat :=
  (ulpExp (leadExp m e) + 149).toNat * 2 ^ 23 + (scaleTo m e (ulpExp (leadExp m e))).1

/-- The value cut at its unit has at most 24 bits, and all 24 where the value is normal. -/
theorem scaleTo_ulp {m : Nat} (hm : m ≠ 0) (e : Int) : (scaleTo m e (ulpExp (leadExp m e))).1 < 2 ^ 24
    ∧ (ulpExp (leadExp m e) = -149 ∨ 2 ^ 23 ≤ (scaleTo m e (ulpExp (leadExp m e))).1) := by
  obtain ⟨hlo, hhi⟩ := leadExp_bounds hm e
  obtain ⟨hk, hk1, -⟩ := scaleTo_bounds m e (ulpExp (leadExp m e))
  generalize hu : ulpExp (leadExp m e) = u at *
  generalize (scaleTo m e u).1 = k at *
  have hpos : (0 : ℝ) < 2 ^ u := by positivity
  have hle : leadExp m e ≤ u + 23 := by unfold ulpExp at hu; omega
  constructor
  · have : (k : ℝ) * 2 ^ u < 2 ^ 24 * 2 ^ u := by
      refine (hk.trans_lt hhi).trans_le ?_
      rw [← zpow_natCast, ← zpow_add₀ (by norm_num)]
      exact zpow_le_zpow_right₀ (by norm_num) (by push_cast; omega)
    exact_mod_cast lt_of_mul_lt_mul_right this hpos.le
  · by_cases hsub : u = -149
    · exact .inl hsub
    · refine .inr (Nat.lt_succ_iff.mp ?_)
      have hnorm : leadExp m e = u + 23 := by unfold ulpExp at hu; omega
      have : (2 ^ 23 : ℝ) * 2 ^ u < (k + 1 : Nat) * 2 ^ u := by
        refine lt_of_le_of_lt ?_ (hlo.trans_lt hk1)
        rw [hnorm, add_comm, zpow_add₀ (by norm_num)]
        norm_num
      exact_mod_cast lt_of_mul_lt_mul_right this hpos.le

/-- A value lies at or above the magnitude below it and under the next one; where nothing is cut it is that magnitude. -/
theorem f32Below_bounds {m : Nat} (hm : m ≠ 0) (e : Int) :
    f32Mag (f32Below m e) = (scaleTo m e (ulpExp (leadExp m e))).1 * 2 ^ ulpExp (leadExp m e)
      ∧ f32Mag (f32Below m e) ≤ m * 2 ^ e ∧ (m : ℝ) * 2 ^ e < f32Mag (f32Below m e + 1)
      ∧ f32Mag (f32Below m e + 1) = f32Mag (f32Below m e) + 2 ^ ulpExp (leadExp m e)
      ∧ ((m : ℝ) * 2 ^ e = f32Mag (f32Below m e) ↔ (scaleTo m e (ulpExp (leadExp m e))).2.1 = 0) := by
  obtain ⟨hk, hnorm⟩ := scaleTo_ulp hm e
  obtain ⟨hlo, hhi, hexact⟩ := scaleTo_bounds m e (ulpExp (leadExp m e))
  unfold f32Below
  rw [Nat.add_assoc, f32Mag_eq (ulpExp_ge _) hk.le hnorm, f32Mag_eq (ulpExp_ge _) hk (hnorm.imp id fun h => h.trans (Nat.le_succ _))]
  refine ⟨rfl, hlo, hhi, ?_, hexact⟩
  push_cast
  ring

theorem fmtF32_encMag {k : Nat} {q : Int} (hk : k ≤ 2 ^ 24) (hq : -149 ≤ q) (h : q = -149 ∨ 2 ^ 23 ≤ k) :
    fmtF32.encMag k q = (q + 149).toNat * 2 ^ 23 + k := by
  unfold FFmt.encMag fmtF32
  dsimp only
  split
  · omega
  · split <;> omega

/-- The magnitude encoding to which a value rounds, as if the exponent range went on. -/
def f32Rounded (rnd u : Nat) (neg : Bool) (m : Nat) (e : Int) : Nat :=
  let x := scaleTo m e (ulpExp (leadExp m e))
  f32Below m e + if roundsUp rnd neg x.1 x.2.1 x.2.2 u then 1 else 0

/-- The encoding of a finite value rounded to F32: the magnitude below it or the next, or what an overflow gives. -/
theorem fmtF32_roundFin {m : Nat} (hm : m ≠ 0) (e : Int) (rnd u : Nat) (neg : Bool) :
    (fmtF32.roundFin rnd u neg m e).1 = fmtF32.signEnc neg (if 0x7F7FFFFF < f32Rounded rnd u neg m e then
      if rnd = 0 || (rnd = 2 && neg) || (rnd = 3 && !neg) then 0x7F800000 else 0x7F7FFFFF else f32Rounded rnd u neg m e) := by
  obtain ⟨hk, hnorm⟩ := scaleTo_ulp hm e
  have hq : max (leadExp m e - (fmtF32.mb : Int)) (1 - (fmtF32.bias : Int) - fmtF32.mb) = ulpExp (leadExp m e) := rfl
  have hmax : fmtF32.maxEnc = 0x7F7FFFFF := rfl
  have hinf : fmtF32.infEnc = 0x7F800000 := rfl
  unfold f32Rounded f32Below FFmt.roundFin roundAt
  rw [if_neg hm]
  simp only [hq, hmax, hinf]
  have hge := ulpExp_ge (leadExp m e)
  generalize ulpExp (leadExp m e) = q at *
  generalize scaleTo m e q = x at *
  generalize roundsUp rnd neg x.1 x.2.1 x.2.2 u = up
  have henc : fmtF32.encMag (if up = true then x.1 + 1 else x.1) q = (q + 149).toNat * 2 ^ 23 + x.1 + if up = true then 1 else 0 := by
    cases up
    · simpa using fmtF32_encMag hk.le hge hnorm
    · simpa [Nat.add_assoc] using fmtF32_encMag (Nat.succ_le_of_lt hk) hge (hnorm.imp id fun h => h.trans (Nat.le_succ _))
  rw [henc]
  generalize (q + 149).toNat * 2 ^ 23 + x.1 + _ = n
  by_cases hover : 0x7F7FFFFF < n
  · rw [if_pos hover, if_pos hover]
    rfl
  · rw [if_neg hover, if_neg hover]

/-- A value that a format's unit at its place divides, and that is no larger than the largest finite one, is exact in every mode: it rounds
to itself, and no flag is set. -/
theorem FFmt.roundFin_exact (f : FFmt) {m : Nat} (hm : m ≠ 0) {e q : Int} (hq : max (leadExp m e - f.mb) (1 - f.bias - f.mb) = q) (he : q ≤ e)
    (hfits : f.encMag (m * 2 ^ (e - q).toNat) q ≤ f.maxEnc) (rnd u : Nat) (neg : Bool) :
    f.roundFin rnd u neg m e = (f.signEnc neg (f.encMag (m * 2 ^ (e - q).toNat) q), 0) := by
  have hround : roundAt rnd neg m e q u = (m * 2 ^ (e - q).toNat, false) := by
    simp [roundAt, scaleTo, roundsUp, he]
  unfold FFmt.roundFin
  rw [if_neg hm]
  simp only [hq, hround]
  rw [if_neg (by omega)]
  simp [flagIf]

theorem f32Below_finite {m : Nat} (hm : m ≠ 0) {e : Int} (hle : leadExp m e ≤ 127) : f32Below m e ≤ 0x7F7FFFFF := by
  have hk := (scaleTo_ulp hm e).1
  have hge : ulpExp (leadExp m e) ≤ 104 := by unfold ulpExp; omega
  unfold f32Below
  omega

/-- A value of at most 24 bits in the range of F32 is exact. -/
theorem fmtF32_roundFin_exact {m : Nat} (hm : m ≠ 0) (hbits : m < 2 ^ 24) {e : Int} (he : -149 ≤ e) (hle : leadExp m e ≤ 127)
    (rnd u : Nat) (neg : Bool) : (fmtF32.roundFin rnd u neg m e).2 = 0
      ∧ (fmtF32.dec (fmtF32.roundFin rnd u neg m e).1).isReal ((if neg then -1 else 1) * (m * 2 ^ e)) := by
  obtain ⟨hk, hnorm⟩ := scaleTo_ulp hm e
  obtain ⟨-, -, -, -, hexact⟩ := f32Below_bounds hm e
  have hq : ulpExp (leadExp m e) ≤ e := by
    have hlog : Nat.log2 m < 24 := (Nat.log2_lt hm).mpr hbits
    unfold ulpExp leadExp flog2
    omega
  have hscale : scaleTo m e (ulpExp (leadExp m e)) = (m * 2 ^ (e - ulpExp (leadExp m e)).toNat, 0, 1) := by
    unfold scaleTo
    rw [if_pos hq]
  have hfits := f32Below_finite hm hle
  have henc : fmtF32.encMag (m * 2 ^ (e - ulpExp (leadExp m e)).toNat) (ulpExp (leadExp m e)) = f32Below m e := by
    rw [hscale] at hk hnorm
    unfold f32Below
    rw [fmtF32_encMag hk.le (ulpExp_ge _) hnorm, hscale]
  rw [FFmt.roundFin_exact fmtF32 hm (q := ulpExp (leadExp m e)) rfl hq (henc.trans_le hfits), henc, hexact.mpr (by rw [hscale])]
  exact ⟨rfl, fmtF32_dec_isReal neg (by omega)⟩

end Sys2Proof.Machine
end

section
/-! Packed arithmetic and conversion (04_numbers.md R98, R100, R103; 14_ref_a_c.md R361 to R363; 16_ref_j_r.md R408, R409; O7). -/

namespace Sys2Proof.Machine

/-! ### Packed instructions (R409) -/

theorem useW_32 (r : BitVec 7) : useW r 32 = use1 r := rfl

/-- What each half of a packed instruction's operands is. -/
theorem bits_half (x i : Nat) : bits x (16 * i + 15) (16 * i) = x / 2 ^ (16 * i) % 2 ^ 16 := by
  unfold bits
  rw [show 16 * i + 15 + 1 - 16 * i = 16 by omega]

/-- The operand registers of a packed instruction. -/
def usesPacked (f : FmtA) (readsC : Bool) : List Use :=
  [use1 f.d, use1 f.a] ++ (if f.immOf.isNone then [use1 f.b] else []) ++ (if readsC then [use1 f.cReg] else [])

/-- The second operand of a packed instruction. -/
def Lot.packedB (l : Lot) (a : Agent) (f : FmtA) : Nat :=
  match f.immOf with
  | some w => w.toNat
  | none => l.val a f.b 32

theorem Lot.reads.packedB {l m : Lot} {a : Agent} {f : FmtA} {readsC : Bool} (h : l.reads m a (usesPacked f readsC)) :
    m.packedB a f = l.packedB a f := by
  unfold Lot.packedB
  cases himm : f.immOf with
  | some w => rfl
  | none => exact h f.b 32 (by simp [usesPacked, useW_32, himm])

/-- One half of a packed result: the operation on the halves of the operands, rounded with the half's own generator step. -/
def Lot.packedHalf (l : Lot) (a : Agent) (f : FmtA) (readsC : Bool) (op : Bool → FVal → FVal → FVal → FVal) (i : Nat) : Nat × Nat :=
  let fm := fmtOf (f.ty .bf16)
  fm.round f.rnd (l.drawn a f.rnd i) (op (f.rnd == 2) (fm.dec (l.val a f.a 32 / 2 ^ (16 * i) % 2 ^ 16))
    (fm.dec (l.packedB a f / 2 ^ (16 * i) % 2 ^ 16)) (fm.dec (l.val a (if readsC then f.cReg else f.d) 32 / 2 ^ (16 * i) % 2 ^ 16)))

theorem State.packed_computes {i : Instr} {f : FmtA} {readsC : Bool} {op : Bool → FVal → FVal → FVal → FVal}
    (hexec : ∀ s, exec i s = s.packed f readsC op) :
    i.computesFloat f.p (usesPacked f readsC) f.d 32 f.rnd (if f.rnd = 4 then 2 else 0) (fun l a =>
      ((l.packedHalf a f readsC op 0).1 + 2 ^ 16 * (l.packedHalf a f readsC op 1).1,
       (l.packedHalf a f readsC op 0).2 ||| (l.packedHalf a f readsC op 1).2)) := by
  refine Instr.computesFloat_of_each (draws := 2) _ (fun s => (hexec s).trans ?_) (by simp [usesPacked, useW_32]) (.inr (.inl rfl))
    (fun l m a hreads hthr => ?_) (fun h => if_pos h)
  · refine congrArg (s.each true _ f.p) (funext fun l => funext fun a => ?_)
    rw [show l.draw a f.rnd = (l.drawn a f.rnd 0, l.afterDraws a f.rnd 1) from Lot.draw_afterDraws l a f.rnd 0]
    dsimp only
    rw [Lot.draw_afterDraws l a f.rnd 1]
    simp only [bits_half]
    rfl
  · have ha : m.val a f.a 32 = l.val a f.a 32 := hreads f.a 32 (by simp [usesPacked, useW_32])
    have hz : m.val a (if readsC then f.cReg else f.d) 32 = l.val a (if readsC then f.cReg else f.d) 32 :=
      hreads _ 32 (by cases readsC <;> simp [usesPacked, useW_32])
    unfold Lot.packedHalf
    simp only [ha, hz, hreads.packedB, Lot.drawn_of_thr hthr]

/-! ### The conversion table (R103, R363) -/

theorem wrapN_wrapN (x n : Nat) : wrapN (wrapN x n) n = wrapN x n := Nat.mod_mod ..

theorem roundAt_int (rnd u : Nat) (neg : Bool) (m : Nat) : roundAt rnd neg m 0 0 u = (m, false) := by
  simp [roundAt, scaleTo, roundsUp]

theorem roundedInt_ofInt (rnd u : Nat) (i : Int) : roundedInt rnd u (decide (i < 0)) i.natAbs 0 = i := by
  unfold roundedInt
  rw [roundAt_int]
  by_cases h : i < 0
  · simp only [h, decide_true, if_true]; omega
  · simp only [h, decide_false, Bool.false_eq_true, if_false]; omega

/-- A conversion to an integer type takes the rounded integer, or the nearest bound of the type. -/
theorem toIntTy_fin (t : Ty) (rnd u : Nat) (neg : Bool) (m : Nat) (e : Int) : toIntTy t rnd u (.fin neg m e) =
    (let k := roundedInt rnd u neg m e
     if k < Ty.least t then (wrapI (Ty.least t) t.bits, flagNV) else if Ty.greatest t < k then (wrapI (Ty.greatest t) t.bits, flagNV)
     else (wrapI k t.bits, if (roundAt rnd neg m e 0 u).2 then flagNX else 0)) := by
  unfold toIntTy FVal.toIntRound roundedInt Ty.least Ty.greatest flagIf
  cases t.signed <;> rfl

theorem toT2_fin (rnd u : Nat) (neg : Bool) (m : Nat) (e : Int) :
    toT2 rnd u (.fin neg m e) = t2Row (roundedInt rnd u neg m e) (roundAt rnd neg m e 0 u).2 := by
  have hcode : ∀ k : Int, t2Code k = if 0 < k then 1 else if k < 0 then 3 else 0 := fun k => by
    unfold t2Code
    split_ifs <;> omega
  unfold toT2 FVal.toIntRound t2Row flagIf
  simp only [hcode, Bool.or_eq_true, decide_eq_true_eq]
  rfl

/-- The bounds of an integer type lie about −1, 0 and 1, but for the least value of an unsigned one. -/
theorem Ty.greatest_pos {t : Ty} (h : Ty.isInt t = true) : 1 ≤ Ty.greatest t ∧ Ty.least t ≤ 0 ∧ (Ty.least t = 0 ∨ Ty.least t ≤ -1) := by
  revert h
  cases t <;> decide

theorem Ty.not_isFloat_of_isInt {t : Ty} (h : Ty.isInt t = true) : ¬ Ty.isFloat t = true := by
  revert h
  cases t <;> decide

theorem Ty.isInt_ne_t2 {t : Ty} (h : Ty.isInt t = true) : t ≠ .t2 := by rintro rfl; cases h

theorem Ty.isFloat_ne_t2 {t : Ty} (h : Ty.isFloat t = true) : t ≠ .t2 := by rintro rfl; cases h

/-! ### CVT by the type of its source -/

theorem cvtVal_float {dst src : Ty} (h : Ty.isFloat src = true) (rnd u x : Nat) : cvtVal dst src rnd u x =
    (let v := (fmtOf src).dec (wrapN x src.bits)
     if dst = src then if v.isNan then ((fmtOf dst).nanEnc, flagIf v.isSig flagNV) else (wrapN x src.bits, 0)
     else if dst = .t2 then toT2 rnd u v
     else if Ty.isFloat dst then (fmtOf dst).round rnd u v else toIntTy dst rnd u v) := by
  have he : src ≠ .e8m0 := by rintro rfl; cases h
  unfold cvtVal
  rw [if_neg he, if_neg (Ty.isFloat_ne_t2 h), if_pos h]

theorem cvtVal_int {dst src : Ty} (h : Ty.isInt src = true) (rnd u x : Nat) : cvtVal dst src rnd u x =
    (let v : Int := if src.signed then sextI (wrapN x src.bits) src.bits else (wrapN x src.bits : Nat)
     if dst = .t2 then toT2 rnd u (FVal.ofInt v) else if Ty.isFloat dst then (fmtOf dst).round rnd u (FVal.ofInt v)
     else (wrapI v dst.bits, 0)) := by
  have he : src ≠ .e8m0 := by rintro rfl; cases h
  unfold cvtVal
  rw [if_neg he, if_neg (Ty.isInt_ne_t2 h), if_neg (Ty.not_isFloat_of_isInt h)]

theorem cvtVal_t2 (dst : Ty) (rnd u x : Nat) : cvtVal dst .t2 rnd u x =
    (let v := t2Val (wrapN x 2)
     if dst = .t2 then (wrapN x 2, v.2)
     else if Ty.isFloat dst then
       (((fmtOf dst).round rnd u (FVal.ofInt v.1)).1, ((fmtOf dst).round rnd u (FVal.ofInt v.1)).2 ||| v.2)
     else ((toIntTy dst rnd u (FVal.ofInt v.1)).1, (toIntTy dst rnd u (FVal.ofInt v.1)).2 ||| v.2)) := rfl

theorem cvtVal_e8m0 (dst : Ty) (rnd u x : Nat) : cvtVal dst .e8m0 rnd u x =
    if wrapN x 8 = 255 then (fmtF32.nanEnc, 0) else fmtF32.roundFin 0 0 false 1 ((wrapN x 8 : Int) - 127) := rfl

/-- The value of a T2 code and its flag, written as the conversion table does (R97). -/
theorem t2Val_wrapN (x : Nat) : t2Val (wrapN x 2) =
    (if wrapN x 2 = 1 then 1 else if wrapN x 2 = 3 then -1 else 0, if wrapN x 2 = 2 then flagTRES else 0) := by
  have hx : wrapN x 2 < 4 := Nat.mod_lt _ (by norm_num)
  interval_cases wrapN x 2 <;> rfl

/-- 1 in a float format: its leading bit alone, at the place that the format gives it. -/
theorem fmtOf_one {t : Ty} (h : Ty.isFloat t = true) : let f := fmtOf t
    max (leadExp 1 0 - f.mb) (1 - f.bias - f.mb) = -(f.mb : Int) ∧ f.encMag (1 * 2 ^ (0 - -(f.mb : Int)).toNat) (-f.mb) ≤ f.maxEnc
      ∧ ∀ neg, f.dec (f.signEnc neg (f.encMag (1 * 2 ^ (0 - -(f.mb : Int)).toNat) (-f.mb))) = .fin neg (2 ^ f.mb) (-f.mb) := by
  revert h
  cases t <;> decide

/-- −1, 0 and 1 are values of every float format: they are exact, with no flag. -/
theorem round_unit {t : Ty} (h : Ty.isFloat t = true) (rnd u : Nat) {v : Int} (hv : v = -1 ∨ v = 0 ∨ v = 1) :
    ((fmtOf t).round rnd u (FVal.ofInt v)).2 = 0 ∧ ((fmtOf t).dec ((fmtOf t).round rnd u (FVal.ofInt v)).1).isReal v := by
  obtain ⟨hq, hfits, hdec⟩ := fmtOf_one h
  have hone : ∀ neg, (fmtOf t).roundFin rnd u neg 1 0 = _ := fun neg => FFmt.roundFin_exact _ Nat.one_ne_zero hq (by omega) hfits rnd u neg
  have hscale : ((2 ^ (fmtOf t).mb : Nat) : ℝ) * 2 ^ (-((fmtOf t).mb : Int)) = 1 := by
    rw [zpow_neg, zpow_natCast]
    push_cast
    exact mul_inv_cancel₀ (by positivity)
  rcases hv with rfl | rfl | rfl
  · change ((fmtOf t).roundFin rnd u true 1 0).2 = 0 ∧ ((fmtOf t).dec ((fmtOf t).roundFin rnd u true 1 0).1).isReal _
    rw [hone, hdec]
    exact ⟨rfl, true, _, _, rfl, by rw [if_pos rfl, mul_assoc, hscale]; norm_num⟩
  · have hzero : (fmtOf t).dec ((fmtOf t).signEnc false 0) = .fin false 0 (1 - (fmtOf t).bias - (fmtOf t).mb) := by
      revert h
      cases t <;> decide
    exact ⟨rfl, false, _, _, hzero, by simp⟩
  · change ((fmtOf t).roundFin rnd u false 1 0).2 = 0 ∧ ((fmtOf t).dec ((fmtOf t).roundFin rnd u false 1 0).1).isReal _
    rw [hone, hdec]
    exact ⟨rfl, false, _, _, rfl, by rw [if_neg Bool.false_ne_true, mul_assoc, hscale]; norm_num⟩

/-! ### The rows of the table -/

/-- E8M0 to F32: the power of two of the code, or the canonical NaN. -/
theorem cvtVal_e8m0_row (dst : Ty) (rnd u x : Nat) :
    (wrapN x 8 = 255 → cvtVal dst .e8m0 rnd u x = (0x7FC00000, 0))
      ∧ (wrapN x 8 < 255 → (cvtVal dst .e8m0 rnd u x).2 = 0
        ∧ (fmtF32.dec (cvtVal dst .e8m0 rnd u x).1).isReal ((2 : ℝ) ^ ((wrapN x 8 : Int) - 127))) := by
  rw [cvtVal_e8m0]
  refine ⟨fun h => if_pos h, fun h => ?_⟩
  rw [if_neg (by omega)]
  have hlead : leadExp 1 ((wrapN x 8 : Int) - 127) = (wrapN x 8 : Int) - 127 := by
    have hlog : Nat.log2 1 = 0 := rfl
    simp [leadExp, flog2, hlog]
  simpa using fmtF32_roundFin_exact Nat.one_ne_zero (by norm_num) (by omega) (by omega) 0 0 false

/-- A float to another float format: its rounded value, or what a NaN or an infinity gives. -/
theorem round_row {t : Ty} (h : Ty.isFloat t = true) (rnd u : Nat) (v : FVal) :
    (∀ sg, v = .nan sg → (fmtOf t).round rnd u v = ((fmtOf t).nanEnc, (if sg then flagNV else 0) ||| (if t = .e2m1 then flagNANS else 0)))
      ∧ (∀ neg, v = .inf neg → (fmtOf t).round rnd u v = if (fmtOf t).elem then ((fmtOf t).signEnc neg (fmtOf t).maxEnc, flagSAT)
          else ((fmtOf t).signEnc neg (fmtOf t).infEnc, 0))
      ∧ ∀ neg m e, v = .fin neg m e → (fmtOf t).round rnd u v = (fmtOf t).roundFin rnd u neg m e := by
  have htop : ((fmtOf t).top == .none) = decide (t = .e2m1) := by
    revert h
    cases t <;> decide
  refine ⟨?_, ?_, ?_⟩
  · rintro sg rfl
    unfold FFmt.round flagIf
    simp only [htop, decide_eq_true_eq]
  · rintro neg rfl
    rfl
  · rintro neg m e rfl
    rfl

/-- A float to an integer type. -/
theorem toIntTy_row (t : Ty) (rnd u : Nat) (v : FVal) :
    (∀ sg, v = .nan sg → toIntTy t rnd u v = (0, flagNV))
      ∧ (∀ neg, v = .inf neg → toIntTy t rnd u v = (wrapI (if neg then Ty.least t else Ty.greatest t) t.bits, flagNV))
      ∧ ∀ neg m e, v = .fin neg m e → toIntTy t rnd u v =
        (let k := roundedInt rnd u neg m e
         if k < Ty.least t then (wrapI (Ty.least t) t.bits, flagNV) else if Ty.greatest t < k then (wrapI (Ty.greatest t) t.bits, flagNV)
         else (wrapI k t.bits, if (roundAt rnd neg m e 0 u).2 then flagNX else 0)) := by
  refine ⟨?_, ?_, ?_⟩
  · rintro sg rfl
    rfl
  · rintro neg rfl
    rfl
  · rintro neg m e rfl
    exact toIntTy_fin t rnd u neg m e

/-- A T2 value to an integer type: −1 is out of the range of an unsigned one. -/
theorem toIntTy_unit {t : Ty} (h : Ty.isInt t = true) (rnd u : Nat) {v : Int} (hv : v = -1 ∨ v = 0 ∨ v = 1) :
    toIntTy t rnd u (FVal.ofInt v) = if v < Ty.least t then (0, flagNV) else (wrapI v t.bits, 0) := by
  obtain ⟨hgreat, hleast, hunsigned⟩ := Ty.greatest_pos h
  refine (toIntTy_fin t rnd u _ _ _).trans ?_
  rw [roundedInt_ofInt, roundAt_int]
  dsimp only
  by_cases hlow : v < Ty.least t
  · rw [if_pos hlow, if_pos hlow, show Ty.least t = 0 by omega]
    simp [wrapI]
  · rw [if_neg hlow, if_neg hlow, if_neg (by omega), if_neg Bool.false_ne_true]

/-- A float to T2. -/
theorem toT2_row (rnd u : Nat) (v : FVal) :
    (∀ sg, v = .nan sg → toT2 rnd u v = (0, flagNANS ||| (if sg then flagNV else 0)))
      ∧ (∀ neg, v = .inf neg → toT2 rnd u v = (if neg then 3 else 1, flagSAT))
      ∧ ∀ neg m e, v = .fin neg m e → toT2 rnd u v = t2Row (roundedInt rnd u neg m e) (roundAt rnd neg m e 0 u).2 := by
  refine ⟨?_, ?_, ?_⟩
  · rintro sg rfl
    rfl
  · rintro neg rfl
    rfl
  · rintro neg m e rfl
    exact toT2_fin rnd u neg m e

theorem toT2_ofInt (rnd u : Nat) (i : Int) : toT2 rnd u (FVal.ofInt i) = t2Row i false := by
  refine (toT2_fin rnd u _ _ _).trans ?_
  rw [roundedInt_ofInt, roundAt_int]

/-- CVT gives the row of the conversion table for its two types. -/
theorem cvtRow_cvtVal (dst src : Ty) (rnd u x : Nat) : cvtRow dst src rnd u (wrapN x src.bits) (cvtVal dst src rnd u x) := by
  have hunit : ∀ y, (if y = 1 then 1 else if y = 3 then -1 else 0 : Int) = -1 ∨ (if y = 1 then 1 else if y = 3 then -1 else 0 : Int) = 0
      ∨ (if y = 1 then 1 else if y = 3 then -1 else 0 : Int) = 1 := fun y => by split_ifs <;> simp
  unfold cvtRow
  refine ⟨?_, fun heq hf => ?_, ?_, fun hne hs hd => ?_, fun hs hd => ?_, fun hs hd => ?_, fun hs hd => ?_, ?_, ?_, ?_, ?_⟩
  · rintro rfl
    exact cvtVal_e8m0_row dst rnd u x
  · rw [cvtVal_float hf]
    exact if_pos heq.symm
  · rintro rfl rfl
    rw [cvtVal_t2, t2Val_wrapN]
    rfl
  · rw [cvtVal_float hs]
    dsimp only
    rw [if_neg hne.symm, if_neg (Ty.isFloat_ne_t2 hd), if_pos hd]
    exact round_row hd rnd u _
  · rw [cvtVal_float hs]
    dsimp only
    rw [if_neg (by rintro rfl; exact Ty.not_isFloat_of_isInt hd hs), if_neg (Ty.isInt_ne_t2 hd), if_neg (Ty.not_isFloat_of_isInt hd)]
    exact toIntTy_row dst rnd u _
  · rw [cvtVal_int hs]
    dsimp only
    rw [if_neg (Ty.isFloat_ne_t2 hd), if_pos hd]
    rfl
  · rw [cvtVal_int hs]
    dsimp only
    rw [if_neg (Ty.isInt_ne_t2 hd), if_neg (Ty.not_isFloat_of_isInt hd)]
  · rintro rfl hd
    rw [cvtVal_t2, t2Val_wrapN]
    dsimp only
    rw [if_neg (Ty.isFloat_ne_t2 hd), if_pos hd]
    obtain ⟨hflag, hreal⟩ := round_unit hd rnd u (hunit (wrapN x 2))
    refine ⟨?_, hreal⟩
    rw [hflag]
    exact Nat.zero_or _
  · rintro rfl hd
    rw [cvtVal_t2, t2Val_wrapN]
    dsimp only
    rw [if_neg (Ty.isInt_ne_t2 hd), if_neg (Ty.not_isFloat_of_isInt hd), toIntTy_unit hd rnd u (hunit (wrapN x 2))]
    change _ = if (if wrapN x 2 = 1 then 1 else if wrapN x 2 = 3 then -1 else 0 : Int) < Ty.least dst then _ else _
    by_cases hlow : (if wrapN x 2 = 1 then 1 else if wrapN x 2 = 3 then -1 else 0 : Int) < Ty.least dst
    · have hthree : wrapN x 2 ≠ 2 := fun e => by
        have := (Ty.greatest_pos hd).2.1
        simp [e] at hlow
        omega
      rw [if_pos hlow, if_pos hlow, if_neg hthree]
      rfl
    · rw [if_neg hlow, if_neg hlow]
      exact Prod.ext rfl (Nat.zero_or _)
  · rintro hs rfl
    rw [cvtVal_float hs]
    dsimp only
    rw [if_neg (Ty.isFloat_ne_t2 hs).symm, if_pos rfl]
    exact toT2_row rnd u _
  · rintro hs rfl
    rw [cvtVal_int hs]
    dsimp only
    rw [if_pos rfl]
    exact toT2_ofInt rnd u _

/-! ### CVT -/

theorem execCvt_gives {s : State} {v : View} {f : FmtCvt} (h : s.runs v f.p true true [useW f.d f.dst.bits, useW f.a f.src.bits]) :
    ∃ l', execCvt f s = .next (s.setLot v.i.core v.i.bctx l') ∧ v.l.Gave l' v.parts f.d f.dst.bits f.dst.signed f.rnd.code.toNat 1
      (fun a => cvtVal f.dst f.src f.rnd.code.toNat (v.l.drawn a f.rnd.code.toNat 0) (v.l.val a f.a f.src.bits)) := by
  obtain ⟨l', heach, hgave⟩ := State.each_gives (signed := f.dst.signed) (rnd := f.rnd.code.toNat) (draws := 1) h List.mem_cons_self
    (Ty.bits_cases _) (fun l a => cvtVal f.dst f.src f.rnd.code.toNat (l.drawn a f.rnd.code.toNat 0) (l.val a f.a f.src.bits))
    (fun m a _ hreads hthr => by rw [hreads f.a _ (by simp), Lot.drawn_of_thr hthr])
  refine ⟨l', Eq.trans (congrArg (s.each true _ f.p) (funext fun l => funext fun a => ?_)) heach, hgave⟩
  dsimp only
  rw [show l.draw a f.rnd.code.toNat = (l.drawn a f.rnd.code.toNat 0, l.afterDraws a f.rnd.code.toNat 1) from Lot.draw_afterDraws l a _ 0]
  rfl

/-- Settles O7: the packed instructions by their halves, CVT by the row of the conversion table for its two types. -/
theorem packedAndConversion : Obligations.PackedAndConversion := by
  unfold Obligations.PackedAndConversion
  refine ⟨fun f => ⟨?_, ?_, ?_, ?_⟩, ?_⟩
  · exact State.packed_computes (readsC := false) (op := fun rd x y _ => FVal.add rd x y) fun _ => rfl
  · exact State.packed_computes (readsC := false) (op := fun _ x y _ => FVal.mul x y) fun _ => rfl
  · exact State.packed_computes (readsC := false) (op := FVal.fma) fun _ => rfl
  · exact State.packed_computes (readsC := true) (op := FVal.fma) fun _ => rfl
  intro f s v h _ rnd
  obtain ⟨l', hexec, hgave⟩ := execCvt_gives h
  exact ⟨_, l', _, hexec, rfl, fun a _ => cvtRow_cvtVal .., hgave.frame, hgave.holds, hgave.others, hgave.flagged.1,
    fun _ => hgave.thr fun _ => rfl, fun _ => rfl⟩

end Sys2Proof.Machine
end

section
/-! The approximate functions' choice of an F32 value (04_numbers.md R108): the order of the encodings, the values nearest to a bound, and the
choice between two bounds. -/

namespace Sys2Proof.Machine

/-! ### Encodings in the order of their values -/

/-- The value of a place in the order of encodings. -/
noncomputable def f32Value (k : Int) : ℝ := if k < 0 then -f32Mag (-1 - k).toNat else f32Mag k.toNat

/-- The places of the finite encodings. -/
def f32Finite (k : Int) : Prop := -1 - 0x7F7FFFFF ≤ k ∧ k ≤ 0x7F7FFFFF

theorem f32Key_signEnc (neg : Bool) {n : Nat} (h : n < 2 ^ 31) :
    f32Key (fmtF32.signEnc neg n) = if neg then -1 - (n : Int) else n := by
  unfold f32Key bit bits FFmt.signEnc fmtF32
  cases neg
  · simp only [Bool.false_eq_true, if_false]
    rw [if_neg (by rw [decide_eq_true_eq]; omega)]
    omega
  · simp only [if_true]
    rw [if_pos (by rw [decide_eq_true_eq]; omega)]
    omega

theorem f32Value_signEnc (neg : Bool) (n : Nat) :
    f32Value (if neg then -1 - (n : Int) else n) = (if neg then -1 else 1) * f32Mag n := by
  unfold f32Value
  cases neg
  · rw [if_neg Bool.false_ne_true, if_neg Bool.false_ne_true, if_neg (by omega), Int.toNat_natCast, one_mul]
  · rw [if_pos rfl, if_pos rfl, if_pos (by omega), show (-1 - (-1 - (n : Int))).toNat = n by omega, neg_one_mul]

/-- The encoding at a place reads as the place's value. -/
theorem f32OfKey_isReal {k : Int} (h : f32Finite k) : (fmtF32.dec (f32OfKey k)).isReal (f32Value k) := by
  obtain ⟨hlo, hhi⟩ := h
  unfold f32OfKey f32Value
  split
  · have hsign : fmtF32.signEnc true (-1 - k).toNat = 2 ^ 31 + (-1 - k).toNat := rfl
    rw [← hsign]
    simpa using fmtF32_dec_isReal true (n := (-1 - k).toNat) (by omega)
  · simpa [FFmt.signEnc] using fmtF32_dec_isReal false (n := k.toNat) (by omega)

theorem f32Value_neg (k : Int) : f32Value (-1 - k) = -f32Value k := by
  unfold f32Value
  by_cases h : k < 0
  · rw [if_neg (by omega), if_pos h, neg_neg]
  · rw [if_pos (by omega), if_neg h, show (-1 - (-1 - k)) = k by omega]

theorem f32Value_nonneg_iff (k : Int) : 0 ≤ f32Value k ↔ -1 ≤ k := by
  unfold f32Value
  split
  · next h =>
    have hzero : f32Mag (-1 - k).toNat ≤ f32Mag 0 ↔ (-1 - k).toNat ≤ 0 := f32Mag_strictMono.le_iff_le
    rw [f32Mag_zero] at hzero
    rw [Left.nonneg_neg_iff, hzero]
    omega
  · next h => exact iff_of_true (f32Mag_nonneg _) (by omega)

/-! ### The nearest values at or above and at or below a bound -/

/-- The magnitude encoding at or above m × 2^e. -/
def f32Above (m : Nat) (e : Int) : Nat := f32Below m e + if (scaleTo m e (ulpExp (leadExp m e))).2.1 = 0 then 0 else 1

theorem f32Mag_le_iff {m : Nat} (hm : m ≠ 0) (e : Int) (n : Nat) : f32Mag n ≤ m * 2 ^ e ↔ n ≤ f32Below m e := by
  obtain ⟨-, hlo, hhi, -⟩ := f32Below_bounds hm e
  exact ⟨fun h => Nat.lt_succ_iff.mp (f32Mag_strictMono.lt_iff_lt.mp (h.trans_lt hhi)),
    fun h => (f32Mag_strictMono.monotone h).trans hlo⟩

theorem le_f32Mag_iff {m : Nat} (hm : m ≠ 0) (e : Int) (n : Nat) : (m : ℝ) * 2 ^ e ≤ f32Mag n ↔ f32Above m e ≤ n := by
  obtain ⟨-, hlo, hhi, -, hexact⟩ := f32Below_bounds hm e
  unfold f32Above
  split
  · next h => rw [hexact.mpr h, f32Mag_strictMono.le_iff_le, Nat.add_zero]
  · next h =>
    have hlt : f32Mag (f32Below m e) < m * 2 ^ e := lt_of_le_of_ne hlo fun e' => h (hexact.mp e'.symm)
    exact ⟨fun hn => f32Mag_strictMono.lt_iff_lt.mp (hlt.trans_le hn), fun hn => hhi.le.trans (f32Mag_strictMono.monotone hn)⟩

/-- A rounding towards +∞ or −∞ as if the exponent range went on: towards zero it cuts, away from zero it takes the next magnitude. -/
theorem f32Rounded_directed (m : Nat) (e : Int) (neg : Bool) :
    f32Rounded 3 0 neg m e = (if neg then f32Below m e else f32Above m e)
      ∧ f32Rounded 2 0 neg m e = if neg then f32Above m e else f32Below m e := by
  unfold f32Rounded f32Above roundsUp
  cases neg <;> by_cases h : (scaleTo m e (ulpExp (leadExp m e))).2.1 = 0 <;> simp [h]

/-- The same with the range of F32: an overflow away from zero is infinite, one towards zero the largest finite value (R100). -/
theorem fmtF32_roundFin_directed {m : Nat} (hm : m ≠ 0) (e : Int) (neg : Bool) :
    (fmtF32.roundFin 3 0 neg m e).1 = fmtF32.signEnc neg (if neg then min (f32Below m e) 0x7F7FFFFF else min (f32Above m e) 0x7F800000)
      ∧ (fmtF32.roundFin 2 0 neg m e).1 = fmtF32.signEnc neg (if neg then min (f32Above m e) 0x7F800000 else min (f32Below m e) 0x7F7FFFFF) := by
  obtain ⟨hup, hdown⟩ := f32Rounded_directed m e neg
  rw [fmtF32_roundFin hm, fmtF32_roundFin hm, hup, hdown]
  cases neg
  · constructor <;> refine congrArg _ ?_ <;> simp only [reduceIte, Bool.false_eq_true] <;> split <;> simp <;> omega
  · constructor <;> refine congrArg _ ?_ <;> simp only [reduceIte] <;> split <;> simp <;> omega

/-- The least finite value at or above a bound, or the infinity past the largest one, by its place. -/
theorem f32Key_ceil (v e : Int) : f32Key (f32Ceil v e) = if v = 0 then (-1 : Int)
    else if v < 0 then -1 - ((min (f32Below v.natAbs e) 0x7F7FFFFF : Nat) : Int) else ((min (f32Above v.natAbs e) 0x7F800000 : Nat) : Int) := by
  unfold f32Ceil
  by_cases h0 : v = 0
  · rw [if_pos h0, if_pos h0]
    decide
  · rw [if_neg h0, if_neg h0, (fmtF32_roundFin_directed (by omega) _ _).1, f32Key_signEnc _ (by split <;> omega)]
    by_cases hneg : v < 0 <;> simp [hneg]

theorem f32Key_floor (v e : Int) : f32Key (f32Floor v e) = -1 - f32Key (f32Ceil (-v) e) := by
  rw [f32Key_ceil]
  unfold f32Floor
  by_cases h0 : v = 0
  · rw [if_pos h0, if_pos (by omega)]
    decide
  · rw [if_neg h0, if_neg (by omega), (fmtF32_roundFin_directed (by omega) _ _).2, f32Key_signEnc _ (by split <;> omega), Int.natAbs_neg]
    by_cases hneg : v < 0
    · rw [if_neg (show ¬ -v < 0 by omega)]
      simp [hneg]
    · rw [if_pos (show -v < 0 by omega)]
      simp [hneg]

/-- A finite place lies at or above the least one not below a bound exactly where its value does. -/
theorem f32Key_ceil_le {v e k : Int} (hk : f32Finite k) : f32Key (f32Ceil v e) ≤ k ↔ (v : ℝ) * 2 ^ e ≤ f32Value k := by
  obtain ⟨hlo, hhi⟩ := hk
  have hpos : (0 : ℝ) < 2 ^ e := by positivity
  rw [f32Key_ceil]
  rcases lt_trichotomy v 0 with hv | rfl | hv
  · have habs : (v : ℝ) = -(v.natAbs : ℝ) := by
      rw [Nat.cast_natAbs, abs_of_neg hv]
      simp
    rw [if_neg hv.ne, if_pos hv, habs]
    by_cases hneg : k < 0
    · have hiff := f32Mag_le_iff (m := v.natAbs) (by omega) e (-1 - k).toNat
      rw [f32Value, if_pos hneg, neg_mul, neg_le_neg_iff, hiff]
      omega
    · have hval : 0 ≤ f32Value k := (f32Value_nonneg_iff k).mpr (by omega)
      exact iff_of_true (by omega) (le_trans (by simp; positivity) hval)
  · rw [if_pos rfl, Int.cast_zero, zero_mul, f32Value_nonneg_iff]
  · have habs : (v : ℝ) = (v.natAbs : ℝ) := by
      rw [Nat.cast_natAbs, abs_of_pos hv]
    rw [if_neg hv.ne', if_neg hv.not_gt, habs]
    have hiff := le_f32Mag_iff (m := v.natAbs) (by omega) e k.toNat
    by_cases hneg : k < 0
    · have hval : f32Value k ≤ 0 := by
        rw [f32Value, if_pos hneg]
        exact neg_nonpos.mpr (f32Mag_nonneg _)
      have hv' : (0 : ℝ) < v.natAbs * 2 ^ e := mul_pos (by exact_mod_cast Int.natAbs_pos.mpr hv.ne') hpos
      exact iff_of_false (by omega) (by linarith)
    · rw [f32Value, if_neg hneg, hiff]
      omega

theorem le_f32Key_floor {v e k : Int} (hk : f32Finite k) : k ≤ f32Key (f32Floor v e) ↔ f32Value k ≤ v * 2 ^ e := by
  have hk' : f32Finite (-1 - k) := by
    unfold f32Finite at *
    omega
  have hiff := f32Key_ceil_le (v := -v) (e := e) hk'
  rw [f32Value_neg, Int.cast_neg, neg_mul, neg_le_neg_iff] at hiff
  rw [f32Key_floor, ← hiff]
  omega

/-- A choice between two bounds with a finite value between them gives a finite value between them (log entry 10). -/
theorem pickF32_between (fn operand : Nat) {lo hi e g : Int} (hg : f32Finite g) (hlo : (lo : ℝ) * 2 ^ e ≤ f32Value g)
    (hhi : f32Value g ≤ hi * 2 ^ e) :
    ∃ y : ℝ, (fmtF32.dec (pickF32 fn operand lo hi e)).isReal y ∧ (lo : ℝ) * 2 ^ e ≤ y ∧ y ≤ hi * 2 ^ e := by
  have hlo' := (f32Key_ceil_le hg).mpr hlo
  have hhi' := (le_f32Key_floor hg).mpr hhi
  have hg' : -1 - 0x7F7FFFFF ≤ g ∧ g ≤ 0x7F7FFFFF := hg
  unfold pickF32
  dsimp only
  generalize ha : max (-1 - 0x7F7FFFFF) (f32Key (f32Ceil lo e)) = a
  generalize hb : min 0x7F7FFFFF (f32Key (f32Floor hi e)) = b
  have hmod := Nat.mod_lt (Config.approxPick fn operand) (Nat.succ_pos (b - a).toNat)
  generalize Config.approxPick fn operand % ((b - a).toNat + 1) = i at hmod ⊢
  have hk : f32Finite (a + i) := by
    unfold f32Finite
    omega
  exact ⟨_, f32OfKey_isReal hk, (f32Key_ceil_le hk).mp (by omega), (le_f32Key_floor hk).mp (by omega)⟩

end Sys2Proof.Machine
end

section
/-! Results within a bound (04_numbers.md R108): what the choice between the ends of an enclosure says of the enclosed value. -/

namespace Sys2Proof.Machine

/-! ### Bounds in units in the last place -/

/-- A result within n units of a value, the unit no larger than that of the value's binade. -/
theorem withinUlp_of_unit {r : Nat} {x t y n : ℝ} {u : Int} (ht : 0 < t) (hx : |x| = t) (hn : 0 ≤ n)
    (hu : ∀ k : Int, t < 2 ^ (k + 1) → u ≤ ulpExp k) (hy : (fmtF32.dec r).isReal y) (hdist : |y - x| ≤ n * 2 ^ u) : withinUlp r x n := by
  have hlog : t < 2 ^ (Int.log 2 t + 1) := Int.lt_zpow_succ_log_self (b := 2) (by norm_num) t
  refine ⟨y, Int.log 2 t, hy, ?_, by rwa [hx], hdist.trans ?_⟩
  · rw [hx]
    exact Int.zpow_log_le_self (b := 2) (by norm_num) ht
  · exact mul_le_mul_of_nonneg_left (zpow_le_zpow_right₀ (by norm_num) (hu _ hlog)) hn

/-- An end of an enclosure less or plus a bound, at the finer of the two places. -/
theorem cast_at_place (a : Nat) {e g : Int} (h : g ≤ e) : ((a * 2 ^ (e - g).toNat : Nat) : ℝ) * 2 ^ g = a * 2 ^ e := by
  rw [zpow_two_eq_natCast h]
  push_cast
  ring

/-- The largest multiple of the unit in an enclosure's lower end lies no further below the upper end than the bound. -/
theorem f32Below_near {n lo hi : Nat} {e : Int} (hlo : lo ≠ 0) (he : e ≤ ulpExp (leadExp lo e))
    (hgap : hi ≤ lo + 1 + (n - 1) * 2 ^ (ulpExp (leadExp lo e) - e).toNat) (hn : n ≠ 0) :
    (hi : ℝ) * 2 ^ e - n * 2 ^ ulpExp (leadExp lo e) ≤ f32Mag (f32Below lo e) := by
  rw [(f32Below_bounds hlo e).1]
  generalize ulpExp (leadExp lo e) = u at *
  have hscale : (scaleTo lo e u).1 = lo / 2 ^ (u - e).toNat := by
    unfold scaleTo
    split
    · simp [show u = e by omega]
    · rfl
  have hdiv := Nat.lt_div_mul_add (Nat.two_pow_pos (u - e).toNat) (a := lo)
  obtain ⟨n, rfl⟩ := Nat.exists_eq_succ_of_ne_zero hn
  have hnat : hi ≤ (lo / 2 ^ (u - e).toNat + (n + 1)) * 2 ^ (u - e).toNat := by
    rw [Nat.succ_sub_one] at hgap
    nlinarith
  have hreal : (hi : ℝ) ≤ ((lo / 2 ^ (u - e).toNat : Nat) + (n + 1)) * (2 ^ (u - e).toNat : Nat) := by exact_mod_cast hnat
  rw [hscale, zpow_two_eq_natCast he]
  have hpos : (0 : ℝ) < 2 ^ e := by positivity
  push_cast at hreal ⊢
  nlinarith

/-- There is a finite magnitude at or below the lower end and no further below the upper one than the bound. -/
theorem exists_f32Mag_near {n lo hi : Nat} {e : Int} (hle : leadExp (max lo 1) e ≤ 127) (he : e ≤ ulpExp (leadExp (max lo 1) e))
    (hgap : hi ≤ lo + 1 + (n - 1) * 2 ^ (ulpExp (leadExp (max lo 1) e) - e).toNat) (hn : n ≠ 0) :
    ∃ k ≤ 0x7F7FFFFF, (hi : ℝ) * 2 ^ e - n * 2 ^ ulpExp (leadExp (max lo 1) e) ≤ f32Mag k ∧ f32Mag k ≤ lo * 2 ^ e := by
  by_cases hlo : lo = 0
  · refine ⟨0, Nat.zero_le _, ?_, by rw [f32Mag_zero]; positivity⟩
    obtain ⟨n, rfl⟩ := Nat.exists_eq_succ_of_ne_zero hn
    have hone := Nat.one_le_two_pow (n := (ulpExp (leadExp (max lo 1) e) - e).toNat)
    have hnat : hi ≤ (n + 1) * 2 ^ (ulpExp (leadExp (max lo 1) e) - e).toNat := by
      rw [Nat.succ_sub_one] at hgap
      rw [Nat.add_mul]
      omega
    have hreal : (hi : ℝ) ≤ (n + 1) * (2 ^ (ulpExp (leadExp (max lo 1) e) - e).toNat : Nat) := by exact_mod_cast hnat
    have hpos : (0 : ℝ) < 2 ^ e := by positivity
    rw [f32Mag_zero, zpow_two_eq_natCast he]
    push_cast at hreal ⊢
    nlinarith
  · rw [Nat.max_eq_left (by omega)] at *
    obtain ⟨-, hbelow, -⟩ := f32Below_bounds hlo e
    exact ⟨_, f32Below_finite hlo hle, f32Below_near hlo he hgap hn, hbelow⟩

/-- The result of an enclosure lies within its bound of whatever value of the enclosure, of either sign (R108). -/
theorem withinUlp_withinUlps (fn operand : Nat) (neg : Bool) {n lo hi : Nat} {e : Int} {t : ℝ} (ht : 0 < t) (hlo : (lo : ℝ) * 2 ^ e ≤ t)
    (hhi : t ≤ hi * 2 ^ e) (hn : n ≠ 0) (hzero : lo = 0 → e ≤ -126) (hle : leadExp (max lo 1) e ≤ 127)
    (he : e ≤ ulpExp (leadExp (max lo 1) e)) (hgap : hi ≤ lo + 1 + (n - 1) * 2 ^ (ulpExp (leadExp (max lo 1) e) - e).toNat) :
    withinUlp (withinUlps fn operand neg n lo hi e) ((if neg then -1 else 1) * t) n := by
  obtain ⟨k, hk, hklo, hkhi⟩ := exists_f32Mag_near hle he hgap hn
  have hunit : ∀ j : Int, t < 2 ^ (j + 1) → ulpExp (leadExp (max lo 1) e) ≤ ulpExp j := fun j hj => by
    by_cases h0 : lo = 0
    · have hlead : leadExp (max lo 1) e = e := by
        rw [h0]
        simp [leadExp, flog2, show Nat.log2 1 = 0 from rfl]
      have := hzero h0
      unfold ulpExp
      omega
    · rw [Nat.max_eq_left (by omega)] at *
      have hlt : (2 : ℝ) ^ leadExp lo e < 2 ^ (j + 1) := ((leadExp_bounds h0 e).1.trans hlo).trans_lt hj
      have := (zpow_lt_zpow_iff_right₀ (by norm_num)).mp hlt
      unfold ulpExp
      omega
  unfold withinUlps
  dsimp only
  generalize ulpExp (leadExp (max lo 1) e) = u at *
  generalize hg : min e (u - 2) = g
  have hl : ((((hi * 2 ^ (e - g).toNat : Nat) : Int) - (n * 2 ^ (u - g).toNat : Nat) : Int) : ℝ) * 2 ^ g = hi * 2 ^ e - n * 2 ^ u := by
    rw [← cast_at_place hi (show g ≤ e by omega), ← cast_at_place n (show g ≤ u by omega)]
    push_cast
    ring
  have hh : ((((lo * 2 ^ (e - g).toNat : Nat) : Int) + (n * 2 ^ (u - g).toNat : Nat) : Int) : ℝ) * 2 ^ g = lo * 2 ^ e + n * 2 ^ u := by
    rw [← cast_at_place lo (show g ≤ e by omega), ← cast_at_place n (show g ≤ u by omega)]
    push_cast
    ring
  have hpos : (0 : ℝ) ≤ n * 2 ^ u := by positivity
  have hfin : f32Finite (if neg then -1 - (k : Int) else k) := by
    unfold f32Finite
    split <;> omega
  have hval := f32Value_signEnc neg k
  cases neg
  · simp only [Bool.false_eq_true, if_false, one_mul] at hfin hval ⊢
    obtain ⟨y, hy, hylo, hyhi⟩ := pickF32_between fn operand hfin (by rw [hl, hval]; exact hklo) (by rw [hh, hval]; linarith)
    refine withinUlp_of_unit ht (abs_of_pos ht) (Nat.cast_nonneg n) hunit hy (abs_le.mpr ?_)
    constructor <;> linarith
  · simp only [if_true, neg_one_mul] at hfin hval ⊢
    obtain ⟨y, hy, hylo, hyhi⟩ := pickF32_between fn operand hfin (by rw [Int.cast_neg, neg_mul, hh, hval]; linarith)
      (by rw [Int.cast_neg, neg_mul, hl, hval]; linarith)
    rw [Int.cast_neg, neg_mul] at hylo hyhi
    refine withinUlp_of_unit ht (by rw [abs_neg, abs_of_pos ht]) (Nat.cast_nonneg n) hunit hy (abs_le.mpr ?_)
    constructor <;> linarith

/-! ### Absolute bounds -/

/-- There is a finite value in an enclosure widened by 2^-22 to either side, where the enclosure is no wider than half of that. -/
theorem exists_f32Value_near {lo : Int} {e : Int} {w : ℝ} (hlo : |(lo : ℝ) * 2 ^ e| < 2) (hw : w ≤ 2 ^ (-23 : Int)) :
    ∃ k, f32Finite k ∧ (lo : ℝ) * 2 ^ e + w - 2 ^ (-22 : Int) ≤ f32Value k ∧ f32Value k ≤ lo * 2 ^ e + 2 ^ (-22 : Int) := by
  have hhalf : (2 : ℝ) ^ (-22 : Int) = 2 * 2 ^ (-23 : Int) := by norm_num
  have hpos : (0 : ℝ) < 2 ^ (-23 : Int) := by positivity
  by_cases h0 : lo = 0
  · have hval : f32Value 0 = 0 := by simp [f32Value]
    refine ⟨0, by unfold f32Finite; omega, ?_⟩
    rw [h0, hval, Int.cast_zero, zero_mul]
    constructor <;> linarith
  · have habs : |(lo : ℝ) * 2 ^ e| = lo.natAbs * 2 ^ e := by
      rw [abs_mul, abs_of_pos (show (0 : ℝ) < 2 ^ e by positivity), Nat.cast_natAbs, Int.cast_abs]
    have hne : lo.natAbs ≠ 0 := Int.natAbs_ne_zero.mpr h0
    obtain ⟨-, hbelow, habove, hstep, -⟩ := f32Below_bounds hne e
    have hlead : leadExp lo.natAbs e < 1 := by
      have hlt : (2 : ℝ) ^ leadExp lo.natAbs e < 2 ^ (1 : Int) := (leadExp_bounds hne e).1.trans_lt (by rw [← habs]; simpa using hlo)
      exact (zpow_lt_zpow_iff_right₀ (by norm_num)).mp hlt
    have hunit : (2 : ℝ) ^ ulpExp (leadExp lo.natAbs e) ≤ 2 ^ (-23 : Int) :=
      zpow_le_zpow_right₀ (by norm_num) (by unfold ulpExp; omega)
    have hfin := f32Below_finite hne (hlead.le.trans (by norm_num))
    have hval := f32Value_signEnc (decide (lo < 0)) (f32Below lo.natAbs e)
    refine ⟨if decide (lo < 0) then -1 - (f32Below lo.natAbs e : Int) else f32Below lo.natAbs e, ?_, ?_⟩
    · unfold f32Finite
      split <;> omega
    · rw [hval]
      by_cases hneg : lo < 0
      · have hreal : (lo : ℝ) * 2 ^ e < 0 := mul_neg_of_neg_of_pos (by exact_mod_cast hneg) (by positivity)
        rw [abs_of_neg hreal] at habs
        simp only [hneg, decide_true, if_true]
        constructor <;> linarith
      · have hreal : (0 : ℝ) ≤ (lo : ℝ) * 2 ^ e := mul_nonneg (by exact_mod_cast not_lt.mp hneg) (by positivity)
        rw [abs_of_nonneg hreal] at habs
        simp only [hneg, decide_false, Bool.false_eq_true, if_false]
        constructor <;> linarith

/-- The result of an enclosure lies within 2^-22 of whatever value of the enclosure (R108). -/
theorem withinAbs22_withinAbs (fn operand : Nat) {lo hi e : Int} {t : ℝ} (hlo : (lo : ℝ) * 2 ^ e ≤ t) (hhi : t ≤ hi * 2 ^ e)
    (hsmall : |(lo : ℝ) * 2 ^ e| < 2) (hw : (hi : ℝ) * 2 ^ e - lo * 2 ^ e ≤ 2 ^ (-23 : Int)) :
    withinAbs22 (withinAbs fn operand lo hi e) t := by
  obtain ⟨k, hk, hklo, hkhi⟩ := exists_f32Value_near hsmall hw
  unfold withinAbs
  dsimp only
  generalize hg : min e (-22) = g
  have hr : ((2 ^ (-22 - g).toNat : Nat) : ℝ) * 2 ^ g = 2 ^ (-22 : Int) := (zpow_two_eq_natCast (by omega)).symm
  have hp : ((2 ^ (e - g).toNat : Nat) : ℝ) * 2 ^ g = 2 ^ e := (zpow_two_eq_natCast (by omega)).symm
  have hl : ((hi * (2 ^ (e - g).toNat : Nat) - (2 ^ (-22 - g).toNat : Nat) : Int) : ℝ) * 2 ^ g = hi * 2 ^ e - 2 ^ (-22 : Int) := by
    rw [← hr, ← hp]
    push_cast
    ring
  have hh : ((lo * (2 ^ (e - g).toNat : Nat) + (2 ^ (-22 - g).toNat : Nat) : Int) : ℝ) * 2 ^ g = lo * 2 ^ e + 2 ^ (-22 : Int) := by
    rw [← hr, ← hp]
    push_cast
    ring
  obtain ⟨y, hy, hylo, hyhi⟩ := pickF32_between fn operand hk (by rw [hl]; linarith) (by rw [hh]; linarith)
  refine ⟨y, hy, abs_le.mpr ?_⟩
  constructor <;> linarith

end Sys2Proof.Machine
end

section
/-! The enclosures of the elementary functions (04_numbers.md R108): the fixed-point sum of exp against the real function. -/

namespace Sys2Proof.Machine

/-! ### Quotients -/

/-- A quotient of integers cut at the unit. -/
theorem cast_div_bounds (a : Nat) {b : Nat} (hb : 0 < b) : ((a / b : Nat) : ℝ) * b ≤ a ∧ (a : ℝ) + 1 ≤ ((a / b : Nat) + 1) * b := by
  constructor
  · exact_mod_cast Nat.div_mul_le_self a b
  · exact_mod_cast Nat.lt_mul_of_div_lt (Nat.lt_succ_self (a / b)) hb

/-! ### exp -/

/-- A term of the fixed-point sum of exp. -/
def expTerm (y : Nat) : Nat → Nat
  | 0 => fpUnit
  | i + 1 => expTerm y i * y / fpUnit / (i + 1)

theorem expFp_eq (y : Nat) : expFp y = ∑ i ∈ Finset.range 31, expTerm y i := by
  have hfold : ∀ n, (List.range n).foldl (fun (acc : Nat × Nat) i =>
      let t := acc.2 * y / fpUnit / (i + 1)
      (acc.1 + t, t)) (fpUnit, fpUnit) = (∑ i ∈ Finset.range (n + 1), expTerm y i, expTerm y n) := by
    intro n
    induction n with
    | zero => simp [expTerm]
    | succ n ih =>
      rw [List.range_succ, List.foldl_append, ih, Finset.sum_range_succ _ (n + 1)]
      rfl
  unfold expFp
  rw [hfold 30]

/-- A term lies below the term of the series by at most 2 units. -/
theorem expTerm_bounds {y : Nat} (hy : y ≤ fpUnit) :
    ∀ i, (expTerm y i : ℝ) ≤ fpUnit * ((y / fpUnit : ℝ) ^ i / i.factorial)
      ∧ fpUnit * ((y / fpUnit : ℝ) ^ i / i.factorial) ≤ expTerm y i + 2
  | 0 => by simp [expTerm]
  | 1 => by
    have hU : (fpUnit : ℝ) ≠ 0 := by norm_num [fpUnit]
    have hterm : expTerm y 1 = y := by simp [expTerm, Nat.mul_div_cancel_left y (show 0 < fpUnit from Nat.two_pow_pos 80)]
    rw [hterm, pow_one, Nat.factorial_one, Nat.cast_one, div_one, mul_div_cancel₀ _ hU]
    constructor <;> linarith
  | i + 2 => by
    obtain ⟨ihlo, ihhi⟩ := expTerm_bounds hy (i + 1)
    have hU : (0 : ℝ) < fpUnit := by norm_num [fpUnit]
    have hz : (y : ℝ) / fpUnit ≤ 1 := (div_le_one hU).mpr (by exact_mod_cast hy)
    have hz0 : (0 : ℝ) ≤ y / fpUnit := by positivity
    obtain ⟨halo, hahi⟩ := cast_div_bounds (expTerm y (i + 1) * y) (b := fpUnit) (Nat.two_pow_pos 80)
    obtain ⟨hclo, hchi⟩ := cast_div_bounds (expTerm y (i + 1) * y / fpUnit) (b := i + 2) (by omega)
    have hterm : fpUnit * ((y / fpUnit : ℝ) ^ (i + 2) / (i + 2).factorial) * (i + 2 : Nat)
        = fpUnit * ((y / fpUnit : ℝ) ^ (i + 1) / (i + 1).factorial) * (y / fpUnit) := by
      rw [Nat.factorial_succ (i + 1), pow_succ _ (i + 1)]
      push_cast
      field_simp
      ring
    have hyU : (y : ℝ) = y / fpUnit * fpUnit := (div_mul_cancel₀ _ hU.ne').symm
    have hn : (2 : ℝ) ≤ (i + 2 : Nat) := by exact_mod_cast (by omega : 2 ≤ i + 2)
    rw [show expTerm y (i + 2) = expTerm y (i + 1) * y / fpUnit / (i + 2) from rfl]
    rw [Nat.cast_mul, hyU] at halo hahi
    generalize fpUnit * ((y / fpUnit : ℝ) ^ (i + 1) / (i + 1).factorial) = r at *
    generalize fpUnit * ((y / fpUnit : ℝ) ^ (i + 2) / (i + 2).factorial) = r' at *
    generalize (y : ℝ) / fpUnit = z at *
    generalize (expTerm y (i + 1) : ℝ) = t at *
    generalize ((expTerm y (i + 1) * y / fpUnit : Nat) : ℝ) = p at *
    generalize ((expTerm y (i + 1) * y / fpUnit / (i + 2) : Nat) : ℝ) = c at *
    generalize ((i + 2 : Nat) : ℝ) = n at *
    have hp : p ≤ t * z := le_of_mul_le_mul_right (by linarith) hU
    have hp' : t * z ≤ p + 1 := le_of_mul_le_mul_right (by nlinarith) hU
    constructor
    · exact le_of_mul_le_mul_right (show c * n ≤ r' * n by nlinarith) (by linarith)
    · exact le_of_mul_le_mul_right (show r' * n ≤ (c + 2) * n by nlinarith) (by linarith)

/-- The fixed-point sum of exp lies below the function, and less than 64 units below. -/
theorem expFp_bounds {y : Nat} (hy : y ≤ fpUnit) :
    (expFp y : ℝ) ≤ fpUnit * Real.exp (y / fpUnit) ∧ fpUnit * Real.exp (y / fpUnit) ≤ expFp y + 64 := by
  have hU : (0 : ℝ) < fpUnit := by norm_num [fpUnit]
  have hz0 : (0 : ℝ) ≤ y / fpUnit := by positivity
  have hz1 : (y / fpUnit : ℝ) ≤ 1 := (div_le_one hU).mpr (by exact_mod_cast hy)
  have hlow := Real.sum_le_exp_of_nonneg hz0 31
  have hhigh := Real.exp_bound' hz0 hz1 (n := 31) (by norm_num)
  have htail : fpUnit * ((y / fpUnit : ℝ) ^ 31 * ((31 : Nat) + 1) / ((31 : Nat).factorial * (31 : Nat))) ≤ 1 := by
    have hpow : (y / fpUnit : ℝ) ^ 31 ≤ 1 := pow_le_one₀ hz0 hz1
    calc fpUnit * ((y / fpUnit : ℝ) ^ 31 * ((31 : Nat) + 1) / ((31 : Nat).factorial * (31 : Nat)))
        ≤ fpUnit * (1 * ((31 : Nat) + 1) / ((31 : Nat).factorial * (31 : Nat))) := by gcongr
      _ ≤ 1 := by norm_num [fpUnit, Nat.factorial]
  have hsum : fpUnit * ∑ i ∈ Finset.range 31, (y / fpUnit : ℝ) ^ i / i.factorial
      = ∑ i ∈ Finset.range 31, fpUnit * ((y / fpUnit : ℝ) ^ i / i.factorial) := Finset.mul_sum ..
  have hle : (∑ i ∈ Finset.range 31, (expTerm y i : ℝ)) ≤ ∑ i ∈ Finset.range 31, fpUnit * ((y / fpUnit : ℝ) ^ i / i.factorial) :=
    Finset.sum_le_sum fun i _ => (expTerm_bounds hy i).1
  have hge : ∑ i ∈ Finset.range 31, fpUnit * ((y / fpUnit : ℝ) ^ i / i.factorial) ≤ (∑ i ∈ Finset.range 31, (expTerm y i : ℝ)) + 62 :=
    (Finset.sum_le_sum fun i _ => (expTerm_bounds hy i).2).trans (by
      rw [Finset.sum_add_distrib, Finset.sum_const, Finset.card_range]
      norm_num)
  rw [expFp_eq, Nat.cast_sum]
  rw [← hsum] at hle hge
  constructor
  · nlinarith
  · nlinarith

/-- ln 2 at 2^-80. -/
theorem ln2Fp_bounds : (ln2Fp : ℝ) ≤ fpUnit * Real.log 2 ∧ fpUnit * Real.log 2 ≤ ln2Fp + 1 := by
  have hU : (0 : ℝ) < fpUnit := by norm_num [fpUnit]
  constructor
  · rw [← div_le_iff₀' hU, Real.le_log_iff_exp_le (by norm_num)]
    refine (Real.exp_bound' (by positivity) (by norm_num [ln2Fp, fpUnit]) (n := 31) (by norm_num)).trans ?_
    norm_num [ln2Fp, fpUnit, Finset.sum_range_succ, Nat.factorial]
  · rw [← le_div_iff₀' hU, Real.log_le_iff_le_exp (by norm_num)]
    refine le_trans ?_ (Real.sum_le_exp_of_nonneg (by positivity) 31)
    norm_num [ln2Fp, fpUnit, Finset.sum_range_succ, Nat.factorial]

end Sys2Proof.Machine
end

section
/-! The enclosure of sin and of π (04_numbers.md R108). -/

namespace Sys2Proof.Machine

/-! ### sin -/

/-- The first n terms of the series of sin. -/
noncomputable def sinSum (n : Nat) (z : ℝ) : ℝ := ∑ i ∈ Finset.range n, (-1) ^ i * (z ^ (2 * i + 1) / (2 * i + 1).factorial)

/-- The terms of the series alternate and fall, so sin lies between its partial sums. -/
theorem sinSum_bounds {z : ℝ} (h0 : 0 ≤ z) (h : z ^ 2 ≤ 6) (k : Nat) : sinSum (2 * k) z ≤ Real.sin z ∧ Real.sin z ≤ sinSum (2 * k + 1) z := by
  have hanti : Antitone fun i : Nat => z ^ (2 * i + 1) / (2 * i + 1).factorial := antitone_nat_of_succ_le fun i => by
    have hfact : ((2 * (i + 1) + 1).factorial : ℝ) = ((2 * i + 3) * (2 * i + 2) : Nat) * (2 * i + 1).factorial := by
      rw [show 2 * (i + 1) + 1 = (2 * i + 2) + 1 by omega, Nat.factorial_succ, show 2 * i + 2 = (2 * i + 1) + 1 by omega, Nat.factorial_succ]
      push_cast
      ring
    have hsix : (6 : ℝ) ≤ ((2 * i + 3) * (2 * i + 2) : Nat) := by exact_mod_cast (by nlinarith : 6 ≤ (2 * i + 3) * (2 * i + 2))
    have hpos : (0 : ℝ) < (2 * i + 1).factorial := by exact_mod_cast Nat.factorial_pos _
    have hz : 0 ≤ z ^ (2 * i + 1) := by positivity
    rw [hfact, div_le_div_iff₀ (by positivity) hpos, show 2 * (i + 1) + 1 = (2 * i + 1) + 2 by omega, pow_add]
    have := mul_le_mul_of_nonneg_left (h.trans hsix) (mul_nonneg hz hpos.le)
    linarith
  have hlim : Filter.Tendsto (fun n => ∑ i ∈ Finset.range n, (-1) ^ i * (z ^ (2 * i + 1) / (2 * i + 1).factorial)) Filter.atTop
      (nhds (Real.sin z)) := by
    simpa only [mul_div_assoc] using (Real.hasSum_sin z).tendsto_sum_nat
  exact ⟨hanti.alternating_series_le_tendsto hlim k, hanti.tendsto_le_alternating_series hlim k⟩

/-- π at 2^-80. -/
theorem piFp_bounds : (piFp : ℝ) ≤ fpUnit * Real.pi ∧ fpUnit * Real.pi ≤ piFp + 1 := by
  have hU : (0 : ℝ) < fpUnit := by norm_num [fpUnit]
  have hpi := Real.pi_gt_three
  have hmono := Real.strictMonoOn_sin
  have hsixth : Real.pi / 6 ∈ Set.Icc (-(Real.pi / 2)) (Real.pi / 2) := ⟨by linarith, by linarith⟩
  constructor
  · by_contra hlt
    have hx : Real.pi / 6 < (piFp : ℝ) / fpUnit / 6 := by
      rw [not_le, ← lt_div_iff₀' hU] at hlt
      linarith
    have hmem : (piFp : ℝ) / fpUnit / 6 ∈ Set.Icc (-(Real.pi / 2)) (Real.pi / 2) := by
      have : (piFp : ℝ) / fpUnit / 6 ≤ 1 := by norm_num [piFp, fpUnit]
      exact ⟨by linarith, by linarith⟩
    have hsin := hmono hsixth hmem hx
    have hsum := (sinSum_bounds (z := (piFp : ℝ) / fpUnit / 6) (by positivity) (by norm_num [piFp, fpUnit]) 7).2
    have hnum : sinSum (2 * 7 + 1) ((piFp : ℝ) / fpUnit / 6) ≤ 1 / 2 := by
      norm_num [sinSum, piFp, fpUnit, Finset.sum_range_succ, Nat.factorial]
    rw [Real.sin_pi_div_six] at hsin
    linarith
  · by_contra hlt
    have hx : ((piFp : ℝ) + 1) / fpUnit / 6 < Real.pi / 6 := by
      rw [not_le, ← div_lt_iff₀' hU] at hlt
      linarith
    have hmem : ((piFp : ℝ) + 1) / fpUnit / 6 ∈ Set.Icc (-(Real.pi / 2)) (Real.pi / 2) := by
      have : (0 : ℝ) ≤ ((piFp : ℝ) + 1) / fpUnit / 6 := by positivity
      exact ⟨by linarith, by linarith⟩
    have hsin := hmono hmem hsixth hx
    have hsum := (sinSum_bounds (z := ((piFp : ℝ) + 1) / fpUnit / 6) (by positivity) (by norm_num [piFp, fpUnit]) 7).1
    have hnum : 1 / 2 ≤ sinSum (2 * 7) (((piFp : ℝ) + 1) / fpUnit / 6) := by
      norm_num [sinSum, piFp, fpUnit, Finset.sum_range_succ, Nat.factorial]
    rw [Real.sin_pi_div_six] at hsin
    linarith

/-- A term of the fixed-point sum of sin. -/
def sinTerm (z : Nat) : Nat → Nat
  | 0 => z
  | i + 1 => sinTerm z i * z / fpUnit * z / fpUnit / ((2 * i + 2) * (2 * i + 3))

theorem sinFp_eq (z : Nat) : sinFp z = (∑ i ∈ Finset.range 21, (-1) ^ i * (sinTerm z i : Int)).toNat := by
  have hfold : ∀ n, (List.range n).foldl (fun (acc : Int × Nat) i =>
      let t := acc.2 * z / fpUnit * z / fpUnit / ((2 * i + 2) * (2 * i + 3))
      ((if i % 2 = 0 then acc.1 - (t : Int) else acc.1 + (t : Int)), t)) ((z : Int), z)
        = (∑ i ∈ Finset.range (n + 1), (-1) ^ i * (sinTerm z i : Int), sinTerm z n) := by
    intro n
    induction n with
    | zero => simp [sinTerm]
    | succ n ih =>
      rw [List.range_succ, List.foldl_append, ih, Finset.sum_range_succ _ (n + 1)]
      refine Prod.ext ?_ rfl
      show (if n % 2 = 0 then _ - (sinTerm z (n + 1) : Int) else _ + (sinTerm z (n + 1) : Int)) = _
      rcases Nat.even_or_odd n with h | h
      · rw [if_pos (Nat.even_iff.mp h), (Even.add_one h).neg_one_pow]
        ring
      · rw [if_neg (by have := Nat.odd_iff.mp h; omega), (Odd.add_one h).neg_one_pow]
        ring
  unfold sinFp
  rw [hfold 20]

/-- A term lies below the term of the series by at most 3 units. -/
theorem sinTerm_bounds {z : Nat} (hz : (z / fpUnit : ℝ) ≤ 8 / 5) (i : Nat) :
    (sinTerm z i : ℝ) ≤ fpUnit * ((z / fpUnit : ℝ) ^ (2 * i + 1) / (2 * i + 1).factorial)
      ∧ fpUnit * ((z / fpUnit : ℝ) ^ (2 * i + 1) / (2 * i + 1).factorial) ≤ sinTerm z i + 3 := by
  have hU : (0 : ℝ) < fpUnit := by norm_num [fpUnit]
  have hz0 : (0 : ℝ) ≤ z / fpUnit := by positivity
  induction i with
  | zero =>
    rw [Nat.mul_zero, zero_add, pow_one, Nat.factorial_one, Nat.cast_one, div_one, mul_div_cancel₀ _ hU.ne']
    exact ⟨le_rfl, le_add_of_nonneg_right (by norm_num)⟩
  | succ i ih =>
    obtain ⟨ihlo, ihhi⟩ := ih
    obtain ⟨halo, hahi⟩ := cast_div_bounds (sinTerm z i * z) (b := fpUnit) (Nat.two_pow_pos 80)
    obtain ⟨hblo, hbhi⟩ := cast_div_bounds (sinTerm z i * z / fpUnit * z) (b := fpUnit) (Nat.two_pow_pos 80)
    obtain ⟨hclo, hchi⟩ := cast_div_bounds (sinTerm z i * z / fpUnit * z / fpUnit) (b := (2 * i + 2) * (2 * i + 3)) (by positivity)
    have hterm : fpUnit * ((z / fpUnit : ℝ) ^ (2 * (i + 1) + 1) / (2 * (i + 1) + 1).factorial) * ((2 * i + 2) * (2 * i + 3) : Nat)
        = fpUnit * ((z / fpUnit : ℝ) ^ (2 * i + 1) / (2 * i + 1).factorial) * (z / fpUnit) ^ 2 := by
      rw [show 2 * (i + 1) + 1 = (2 * i + 1) + 1 + 1 by omega, Nat.factorial_succ, Nat.factorial_succ, pow_succ, pow_succ]
      push_cast
      field_simp
      ring
    have hzU : (z : ℝ) = z / fpUnit * fpUnit := (div_mul_cancel₀ _ hU.ne').symm
    have hn : (6 : ℝ) ≤ ((2 * i + 2) * (2 * i + 3) : Nat) := by exact_mod_cast (by nlinarith : 6 ≤ (2 * i + 2) * (2 * i + 3))
    rw [show sinTerm z (i + 1) = sinTerm z i * z / fpUnit * z / fpUnit / ((2 * i + 2) * (2 * i + 3)) from rfl]
    rw [Nat.cast_mul, hzU] at halo hahi hblo hbhi
    generalize fpUnit * ((z / fpUnit : ℝ) ^ (2 * i + 1) / (2 * i + 1).factorial) = r at *
    generalize fpUnit * ((z / fpUnit : ℝ) ^ (2 * (i + 1) + 1) / (2 * (i + 1) + 1).factorial) = r' at *
    generalize (z : ℝ) / fpUnit = x at *
    generalize ((sinTerm z i * z / fpUnit * z / fpUnit / ((2 * i + 2) * (2 * i + 3)) : Nat) : ℝ) = c at *
    generalize ((sinTerm z i * z / fpUnit * z / fpUnit : Nat) : ℝ) = b at *
    generalize ((sinTerm z i * z / fpUnit : Nat) : ℝ) = a at *
    generalize (sinTerm z i : ℝ) = t at *
    generalize (((2 * i + 2) * (2 * i + 3) : Nat) : ℝ) = n at *
    have ha : a ≤ t * x := le_of_mul_le_mul_right (by linarith) hU
    have ha' : t * x ≤ a + 1 := le_of_mul_le_mul_right (by linarith) hU
    have hb : b ≤ a * x := le_of_mul_le_mul_right (by linarith) hU
    have hb' : a * x ≤ b + 1 := le_of_mul_le_mul_right (by linarith) hU
    have hlow := mul_le_mul_of_nonneg_right ha hz0
    have hhigh := mul_le_mul_of_nonneg_right ha' hz0
    have hr := mul_le_mul_of_nonneg_right ihlo (sq_nonneg x)
    have hr' := mul_le_mul_of_nonneg_right ihhi (sq_nonneg x)
    have hsq : x ^ 2 ≤ (8 / 5) ^ 2 := pow_le_pow_left₀ hz0 hz 2
    constructor
    · exact le_of_mul_le_mul_right (show c * n ≤ r' * n by nlinarith) (by linarith)
    · exact le_of_mul_le_mul_right (show r' * n ≤ (c + 3) * n by nlinarith) (by linarith)

/-- The fixed-point sum of sin lies within 64 units of the function up to 8/5, where it is not negative. -/
theorem sinFp_bounds {z : Nat} (hz : (z / fpUnit : ℝ) ≤ 8 / 5) : |(sinFp z : ℝ) - fpUnit * Real.sin (z / fpUnit)| ≤ 64 := by
  have hU : (0 : ℝ) < fpUnit := by norm_num [fpUnit]
  have hz0 : (0 : ℝ) ≤ z / fpUnit := by positivity
  have hsq : (z / fpUnit : ℝ) ^ 2 ≤ 6 := (pow_le_pow_left₀ hz0 hz 2).trans (by norm_num)
  obtain ⟨hlow, -⟩ := sinSum_bounds hz0 hsq 10
  obtain ⟨-, hhigh⟩ := sinSum_bounds hz0 hsq 10
  have hstep : sinSum 21 (z / fpUnit) = sinSum 20 (z / fpUnit) + (z / fpUnit) ^ 41 / (41 : Nat).factorial := by
    unfold sinSum
    rw [Finset.sum_range_succ _ 20]
    norm_num
  have htail : fpUnit * ((z / fpUnit : ℝ) ^ 41 / (41 : Nat).factorial) ≤ 1 := by
    calc fpUnit * ((z / fpUnit : ℝ) ^ 41 / (41 : Nat).factorial) ≤ fpUnit * ((8 / 5) ^ 41 / (41 : Nat).factorial) := by gcongr
      _ ≤ 1 := by norm_num [fpUnit, Nat.factorial]
  have hsum : |(((∑ i ∈ Finset.range 21, (-1) ^ i * (sinTerm z i : Int) : Int)) : ℝ) - fpUnit * sinSum 21 (z / fpUnit)| ≤ 63 := by
    push_cast
    rw [sinSum, Finset.mul_sum, ← Finset.sum_sub_distrib]
    refine (Finset.abs_sum_le_sum_abs _ _).trans ((Finset.sum_le_card_nsmul _ _ 3 fun i _ => ?_).trans (by norm_num))
    obtain ⟨hlo, hhi⟩ := sinTerm_bounds hz i
    rw [mul_left_comm, ← mul_sub, abs_mul, abs_neg_one_pow, one_mul, abs_le]
    constructor <;> linarith
  have hsin : 0 ≤ Real.sin (z / fpUnit) := Real.sin_nonneg_of_nonneg_of_le_pi hz0 (hz.trans (by linarith [Real.pi_gt_three]))
  rw [sinFp_eq]
  generalize (∑ i ∈ Finset.range 21, (-1) ^ i * (sinTerm z i : Int) : Int) = p at hsum ⊢
  have hpos : (0 : ℝ) ≤ fpUnit * Real.sin (z / fpUnit) := by positivity
  have hclose : |(p : ℝ) - fpUnit * Real.sin (z / fpUnit)| ≤ 64 := by
    rw [abs_le] at hsum ⊢
    rw [hstep] at hsum hhigh
    constructor <;> nlinarith
  by_cases hp : 0 ≤ p
  · rwa [show ((p.toNat : Nat) : ℝ) = p by exact_mod_cast Int.toNat_of_nonneg hp]
  · rw [Int.toNat_of_nonpos (by omega), Nat.cast_zero]
    have hneg : (p : ℝ) ≤ 0 := by exact_mod_cast (not_le.mp hp).le
    rw [abs_le] at hclose ⊢
    constructor <;> linarith

end Sys2Proof.Machine
end

section
/-! The enclosure of log₂ (04_numbers.md R108). -/

namespace Sys2Proof.Machine

/-! ### log₂ -/

/-- Cutting a number of 2^160 or more at the unit, or at two units, changes its logarithm by less than 2^-158. -/
theorem logb_cut {x : ℝ} {q : Nat} (hq : 2 ^ 160 ≤ q) (hlo : (q : ℝ) ≤ x) (hhi : x ≤ q + 2) :
    Real.logb 2 (q / 2 ^ 160) ≤ Real.logb 2 (x / 2 ^ 160) ∧ Real.logb 2 (x / 2 ^ 160) ≤ Real.logb 2 (q / 2 ^ 160) + 2 ^ (-158 : Int) := by
  have hq' : (2 : ℝ) ^ 160 ≤ q := by exact_mod_cast hq
  have hqpos : (0 : ℝ) < q := lt_of_lt_of_le (by norm_num) hq'
  have hxpos : 0 < x := hqpos.trans_le hlo
  refine ⟨Real.logb_le_logb_of_le (by norm_num) (by positivity) (by gcongr), ?_⟩
  have hratio : x / 2 ^ 160 = q / 2 ^ 160 * (x / q) := by field_simp
  have hlog : Real.log (x / q) ≤ 2 ^ (-159 : Int) := by
    refine (Real.log_le_sub_one_of_pos (by positivity)).trans ?_
    rw [div_sub_one hqpos.ne', div_le_iff₀ hqpos]
    have : (2 : ℝ) ^ (-159 : Int) * 2 ^ 160 ≤ 2 ^ (-159 : Int) * q := by gcongr
    norm_num at this ⊢
    linarith
  have hln : (1 / 2 : ℝ) ≤ Real.log 2 := by linarith [Real.log_two_gt_d9]
  rw [hratio, Real.logb_mul (by positivity) (by positivity), add_le_add_iff_left, Real.logb, div_le_iff₀ (by linarith)]
  refine hlog.trans ?_
  calc (2 : ℝ) ^ (-159 : Int) = 2 ^ (-158 : Int) * (1 / 2) := by norm_num
    _ ≤ 2 ^ (-158 : Int) * Real.log 2 := by gcongr

/-- The bits of the repeated squaring lie below the logarithm by at most one unit and what the squarings have cut. -/
theorem log2Bits_bounds (n : Nat) : ∀ m : Nat, 2 ^ 160 ≤ m → m < 2 ^ 161 →
    (log2Bits m n : ℝ) ≤ Real.logb 2 (m / 2 ^ 160) * 2 ^ n
      ∧ Real.logb 2 (m / 2 ^ 160) * 2 ^ n ≤ log2Bits m n + 1 + (2 ^ n - 1) * 2 ^ (-158 : Int) := by
  induction n with
  | zero =>
    intro m hlo hhi
    have hm1 : (1 : ℝ) ≤ m / 2 ^ 160 := by
      rw [le_div_iff₀ (by norm_num)]
      exact_mod_cast (by omega : 1 * 2 ^ 160 ≤ m)
    have hm2 : (m : ℝ) / 2 ^ 160 ≤ 2 := by
      rw [div_le_iff₀ (by norm_num)]
      exact_mod_cast (by omega : m ≤ 2 * 2 ^ 160)
    have h0 : 0 ≤ Real.logb 2 (m / 2 ^ 160) := Real.logb_nonneg (by norm_num) hm1
    have h1 : Real.logb 2 (m / 2 ^ 160) ≤ 1 := by
      rw [Real.logb_le_iff_le_rpow (by norm_num) (by linarith), Real.rpow_one]
      exact hm2
    simp only [log2Bits, pow_zero, mul_one, Nat.cast_zero]
    exact ⟨h0, by linarith⟩
  | succ n ih =>
    intro m hlo hhi
    have hsquare : Real.logb 2 ((m * m : Nat) / 2 ^ 160 / 2 ^ 160) = 2 * Real.logb 2 (m / 2 ^ 160) := by
      have hm : (m : ℝ) ≠ 0 := by exact_mod_cast (by omega : m ≠ 0)
      rw [two_mul, ← Real.logb_mul (by positivity) (by positivity)]
      congr 1
      push_cast
      ring
    obtain ⟨hqlo, hqhi⟩ := cast_div_bounds (m * m) (b := 2 ^ 160) (by norm_num)
    have hq1 : 2 ^ 160 ≤ m * m / 2 ^ 160 := (Nat.le_div_iff_mul_le (by norm_num)).mpr (Nat.mul_le_mul hlo hlo)
    have hq2 : m * m / 2 ^ 160 < 2 ^ 162 := (Nat.div_lt_iff_lt_mul (by norm_num)).mpr (by nlinarith)
    unfold log2Bits
    dsimp only
    generalize m * m / 2 ^ 160 = q at *
    generalize hx : ((m * m : Nat) : ℝ) / 2 ^ 160 = x at *
    have hxlo : (q : ℝ) ≤ x := by
      rw [← hx, le_div_iff₀ (by norm_num)]
      exact_mod_cast hqlo
    have hxhi : x ≤ q + 1 := by
      rw [← hx, div_le_iff₀ (by norm_num)]
      push_cast at hqhi ⊢
      linarith
    have hpow : (0 : ℝ) < 2 ^ n := by positivity
    have hdouble : Real.logb 2 (m / 2 ^ 160) * 2 ^ (n + 1) = Real.logb 2 (x / 2 ^ 160) * 2 ^ n := by
      rw [hsquare, pow_succ]
      ring
    rw [hdouble, pow_succ 2 n]
    split
    · have hhalf : Real.logb 2 (x / 2 ^ 160) = Real.logb 2 (x / 2 / 2 ^ 160) + 1 := by
        have hxpos : 0 < x := lt_of_lt_of_le (by exact_mod_cast (by omega : 0 < q)) hxlo
        rw [div_right_comm x 2, Real.logb_div (x := x / 2 ^ 160) (by positivity) (by norm_num), Real.logb_self_eq_one (by norm_num)]
        ring
      have heven : ((q / 2 : Nat) : ℝ) * 2 ≤ q ∧ (q : ℝ) ≤ (q / 2 : Nat) * 2 + 1 :=
        ⟨by exact_mod_cast (by omega : q / 2 * 2 ≤ q), by exact_mod_cast (by omega : q ≤ q / 2 * 2 + 1)⟩
      obtain ⟨hcutlo, hcuthi⟩ := logb_cut (x := x / 2) (q := q / 2) (by omega) (by linarith) (by linarith)
      obtain ⟨ihlo, ihhi⟩ := ih (q / 2) (by omega) (by omega)
      have hlow := mul_le_mul_of_nonneg_right hcutlo hpow.le
      have hhigh := mul_le_mul_of_nonneg_right hcuthi hpow.le
      rw [hhalf]
      push_cast
      constructor <;> linarith
    · obtain ⟨hcutlo, hcuthi⟩ := logb_cut (x := x) (q := q) hq1 hxlo (by linarith)
      obtain ⟨ihlo, ihhi⟩ := ih q hq1 (by omega)
      have hlow := mul_le_mul_of_nonneg_right hcutlo hpow.le
      have hhigh := mul_le_mul_of_nonneg_right hcuthi hpow.le
      constructor <;> linarith

/-- 72 bits of the logarithm: the true value lies less than 2 units above. -/
theorem log2Bits_72 {m : Nat} (hlo : 2 ^ 160 ≤ m) (hhi : m < 2 ^ 161) :
    (log2Bits m 72 : ℝ) ≤ Real.logb 2 (m / 2 ^ 160) * 2 ^ 72 ∧ Real.logb 2 (m / 2 ^ 160) * 2 ^ 72 ≤ log2Bits m 72 + 2 := by
  obtain ⟨h1, h2⟩ := log2Bits_bounds 72 m hlo hhi
  refine ⟨h1, h2.trans ?_⟩
  have : ((2 : ℝ) ^ 72 - 1) * 2 ^ (-158 : Int) ≤ 1 := by norm_num
  linarith

end Sys2Proof.Machine
end

section
/-! FRCP and FRSQ (04_numbers.md R108; 15_ref_d_i.md R375, R376), and the special results of the approximate functions. -/

namespace Sys2Proof.Machine

/-! ### Operands -/

/-- Every F32 encoding is a sign and a magnitude. -/
theorem exists_signEnc {x : Nat} (hx : x < 2 ^ 32) :
    ∃ neg n, n < 2 ^ 31 ∧ x = fmtF32.signEnc neg n ∧ x / 2 ^ 31 * 2 ^ 31 = fmtF32.signEnc neg 0 := by
  by_cases h : x < 2 ^ 31
  · exact ⟨false, x, h, (Nat.zero_add x).symm, by rw [Nat.div_eq_of_lt h]; rfl⟩
  · exact ⟨true, x - 2 ^ 31, by omega, (Nat.add_sub_cancel' (not_lt.mp h)).symm, by rw [show x / 2 ^ 31 = 1 by omega]; rfl⟩

/-- The sign bit of an infinity. -/
theorem fmtF32_sign_of_inf {x : Nat} (hx : x < 2 ^ 32) {neg : Bool} (h : fmtF32.dec x = .inf neg) :
    x / 2 ^ 31 * 2 ^ 31 = fmtF32.signEnc neg 0 := by
  obtain ⟨s, n, hn, rfl, hsign⟩ := exists_signEnc hx
  rw [fmtF32_dec s hn] at h
  split at h
  · split at h <;> cases h
    exact hsign
  · split at h <;> cases h

/-- A finite operand other than zero: its sign, its mantissa and its place. -/
theorem fmtF32_operand {x : Nat} (hx : x < 2 ^ 32) {a : ℝ} (ha : a ≠ 0) (h : (fmtF32.dec x).isReal a) :
    ∃ neg m e, fmtF32.dec x = .fin neg m e ∧ x / 2 ^ 31 * 2 ^ 31 = fmtF32.signEnc neg 0 ∧ m ≠ 0 ∧ m < 2 ^ 24 ∧ -149 ≤ e ∧ e ≤ 104
      ∧ a = (if neg then -1 else 1) * (m * 2 ^ e) := by
  obtain ⟨neg, m, e, hdec, hval⟩ := h
  have hm : m ≠ 0 := by
    rintro rfl
    simp at hval
    exact ha hval
  refine ⟨neg, m, e, hdec, ?_⟩
  obtain ⟨s, n, hn, rfl, hsign⟩ := exists_signEnc hx
  rw [fmtF32_dec s hn] at hdec
  rw [mul_assoc] at hval
  split at hdec
  · split at hdec <;> cases hdec
  · split at hdec <;> cases hdec
    · exact ⟨hsign, hm, by omega, by omega, by omega, hval⟩
    · exact ⟨hsign, hm, by omega, by omega, by omega, hval⟩

/-! ### Special operands -/

/-- A NaN gives the canonical NaN, NV if it is signalling. -/
theorem approx_nan {x : Nat} {sg : Bool} (h : fmtF32.dec x = .nan sg) :
    ∀ g ∈ [frcpVal, frsqVal, fexp2Val, flog2Val, fsinpVal], g x = (0x7FC00000, if sg then flagNV else 0) := by
  simp only [List.forall_mem_cons, List.not_mem_nil, false_imp_iff, implies_true, and_true]
  refine ⟨?_, ?_, ?_, ?_, ?_⟩
  · unfold frcpVal; rw [h]; rfl
  · unfold frsqVal; rw [h]; rfl
  · unfold fexp2Val; rw [h]; rfl
  · unfold flog2Val; rw [h]; rfl
  · unfold fsinpVal; rw [h]; rfl

theorem approx_inf {x : Nat} (hx : x < 2 ^ 32) {neg : Bool} (h : fmtF32.dec x = .inf neg) :
    frcpVal x = (x / 2 ^ 31 * 2 ^ 31, 0) ∧ frsqVal x = (if neg then (0x7FC00000, flagNV) else (0, 0))
      ∧ fexp2Val x = (if neg then 0 else 0x7F800000, 0) ∧ flog2Val x = (if neg then (0x7FC00000, flagNV) else (0x7F800000, 0))
      ∧ fsinpVal x = (0x7FC00000, flagNV) := by
  rw [fmtF32_sign_of_inf hx h]
  refine ⟨?_, ?_, ?_, ?_, ?_⟩
  · unfold frcpVal; rw [h]
  · unfold frsqVal; rw [h]; rfl
  · unfold fexp2Val; rw [h]; rfl
  · unfold flog2Val; rw [h]; rfl
  · unfold fsinpVal; rw [h]; rfl

theorem approx_zero {x : Nat} (hx : x < 2 ^ 32) (h : x % 2 ^ 31 = 0) :
    frcpVal x = (x / 2 ^ 31 * 2 ^ 31 + 0x7F800000, flagDZ) ∧ frsqVal x = (x / 2 ^ 31 * 2 ^ 31 + 0x7F800000, flagDZ)
      ∧ fexp2Val x = (0x3F800000, 0) ∧ flog2Val x = (0xFF800000, flagDZ) ∧ fsinpVal x = (x, 0) := by
  have hcases : x = 0 ∨ x = 2 ^ 31 := by omega
  rcases hcases with rfl | rfl
  · decide
  · decide

/-! ### The place of an enclosure -/

/-- An enclosure of 24 or more bits is finer than the unit of its value. -/
theorem le_ulpExp {lo : Nat} (h : 2 ^ 23 ≤ lo) (e : Int) : e ≤ ulpExp (leadExp (max lo 1) e) := by
  have hlog : 23 ≤ Nat.log2 lo := (Nat.le_log2 (by omega)).mpr h
  rw [Nat.max_eq_left (by omega)]
  unfold ulpExp leadExp flog2
  omega

theorem leadExp_le_of_lt {m : Nat} (hm : m ≠ 0) {e k : Int} (h : (m : ℝ) * 2 ^ e < 2 ^ (k + 1)) : leadExp m e ≤ k := by
  have hlt : (2 : ℝ) ^ leadExp m e < 2 ^ (k + 1) := (leadExp_bounds hm e).1.trans_lt h
  exact Int.lt_add_one_iff.mp ((zpow_lt_zpow_iff_right₀ (by norm_num)).mp hlt)

/-- A result within n units of a value enclosed to 24 or more bits and at most one step wide (R108). -/
theorem withinUlp_of_fine (fn operand : Nat) (neg : Bool) {n lo hi : Nat} {e : Int} {t : ℝ} (hlo : (lo : ℝ) * 2 ^ e ≤ t)
    (hhi : t ≤ hi * 2 ^ e) (hn : n ≠ 0) (hbits : 2 ^ 23 ≤ lo) (ht : t < 2 ^ (128 : Int))
    (hgap : hi ≤ lo + 1 + (n - 1) * 2 ^ (ulpExp (leadExp (max lo 1) e) - e).toNat) :
    withinUlp (withinUlps fn operand neg n lo hi e) ((if neg then -1 else 1) * t) n := by
  have hpos : (0 : ℝ) < lo * 2 ^ e := mul_pos (by exact_mod_cast (by omega : 0 < lo)) (by positivity)
  have hle : leadExp (max lo 1) e ≤ 127 := by
    rw [Nat.max_eq_left (by omega)]
    exact leadExp_le_of_lt (by omega) (hlo.trans_lt ht)
  exact withinUlp_withinUlps fn operand neg (hpos.trans_le hlo) hlo hhi hn (by omega) hle (le_ulpExp hbits e) hgap

/-! ### FRCP -/

/-- The magnitude of an operand in units of the smallest subnormal. -/
theorem operand_units (m : Nat) {e : Int} (he : -149 ≤ e) :
    (m : ℝ) * 2 ^ e = (m * 2 ^ (e + 149).toNat : Nat) * 2 ^ (-149 : Int) := by
  rw [zpow_two_eq_natCast he, show (e - -149).toNat = (e + 149).toNat by omega]
  push_cast
  ring

theorem operand_le_iff (m : Nat) {e : Int} (he : -149 ≤ e) (k : Nat) :
    (m : ℝ) * 2 ^ e ≤ 2 ^ ((k : Int) - 149) ↔ m * 2 ^ (e + 149).toNat ≤ 2 ^ k := by
  rw [operand_units m he, sub_eq_add_neg, zpow_add₀ (by norm_num), zpow_natCast, mul_le_mul_iff_left₀ (by positivity)]
  exact_mod_cast Iff.rfl

section
variable {x m : Nat} {neg : Bool} {e : Int} (hdec : fmtF32.dec x = .fin neg m e) (hm : m ≠ 0) (he : -149 ≤ e)
include hdec hm he

theorem frcpVal_mid (hbits : m < 2 ^ 24) (hlo : (2 : ℝ) ^ (-128 : Int) < m * 2 ^ e) (hhi : (m : ℝ) * 2 ^ e ≤ 2 ^ (126 : Int)) :
    (frcpVal x).2 = 0 ∧ withinUlp (frcpVal x).1 ((if neg then -1 else 1) * (1 / (m * 2 ^ e))) 1 := by
  have h1 : ¬ 2 ^ 275 < m * 2 ^ (e + 149).toNat := not_lt.mpr ((operand_le_iff m he 275).mp hhi)
  have h2 : ¬ m * 2 ^ (e + 149).toNat ≤ 2 ^ 21 := mt (operand_le_iff m he 21).mpr (not_le.mpr hlo)
  have hmpos : (0 : ℝ) < m := by exact_mod_cast Nat.pos_of_ne_zero hm
  have hinv : (1 : ℝ) / (m * 2 ^ e) = (2 ^ 100 : Nat) / m * 2 ^ (-100 - e) := by
    rw [zpow_sub₀ (by norm_num), zpow_neg]
    push_cast
    field_simp
    norm_num
  obtain ⟨hvlo, hvhi⟩ := cast_div_bounds (2 ^ 100) (Nat.pos_of_ne_zero hm)
  have hv : ((2 ^ 100 / m : Nat) : ℝ) ≤ (2 ^ 100 : Nat) / m := (le_div_iff₀ hmpos).mpr hvlo
  have hv' : ((2 ^ 100 : Nat) : ℝ) / m ≤ (if 2 ^ 100 % m = 0 then 2 ^ 100 / m else 2 ^ 100 / m + 1 : Nat) := by
    rw [div_le_iff₀ hmpos]
    split
    · next h => exact_mod_cast (Nat.div_mul_cancel (Nat.dvd_of_mod_eq_zero h)).ge
    · push_cast at hvhi ⊢
      linarith
  have hfine : 2 ^ 23 ≤ 2 ^ 100 / m := (Nat.le_div_iff_mul_le (Nat.pos_of_ne_zero hm)).mpr (by omega)
  have hfin : (1 : ℝ) / (m * 2 ^ e) < 2 ^ (128 : Int) := by
    rw [div_lt_iff₀ (by positivity)]
    have := mul_lt_mul_of_pos_left hlo (show (0 : ℝ) < 2 ^ (128 : Int) by positivity)
    norm_num at this ⊢
    linarith
  unfold frcpVal
  rw [hdec]
  simp only [hm, h1, h2, if_false]
  refine ⟨trivial, ?_⟩
  have := withinUlp_of_fine 0 x neg (n := 1) (t := 1 / (m * 2 ^ e)) (by rw [hinv]; gcongr) (by rw [hinv]; gcongr)
    one_ne_zero hfine hfin (by split <;> omega)
  simpa using this

/-- FRCP of a magnitude above 2^126: a zero, or a subnormal number of units next to 1 / x (R108). -/
theorem frcpVal_tiny (he' : e ≤ 104) (hlo : (2 : ℝ) ^ (126 : Int) < m * 2 ^ e) :
    (frcpVal x).2 = 0 ∧ ((frcpVal x).1 = fmtF32.signEnc neg 0 ∨ ((frcpVal x).1 % 2 ^ 31 < 2 ^ 23
      ∧ withinUlp (frcpVal x).1 ((if neg then -1 else 1) * (1 / (m * 2 ^ e))) 1)) := by
  have h1 : 2 ^ 275 < m * 2 ^ (e + 149).toNat := not_le.mp (mt (operand_le_iff m he 275).mpr (not_le.mpr hlo))
  have hmpos : (0 : ℝ) < m := by exact_mod_cast Nat.pos_of_ne_zero hm
  have hpos : (0 : ℝ) < 1 / (m * 2 ^ e) := by positivity
  have hunits : (1 : ℝ) / (m * 2 ^ e) = (2 ^ (149 - e).toNat : Nat) / m * 2 ^ (-149 : Int) := by
    have hpow : ((2 ^ (149 - e).toNat : Nat) : ℝ) * 2 ^ (-149 : Int) = 2 ^ (-e) := by
      rw [zpow_two_eq_natCast (a := -e) (b := -149) (by omega), show (-e - -149).toNat = (149 - e).toNat by omega]
    rw [div_mul_eq_mul_div, hpow, zpow_neg]
    field_simp
  obtain ⟨hqlo, hqhi⟩ := cast_div_bounds (2 ^ (149 - e).toNat) (Nat.pos_of_ne_zero hm)
  have hqlo' : ((2 ^ (149 - e).toNat / m : Nat) : ℝ) ≤ (2 ^ (149 - e).toNat : Nat) / m := (le_div_iff₀ hmpos).mpr hqlo
  have hqhi' : ((2 ^ (149 - e).toNat : Nat) : ℝ) / m ≤ (2 ^ (149 - e).toNat / m : Nat) + 1 := by
    rw [div_le_iff₀ hmpos]
    linarith
  unfold frcpVal
  rw [hdec]
  simp only [hm, h1, if_false, if_true]
  refine ⟨trivial, ?_⟩
  have hfew : 2 ^ (149 - e).toNat / m < 2 ^ 23 := by
    have hlt : (2 ^ (149 - e).toNat : Nat) / (m : ℝ) * 2 ^ (-149 : Int) < 2 ^ 23 * 2 ^ (-149 : Int) := by
      rw [← hunits, div_lt_iff₀ (by positivity)]
      have := mul_lt_mul_of_pos_left hlo (show (0 : ℝ) < 2 ^ (-126 : Int) by positivity)
      norm_num at this ⊢
      linarith
    exact_mod_cast hqlo'.trans_lt (lt_of_mul_lt_mul_right hlt (by positivity))
  have hexact : 2 ^ (149 - e).toNat % m = 0 → ((2 ^ (149 - e).toNat : Nat) : ℝ) / m = (2 ^ (149 - e).toNat / m : Nat) := fun h => by
    rw [div_eq_iff hmpos.ne']
    exact_mod_cast (Nat.div_mul_cancel (Nat.dvd_of_mod_eq_zero h)).symm
  unfold frcpTiny
  dsimp only
  generalize hlo' : (if 2 ^ (149 - e).toNat % m = 0 then 2 ^ (149 - e).toNat / m - 1 else 2 ^ (149 - e).toNat / m) = lo
  generalize hhi' : min (2 ^ (149 - e).toNat / m + 1) (2 ^ 23 - 1) = hi
  have hmod := Nat.mod_lt (Config.approxPick 0 x) (show 0 < hi + 2 - lo by split at hlo' <;> omega)
  generalize Config.approxPick 0 x % (hi + 2 - lo) = i at hmod ⊢
  split
  · exact .inl rfl
  · next hi0 =>
    have hk : lo + i - 1 < 2 ^ 23 := by omega
    have hmag : f32Mag (lo + i - 1) = (lo + i - 1 : Nat) * 2 ^ (-149 : Int) := by
      simpa using f32Mag_eq (q := -149) le_rfl (hk.le.trans (by norm_num)) (.inl rfl)
    have hdist : |((lo + i - 1 : Nat) : ℝ) - (2 ^ (149 - e).toNat : Nat) / m| ≤ 1 := by
      have hup : ((lo + i - 1 : Nat) : ℝ) ≤ (2 ^ (149 - e).toNat / m : Nat) + 1 := by
        exact_mod_cast (by omega : lo + i - 1 ≤ 2 ^ (149 - e).toNat / m + 1)
      rw [abs_le]
      split at hlo'
      · next h0 =>
        have hdown : ((2 ^ (149 - e).toNat / m : Nat) : ℝ) ≤ (lo + i - 1 : Nat) + 1 := by
          exact_mod_cast (by omega : 2 ^ (149 - e).toNat / m ≤ lo + i - 1 + 1)
        rw [hexact h0]
        constructor <;> linarith
      · have hdown : ((2 ^ (149 - e).toNat / m : Nat) : ℝ) ≤ (lo + i - 1 : Nat) := by
          exact_mod_cast (by omega : 2 ^ (149 - e).toNat / m ≤ lo + i - 1)
        constructor <;> linarith
    refine .inr ⟨by unfold FFmt.signEnc fmtF32; cases neg <;> simp <;> omega,
      withinUlp_of_unit (u := -149) hpos (by cases neg <;> simp) zero_le_one (fun k _ => ulpExp_ge k)
        (fmtF32_dec_isReal neg (by omega)) ?_⟩
    have hsign : |(if neg then -1 else 1 : ℝ)| = 1 := by cases neg <;> simp
    rw [hmag, hunits, ← mul_sub, ← sub_mul, abs_mul, abs_mul, hsign, one_mul, abs_of_pos (show (0 : ℝ) < 2 ^ (-149 : Int) by positivity)]
    gcongr

/-- FRCP of a magnitude up to 2^-128: a largest finite value or an infinity (log entry 10). -/
theorem frcpVal_huge (hhi : (m : ℝ) * 2 ^ e ≤ 2 ^ (-128 : Int)) :
    (frcpVal x).2 = 0 ∧ ((frcpVal x).1 = fmtF32.signEnc neg 0 + 0x7F7FFFFF ∨ (frcpVal x).1 = fmtF32.signEnc neg 0 + 0x7F800000) := by
  have h2 : m * 2 ^ (e + 149).toNat ≤ 2 ^ 21 := (operand_le_iff m he 21).mp hhi
  have h1 : ¬ 2 ^ 275 < m * 2 ^ (e + 149).toNat := not_lt.mpr (h2.trans (pow_le_pow_right₀ one_le_two (by norm_num)))
  unfold frcpVal
  rw [hdec]
  simp only [hm, h1, h2, if_false, if_true]
  refine ⟨trivial, ?_⟩
  unfold frcpHuge
  split
  · exact .inl rfl
  · exact .inr rfl

end

/-! ### FRSQ -/

/-- The integer square root, bit by bit from above. -/
theorem isqrt_bounds (x : Nat) : ∀ n r, r * r ≤ x → x < (r + 2 ^ n) * (r + 2 ^ n) →
    isqrt x n r * isqrt x n r ≤ x ∧ x < (isqrt x n r + 1) * (isqrt x n r + 1)
  | 0, r, hlo, hhi => ⟨hlo, hhi⟩
  | n + 1, r, hlo, hhi => by
    unfold isqrt
    dsimp only
    split
    · next h =>
      refine isqrt_bounds x n _ h ?_
      rwa [Nat.add_assoc, ← Nat.two_mul, ← Nat.pow_succ']
    · next h => exact isqrt_bounds x n r hlo (not_le.mp h)

/-- The enclosure of 1 / √x at a mantissa m and an even place. -/
theorem frsq_enclosure {m : Nat} (hm : m ≠ 0) (hbits : m < 2 ^ 25) : let v := isqrt (2 ^ 240 / m) 122 0
    2 ^ 23 ≤ v ∧ (v : ℝ) ≤ Real.sqrt (2 ^ 240 / m) ∧ Real.sqrt (2 ^ 240 / m) ≤ (if v * v * m = 2 ^ 240 then v else v + 1 : Nat) := by
  intro v
  have hmpos : (0 : ℝ) < m := by exact_mod_cast Nat.pos_of_ne_zero hm
  obtain ⟨hvlo, hvhi⟩ : v * v ≤ 2 ^ 240 / m ∧ 2 ^ 240 / m < (v + 1) * (v + 1) :=
    isqrt_bounds _ 122 0 (Nat.zero_le _) ((Nat.div_le_self ..).trans_lt (by norm_num))
  have hfine : 2 ^ 215 ≤ 2 ^ 240 / m := (Nat.le_div_iff_mul_le (Nat.pos_of_ne_zero hm)).mpr (by omega)
  obtain ⟨hqlo, hqhi⟩ := cast_div_bounds (2 ^ 240) (Nat.pos_of_ne_zero hm)
  push_cast at hqlo hqhi
  refine ⟨?_, Real.le_sqrt_of_sq_le ?_, Real.sqrt_le_iff.mpr ⟨by positivity, ?_⟩⟩
  · by_contra h
    have : (v + 1) * (v + 1) ≤ 2 ^ 23 * 2 ^ 23 := Nat.mul_le_mul (by omega) (by omega)
    omega
  · rw [le_div_iff₀ hmpos, sq]
    have : ((v * v : Nat) : ℝ) ≤ (2 ^ 240 / m : Nat) := by exact_mod_cast hvlo
    push_cast at this
    nlinarith
  · rw [div_le_iff₀ hmpos]
    split
    · next h => exact_mod_cast (by rw [sq, h] : v ^ 2 * m = 2 ^ 240).ge
    · have : ((2 ^ 240 / m : Nat) : ℝ) + 1 ≤ ((v + 1) * (v + 1) : Nat) := by exact_mod_cast hvhi
      push_cast at this ⊢
      nlinarith

theorem frsqVal_neg {x m : Nat} {e : Int} (hdec : fmtF32.dec x = .fin true m e) (hm : m ≠ 0) : frsqVal x = (0x7FC00000, flagNV) := by
  unfold frsqVal
  rw [hdec]
  simp only [hm, if_false, if_true]
  rfl

theorem frsqVal_pos {x m : Nat} {e : Int} (hdec : fmtF32.dec x = .fin false m e) (hm : m ≠ 0) (he : -149 ≤ e) (hbits : m < 2 ^ 24) :
    (frsqVal x).2 = 0 ∧ withinUlp (frsqVal x).1 (1 / Real.sqrt (m * 2 ^ e)) 2 := by
  obtain ⟨m', e', hpair, hval, heven, hm', hbits'⟩ : ∃ m' e', (if e % 2 = 0 then (m, e) else (2 * m, e - 1)) = (m', e')
      ∧ (m : ℝ) * 2 ^ e = m' * (2 ^ (e' / 2)) ^ 2 ∧ e' % 2 = 0 ∧ m' ≠ 0 ∧ m' < 2 ^ 25 := by
    have hsquare : ∀ k : Int, k % 2 = 0 → ((2 : ℝ) ^ (k / 2)) ^ 2 = 2 ^ k := fun k hk => by
      rw [← zpow_natCast, ← zpow_mul]
      congr 1
      push_cast
      omega
    by_cases h : e % 2 = 0
    · exact ⟨m, e, if_pos h, by rw [hsquare e h], h, hm, by omega⟩
    · refine ⟨2 * m, e - 1, if_neg h, ?_, by omega, by omega, by omega⟩
      rw [hsquare _ (by omega), zpow_sub₀ (by norm_num)]
      push_cast
      ring
  obtain ⟨hfine, hvlo, hvhi⟩ := frsq_enclosure hm' hbits'
  have hmpos : (0 : ℝ) < m' := by exact_mod_cast Nat.pos_of_ne_zero hm'
  have hroot : 1 / Real.sqrt (m * 2 ^ e) = Real.sqrt (2 ^ 240 / m') * 2 ^ (-120 - e' / 2) := by
    rw [hval, Real.sqrt_mul hmpos.le, Real.sqrt_sq (by positivity), Real.sqrt_div' _ hmpos.le,
      show (2 : ℝ) ^ 240 = (2 ^ 120) ^ 2 by norm_num, Real.sqrt_sq (by norm_num), zpow_sub₀ (by norm_num)]
    have : Real.sqrt m' ≠ 0 := (Real.sqrt_pos.mpr hmpos).ne'
    field_simp
  have hfin : 1 / Real.sqrt (m * 2 ^ e) < 2 ^ (128 : Int) := by
    have hone : (1 : ℝ) ≤ m := by exact_mod_cast Nat.one_le_iff_ne_zero.mpr hm
    have hleast : (2 : ℝ) ^ (-149 : Int) ≤ m * 2 ^ e :=
      (zpow_le_zpow_right₀ (by norm_num) he).trans (le_mul_of_one_le_left (by positivity) hone)
    have hsqrt : (2 : ℝ) ^ (-128 : Int) < Real.sqrt (m * 2 ^ e) :=
      (Real.lt_sqrt (by positivity)).mpr (lt_of_lt_of_le (by norm_num) hleast)
    rw [one_div, inv_lt_comm₀ (by linarith [show (0 : ℝ) < 2 ^ (-128 : Int) by positivity]) (by positivity), ← zpow_neg]
    exact hsqrt
  unfold frsqVal
  rw [hdec]
  simp only [hm, if_false, Bool.false_eq_true, hpair]
  refine ⟨trivial, ?_⟩
  have := withinUlp_of_fine 1 x false (n := 2) (t := 1 / Real.sqrt (m * 2 ^ e)) (by rw [hroot]; gcongr) (by rw [hroot]; gcongr)
    two_ne_zero hfine hfin (by split <;> omega)
  simpa using this

end Sys2Proof.Machine
end

section
/-! The enclosure of 2 to a fraction (04_numbers.md R108). -/

namespace Sys2Proof.Machine

/-- An enclosure of n bits more than the mantissa has n bits below the unit of its value. -/
theorem le_ulpExp_sub {lo n : Nat} (h : 2 ^ (n + 23) ≤ lo) (e : Int) : n ≤ (ulpExp (leadExp (max lo 1) e) - e).toNat := by
  have hpos : 0 < lo := (Nat.two_pow_pos _).trans_le h
  have hlog : n + 23 ≤ Nat.log2 lo := (Nat.le_log2 hpos.ne').mpr h
  rw [Nat.max_eq_left hpos]
  unfold ulpExp leadExp flog2
  omega

theorem leadExp_one (e : Int) : leadExp 1 e = e := by
  simp [leadExp, flog2, show Nat.log2 1 = 0 from rfl]

/-- A result that is the value itself. -/
theorem withinUlp_of_isReal {r : Nat} {x n : ℝ} (hx : x ≠ 0) (hn : 0 ≤ n) (h : (fmtF32.dec r).isReal x) : withinUlp r x n :=
  withinUlp_of_unit (u := -149) (abs_pos.mpr hx) rfl hn (fun k _ => ulpExp_ge k) h (by simp; positivity)

/-! ### 2 to a fraction -/

theorem exp_le_of_le {s : ℝ} (h0 : 0 ≤ s) (h : s ≤ 1 / 2) : Real.exp s ≤ 1 + 2 * s := by
  have hneg := Real.add_one_le_exp (-s)
  have hpos : 0 < 1 - s := by linarith
  rw [Real.exp_neg] at hneg
  have hinv : Real.exp s ≤ (1 - s)⁻¹ := (le_inv_comm₀ (Real.exp_pos s) hpos).mpr (by linarith)
  refine hinv.trans ((inv_le_iff_one_le_mul₀ hpos).mpr ?_)
  nlinarith

/-- The fixed-point exponential of a fraction known to within one unit encloses 2 to that fraction. -/
theorem exp2_enclosure {fr : Nat} {φ : ℝ} (hfr : fr ≤ fpUnit) (h0 : 0 ≤ φ) (h1 : φ ≤ 1) (hlo : (fr : ℝ) - 1 ≤ φ * fpUnit)
    (hhi : φ * fpUnit ≤ fr + 1) : let v := expFp (fr * ln2Fp / fpUnit)
    ((max fpUnit (v - 8) : Nat) : ℝ) ≤ fpUnit * (2 : ℝ) ^ φ ∧ fpUnit * (2 : ℝ) ^ φ ≤ (min (v + 128) (2 * fpUnit) : Nat) := by
  intro v
  have hU : (0 : ℝ) < fpUnit := by norm_num [fpUnit]
  have hUbig : (1000 : ℝ) ≤ fpUnit := by norm_num [fpUnit]
  have hfr' : (fr : ℝ) ≤ fpUnit := by exact_mod_cast hfr
  obtain ⟨hLlo, hLhi⟩ := ln2Fp_bounds
  have hln0 : 0 < Real.log 2 := Real.log_pos (by norm_num)
  have hln1 : Real.log 2 ≤ 1 := by linarith [Real.log_two_lt_d9]
  obtain ⟨hylo, hyhi⟩ := cast_div_bounds (fr * ln2Fp) (b := fpUnit) (Nat.two_pow_pos 80)
  have hy : fr * ln2Fp / fpUnit ≤ fpUnit := by
    refine Nat.div_le_of_le_mul (Nat.mul_le_mul hfr ?_)
    norm_num [ln2Fp, fpUnit]
  obtain ⟨hvlo, hvhi⟩ := expFp_bounds hy
  change (v : ℝ) ≤ _ at hvlo
  change _ ≤ (v : ℝ) + 64 at hvhi
  have hyreal : ((fr * ln2Fp / fpUnit : Nat) : ℝ) ≤ fpUnit := by exact_mod_cast hy
  push_cast at hylo hyhi
  generalize ((fr * ln2Fp / fpUnit : Nat) : ℝ) = y at *
  have hfraclo : y ≤ fr * Real.log 2 := le_of_mul_le_mul_right (by nlinarith) hU
  have hfrachi : fr * Real.log 2 ≤ y + 2 := le_of_mul_le_mul_right (by nlinarith) hU
  have hthetalo : y / fpUnit - 1 / fpUnit ≤ Real.log 2 * φ := by
    rw [← sub_div, div_le_iff₀ hU]
    nlinarith
  have hthetahi : Real.log 2 * φ ≤ y / fpUnit + 3 / fpUnit := by
    rw [← add_div, le_div_iff₀ hU]
    nlinarith
  have hpow : (2 : ℝ) ^ φ = Real.exp (Real.log 2 * φ) := Real.rpow_def_of_pos (by norm_num) φ
  have hE : Real.exp (y / fpUnit) ≤ 3 := by
    have hyU : y / fpUnit ≤ 1 := (div_le_one hU).mpr hyreal
    exact (Real.exp_le_exp.mpr hyU).trans (by linarith [Real.exp_one_lt_d9])
  have hlow : fpUnit * Real.exp (y / fpUnit) - Real.exp (y / fpUnit) ≤ fpUnit * (2 : ℝ) ^ φ := by
    have hstep := Real.add_one_le_exp (-(1 / fpUnit : ℝ))
    calc fpUnit * Real.exp (y / fpUnit) - Real.exp (y / fpUnit)
        = fpUnit * (Real.exp (y / fpUnit) * (-(1 / fpUnit) + 1)) := by field_simp; ring
      _ ≤ fpUnit * (Real.exp (y / fpUnit) * Real.exp (-(1 / fpUnit))) := by gcongr
      _ ≤ fpUnit * (2 : ℝ) ^ φ := by
        rw [hpow, ← Real.exp_add]
        gcongr
        linarith
  have hhigh : fpUnit * (2 : ℝ) ^ φ ≤ fpUnit * Real.exp (y / fpUnit) + 6 * Real.exp (y / fpUnit) := by
    have hstep := exp_le_of_le (s := 3 / fpUnit) (by positivity) (by rw [div_le_div_iff₀ hU (by norm_num)]; linarith)
    calc fpUnit * (2 : ℝ) ^ φ ≤ fpUnit * (Real.exp (y / fpUnit) * Real.exp (3 / fpUnit)) := by
          rw [hpow, ← Real.exp_add]
          gcongr
      _ ≤ fpUnit * (Real.exp (y / fpUnit) * (1 + 2 * (3 / fpUnit))) := by gcongr
      _ = fpUnit * Real.exp (y / fpUnit) + 6 * Real.exp (y / fpUnit) := by field_simp; ring
  have hone : 1 ≤ (2 : ℝ) ^ φ := Real.one_le_rpow (by norm_num) h0
  have htwo : (2 : ℝ) ^ φ ≤ 2 := by simpa using Real.rpow_le_rpow_of_exponent_le (show (1 : ℝ) ≤ 2 by norm_num) h1
  constructor
  · rw [Nat.cast_max]
    refine max_le (by nlinarith) ?_
    have hsub : ((v - 8 : Nat) : ℝ) ≤ max ((v : ℝ) - 8) 0 := by
      rcases le_total 8 v with h | h
      · rw [Nat.cast_sub h]
        exact le_max_left ..
      · rw [Nat.sub_eq_zero_of_le h]
        simp
    exact hsub.trans (max_le (by linarith) (by positivity))
  · push_cast
    exact le_min (by linarith) (by nlinarith)

end Sys2Proof.Machine
end

section
/-! FEXP2 of a finite operand (04_numbers.md R108; 15_ref_d_i.md R375, R376). -/

namespace Sys2Proof.Machine

/-- What R108 and R376 say of FEXP2 for a finite operand: an overflow from 128 on; below it a result within 2 ulp, exact for an integer. -/
def IsExp2 (v : Nat × Nat) (a : ℝ) : Prop :=
  (128 ≤ a ∧ v = (0x7F800000, flagOF)) ∨ (a < 128 ∧ v.2 = 0 ∧ withinUlp v.1 ((2 : ℝ) ^ a) 2
    ∧ ∀ n : Int, a = n → -149 ≤ n → (fmtF32.dec v.1).isReal ((2 : ℝ) ^ n))

/-- The operand in fixed point: its magnitude cut at the unit, and whether something is cut. -/
theorem operand_fixed (m : Nat) (e : Int) : let x := scaleTo m e (-80)
    (x.1 : ℝ) ≤ m * 2 ^ e * fpUnit ∧ (m : ℝ) * 2 ^ e * fpUnit < x.1 + 1 ∧ ((m : ℝ) * 2 ^ e * fpUnit = x.1 ↔ x.2.1 = 0) := by
  obtain ⟨hlo, hhi, hexact⟩ := scaleTo_bounds m e (-80)
  have hunit : (2 : ℝ) ^ (-80 : Int) = (fpUnit : ℝ)⁻¹ := by norm_num [fpUnit]
  have hU : (0 : ℝ) < fpUnit := by norm_num [fpUnit]
  rw [hunit, ← div_eq_mul_inv] at hlo hhi hexact
  refine ⟨(div_le_iff₀ hU).mp hlo, ?_, ?_⟩
  · exact_mod_cast (lt_div_iff₀ hU).mp hhi
  · rw [← eq_div_iff hU.ne', hexact]

/-- The floor and the fraction of an operand that is no integer, the fraction to within one unit. -/
theorem floor_fraction (neg : Bool) {k r : Nat} {w : ℝ} (hlo : (k : ℝ) ≤ w * fpUnit) (hhi : w * fpUnit < k + 1)
    (hexact : w * fpUnit = k ↔ r = 0) (hfrac : ¬ (k % fpUnit = 0 ∧ r = 0)) :
    let a := (if neg then -1 else 1) * w
    let fl : Int := if neg then -((k / fpUnit : Nat) : Int) - 1 else (k / fpUnit : Nat)
    let fr := if neg then fpUnit - k % fpUnit else k % fpUnit
    (fl : ℝ) < a ∧ a < fl + 1 ∧ fr ≤ fpUnit ∧ (fr : ℝ) - 1 ≤ (a - fl) * fpUnit ∧ (a - fl) * fpUnit ≤ fr + 1 := by
  have hU : (0 : ℝ) < fpUnit := by norm_num [fpUnit]
  have hmod : k % fpUnit < fpUnit := Nat.mod_lt _ (Nat.two_pow_pos 80)
  have hk : (k : ℝ) = (k / fpUnit : Nat) * fpUnit + (k % fpUnit : Nat) := by exact_mod_cast (Nat.div_add_mod' k fpUnit).symm
  have hmod' : ((k % fpUnit : Nat) : ℝ) + 1 ≤ fpUnit := by exact_mod_cast hmod
  have hmod0 : (0 : ℝ) ≤ (k % fpUnit : Nat) := Nat.cast_nonneg _
  have hstrict : ((k / fpUnit : Nat) : ℝ) * fpUnit < w * fpUnit := by
    rcases eq_or_ne (k % fpUnit) 0 with h0 | h0
    · have hne : w * fpUnit ≠ k := fun h => hfrac ⟨h0, hexact.mp h⟩
      have := lt_of_le_of_ne hlo hne.symm
      rw [h0] at hk
      push_cast at hk
      linarith
    · have : (1 : ℝ) ≤ (k % fpUnit : Nat) := by exact_mod_cast Nat.one_le_iff_ne_zero.mpr h0
      linarith
  have hwlo : ((k / fpUnit : Nat) : ℝ) < w := lt_of_mul_lt_mul_right hstrict hU.le
  have hwhi : w < (k / fpUnit : Nat) + 1 := lt_of_mul_lt_mul_right (by linarith) hU.le
  intro a fl fr
  cases neg
  · have ha : a = w := one_mul w
    have hfl : (fl : ℝ) = (k / fpUnit : Nat) := Int.cast_natCast _
    have hfr : fr = k % fpUnit := rfl
    rw [ha, hfl, hfr, sub_mul]
    refine ⟨hwlo, hwhi, hmod.le, ?_, ?_⟩ <;> linarith
  · have ha : a = -w := neg_one_mul w
    have hfl : (fl : ℝ) = -(k / fpUnit : Nat) - 1 := by
      change ((-((k / fpUnit : Nat) : Int) - 1 : Int) : ℝ) = _
      push_cast
      rfl
    have hfr : (fr : ℝ) = fpUnit - (k % fpUnit : Nat) := Nat.cast_sub hmod.le
    rw [ha, hfl, hfr, sub_mul]
    refine ⟨by linarith, by linarith, Nat.sub_le _ _, ?_, ?_⟩ <;> linarith

section
variable {x m : Nat} {neg : Bool} {e : Int} (hdec : fmtF32.dec x = .fin neg m e)
include hdec

/-- Beyond 2^20: an overflow, or a result far below every subnormal. -/
theorem fexp2Val_far (hm : m ≠ 0) (hfar : 20 ≤ leadExp m e) : IsExp2 (fexp2Val x) ((if neg then -1 else 1) * (m * 2 ^ e)) := by
  have hbig : (2 : ℝ) ^ (20 : Int) ≤ m * 2 ^ e := (zpow_le_zpow_right₀ (by norm_num) hfar).trans (leadExp_bounds hm e).1
  norm_num at hbig
  have hne : (m != 0) = true := bne_iff_ne.mpr hm
  unfold fexp2Val
  rw [hdec]
  simp only [hfar, hne, decide_true, Bool.and_self, if_true]
  cases neg
  · exact .inl ⟨by norm_num; linarith, rfl⟩
  · simp only [if_true, neg_one_mul]
    refine .inr ⟨by linarith, rfl, ?_, fun n hn hle => ?_⟩
    · have hsmall : (2 : ℝ) ^ (-(m * 2 ^ e) : ℝ) ≤ (1 : Nat) * (2 : ℝ) ^ (-300 : Int) := by
        rw [Nat.cast_one, one_mul, ← Real.rpow_intCast 2 (-300)]
        exact Real.rpow_le_rpow_of_exponent_le (by norm_num) (by push_cast; linarith)
      have := withinUlp_withinUlps 2 x false (n := 2) (lo := 0) (hi := 1) (e := -300) (Real.rpow_pos_of_pos (by norm_num) _)
        (by rw [Nat.cast_zero, zero_mul]; positivity) hsmall (by norm_num) (by omega) (by decide) (by decide) (by norm_num)
      simpa using this
    · have : (-149 : ℝ) ≤ n := by exact_mod_cast hle
      linarith

/-- An integer: a power of two, which is exact in range. -/
theorem fexp2Val_integer (hnear : leadExp m e < 20) (hint : (scaleTo m e (-80)).1 % fpUnit = 0 ∧ (scaleTo m e (-80)).2.1 = 0) :
    IsExp2 (fexp2Val x) ((if neg then -1 else 1) * (m * 2 ^ e)) := by
  obtain ⟨-, -, hexact⟩ := operand_fixed m e
  have hU : (fpUnit : ℝ) ≠ 0 := by norm_num [fpUnit]
  have hw : (m : ℝ) * 2 ^ e = ((scaleTo m e (-80)).1 / fpUnit : Nat) := by
    have hk : ((scaleTo m e (-80)).1 : ℝ) = ((scaleTo m e (-80)).1 / fpUnit : Nat) * fpUnit := by
      exact_mod_cast (Nat.div_mul_cancel (Nat.dvd_of_mod_eq_zero hint.1)).symm
    exact mul_right_cancel₀ hU ((hexact.mpr hint.2).trans hk)
  unfold fexp2Val
  rw [hdec, hw]
  simp only [hint, not_le.mpr hnear, decide_false, Bool.false_and, Bool.false_eq_true, if_false, decide_true, Bool.and_self, if_true]
  generalize (scaleTo m e (-80)).1 / fpUnit = N
  have hpow : ∀ n : Int, -149 ≤ n → n < 128 → IsExp2 ((fmtF32.roundFin 0 0 false 1 n).1, 0) n := fun n hlo hhi => by
    obtain ⟨-, hreal⟩ := fmtF32_roundFin_exact one_ne_zero (by norm_num) hlo (by rw [leadExp_one]; omega) 0 0 false
    have hreal : (fmtF32.dec (fmtF32.roundFin 0 0 false 1 n).1).isReal ((2 : ℝ) ^ n) := by simpa using hreal
    refine .inr ⟨by exact_mod_cast hhi, rfl, ?_, fun n' hn _ => by rwa [← Int.cast_injective hn]⟩
    rw [Real.rpow_intCast]
    exact withinUlp_of_isReal (by positivity) (by norm_num) hreal
  cases neg
  · simp only [Bool.false_eq_true, if_false, one_mul]
    split
    · next h => exact_mod_cast hpow N (by omega) (by exact_mod_cast h)
    · next h => exact .inl ⟨by exact_mod_cast not_lt.mp h, rfl⟩
  · simp only [if_true, neg_one_mul]
    split
    · next h => exact_mod_cast hpow (-N) (by omega) (by omega)
    · next h =>
      refine .inr ⟨by linarith [show (0 : ℝ) ≤ N from Nat.cast_nonneg N], rfl, ?_, fun n hn hle => ?_⟩
      · have hcast : (-(N : ℝ)) = ((-(N : Int) : Int) : ℝ) := by push_cast; rfl
        rw [hcast, Real.rpow_intCast]
        have := withinUlp_withinUlps 2 x false (n := 2) (lo := 1) (hi := 1) (e := -(N : Int)) (t := (2 : ℝ) ^ (-(N : Int))) (by positivity)
          (by simp) (by simp) (by norm_num) (by omega) (by rw [max_self, leadExp_one]; omega)
          (by rw [max_self, leadExp_one]; unfold ulpExp; omega) (by omega)
        simpa using this
      · have : n = -(N : Int) := by exact_mod_cast hn.symm
        omega

/-- An operand that is no integer. -/
theorem fexp2Val_fraction (hnear : leadExp m e < 20) (hfrac : ¬ ((scaleTo m e (-80)).1 % fpUnit = 0 ∧ (scaleTo m e (-80)).2.1 = 0)) :
    IsExp2 (fexp2Val x) ((if neg then -1 else 1) * (m * 2 ^ e)) := by
  obtain ⟨hlo, hhi, hexact⟩ := operand_fixed m e
  have hsplit := floor_fraction neg hlo hhi hexact hfrac
  have hcond : (decide ((scaleTo m e (-80)).1 % fpUnit = 0) && decide ((scaleTo m e (-80)).2.1 = 0)) = false := by
    simpa using hfrac
  unfold fexp2Val
  rw [hdec]
  simp only [not_le.mpr hnear, decide_false, Bool.false_and, Bool.false_eq_true, if_false, hcond]
  generalize (if neg then -1 else 1 : ℝ) * (m * 2 ^ e) = a at hsplit ⊢
  generalize (if neg = true then fpUnit - (scaleTo m e (-80)).1 % fpUnit else (scaleTo m e (-80)).1 % fpUnit) = fr at hsplit ⊢
  generalize (if neg = true then -(((scaleTo m e (-80)).1 / fpUnit : Nat) : Int) - 1 else ((scaleTo m e (-80)).1 / fpUnit : Nat)) = fl at hsplit ⊢
  obtain ⟨hfllo, hflhi, hfr, hfrlo, hfrhi⟩ := hsplit
  split
  · next h => exact .inl ⟨(show (128 : ℝ) ≤ fl by exact_mod_cast h).trans hfllo.le, rfl⟩
  · next h =>
    have ha : a < 128 := hflhi.trans_le (by exact_mod_cast not_le.mp h)
    refine .inr ⟨ha, rfl, ?_, fun n hn _ => ?_⟩
    · obtain ⟨henclo, henchi⟩ := exp2_enclosure hfr (φ := a - fl) (by linarith) (by linarith) hfrlo hfrhi
      have hval : (2 : ℝ) ^ a = fpUnit * (2 : ℝ) ^ (a - fl) * 2 ^ (fl - 80) := by
        rw [Real.rpow_sub (by norm_num), Real.rpow_intCast, zpow_sub₀ (by norm_num)]
        norm_num [fpUnit]
        field_simp
      have hfine : 2 ^ (57 + 23) ≤ max fpUnit (expFp (fr * ln2Fp / fpUnit) - 8) := le_max_left ..
      have hgap : 2 ^ 57 ≤ 2 ^ (ulpExp (leadExp (max (max fpUnit (expFp (fr * ln2Fp / fpUnit) - 8)) 1) (fl - 80)) - (fl - 80)).toNat :=
        Nat.pow_le_pow_right (by norm_num) (le_ulpExp_sub hfine _)
      have hfin : (2 : ℝ) ^ a < 2 ^ (128 : Int) := by
        rw [← Real.rpow_intCast]
        exact Real.rpow_lt_rpow_of_exponent_lt (by norm_num) (by exact_mod_cast ha)
      have := withinUlp_of_fine 2 x false (n := 2) (t := (2 : ℝ) ^ a) (by rw [hval]; gcongr) (by rw [hval]; gcongr)
        two_ne_zero (le_trans (by norm_num) hfine) hfin (by omega)
      simpa using this
    · subst hn
      have h1 : fl < n := by exact_mod_cast hfllo
      have h2 : n < fl + 1 := by exact_mod_cast hflhi
      omega

theorem fexp2Val_fin (hm : m ≠ 0) : IsExp2 (fexp2Val x) ((if neg then -1 else 1) * (m * 2 ^ e)) := by
  by_cases hfar : 20 ≤ leadExp m e
  · exact fexp2Val_far hdec hm hfar
  · by_cases hint : (scaleTo m e (-80)).1 % fpUnit = 0 ∧ (scaleTo m e (-80)).2.1 = 0
    · exact fexp2Val_integer hdec (not_le.mp hfar) hint
    · exact fexp2Val_fraction hdec (not_le.mp hfar) hint

end
end Sys2Proof.Machine
end

section
/-! FLOG2 (04_numbers.md R108; 15_ref_d_i.md R375, R376). -/

namespace Sys2Proof.Machine

/-- What R108 and R376 say of FLOG2 for a positive operand: 2^-22 from 0.5 to 2, 2 ulp elsewhere, exact for a power of two. -/
def IsLog2 (v : Nat × Nat) (a : ℝ) : Prop :=
  v.2 = 0 ∧ (1 / 2 ≤ a → a ≤ 2 → withinAbs22 v.1 (Real.logb 2 a)) ∧ (a < 1 / 2 ∨ 2 < a → withinUlp v.1 (Real.logb 2 a) 2)
    ∧ ∀ n : Int, a = (2 : ℝ) ^ n → (fmtF32.dec v.1).isReal n

/-- A small integer is exact. -/
theorem fmtF32_round_ofInt {i : Int} (h : i.natAbs < 2 ^ 24) :
    (fmtF32.round 0 0 (FVal.ofInt i)).2 = 0 ∧ (fmtF32.dec (fmtF32.round 0 0 (FVal.ofInt i)).1).isReal i := by
  rcases eq_or_ne i 0 with rfl | h0
  · exact ⟨rfl, false, 0, -149, by decide, by simp⟩
  · have hm := Int.natAbs_ne_zero.mpr h0
    have hlog : Nat.log2 i.natAbs < 24 := (Nat.log2_lt hm).mpr h
    obtain ⟨hflags, hreal⟩ := fmtF32_roundFin_exact hm h (e := 0) (by norm_num) (by unfold leadExp flog2; omega) 0 0 (decide (i < 0))
    refine ⟨hflags, ?_⟩
    have hi : ((if decide (i < 0) = true then -1 else 1 : ℝ) * (i.natAbs * 2 ^ (0 : Int))) = i := by
      rw [zpow_zero, mul_one, Nat.cast_natAbs, Int.cast_abs]
      by_cases hneg : i < 0
      · rw [if_pos (decide_eq_true hneg), abs_of_neg (by exact_mod_cast hneg)]
        ring
      · rw [if_neg (by simpa using hneg), abs_of_nonneg (by exact_mod_cast not_lt.mp hneg), one_mul]
    rwa [hi] at hreal

/-- The place of the leading bit of a power of two. -/
theorem leadExp_of_eq_zpow {m : Nat} (hm : m ≠ 0) {e n : Int} (h : (m : ℝ) * 2 ^ e = 2 ^ n) : leadExp m e = n := by
  obtain ⟨hlo, hhi⟩ := leadExp_bounds hm e
  rw [h] at hlo hhi
  have h1 := (zpow_le_zpow_iff_right₀ (by norm_num : (1 : ℝ) < 2)).mp hlo
  have h2 := (zpow_lt_zpow_iff_right₀ (by norm_num : (1 : ℝ) < 2)).mp hhi
  omega

theorem eq_zpow_leadExp_iff (m : Nat) (e : Int) : (m : ℝ) * 2 ^ e = 2 ^ leadExp m e ↔ m = 2 ^ flog2 m := by
  unfold leadExp
  rw [zpow_add₀ (by norm_num), zpow_natCast, mul_left_inj' (by positivity)]
  exact_mod_cast Iff.rfl

/-- The place of the leading bit of an operand. -/
theorem leadExp_range {m : Nat} (hm : m ≠ 0) (hbits : m < 2 ^ 24) {e : Int} (he : -149 ≤ e) (he' : e ≤ 104) :
    -149 ≤ leadExp m e ∧ leadExp m e ≤ 127 := by
  have hlog : Nat.log2 m < 24 := (Nat.log2_lt hm).mpr hbits
  unfold leadExp flog2
  omega

theorem flog2Val_neg {x m : Nat} {e : Int} (hdec : fmtF32.dec x = .fin true m e) (hm : m ≠ 0) : flog2Val x = (0x7FC00000, flagNV) := by
  unfold flog2Val
  rw [hdec]
  simp only [hm, if_false, if_true]
  rfl

/-- The enclosure of a logarithm at 2^-72. -/
theorem log2_enclosure {m : Nat} (hm : m ≠ 0) (hbits : m < 2 ^ 24) (e : Int) :
    let f := log2Bits (m * 2 ^ 160 / 2 ^ flog2 m) 72
    f ≤ 2 ^ 72 ∧ ((leadExp m e * 2 ^ 72 + f : Int) : ℝ) * 2 ^ (-72 : Int) ≤ Real.logb 2 (m * 2 ^ e)
      ∧ Real.logb 2 (m * 2 ^ e) ≤ ((leadExp m e * 2 ^ 72 + f + 2 : Int) : ℝ) * 2 ^ (-72 : Int) := by
  have hlog : Nat.log2 m ≤ 23 := Nat.lt_succ_iff.mp ((Nat.log2_lt hm).mpr hbits)
  have hlo : 2 ^ Nat.log2 m ≤ m := Nat.log2_self_le hm
  have hhi : m < 2 * 2 ^ Nat.log2 m := by simpa [pow_succ'] using Nat.lt_log2_self (n := m)
  unfold leadExp flog2
  generalize Nat.log2 m = n at *
  have hsplit : (2 : Nat) ^ 160 = 2 ^ (160 - n) * 2 ^ n := by rw [← pow_add, Nat.sub_add_cancel (by omega)]
  have hdiv : m * 2 ^ 160 / 2 ^ n = m * 2 ^ (160 - n) := by
    rw [hsplit, ← mul_assoc, Nat.mul_div_cancel _ (Nat.two_pow_pos n)]
  have hM : ((m * 2 ^ (160 - n) : Nat) : ℝ) / 2 ^ 160 = m / 2 ^ n := by
    have : (2 : ℝ) ^ 160 = 2 ^ (160 - n) * 2 ^ n := by exact_mod_cast hsplit
    rw [this]
    push_cast
    field_simp
  have hpos := Nat.two_pow_pos (160 - n)
  obtain ⟨hflo, hfhi⟩ := log2Bits_72 (m := m * 2 ^ (160 - n)) (by nlinarith) (by nlinarith)
  rw [hM] at hflo hfhi
  have hmpos : (0 : ℝ) < m := by exact_mod_cast Nat.pos_of_ne_zero hm
  have hval : Real.logb 2 (m * 2 ^ e) = n + e + Real.logb 2 (m / 2 ^ n) := by
    have : (m : ℝ) * 2 ^ e = 2 ^ ((n : Int) + e) * (m / 2 ^ n) := by
      rw [zpow_add₀ (by norm_num), zpow_natCast]
      field_simp
    rw [this, Real.logb_mul (by positivity) (by positivity), ← Real.rpow_intCast, Real.logb_rpow (by norm_num) (by norm_num)]
    push_cast
    ring
  have hone : Real.logb 2 (m / 2 ^ n) ≤ 1 := by
    rw [Real.logb_le_iff_le_rpow (by norm_num) (by positivity), Real.rpow_one, div_le_iff₀ (by positivity)]
    exact_mod_cast hhi.le
  rw [hdiv, hval]
  intro f
  change (f : ℝ) ≤ _ at hflo
  change _ ≤ (f : ℝ) + 2 at hfhi
  have hunit : (2 : ℝ) ^ (-72 : Int) * 2 ^ 72 = 1 := by norm_num
  refine ⟨?_, ?_, ?_⟩
  · have : (f : ℝ) ≤ 2 ^ 72 := hflo.trans (by nlinarith)
    exact_mod_cast this
  · refine le_of_mul_le_mul_right ?_ (show (0 : ℝ) < 2 ^ 72 by norm_num)
    rw [mul_assoc, hunit]
    push_cast
    linarith
  · refine le_of_mul_le_mul_right ?_ (show (0 : ℝ) < 2 ^ 72 by norm_num)
    rw [mul_assoc, hunit]
    push_cast
    linarith

/-- A logarithm of magnitude 1 or more, enclosed at 2^-72 to two units. -/
theorem withinUlp_log (operand : Nat) (neg : Bool) {lo hi : Nat} {t : ℝ} (hlo : (lo : ℝ) * 2 ^ (-72 : Int) ≤ t)
    (hhi : t ≤ hi * 2 ^ (-72 : Int)) (hwidth : hi = lo + 2) (hbits : 2 ^ 71 ≤ lo) (htop : hi ≤ 2 ^ 80) :
    withinUlp (withinUlps 3 operand neg 2 lo hi (-72)) ((if neg then -1 else 1) * t) 2 := by
  have hfin : t < 2 ^ (128 : Int) := by
    have : (hi : ℝ) * 2 ^ (-72 : Int) ≤ (2 ^ 80 : Nat) * 2 ^ (-72 : Int) := by gcongr
    refine (hhi.trans this).trans_lt ?_
    norm_num
  have hone := Nat.one_le_two_pow (n := (ulpExp (leadExp (max lo 1) (-72)) - -72).toNat)
  exact withinUlp_of_fine 3 operand neg hlo hhi two_ne_zero (le_trans (by norm_num) hbits) hfin (by omega)

section
variable {x m : Nat} {e : Int} (hdec : fmtF32.dec x = .fin false m e) (hm : m ≠ 0) (hbits : m < 2 ^ 24) (he : -149 ≤ e) (he' : e ≤ 104)
include hdec hm hbits he he'

theorem flog2Val_zpow (hpow : m = 2 ^ flog2 m) : IsLog2 (flog2Val x) (m * 2 ^ e) := by
  obtain ⟨hlo, hhi⟩ := leadExp_range hm hbits he he'
  obtain ⟨hflags, hreal⟩ := fmtF32_round_ofInt (i := leadExp m e) (by omega)
  have hval : flog2Val x = fmtF32.round 0 0 (FVal.ofInt (leadExp m e)) := by
    unfold flog2Val
    rw [hdec]
    simp only [hm, if_false, Bool.false_eq_true]
    rw [if_pos hpow]
  have hlogb : Real.logb 2 (2 ^ leadExp m e) = leadExp m e := by
    rw [← Real.rpow_intCast, Real.logb_rpow (by norm_num) (by norm_num)]
  rw [hval, (eq_zpow_leadExp_iff m e).mpr hpow]
  refine ⟨hflags, fun _ _ => ⟨_, hreal, ?_⟩, fun h => ?_, fun n hn => ?_⟩
  · rw [hlogb, sub_self, abs_zero]
    positivity
  · rw [hlogb]
    refine withinUlp_of_isReal (fun h0 => ?_) zero_le_two hreal
    rw [Int.cast_eq_zero.mp h0, zpow_zero] at h
    norm_num at h
  · rwa [← (zpow_right_injective₀ (by norm_num : (0 : ℝ) < 2) (by norm_num)) hn]

/-- An operand that is no power of two. -/
theorem flog2Val_other (hpow : m ≠ 2 ^ flog2 m) : IsLog2 (flog2Val x) (m * 2 ^ e) := by
  obtain ⟨hlo, hhi⟩ := leadExp_bounds hm e
  obtain ⟨hlead, hlead'⟩ := leadExp_range hm hbits he he'
  obtain ⟨hf, henclo, henchi⟩ := log2_enclosure hm hbits e
  have hne : ∀ n : Int, (m : ℝ) * 2 ^ e ≠ 2 ^ n := fun n h => hpow ((eq_zpow_leadExp_iff m e).mp (by rw [leadExp_of_eq_zpow hm h, h]))
  unfold flog2Val
  rw [hdec]
  simp only [hm, if_false, Bool.false_eq_true, hpow]
  generalize log2Bits (m * 2 ^ 160 / 2 ^ flog2 m) 72 = f at *
  generalize leadExp m e = le at *
  generalize (m : ℝ) * 2 ^ e = a at *
  have hexp : ∀ n : Int, (2 : ℝ) ^ n < a ↔ n ≤ le := fun n => by
    refine ⟨fun h => ?_, fun h => lt_of_le_of_ne ((zpow_le_zpow_right₀ (by norm_num) h).trans hlo) (hne n).symm⟩
    exact Int.lt_add_one_iff.mp ((zpow_lt_zpow_iff_right₀ (by norm_num)).mp (h.trans hhi))
  have hexp' : ∀ n : Int, a < (2 : ℝ) ^ n ↔ le < n := fun n => by
    rw [← not_le, le_iff_lt_or_eq, or_iff_left (hne n).symm, hexp, not_le]
  have hexact : ∀ n : Int, a = 2 ^ n → ∀ r : Nat, (fmtF32.dec r).isReal n := fun n h => absurd h (hne n)
  generalize hl : le * 2 ^ 72 + (f : Int) = l at *
  split
  · next hnear =>
    simp only [Bool.or_eq_true, decide_eq_true_eq] at hnear
    have hin : 1 / 2 < a ∧ a < 2 := ⟨by simpa using (hexp (-1)).mpr (by omega), by simpa using (hexp' 1).mpr (by omega)⟩
    refine ⟨rfl, fun _ _ => withinAbs22_withinAbs 3 x henclo henchi ?_ ?_, fun h => ?_, fun n hn => hexact n hn _⟩
    · have hbound : |(l : ℝ)| ≤ 2 ^ 72 := by
        rw [abs_le]
        constructor
        · exact_mod_cast (by omega : -2 ^ 72 ≤ l)
        · exact_mod_cast (by omega : l ≤ 2 ^ 72)
      rw [abs_mul, abs_of_pos (show (0 : ℝ) < 2 ^ (-72 : Int) by positivity)]
      calc |(l : ℝ)| * 2 ^ (-72 : Int) ≤ 2 ^ 72 * 2 ^ (-72 : Int) := by gcongr
        _ < 2 := by norm_num
    · push_cast
      rw [← sub_mul, add_sub_cancel_left]
      norm_num
    · rcases h with h | h <;> linarith
  · next hfar =>
    simp only [Bool.or_eq_true, decide_eq_true_eq] at hfar
    split
    · next hpos =>
      have hout : 2 < a := by simpa using (hexp 1).mpr (by omega)
      refine ⟨rfl, fun _ h => absurd h (not_le.mpr hout), fun _ => ?_, fun n hn => hexact n hn _⟩
      have hl0 : ((l.toNat : Nat) : ℝ) = l := by exact_mod_cast Int.toNat_of_nonneg (by omega)
      have hl2 : (((l + 2).toNat : Nat) : ℝ) = (l + 2 : Int) := by exact_mod_cast Int.toNat_of_nonneg (by omega)
      simpa using withinUlp_log x false (hl0 ▸ henclo) (hl2 ▸ henchi) (by omega) (by omega) (by omega)
    · next hneg =>
      have hout : a < 1 / 2 := by simpa using (hexp' (-1)).mpr (by omega)
      refine ⟨rfl, fun h => absurd h (not_le.mpr hout), fun _ => ?_, fun n hn => hexact n hn _⟩
      have hl0 : (((-l).toNat : Nat) : ℝ) = -(l : ℝ) := by exact_mod_cast Int.toNat_of_nonneg (by omega)
      have hl2 : (((-(l + 2)).toNat : Nat) : ℝ) = -((l + 2 : Int) : ℝ) := by exact_mod_cast Int.toNat_of_nonneg (by omega)
      have := withinUlp_log x true (lo := (-(l + 2)).toNat) (hi := (-l).toNat) (t := -Real.logb 2 a) (by rw [hl2]; linarith)
        (by rw [hl0]; linarith) (by omega) (by omega) (by omega)
      rwa [if_pos rfl, neg_one_mul, neg_neg] at this

theorem flog2Val_pos : IsLog2 (flog2Val x) (m * 2 ^ e) := by
  by_cases hpow : m = 2 ^ flog2 m
  · exact flog2Val_zpow hdec hm hbits he he' hpow
  · exact flog2Val_other hdec hm hbits he he' hpow

end
end Sys2Proof.Machine
end

section
/-! FSINP (04_numbers.md R108; 15_ref_d_i.md R375, R376). -/

namespace Sys2Proof.Machine

/-- What R108 and R376 say of FSINP for a finite operand: 2^-22, the sign's zero for an integer, ±1 for n + 0.5. -/
def IsSinp (v : Nat × Nat) (sign : Nat) (a : ℝ) : Prop :=
  v.2 = 0 ∧ withinAbs22 v.1 (Real.sin (Real.pi * a)) ∧ (∀ n : Int, a = n → v.1 = sign)
    ∧ ∀ n : Int, a = n + 1 / 2 → (fmtF32.dec v.1).isReal ((-1 : ℝ) ^ n)

theorem withinAbs22_of_isReal {r : Nat} {x : ℝ} (h : (fmtF32.dec r).isReal x) : withinAbs22 r x :=
  ⟨x, h, by rw [sub_self, abs_zero]; positivity⟩

/-- A fraction of a turn's half, reflected into its first half. -/
def sinpFold (h : Nat) : Nat := if fpUnit / 2 < h then fpUnit - h else h

/-- The bounds that FSINP takes from the fixed-point sine. -/
def sinpLo (h : Nat) : Int := max 0 ((sinFp (sinpFold h * piFp / fpUnit) : Int) - 256)
def sinpHi (h : Nat) : Int := (sinFp (sinpFold h * piFp / fpUnit) : Int) + 256

/-- FSINP by the integer part K / 2^80 of the operand's magnitude and the fraction K % 2^80 in units of 2^-80. -/
theorem fsinpVal_fin {x m : Nat} {neg : Bool} {e : Int} (hdec : fmtF32.dec x = .fin neg m e) : fsinpVal x =
    (let K := (scaleTo m e (-80)).1
     let flip := neg != decide (K / fpUnit % 2 = 1)
     if (scaleTo m e (-80)).2.1 = 0 ∧ K % fpUnit = 0 then fmtF32.signEnc neg 0
     else if (scaleTo m e (-80)).2.1 = 0 ∧ K % fpUnit = fpUnit / 2 then if flip then 0xBF800000 else 0x3F800000
     else if flip then withinAbs 4 x (-sinpHi (K % fpUnit)) (-sinpLo (K % fpUnit)) (-80)
     else withinAbs 4 x (sinpLo (K % fpUnit)) (sinpHi (K % fpUnit)) (-80), 0) := by
  have hodd : ∀ K : Nat, decide (fpUnit ≤ K % (2 * fpUnit)) = decide (K / fpUnit % 2 = 1) := fun K => by
    unfold fpUnit
    exact decide_eq_decide.mpr (by omega)
  have hmod : ∀ K : Nat, K % (2 * fpUnit) % fpUnit = K % fpUnit := fun K => Nat.mod_mul_left_mod K 2 fpUnit
  unfold fsinpVal
  rw [hdec]
  simp only [hodd, hmod, Bool.and_eq_true, decide_eq_true_eq]
  split
  · rfl
  · split
    · rfl
    · split <;> rfl

/-! ### The sine of a fraction -/

theorem sinpFold_le {h : Nat} (hh : h < fpUnit) : (sinpFold h : ℝ) ≤ fpUnit / 2 := by
  have hfold : sinpFold h * 2 ≤ fpUnit := by
    unfold sinpFold fpUnit at *
    split <;> omega
  rw [le_div_iff₀ two_pos]
  exact_mod_cast hfold

/-- The reflection leaves the sine as it is. -/
theorem exists_folded {h : Nat} (hh : h < fpUnit) {φ : ℝ} (hlo : (h : ℝ) ≤ φ * fpUnit) (hhi : φ * fpUnit < h + 1) :
    ∃ ψ, Real.sin (Real.pi * φ) = Real.sin (Real.pi * ψ) ∧ |ψ * fpUnit - sinpFold h| ≤ 1 := by
  unfold sinpFold
  split
  · refine ⟨1 - φ, by rw [mul_one_sub, Real.sin_pi_sub], ?_⟩
    rw [Nat.cast_sub hh.le, one_sub_mul, abs_le]
    constructor <;> linarith
  · refine ⟨φ, rfl, abs_le.mpr ?_⟩
    constructor <;> linarith

/-- The fixed-point angle of a fraction of a half turn. -/
theorem angle_near {g : Nat} (hg : (g : ℝ) ≤ fpUnit / 2) {ψ : ℝ} (hψ : |ψ * fpUnit - g| ≤ 1) : let z := g * piFp / fpUnit
    (z / fpUnit : ℝ) ≤ 8 / 5 ∧ |(z / fpUnit : ℝ) - Real.pi * ψ| ≤ 6 / fpUnit := by
  intro z
  have hU : (0 : ℝ) < fpUnit := by norm_num [fpUnit]
  have hpi := Real.pi_pos
  have hpi' := Real.pi_lt_d2
  obtain ⟨hPlo, hPhi⟩ := piFp_bounds
  obtain ⟨hzlo, hzhi⟩ := cast_div_bounds (g * piFp) (b := fpUnit) (Nat.two_pow_pos 80)
  obtain ⟨hψlo, hψhi⟩ := abs_le.mp hψ
  change (z : ℝ) * fpUnit ≤ _ at hzlo
  change _ ≤ ((z : ℝ) + 1) * fpUnit at hzhi
  push_cast at hzlo hzhi
  generalize (z : ℝ) = z at *
  have hg0 : (0 : ℝ) ≤ g := Nat.cast_nonneg _
  have hcut : z ≤ g * Real.pi := le_of_mul_le_mul_right (by nlinarith) hU
  have hcut' : g * Real.pi ≤ z + 2 := le_of_mul_le_mul_right (by nlinarith) hU
  refine ⟨by rw [div_le_iff₀ hU]; nlinarith, ?_⟩
  rw [show z / fpUnit - Real.pi * ψ = (z - Real.pi * (ψ * fpUnit)) / fpUnit by field_simp, abs_div, abs_of_pos hU]
  gcongr
  rw [abs_le]
  constructor <;> nlinarith

theorem sinFp_near {h : Nat} (hh : h < fpUnit) {φ : ℝ} (hlo : (h : ℝ) ≤ φ * fpUnit) (hhi : φ * fpUnit < h + 1) :
    |(sinFp (sinpFold h * piFp / fpUnit) : ℝ) - fpUnit * Real.sin (Real.pi * φ)| ≤ 70 := by
  have hU : (0 : ℝ) < fpUnit := by norm_num [fpUnit]
  obtain ⟨ψ, hsin, hψ⟩ := exists_folded hh hlo hhi
  obtain ⟨hz, hangle⟩ := angle_near (sinpFold_le hh) hψ
  have hsum := sinFp_bounds hz
  have hlip := Real.lipschitzWith_sin.dist_le_mul ((sinpFold h * piFp / fpUnit : Nat) / fpUnit) (Real.pi * ψ)
  rw [Real.dist_eq, Real.dist_eq, NNReal.coe_one, one_mul] at hlip
  have hsine : |fpUnit * Real.sin ((sinpFold h * piFp / fpUnit : Nat) / fpUnit) - fpUnit * Real.sin (Real.pi * ψ)| ≤ 6 := by
    rw [← mul_sub, abs_mul, abs_of_pos hU, ← le_div_iff₀' hU]
    exact hlip.trans hangle
  rw [hsin]
  exact (abs_sub_le _ _ _).trans ((add_le_add hsum hsine).trans (by norm_num))

/-- The sine of a fraction known to within one unit lies within the bounds of FSINP. -/
theorem sinp_enclosure {h : Nat} (hh : h < fpUnit) {φ : ℝ} (hlo : (h : ℝ) ≤ φ * fpUnit) (hhi : φ * fpUnit < h + 1) :
    (sinpLo h : ℝ) * 2 ^ (-80 : Int) ≤ Real.sin (Real.pi * φ) ∧ Real.sin (Real.pi * φ) ≤ sinpHi h * 2 ^ (-80 : Int)
      ∧ |(sinpLo h : ℝ) * 2 ^ (-80 : Int)| < 2 ∧ |(sinpHi h : ℝ) * 2 ^ (-80 : Int)| < 2
      ∧ (sinpHi h : ℝ) * 2 ^ (-80 : Int) - sinpLo h * 2 ^ (-80 : Int) ≤ 2 ^ (-23 : Int) := by
  have hU : (0 : ℝ) < fpUnit := by norm_num [fpUnit]
  have hUbig : (1000 : ℝ) ≤ fpUnit := by norm_num [fpUnit]
  have hφ0 : 0 ≤ φ := nonneg_of_mul_nonneg_left ((Nat.cast_nonneg h).trans hlo) hU
  have hφ1 : φ < 1 := by
    have : (h : ℝ) + 1 ≤ fpUnit := by exact_mod_cast hh
    exact lt_of_mul_lt_mul_right (by linarith) hU.le
  have hsin0 : 0 ≤ Real.sin (Real.pi * φ) := Real.sin_nonneg_of_nonneg_of_le_pi (by positivity) (mul_le_of_le_one_right Real.pi_pos.le hφ1.le)
  have hsin1 := Real.sin_le_one (Real.pi * φ)
  obtain ⟨hnear, hnear'⟩ := abs_le.mp (sinFp_near hh hlo hhi)
  have hlo' : (sinpLo h : ℝ) = max 0 ((sinFp (sinpFold h * piFp / fpUnit) : ℝ) - 256) := by unfold sinpLo; push_cast; rfl
  have hhi' : (sinpHi h : ℝ) = sinFp (sinpFold h * piFp / fpUnit) + 256 := by unfold sinpHi; push_cast; rfl
  rw [show (2 : ℝ) ^ (-80 : Int) = (fpUnit : ℝ)⁻¹ by norm_num [fpUnit], ← div_eq_mul_inv, ← div_eq_mul_inv, hlo', hhi']
  generalize (sinFp (sinpFold h * piFp / fpUnit) : ℝ) = v at *
  generalize Real.sin (Real.pi * φ) = s at *
  have hmax0 : 0 ≤ max 0 (v - 256) := le_max_left ..
  have hmax : max 0 (v - 256) ≤ s * fpUnit := max_le (by positivity) (by linarith)
  have hmax' : v - 256 ≤ max 0 (v - 256) := le_max_right ..
  refine ⟨(div_le_iff₀ hU).mpr hmax, (le_div_iff₀ hU).mpr (by linarith), ?_, ?_, ?_⟩
  · rw [abs_of_nonneg (by positivity), div_lt_iff₀ hU]
    nlinarith
  · rw [abs_of_nonneg (div_nonneg (by nlinarith) hU.le), div_lt_iff₀ hU]
    nlinarith
  · have hwide : (512 : ℝ) / fpUnit ≤ 2 ^ (-23 : Int) := by norm_num [fpUnit]
    rw [← sub_div]
    refine (div_le_div_of_nonneg_right ?_ hU.le).trans hwide
    linarith only [hnear, hnear', hmax']

/-! ### FSINP of a finite operand -/

/-- The sine of whole half turns and a fraction. -/
theorem sin_half_turns (neg : Bool) (w : ℝ) (j : Nat) : Real.sin (Real.pi * ((if neg then -1 else 1) * w))
    = (if (neg != decide (j % 2 = 1)) = true then -1 else 1) * Real.sin (Real.pi * (w - j)) := by
  have hw : Real.sin (Real.pi * w) = (-1) ^ j * Real.sin (Real.pi * (w - j)) := by
    rw [← Real.sin_add_nat_mul_pi]
    congr 1
    ring
  have hsign : (-1 : ℝ) ^ j = if j % 2 = 1 then -1 else 1 := by
    simp only [neg_one_pow_eq_ite, ← Nat.not_even_iff, ite_not]
  rw [hsign] at hw
  cases neg
  · rw [if_neg Bool.false_ne_true, one_mul, hw]
    by_cases h : j % 2 = 1 <;> simp [h]
  · rw [if_pos rfl, neg_one_mul, mul_neg, Real.sin_neg, hw]
    by_cases h : j % 2 = 1 <;> simp [h]

theorem sin_pi_int (n : Int) : Real.sin (Real.pi * n) = 0 ∧ Real.sin (Real.pi * (n + 1 / 2)) = (-1) ^ n := by
  constructor
  · rw [mul_comm, Real.sin_int_mul_pi]
  · rw [show Real.pi * (n + 1 / 2) = Real.pi / 2 + n * Real.pi by ring, Real.sin_add_int_mul_pi, Real.sin_pi_div_two, mul_one]

/-- An operand that is a whole number of units is that number in fixed point. -/
theorem scaleTo_of_eq {m : Nat} {e : Int} {N : Nat} (h : (m : ℝ) * 2 ^ e * fpUnit = N) :
    (scaleTo m e (-80)).1 = N ∧ (scaleTo m e (-80)).2.1 = 0 := by
  obtain ⟨hlo, hhi, hexact⟩ := operand_fixed m e
  rw [h] at hlo hhi hexact
  have h1 : (scaleTo m e (-80)).1 ≤ N := by exact_mod_cast hlo
  have h2 : N < (scaleTo m e (-80)).1 + 1 := by exact_mod_cast hhi
  have hK : (scaleTo m e (-80)).1 = N := by omega
  exact ⟨hK, hexact.mp (by rw [hK])⟩

/-- An operand that is an integer or half an odd integer, in fixed point. -/
theorem scaleTo_of_int {m : Nat} {e : Int} {neg : Bool} (n : Int) (h : (if neg then -1 else 1 : ℝ) * (m * 2 ^ e) = n) :
    (scaleTo m e (-80)).2.1 = 0 ∧ (scaleTo m e (-80)).1 % fpUnit = 0 := by
  have habs : (m : ℝ) * 2 ^ e = n.natAbs := by
    rw [Nat.cast_natAbs, Int.cast_abs, ← h, abs_mul, abs_of_nonneg (show (0 : ℝ) ≤ m * 2 ^ e by positivity)]
    cases neg <;> simp
  obtain ⟨hK, hr⟩ := scaleTo_of_eq (m := m) (e := e) (N := n.natAbs * fpUnit) (by rw [habs]; push_cast; rfl)
  exact ⟨hr, by rw [hK, Nat.mul_mod_left]⟩

theorem scaleTo_of_half {m : Nat} {e : Int} {neg : Bool} (n : Int) (h : (if neg then -1 else 1 : ℝ) * (m * 2 ^ e) = n + 1 / 2) :
    (scaleTo m e (-80)).2.1 = 0 ∧ (scaleTo m e (-80)).1 % fpUnit = fpUnit / 2 := by
  have habs : (m : ℝ) * 2 ^ e * 2 = (2 * n + 1).natAbs := by
    have h2 : ((2 * n + 1 : Int) : ℝ) = (if neg then -1 else 1) * (m * 2 ^ e) * 2 := by
      rw [h]
      push_cast
      ring
    rw [Nat.cast_natAbs, Int.cast_abs, h2, abs_mul, abs_mul, abs_of_nonneg (show (0 : ℝ) ≤ m * 2 ^ e by positivity)]
    cases neg <;> simp
  obtain ⟨hK, hr⟩ := scaleTo_of_eq (m := m) (e := e) (N := (2 * n + 1).natAbs * 2 ^ 79) (by
    rw [Nat.cast_mul, ← habs]
    norm_num [fpUnit]
    ring)
  exact ⟨hr, by rw [hK]; unfold fpUnit; omega⟩

theorem fsinpVal_isSinp {x m : Nat} {neg : Bool} {e : Int} (hdec : fmtF32.dec x = .fin neg m e) :
    IsSinp (fsinpVal x) (fmtF32.signEnc neg 0) ((if neg then -1 else 1) * (m * 2 ^ e)) := by
  obtain ⟨hlo, hhi, hexact⟩ := operand_fixed m e
  have hsin := sin_half_turns neg (m * 2 ^ e) ((scaleTo m e (-80)).1 / fpUnit)
  have hint := scaleTo_of_int (m := m) (e := e) (neg := neg)
  have hhalf := scaleTo_of_half (m := m) (e := e) (neg := neg)
  have hU : (0 : ℝ) < fpUnit := by norm_num [fpUnit]
  have hmod : (scaleTo m e (-80)).1 % fpUnit < fpUnit := Nat.mod_lt _ (Nat.two_pow_pos 80)
  have hK : ((scaleTo m e (-80)).1 : ℝ) = ((scaleTo m e (-80)).1 / fpUnit : Nat) * fpUnit + ((scaleTo m e (-80)).1 % fpUnit : Nat) := by
    exact_mod_cast (Nat.div_add_mod' _ fpUnit).symm
  rw [fsinpVal_fin hdec]
  generalize (scaleTo m e (-80)).2.1 = r at *
  dsimp only
  generalize (neg != decide ((scaleTo m e (-80)).1 / fpUnit % 2 = 1)) = flip at *
  generalize (scaleTo m e (-80)).1 / fpUnit = j at *
  generalize (scaleTo m e (-80)).1 % fpUnit = h at *
  generalize ((scaleTo m e (-80)).1 : ℝ) = K at *
  have hφ : ((m : ℝ) * 2 ^ e - j) * fpUnit = m * 2 ^ e * fpUnit - j * fpUnit := sub_mul ..
  generalize (m : ℝ) * 2 ^ e - j = φ at *
  generalize (if neg then -1 else 1 : ℝ) * (m * 2 ^ e) = a at *
  refine ⟨rfl, ?_⟩
  dsimp only
  by_cases hzero : r = 0 ∧ h = 0
  · rw [if_pos hzero]
    have hφ0 : φ = 0 := by
      have := hexact.mpr hzero.1
      rw [hzero.2, Nat.cast_zero, add_zero] at hK
      exact (mul_eq_zero.mp (by linarith : φ * fpUnit = 0)).resolve_right hU.ne'
    rw [hφ0, mul_zero, Real.sin_zero, mul_zero] at hsin
    refine ⟨withinAbs22_of_isReal ?_, fun _ _ => rfl, fun n hn => ?_⟩
    · simpa [hsin] using fmtF32_dec_isReal neg (n := 0) (by norm_num)
    · have hpm := (sin_pi_int n).2
      rw [← hn, hsin] at hpm
      exact absurd hpm.symm (zpow_ne_zero n (by norm_num))
  · rw [if_neg hzero]
    by_cases hone : r = 0 ∧ h = fpUnit / 2
    · rw [if_pos hone]
      have hφ0 : φ = 1 / 2 := by
        have := hexact.mpr hone.1
        have hcast : ((fpUnit / 2 : Nat) : ℝ) = 1 / 2 * fpUnit := by norm_num [fpUnit]
        rw [hone.2, hcast] at hK
        exact mul_right_cancel₀ hU.ne' (by linarith)
      rw [hφ0, mul_one_div, Real.sin_pi_div_two, mul_one] at hsin
      have hreal : (fmtF32.dec (if flip = true then 0xBF800000 else 0x3F800000)).isReal (if flip = true then -1 else 1 : ℝ) := by
        cases flip
        · exact ⟨false, 2 ^ 23, -23, by decide, by norm_num⟩
        · exact ⟨true, 2 ^ 23, -23, by decide, by norm_num⟩
      refine ⟨withinAbs22_of_isReal (hsin ▸ hreal), fun n hn => absurd (hint n hn) hzero, fun n hn => ?_⟩
      rw [← (sin_pi_int n).2, ← hn, hsin]
      exact hreal
    · rw [if_neg hone]
      obtain ⟨henclo, henchi, hsmall, hsmall', hw⟩ := sinp_enclosure hmod (φ := φ) (by linarith) (by linarith)
      refine ⟨?_, fun n hn => absurd (hint n hn) hzero, fun n hn => absurd (hhalf n hn) hone⟩
      rw [hsin]
      cases flip
      · simpa using withinAbs22_withinAbs 4 x henclo henchi hsmall hw
      · have := withinAbs22_withinAbs 4 x (lo := -sinpHi h) (hi := -sinpLo h) (e := -80) (t := -Real.sin (Real.pi * φ)) (by push_cast; linarith)
          (by push_cast; linarith) (by push_cast; rwa [neg_mul, abs_neg]) (by push_cast; linarith)
        simpa using this

end Sys2Proof.Machine
end

section
/-! The approximate functions (04_numbers.md R108; 15_ref_d_i.md R375, R376; O6). -/

namespace Sys2Proof.Machine

/-- An approximate function writes the function of its operand's bits, with its flags. -/
theorem State.approx_computes {i : Instr} {f : FmtA} {val : Nat → Nat × Nat} (hexec : ∀ s, exec i s = s.approx f val) :
    i.computesFloat f.p [use1 f.d, use1 f.a] f.d 32 0 0 (fun l a => val (l.val a f.a 32)) :=
  Instr.computesFloat_of_each (draws := 0) _ hexec (by simp [useW_32]) (.inr (.inl rfl))
    (fun l m a hreads _ => by rw [hreads f.a 32 (by simp [useW_32])]) (fun _ => rfl)

section
variable {x m : Nat} {neg : Bool} {e : Int} (hdec : fmtF32.dec x = .fin neg m e) (hm : m ≠ 0)
include hdec hm

/-- FRSQ of a finite operand. -/
theorem frsqVal_fin (he : -149 ≤ e) (hbits : m < 2 ^ 24) {a : ℝ} (ha : a = (if neg then -1 else 1) * (m * 2 ^ e)) :
    (a < 0 → frsqVal x = (0x7FC00000, flagNV)) ∧ (0 < a → (frsqVal x).2 = 0 ∧ withinUlp (frsqVal x).1 (1 / Real.sqrt a) 2) := by
  have hw : (0 : ℝ) ≤ m * 2 ^ e := by positivity
  subst ha
  cases neg
  · simp only [Bool.false_eq_true, if_false, one_mul]
    exact ⟨fun h => absurd hw (not_le.mpr h), fun _ => frsqVal_pos hdec hm he hbits⟩
  · simp only [if_true, neg_one_mul]
    exact ⟨fun _ => frsqVal_neg hdec hm, fun h => absurd hw (by linarith)⟩

/-- FLOG2 of a finite operand. -/
theorem flog2Val_fin (he : -149 ≤ e) (he' : e ≤ 104) (hbits : m < 2 ^ 24) {a : ℝ} (ha : a = (if neg then -1 else 1) * (m * 2 ^ e)) :
    (a < 0 → flog2Val x = (0x7FC00000, flagNV)) ∧ (0 < a → IsLog2 (flog2Val x) a) := by
  have hw : (0 : ℝ) ≤ m * 2 ^ e := by positivity
  subst ha
  cases neg
  · simp only [Bool.false_eq_true, if_false, one_mul]
    exact ⟨fun h => absurd hw (not_le.mpr h), fun _ => flog2Val_pos hdec hm hbits he he'⟩
  · simp only [if_true, neg_one_mul]
    exact ⟨fun _ => flog2Val_neg hdec hm, fun h => absurd hw (by linarith)⟩

/-- FRCP of a finite operand, by its magnitude. -/
theorem frcpVal_fin (he : -149 ≤ e) (he' : e ≤ 104) (hbits : m < 2 ^ 24) {a : ℝ} (ha : a = (if neg then -1 else 1) * (m * 2 ^ e)) :
    ((2 : ℝ) ^ (-128 : Int) < |a| → |a| ≤ (2 : ℝ) ^ (126 : Int) → (frcpVal x).2 = 0 ∧ withinUlp (frcpVal x).1 (1 / a) 1)
      ∧ ((2 : ℝ) ^ (126 : Int) < |a| → (frcpVal x).2 = 0 ∧ ((frcpVal x).1 = fmtF32.signEnc neg 0
        ∨ ((frcpVal x).1 % 2 ^ 31 < 2 ^ 23 ∧ withinUlp (frcpVal x).1 (1 / a) 1)))
      ∧ (|a| ≤ (2 : ℝ) ^ (-128 : Int) → (frcpVal x).2 = 0
        ∧ ((frcpVal x).1 = fmtF32.signEnc neg 0 + 0x7F7FFFFF ∨ (frcpVal x).1 = fmtF32.signEnc neg 0 + 0x7F800000)) := by
  have habs : |a| = m * 2 ^ e := by
    rw [ha, abs_mul, abs_of_nonneg (show (0 : ℝ) ≤ m * 2 ^ e by positivity)]
    cases neg <;> simp
  have hinv : 1 / a = (if neg then -1 else 1) * (1 / (m * 2 ^ e)) := by
    rw [ha, one_div, mul_inv, one_div]
    cases neg <;> norm_num
  rw [habs, hinv]
  exact ⟨frcpVal_mid hdec hm he hbits, frcpVal_tiny hdec hm he he', frcpVal_huge hdec hm he⟩

end

/-- FEXP2 of a finite operand, from its two ranges. -/
theorem IsExp2.cases {v : Nat × Nat} {a : ℝ} (h : IsExp2 v a) : (128 ≤ a → v = (0x7F800000, flagOF))
    ∧ (a < 128 → v.2 = 0 ∧ withinUlp v.1 ((2 : ℝ) ^ a) 2)
    ∧ ∀ n : Int, a = n → -149 ≤ n → n < 128 → (fmtF32.dec v.1).isReal ((2 : ℝ) ^ n) := by
  obtain ⟨ha, hv⟩ | ⟨ha, hflags, hulp, hexact⟩ := h
  · refine ⟨fun _ => hv, fun h => absurd ha (not_le.mpr h), fun n hn _ hlt => absurd ha (not_le.mpr ?_)⟩
    rw [hn]
    exact_mod_cast hlt
  · exact ⟨fun h => absurd ha (not_lt.mpr h), fun _ => ⟨hflags, hulp⟩, fun n hn hle _ => hexact n hn hle⟩

/-- Settles O6: the special operands by their encodings, and each function of a finite operand by the enclosure that its result is chosen from. -/
theorem approximateFunctions : Obligations.ApproximateFunctions := by
  unfold Obligations.ApproximateFunctions
  refine ⟨fun f => ⟨?_, ?_, ?_, ?_, ?_⟩, fun x hx => ⟨fun sg => approx_nan, fun neg => approx_inf hx, approx_zero hx, fun a ha hreal => ?_⟩⟩
  · exact State.approx_computes fun _ => rfl
  · exact State.approx_computes fun _ => rfl
  · exact State.approx_computes fun _ => rfl
  · exact State.approx_computes fun _ => rfl
  · exact State.approx_computes fun _ => rfl
  · obtain ⟨neg, m, e, hdec, hsign, hm, hbits, he, he', rfl⟩ := fmtF32_operand hx ha hreal
    obtain ⟨hmid, htiny, hhuge⟩ := frcpVal_fin hdec hm he he' hbits rfl
    obtain ⟨hrsqNeg, hrsq⟩ := frsqVal_fin hdec hm he hbits rfl
    obtain ⟨hlogNeg, hlog⟩ := flog2Val_fin hdec hm he he' hbits rfl
    obtain ⟨hexpOver, hexp, hexpInt⟩ := (fexp2Val_fin hdec hm).cases
    rw [← hsign] at htiny hhuge
    have hsinp := fsinpVal_isSinp hdec
    rw [← hsign] at hsinp
    exact ⟨hmid, htiny, hhuge, fun h => ⟨hrsqNeg h, hlogNeg h⟩, hrsq, hexpOver, hexp, hexpInt, hlog, hsinp⟩

end Sys2Proof.Machine
end
